-- ==== Sys2Proof/Word.lean ====
section
/-! DEFINITION. The word types of the VX9 and the sparse map every register file and table is held in. -/
namespace Sys2Proof

/-- A byte of memory (R6). -/
abbrev Byte := BitVec 8
/-- A lane register, an instruction word (R21, R45). -/
abbrev Word := BitVec 32
/-- A scalar register (R68). -/
abbrev DWord := BitVec 64
/-- One bit per lane; bits at and above the group width are 0 (R74). -/
abbrev LaneMask := BitVec 64
/-- A 64-byte line as one value, byte 0 least significant (R234). -/
abbrev LineData := BitVec 512

/-- A finite map from numbers, in one canonical form: keys strictly rising, no entry that holds the default. -/
abbrev SMap (α : Type) := List (Nat × α)

end Sys2Proof
end

