-- ==== Sys2Proof/Syntax.lean ====
section
/-! DEFINITION. The operations and events of the VX9: one constructor per row of spec/opcode_table.json.
An instruction's arguments are the operand fields of its row, under the row's field letters; the chain bit [31]
belongs to the packet and is held beside the instruction (R21, R23). An event's arguments say which object it
meets and what the outside world reports with it. -/
namespace Sys2Proof

/-- The extension words of R26 that follow a host, as their payloads. -/
inductive Ext where
  | none
  | one (p1 : BitVec 24)
  | two (p1 p2 : BitVec 24)
deriving DecidableEq, Repr

/-- An immediate of an extensible major: its own field and its extension words (R26). -/
structure Imm (n : Nat) where
  short : BitVec n
  ext   : Ext
deriving DecidableEq, Repr

/-- The operations of the reduction and atomic units (R141, R153). -/
inductive AOp where
  | add | and | or | xor | maxS | maxU | minS | minU | swap
  | cas (expected : BitVec 64)
  | addF | maxF | minF
deriving DecidableEq, Repr

/-- What a request of another node does here (R318, R320 to R323). -/
inductive FabOp where
  | load (n : Nat)
  /-- Bytes stored, with the qualifier's format code, 15 for none. -/
  | store (bs : List (BitVec 8)) (fmt : BitVec 4)
  /-- A whole sector moved, with its side-band byte. -/
  | sector (line : BitVec 512) (side : BitVec 8)
  | stc (tag : Bool) (bits : BitVec 128)
  | atom (n : Nat) (op : AOp) (v : BitVec 64)
  | red (n : Nat) (op : AOp) (v : BitVec 64)
  /-- An open or a close of a window of that node to a context here. -/
  | openWin (ctx win : Nat)
  | closeWin (ctx win : Nat)
  /-- A message of a window of that node's context `src` to a context here, and its number there (R323). -/
  | msg (ctx src : Nat) (data : BitVec 32) (num : Nat)
deriving DecidableEq, Repr

/-- A request that reaches this package over the fabric: where it comes from, the world that it names here, the address, and
the requester's logical time (R317, R319). -/
structure FabReq where
  node   : Nat
  world  : Nat
  tworld : Nat
  pa     : Nat
  time   : Nat
  op     : FabOp
  /-- Its number at the requester, 0 where nothing waits for the answer. -/
  id     : Nat := 0
deriving DecidableEq, Repr

/-- The answer to a request (R317, R321, R342): the line with its side-band byte for a load, the old value for an atomic; the write
time and lease end that the directory gives; the cause of an integrity failure, 0 for none. -/
structure FabAns where
  id    : Nat
  wts   : Nat
  rts   : Nat
  integ : Nat := 0
  line  : BitVec 512 := 0
  side  : BitVec 8 := 0
deriving DecidableEq, Repr

/-- A data flit: sequence number, world, what it moves with the side-band byte of the sector (R61, R320), and, in the first
flit of a packet, the request or the answer (R326, R328). -/
structure Flit where
  seq   : BitVec 32
  world : Nat
  body  : BitVec 512
  side  : BitVec 8 := 0
  /-- It draws on its world's reserve, not on the shared pool (R326, R327). -/
  rsv   : Bool := false
  /-- The capabilities that arrive with it, as (tag, 128-bit value, physical address) (R320). -/
  caps  : List (Bool × BitVec 128 × Nat)
  req   : Option FabReq := none
  ans   : Option FabAns := none
deriving DecidableEq, Repr

/-- A credit report (R327): FREED, RCVD, and FREEDw for the worlds named. -/
structure Report where
  freed  : BitVec 32
  rcvd   : BitVec 32
  freedW : List (Nat × BitVec 32)
deriving DecidableEq, Repr

/-- The SPDM 1.3 requests the responder supports (R344). -/
inductive SpdmReq where
  | getVersion | getCapabilities | negotiateAlgorithms | getDigests | getCertificate (slot : Nat) | challenge
  | getMeasurements (index : BitVec 8) | keyExchange | finish | keyUpdate | heartbeat | endSession
  | vendorDefined (body : List (BitVec 8))
deriving DecidableEq, Repr

/-- A transfer over HBM, the fabric or a host link (R369, R371): its world, its energy in µJ, and what coding and elision saved. -/
structure Transfer where
  world : Nat
  energy : Nat
  hbmToggles : Nat
  fabToggles : Nat
  sectors : Nat
  flits : Nat
deriving DecidableEq, Repr

/-- Where a timing error has been detected (R365): the wing, and the block and group whose issue group is replayed. -/
structure ReplayAt where
  wing : Nat
  blk : Nat
  gix : Nat
deriving DecidableEq, Repr

/-- One image of the boot chain as ROM finds it (R350). -/
structure BootImage where
  bytes  : List (BitVec 8)
  /-- The public key that comes with it, and its ECDSA P-384 signature. -/
  key    : List (BitVec 8)
  sig    : BitVec 768
  secver : Nat
deriving DecidableEq, Repr

/-- The units of READY, WREADY and PREADY (R372). -/
inductive ReadyUnit where
  | cfg | hlm | cur (h : Nat) | cons (h : Nat) | coll (h : Nat) | host (h : Nat) | hbm (i : Nat) | cd (i : Nat)
  | wing (i : Nat) | port (i : Nat)
deriving DecidableEq, Repr

/-- The registers that have no row of their own (REGISTER_WRITE); one 64-bit write each. -/
inductive Reg where
  | qcfg (q : Nat) | wcfg (w : Nat) | wpre (w : Nat) | wpwr (w : Nat) | plim
  | ucfg (u : Nat) | udone (u : Nat) | ucanc (u : Nat)
  | cxworld (c : Nat) | cxstop (c : Nat) | cxslice (c : Nat) | cxs1 (c : Nat)
  | invaddr (w : Nat) | export0 (e : Nat) | export1 (e : Nat) | access (tnode node world tworld lo len : Nat)
  | wctl (n : Nat) | wva (n : Nat) | wlen (n : Nat) | xmtf (c : Nat) | xmpn (c : Nat) | bflen
  | cdctl (w : Nat) | cdbase (w : Nat) | cdlen (w : Nat) | cdaddr (w : Nat) | cddst (w : Nat)
  | keycmd (w : Nat) | keydst (w : Nat) | pregBase (i : Nat) | pregSize (i : Nat) | pregMac (i : Nat)
  | rvctl (c : Nat) | rvbase (c : Nat) | repair (d : Nat) | sriov
deriving DecidableEq, Repr
/-- Every operation and event of spec/opcode_table.json. -/
inductive Instr where
  /-- R24: The S-pipe no-operation word; it takes an issue cycle unless it is trailing padding. -/
  | nop
  /-- R69: Writes sd with the 64-bit sum of sa and sb, with no flags and no saturation. -/
  | sadd (d : BitVec 5) (a : BitVec 5) (b : BitVec 5)
  /-- R69: Writes sd with the 64-bit difference sa minus sb. -/
  | ssub (d : BitVec 5) (a : BitVec 5) (b : BitVec 5)
  /-- R69: Writes sd with the bitwise and of sa and sb. -/
  | sand (d : BitVec 5) (a : BitVec 5) (b : BitVec 5)
  /-- R69: Writes sd with the bitwise or of sa and sb. -/
  | sor (d : BitVec 5) (a : BitVec 5) (b : BitVec 5)
  /-- R69: Writes sd with the bitwise exclusive or of sa and sb. -/
  | sxor (d : BitVec 5) (a : BitVec 5) (b : BitVec 5)
  /-- R69: Writes sd with sa shifted left by sb[7:0], giving 0 for shifts of 64 or more. -/
  | sshl (d : BitVec 5) (a : BitVec 5) (b : BitVec 5)
  /-- R69: Writes sd with sa shifted right logically by sb[7:0]. -/
  | sshr (d : BitVec 5) (a : BitVec 5) (b : BitVec 5)
  /-- R69: Writes sd with sa shifted right arithmetically by sb[7:0]. -/
  | ssra (d : BitVec 5) (a : BitVec 5) (b : BitVec 5)
  /-- R69: Writes sd with the low 64 bits of sa times sb. -/
  | smul (d : BitVec 5) (a : BitVec 5) (b : BitVec 5)
  /-- R69: Writes sd with the high 64 bits of the signed product of sa and sb. -/
  | smulhI64 (d : BitVec 5) (a : BitVec 5) (b : BitVec 5)
  /-- R69: Writes sd with the high 64 bits of the unsigned product of sa and sb. -/
  | smulhU64 (d : BitVec 5) (a : BitVec 5) (b : BitVec 5)
  /-- R69: Writes sd with the signed minimum of sa and sb. -/
  | sminI64 (d : BitVec 5) (a : BitVec 5) (b : BitVec 5)
  /-- R69: Writes sd with the unsigned minimum of sa and sb. -/
  | sminU64 (d : BitVec 5) (a : BitVec 5) (b : BitVec 5)
  /-- R69: Writes sd with the signed maximum of sa and sb. -/
  | smaxI64 (d : BitVec 5) (a : BitVec 5) (b : BitVec 5)
  /-- R69: Writes sd with the unsigned maximum of sa and sb. -/
  | smaxU64 (d : BitVec 5) (a : BitVec 5) (b : BitVec 5)
  /-- R69: Writes sd with sa plus a sign-extended imm9 or extension immediate. -/
  | saddImm (d : BitVec 5) (a : BitVec 5) (i : Imm 9)
  /-- R69: Writes sd with sa minus the immediate. -/
  | ssubImm (d : BitVec 5) (a : BitVec 5) (i : Imm 9)
  /-- R69: Writes sd with sa and the immediate. -/
  | sandImm (d : BitVec 5) (a : BitVec 5) (i : Imm 9)
  /-- R69: Writes sd with sa or the immediate. -/
  | sorImm (d : BitVec 5) (a : BitVec 5) (i : Imm 9)
  /-- R69: Writes sd with sa exclusive-or the immediate. -/
  | sxorImm (d : BitVec 5) (a : BitVec 5) (i : Imm 9)
  /-- R69: Writes sd with sa shifted left by the immediate's low 8 bits. -/
  | sshlImm (d : BitVec 5) (a : BitVec 5) (i : Imm 9)
  /-- R69: Writes sd with sa shifted right logically by the immediate. -/
  | sshrImm (d : BitVec 5) (a : BitVec 5) (i : Imm 9)
  /-- R69: Writes sd with sa shifted right arithmetically by the immediate. -/
  | ssraImm (d : BitVec 5) (a : BitVec 5) (i : Imm 9)
  /-- R69: Writes sd with the low 64 bits of sa times the immediate. -/
  | smulImm (d : BitVec 5) (a : BitVec 5) (i : Imm 9)
  /-- R69: Writes sd with the high half of the signed product of sa and the immediate. -/
  | smulhI64Imm (d : BitVec 5) (a : BitVec 5) (i : Imm 9)
  /-- R69: Writes sd with the high half of the unsigned product of sa and the immediate. -/
  | smulhU64Imm (d : BitVec 5) (a : BitVec 5) (i : Imm 9)
  /-- R69: Writes sd with the signed minimum of sa and the immediate. -/
  | sminI64Imm (d : BitVec 5) (a : BitVec 5) (i : Imm 9)
  /-- R69: Writes sd with the unsigned minimum of sa and the immediate. -/
  | sminU64Imm (d : BitVec 5) (a : BitVec 5) (i : Imm 9)
  /-- R69: Writes sd with the signed maximum of sa and the immediate. -/
  | smaxI64Imm (d : BitVec 5) (a : BitVec 5) (i : Imm 9)
  /-- R69: Writes sd with the unsigned maximum of sa and the immediate. -/
  | smaxU64Imm (d : BitVec 5) (a : BitVec 5) (i : Imm 9)
  /-- R70: Writes sd with 1 when sa equals sb, else 0. -/
  | scmpEq (d : BitVec 5) (a : BitVec 5) (b : BitVec 5)
  /-- R70: Writes sd with 1 when sa differs from sb, else 0. -/
  | scmpNe (d : BitVec 5) (a : BitVec 5) (b : BitVec 5)
  /-- R70: Writes sd with 1 when sa is signed-less than sb. -/
  | scmpLtI64 (d : BitVec 5) (a : BitVec 5) (b : BitVec 5)
  /-- R70: Writes sd with 1 when sa is signed-greater or equal to sb. -/
  | scmpGeI64 (d : BitVec 5) (a : BitVec 5) (b : BitVec 5)
  /-- R70: Writes sd with 1 when sa is unsigned-less than sb. -/
  | scmpLtU64 (d : BitVec 5) (a : BitVec 5) (b : BitVec 5)
  /-- R70: Writes sd with 1 when sa is unsigned-greater or equal to sb. -/
  | scmpGeU64 (d : BitVec 5) (a : BitVec 5) (b : BitVec 5)
  /-- R70: Writes sd with 1 when sa equals the immediate. -/
  | scmpEqImm (d : BitVec 5) (a : BitVec 5) (i : Imm 9)
  /-- R70: Writes sd with 1 when sa differs from the immediate. -/
  | scmpNeImm (d : BitVec 5) (a : BitVec 5) (i : Imm 9)
  /-- R70: Writes sd with 1 when sa is signed-less than the immediate. -/
  | scmpLtI64Imm (d : BitVec 5) (a : BitVec 5) (i : Imm 9)
  /-- R70: Writes sd with 1 when sa is signed-greater or equal to the immediate. -/
  | scmpGeI64Imm (d : BitVec 5) (a : BitVec 5) (i : Imm 9)
  /-- R70: Writes sd with 1 when sa is unsigned-less than the immediate. -/
  | scmpLtU64Imm (d : BitVec 5) (a : BitVec 5) (i : Imm 9)
  /-- R70: Writes sd with 1 when sa is unsigned-greater or equal to the immediate. -/
  | scmpGeU64Imm (d : BitVec 5) (a : BitVec 5) (i : Imm 9)
  /-- R71: Writes sd with a sign-extended imm19 or extension immediate. -/
  | smovi (d : BitVec 5) (i : Imm 19)
  /-- R72: Sets the split's program counter to this packet plus off24. -/
  | br (o : BitVec 24)
  /-- R73: Branches when sa is zero. -/
  | brcEq0 (a : BitVec 5) (o : BitVec 16)
  /-- R73: Branches when sa is nonzero. -/
  | brcNe0 (a : BitVec 5) (o : BitVec 16)
  /-- R73: Branches when sa is negative. -/
  | brcLt0 (a : BitVec 5) (o : BitVec 16)
  /-- R73: Branches when sa is non-negative. -/
  | brcGe0 (a : BitVec 5) (o : BitVec 16)
  /-- R73: Branches when Z is 1 in every active lane of the split. -/
  | brcZ (o : BitVec 16)
  /-- R73: Branches when Z is 0 in every active lane of the split. -/
  | brcNz (o : BitVec 16)
  /-- R73: Branches when C is 1 in every active lane of the split. -/
  | brcC (o : BitVec 16)
  /-- R73: Branches when C is 0 in every active lane of the split. -/
  | brcNc (o : BitVec 16)
  /-- R77: Pushes a call record, makes room by spilling, slides the window base and branches. -/
  | call (l : BitVec 3) (o : BitVec 21)
  /-- R79: Pops the newest call record, restores the window base with fills and returns. -/
  | ret
  /-- R74: Sends lanes with a nonzero source to the target, dividing the split when the active lanes disagree. -/
  | split (a : BitVec 6) (o : BitVec 18)
  /-- R75: Makes the split wait at a merge point until the group's splits combine. -/
  | merge
  /-- R81: Stops the split until the named wait counter is at or below the limit. -/
  | waitc (n : BitVec 2) (l : BitVec 6)
  /-- R83: Makes the split wait at block barrier n. -/
  | bar (n : BitVec 4)
  /-- R85: Binds a queue code to push to a channel of the block. -/
  | qbindPush (q : BitVec 2) (h : BitVec 4)
  /-- R85: Binds a queue code to pop from a channel of the block. -/
  | qbindPop (q : BitVec 2) (h : BitVec 4)
  /-- R85: Unbinds a queue code. -/
  | qbindUnbind (q : BitVec 2)
  /-- R88: Reads a status register into sd, optionally clearing its clearable bits. -/
  | sstat (d : BitVec 5) (r : BitVec 6) (l : BitVec 1)
  /-- R76: Writes the split's active mask to a scalar register. -/
  | smaskRd (s : BitVec 5)
  /-- R76: Sets the split's active mask to s AND its membership, unless the result is 0. -/
  | smaskWr (s : BitVec 5)
  /-- R90: Gathers one lane flag of every active lane into sd. -/
  | sflags (d : BitVec 5) (f : BitVec 3)
  /-- R91: Writes sd with one lane's 32-bit value of a source. -/
  | slane (d : BitVec 5) (a : BitVec 6) (l : BitVec 6)
  /-- R97: Adds a and b per element in the integer type, wrapping or saturating, optionally writing flags. -/
  | vaddInt (d : BitVec 6) (s : BitVec 1) (a : BitVec 6) (b : BitVec 6) (g : BitVec 1) (t : BitVec 1) (y : BitVec 3)
  /-- R97: Subtracts b from a per element in the integer type. -/
  | vsubInt (d : BitVec 6) (s : BitVec 1) (a : BitVec 6) (b : BitVec 6) (g : BitVec 1) (t : BitVec 1) (y : BitVec 3)
  /-- R97: Multiplies a and b per element, keeping the low bits or saturating. -/
  | vmulInt (d : BitVec 6) (s : BitVec 1) (a : BitVec 6) (b : BitVec 6) (t : BitVec 1) (y : BitVec 3)
  /-- R97: Writes the high half of the exact product of a and b. -/
  | vmulh (d : BitVec 6) (s : BitVec 1) (a : BitVec 6) (b : BitVec 6) (y : BitVec 2)
  /-- R97: Adds the product of a and b to d per element. -/
  | vmad (d : BitVec 6) (s : BitVec 1) (a : BitVec 6) (b : BitVec 6) (t : BitVec 1) (y : BitVec 3)
  /-- R97: Writes the smaller of a and b per element. -/
  | vminInt (d : BitVec 6) (s : BitVec 1) (a : BitVec 6) (b : BitVec 6) (y : BitVec 3)
  /-- R97: Writes the larger of a and b per element. -/
  | vmaxInt (d : BitVec 6) (s : BitVec 1) (a : BitVec 6) (b : BitVec 6) (y : BitVec 3)
  /-- R97: Writes the absolute difference of a and b per element. -/
  | vabsd (d : BitVec 6) (s : BitVec 1) (a : BitVec 6) (b : BitVec 6) (y : BitVec 3)
  /-- R99: Writes a AND b bit by bit. -/
  | vand (d : BitVec 6) (s : BitVec 1) (a : BitVec 6) (b : BitVec 6) (g : BitVec 1) (y : BitVec 1)
  /-- R99: Writes a OR b bit by bit. -/
  | vor (d : BitVec 6) (s : BitVec 1) (a : BitVec 6) (b : BitVec 6) (g : BitVec 1) (y : BitVec 1)
  /-- R99: Writes a XOR b bit by bit. -/
  | vxor (d : BitVec 6) (s : BitVec 1) (a : BitVec 6) (b : BitVec 6) (g : BitVec 1) (y : BitVec 1)
  /-- R99: Writes a AND NOT b bit by bit. -/
  | vandn (d : BitVec 6) (s : BitVec 1) (a : BitVec 6) (b : BitVec 6) (g : BitVec 1) (y : BitVec 1)
  /-- R100: Shifts each element of a left by its amount from b. -/
  | vshl (d : BitVec 6) (s : BitVec 1) (a : BitVec 6) (b : BitVec 6) (y : BitVec 3)
  /-- R100: Shifts each element of a right with zeros in. -/
  | vshr (d : BitVec 6) (s : BitVec 1) (a : BitVec 6) (b : BitVec 6) (y : BitVec 3)
  /-- R100: Shifts each element of a right with sign copies in. -/
  | vsra (d : BitVec 6) (s : BitVec 1) (a : BitVec 6) (b : BitVec 6) (y : BitVec 3)
  /-- R106: Compares a with b per lane and writes the condition codes. -/
  | vcmpInt (a : BitVec 6) (b : BitVec 6) (y : BitVec 3)
  /-- R98: Adds a, b and the lane's C, chaining multi-word additions. -/
  | vaddx (d : BitVec 6) (s : BitVec 1) (a : BitVec 6) (b : BitVec 6) (g : BitVec 1) (y : BitVec 2)
  /-- R98: Subtracts b and the borrow from a, chaining multi-word subtractions. -/
  | vsubx (d : BitVec 6) (s : BitVec 1) (a : BitVec 6) (b : BitVec 6) (g : BitVec 1) (y : BitVec 2)
  /-- R105: Chooses a or b per lane by a flag test. -/
  | vselFlag (d : BitVec 6) (s : BitVec 1) (a : BitVec 6) (b : BitVec 6) (e : BitVec 4)
  /-- R105: Chooses bytes of a or b per lane by a predicate register. -/
  | vselPred (d : BitVec 6) (s : BitVec 1) (a : BitVec 6) (b : BitVec 6) (p : BitVec 3)
  /-- R108: Adds a and b into the sub-elements that the predicate selects. -/
  | vaddMasked (d : BitVec 6) (s : BitVec 1) (a : BitVec 6) (b : BitVec 6) (p : BitVec 3) (y : BitVec 2)
  /-- R108: Subtracts b from a into the sub-elements that the predicate selects. -/
  | vsubMasked (d : BitVec 6) (s : BitVec 1) (a : BitVec 6) (b : BitVec 6) (p : BitVec 3) (y : BitVec 2)
  /-- R108: Copies a into the sub-elements that the predicate selects. -/
  | vmovMasked (d : BitVec 6) (s : BitVec 1) (a : BitVec 6) (p : BitVec 3) (y : BitVec 2)
  /-- R101: Adds a sign-extended immediate to d per element. -/
  | vaddImm (d : BitVec 6) (s : BitVec 1) (i : Imm 11) (g : BitVec 1) (t : BitVec 1) (y : BitVec 3)
  /-- R101: Ands d with an immediate. -/
  | vandImm (d : BitVec 6) (s : BitVec 1) (i : Imm 11) (g : BitVec 1) (y : BitVec 1)
  /-- R101: Ors d with an immediate. -/
  | vorImm (d : BitVec 6) (s : BitVec 1) (i : Imm 11) (g : BitVec 1) (y : BitVec 1)
  /-- R101: Shifts d left by an immediate amount. -/
  | vshlImm (d : BitVec 6) (s : BitVec 1) (i : BitVec 11) (y : BitVec 3)
  /-- R101: Shifts d right logically by an immediate amount. -/
  | vshrImm (d : BitVec 6) (s : BitVec 1) (i : BitVec 11) (y : BitVec 3)
  /-- R101: Shifts d right arithmetically by an immediate amount. -/
  | vsraImm (d : BitVec 6) (s : BitVec 1) (i : BitVec 11) (y : BitVec 3)
  /-- R102: Writes a constant to every active lane. -/
  | vmovi (d : BitVec 6) (s : BitVec 1) (i : Imm 17)
  /-- R110: Writes each lane with a from the lane that its b names. -/
  | vperm (d : BitVec 6) (s : BitVec 1) (a : BitVec 6) (b : BitVec 6)
  /-- R110: Broadcasts a from the lane named by the lowest active lane's b. -/
  | vbcast (d : BitVec 6) (s : BitVec 1) (a : BitVec 6) (b : BitVec 6)
  /-- R110: Writes the inclusive prefix sum of a over the active lanes. -/
  | vscanAddI32 (d : BitVec 6) (s : BitVec 1) (a : BitVec 6)
  /-- R110: Writes the sum of a over all active lanes. -/
  | vredAddI32 (d : BitVec 6) (s : BitVec 1) (a : BitVec 6)
  /-- R110: Writes the signed maximum of a over the active lanes. -/
  | vredMaxI32 (d : BitVec 6) (s : BitVec 1) (a : BitVec 6)
  /-- R110: Writes the signed minimum of a over the active lanes. -/
  | vredMinI32 (d : BitVec 6) (s : BitVec 1) (a : BitVec 6)
  /-- R104: Writes sa[31:0] into d of every active lane. -/
  | vfroms (d : BitVec 6) (s : BitVec 1) (a : BitVec 5)
  /-- R109: Writes each predicate bit from a byte comparison of a and b. -/
  | pcmpB (d : BitVec 3) (a : BitVec 6) (b : BitVec 6) (t : BitVec 4)
  /-- R109: Writes pd with pa AND pb. -/
  | pand (d : BitVec 3) (a : BitVec 3) (b : BitVec 3)
  /-- R109: Writes pd with pa OR pb. -/
  | por (d : BitVec 3) (a : BitVec 3) (b : BitVec 3)
  /-- R109: Writes pd with pa XOR pb. -/
  | pxor (d : BitVec 3) (a : BitVec 3) (b : BitVec 3)
  /-- R109: Writes pd with NOT pa. -/
  | pnot (d : BitVec 3) (a : BitVec 3)
  /-- R109: Sets all four predicate bits to the lane's flag test. -/
  | pfromcc (d : BitVec 3) (e : BitVec 4)
  /-- R111: Adds a and b in the float type, rounded once by the mode. -/
  | vaddFloat (d : BitVec 6) (s : BitVec 1) (a : BitVec 6) (b : BitVec 6) (r : BitVec 3) (y : BitVec 2)
  /-- R111: Subtracts b from a in the float type. -/
  | vsubFloat (d : BitVec 6) (s : BitVec 1) (a : BitVec 6) (b : BitVec 6) (r : BitVec 3) (y : BitVec 2)
  /-- R111: Multiplies a and b in the float type. -/
  | vmulFloat (d : BitVec 6) (s : BitVec 1) (a : BitVec 6) (b : BitVec 6) (r : BitVec 3) (y : BitVec 2)
  /-- R111: Adds a times b to d with one rounding. -/
  | vfma (d : BitVec 6) (s : BitVec 1) (a : BitVec 6) (b : BitVec 6) (r : BitVec 3) (y : BitVec 2)
  /-- R111: Subtracts a times b from d with one rounding. -/
  | vfms (d : BitVec 6) (s : BitVec 1) (a : BitVec 6) (b : BitVec 6) (r : BitVec 3) (y : BitVec 2)
  /-- R112: Returns the smaller float operand, preferring a number over a NaN. -/
  | vminFloat (d : BitVec 6) (s : BitVec 1) (a : BitVec 6) (b : BitVec 6) (y : BitVec 2)
  /-- R112: Returns the larger float operand, preferring a number over a NaN. -/
  | vmaxFloat (d : BitVec 6) (s : BitVec 1) (a : BitVec 6) (b : BitVec 6) (y : BitVec 2)
  /-- R113: Compares floats quietly and writes N, Z, C and V. -/
  | vcmpFloat (a : BitVec 6) (b : BitVec 6) (y : BitVec 2)
  /-- R114: Writes the magnitude of a. -/
  | vabs (d : BitVec 6) (s : BitVec 1) (a : BitVec 6) (r : BitVec 3) (y : BitVec 2)
  /-- R114: Writes the negation of a. -/
  | vneg (d : BitVec 6) (s : BitVec 1) (a : BitVec 6) (r : BitVec 3) (y : BitVec 2)
  /-- R114: Writes the correctly rounded square root of a. -/
  | vsqrt (d : BitVec 6) (s : BitVec 1) (a : BitVec 6) (r : BitVec 3) (y : BitVec 2)
  /-- R114: Writes the reciprocal of a within 1 ulp. -/
  | vrcp (d : BitVec 6) (s : BitVec 1) (a : BitVec 6) (r : BitVec 3) (y : BitVec 2)
  /-- R114: Writes the reciprocal square root of a within 2 ulp. -/
  | vrsqrt (d : BitVec 6) (s : BitVec 1) (a : BitVec 6) (r : BitVec 3) (y : BitVec 2)
  /-- R114: Writes 2 to the power a. -/
  | vexp2 (d : BitVec 6) (s : BitVec 1) (a : BitVec 6) (r : BitVec 3) (y : BitVec 2)
  /-- R114: Writes the base-2 logarithm of a. -/
  | vlog2 (d : BitVec 6) (s : BitVec 1) (a : BitVec 6) (r : BitVec 3) (y : BitVec 2)
  /-- R114: Writes the sine of a in radians. -/
  | vsin (d : BitVec 6) (s : BitVec 1) (a : BitVec 6) (r : BitVec 3) (y : BitVec 2)
  /-- R114: Writes the cosine of a in radians. -/
  | vcos (d : BitVec 6) (s : BitVec 1) (a : BitVec 6) (r : BitVec 3) (y : BitVec 2)
  /-- R114: Writes the hyperbolic tangent of a. -/
  | vtanh (d : BitVec 6) (s : BitVec 1) (a : BitVec 6) (r : BitVec 3) (y : BitVec 2)
  /-- R115: Writes a one-hot mask of the float class of a. -/
  | vclass (d : BitVec 6) (s : BitVec 1) (a : BitVec 6) (y : BitVec 2)
  /-- R116: Converts a to the destination type, wrapping on integer overflow. -/
  | vcvt (d : BitVec 6) (s : BitVec 1) (a : BitVec 6) (t : BitVec 4) (u : BitVec 4) (r : BitVec 3)
  /-- R116: Converts a to the destination type, clamping values that do not fit. -/
  | vcvtSat (d : BitVec 6) (s : BitVec 1) (a : BitVec 6) (t : BitVec 4) (u : BitVec 4) (r : BitVec 3)
  /-- R119: Converts a binary32 value into one element of a block format at position pos of d. -/
  | vpackb (d : BitVec 6) (s : BitVec 1) (a : BitVec 6) (u : BitVec 4) (r : BitVec 3) (t : BitVec 1) (n : BitVec 3)
  /-- R120: Writes the scaled binary32 value of one block-format element. -/
  | vunpackb (d : BitVec 6) (s : BitVec 1) (a : BitVec 6) (u : BitVec 4) (r : BitVec 3) (n : BitVec 3)
  /-- R118: Computes a block scale word from the magnitudes to cover. -/
  | vscale (d : BitVec 6) (s : BitVec 1) (a : BitVec 6) (b : BitVec 6) (u : BitVec 4)
  /-- R144: Writes the per-lane product of an m x k and a k x n matrix. -/
  | mmul (d : BitVec 5) (a : BitVec 5) (b : BitVec 5) (m : BitVec 3) (k : BitVec 3) (n : BitVec 3)
  /-- R145: Copies a per-lane matrix transposed. -/
  | mtrans (d : BitVec 6) (a : BitVec 6) (r : BitVec 3) (l : BitVec 3)
  /-- R147: Factors a per-lane symmetric matrix as L times L transposed, noting singular pivots. -/
  | mchol (d : BitVec 6) (a : BitVec 6) (r : BitVec 3) (l : BitVec 3)
  /-- R148: Factors a per-lane matrix by LU with partial pivoting and writes the pivot word. -/
  | mlu (d : BitVec 6) (a : BitVec 6) (r : BitVec 3) (l : BitVec 3)
  /-- R149: Solves a lower-triangular system per lane. -/
  | mtrsl (d : BitVec 6) (a : BitVec 6) (b : BitVec 6) (r : BitVec 3) (l : BitVec 3)
  /-- R149: Solves an upper-triangular system per lane. -/
  | mtrsu (d : BitVec 6) (a : BitVec 6) (b : BitVec 6) (r : BitVec 3) (l : BitVec 3)
  /-- R150: Solves A x = b from a Cholesky factor per lane. -/
  | msolveChol (d : BitVec 6) (a : BitVec 6) (b : BitVec 6) (r : BitVec 3) (l : BitVec 3)
  /-- R150: Solves A x = b from an LU factor and pivot word per lane. -/
  | msolveLu (d : BitVec 6) (a : BitVec 6) (b : BitVec 6) (r : BitVec 3) (l : BitVec 3)
  /-- R128: Narrows a capability's reach to start at its cursor with the requested length. -/
  | cbnd (d : BitVec 4) (v : BitVec 1) (a : BitVec 4) (x : BitVec 6)
  /-- R128: Narrows a capability's reach and keeps the tag only when the bounds are exact. -/
  | cbndX (d : BitVec 4) (v : BitVec 1) (a : BitVec 4) (x : BitVec 6)
  /-- R128: Sets the cursor to the base plus a signed offset. -/
  | coff (d : BitVec 4) (v : BitVec 1) (a : BitVec 4) (x : BitVec 6)
  /-- R128: Moves the cursor by a signed offset. -/
  | cinc (d : BitVec 4) (v : BitVec 1) (a : BitVec 4) (x : BitVec 6)
  /-- R128: Ands the permission bits of a capability with a mask. -/
  | cperm (d : BitVec 4) (v : BitVec 1) (a : BitVec 4) (x : BitVec 6)
  /-- R128: Seals a capability with a type key's type. -/
  | cseal (d : BitVec 4) (v : BitVec 1) (a : BitVec 4) (b : BitVec 4)
  /-- R128: Unseals a capability with a matching type key. -/
  | cunseal (d : BitVec 4) (v : BitVec 1) (a : BitVec 4) (b : BitVec 4)
  /-- R129: Copies a capability between scalar and vector capability registers. -/
  | cmov (d : BitVec 4) (v : BitVec 1) (a : BitVec 4) (w : BitVec 2)
  /-- R128: Copies a capability with its tag cleared. -/
  | cuntag (d : BitVec 4) (v : BitVec 1) (a : BitVec 4) (x : BitVec 6)
  /-- R130: Writes the decoded base of a capability. -/
  | cgetBase (d : BitVec 6) (v : BitVec 1) (a : BitVec 4)
  /-- R130: Writes the decoded top of a capability. -/
  | cgetTop (d : BitVec 6) (v : BitVec 1) (a : BitVec 4)
  /-- R130: Writes the cursor's offset from the base. -/
  | cgetPos (d : BitVec 6) (v : BitVec 1) (a : BitVec 4)
  /-- R130: Writes the bytes from the cursor to the top. -/
  | cgetRoom (d : BitVec 6) (v : BitVec 1) (a : BitVec 4)
  /-- R130: Writes the permission bits. -/
  | cgetPerm (d : BitVec 6) (v : BitVec 1) (a : BitVec 4)
  /-- R130: Writes the object type. -/
  | cgetType (d : BitVec 6) (v : BitVec 1) (a : BitVec 4)
  /-- R130: Writes the tag bit. -/
  | cgetTag (d : BitVec 6) (v : BitVec 1) (a : BitVec 4)
  /-- R130: Writes the cursor. -/
  | cgetAddr (d : BitVec 6) (v : BitVec 1) (a : BitVec 4)
  /-- R130: Writes the reach exponent E. -/
  | cgetExp (d : BitVec 6) (v : BitVec 1) (a : BitVec 4)
  /-- R133: Loads 1 to 8 bytes per lane through a capability plus an offset register, checking each lane. -/
  | ldReg (d : BitVec 6) (s : BitVec 1) (v : BitVec 1) (k : BitVec 4) (x : BitVec 6) (z : BitVec 2) (m : BitVec 4)
  /-- R133: Loads per lane through a capability plus a scaled immediate offset. -/
  | ldImm (d : BitVec 6) (s : BitVec 1) (v : BitVec 1) (k : BitVec 4) (i : Imm 6) (z : BitVec 2) (m : BitVec 4)
  /-- R133: Stores per lane through a capability plus an offset register, clearing tags and writing the format code. -/
  | stReg (d : BitVec 6) (v : BitVec 1) (k : BitVec 4) (x : BitVec 6) (z : BitVec 2) (m : BitVec 4)
  /-- R133: Stores per lane through a capability plus a scaled immediate offset. -/
  | stImm (d : BitVec 6) (v : BitVec 1) (k : BitVec 4) (i : Imm 6) (z : BitVec 2) (m : BitVec 4)
  /-- R134: Loads a 16-byte capability and its tag per lane, filtered by revocation. -/
  | ldc (d : BitVec 4) (e : BitVec 1) (v : BitVec 1) (k : BitVec 4) (x : BitVec 6)
  /-- R134: Stores a 16-byte capability and its tag per lane. -/
  | stc (d : BitVec 4) (e : BitVec 1) (v : BitVec 1) (k : BitVec 4) (x : BitVec 6)
  /-- R136: Loads scratchpad granules once every active lane's granule is full. -/
  | ldfe (d : BitVec 6) (s : BitVec 1) (v : BitVec 1) (k : BitVec 4) (x : BitVec 6) (z : BitVec 1)
  /-- R136: Loads full scratchpad granules and then makes them empty. -/
  | ldfeClr (d : BitVec 6) (s : BitVec 1) (v : BitVec 1) (k : BitVec 4) (x : BitVec 6) (z : BitVec 1)
  /-- R136: Stores to scratchpad granules and makes them full. -/
  | stfe (d : BitVec 6) (v : BitVec 1) (k : BitVec 4) (x : BitVec 6) (z : BitVec 1)
  /-- R137: Maps a scratchpad range as a stash region of virtual memory, or unmaps one with write-back. -/
  | smap (a : BitVec 5) (b : BitVec 5) (k : BitVec 4)
  /-- R137: Writes back the dirty bytes of the stash lines in a range. -/
  | sflush (a : BitVec 5) (b : BitVec 5)
  /-- R139: Binds a stream pattern register with counts, strides and a capability. -/
  | patset (p : BitVec 2) (k : BitVec 4) (a : BitVec 5) (b : BitVec 5)
  /-- R141: Sends each lane's value to add into memory at the reduction unit. -/
  | redmAdd (a : BitVec 6) (v : BitVec 1) (k : BitVec 4) (x : BitVec 6) (y : BitVec 2)
  /-- R141: Sends each lane's value to take the maximum with memory at the reduction unit. -/
  | redmMax (a : BitVec 6) (v : BitVec 1) (k : BitVec 4) (x : BitVec 6) (y : BitVec 2)
  /-- R141: Sends each lane's value to take the minimum with memory at the reduction unit. -/
  | redmMin (a : BitVec 6) (v : BitVec 1) (k : BitVec 4) (x : BitVec 6) (y : BitVec 2)
  /-- R153: Atomically adds to a 32-bit word per lane and returns the old value. -/
  | amadd32 (d : BitVec 6) (s : BitVec 1) (v : BitVec 1) (k : BitVec 4) (b : BitVec 6) (e : BitVec 3)
  /-- R153: Atomically ands a 32-bit word. -/
  | amand32 (d : BitVec 6) (s : BitVec 1) (v : BitVec 1) (k : BitVec 4) (b : BitVec 6) (e : BitVec 3)
  /-- R153: Atomically ors a 32-bit word. -/
  | amor32 (d : BitVec 6) (s : BitVec 1) (v : BitVec 1) (k : BitVec 4) (b : BitVec 6) (e : BitVec 3)
  /-- R153: Atomically exclusive-ors a 32-bit word. -/
  | amxor32 (d : BitVec 6) (s : BitVec 1) (v : BitVec 1) (k : BitVec 4) (b : BitVec 6) (e : BitVec 3)
  /-- R153: Atomically takes the signed maximum of a 32-bit word. -/
  | ammaxI32 (d : BitVec 6) (s : BitVec 1) (v : BitVec 1) (k : BitVec 4) (b : BitVec 6) (e : BitVec 3)
  /-- R153: Atomically takes the unsigned maximum of a 32-bit word. -/
  | ammaxU32 (d : BitVec 6) (s : BitVec 1) (v : BitVec 1) (k : BitVec 4) (b : BitVec 6) (e : BitVec 3)
  /-- R153: Atomically takes the signed minimum of a 32-bit word. -/
  | amminI32 (d : BitVec 6) (s : BitVec 1) (v : BitVec 1) (k : BitVec 4) (b : BitVec 6) (e : BitVec 3)
  /-- R153: Atomically takes the unsigned minimum of a 32-bit word. -/
  | amminU32 (d : BitVec 6) (s : BitVec 1) (v : BitVec 1) (k : BitVec 4) (b : BitVec 6) (e : BitVec 3)
  /-- R153: Atomically adds to a 64-bit word. -/
  | amadd64 (d : BitVec 6) (s : BitVec 1) (v : BitVec 1) (k : BitVec 4) (b : BitVec 6) (e : BitVec 3)
  /-- R153: Atomically ands a 64-bit word. -/
  | amand64 (d : BitVec 6) (s : BitVec 1) (v : BitVec 1) (k : BitVec 4) (b : BitVec 6) (e : BitVec 3)
  /-- R153: Atomically ors a 64-bit word. -/
  | amor64 (d : BitVec 6) (s : BitVec 1) (v : BitVec 1) (k : BitVec 4) (b : BitVec 6) (e : BitVec 3)
  /-- R153: Atomically exclusive-ors a 64-bit word. -/
  | amxor64 (d : BitVec 6) (s : BitVec 1) (v : BitVec 1) (k : BitVec 4) (b : BitVec 6) (e : BitVec 3)
  /-- R153: Atomically takes the signed maximum of a 64-bit word. -/
  | ammaxI64 (d : BitVec 6) (s : BitVec 1) (v : BitVec 1) (k : BitVec 4) (b : BitVec 6) (e : BitVec 3)
  /-- R153: Atomically takes the unsigned maximum of a 64-bit word. -/
  | ammaxU64 (d : BitVec 6) (s : BitVec 1) (v : BitVec 1) (k : BitVec 4) (b : BitVec 6) (e : BitVec 3)
  /-- R153: Atomically takes the signed minimum of a 64-bit word. -/
  | amminI64 (d : BitVec 6) (s : BitVec 1) (v : BitVec 1) (k : BitVec 4) (b : BitVec 6) (e : BitVec 3)
  /-- R153: Atomically takes the unsigned minimum of a 64-bit word. -/
  | amminU64 (d : BitVec 6) (s : BitVec 1) (v : BitVec 1) (k : BitVec 4) (b : BitVec 6) (e : BitVec 3)
  /-- R153: Atomically swaps a 32-bit word. -/
  | amswap32 (d : BitVec 6) (s : BitVec 1) (v : BitVec 1) (k : BitVec 4) (b : BitVec 6) (e : BitVec 3)
  /-- R153: Atomically compares a 32-bit word with d and stores b on equality. -/
  | amcas32 (d : BitVec 6) (s : BitVec 1) (v : BitVec 1) (k : BitVec 4) (b : BitVec 6) (e : BitVec 3)
  /-- R153: Atomically swaps a 64-bit word. -/
  | amswap64 (d : BitVec 6) (s : BitVec 1) (v : BitVec 1) (k : BitVec 4) (b : BitVec 6) (e : BitVec 3)
  /-- R153: Atomically compares and swaps a 64-bit word. -/
  | amcas64 (d : BitVec 6) (s : BitVec 1) (v : BitVec 1) (k : BitVec 4) (b : BitVec 6) (e : BitVec 3)
  /-- R153: Atomically adds a binary32 value with RN rounding. -/
  | amaddF32 (d : BitVec 6) (s : BitVec 1) (v : BitVec 1) (k : BitVec 4) (b : BitVec 6) (e : BitVec 3)
  /-- R161: Opens a lane transaction in each active lane and reserves a split number. -/
  | txbeg (d : BitVec 6)
  /-- R164: Resolves lane conflicts, validates read sets and commits the surviving lanes at one logical time. -/
  | txend
  /-- R167: Aborts every open transaction of the active lanes with a code. -/
  | txabort (n : BitVec 8)
  /-- R172: Acquires the lowest run of free accumulator banks and returns its first number. -/
  | tacq (d : BitVec 5) (n : BitVec 6)
  /-- R173: Releases a range of accumulator banks in sequencer order. -/
  | trel (a : BitVec 5) (n : BitVec 6)
  /-- R175: Gives the group an accumulator row band, replacing its old one. -/
  | tclaim (a : BitVec 5) (b : BitVec 5)
  /-- R178: Hands a matrix multiply-accumulate of A times B into accumulator rows to the macro-sequencer. -/
  | tmma (a : BitVec 4) (b : BitVec 4) (d : BitVec 5) (e : BitVec 3) (q : BitVec 1) (l : BitVec 1) (z : BitVec 1)
  /-- R176: Reads an accumulator row segment into a window register, giving zeros and AZ outside the band. -/
  | tdrain (d : BitVec 6) (s : BitVec 1) (a : BitVec 5)
  /-- R174: Writes +0 to every element of a range of acquired banks. -/
  | tzero (a : BitVec 5) (n : BitVec 6)
  /-- R187: Issues a copy command to the wing's copy engine and returns a ticket. -/
  | ecopy (k : BitVec 4) (d : BitVec 5) (e : BitVec 3) (q : BitVec 1) (l : BitVec 1)
  /-- R188: Issues an element-wise reduction command to a base-die reduction engine. -/
  | ered (k : BitVec 4) (d : BitVec 5) (e : BitVec 3) (q : BitVec 1) (l : BitVec 1)
  /-- R189: Issues a collective command to a hub-die collective engine. -/
  | ecoll (k : BitVec 4) (d : BitVec 5) (e : BitVec 3) (q : BitVec 1) (l : BitVec 1)
  /-- R190: Issues a seal-open command to Hallmark. -/
  | esealOpen (k : BitVec 4) (d : BitVec 5) (e : BitVec 3) (q : BitVec 1) (l : BitVec 1)
  /-- R190: Issues a seal-commit command to Hallmark. -/
  | esealCommit (k : BitVec 4) (d : BitVec 5) (e : BitVec 3) (q : BitVec 1) (l : BitVec 1)
  /-- R192: Submits a prepared sealed card, with the effect of a preceding package fence. -/
  | post (k : BitVec 4) (a : BitVec 5)
  /-- R193: Ends the issuing split. -/
  | done
  /-- R194: Cancels a block, launch, graph, phase or job. -/
  | cancel (k : BitVec 4) (a : BitVec 5)
  /-- R195: Writes the context time in ticks to a scalar register. -/
  | ctread (s : BitVec 5)
  /-- R196: Arms the group's alarm for a count of context ticks, or clears it. -/
  | ctarm (s : BitVec 5)
  /-- R197: Stops the split until a deadline, the alarm or an arrival. -/
  | ctwait (s : BitVec 5)
  /-- R198: Waits for a count of a peer context's ticks, discounting its stops. -/
  | ctwaitPeer (s : BitVec 5) (k : BitVec 4)
  /-- R205: Raises the software trap with a 16-bit code. -/
  | trap (n : BitVec 16)
  /-- R206: Leaves trap mode once every split waits at a rett, restoring the window and splits. -/
  | rett
  /-- R199: Holds the split until earlier accesses of the named kinds are performed and visible at the scope. -/
  | fence (e : BitVec 3) (t : BitVec 4)
  /-- R200: Sets the context's performance-level request. -/
  | setpl (a : BitVec 5)
  /-- R201: Reads a mode register into a scalar register. -/
  | modeRead (s : BitVec 5) (r : BitVec 6)
  /-- R201: Writes a mode register from a scalar register. -/
  | modeWrite (s : BitVec 5) (r : BitVec 6)
  /-- R213: Each cycle a quarter gives its clusters to ready splits by run, age and dispatch order. -/
  | clusterAssignment (core quarter : Nat)
  /-- R214: A run packet held back 256 cycles makes its split leave the run and restart it later. -/
  | latchRunLeave (blk gix split : Nat)
  /-- R202: Halts every split, drains accesses, writes the trap registers, slides the window and enters the handler or double-faults. -/
  | trapEntry (blk gix : Nat)
  /-- R83: When every group has arrived and its accesses are performed, the barrier releases its splits and equalises logical time. -/
  | barrierComplete (blk bar : Nat)
  /-- R80: A load's values reach their destinations and counter 0 falls. -/
  | loadCompletion (blk gix id : Nat)
  /-- R80: A store takes its place in the order and counter 1 falls. -/
  | storePlaceTaken (blk gix id : Nat)
  /-- R138: The core writes back dirty stash bytes of its own accord. -/
  | stashWriteback (blk region line : Nat)
  /-- R163: A transaction open more than 65,536 resident cycles aborts with cause 12. -/
  | txDurationExpiry (blk gix lane : Nat)
  /-- R236: A group whose logical time has not risen for 256 resident cycles has 16 added to it. -/
  | leasePtsAdvance (blk gix : Nat)
  /-- R239: A reduction unit applies a redm delivery at the line's lease end plus one. -/
  | redmDeliveryApply (blk gix id : Nat)
  /-- R181: The macro-sequencer performs one step of a tmma and advances row progress. -/
  | tmmaStep (blk : Nat)
  /-- R174: The sequencer zeroes the banks of a tzero in its turn. -/
  | tzeroPerform (blk : Nat)
  /-- R176: The sequencer reads a tdrain's row segment in its turn and sets AZ. -/
  | tdrainPerform (blk : Nat)
  /-- R173: The sequencer applies a bank release in its turn. -/
  | trelPerform (blk : Nat)
  /-- R185: An engine reads a parameter block, checks it in order and translates and locks its pages. -/
  | engineSubmission (id : Nat)
  /-- R187: The copy engine copies one 64 KiB chunk and updates PROGRESS. -/
  | ecopyChunk (id : Nat)
  /-- R188: The reduction engine reduces destination elements in pairwise order. -/
  | eredReduce (id : Nat)
  /-- R189: A collective engine performs its collective with the other ranks. -/
  | ecollRun (id : Nat)
  /-- R190: Hallmark assigns the next frame sequence number and records the measurement. -/
  | sealOpenPerform (id : Nat)
  /-- R190: Hallmark hashes and signs the frame buffer and writes the seal record. -/
  | sealCommitPerform (id : Nat)
  /-- R252: A host write of a queue's TAIL announces new ring entries, or is discarded. -/
  | qnotifyWrite (world q : Nat) (tail : BitVec 32)
  /-- R252: The Curator admits one ring entry, derives the card and checks it. -/
  | queueEntryAdmit (q : Nat)
  /-- R256: A card's run completes, releases and decrements successors and counts in its unit. -/
  | cardRunComplete (card : Nat)
  /-- R258: The Curator serves classes and worlds by deficit and places ready instances. -/
  | curatorPass
  /-- R258: 6,400 ticks after its last event a card's class rises by one. -/
  | classAgeing (card : Nat)
  /-- R261: After 800 ticks without placement the Curator requests pre-emption of the blocks. -/
  | makeRoomTimeout
  /-- R217: A core's scratchpad and L1 split changes after the affected units drain. -/
  | carveOutChange (core : Nat)
  /-- R193: After every group ends and counters and stash drain, the block is counted done with a package release. -/
  | blockCompletion (blk : Nat)
  /-- R263: A host write of UCFG bit 62 cancels a unit and its members. -/
  | unitCancel (world unit : Nat)
  /-- R227: A block at a switch point with the request set drains its counters and writes its frame. -/
  | variantSwitch (blk : Nat)
  /-- R225: A group that waited 1,024 cycles at a switch point continues past it. -/
  | switchWaitTimeout (blk gix : Nat)
  /-- R227: Once every frame write completes the block retires and awaits re-dispatch. -/
  | blockRetire (blk : Nat)
  /-- R268: A write of CXCTL.EN = 1 enables a context in the stopped state. -/
  | contextEnable (world ctx owner : Nat)
  /-- R266: A write of CXCTL.EN = 0 disables an idle or stopped context. -/
  | contextDisable (world ctx : Nat)
  /-- R272: A write of CXCTL.STOP = 1 requests a host stop of a context. -/
  | hostStopRequest (world ctx : Nat)
  /-- R289: A write of STOP with DBG requests a debug stop that keeps groups resident. -/
  | debugStopRequest (world ctx : Nat)
  /-- R266: A write of CXCTL.STOP = 0 releases a host or debug stop. -/
  | stopRelease (world ctx : Nat)
  /-- R289: A write of STEP executes one packet in every ready split of a debug-stopped context. -/
  | debugStep (world ctx : Nat)
  /-- R266: World 0 sets a stopped or idle context's frozen clock value. -/
  | cxctWrite (world ctx : Nat) (v : BitVec 64)
  /-- R283: A write of CXBELL queues one host notification arrival. -/
  | hostNotification (world ctx : Nat)
  /-- R272: The context's slice of global ticks expires and requests a stop. -/
  | sliceExpiry (ctx : Nat)
  /-- R273: When the context's last group halts its clock freezes and saves begin. -/
  | freezeInstant (ctx : Nat)
  /-- R276: A handler's budget of cycles runs out and the group is force-saved. -/
  | handlerBudgetExpiry (blk gix : Nat)
  /-- R277: Every group's save completes and the context becomes stopped. -/
  | saveComplete (ctx : Nat)
  /-- R281: When the last saved block is loaded the clock resumes, held events are delivered and groups issue. -/
  | resumeInstant (ctx : Nat)
  /-- R281: Blocks not all loaded within 6,400 ticks are unloaded and placed again later. -/
  | resumeLoadTimeout (ctx : Nat)
  /-- R284: An arrival is written to the event ring with its stamp and ends waiting ctwaits. -/
  | arrivalDelivery (ctx : Nat)
  /-- R196: Context time reaches the alarm deadline and the alarm ends a ctwait or traps. -/
  | alarmFire (blk gix : Nat)
  /-- R197: Context time reaches a ctwait's own deadline and the wait ends. -/
  | ctwaitDeadline (blk gix split : Nat)
  /-- R322: A write of WCTL.EN = 1 sends an open to the target context. -/
  | windowOpen (world win : Nat)
  /-- R322: The target accepts or refuses the window, setting OPEN or REFUSED. -/
  | windowOpenAnswer (win : Nat) (accepted : Bool) (pause : Option (BitVec 32))
  /-- R288: A window stops being open and a KIND 6 arrival goes to its holder. -/
  | windowClose (win : Nat)
  /-- R323: A message store to a doorbell page is delivered as a KIND 3 arrival, or refused. -/
  | doorbellMessage (node world ctx : Nat) (data : BitVec 32) (fromWorld fromNode fromCtx : Nat)
  /-- R323: A refused message is offered again after a doubling delay. -/
  | messageRetry (id : Nat) (accepted : Bool)
  /-- R319: The last-hop switch checks a request against the port's access table. -/
  | fabricRequestCheck (port : Nat) (node world tworld : Nat) (pa len : Nat) (need : BitVec 4)
  /-- R328: A receiver checks a data flit's code and sequence and accepts or discards it. -/
  | flitReceive (port : Nat) (f : Flit) (good : Bool)
  /-- R328: The sender replays flits from RCVD. -/
  | flitReplay (port : Nat)
  /-- R327: Every 64 ns the receiver sends its freed and received totals. -/
  | creditReportSend (port : Nat)
  /-- R327: A report restores the sender's pool and world allowances. -/
  | creditReportReceive (port : Nat) (r : Report)
  /-- R326: A link trains and each end announces its buffer and reserves. -/
  | linkTraining (port : Nat) (peerSlots : Nat) (peerRsv : List (Nat × Nat))
  /-- R316: World 0 writes the node number once; later writes are discarded. -/
  | fnodeWrite (world : Nat) (v : BitVec 64)
  /-- R326: World 0 sets a world's receive reserve, discarded if the total exceeds 1024. -/
  | frsvWrite (world target : Nat) (v : BitVec 64)
  /-- R331: A write of BFLIP.GO starts flipping pages between device and host bias. -/
  | biasFlip (world : Nat) (toHost : Bool) (page : Nat)
  /-- R331: After the last line is done the bias bits change and BUSY clears. -/
  | biasFlipComplete
  /-- R330: The host answers a back-invalidate snoop and the waiting access proceeds. -/
  | backInvalidateAnswer (line : Nat)
  /-- R242: A host access arrives at its home and is applied after the line's lease. -/
  | hostAccess (world : Nat) (pa : Nat) (wr : Option (List (BitVec 8))) (len : Nat)
  /-- R345: A TLP is checked for its IDE prefix and integrity. -/
  | tlpReceive (world : Nat) (ide : Bool) (intact : Bool)
  /-- R345: IDE_KM KEY_PROG programs a key set of a world's stream. -/
  | ideKeyProg (world keySet : Nat) (key : BitVec 256)
  /-- R345: IDE_KM K_SET_GO activates a key set and erases the old one. -/
  | ideKSetGo (world keySet : Nat)
  /-- R336: Moves a world to CONFIG_LOCKED, generating its sealing keys and emptying its ways. -/
  | lockInterfaceRequest (world : Nat)
  /-- R336: Moves a locked world to RUN. -/
  | startInterfaceRequest (world : Nat)
  /-- R337: Tears the world down and returns it to CONFIG_UNLOCKED. -/
  | stopInterfaceRequest (world : Nat)
  /-- R344: An SPDM request over DOE is answered by the responder. -/
  | spdmRequest (world : Nat) (req : SpdmReq)
  /-- R351: Returns measurement registers as signed DMTF measurement blocks. -/
  | getMeasurements (index : BitVec 8)
  /-- R346: Keys a bounce channel, resets its counters and opens it. -/
  | bckey (world chan : Nat)
  /-- R339: A write of CDCTL.GO derives a capability from the world's root and stores it. -/
  | capabilityDerive (writer world : Nat)
  /-- R339: A write of CDCTL.GO with KEY = 1 writes a type key of a software type. -/
  | typeKeyDerive (writer world : Nat)
  /-- R347: Generates an ECDSA P-384 key pair in a slot and writes its handle and public key. -/
  | keyGenerateEcdsa (writer world : Nat)
  /-- R347: Generates an ML-DSA-65 key pair in a slot and writes its handle and public key. -/
  | keyGenerateMldsa (writer world : Nat)
  /-- R347: Voids the slot's open seals and erases its key. -/
  | keyRevoke (writer world : Nat)
  /-- R347: Writes a new handle of the slot's current generation. -/
  | handleReissue (writer world : Nat)
  /-- R340: A write of WTRUST.WAYS moves L2 ways between a world and the shared pool. -/
  | waysChange (writer world : Nat) (ways : BitVec 24)
  /-- R336: World 0 writes a world's stage-2 root, moving a locked world to ERROR. -/
  | s2rootWrite (writer world : Nat) (v : BitVec 64)
  /-- R295: The nested walker translates a missing address through both stages. -/
  | pageWalk (blk gix id : Nat)
  /-- R305: A refused record is offered again after a doubling back-off. -/
  | ringRecordRetry (id : Nat)
  /-- R303: A write of a token to FRESUME replays the requesters parked on it. -/
  | fresumeWrite (writer world : Nat) (token : BitVec 32)
  /-- R298: A write of INVCTL.GO drops MTLB entries and writes back and drops cached lines of the scope. -/
  | invalidationStart (writer world : Nat) (v : BitVec 64)
  /-- R298: After the scope's page locks are gone BUSY clears. -/
  | invalidationComplete (world : Nat)
  /-- R354: A core reset after a control parity error makes the core ready again. -/
  | coreReset (core : Nat)
  /-- R357: The scrub reads and corrects HBM sectors and cache lines on its schedule. -/
  | patrolScrub (sector : Nat) (corrected : Bool) (failed : Bool)
  /-- R359: A write of RVCTL.GO starts a sweep, enabling the ldc filter. -/
  | revocationSweepStart (writer ctx : Nat) (narea : BitVec 4)
  /-- R360: A group's registers and scratchpad granules lose revoked tags at a switch point or boundary. -/
  | groupRegisterSweep (blk gix : Nat)
  /-- R360: After 6,400 ticks without a switch point the group is swept at its next packet boundary. -/
  | sweepSwitchWaitExpiry (blk gix : Nat)
  /-- R359: The memory phase checks one tagged granule and clears a revoked tag atomically. -/
  | sweepGranuleCheck (ctx : Nat)
  /-- R363: A write of REPAIR.GO maps a spare core to a logical core. -/
  | repair (world die lcore : Nat) (selfTest : Bool)
  /-- R363: World 0 sets a core's DRAIN or OFFLINE bits. -/
  | corectlWrite (world core : Nat) (v : BitVec 64)
  /-- R364: A write of REPLAN asks for a re-plan at the wing's next maintenance point. -/
  | replanRequest (world wing : Nat)
  /-- R364: At a maintenance point the wing sets guard voltages and may lower AGECAP. -/
  | wingReplan (wing : Nat) (bringUp : Bool) (slack : List (BitVec 8))
  /-- R365: A detected timing error replays the issue group from its first stage. -/
  | timingErrorReplay (err : ReplayAt)
  /-- R366: A wing changes its clock at a tick boundary once its rail has settled. -/
  | clockChange (wing : Nat)
  /-- R368: The power controller lowers or raises the package level cap from averaged power. -/
  | pkcapAdjust (watts : Nat)
  /-- R369: Every microsecond each wing's energy is divided among its contexts. -/
  | energyAccounting (wing : Nat) (active idle : Nat) (busy : List (Nat × Nat)) (transfers : List Transfer)
  /-- R370: The power controller issues filler operations when the core-rail load falls. -/
  | fillerIssue (wing ctx : Nat) (energy : Nat)
  /-- R350: Holdar's first stage hashes, verifies, measures and runs each boot image. -/
  | powerOnBoot (images : List BootImage)
  /-- R372: A unit passes its tests and sets its ready bit, or writes a SEV 4 record. -/
  | unitReady (unit : ReadyUnit) (ok : Bool)
  /-- R252: A write to a register with no row of its own, discarded where the world may not write it. -/
  | registerWrite (writer : Nat) (r : Reg) (v : BitVec 64)
  /-- R273: A group in trap mode at a stop request halts at its next packet boundary once BUDGET cycles have passed since the request. -/
  | trapModeBudgetExpiry (blk gix : Nat)
  /-- R354: A parity error in a core's queue, pipeline or scheduler control ends every context with a block on that core and starts the core's reset. -/
  | controlParityError (core : Nat)
deriving DecidableEq, Repr

end Sys2Proof
end

