-- ==== Sys2Proof/Machine/Codes.lean ====
section
/-! DEFINITION. Which operand codes and fields are legal where (R27, R29, R32, R38 to R42), and what each word
names and writes, for the packet-shape rules of R25 and the run rules of R34, R35. -/
namespace Sys2Proof.Machine
open Sys2Proof

/-- The pipes of R22. -/
inductive Pipe where
  | S | V | M | X
deriving DecidableEq, Repr

/-- A piece of state that two words of one issue group shall not both write (R25). -/
inductive Res where
  | w (n : Nat) | s (n : BitVec 5) | k (n : BitVec 4) | c (n : BitVec 4) | p (n : BitVec 3) | cc | mode (r : BitVec 6) | base
deriving DecidableEq, Repr

/-- Two extension words follow. -/
def extTwo : Ext → Bool
  | .two _ _ => true
  | .none => false
  | .one _ => false

/-- An immediate keeps R26: the host's own field is zero when extensions follow, and the second payload of a
32-bit operand keeps its bits [23:8] zero. -/
def legalImm {n : Nat} (w64 : Bool) (i : Imm n) : Bool :=
  match i.ext with
  | .none => true
  | .one _ => i.short == 0
  | .two _ p2 => i.short == 0 && (w64 || p2.toNat < 256)

/-- The 64-bit integer types of R38 among the eight. -/
def is64 (y : BitVec 3) : Bool := y == 2 || y == 3

/-- A window register code; for 64 bits an even one (R27). -/
def winCode (w64 : Bool) (x : BitVec 6) : Bool :=
  x.toNat ≤ 47 && (!w64 || x.toNat % 2 == 0)

/-- An even window register that begins a pair (R117). -/
def pairCode (x : BitVec 6) : Bool := winCode true x

/-- A source code of a V, M or X word (R27): every code for 32 bits; a pair, `wz` or `lid` for 64. -/
def srcCode (w64 : Bool) (x : BitVec 6) : Bool :=
  !w64 || winCode true x || x == 54 || x == 55

/-- A source code of the S pipe, whose latches have no names (R74). -/
def srcS (x : BitVec 6) : Bool := x.toNat ≤ 55

/-- A destination of a word that does not read d (R27): a queue takes 32-bit results only. -/
def dstCode (w64 : Bool) (x : BitVec 6) : Bool :=
  winCode w64 x || (!w64 && (48 ≤ x.toNat && x.toNat ≤ 51)) || x == 54

/-- A destination of a word that reads d (R27). -/
def dstRead (w64 : Bool) (x : BitVec 6) : Bool := winCode w64 x || x == 54

/-- A memory offset code: every one but a queue or a stream (R27). -/
def offCode (x : BitVec 6) : Bool := x.toNat ≤ 47 || 54 ≤ x.toNat

/-- A source code of `slane` (R91). -/
def laneCode (x : BitVec 6) : Bool := x.toNat ≤ 47 || x == 54 || x == 55

/-- A capability field: with V = 1 only c0 to c7 (R29). -/
def capCode (v : BitVec 1) (x : BitVec 4) : Bool := v == 0 || x.toNat ≤ 7

/-- The integer operand of form CP: a scalar register with V = 0, an operand code with V = 1 (R39). -/
def intCode (v : BitVec 1) (x : BitVec 6) : Bool := v == 1 || x.toNat ≤ 31

/-- The destination of `cget` (R130). -/
def cgetDst (v : BitVec 1) (w64 : Bool) (d : BitVec 6) : Bool :=
  if v == 1 then winCode w64 d else d.toNat ≤ 31

/-- The destination of a load: S with a queue is illegal (R133). -/
def loadDst (w64 : Bool) (s : BitVec 1) (d : BitVec 6) : Bool :=
  if w64 then winCode true d else dstCode false d && !(s == 1 && 48 ≤ d.toNat && d.toNat ≤ 51)

/-- The data source of a store (R133): for 64 bits a pair. -/
def storeSrc (w64 : Bool) (d : BitVec 6) : Bool := if w64 then winCode true d else srcCode false d

/-- The operand value of a 64-bit atomic (R151). -/
def atom64Src (b : BitVec 6) : Bool := winCode true b || b == 54

/-- The format qualifier of R38: 12 to 14 are illegal. -/
def legalFmt (m : BitVec 4) : Bool := m.toNat ≤ 11 || m == 15

/-- A rounding field of the float majors: RS and the reserved values are illegal (R42). -/
def legalRnd (r : BitVec 3) : Bool := r.toNat ≤ 4

/-- Three operands of one width. -/
def legalV3 (w64 : Bool) (d a b : BitVec 6) : Bool := dstCode w64 d && srcCode w64 a && srcCode w64 b

/-- The 64-bit conversion types of R38. -/
def cvt64 (t : BitVec 4) : Bool := t == 9 || t == 10

/-- `vcvt` and `vcvt.sat` (R42, R116): types differ; RS only from f32 to f16 or bf16; integer to integer has RND 000. -/
def legalCvt (d a : BitVec 6) (t u : BitVec 4) (r : BitVec 3) : Bool :=
  t.toNat ≤ 10 && u.toNat ≤ 10 && t != u && dstCode (cvt64 t) d && srcCode (cvt64 u) a &&
  (r.toNat ≤ 4 || (r == 5 && u == 0 && (t == 1 || t == 2))) &&
  (t.toNat ≤ 2 || u.toNat ≤ 2 || r == 0)

/-- A block format (R38). -/
def legalBf (u : BitVec 4) : Bool := (4 ≤ u.toNat && u.toNat ≤ 8) || u == 10

/-- A 4-bit block format. -/
def bf4 (u : BitVec 4) : Bool := u == 5 || u == 8

/-- The element position limit of R42. -/
def legalPos (u : BitVec 4) (n : BitVec 3) : Bool := bf4 u || n.toNat ≤ 3

/-- A dimension field of MX and MM (R39). -/
def legalDim (x : BitVec 3) : Bool := x.toNat ≤ 5

/-- The registers of an R x C operand. -/
def sq (r l : BitVec 3) : Nat := (r.toNat + 1) * (l.toNat + 1)

/-- A small-matrix operand that starts at a window register and stays inside w0 to w47 (R143). -/
def legalSpan (x : BitVec 6) (n : Nat) : Bool := x.toNat ≤ 47 && x.toNat + n ≤ 48

/-- `mmul` (R143): even bases below 24 in units of two. -/
def legalMmul (d a b : BitVec 5) (m k n : BitVec 3) : Bool :=
  legalDim m && legalDim k && legalDim n && d.toNat ≤ 23 && a.toNat ≤ 23 && b.toNat ≤ 23 &&
  2 * d.toNat + sq m n ≤ 48 && 2 * a.toNat + sq m k ≤ 48 && 2 * b.toNat + sq k n ≤ 48

/-- `cmov` by its direction (R129). -/
def legalCmov (d : BitVec 4) (v : BitVec 1) (a : BitVec 4) (w : BitVec 2) : Bool :=
  if w == 0 then capCode v d && capCode v a
  else if w == 1 then v == 1 && d.toNat ≤ 7
  else if w == 2 then v == 0 && a.toNat ≤ 7
  else false

/-- A status register number, and `.clr` where it is legal (R88). -/
def legalStatus (r : BitVec 6) (l : BitVec 1) : Bool :=
  (r.toNat ≤ 4 || (8 ≤ r.toNat && r.toNat ≤ 12)) && (l == 0 || r.toNat ≤ 2 || r == 8)

/-- A scope with `.acq` and `.rel` (R178, R184): with both clear it is 000. -/
def legalScope (e : BitVec 3) (q l : BitVec 1) : Bool := e != 7 && (q == 1 || l == 1 || e == 0)

/-- The window registers a V or M word writes. -/
def wrV (w64 : Bool) (s : BitVec 1) (d : BitVec 6) : List Res :=
  if s == 1 || 48 ≤ d.toNat then [] else if w64 then [.w d.toNat, .w (d.toNat + 1)] else [.w d.toNat]

/-- The condition codes, when the word carries `.cc`. -/
def wrCc (g : BitVec 1) : List Res := if g == 1 then [.cc] else []

/-- A run of window registers. -/
def wrRange (d n : Nat) : List Res := (List.range n).map fun i => .w (d + i)

/-- The static legality of an instruction: every code of R27, R29, R32, R38 to R42 and of its entry. -/
def legal : Instr → Bool
  | .nop => true
  | .sadd _ _ _ => true
  | .ssub _ _ _ => true
  | .sand _ _ _ => true
  | .sor _ _ _ => true
  | .sxor _ _ _ => true
  | .sshl _ _ _ => true
  | .sshr _ _ _ => true
  | .ssra _ _ _ => true
  | .smul _ _ _ => true
  | .smulhI64 _ _ _ => true
  | .smulhU64 _ _ _ => true
  | .sminI64 _ _ _ => true
  | .sminU64 _ _ _ => true
  | .smaxI64 _ _ _ => true
  | .smaxU64 _ _ _ => true
  | .saddImm _ _ i => legalImm true i
  | .ssubImm _ _ i => legalImm true i
  | .sandImm _ _ i => legalImm true i
  | .sorImm _ _ i => legalImm true i
  | .sxorImm _ _ i => legalImm true i
  | .sshlImm _ _ i => legalImm true i
  | .sshrImm _ _ i => legalImm true i
  | .ssraImm _ _ i => legalImm true i
  | .smulImm _ _ i => legalImm true i
  | .smulhI64Imm _ _ i => legalImm true i
  | .smulhU64Imm _ _ i => legalImm true i
  | .sminI64Imm _ _ i => legalImm true i
  | .sminU64Imm _ _ i => legalImm true i
  | .smaxI64Imm _ _ i => legalImm true i
  | .smaxU64Imm _ _ i => legalImm true i
  | .scmpEq _ _ _ => true
  | .scmpNe _ _ _ => true
  | .scmpLtI64 _ _ _ => true
  | .scmpGeI64 _ _ _ => true
  | .scmpLtU64 _ _ _ => true
  | .scmpGeU64 _ _ _ => true
  | .scmpEqImm _ _ i => legalImm true i
  | .scmpNeImm _ _ i => legalImm true i
  | .scmpLtI64Imm _ _ i => legalImm true i
  | .scmpGeI64Imm _ _ i => legalImm true i
  | .scmpLtU64Imm _ _ i => legalImm true i
  | .scmpGeU64Imm _ _ i => legalImm true i
  | .smovi _ i => legalImm true i
  | .br _ => true
  | .brcEq0 _ _ => true
  | .brcNe0 _ _ => true
  | .brcLt0 _ _ => true
  | .brcGe0 _ _ => true
  | .brcZ _ => true
  | .brcNz _ => true
  | .brcC _ => true
  | .brcNc _ => true
  | .call l _ => l != 0 && l != 7
  | .ret => true
  | .split a _ => srcS a
  | .merge => true
  | .waitc _ _ => true
  | .bar _ => true
  | .qbindPush _ _ => true
  | .qbindPop _ _ => true
  | .qbindUnbind _ => true
  | .sstat _ r l => legalStatus r l
  | .smaskRd _ => true
  | .smaskWr _ => true
  | .sflags _ f => f.toNat ≤ 5
  | .slane _ a _ => laneCode a
  | .vaddInt d _ a b _ _ y => legalV3 (is64 y) d a b
  | .vsubInt d _ a b _ _ y => legalV3 (is64 y) d a b
  | .vmulInt d _ a b _ y => legalV3 (is64 y) d a b
  | .vmulh d _ a b y => legalV3 (y.toNat ≥ 2) d a b
  | .vmad d _ a b _ y => dstRead (is64 y) d && srcCode (is64 y) a && srcCode (is64 y) b
  | .vminInt d _ a b y => legalV3 (is64 y) d a b
  | .vmaxInt d _ a b y => legalV3 (is64 y) d a b
  | .vabsd d _ a b y => legalV3 (is64 y) d a b
  | .vand d _ a b _ y => legalV3 (y == 1) d a b
  | .vor d _ a b _ y => legalV3 (y == 1) d a b
  | .vxor d _ a b _ y => legalV3 (y == 1) d a b
  | .vandn d _ a b _ y => legalV3 (y == 1) d a b
  | .vshl d _ a b y => legalV3 (is64 y) d a b
  | .vshr d _ a b y => legalV3 (is64 y) d a b
  | .vsra d _ a b y => legalV3 (is64 y) d a b
  | .vcmpInt a b y => srcCode (is64 y) a && srcCode (is64 y) b
  | .vaddx d _ a b _ y => legalV3 (y.toNat ≥ 2) d a b
  | .vsubx d _ a b _ y => legalV3 (y.toNat ≥ 2) d a b
  | .vselFlag d _ _ _ e => dstCode false d && e.toNat ≤ 9
  | .vselPred d _ _ _ _ => dstCode false d
  | .vaddMasked d _ _ _ _ y => dstRead false d && y != 3
  | .vsubMasked d _ _ _ _ y => dstRead false d && y != 3
  | .vmovMasked d _ _ _ y => dstRead false d && y != 3
  | .vaddImm d _ i _ _ y => dstRead (is64 y) d && legalImm (is64 y) i
  | .vandImm d _ i _ y => dstRead (y == 1) d && legalImm (y == 1) i
  | .vorImm d _ i _ y => dstRead (y == 1) d && legalImm (y == 1) i
  | .vshlImm d _ _ y => dstRead (is64 y) d
  | .vshrImm d _ _ y => dstRead (is64 y) d
  | .vsraImm d _ _ y => dstRead (is64 y) d
  | .vmovi d _ i => dstCode (extTwo i.ext) d && legalImm true i
  | .vperm d _ _ _ => dstCode false d
  | .vbcast d _ _ _ => dstCode false d
  | .vscanAddI32 d _ _ => dstCode false d
  | .vredAddI32 d _ _ => dstCode false d
  | .vredMaxI32 d _ _ => dstCode false d
  | .vredMinI32 d _ _ => dstCode false d
  | .vfroms d _ _ => dstCode false d
  | .pcmpB _ _ _ t => t.toNat ≤ 5
  | .pand _ _ _ => true
  | .por _ _ _ => true
  | .pxor _ _ _ => true
  | .pnot _ _ => true
  | .pfromcc _ e => e.toNat ≤ 9
  | .vaddFloat d _ _ _ r y => dstCode false d && legalRnd r && y != 3
  | .vsubFloat d _ _ _ r y => dstCode false d && legalRnd r && y != 3
  | .vmulFloat d _ _ _ r y => dstCode false d && legalRnd r && y != 3
  | .vfma d _ _ _ r y => dstRead false d && legalRnd r && y != 3
  | .vfms d _ _ _ r y => dstRead false d && legalRnd r && y != 3
  | .vminFloat d _ _ _ y => dstCode false d && y != 3
  | .vmaxFloat d _ _ _ y => dstCode false d && y != 3
  | .vcmpFloat _ _ y => y != 3
  | .vabs d _ _ r y => dstCode false d && legalRnd r && y != 3
  | .vneg d _ _ r y => dstCode false d && legalRnd r && y != 3
  | .vsqrt d _ _ r y => dstCode false d && legalRnd r && y != 3
  | .vrcp d _ _ r y => dstCode false d && legalRnd r && y != 3
  | .vrsqrt d _ _ r y => dstCode false d && legalRnd r && y != 3
  | .vexp2 d _ _ r y => dstCode false d && legalRnd r && y != 3
  | .vlog2 d _ _ r y => dstCode false d && legalRnd r && y != 3
  | .vsin d _ _ r y => dstCode false d && legalRnd r && y != 3
  | .vcos d _ _ r y => dstCode false d && legalRnd r && y != 3
  | .vtanh d _ _ r y => dstCode false d && legalRnd r && y != 3
  | .vclass d _ _ y => dstCode false d && y != 3
  | .vcvt d _ a t u r => legalCvt d a t u r
  | .vcvtSat d _ a t u r => legalCvt d a t u r
  | .vpackb d _ _ u r _ n => pairCode d && legalBf u && r.toNat ≤ 5 && legalPos u n
  | .vunpackb d _ a u r n => dstCode false d && pairCode a && legalBf u && r.toNat ≤ 4 && legalPos u n
  | .vscale d _ _ b u => dstCode false d && (4 ≤ u.toNat && u.toNat ≤ 8) && (u.toNat ≤ 5 || b == 0)
  | .mmul d a b m k n => legalMmul d a b m k n
  | .mtrans d a r l => legalDim r && legalDim l && legalSpan a (sq r l) && legalSpan d (sq r l)
  | .mchol d a r l => legalDim r && r == l && legalSpan a (sq r l) && legalSpan d (sq r l)
  | .mlu d a r l => legalDim r && r == l && legalSpan a (sq r l) && legalSpan d (sq r l + 1)
  | .mtrsl d a b r l => legalDim r && r == l && legalSpan a (sq r l) && legalSpan b (r.toNat + 1) && legalSpan d (r.toNat + 1)
  | .mtrsu d a b r l => legalDim r && r == l && legalSpan a (sq r l) && legalSpan b (r.toNat + 1) && legalSpan d (r.toNat + 1)
  | .msolveChol d a b r l => legalDim r && r == l && legalSpan a (sq r l) && legalSpan b (r.toNat + 1) && legalSpan d (r.toNat + 1)
  | .msolveLu d a b r l => legalDim r && r == l && legalSpan a (sq r l + 1) && legalSpan b (r.toNat + 1) && legalSpan d (r.toNat + 1)
  | .cbnd d v a x => capCode v d && capCode v a && intCode v x
  | .cbndX d v a x => capCode v d && capCode v a && intCode v x
  | .coff d v a x => capCode v d && capCode v a && intCode v x
  | .cinc d v a x => capCode v d && capCode v a && intCode v x
  | .cperm d v a x => capCode v d && capCode v a && intCode v x
  | .cseal d v a b => capCode v d && capCode v a && capCode v b
  | .cunseal d v a b => capCode v d && capCode v a && capCode v b
  | .cmov d v a w => legalCmov d v a w
  | .cuntag d v a x => capCode v d && capCode v a && intCode v x
  | .cgetBase d v a => capCode v a && cgetDst v true d
  | .cgetTop d v a => capCode v a && cgetDst v true d
  | .cgetPos d v a => capCode v a && cgetDst v true d
  | .cgetRoom d v a => capCode v a && cgetDst v true d
  | .cgetPerm d v a => capCode v a && cgetDst v false d
  | .cgetType d v a => capCode v a && cgetDst v false d
  | .cgetTag d v a => capCode v a && cgetDst v false d
  | .cgetAddr d v a => capCode v a && cgetDst v true d
  | .cgetExp d v a => capCode v a && cgetDst v false d
  | .ldReg d s v k x z m => capCode v k && offCode x && loadDst (z == 1) s d && legalFmt m
  | .ldImm d s v k i z m => capCode v k && legalImm false i && loadDst (z == 1) s d && legalFmt m
  | .stReg d v k x z m => capCode v k && offCode x && storeSrc (z == 1) d && legalFmt m
  | .stImm d v k i z m => capCode v k && legalImm false i && storeSrc (z == 1) d && legalFmt m
  | .ldc d e v k x => capCode v k && capCode e d && offCode x
  | .stc d e v k x => capCode v k && capCode e d && offCode x
  | .ldfe d _ v k x z => capCode v k && offCode x && dstCode (z == 1) d
  | .ldfeClr d _ v k x z => capCode v k && offCode x && dstCode (z == 1) d
  | .stfe d v k x z => capCode v k && offCode x && srcCode (z == 1) d
  | .smap _ _ _ => true
  | .sflush _ _ => true
  | .patset _ _ _ _ => true
  | .redmAdd _ v k x y => capCode v k && offCode x && y != 3
  | .redmMax _ v k x y => capCode v k && offCode x && y != 3
  | .redmMin _ v k x y => capCode v k && offCode x && y != 3
  | .amadd32 d _ v k _ e => capCode v k && winCode false d && e != 7
  | .amand32 d _ v k _ e => capCode v k && winCode false d && e != 7
  | .amor32 d _ v k _ e => capCode v k && winCode false d && e != 7
  | .amxor32 d _ v k _ e => capCode v k && winCode false d && e != 7
  | .ammaxI32 d _ v k _ e => capCode v k && winCode false d && e != 7
  | .ammaxU32 d _ v k _ e => capCode v k && winCode false d && e != 7
  | .amminI32 d _ v k _ e => capCode v k && winCode false d && e != 7
  | .amminU32 d _ v k _ e => capCode v k && winCode false d && e != 7
  | .amadd64 d _ v k b e => capCode v k && winCode true d && e != 7 && atom64Src b
  | .amand64 d _ v k b e => capCode v k && winCode true d && e != 7 && atom64Src b
  | .amor64 d _ v k b e => capCode v k && winCode true d && e != 7 && atom64Src b
  | .amxor64 d _ v k b e => capCode v k && winCode true d && e != 7 && atom64Src b
  | .ammaxI64 d _ v k b e => capCode v k && winCode true d && e != 7 && atom64Src b
  | .ammaxU64 d _ v k b e => capCode v k && winCode true d && e != 7 && atom64Src b
  | .amminI64 d _ v k b e => capCode v k && winCode true d && e != 7 && atom64Src b
  | .amminU64 d _ v k b e => capCode v k && winCode true d && e != 7 && atom64Src b
  | .amswap32 d _ v k _ e => capCode v k && winCode false d && e != 7
  | .amcas32 d _ v k _ e => capCode v k && winCode false d && e != 7
  | .amswap64 d _ v k b e => capCode v k && winCode true d && e != 7 && atom64Src b
  | .amcas64 d _ v k b e => capCode v k && winCode true d && e != 7 && atom64Src b
  | .amaddF32 d _ v k _ e => capCode v k && winCode false d && e != 7
  | .txbeg d => winCode false d
  | .txend => true
  | .txabort _ => true
  | .tacq _ _ => true
  | .trel _ _ => true
  | .tclaim _ _ => true
  | .tmma _ _ d e q l _ => (2 ≤ d.toNat && d.toNat % 2 == 0) && legalScope e q l
  | .tdrain d _ _ => winCode false d
  | .tzero _ _ => true
  | .ecopy _ _ e q l => legalScope e q l
  | .ered _ _ e q l => legalScope e q l
  | .ecoll _ _ e q l => legalScope e q l
  | .esealOpen _ _ e q l => legalScope e q l
  | .esealCommit _ _ e q l => legalScope e q l
  | .post _ _ => true
  | .done => true
  | .cancel _ _ => true
  | .ctread _ => true
  | .ctarm _ => true
  | .ctwait _ => true
  | .ctwaitPeer _ _ => true
  | .trap _ => true
  | .rett => true
  | .fence e t => e != 7 && t != 0
  | .setpl _ => true
  | .modeRead _ r => r.toNat ≤ 13
  | .modeWrite _ r => r.toNat ≤ 1 || r.toNat == 3 || r.toNat == 4
  | .clusterAssignment _ _ => true
  | .latchRunLeave _ _ _ => true
  | .trapEntry _ _ => true
  | .barrierComplete _ _ => true
  | .loadCompletion _ _ _ => true
  | .storePlaceTaken _ _ _ => true
  | .stashWriteback _ _ _ => true
  | .txDurationExpiry _ _ _ => true
  | .leasePtsAdvance _ _ => true
  | .redmDeliveryApply _ _ _ => true
  | .tmmaStep _ => true
  | .tzeroPerform _ => true
  | .tdrainPerform _ => true
  | .trelPerform _ => true
  | .engineSubmission _ => true
  | .ecopyChunk _ => true
  | .eredReduce _ => true
  | .ecollRun _ => true
  | .sealOpenPerform _ => true
  | .sealCommitPerform _ => true
  | .qnotifyWrite _ _ _ => true
  | .queueEntryAdmit _ => true
  | .cardRunComplete _ => true
  | .curatorPass => true
  | .classAgeing _ => true
  | .makeRoomTimeout => true
  | .carveOutChange _ => true
  | .blockCompletion _ => true
  | .unitCancel _ _ => true
  | .variantSwitch _ => true
  | .switchWaitTimeout _ _ => true
  | .blockRetire _ => true
  | .contextEnable _ _ _ => true
  | .contextDisable _ _ => true
  | .hostStopRequest _ _ => true
  | .debugStopRequest _ _ => true
  | .stopRelease _ _ => true
  | .debugStep _ _ => true
  | .cxctWrite _ _ _ => true
  | .hostNotification _ _ => true
  | .sliceExpiry _ => true
  | .freezeInstant _ => true
  | .handlerBudgetExpiry _ _ => true
  | .saveComplete _ => true
  | .resumeInstant _ => true
  | .resumeLoadTimeout _ => true
  | .arrivalDelivery _ => true
  | .alarmFire _ _ => true
  | .ctwaitDeadline _ _ _ => true
  | .windowOpen _ _ => true
  | .windowOpenAnswer _ _ _ => true
  | .windowClose _ => true
  | .doorbellMessage _ _ _ _ _ _ _ => true
  | .messageRetry _ _ => true
  | .fabricRequestCheck _ _ _ _ _ _ _ => true
  | .flitReceive _ _ _ => true
  | .flitReplay _ => true
  | .creditReportSend _ => true
  | .creditReportReceive _ _ => true
  | .linkTraining _ _ _ => true
  | .fnodeWrite _ _ => true
  | .frsvWrite _ _ _ => true
  | .biasFlip _ _ _ => true
  | .biasFlipComplete => true
  | .backInvalidateAnswer _ => true
  | .hostAccess _ _ _ _ => true
  | .tlpReceive _ _ _ => true
  | .ideKeyProg _ _ _ => true
  | .ideKSetGo _ _ => true
  | .lockInterfaceRequest _ => true
  | .startInterfaceRequest _ => true
  | .stopInterfaceRequest _ => true
  | .spdmRequest _ _ => true
  | .getMeasurements _ => true
  | .bckey _ _ => true
  | .capabilityDerive _ _ => true
  | .typeKeyDerive _ _ => true
  | .keyGenerateEcdsa _ _ => true
  | .keyGenerateMldsa _ _ => true
  | .keyRevoke _ _ => true
  | .handleReissue _ _ => true
  | .waysChange _ _ _ => true
  | .s2rootWrite _ _ _ => true
  | .pageWalk _ _ _ => true
  | .ringRecordRetry _ => true
  | .fresumeWrite _ _ _ => true
  | .invalidationStart _ _ _ => true
  | .invalidationComplete _ => true
  | .coreReset _ => true
  | .patrolScrub _ _ _ => true
  | .revocationSweepStart _ _ _ => true
  | .groupRegisterSweep _ _ => true
  | .sweepSwitchWaitExpiry _ _ => true
  | .sweepGranuleCheck _ => true
  | .repair _ _ _ _ => true
  | .corectlWrite _ _ _ => true
  | .replanRequest _ _ => true
  | .wingReplan _ _ _ => true
  | .timingErrorReplay _ => true
  | .clockChange _ => true
  | .pkcapAdjust _ => true
  | .energyAccounting _ _ _ _ _ => true
  | .fillerIssue _ _ _ => true
  | .powerOnBoot _ => true
  | .unitReady _ _ => true
  | .registerWrite _ _ _ => true
  | .trapModeBudgetExpiry _ _ => true
  | .controlParityError _ => true

/-- The source operand fields of a word, as R31 defines them. -/
def srcCodes : Instr → List (BitVec 6)
  | .nop => []
  | .sadd _ _ _ => []
  | .ssub _ _ _ => []
  | .sand _ _ _ => []
  | .sor _ _ _ => []
  | .sxor _ _ _ => []
  | .sshl _ _ _ => []
  | .sshr _ _ _ => []
  | .ssra _ _ _ => []
  | .smul _ _ _ => []
  | .smulhI64 _ _ _ => []
  | .smulhU64 _ _ _ => []
  | .sminI64 _ _ _ => []
  | .sminU64 _ _ _ => []
  | .smaxI64 _ _ _ => []
  | .smaxU64 _ _ _ => []
  | .saddImm _ _ _ => []
  | .ssubImm _ _ _ => []
  | .sandImm _ _ _ => []
  | .sorImm _ _ _ => []
  | .sxorImm _ _ _ => []
  | .sshlImm _ _ _ => []
  | .sshrImm _ _ _ => []
  | .ssraImm _ _ _ => []
  | .smulImm _ _ _ => []
  | .smulhI64Imm _ _ _ => []
  | .smulhU64Imm _ _ _ => []
  | .sminI64Imm _ _ _ => []
  | .sminU64Imm _ _ _ => []
  | .smaxI64Imm _ _ _ => []
  | .smaxU64Imm _ _ _ => []
  | .scmpEq _ _ _ => []
  | .scmpNe _ _ _ => []
  | .scmpLtI64 _ _ _ => []
  | .scmpGeI64 _ _ _ => []
  | .scmpLtU64 _ _ _ => []
  | .scmpGeU64 _ _ _ => []
  | .scmpEqImm _ _ _ => []
  | .scmpNeImm _ _ _ => []
  | .scmpLtI64Imm _ _ _ => []
  | .scmpGeI64Imm _ _ _ => []
  | .scmpLtU64Imm _ _ _ => []
  | .scmpGeU64Imm _ _ _ => []
  | .smovi _ _ => []
  | .br _ => []
  | .brcEq0 _ _ => []
  | .brcNe0 _ _ => []
  | .brcLt0 _ _ => []
  | .brcGe0 _ _ => []
  | .brcZ _ => []
  | .brcNz _ => []
  | .brcC _ => []
  | .brcNc _ => []
  | .call _ _ => []
  | .ret => []
  | .split a _ => [a]
  | .merge => []
  | .waitc _ _ => []
  | .bar _ => []
  | .qbindPush _ _ => []
  | .qbindPop _ _ => []
  | .qbindUnbind _ => []
  | .sstat _ _ _ => []
  | .smaskRd _ => []
  | .smaskWr _ => []
  | .sflags _ _ => []
  | .slane _ _ _ => []
  | .vaddInt _ _ a b _ _ _ => [a, b]
  | .vsubInt _ _ a b _ _ _ => [a, b]
  | .vmulInt _ _ a b _ _ => [a, b]
  | .vmulh _ _ a b _ => [a, b]
  | .vmad _ _ a b _ _ => [a, b]
  | .vminInt _ _ a b _ => [a, b]
  | .vmaxInt _ _ a b _ => [a, b]
  | .vabsd _ _ a b _ => [a, b]
  | .vand _ _ a b _ _ => [a, b]
  | .vor _ _ a b _ _ => [a, b]
  | .vxor _ _ a b _ _ => [a, b]
  | .vandn _ _ a b _ _ => [a, b]
  | .vshl _ _ a b _ => [a, b]
  | .vshr _ _ a b _ => [a, b]
  | .vsra _ _ a b _ => [a, b]
  | .vcmpInt a b _ => [a, b]
  | .vaddx _ _ a b _ _ => [a, b]
  | .vsubx _ _ a b _ _ => [a, b]
  | .vselFlag _ _ a b _ => [a, b]
  | .vselPred _ _ a b _ => [a, b]
  | .vaddMasked _ _ a b _ _ => [a, b]
  | .vsubMasked _ _ a b _ _ => [a, b]
  | .vmovMasked _ _ a _ _ => [a]
  | .vaddImm _ _ _ _ _ _ => []
  | .vandImm _ _ _ _ _ => []
  | .vorImm _ _ _ _ _ => []
  | .vshlImm _ _ _ _ => []
  | .vshrImm _ _ _ _ => []
  | .vsraImm _ _ _ _ => []
  | .vmovi _ _ _ => []
  | .vperm _ _ a b => [a, b]
  | .vbcast _ _ a b => [a, b]
  | .vscanAddI32 _ _ a => [a]
  | .vredAddI32 _ _ a => [a]
  | .vredMaxI32 _ _ a => [a]
  | .vredMinI32 _ _ a => [a]
  | .vfroms _ _ _ => []
  | .pcmpB _ a b _ => [a, b]
  | .pand _ _ _ => []
  | .por _ _ _ => []
  | .pxor _ _ _ => []
  | .pnot _ _ => []
  | .pfromcc _ _ => []
  | .vaddFloat _ _ a b _ _ => [a, b]
  | .vsubFloat _ _ a b _ _ => [a, b]
  | .vmulFloat _ _ a b _ _ => [a, b]
  | .vfma _ _ a b _ _ => [a, b]
  | .vfms _ _ a b _ _ => [a, b]
  | .vminFloat _ _ a b _ => [a, b]
  | .vmaxFloat _ _ a b _ => [a, b]
  | .vcmpFloat a b _ => [a, b]
  | .vabs _ _ a _ _ => [a]
  | .vneg _ _ a _ _ => [a]
  | .vsqrt _ _ a _ _ => [a]
  | .vrcp _ _ a _ _ => [a]
  | .vrsqrt _ _ a _ _ => [a]
  | .vexp2 _ _ a _ _ => [a]
  | .vlog2 _ _ a _ _ => [a]
  | .vsin _ _ a _ _ => [a]
  | .vcos _ _ a _ _ => [a]
  | .vtanh _ _ a _ _ => [a]
  | .vclass _ _ a _ => [a]
  | .vcvt _ _ a _ _ _ => [a]
  | .vcvtSat _ _ a _ _ _ => [a]
  | .vpackb _ _ a _ _ _ _ => [a]
  | .vunpackb _ _ a _ _ _ => [a]
  | .vscale _ _ a b u => (if u.toNat ≤ 5 then [a, b] else [a])
  | .mmul _ _ _ _ _ _ => []
  | .mtrans _ _ _ _ => []
  | .mchol _ _ _ _ => []
  | .mlu _ _ _ _ => []
  | .mtrsl _ _ _ _ _ => []
  | .mtrsu _ _ _ _ _ => []
  | .msolveChol _ _ _ _ _ => []
  | .msolveLu _ _ _ _ _ => []
  | .cbnd _ v _ x => (if v == 1 then [x] else [])
  | .cbndX _ v _ x => (if v == 1 then [x] else [])
  | .coff _ v _ x => (if v == 1 then [x] else [])
  | .cinc _ v _ x => (if v == 1 then [x] else [])
  | .cperm _ v _ x => (if v == 1 then [x] else [])
  | .cseal _ _ _ _ => []
  | .cunseal _ _ _ _ => []
  | .cmov _ _ _ _ => []
  | .cuntag _ v _ x => (if v == 1 then [x] else [])
  | .cgetBase _ _ _ => []
  | .cgetTop _ _ _ => []
  | .cgetPos _ _ _ => []
  | .cgetRoom _ _ _ => []
  | .cgetPerm _ _ _ => []
  | .cgetType _ _ _ => []
  | .cgetTag _ _ _ => []
  | .cgetAddr _ _ _ => []
  | .cgetExp _ _ _ => []
  | .ldReg _ _ _ _ x _ _ => [x]
  | .ldImm _ _ _ _ _ _ _ => []
  | .stReg d _ _ x _ _ => [d, x]
  | .stImm d _ _ _ _ _ => [d]
  | .ldc _ _ _ _ x => [x]
  | .stc _ _ _ _ x => [x]
  | .ldfe _ _ _ _ x _ => [x]
  | .ldfeClr _ _ _ _ x _ => [x]
  | .stfe d _ _ x _ => [d, x]
  | .smap _ _ _ => []
  | .sflush _ _ => []
  | .patset _ _ _ _ => []
  | .redmAdd a _ _ x _ => [a, x]
  | .redmMax a _ _ x _ => [a, x]
  | .redmMin a _ _ x _ => [a, x]
  | .amadd32 _ _ _ _ b _ => [b]
  | .amand32 _ _ _ _ b _ => [b]
  | .amor32 _ _ _ _ b _ => [b]
  | .amxor32 _ _ _ _ b _ => [b]
  | .ammaxI32 _ _ _ _ b _ => [b]
  | .ammaxU32 _ _ _ _ b _ => [b]
  | .amminI32 _ _ _ _ b _ => [b]
  | .amminU32 _ _ _ _ b _ => [b]
  | .amadd64 _ _ _ _ b _ => [b]
  | .amand64 _ _ _ _ b _ => [b]
  | .amor64 _ _ _ _ b _ => [b]
  | .amxor64 _ _ _ _ b _ => [b]
  | .ammaxI64 _ _ _ _ b _ => [b]
  | .ammaxU64 _ _ _ _ b _ => [b]
  | .amminI64 _ _ _ _ b _ => [b]
  | .amminU64 _ _ _ _ b _ => [b]
  | .amswap32 _ _ _ _ b _ => [b]
  | .amcas32 _ _ _ _ b _ => [b]
  | .amswap64 _ _ _ _ b _ => [b]
  | .amcas64 _ _ _ _ b _ => [b]
  | .amaddF32 _ _ _ _ b _ => [b]
  | .txbeg _ => []
  | .txend => []
  | .txabort _ => []
  | .tacq _ _ => []
  | .trel _ _ => []
  | .tclaim _ _ => []
  | .tmma _ _ _ _ _ _ _ => []
  | .tdrain _ _ _ => []
  | .tzero _ _ => []
  | .ecopy _ _ _ _ _ => []
  | .ered _ _ _ _ _ => []
  | .ecoll _ _ _ _ _ => []
  | .esealOpen _ _ _ _ _ => []
  | .esealCommit _ _ _ _ _ => []
  | .post _ _ => []
  | .done => []
  | .cancel _ _ => []
  | .ctread _ => []
  | .ctarm _ => []
  | .ctwait _ => []
  | .ctwaitPeer _ _ => []
  | .trap _ => []
  | .rett => []
  | .fence _ _ => []
  | .setpl _ => []
  | .modeRead _ _ => []
  | .modeWrite _ _ => []
  | .clusterAssignment _ _ => []
  | .latchRunLeave _ _ _ => []
  | .trapEntry _ _ => []
  | .barrierComplete _ _ => []
  | .loadCompletion _ _ _ => []
  | .storePlaceTaken _ _ _ => []
  | .stashWriteback _ _ _ => []
  | .txDurationExpiry _ _ _ => []
  | .leasePtsAdvance _ _ => []
  | .redmDeliveryApply _ _ _ => []
  | .tmmaStep _ => []
  | .tzeroPerform _ => []
  | .tdrainPerform _ => []
  | .trelPerform _ => []
  | .engineSubmission _ => []
  | .ecopyChunk _ => []
  | .eredReduce _ => []
  | .ecollRun _ => []
  | .sealOpenPerform _ => []
  | .sealCommitPerform _ => []
  | .qnotifyWrite _ _ _ => []
  | .queueEntryAdmit _ => []
  | .cardRunComplete _ => []
  | .curatorPass => []
  | .classAgeing _ => []
  | .makeRoomTimeout => []
  | .carveOutChange _ => []
  | .blockCompletion _ => []
  | .unitCancel _ _ => []
  | .variantSwitch _ => []
  | .switchWaitTimeout _ _ => []
  | .blockRetire _ => []
  | .contextEnable _ _ _ => []
  | .contextDisable _ _ => []
  | .hostStopRequest _ _ => []
  | .debugStopRequest _ _ => []
  | .stopRelease _ _ => []
  | .debugStep _ _ => []
  | .cxctWrite _ _ _ => []
  | .hostNotification _ _ => []
  | .sliceExpiry _ => []
  | .freezeInstant _ => []
  | .handlerBudgetExpiry _ _ => []
  | .saveComplete _ => []
  | .resumeInstant _ => []
  | .resumeLoadTimeout _ => []
  | .arrivalDelivery _ => []
  | .alarmFire _ _ => []
  | .ctwaitDeadline _ _ _ => []
  | .windowOpen _ _ => []
  | .windowOpenAnswer _ _ _ => []
  | .windowClose _ => []
  | .doorbellMessage _ _ _ _ _ _ _ => []
  | .messageRetry _ _ => []
  | .fabricRequestCheck _ _ _ _ _ _ _ => []
  | .flitReceive _ _ _ => []
  | .flitReplay _ => []
  | .creditReportSend _ => []
  | .creditReportReceive _ _ => []
  | .linkTraining _ _ _ => []
  | .fnodeWrite _ _ => []
  | .frsvWrite _ _ _ => []
  | .biasFlip _ _ _ => []
  | .biasFlipComplete => []
  | .backInvalidateAnswer _ => []
  | .hostAccess _ _ _ _ => []
  | .tlpReceive _ _ _ => []
  | .ideKeyProg _ _ _ => []
  | .ideKSetGo _ _ => []
  | .lockInterfaceRequest _ => []
  | .startInterfaceRequest _ => []
  | .stopInterfaceRequest _ => []
  | .spdmRequest _ _ => []
  | .getMeasurements _ => []
  | .bckey _ _ => []
  | .capabilityDerive _ _ => []
  | .typeKeyDerive _ _ => []
  | .keyGenerateEcdsa _ _ => []
  | .keyGenerateMldsa _ _ => []
  | .keyRevoke _ _ => []
  | .handleReissue _ _ => []
  | .waysChange _ _ _ => []
  | .s2rootWrite _ _ _ => []
  | .pageWalk _ _ _ => []
  | .ringRecordRetry _ => []
  | .fresumeWrite _ _ _ => []
  | .invalidationStart _ _ _ => []
  | .invalidationComplete _ => []
  | .coreReset _ => []
  | .patrolScrub _ _ _ => []
  | .revocationSweepStart _ _ _ => []
  | .groupRegisterSweep _ _ => []
  | .sweepSwitchWaitExpiry _ _ => []
  | .sweepGranuleCheck _ => []
  | .repair _ _ _ _ => []
  | .corectlWrite _ _ _ => []
  | .replanRequest _ _ => []
  | .wingReplan _ _ _ => []
  | .timingErrorReplay _ => []
  | .clockChange _ => []
  | .pkcapAdjust _ => []
  | .energyAccounting _ _ _ _ _ => []
  | .fillerIssue _ _ _ => []
  | .powerOnBoot _ => []
  | .unitReady _ _ => []
  | .registerWrite _ _ _ => []
  | .trapModeBudgetExpiry _ _ => []
  | .controlParityError _ => []

/-- The destination operand fields of a word that R27 governs. -/
def dstCodes : Instr → List (BitVec 6)
  | .nop => []
  | .sadd _ _ _ => []
  | .ssub _ _ _ => []
  | .sand _ _ _ => []
  | .sor _ _ _ => []
  | .sxor _ _ _ => []
  | .sshl _ _ _ => []
  | .sshr _ _ _ => []
  | .ssra _ _ _ => []
  | .smul _ _ _ => []
  | .smulhI64 _ _ _ => []
  | .smulhU64 _ _ _ => []
  | .sminI64 _ _ _ => []
  | .sminU64 _ _ _ => []
  | .smaxI64 _ _ _ => []
  | .smaxU64 _ _ _ => []
  | .saddImm _ _ _ => []
  | .ssubImm _ _ _ => []
  | .sandImm _ _ _ => []
  | .sorImm _ _ _ => []
  | .sxorImm _ _ _ => []
  | .sshlImm _ _ _ => []
  | .sshrImm _ _ _ => []
  | .ssraImm _ _ _ => []
  | .smulImm _ _ _ => []
  | .smulhI64Imm _ _ _ => []
  | .smulhU64Imm _ _ _ => []
  | .sminI64Imm _ _ _ => []
  | .sminU64Imm _ _ _ => []
  | .smaxI64Imm _ _ _ => []
  | .smaxU64Imm _ _ _ => []
  | .scmpEq _ _ _ => []
  | .scmpNe _ _ _ => []
  | .scmpLtI64 _ _ _ => []
  | .scmpGeI64 _ _ _ => []
  | .scmpLtU64 _ _ _ => []
  | .scmpGeU64 _ _ _ => []
  | .scmpEqImm _ _ _ => []
  | .scmpNeImm _ _ _ => []
  | .scmpLtI64Imm _ _ _ => []
  | .scmpGeI64Imm _ _ _ => []
  | .scmpLtU64Imm _ _ _ => []
  | .scmpGeU64Imm _ _ _ => []
  | .smovi _ _ => []
  | .br _ => []
  | .brcEq0 _ _ => []
  | .brcNe0 _ _ => []
  | .brcLt0 _ _ => []
  | .brcGe0 _ _ => []
  | .brcZ _ => []
  | .brcNz _ => []
  | .brcC _ => []
  | .brcNc _ => []
  | .call _ _ => []
  | .ret => []
  | .split _ _ => []
  | .merge => []
  | .waitc _ _ => []
  | .bar _ => []
  | .qbindPush _ _ => []
  | .qbindPop _ _ => []
  | .qbindUnbind _ => []
  | .sstat _ _ _ => []
  | .smaskRd _ => []
  | .smaskWr _ => []
  | .sflags _ _ => []
  | .slane _ _ _ => []
  | .vaddInt d _ _ _ _ _ _ => [d]
  | .vsubInt d _ _ _ _ _ _ => [d]
  | .vmulInt d _ _ _ _ _ => [d]
  | .vmulh d _ _ _ _ => [d]
  | .vmad d _ _ _ _ _ => [d]
  | .vminInt d _ _ _ _ => [d]
  | .vmaxInt d _ _ _ _ => [d]
  | .vabsd d _ _ _ _ => [d]
  | .vand d _ _ _ _ _ => [d]
  | .vor d _ _ _ _ _ => [d]
  | .vxor d _ _ _ _ _ => [d]
  | .vandn d _ _ _ _ _ => [d]
  | .vshl d _ _ _ _ => [d]
  | .vshr d _ _ _ _ => [d]
  | .vsra d _ _ _ _ => [d]
  | .vcmpInt _ _ _ => []
  | .vaddx d _ _ _ _ _ => [d]
  | .vsubx d _ _ _ _ _ => [d]
  | .vselFlag d _ _ _ _ => [d]
  | .vselPred d _ _ _ _ => [d]
  | .vaddMasked d _ _ _ _ _ => [d]
  | .vsubMasked d _ _ _ _ _ => [d]
  | .vmovMasked d _ _ _ _ => [d]
  | .vaddImm d _ _ _ _ _ => [d]
  | .vandImm d _ _ _ _ => [d]
  | .vorImm d _ _ _ _ => [d]
  | .vshlImm d _ _ _ => [d]
  | .vshrImm d _ _ _ => [d]
  | .vsraImm d _ _ _ => [d]
  | .vmovi d _ _ => [d]
  | .vperm d _ _ _ => [d]
  | .vbcast d _ _ _ => [d]
  | .vscanAddI32 d _ _ => [d]
  | .vredAddI32 d _ _ => [d]
  | .vredMaxI32 d _ _ => [d]
  | .vredMinI32 d _ _ => [d]
  | .vfroms d _ _ => [d]
  | .pcmpB _ _ _ _ => []
  | .pand _ _ _ => []
  | .por _ _ _ => []
  | .pxor _ _ _ => []
  | .pnot _ _ => []
  | .pfromcc _ _ => []
  | .vaddFloat d _ _ _ _ _ => [d]
  | .vsubFloat d _ _ _ _ _ => [d]
  | .vmulFloat d _ _ _ _ _ => [d]
  | .vfma d _ _ _ _ _ => [d]
  | .vfms d _ _ _ _ _ => [d]
  | .vminFloat d _ _ _ _ => [d]
  | .vmaxFloat d _ _ _ _ => [d]
  | .vcmpFloat _ _ _ => []
  | .vabs d _ _ _ _ => [d]
  | .vneg d _ _ _ _ => [d]
  | .vsqrt d _ _ _ _ => [d]
  | .vrcp d _ _ _ _ => [d]
  | .vrsqrt d _ _ _ _ => [d]
  | .vexp2 d _ _ _ _ => [d]
  | .vlog2 d _ _ _ _ => [d]
  | .vsin d _ _ _ _ => [d]
  | .vcos d _ _ _ _ => [d]
  | .vtanh d _ _ _ _ => [d]
  | .vclass d _ _ _ => [d]
  | .vcvt d _ _ _ _ _ => [d]
  | .vcvtSat d _ _ _ _ _ => [d]
  | .vpackb d _ _ _ _ _ _ => [d]
  | .vunpackb d _ _ _ _ _ => [d]
  | .vscale d _ _ _ _ => [d]
  | .mmul _ _ _ _ _ _ => []
  | .mtrans _ _ _ _ => []
  | .mchol _ _ _ _ => []
  | .mlu _ _ _ _ => []
  | .mtrsl _ _ _ _ _ => []
  | .mtrsu _ _ _ _ _ => []
  | .msolveChol _ _ _ _ _ => []
  | .msolveLu _ _ _ _ _ => []
  | .cbnd _ _ _ _ => []
  | .cbndX _ _ _ _ => []
  | .coff _ _ _ _ => []
  | .cinc _ _ _ _ => []
  | .cperm _ _ _ _ => []
  | .cseal _ _ _ _ => []
  | .cunseal _ _ _ _ => []
  | .cmov _ _ _ _ => []
  | .cuntag _ _ _ _ => []
  | .cgetBase d v _ => (if v == 1 then [d] else [])
  | .cgetTop d v _ => (if v == 1 then [d] else [])
  | .cgetPos d v _ => (if v == 1 then [d] else [])
  | .cgetRoom d v _ => (if v == 1 then [d] else [])
  | .cgetPerm d v _ => (if v == 1 then [d] else [])
  | .cgetType d v _ => (if v == 1 then [d] else [])
  | .cgetTag d v _ => (if v == 1 then [d] else [])
  | .cgetAddr d v _ => (if v == 1 then [d] else [])
  | .cgetExp d v _ => (if v == 1 then [d] else [])
  | .ldReg d _ _ _ _ _ _ => [d]
  | .ldImm d _ _ _ _ _ _ => [d]
  | .stReg _ _ _ _ _ _ => []
  | .stImm _ _ _ _ _ _ => []
  | .ldc _ _ _ _ _ => []
  | .stc _ _ _ _ _ => []
  | .ldfe d _ _ _ _ _ => [d]
  | .ldfeClr d _ _ _ _ _ => [d]
  | .stfe _ _ _ _ _ => []
  | .smap _ _ _ => []
  | .sflush _ _ => []
  | .patset _ _ _ _ => []
  | .redmAdd _ _ _ _ _ => []
  | .redmMax _ _ _ _ _ => []
  | .redmMin _ _ _ _ _ => []
  | .amadd32 d _ _ _ _ _ => [d]
  | .amand32 d _ _ _ _ _ => [d]
  | .amor32 d _ _ _ _ _ => [d]
  | .amxor32 d _ _ _ _ _ => [d]
  | .ammaxI32 d _ _ _ _ _ => [d]
  | .ammaxU32 d _ _ _ _ _ => [d]
  | .amminI32 d _ _ _ _ _ => [d]
  | .amminU32 d _ _ _ _ _ => [d]
  | .amadd64 d _ _ _ _ _ => [d]
  | .amand64 d _ _ _ _ _ => [d]
  | .amor64 d _ _ _ _ _ => [d]
  | .amxor64 d _ _ _ _ _ => [d]
  | .ammaxI64 d _ _ _ _ _ => [d]
  | .ammaxU64 d _ _ _ _ _ => [d]
  | .amminI64 d _ _ _ _ _ => [d]
  | .amminU64 d _ _ _ _ _ => [d]
  | .amswap32 d _ _ _ _ _ => [d]
  | .amcas32 d _ _ _ _ _ => [d]
  | .amswap64 d _ _ _ _ _ => [d]
  | .amcas64 d _ _ _ _ _ => [d]
  | .amaddF32 d _ _ _ _ _ => [d]
  | .txbeg d => [d]
  | .txend => []
  | .txabort _ => []
  | .tacq _ _ => []
  | .trel _ _ => []
  | .tclaim _ _ => []
  | .tmma _ _ _ _ _ _ _ => []
  | .tdrain d _ _ => [d]
  | .tzero _ _ => []
  | .ecopy _ _ _ _ _ => []
  | .ered _ _ _ _ _ => []
  | .ecoll _ _ _ _ _ => []
  | .esealOpen _ _ _ _ _ => []
  | .esealCommit _ _ _ _ _ => []
  | .post _ _ => []
  | .done => []
  | .cancel _ _ => []
  | .ctread _ => []
  | .ctarm _ => []
  | .ctwait _ => []
  | .ctwaitPeer _ _ => []
  | .trap _ => []
  | .rett => []
  | .fence _ _ => []
  | .setpl _ => []
  | .modeRead _ _ => []
  | .modeWrite _ _ => []
  | .clusterAssignment _ _ => []
  | .latchRunLeave _ _ _ => []
  | .trapEntry _ _ => []
  | .barrierComplete _ _ => []
  | .loadCompletion _ _ _ => []
  | .storePlaceTaken _ _ _ => []
  | .stashWriteback _ _ _ => []
  | .txDurationExpiry _ _ _ => []
  | .leasePtsAdvance _ _ => []
  | .redmDeliveryApply _ _ _ => []
  | .tmmaStep _ => []
  | .tzeroPerform _ => []
  | .tdrainPerform _ => []
  | .trelPerform _ => []
  | .engineSubmission _ => []
  | .ecopyChunk _ => []
  | .eredReduce _ => []
  | .ecollRun _ => []
  | .sealOpenPerform _ => []
  | .sealCommitPerform _ => []
  | .qnotifyWrite _ _ _ => []
  | .queueEntryAdmit _ => []
  | .cardRunComplete _ => []
  | .curatorPass => []
  | .classAgeing _ => []
  | .makeRoomTimeout => []
  | .carveOutChange _ => []
  | .blockCompletion _ => []
  | .unitCancel _ _ => []
  | .variantSwitch _ => []
  | .switchWaitTimeout _ _ => []
  | .blockRetire _ => []
  | .contextEnable _ _ _ => []
  | .contextDisable _ _ => []
  | .hostStopRequest _ _ => []
  | .debugStopRequest _ _ => []
  | .stopRelease _ _ => []
  | .debugStep _ _ => []
  | .cxctWrite _ _ _ => []
  | .hostNotification _ _ => []
  | .sliceExpiry _ => []
  | .freezeInstant _ => []
  | .handlerBudgetExpiry _ _ => []
  | .saveComplete _ => []
  | .resumeInstant _ => []
  | .resumeLoadTimeout _ => []
  | .arrivalDelivery _ => []
  | .alarmFire _ _ => []
  | .ctwaitDeadline _ _ _ => []
  | .windowOpen _ _ => []
  | .windowOpenAnswer _ _ _ => []
  | .windowClose _ => []
  | .doorbellMessage _ _ _ _ _ _ _ => []
  | .messageRetry _ _ => []
  | .fabricRequestCheck _ _ _ _ _ _ _ => []
  | .flitReceive _ _ _ => []
  | .flitReplay _ => []
  | .creditReportSend _ => []
  | .creditReportReceive _ _ => []
  | .linkTraining _ _ _ => []
  | .fnodeWrite _ _ => []
  | .frsvWrite _ _ _ => []
  | .biasFlip _ _ _ => []
  | .biasFlipComplete => []
  | .backInvalidateAnswer _ => []
  | .hostAccess _ _ _ _ => []
  | .tlpReceive _ _ _ => []
  | .ideKeyProg _ _ _ => []
  | .ideKSetGo _ _ => []
  | .lockInterfaceRequest _ => []
  | .startInterfaceRequest _ => []
  | .stopInterfaceRequest _ => []
  | .spdmRequest _ _ => []
  | .getMeasurements _ => []
  | .bckey _ _ => []
  | .capabilityDerive _ _ => []
  | .typeKeyDerive _ _ => []
  | .keyGenerateEcdsa _ _ => []
  | .keyGenerateMldsa _ _ => []
  | .keyRevoke _ _ => []
  | .handleReissue _ _ => []
  | .waysChange _ _ _ => []
  | .s2rootWrite _ _ _ => []
  | .pageWalk _ _ _ => []
  | .ringRecordRetry _ => []
  | .fresumeWrite _ _ _ => []
  | .invalidationStart _ _ _ => []
  | .invalidationComplete _ => []
  | .coreReset _ => []
  | .patrolScrub _ _ _ => []
  | .revocationSweepStart _ _ _ => []
  | .groupRegisterSweep _ _ => []
  | .sweepSwitchWaitExpiry _ _ => []
  | .sweepGranuleCheck _ => []
  | .repair _ _ _ _ => []
  | .corectlWrite _ _ _ => []
  | .replanRequest _ _ => []
  | .wingReplan _ _ _ => []
  | .timingErrorReplay _ => []
  | .clockChange _ => []
  | .pkcapAdjust _ => []
  | .energyAccounting _ _ _ _ _ => []
  | .fillerIssue _ _ _ => []
  | .powerOnBoot _ => []
  | .unitReady _ _ => []
  | .registerWrite _ _ _ => []
  | .trapModeBudgetExpiry _ _ => []
  | .controlParityError _ => []

/-- The state a word writes, for the shape rule of R25. -/
def writesOf : Instr → List Res
  | .nop => []
  | .sadd d _ _ => [.s d]
  | .ssub d _ _ => [.s d]
  | .sand d _ _ => [.s d]
  | .sor d _ _ => [.s d]
  | .sxor d _ _ => [.s d]
  | .sshl d _ _ => [.s d]
  | .sshr d _ _ => [.s d]
  | .ssra d _ _ => [.s d]
  | .smul d _ _ => [.s d]
  | .smulhI64 d _ _ => [.s d]
  | .smulhU64 d _ _ => [.s d]
  | .sminI64 d _ _ => [.s d]
  | .sminU64 d _ _ => [.s d]
  | .smaxI64 d _ _ => [.s d]
  | .smaxU64 d _ _ => [.s d]
  | .saddImm d _ _ => [.s d]
  | .ssubImm d _ _ => [.s d]
  | .sandImm d _ _ => [.s d]
  | .sorImm d _ _ => [.s d]
  | .sxorImm d _ _ => [.s d]
  | .sshlImm d _ _ => [.s d]
  | .sshrImm d _ _ => [.s d]
  | .ssraImm d _ _ => [.s d]
  | .smulImm d _ _ => [.s d]
  | .smulhI64Imm d _ _ => [.s d]
  | .smulhU64Imm d _ _ => [.s d]
  | .sminI64Imm d _ _ => [.s d]
  | .sminU64Imm d _ _ => [.s d]
  | .smaxI64Imm d _ _ => [.s d]
  | .smaxU64Imm d _ _ => [.s d]
  | .scmpEq d _ _ => [.s d]
  | .scmpNe d _ _ => [.s d]
  | .scmpLtI64 d _ _ => [.s d]
  | .scmpGeI64 d _ _ => [.s d]
  | .scmpLtU64 d _ _ => [.s d]
  | .scmpGeU64 d _ _ => [.s d]
  | .scmpEqImm d _ _ => [.s d]
  | .scmpNeImm d _ _ => [.s d]
  | .scmpLtI64Imm d _ _ => [.s d]
  | .scmpGeI64Imm d _ _ => [.s d]
  | .scmpLtU64Imm d _ _ => [.s d]
  | .scmpGeU64Imm d _ _ => [.s d]
  | .smovi d _ => [.s d]
  | .br _ => []
  | .brcEq0 _ _ => []
  | .brcNe0 _ _ => []
  | .brcLt0 _ _ => []
  | .brcGe0 _ _ => []
  | .brcZ _ => []
  | .brcNz _ => []
  | .brcC _ => []
  | .brcNc _ => []
  | .call _ _ => [.base]
  | .ret => [.base]
  | .split _ _ => []
  | .merge => []
  | .waitc _ _ => []
  | .bar _ => []
  | .qbindPush _ _ => []
  | .qbindPop _ _ => []
  | .qbindUnbind _ => []
  | .sstat d _ _ => [.s d]
  | .smaskRd s => [.s s]
  | .smaskWr _ => []
  | .sflags d _ => [.s d]
  | .slane d _ _ => [.s d]
  | .vaddInt d s _ _ g _ y => wrV (is64 y) s d ++ wrCc g
  | .vsubInt d s _ _ g _ y => wrV (is64 y) s d ++ wrCc g
  | .vmulInt d s _ _ _ y => wrV (is64 y) s d
  | .vmulh d s _ _ y => wrV (y.toNat ≥ 2) s d
  | .vmad d s _ _ _ y => wrV (is64 y) s d
  | .vminInt d s _ _ y => wrV (is64 y) s d
  | .vmaxInt d s _ _ y => wrV (is64 y) s d
  | .vabsd d s _ _ y => wrV (is64 y) s d
  | .vand d s _ _ g y => wrV (y == 1) s d ++ wrCc g
  | .vor d s _ _ g y => wrV (y == 1) s d ++ wrCc g
  | .vxor d s _ _ g y => wrV (y == 1) s d ++ wrCc g
  | .vandn d s _ _ g y => wrV (y == 1) s d ++ wrCc g
  | .vshl d s _ _ y => wrV (is64 y) s d
  | .vshr d s _ _ y => wrV (is64 y) s d
  | .vsra d s _ _ y => wrV (is64 y) s d
  | .vcmpInt _ _ _ => [.cc]
  | .vaddx d s _ _ g y => wrV (y.toNat ≥ 2) s d ++ wrCc g
  | .vsubx d s _ _ g y => wrV (y.toNat ≥ 2) s d ++ wrCc g
  | .vselFlag d s _ _ _ => wrV false s d
  | .vselPred d s _ _ _ => wrV false s d
  | .vaddMasked d s _ _ _ _ => wrV false s d
  | .vsubMasked d s _ _ _ _ => wrV false s d
  | .vmovMasked d s _ _ _ => wrV false s d
  | .vaddImm d s _ g _ y => wrV (is64 y) s d ++ wrCc g
  | .vandImm d s _ g y => wrV (y == 1) s d ++ wrCc g
  | .vorImm d s _ g y => wrV (y == 1) s d ++ wrCc g
  | .vshlImm d s _ y => wrV (is64 y) s d
  | .vshrImm d s _ y => wrV (is64 y) s d
  | .vsraImm d s _ y => wrV (is64 y) s d
  | .vmovi d s i => wrV (extTwo i.ext) s d
  | .vperm d s _ _ => wrV false s d
  | .vbcast d s _ _ => wrV false s d
  | .vscanAddI32 d s _ => wrV false s d
  | .vredAddI32 d s _ => wrV false s d
  | .vredMaxI32 d s _ => wrV false s d
  | .vredMinI32 d s _ => wrV false s d
  | .vfroms d s _ => wrV false s d
  | .pcmpB d _ _ _ => [.p d]
  | .pand d _ _ => [.p d]
  | .por d _ _ => [.p d]
  | .pxor d _ _ => [.p d]
  | .pnot d _ => [.p d]
  | .pfromcc d _ => [.p d]
  | .vaddFloat d s _ _ _ _ => wrV false s d
  | .vsubFloat d s _ _ _ _ => wrV false s d
  | .vmulFloat d s _ _ _ _ => wrV false s d
  | .vfma d s _ _ _ _ => wrV false s d
  | .vfms d s _ _ _ _ => wrV false s d
  | .vminFloat d s _ _ _ => wrV false s d
  | .vmaxFloat d s _ _ _ => wrV false s d
  | .vcmpFloat _ _ _ => [.cc]
  | .vabs d s _ _ _ => wrV false s d
  | .vneg d s _ _ _ => wrV false s d
  | .vsqrt d s _ _ _ => wrV false s d
  | .vrcp d s _ _ _ => wrV false s d
  | .vrsqrt d s _ _ _ => wrV false s d
  | .vexp2 d s _ _ _ => wrV false s d
  | .vlog2 d s _ _ _ => wrV false s d
  | .vsin d s _ _ _ => wrV false s d
  | .vcos d s _ _ _ => wrV false s d
  | .vtanh d s _ _ _ => wrV false s d
  | .vclass d s _ _ => wrV false s d
  | .vcvt d s _ t _ _ => wrV (cvt64 t) s d
  | .vcvtSat d s _ t _ _ => wrV (cvt64 t) s d
  | .vpackb d s _ _ _ _ _ => wrV false s d
  | .vunpackb d s _ _ _ _ => wrV false s d
  | .vscale d s _ _ _ => wrV false s d
  | .mmul d _ _ m _ n => wrRange (2 * d.toNat) ((m.toNat + 1) * (n.toNat + 1))
  | .mtrans d _ r l => wrRange d.toNat (sq r l)
  | .mchol d _ r l => .cc :: wrRange d.toNat (sq r l)
  | .mlu d _ r l => .cc :: wrRange d.toNat (sq r l + 1)
  | .mtrsl d _ _ r _ => .cc :: wrRange d.toNat (r.toNat + 1)
  | .mtrsu d _ _ r _ => .cc :: wrRange d.toNat (r.toNat + 1)
  | .msolveChol d _ _ r _ => .cc :: wrRange d.toNat (r.toNat + 1)
  | .msolveLu d _ _ r _ => .cc :: wrRange d.toNat (r.toNat + 1)
  | .cbnd d v _ _ => [if v == 1 then .c d else .k d]
  | .cbndX d v _ _ => [if v == 1 then .c d else .k d]
  | .coff d v _ _ => [if v == 1 then .c d else .k d]
  | .cinc d v _ _ => [if v == 1 then .c d else .k d]
  | .cperm d v _ _ => [if v == 1 then .c d else .k d]
  | .cseal d v _ _ => [if v == 1 then .c d else .k d]
  | .cunseal d v _ _ => [if v == 1 then .c d else .k d]
  | .cmov d v _ _ => [if v == 1 then .c d else .k d]
  | .cuntag d v _ _ => [if v == 1 then .c d else .k d]
  | .cgetBase d v _ => (if v == 1 then wrV true 0 d else [.s (d.setWidth 5)])
  | .cgetTop d v _ => (if v == 1 then wrV true 0 d else [.s (d.setWidth 5)])
  | .cgetPos d v _ => (if v == 1 then wrV true 0 d else [.s (d.setWidth 5)])
  | .cgetRoom d v _ => (if v == 1 then wrV true 0 d else [.s (d.setWidth 5)])
  | .cgetPerm d v _ => (if v == 1 then wrV false 0 d else [.s (d.setWidth 5)])
  | .cgetType d v _ => (if v == 1 then wrV false 0 d else [.s (d.setWidth 5)])
  | .cgetTag d v _ => (if v == 1 then wrV false 0 d else [.s (d.setWidth 5)])
  | .cgetAddr d v _ => (if v == 1 then wrV true 0 d else [.s (d.setWidth 5)])
  | .cgetExp d v _ => (if v == 1 then wrV false 0 d else [.s (d.setWidth 5)])
  | .ldReg d s _ _ _ z _ => wrV (z == 1) s d
  | .ldImm d s _ _ _ z _ => wrV (z == 1) s d
  | .stReg _ _ _ _ _ _ => []
  | .stImm _ _ _ _ _ _ => []
  | .ldc d e _ _ _ => [if e == 1 then .c d else .k d]
  | .stc _ _ _ _ _ => []
  | .ldfe d s _ _ _ z => wrV (z == 1) s d
  | .ldfeClr d s _ _ _ z => wrV (z == 1) s d
  | .stfe _ _ _ _ _ => []
  | .smap _ _ _ => []
  | .sflush _ _ => []
  | .patset _ _ _ _ => []
  | .redmAdd _ _ _ _ _ => []
  | .redmMax _ _ _ _ _ => []
  | .redmMin _ _ _ _ _ => []
  | .amadd32 d s _ _ _ _ => wrV false s d
  | .amand32 d s _ _ _ _ => wrV false s d
  | .amor32 d s _ _ _ _ => wrV false s d
  | .amxor32 d s _ _ _ _ => wrV false s d
  | .ammaxI32 d s _ _ _ _ => wrV false s d
  | .ammaxU32 d s _ _ _ _ => wrV false s d
  | .amminI32 d s _ _ _ _ => wrV false s d
  | .amminU32 d s _ _ _ _ => wrV false s d
  | .amadd64 d s _ _ _ _ => wrV true s d
  | .amand64 d s _ _ _ _ => wrV true s d
  | .amor64 d s _ _ _ _ => wrV true s d
  | .amxor64 d s _ _ _ _ => wrV true s d
  | .ammaxI64 d s _ _ _ _ => wrV true s d
  | .ammaxU64 d s _ _ _ _ => wrV true s d
  | .amminI64 d s _ _ _ _ => wrV true s d
  | .amminU64 d s _ _ _ _ => wrV true s d
  | .amswap32 d s _ _ _ _ => wrV false s d
  | .amcas32 d s _ _ _ _ => wrV false s d
  | .amswap64 d s _ _ _ _ => wrV true s d
  | .amcas64 d s _ _ _ _ => wrV true s d
  | .amaddF32 d s _ _ _ _ => wrV false s d
  | .txbeg d => .cc :: wrV false 0 d
  | .txend => []
  | .txabort _ => []
  | .tacq d _ => [.s d]
  | .trel _ _ => []
  | .tclaim _ _ => []
  | .tmma _ _ _ _ _ _ _ => []
  | .tdrain d s _ => wrV false s d
  | .tzero _ _ => []
  | .ecopy _ d _ _ _ => [.s d]
  | .ered _ d _ _ _ => [.s d]
  | .ecoll _ d _ _ _ => [.s d]
  | .esealOpen _ d _ _ _ => [.s d]
  | .esealCommit _ d _ _ _ => [.s d]
  | .post _ _ => []
  | .done => []
  | .cancel _ _ => []
  | .ctread s => [.s s]
  | .ctarm _ => []
  | .ctwait _ => []
  | .ctwaitPeer _ _ => []
  | .trap _ => []
  | .rett => [.base]
  | .fence _ _ => []
  | .setpl _ => []
  | .modeRead s _ => [.s s]
  | .modeWrite _ r => [.mode r]
  | .clusterAssignment _ _ => []
  | .latchRunLeave _ _ _ => []
  | .trapEntry _ _ => []
  | .barrierComplete _ _ => []
  | .loadCompletion _ _ _ => []
  | .storePlaceTaken _ _ _ => []
  | .stashWriteback _ _ _ => []
  | .txDurationExpiry _ _ _ => []
  | .leasePtsAdvance _ _ => []
  | .redmDeliveryApply _ _ _ => []
  | .tmmaStep _ => []
  | .tzeroPerform _ => []
  | .tdrainPerform _ => []
  | .trelPerform _ => []
  | .engineSubmission _ => []
  | .ecopyChunk _ => []
  | .eredReduce _ => []
  | .ecollRun _ => []
  | .sealOpenPerform _ => []
  | .sealCommitPerform _ => []
  | .qnotifyWrite _ _ _ => []
  | .queueEntryAdmit _ => []
  | .cardRunComplete _ => []
  | .curatorPass => []
  | .classAgeing _ => []
  | .makeRoomTimeout => []
  | .carveOutChange _ => []
  | .blockCompletion _ => []
  | .unitCancel _ _ => []
  | .variantSwitch _ => []
  | .switchWaitTimeout _ _ => []
  | .blockRetire _ => []
  | .contextEnable _ _ _ => []
  | .contextDisable _ _ => []
  | .hostStopRequest _ _ => []
  | .debugStopRequest _ _ => []
  | .stopRelease _ _ => []
  | .debugStep _ _ => []
  | .cxctWrite _ _ _ => []
  | .hostNotification _ _ => []
  | .sliceExpiry _ => []
  | .freezeInstant _ => []
  | .handlerBudgetExpiry _ _ => []
  | .saveComplete _ => []
  | .resumeInstant _ => []
  | .resumeLoadTimeout _ => []
  | .arrivalDelivery _ => []
  | .alarmFire _ _ => []
  | .ctwaitDeadline _ _ _ => []
  | .windowOpen _ _ => []
  | .windowOpenAnswer _ _ _ => []
  | .windowClose _ => []
  | .doorbellMessage _ _ _ _ _ _ _ => []
  | .messageRetry _ _ => []
  | .fabricRequestCheck _ _ _ _ _ _ _ => []
  | .flitReceive _ _ _ => []
  | .flitReplay _ => []
  | .creditReportSend _ => []
  | .creditReportReceive _ _ => []
  | .linkTraining _ _ _ => []
  | .fnodeWrite _ _ => []
  | .frsvWrite _ _ _ => []
  | .biasFlip _ _ _ => []
  | .biasFlipComplete => []
  | .backInvalidateAnswer _ => []
  | .hostAccess _ _ _ _ => []
  | .tlpReceive _ _ _ => []
  | .ideKeyProg _ _ _ => []
  | .ideKSetGo _ _ => []
  | .lockInterfaceRequest _ => []
  | .startInterfaceRequest _ => []
  | .stopInterfaceRequest _ => []
  | .spdmRequest _ _ => []
  | .getMeasurements _ => []
  | .bckey _ _ => []
  | .capabilityDerive _ _ => []
  | .typeKeyDerive _ _ => []
  | .keyGenerateEcdsa _ _ => []
  | .keyGenerateMldsa _ _ => []
  | .keyRevoke _ _ => []
  | .handleReissue _ _ => []
  | .waysChange _ _ _ => []
  | .s2rootWrite _ _ _ => []
  | .pageWalk _ _ _ => []
  | .ringRecordRetry _ => []
  | .fresumeWrite _ _ _ => []
  | .invalidationStart _ _ _ => []
  | .invalidationComplete _ => []
  | .coreReset _ => []
  | .patrolScrub _ _ _ => []
  | .revocationSweepStart _ _ _ => []
  | .groupRegisterSweep _ _ => []
  | .sweepSwitchWaitExpiry _ _ => []
  | .sweepGranuleCheck _ => []
  | .repair _ _ _ _ => []
  | .corectlWrite _ _ _ => []
  | .replanRequest _ _ => []
  | .wingReplan _ _ _ => []
  | .timingErrorReplay _ => []
  | .clockChange _ => []
  | .pkcapAdjust _ => []
  | .energyAccounting _ _ _ _ _ => []
  | .fillerIssue _ _ _ => []
  | .powerOnBoot _ => []
  | .unitReady _ _ => []
  | .registerWrite _ _ _ => []
  | .trapModeBudgetExpiry _ _ => []
  | .controlParityError _ => []

/-- The pipe of a word by its major (R22); an event goes to none. -/
def pipeOf : Instr → Option Pipe
  | .nop => some .S
  | .sadd _ _ _ => some .S
  | .ssub _ _ _ => some .S
  | .sand _ _ _ => some .S
  | .sor _ _ _ => some .S
  | .sxor _ _ _ => some .S
  | .sshl _ _ _ => some .S
  | .sshr _ _ _ => some .S
  | .ssra _ _ _ => some .S
  | .smul _ _ _ => some .S
  | .smulhI64 _ _ _ => some .S
  | .smulhU64 _ _ _ => some .S
  | .sminI64 _ _ _ => some .S
  | .sminU64 _ _ _ => some .S
  | .smaxI64 _ _ _ => some .S
  | .smaxU64 _ _ _ => some .S
  | .saddImm _ _ _ => some .S
  | .ssubImm _ _ _ => some .S
  | .sandImm _ _ _ => some .S
  | .sorImm _ _ _ => some .S
  | .sxorImm _ _ _ => some .S
  | .sshlImm _ _ _ => some .S
  | .sshrImm _ _ _ => some .S
  | .ssraImm _ _ _ => some .S
  | .smulImm _ _ _ => some .S
  | .smulhI64Imm _ _ _ => some .S
  | .smulhU64Imm _ _ _ => some .S
  | .sminI64Imm _ _ _ => some .S
  | .sminU64Imm _ _ _ => some .S
  | .smaxI64Imm _ _ _ => some .S
  | .smaxU64Imm _ _ _ => some .S
  | .scmpEq _ _ _ => some .S
  | .scmpNe _ _ _ => some .S
  | .scmpLtI64 _ _ _ => some .S
  | .scmpGeI64 _ _ _ => some .S
  | .scmpLtU64 _ _ _ => some .S
  | .scmpGeU64 _ _ _ => some .S
  | .scmpEqImm _ _ _ => some .S
  | .scmpNeImm _ _ _ => some .S
  | .scmpLtI64Imm _ _ _ => some .S
  | .scmpGeI64Imm _ _ _ => some .S
  | .scmpLtU64Imm _ _ _ => some .S
  | .scmpGeU64Imm _ _ _ => some .S
  | .smovi _ _ => some .S
  | .br _ => some .S
  | .brcEq0 _ _ => some .S
  | .brcNe0 _ _ => some .S
  | .brcLt0 _ _ => some .S
  | .brcGe0 _ _ => some .S
  | .brcZ _ => some .S
  | .brcNz _ => some .S
  | .brcC _ => some .S
  | .brcNc _ => some .S
  | .call _ _ => some .S
  | .ret => some .S
  | .split _ _ => some .S
  | .merge => some .S
  | .waitc _ _ => some .S
  | .bar _ => some .S
  | .qbindPush _ _ => some .S
  | .qbindPop _ _ => some .S
  | .qbindUnbind _ => some .S
  | .sstat _ _ _ => some .S
  | .smaskRd _ => some .S
  | .smaskWr _ => some .S
  | .sflags _ _ => some .S
  | .slane _ _ _ => some .S
  | .vaddInt _ _ _ _ _ _ _ => some .V
  | .vsubInt _ _ _ _ _ _ _ => some .V
  | .vmulInt _ _ _ _ _ _ => some .V
  | .vmulh _ _ _ _ _ => some .V
  | .vmad _ _ _ _ _ _ => some .V
  | .vminInt _ _ _ _ _ => some .V
  | .vmaxInt _ _ _ _ _ => some .V
  | .vabsd _ _ _ _ _ => some .V
  | .vand _ _ _ _ _ _ => some .V
  | .vor _ _ _ _ _ _ => some .V
  | .vxor _ _ _ _ _ _ => some .V
  | .vandn _ _ _ _ _ _ => some .V
  | .vshl _ _ _ _ _ => some .V
  | .vshr _ _ _ _ _ => some .V
  | .vsra _ _ _ _ _ => some .V
  | .vcmpInt _ _ _ => some .V
  | .vaddx _ _ _ _ _ _ => some .V
  | .vsubx _ _ _ _ _ _ => some .V
  | .vselFlag _ _ _ _ _ => some .V
  | .vselPred _ _ _ _ _ => some .V
  | .vaddMasked _ _ _ _ _ _ => some .V
  | .vsubMasked _ _ _ _ _ _ => some .V
  | .vmovMasked _ _ _ _ _ => some .V
  | .vaddImm _ _ _ _ _ _ => some .V
  | .vandImm _ _ _ _ _ => some .V
  | .vorImm _ _ _ _ _ => some .V
  | .vshlImm _ _ _ _ => some .V
  | .vshrImm _ _ _ _ => some .V
  | .vsraImm _ _ _ _ => some .V
  | .vmovi _ _ _ => some .V
  | .vperm _ _ _ _ => some .V
  | .vbcast _ _ _ _ => some .V
  | .vscanAddI32 _ _ _ => some .V
  | .vredAddI32 _ _ _ => some .V
  | .vredMaxI32 _ _ _ => some .V
  | .vredMinI32 _ _ _ => some .V
  | .vfroms _ _ _ => some .V
  | .pcmpB _ _ _ _ => some .V
  | .pand _ _ _ => some .V
  | .por _ _ _ => some .V
  | .pxor _ _ _ => some .V
  | .pnot _ _ => some .V
  | .pfromcc _ _ => some .V
  | .vaddFloat _ _ _ _ _ _ => some .V
  | .vsubFloat _ _ _ _ _ _ => some .V
  | .vmulFloat _ _ _ _ _ _ => some .V
  | .vfma _ _ _ _ _ _ => some .V
  | .vfms _ _ _ _ _ _ => some .V
  | .vminFloat _ _ _ _ _ => some .V
  | .vmaxFloat _ _ _ _ _ => some .V
  | .vcmpFloat _ _ _ => some .V
  | .vabs _ _ _ _ _ => some .V
  | .vneg _ _ _ _ _ => some .V
  | .vsqrt _ _ _ _ _ => some .V
  | .vrcp _ _ _ _ _ => some .V
  | .vrsqrt _ _ _ _ _ => some .V
  | .vexp2 _ _ _ _ _ => some .V
  | .vlog2 _ _ _ _ _ => some .V
  | .vsin _ _ _ _ _ => some .V
  | .vcos _ _ _ _ _ => some .V
  | .vtanh _ _ _ _ _ => some .V
  | .vclass _ _ _ _ => some .V
  | .vcvt _ _ _ _ _ _ => some .V
  | .vcvtSat _ _ _ _ _ _ => some .V
  | .vpackb _ _ _ _ _ _ _ => some .V
  | .vunpackb _ _ _ _ _ _ => some .V
  | .vscale _ _ _ _ _ => some .V
  | .mmul _ _ _ _ _ _ => some .X
  | .mtrans _ _ _ _ => some .X
  | .mchol _ _ _ _ => some .X
  | .mlu _ _ _ _ => some .X
  | .mtrsl _ _ _ _ _ => some .X
  | .mtrsu _ _ _ _ _ => some .X
  | .msolveChol _ _ _ _ _ => some .X
  | .msolveLu _ _ _ _ _ => some .X
  | .cbnd _ _ _ _ => some .M
  | .cbndX _ _ _ _ => some .M
  | .coff _ _ _ _ => some .M
  | .cinc _ _ _ _ => some .M
  | .cperm _ _ _ _ => some .M
  | .cseal _ _ _ _ => some .M
  | .cunseal _ _ _ _ => some .M
  | .cmov _ _ _ _ => some .M
  | .cuntag _ _ _ _ => some .M
  | .cgetBase _ _ _ => some .M
  | .cgetTop _ _ _ => some .M
  | .cgetPos _ _ _ => some .M
  | .cgetRoom _ _ _ => some .M
  | .cgetPerm _ _ _ => some .M
  | .cgetType _ _ _ => some .M
  | .cgetTag _ _ _ => some .M
  | .cgetAddr _ _ _ => some .M
  | .cgetExp _ _ _ => some .M
  | .ldReg _ _ _ _ _ _ _ => some .M
  | .ldImm _ _ _ _ _ _ _ => some .M
  | .stReg _ _ _ _ _ _ => some .M
  | .stImm _ _ _ _ _ _ => some .M
  | .ldc _ _ _ _ _ => some .M
  | .stc _ _ _ _ _ => some .M
  | .ldfe _ _ _ _ _ _ => some .M
  | .ldfeClr _ _ _ _ _ _ => some .M
  | .stfe _ _ _ _ _ => some .M
  | .smap _ _ _ => some .M
  | .sflush _ _ => some .M
  | .patset _ _ _ _ => some .M
  | .redmAdd _ _ _ _ _ => some .M
  | .redmMax _ _ _ _ _ => some .M
  | .redmMin _ _ _ _ _ => some .M
  | .amadd32 _ _ _ _ _ _ => some .M
  | .amand32 _ _ _ _ _ _ => some .M
  | .amor32 _ _ _ _ _ _ => some .M
  | .amxor32 _ _ _ _ _ _ => some .M
  | .ammaxI32 _ _ _ _ _ _ => some .M
  | .ammaxU32 _ _ _ _ _ _ => some .M
  | .amminI32 _ _ _ _ _ _ => some .M
  | .amminU32 _ _ _ _ _ _ => some .M
  | .amadd64 _ _ _ _ _ _ => some .M
  | .amand64 _ _ _ _ _ _ => some .M
  | .amor64 _ _ _ _ _ _ => some .M
  | .amxor64 _ _ _ _ _ _ => some .M
  | .ammaxI64 _ _ _ _ _ _ => some .M
  | .ammaxU64 _ _ _ _ _ _ => some .M
  | .amminI64 _ _ _ _ _ _ => some .M
  | .amminU64 _ _ _ _ _ _ => some .M
  | .amswap32 _ _ _ _ _ _ => some .M
  | .amcas32 _ _ _ _ _ _ => some .M
  | .amswap64 _ _ _ _ _ _ => some .M
  | .amcas64 _ _ _ _ _ _ => some .M
  | .amaddF32 _ _ _ _ _ _ => some .M
  | .txbeg _ => some .M
  | .txend => some .M
  | .txabort _ => some .M
  | .tacq _ _ => some .X
  | .trel _ _ => some .X
  | .tclaim _ _ => some .X
  | .tmma _ _ _ _ _ _ _ => some .X
  | .tdrain _ _ _ => some .X
  | .tzero _ _ => some .X
  | .ecopy _ _ _ _ _ => some .X
  | .ered _ _ _ _ _ => some .X
  | .ecoll _ _ _ _ _ => some .X
  | .esealOpen _ _ _ _ _ => some .X
  | .esealCommit _ _ _ _ _ => some .X
  | .post _ _ => some .X
  | .done => some .X
  | .cancel _ _ => some .X
  | .ctread _ => some .X
  | .ctarm _ => some .X
  | .ctwait _ => some .X
  | .ctwaitPeer _ _ => some .X
  | .trap _ => some .X
  | .rett => some .X
  | .fence _ _ => some .X
  | .setpl _ => some .X
  | .modeRead _ _ => some .X
  | .modeWrite _ _ => some .X
  | .clusterAssignment _ _ => none
  | .latchRunLeave _ _ _ => none
  | .trapEntry _ _ => none
  | .barrierComplete _ _ => none
  | .loadCompletion _ _ _ => none
  | .storePlaceTaken _ _ _ => none
  | .stashWriteback _ _ _ => none
  | .txDurationExpiry _ _ _ => none
  | .leasePtsAdvance _ _ => none
  | .redmDeliveryApply _ _ _ => none
  | .tmmaStep _ => none
  | .tzeroPerform _ => none
  | .tdrainPerform _ => none
  | .trelPerform _ => none
  | .engineSubmission _ => none
  | .ecopyChunk _ => none
  | .eredReduce _ => none
  | .ecollRun _ => none
  | .sealOpenPerform _ => none
  | .sealCommitPerform _ => none
  | .qnotifyWrite _ _ _ => none
  | .queueEntryAdmit _ => none
  | .cardRunComplete _ => none
  | .curatorPass => none
  | .classAgeing _ => none
  | .makeRoomTimeout => none
  | .carveOutChange _ => none
  | .blockCompletion _ => none
  | .unitCancel _ _ => none
  | .variantSwitch _ => none
  | .switchWaitTimeout _ _ => none
  | .blockRetire _ => none
  | .contextEnable _ _ _ => none
  | .contextDisable _ _ => none
  | .hostStopRequest _ _ => none
  | .debugStopRequest _ _ => none
  | .stopRelease _ _ => none
  | .debugStep _ _ => none
  | .cxctWrite _ _ _ => none
  | .hostNotification _ _ => none
  | .sliceExpiry _ => none
  | .freezeInstant _ => none
  | .handlerBudgetExpiry _ _ => none
  | .saveComplete _ => none
  | .resumeInstant _ => none
  | .resumeLoadTimeout _ => none
  | .arrivalDelivery _ => none
  | .alarmFire _ _ => none
  | .ctwaitDeadline _ _ _ => none
  | .windowOpen _ _ => none
  | .windowOpenAnswer _ _ _ => none
  | .windowClose _ => none
  | .doorbellMessage _ _ _ _ _ _ _ => none
  | .messageRetry _ _ => none
  | .fabricRequestCheck _ _ _ _ _ _ _ => none
  | .flitReceive _ _ _ => none
  | .flitReplay _ => none
  | .creditReportSend _ => none
  | .creditReportReceive _ _ => none
  | .linkTraining _ _ _ => none
  | .fnodeWrite _ _ => none
  | .frsvWrite _ _ _ => none
  | .biasFlip _ _ _ => none
  | .biasFlipComplete => none
  | .backInvalidateAnswer _ => none
  | .hostAccess _ _ _ _ => none
  | .tlpReceive _ _ _ => none
  | .ideKeyProg _ _ _ => none
  | .ideKSetGo _ _ => none
  | .lockInterfaceRequest _ => none
  | .startInterfaceRequest _ => none
  | .stopInterfaceRequest _ => none
  | .spdmRequest _ _ => none
  | .getMeasurements _ => none
  | .bckey _ _ => none
  | .capabilityDerive _ _ => none
  | .typeKeyDerive _ _ => none
  | .keyGenerateEcdsa _ _ => none
  | .keyGenerateMldsa _ _ => none
  | .keyRevoke _ _ => none
  | .handleReissue _ _ => none
  | .waysChange _ _ _ => none
  | .s2rootWrite _ _ _ => none
  | .pageWalk _ _ _ => none
  | .ringRecordRetry _ => none
  | .fresumeWrite _ _ _ => none
  | .invalidationStart _ _ _ => none
  | .invalidationComplete _ => none
  | .coreReset _ => none
  | .patrolScrub _ _ _ => none
  | .revocationSweepStart _ _ _ => none
  | .groupRegisterSweep _ _ => none
  | .sweepSwitchWaitExpiry _ _ => none
  | .sweepGranuleCheck _ => none
  | .repair _ _ _ _ => none
  | .corectlWrite _ _ _ => none
  | .replanRequest _ _ => none
  | .wingReplan _ _ _ => none
  | .timingErrorReplay _ => none
  | .clockChange _ => none
  | .pkcapAdjust _ => none
  | .energyAccounting _ _ _ _ _ => none
  | .fillerIssue _ _ _ => none
  | .powerOnBoot _ => none
  | .unitReady _ _ => none
  | .registerWrite _ _ _ => none
  | .trapModeBudgetExpiry _ _ => none
  | .controlParityError _ => none

/-- The control-transfer words of R25. -/
def isControl : Instr → Bool
  | .nop => false
  | .sadd _ _ _ => false
  | .ssub _ _ _ => false
  | .sand _ _ _ => false
  | .sor _ _ _ => false
  | .sxor _ _ _ => false
  | .sshl _ _ _ => false
  | .sshr _ _ _ => false
  | .ssra _ _ _ => false
  | .smul _ _ _ => false
  | .smulhI64 _ _ _ => false
  | .smulhU64 _ _ _ => false
  | .sminI64 _ _ _ => false
  | .sminU64 _ _ _ => false
  | .smaxI64 _ _ _ => false
  | .smaxU64 _ _ _ => false
  | .saddImm _ _ _ => false
  | .ssubImm _ _ _ => false
  | .sandImm _ _ _ => false
  | .sorImm _ _ _ => false
  | .sxorImm _ _ _ => false
  | .sshlImm _ _ _ => false
  | .sshrImm _ _ _ => false
  | .ssraImm _ _ _ => false
  | .smulImm _ _ _ => false
  | .smulhI64Imm _ _ _ => false
  | .smulhU64Imm _ _ _ => false
  | .sminI64Imm _ _ _ => false
  | .sminU64Imm _ _ _ => false
  | .smaxI64Imm _ _ _ => false
  | .smaxU64Imm _ _ _ => false
  | .scmpEq _ _ _ => false
  | .scmpNe _ _ _ => false
  | .scmpLtI64 _ _ _ => false
  | .scmpGeI64 _ _ _ => false
  | .scmpLtU64 _ _ _ => false
  | .scmpGeU64 _ _ _ => false
  | .scmpEqImm _ _ _ => false
  | .scmpNeImm _ _ _ => false
  | .scmpLtI64Imm _ _ _ => false
  | .scmpGeI64Imm _ _ _ => false
  | .scmpLtU64Imm _ _ _ => false
  | .scmpGeU64Imm _ _ _ => false
  | .smovi _ _ => false
  | .br _ => true
  | .brcEq0 _ _ => true
  | .brcNe0 _ _ => true
  | .brcLt0 _ _ => true
  | .brcGe0 _ _ => true
  | .brcZ _ => true
  | .brcNz _ => true
  | .brcC _ => true
  | .brcNc _ => true
  | .call _ _ => true
  | .ret => true
  | .split _ _ => true
  | .merge => true
  | .waitc _ _ => false
  | .bar _ => false
  | .qbindPush _ _ => false
  | .qbindPop _ _ => false
  | .qbindUnbind _ => false
  | .sstat _ _ _ => false
  | .smaskRd _ => false
  | .smaskWr _ => false
  | .sflags _ _ => false
  | .slane _ _ _ => false
  | .vaddInt _ _ _ _ _ _ _ => false
  | .vsubInt _ _ _ _ _ _ _ => false
  | .vmulInt _ _ _ _ _ _ => false
  | .vmulh _ _ _ _ _ => false
  | .vmad _ _ _ _ _ _ => false
  | .vminInt _ _ _ _ _ => false
  | .vmaxInt _ _ _ _ _ => false
  | .vabsd _ _ _ _ _ => false
  | .vand _ _ _ _ _ _ => false
  | .vor _ _ _ _ _ _ => false
  | .vxor _ _ _ _ _ _ => false
  | .vandn _ _ _ _ _ _ => false
  | .vshl _ _ _ _ _ => false
  | .vshr _ _ _ _ _ => false
  | .vsra _ _ _ _ _ => false
  | .vcmpInt _ _ _ => false
  | .vaddx _ _ _ _ _ _ => false
  | .vsubx _ _ _ _ _ _ => false
  | .vselFlag _ _ _ _ _ => false
  | .vselPred _ _ _ _ _ => false
  | .vaddMasked _ _ _ _ _ _ => false
  | .vsubMasked _ _ _ _ _ _ => false
  | .vmovMasked _ _ _ _ _ => false
  | .vaddImm _ _ _ _ _ _ => false
  | .vandImm _ _ _ _ _ => false
  | .vorImm _ _ _ _ _ => false
  | .vshlImm _ _ _ _ => false
  | .vshrImm _ _ _ _ => false
  | .vsraImm _ _ _ _ => false
  | .vmovi _ _ _ => false
  | .vperm _ _ _ _ => false
  | .vbcast _ _ _ _ => false
  | .vscanAddI32 _ _ _ => false
  | .vredAddI32 _ _ _ => false
  | .vredMaxI32 _ _ _ => false
  | .vredMinI32 _ _ _ => false
  | .vfroms _ _ _ => false
  | .pcmpB _ _ _ _ => false
  | .pand _ _ _ => false
  | .por _ _ _ => false
  | .pxor _ _ _ => false
  | .pnot _ _ => false
  | .pfromcc _ _ => false
  | .vaddFloat _ _ _ _ _ _ => false
  | .vsubFloat _ _ _ _ _ _ => false
  | .vmulFloat _ _ _ _ _ _ => false
  | .vfma _ _ _ _ _ _ => false
  | .vfms _ _ _ _ _ _ => false
  | .vminFloat _ _ _ _ _ => false
  | .vmaxFloat _ _ _ _ _ => false
  | .vcmpFloat _ _ _ => false
  | .vabs _ _ _ _ _ => false
  | .vneg _ _ _ _ _ => false
  | .vsqrt _ _ _ _ _ => false
  | .vrcp _ _ _ _ _ => false
  | .vrsqrt _ _ _ _ _ => false
  | .vexp2 _ _ _ _ _ => false
  | .vlog2 _ _ _ _ _ => false
  | .vsin _ _ _ _ _ => false
  | .vcos _ _ _ _ _ => false
  | .vtanh _ _ _ _ _ => false
  | .vclass _ _ _ _ => false
  | .vcvt _ _ _ _ _ _ => false
  | .vcvtSat _ _ _ _ _ _ => false
  | .vpackb _ _ _ _ _ _ _ => false
  | .vunpackb _ _ _ _ _ _ => false
  | .vscale _ _ _ _ _ => false
  | .mmul _ _ _ _ _ _ => false
  | .mtrans _ _ _ _ => false
  | .mchol _ _ _ _ => false
  | .mlu _ _ _ _ => false
  | .mtrsl _ _ _ _ _ => false
  | .mtrsu _ _ _ _ _ => false
  | .msolveChol _ _ _ _ _ => false
  | .msolveLu _ _ _ _ _ => false
  | .cbnd _ _ _ _ => false
  | .cbndX _ _ _ _ => false
  | .coff _ _ _ _ => false
  | .cinc _ _ _ _ => false
  | .cperm _ _ _ _ => false
  | .cseal _ _ _ _ => false
  | .cunseal _ _ _ _ => false
  | .cmov _ _ _ _ => false
  | .cuntag _ _ _ _ => false
  | .cgetBase _ _ _ => false
  | .cgetTop _ _ _ => false
  | .cgetPos _ _ _ => false
  | .cgetRoom _ _ _ => false
  | .cgetPerm _ _ _ => false
  | .cgetType _ _ _ => false
  | .cgetTag _ _ _ => false
  | .cgetAddr _ _ _ => false
  | .cgetExp _ _ _ => false
  | .ldReg _ _ _ _ _ _ _ => false
  | .ldImm _ _ _ _ _ _ _ => false
  | .stReg _ _ _ _ _ _ => false
  | .stImm _ _ _ _ _ _ => false
  | .ldc _ _ _ _ _ => false
  | .stc _ _ _ _ _ => false
  | .ldfe _ _ _ _ _ _ => false
  | .ldfeClr _ _ _ _ _ _ => false
  | .stfe _ _ _ _ _ => false
  | .smap _ _ _ => false
  | .sflush _ _ => false
  | .patset _ _ _ _ => false
  | .redmAdd _ _ _ _ _ => false
  | .redmMax _ _ _ _ _ => false
  | .redmMin _ _ _ _ _ => false
  | .amadd32 _ _ _ _ _ _ => false
  | .amand32 _ _ _ _ _ _ => false
  | .amor32 _ _ _ _ _ _ => false
  | .amxor32 _ _ _ _ _ _ => false
  | .ammaxI32 _ _ _ _ _ _ => false
  | .ammaxU32 _ _ _ _ _ _ => false
  | .amminI32 _ _ _ _ _ _ => false
  | .amminU32 _ _ _ _ _ _ => false
  | .amadd64 _ _ _ _ _ _ => false
  | .amand64 _ _ _ _ _ _ => false
  | .amor64 _ _ _ _ _ _ => false
  | .amxor64 _ _ _ _ _ _ => false
  | .ammaxI64 _ _ _ _ _ _ => false
  | .ammaxU64 _ _ _ _ _ _ => false
  | .amminI64 _ _ _ _ _ _ => false
  | .amminU64 _ _ _ _ _ _ => false
  | .amswap32 _ _ _ _ _ _ => false
  | .amcas32 _ _ _ _ _ _ => false
  | .amswap64 _ _ _ _ _ _ => false
  | .amcas64 _ _ _ _ _ _ => false
  | .amaddF32 _ _ _ _ _ _ => false
  | .txbeg _ => false
  | .txend => false
  | .txabort _ => false
  | .tacq _ _ => false
  | .trel _ _ => false
  | .tclaim _ _ => false
  | .tmma _ _ _ _ _ _ _ => false
  | .tdrain _ _ _ => false
  | .tzero _ _ => false
  | .ecopy _ _ _ _ _ => false
  | .ered _ _ _ _ _ => false
  | .ecoll _ _ _ _ _ => false
  | .esealOpen _ _ _ _ _ => false
  | .esealCommit _ _ _ _ _ => false
  | .post _ _ => false
  | .done => false
  | .cancel _ _ => false
  | .ctread _ => false
  | .ctarm _ => false
  | .ctwait _ => false
  | .ctwaitPeer _ _ => false
  | .trap _ => true
  | .rett => true
  | .fence _ _ => false
  | .setpl _ => false
  | .modeRead _ _ => false
  | .modeWrite _ _ => false
  | .clusterAssignment _ _ => false
  | .latchRunLeave _ _ _ => false
  | .trapEntry _ _ => false
  | .barrierComplete _ _ => false
  | .loadCompletion _ _ _ => false
  | .storePlaceTaken _ _ _ => false
  | .stashWriteback _ _ _ => false
  | .txDurationExpiry _ _ _ => false
  | .leasePtsAdvance _ _ => false
  | .redmDeliveryApply _ _ _ => false
  | .tmmaStep _ => false
  | .tzeroPerform _ => false
  | .tdrainPerform _ => false
  | .trelPerform _ => false
  | .engineSubmission _ => false
  | .ecopyChunk _ => false
  | .eredReduce _ => false
  | .ecollRun _ => false
  | .sealOpenPerform _ => false
  | .sealCommitPerform _ => false
  | .qnotifyWrite _ _ _ => false
  | .queueEntryAdmit _ => false
  | .cardRunComplete _ => false
  | .curatorPass => false
  | .classAgeing _ => false
  | .makeRoomTimeout => false
  | .carveOutChange _ => false
  | .blockCompletion _ => false
  | .unitCancel _ _ => false
  | .variantSwitch _ => false
  | .switchWaitTimeout _ _ => false
  | .blockRetire _ => false
  | .contextEnable _ _ _ => false
  | .contextDisable _ _ => false
  | .hostStopRequest _ _ => false
  | .debugStopRequest _ _ => false
  | .stopRelease _ _ => false
  | .debugStep _ _ => false
  | .cxctWrite _ _ _ => false
  | .hostNotification _ _ => false
  | .sliceExpiry _ => false
  | .freezeInstant _ => false
  | .handlerBudgetExpiry _ _ => false
  | .saveComplete _ => false
  | .resumeInstant _ => false
  | .resumeLoadTimeout _ => false
  | .arrivalDelivery _ => false
  | .alarmFire _ _ => false
  | .ctwaitDeadline _ _ _ => false
  | .windowOpen _ _ => false
  | .windowOpenAnswer _ _ _ => false
  | .windowClose _ => false
  | .doorbellMessage _ _ _ _ _ _ _ => false
  | .messageRetry _ _ => false
  | .fabricRequestCheck _ _ _ _ _ _ _ => false
  | .flitReceive _ _ _ => false
  | .flitReplay _ => false
  | .creditReportSend _ => false
  | .creditReportReceive _ _ => false
  | .linkTraining _ _ _ => false
  | .fnodeWrite _ _ => false
  | .frsvWrite _ _ _ => false
  | .biasFlip _ _ _ => false
  | .biasFlipComplete => false
  | .backInvalidateAnswer _ => false
  | .hostAccess _ _ _ _ => false
  | .tlpReceive _ _ _ => false
  | .ideKeyProg _ _ _ => false
  | .ideKSetGo _ _ => false
  | .lockInterfaceRequest _ => false
  | .startInterfaceRequest _ => false
  | .stopInterfaceRequest _ => false
  | .spdmRequest _ _ => false
  | .getMeasurements _ => false
  | .bckey _ _ => false
  | .capabilityDerive _ _ => false
  | .typeKeyDerive _ _ => false
  | .keyGenerateEcdsa _ _ => false
  | .keyGenerateMldsa _ _ => false
  | .keyRevoke _ _ => false
  | .handleReissue _ _ => false
  | .waysChange _ _ _ => false
  | .s2rootWrite _ _ _ => false
  | .pageWalk _ _ _ => false
  | .ringRecordRetry _ => false
  | .fresumeWrite _ _ _ => false
  | .invalidationStart _ _ _ => false
  | .invalidationComplete _ => false
  | .coreReset _ => false
  | .patrolScrub _ _ _ => false
  | .revocationSweepStart _ _ _ => false
  | .groupRegisterSweep _ _ => false
  | .sweepSwitchWaitExpiry _ _ => false
  | .sweepGranuleCheck _ => false
  | .repair _ _ _ _ => false
  | .corectlWrite _ _ _ => false
  | .replanRequest _ _ => false
  | .wingReplan _ _ _ => false
  | .timingErrorReplay _ => false
  | .clockChange _ => false
  | .pkcapAdjust _ => false
  | .energyAccounting _ _ _ _ _ => false
  | .fillerIssue _ _ _ => false
  | .powerOnBoot _ => false
  | .unitReady _ _ => false
  | .registerWrite _ _ _ => false
  | .trapModeBudgetExpiry _ _ => false
  | .controlParityError _ => false

/-- The words that only the last packet of a latch run may hold, queue codes apart (R35). -/
def endsRun : Instr → Bool
  | .nop => false
  | .sadd _ _ _ => false
  | .ssub _ _ _ => false
  | .sand _ _ _ => false
  | .sor _ _ _ => false
  | .sxor _ _ _ => false
  | .sshl _ _ _ => false
  | .sshr _ _ _ => false
  | .ssra _ _ _ => false
  | .smul _ _ _ => false
  | .smulhI64 _ _ _ => false
  | .smulhU64 _ _ _ => false
  | .sminI64 _ _ _ => false
  | .sminU64 _ _ _ => false
  | .smaxI64 _ _ _ => false
  | .smaxU64 _ _ _ => false
  | .saddImm _ _ _ => false
  | .ssubImm _ _ _ => false
  | .sandImm _ _ _ => false
  | .sorImm _ _ _ => false
  | .sxorImm _ _ _ => false
  | .sshlImm _ _ _ => false
  | .sshrImm _ _ _ => false
  | .ssraImm _ _ _ => false
  | .smulImm _ _ _ => false
  | .smulhI64Imm _ _ _ => false
  | .smulhU64Imm _ _ _ => false
  | .sminI64Imm _ _ _ => false
  | .sminU64Imm _ _ _ => false
  | .smaxI64Imm _ _ _ => false
  | .smaxU64Imm _ _ _ => false
  | .scmpEq _ _ _ => false
  | .scmpNe _ _ _ => false
  | .scmpLtI64 _ _ _ => false
  | .scmpGeI64 _ _ _ => false
  | .scmpLtU64 _ _ _ => false
  | .scmpGeU64 _ _ _ => false
  | .scmpEqImm _ _ _ => false
  | .scmpNeImm _ _ _ => false
  | .scmpLtI64Imm _ _ _ => false
  | .scmpGeI64Imm _ _ _ => false
  | .scmpLtU64Imm _ _ _ => false
  | .scmpGeU64Imm _ _ _ => false
  | .smovi _ _ => false
  | .br _ => false
  | .brcEq0 _ _ => false
  | .brcNe0 _ _ => false
  | .brcLt0 _ _ => false
  | .brcGe0 _ _ => false
  | .brcZ _ => false
  | .brcNz _ => false
  | .brcC _ => false
  | .brcNc _ => false
  | .call _ _ => true
  | .ret => true
  | .split _ _ => true
  | .merge => true
  | .waitc _ _ => false
  | .bar _ => false
  | .qbindPush _ _ => true
  | .qbindPop _ _ => true
  | .qbindUnbind _ => true
  | .sstat _ _ _ => false
  | .smaskRd _ => false
  | .smaskWr _ => false
  | .sflags _ _ => false
  | .slane _ _ _ => false
  | .vaddInt _ _ _ _ _ _ _ => false
  | .vsubInt _ _ _ _ _ _ _ => false
  | .vmulInt _ _ _ _ _ _ => false
  | .vmulh _ _ _ _ _ => false
  | .vmad _ _ _ _ _ _ => false
  | .vminInt _ _ _ _ _ => false
  | .vmaxInt _ _ _ _ _ => false
  | .vabsd _ _ _ _ _ => false
  | .vand _ _ _ _ _ _ => false
  | .vor _ _ _ _ _ _ => false
  | .vxor _ _ _ _ _ _ => false
  | .vandn _ _ _ _ _ _ => false
  | .vshl _ _ _ _ _ => false
  | .vshr _ _ _ _ _ => false
  | .vsra _ _ _ _ _ => false
  | .vcmpInt _ _ _ => false
  | .vaddx _ _ _ _ _ _ => false
  | .vsubx _ _ _ _ _ _ => false
  | .vselFlag _ _ _ _ _ => false
  | .vselPred _ _ _ _ _ => false
  | .vaddMasked _ _ _ _ _ _ => false
  | .vsubMasked _ _ _ _ _ _ => false
  | .vmovMasked _ _ _ _ _ => false
  | .vaddImm _ _ _ _ _ _ => false
  | .vandImm _ _ _ _ _ => false
  | .vorImm _ _ _ _ _ => false
  | .vshlImm _ _ _ _ => false
  | .vshrImm _ _ _ _ => false
  | .vsraImm _ _ _ _ => false
  | .vmovi _ _ _ => false
  | .vperm _ _ _ _ => false
  | .vbcast _ _ _ _ => false
  | .vscanAddI32 _ _ _ => false
  | .vredAddI32 _ _ _ => false
  | .vredMaxI32 _ _ _ => false
  | .vredMinI32 _ _ _ => false
  | .vfroms _ _ _ => false
  | .pcmpB _ _ _ _ => false
  | .pand _ _ _ => false
  | .por _ _ _ => false
  | .pxor _ _ _ => false
  | .pnot _ _ => false
  | .pfromcc _ _ => false
  | .vaddFloat _ _ _ _ _ _ => false
  | .vsubFloat _ _ _ _ _ _ => false
  | .vmulFloat _ _ _ _ _ _ => false
  | .vfma _ _ _ _ _ _ => false
  | .vfms _ _ _ _ _ _ => false
  | .vminFloat _ _ _ _ _ => false
  | .vmaxFloat _ _ _ _ _ => false
  | .vcmpFloat _ _ _ => false
  | .vabs _ _ _ _ _ => false
  | .vneg _ _ _ _ _ => false
  | .vsqrt _ _ _ _ _ => false
  | .vrcp _ _ _ _ _ => false
  | .vrsqrt _ _ _ _ _ => false
  | .vexp2 _ _ _ _ _ => false
  | .vlog2 _ _ _ _ _ => false
  | .vsin _ _ _ _ _ => false
  | .vcos _ _ _ _ _ => false
  | .vtanh _ _ _ _ _ => false
  | .vclass _ _ _ _ => false
  | .vcvt _ _ _ _ _ _ => false
  | .vcvtSat _ _ _ _ _ _ => false
  | .vpackb _ _ _ _ _ _ _ => false
  | .vunpackb _ _ _ _ _ _ => false
  | .vscale _ _ _ _ _ => false
  | .mmul _ _ _ _ _ _ => false
  | .mtrans _ _ _ _ => false
  | .mchol _ _ _ _ => false
  | .mlu _ _ _ _ => false
  | .mtrsl _ _ _ _ _ => false
  | .mtrsu _ _ _ _ _ => false
  | .msolveChol _ _ _ _ _ => false
  | .msolveLu _ _ _ _ _ => false
  | .cbnd _ _ _ _ => false
  | .cbndX _ _ _ _ => false
  | .coff _ _ _ _ => false
  | .cinc _ _ _ _ => false
  | .cperm _ _ _ _ => false
  | .cseal _ _ _ _ => false
  | .cunseal _ _ _ _ => false
  | .cmov _ _ _ _ => false
  | .cuntag _ _ _ _ => false
  | .cgetBase _ _ _ => false
  | .cgetTop _ _ _ => false
  | .cgetPos _ _ _ => false
  | .cgetRoom _ _ _ => false
  | .cgetPerm _ _ _ => false
  | .cgetType _ _ _ => false
  | .cgetTag _ _ _ => false
  | .cgetAddr _ _ _ => false
  | .cgetExp _ _ _ => false
  | .ldReg _ _ _ _ _ _ _ => false
  | .ldImm _ _ _ _ _ _ _ => false
  | .stReg _ _ _ _ _ _ => true
  | .stImm _ _ _ _ _ _ => true
  | .ldc _ _ _ _ _ => false
  | .stc _ _ _ _ _ => true
  | .ldfe _ _ _ _ _ _ => false
  | .ldfeClr _ _ _ _ _ _ => true
  | .stfe _ _ _ _ _ => true
  | .smap _ _ _ => true
  | .sflush _ _ => true
  | .patset _ _ _ _ => false
  | .redmAdd _ _ _ _ _ => true
  | .redmMax _ _ _ _ _ => true
  | .redmMin _ _ _ _ _ => true
  | .amadd32 _ _ _ _ _ _ => true
  | .amand32 _ _ _ _ _ _ => true
  | .amor32 _ _ _ _ _ _ => true
  | .amxor32 _ _ _ _ _ _ => true
  | .ammaxI32 _ _ _ _ _ _ => true
  | .ammaxU32 _ _ _ _ _ _ => true
  | .amminI32 _ _ _ _ _ _ => true
  | .amminU32 _ _ _ _ _ _ => true
  | .amadd64 _ _ _ _ _ _ => true
  | .amand64 _ _ _ _ _ _ => true
  | .amor64 _ _ _ _ _ _ => true
  | .amxor64 _ _ _ _ _ _ => true
  | .ammaxI64 _ _ _ _ _ _ => true
  | .ammaxU64 _ _ _ _ _ _ => true
  | .amminI64 _ _ _ _ _ _ => true
  | .amminU64 _ _ _ _ _ _ => true
  | .amswap32 _ _ _ _ _ _ => true
  | .amcas32 _ _ _ _ _ _ => true
  | .amswap64 _ _ _ _ _ _ => true
  | .amcas64 _ _ _ _ _ _ => true
  | .amaddF32 _ _ _ _ _ _ => true
  | .txbeg _ => true
  | .txend => true
  | .txabort _ => true
  | .tacq _ _ => true
  | .trel _ _ => true
  | .tclaim _ _ => true
  | .tmma _ _ _ _ _ _ _ => true
  | .tdrain _ _ _ => false
  | .tzero _ _ => true
  | .ecopy _ _ _ _ _ => true
  | .ered _ _ _ _ _ => true
  | .ecoll _ _ _ _ _ => true
  | .esealOpen _ _ _ _ _ => true
  | .esealCommit _ _ _ _ _ => true
  | .post _ _ => true
  | .done => true
  | .cancel _ _ => true
  | .ctread _ => false
  | .ctarm _ => true
  | .ctwait _ => false
  | .ctwaitPeer _ _ => false
  | .trap _ => true
  | .rett => false
  | .fence _ _ => false
  | .setpl _ => true
  | .modeRead _ _ => false
  | .modeWrite _ _ => true
  | .clusterAssignment _ _ => false
  | .latchRunLeave _ _ _ => false
  | .trapEntry _ _ => false
  | .barrierComplete _ _ => false
  | .loadCompletion _ _ _ => false
  | .storePlaceTaken _ _ _ => false
  | .stashWriteback _ _ _ => false
  | .txDurationExpiry _ _ _ => false
  | .leasePtsAdvance _ _ => false
  | .redmDeliveryApply _ _ _ => false
  | .tmmaStep _ => false
  | .tzeroPerform _ => false
  | .tdrainPerform _ => false
  | .trelPerform _ => false
  | .engineSubmission _ => false
  | .ecopyChunk _ => false
  | .eredReduce _ => false
  | .ecollRun _ => false
  | .sealOpenPerform _ => false
  | .sealCommitPerform _ => false
  | .qnotifyWrite _ _ _ => false
  | .queueEntryAdmit _ => false
  | .cardRunComplete _ => false
  | .curatorPass => false
  | .classAgeing _ => false
  | .makeRoomTimeout => false
  | .carveOutChange _ => false
  | .blockCompletion _ => false
  | .unitCancel _ _ => false
  | .variantSwitch _ => false
  | .switchWaitTimeout _ _ => false
  | .blockRetire _ => false
  | .contextEnable _ _ _ => false
  | .contextDisable _ _ => false
  | .hostStopRequest _ _ => false
  | .debugStopRequest _ _ => false
  | .stopRelease _ _ => false
  | .debugStep _ _ => false
  | .cxctWrite _ _ _ => false
  | .hostNotification _ _ => false
  | .sliceExpiry _ => false
  | .freezeInstant _ => false
  | .handlerBudgetExpiry _ _ => false
  | .saveComplete _ => false
  | .resumeInstant _ => false
  | .resumeLoadTimeout _ => false
  | .arrivalDelivery _ => false
  | .alarmFire _ _ => false
  | .ctwaitDeadline _ _ _ => false
  | .windowOpen _ _ => false
  | .windowOpenAnswer _ _ _ => false
  | .windowClose _ => false
  | .doorbellMessage _ _ _ _ _ _ _ => false
  | .messageRetry _ _ => false
  | .fabricRequestCheck _ _ _ _ _ _ _ => false
  | .flitReceive _ _ _ => false
  | .flitReplay _ => false
  | .creditReportSend _ => false
  | .creditReportReceive _ _ => false
  | .linkTraining _ _ _ => false
  | .fnodeWrite _ _ => false
  | .frsvWrite _ _ _ => false
  | .biasFlip _ _ _ => false
  | .biasFlipComplete => false
  | .backInvalidateAnswer _ => false
  | .hostAccess _ _ _ _ => false
  | .tlpReceive _ _ _ => false
  | .ideKeyProg _ _ _ => false
  | .ideKSetGo _ _ => false
  | .lockInterfaceRequest _ => false
  | .startInterfaceRequest _ => false
  | .stopInterfaceRequest _ => false
  | .spdmRequest _ _ => false
  | .getMeasurements _ => false
  | .bckey _ _ => false
  | .capabilityDerive _ _ => false
  | .typeKeyDerive _ _ => false
  | .keyGenerateEcdsa _ _ => false
  | .keyGenerateMldsa _ _ => false
  | .keyRevoke _ _ => false
  | .handleReissue _ _ => false
  | .waysChange _ _ _ => false
  | .s2rootWrite _ _ _ => false
  | .pageWalk _ _ _ => false
  | .ringRecordRetry _ => false
  | .fresumeWrite _ _ _ => false
  | .invalidationStart _ _ _ => false
  | .invalidationComplete _ => false
  | .coreReset _ => false
  | .patrolScrub _ _ _ => false
  | .revocationSweepStart _ _ _ => false
  | .groupRegisterSweep _ _ => false
  | .sweepSwitchWaitExpiry _ _ => false
  | .sweepGranuleCheck _ => false
  | .repair _ _ _ _ => false
  | .corectlWrite _ _ _ => false
  | .replanRequest _ _ => false
  | .wingReplan _ _ _ => false
  | .timingErrorReplay _ => false
  | .clockChange _ => false
  | .pkcapAdjust _ => false
  | .energyAccounting _ _ _ _ _ => false
  | .fillerIssue _ _ _ => false
  | .powerOnBoot _ => false
  | .unitReady _ _ => false
  | .registerWrite _ _ _ => false
  | .trapModeBudgetExpiry _ _ => false
  | .controlParityError _ => false

/-- The words allowed inside an open transaction, addresses and queue codes apart (R162). -/
def txAllowed : Instr → Bool
  | .nop => true
  | .sadd _ _ _ => true
  | .ssub _ _ _ => true
  | .sand _ _ _ => true
  | .sor _ _ _ => true
  | .sxor _ _ _ => true
  | .sshl _ _ _ => true
  | .sshr _ _ _ => true
  | .ssra _ _ _ => true
  | .smul _ _ _ => true
  | .smulhI64 _ _ _ => true
  | .smulhU64 _ _ _ => true
  | .sminI64 _ _ _ => true
  | .sminU64 _ _ _ => true
  | .smaxI64 _ _ _ => true
  | .smaxU64 _ _ _ => true
  | .saddImm _ _ _ => true
  | .ssubImm _ _ _ => true
  | .sandImm _ _ _ => true
  | .sorImm _ _ _ => true
  | .sxorImm _ _ _ => true
  | .sshlImm _ _ _ => true
  | .sshrImm _ _ _ => true
  | .ssraImm _ _ _ => true
  | .smulImm _ _ _ => true
  | .smulhI64Imm _ _ _ => true
  | .smulhU64Imm _ _ _ => true
  | .sminI64Imm _ _ _ => true
  | .sminU64Imm _ _ _ => true
  | .smaxI64Imm _ _ _ => true
  | .smaxU64Imm _ _ _ => true
  | .scmpEq _ _ _ => true
  | .scmpNe _ _ _ => true
  | .scmpLtI64 _ _ _ => true
  | .scmpGeI64 _ _ _ => true
  | .scmpLtU64 _ _ _ => true
  | .scmpGeU64 _ _ _ => true
  | .scmpEqImm _ _ _ => true
  | .scmpNeImm _ _ _ => true
  | .scmpLtI64Imm _ _ _ => true
  | .scmpGeI64Imm _ _ _ => true
  | .scmpLtU64Imm _ _ _ => true
  | .scmpGeU64Imm _ _ _ => true
  | .smovi _ _ => true
  | .br _ => true
  | .brcEq0 _ _ => true
  | .brcNe0 _ _ => true
  | .brcLt0 _ _ => true
  | .brcGe0 _ _ => true
  | .brcZ _ => true
  | .brcNz _ => true
  | .brcC _ => true
  | .brcNc _ => true
  | .call _ _ => false
  | .ret => false
  | .split _ _ => false
  | .merge => false
  | .waitc _ _ => true
  | .bar _ => false
  | .qbindPush _ _ => false
  | .qbindPop _ _ => false
  | .qbindUnbind _ => false
  | .sstat _ _ l => l == 0
  | .smaskRd _ => true
  | .smaskWr _ => false
  | .sflags _ _ => true
  | .slane _ _ _ => true
  | .vaddInt _ _ _ _ _ _ _ => true
  | .vsubInt _ _ _ _ _ _ _ => true
  | .vmulInt _ _ _ _ _ _ => true
  | .vmulh _ _ _ _ _ => true
  | .vmad _ _ _ _ _ _ => true
  | .vminInt _ _ _ _ _ => true
  | .vmaxInt _ _ _ _ _ => true
  | .vabsd _ _ _ _ _ => true
  | .vand _ _ _ _ _ _ => true
  | .vor _ _ _ _ _ _ => true
  | .vxor _ _ _ _ _ _ => true
  | .vandn _ _ _ _ _ _ => true
  | .vshl _ _ _ _ _ => true
  | .vshr _ _ _ _ _ => true
  | .vsra _ _ _ _ _ => true
  | .vcmpInt _ _ _ => true
  | .vaddx _ _ _ _ _ _ => true
  | .vsubx _ _ _ _ _ _ => true
  | .vselFlag _ _ _ _ _ => true
  | .vselPred _ _ _ _ _ => true
  | .vaddMasked _ _ _ _ _ _ => true
  | .vsubMasked _ _ _ _ _ _ => true
  | .vmovMasked _ _ _ _ _ => true
  | .vaddImm _ _ _ _ _ _ => true
  | .vandImm _ _ _ _ _ => true
  | .vorImm _ _ _ _ _ => true
  | .vshlImm _ _ _ _ => true
  | .vshrImm _ _ _ _ => true
  | .vsraImm _ _ _ _ => true
  | .vmovi _ _ _ => true
  | .vperm _ _ _ _ => true
  | .vbcast _ _ _ _ => true
  | .vscanAddI32 _ _ _ => true
  | .vredAddI32 _ _ _ => true
  | .vredMaxI32 _ _ _ => true
  | .vredMinI32 _ _ _ => true
  | .vfroms _ _ _ => true
  | .pcmpB _ _ _ _ => true
  | .pand _ _ _ => true
  | .por _ _ _ => true
  | .pxor _ _ _ => true
  | .pnot _ _ => true
  | .pfromcc _ _ => true
  | .vaddFloat _ _ _ _ _ _ => true
  | .vsubFloat _ _ _ _ _ _ => true
  | .vmulFloat _ _ _ _ _ _ => true
  | .vfma _ _ _ _ _ _ => true
  | .vfms _ _ _ _ _ _ => true
  | .vminFloat _ _ _ _ _ => true
  | .vmaxFloat _ _ _ _ _ => true
  | .vcmpFloat _ _ _ => true
  | .vabs _ _ _ _ _ => true
  | .vneg _ _ _ _ _ => true
  | .vsqrt _ _ _ _ _ => true
  | .vrcp _ _ _ _ _ => true
  | .vrsqrt _ _ _ _ _ => true
  | .vexp2 _ _ _ _ _ => true
  | .vlog2 _ _ _ _ _ => true
  | .vsin _ _ _ _ _ => true
  | .vcos _ _ _ _ _ => true
  | .vtanh _ _ _ _ _ => true
  | .vclass _ _ _ _ => true
  | .vcvt _ _ _ _ _ _ => true
  | .vcvtSat _ _ _ _ _ _ => true
  | .vpackb _ _ _ _ _ _ _ => true
  | .vunpackb _ _ _ _ _ _ => true
  | .vscale _ _ _ _ _ => true
  | .mmul _ _ _ _ _ _ => true
  | .mtrans _ _ _ _ => true
  | .mchol _ _ _ _ => true
  | .mlu _ _ _ _ => true
  | .mtrsl _ _ _ _ _ => true
  | .mtrsu _ _ _ _ _ => true
  | .msolveChol _ _ _ _ _ => true
  | .msolveLu _ _ _ _ _ => true
  | .cbnd _ _ _ _ => true
  | .cbndX _ _ _ _ => true
  | .coff _ _ _ _ => true
  | .cinc _ _ _ _ => true
  | .cperm _ _ _ _ => true
  | .cseal _ _ _ _ => true
  | .cunseal _ _ _ _ => true
  | .cmov _ _ _ _ => true
  | .cuntag _ _ _ _ => true
  | .cgetBase _ _ _ => true
  | .cgetTop _ _ _ => true
  | .cgetPos _ _ _ => true
  | .cgetRoom _ _ _ => true
  | .cgetPerm _ _ _ => true
  | .cgetType _ _ _ => true
  | .cgetTag _ _ _ => true
  | .cgetAddr _ _ _ => true
  | .cgetExp _ _ _ => true
  | .ldReg _ _ _ _ _ _ _ => true
  | .ldImm _ _ _ _ _ _ _ => true
  | .stReg _ _ _ _ _ _ => true
  | .stImm _ _ _ _ _ _ => true
  | .ldc _ _ _ _ _ => true
  | .stc _ _ _ _ _ => true
  | .ldfe _ _ _ _ _ _ => false
  | .ldfeClr _ _ _ _ _ _ => false
  | .stfe _ _ _ _ _ => false
  | .smap _ _ _ => false
  | .sflush _ _ => false
  | .patset _ _ _ _ => false
  | .redmAdd _ _ _ _ _ => false
  | .redmMax _ _ _ _ _ => false
  | .redmMin _ _ _ _ _ => false
  | .amadd32 _ _ _ _ _ _ => false
  | .amand32 _ _ _ _ _ _ => false
  | .amor32 _ _ _ _ _ _ => false
  | .amxor32 _ _ _ _ _ _ => false
  | .ammaxI32 _ _ _ _ _ _ => false
  | .ammaxU32 _ _ _ _ _ _ => false
  | .amminI32 _ _ _ _ _ _ => false
  | .amminU32 _ _ _ _ _ _ => false
  | .amadd64 _ _ _ _ _ _ => false
  | .amand64 _ _ _ _ _ _ => false
  | .amor64 _ _ _ _ _ _ => false
  | .amxor64 _ _ _ _ _ _ => false
  | .ammaxI64 _ _ _ _ _ _ => false
  | .ammaxU64 _ _ _ _ _ _ => false
  | .amminI64 _ _ _ _ _ _ => false
  | .amminU64 _ _ _ _ _ _ => false
  | .amswap32 _ _ _ _ _ _ => false
  | .amcas32 _ _ _ _ _ _ => false
  | .amswap64 _ _ _ _ _ _ => false
  | .amcas64 _ _ _ _ _ _ => false
  | .amaddF32 _ _ _ _ _ _ => false
  | .txbeg _ => true
  | .txend => true
  | .txabort _ => true
  | .tacq _ _ => false
  | .trel _ _ => false
  | .tclaim _ _ => false
  | .tmma _ _ _ _ _ _ _ => false
  | .tdrain _ _ _ => false
  | .tzero _ _ => false
  | .ecopy _ _ _ _ _ => false
  | .ered _ _ _ _ _ => false
  | .ecoll _ _ _ _ _ => false
  | .esealOpen _ _ _ _ _ => false
  | .esealCommit _ _ _ _ _ => false
  | .post _ _ => false
  | .done => false
  | .cancel _ _ => false
  | .ctread _ => false
  | .ctarm _ => false
  | .ctwait _ => false
  | .ctwaitPeer _ _ => false
  | .trap _ => false
  | .rett => false
  | .fence _ _ => false
  | .setpl _ => false
  | .modeRead _ _ => false
  | .modeWrite _ _ => false
  | .clusterAssignment _ _ => false
  | .latchRunLeave _ _ _ => false
  | .trapEntry _ _ => false
  | .barrierComplete _ _ => false
  | .loadCompletion _ _ _ => false
  | .storePlaceTaken _ _ _ => false
  | .stashWriteback _ _ _ => false
  | .txDurationExpiry _ _ _ => false
  | .leasePtsAdvance _ _ => false
  | .redmDeliveryApply _ _ _ => false
  | .tmmaStep _ => false
  | .tzeroPerform _ => false
  | .tdrainPerform _ => false
  | .trelPerform _ => false
  | .engineSubmission _ => false
  | .ecopyChunk _ => false
  | .eredReduce _ => false
  | .ecollRun _ => false
  | .sealOpenPerform _ => false
  | .sealCommitPerform _ => false
  | .qnotifyWrite _ _ _ => false
  | .queueEntryAdmit _ => false
  | .cardRunComplete _ => false
  | .curatorPass => false
  | .classAgeing _ => false
  | .makeRoomTimeout => false
  | .carveOutChange _ => false
  | .blockCompletion _ => false
  | .unitCancel _ _ => false
  | .variantSwitch _ => false
  | .switchWaitTimeout _ _ => false
  | .blockRetire _ => false
  | .contextEnable _ _ _ => false
  | .contextDisable _ _ => false
  | .hostStopRequest _ _ => false
  | .debugStopRequest _ _ => false
  | .stopRelease _ _ => false
  | .debugStep _ _ => false
  | .cxctWrite _ _ _ => false
  | .hostNotification _ _ => false
  | .sliceExpiry _ => false
  | .freezeInstant _ => false
  | .handlerBudgetExpiry _ _ => false
  | .saveComplete _ => false
  | .resumeInstant _ => false
  | .resumeLoadTimeout _ => false
  | .arrivalDelivery _ => false
  | .alarmFire _ _ => false
  | .ctwaitDeadline _ _ _ => false
  | .windowOpen _ _ => false
  | .windowOpenAnswer _ _ _ => false
  | .windowClose _ => false
  | .doorbellMessage _ _ _ _ _ _ _ => false
  | .messageRetry _ _ => false
  | .fabricRequestCheck _ _ _ _ _ _ _ => false
  | .flitReceive _ _ _ => false
  | .flitReplay _ => false
  | .creditReportSend _ => false
  | .creditReportReceive _ _ => false
  | .linkTraining _ _ _ => false
  | .fnodeWrite _ _ => false
  | .frsvWrite _ _ _ => false
  | .biasFlip _ _ _ => false
  | .biasFlipComplete => false
  | .backInvalidateAnswer _ => false
  | .hostAccess _ _ _ _ => false
  | .tlpReceive _ _ _ => false
  | .ideKeyProg _ _ _ => false
  | .ideKSetGo _ _ => false
  | .lockInterfaceRequest _ => false
  | .startInterfaceRequest _ => false
  | .stopInterfaceRequest _ => false
  | .spdmRequest _ _ => false
  | .getMeasurements _ => false
  | .bckey _ _ => false
  | .capabilityDerive _ _ => false
  | .typeKeyDerive _ _ => false
  | .keyGenerateEcdsa _ _ => false
  | .keyGenerateMldsa _ _ => false
  | .keyRevoke _ _ => false
  | .handleReissue _ _ => false
  | .waysChange _ _ _ => false
  | .s2rootWrite _ _ _ => false
  | .pageWalk _ _ _ => false
  | .ringRecordRetry _ => false
  | .fresumeWrite _ _ _ => false
  | .invalidationStart _ _ _ => false
  | .invalidationComplete _ => false
  | .coreReset _ => false
  | .patrolScrub _ _ _ => false
  | .revocationSweepStart _ _ _ => false
  | .groupRegisterSweep _ _ => false
  | .sweepSwitchWaitExpiry _ _ => false
  | .sweepGranuleCheck _ => false
  | .repair _ _ _ _ => false
  | .corectlWrite _ _ _ => false
  | .replanRequest _ _ => false
  | .wingReplan _ _ _ => false
  | .timingErrorReplay _ => false
  | .clockChange _ => false
  | .pkcapAdjust _ => false
  | .energyAccounting _ _ _ _ _ => false
  | .fillerIssue _ _ _ => false
  | .powerOnBoot _ => false
  | .unitReady _ _ => false
  | .registerWrite _ _ _ => false
  | .trapModeBudgetExpiry _ _ => false
  | .controlParityError _ => false

/-- The words that wait until every earlier memory word is confirmed (R300), queue codes apart. -/
def waitsConfirm : Instr → Bool
  | .nop => false
  | .sadd _ _ _ => false
  | .ssub _ _ _ => false
  | .sand _ _ _ => false
  | .sor _ _ _ => false
  | .sxor _ _ _ => false
  | .sshl _ _ _ => false
  | .sshr _ _ _ => false
  | .ssra _ _ _ => false
  | .smul _ _ _ => false
  | .smulhI64 _ _ _ => false
  | .smulhU64 _ _ _ => false
  | .sminI64 _ _ _ => false
  | .sminU64 _ _ _ => false
  | .smaxI64 _ _ _ => false
  | .smaxU64 _ _ _ => false
  | .saddImm _ _ _ => false
  | .ssubImm _ _ _ => false
  | .sandImm _ _ _ => false
  | .sorImm _ _ _ => false
  | .sxorImm _ _ _ => false
  | .sshlImm _ _ _ => false
  | .sshrImm _ _ _ => false
  | .ssraImm _ _ _ => false
  | .smulImm _ _ _ => false
  | .smulhI64Imm _ _ _ => false
  | .smulhU64Imm _ _ _ => false
  | .sminI64Imm _ _ _ => false
  | .sminU64Imm _ _ _ => false
  | .smaxI64Imm _ _ _ => false
  | .smaxU64Imm _ _ _ => false
  | .scmpEq _ _ _ => false
  | .scmpNe _ _ _ => false
  | .scmpLtI64 _ _ _ => false
  | .scmpGeI64 _ _ _ => false
  | .scmpLtU64 _ _ _ => false
  | .scmpGeU64 _ _ _ => false
  | .scmpEqImm _ _ _ => false
  | .scmpNeImm _ _ _ => false
  | .scmpLtI64Imm _ _ _ => false
  | .scmpGeI64Imm _ _ _ => false
  | .scmpLtU64Imm _ _ _ => false
  | .scmpGeU64Imm _ _ _ => false
  | .smovi _ _ => false
  | .br _ => false
  | .brcEq0 _ _ => false
  | .brcNe0 _ _ => false
  | .brcLt0 _ _ => false
  | .brcGe0 _ _ => false
  | .brcZ _ => false
  | .brcNz _ => false
  | .brcC _ => false
  | .brcNc _ => false
  | .call _ _ => true
  | .ret => true
  | .split _ _ => true
  | .merge => true
  | .waitc _ _ => true
  | .bar _ => true
  | .qbindPush _ _ => true
  | .qbindPop _ _ => true
  | .qbindUnbind _ => true
  | .sstat _ _ _ => false
  | .smaskRd _ => false
  | .smaskWr _ => false
  | .sflags _ _ => false
  | .slane _ _ _ => false
  | .vaddInt _ _ _ _ _ _ _ => false
  | .vsubInt _ _ _ _ _ _ _ => false
  | .vmulInt _ _ _ _ _ _ => false
  | .vmulh _ _ _ _ _ => false
  | .vmad _ _ _ _ _ _ => false
  | .vminInt _ _ _ _ _ => false
  | .vmaxInt _ _ _ _ _ => false
  | .vabsd _ _ _ _ _ => false
  | .vand _ _ _ _ _ _ => false
  | .vor _ _ _ _ _ _ => false
  | .vxor _ _ _ _ _ _ => false
  | .vandn _ _ _ _ _ _ => false
  | .vshl _ _ _ _ _ => false
  | .vshr _ _ _ _ _ => false
  | .vsra _ _ _ _ _ => false
  | .vcmpInt _ _ _ => false
  | .vaddx _ _ _ _ _ _ => false
  | .vsubx _ _ _ _ _ _ => false
  | .vselFlag _ _ _ _ _ => false
  | .vselPred _ _ _ _ _ => false
  | .vaddMasked _ _ _ _ _ _ => false
  | .vsubMasked _ _ _ _ _ _ => false
  | .vmovMasked _ _ _ _ _ => false
  | .vaddImm _ _ _ _ _ _ => false
  | .vandImm _ _ _ _ _ => false
  | .vorImm _ _ _ _ _ => false
  | .vshlImm _ _ _ _ => false
  | .vshrImm _ _ _ _ => false
  | .vsraImm _ _ _ _ => false
  | .vmovi _ _ _ => false
  | .vperm _ _ _ _ => false
  | .vbcast _ _ _ _ => false
  | .vscanAddI32 _ _ _ => false
  | .vredAddI32 _ _ _ => false
  | .vredMaxI32 _ _ _ => false
  | .vredMinI32 _ _ _ => false
  | .vfroms _ _ _ => false
  | .pcmpB _ _ _ _ => false
  | .pand _ _ _ => false
  | .por _ _ _ => false
  | .pxor _ _ _ => false
  | .pnot _ _ => false
  | .pfromcc _ _ => false
  | .vaddFloat _ _ _ _ _ _ => false
  | .vsubFloat _ _ _ _ _ _ => false
  | .vmulFloat _ _ _ _ _ _ => false
  | .vfma _ _ _ _ _ _ => false
  | .vfms _ _ _ _ _ _ => false
  | .vminFloat _ _ _ _ _ => false
  | .vmaxFloat _ _ _ _ _ => false
  | .vcmpFloat _ _ _ => false
  | .vabs _ _ _ _ _ => false
  | .vneg _ _ _ _ _ => false
  | .vsqrt _ _ _ _ _ => false
  | .vrcp _ _ _ _ _ => false
  | .vrsqrt _ _ _ _ _ => false
  | .vexp2 _ _ _ _ _ => false
  | .vlog2 _ _ _ _ _ => false
  | .vsin _ _ _ _ _ => false
  | .vcos _ _ _ _ _ => false
  | .vtanh _ _ _ _ _ => false
  | .vclass _ _ _ _ => false
  | .vcvt _ _ _ _ _ _ => false
  | .vcvtSat _ _ _ _ _ _ => false
  | .vpackb _ _ _ _ _ _ _ => false
  | .vunpackb _ _ _ _ _ _ => false
  | .vscale _ _ _ _ _ => false
  | .mmul _ _ _ _ _ _ => false
  | .mtrans _ _ _ _ => false
  | .mchol _ _ _ _ => false
  | .mlu _ _ _ _ => false
  | .mtrsl _ _ _ _ _ => false
  | .mtrsu _ _ _ _ _ => false
  | .msolveChol _ _ _ _ _ => false
  | .msolveLu _ _ _ _ _ => false
  | .cbnd _ _ _ _ => false
  | .cbndX _ _ _ _ => false
  | .coff _ _ _ _ => false
  | .cinc _ _ _ _ => false
  | .cperm _ _ _ _ => false
  | .cseal _ _ _ _ => false
  | .cunseal _ _ _ _ => false
  | .cmov _ _ _ _ => false
  | .cuntag _ _ _ _ => false
  | .cgetBase _ _ _ => false
  | .cgetTop _ _ _ => false
  | .cgetPos _ _ _ => false
  | .cgetRoom _ _ _ => false
  | .cgetPerm _ _ _ => false
  | .cgetType _ _ _ => false
  | .cgetTag _ _ _ => false
  | .cgetAddr _ _ _ => false
  | .cgetExp _ _ _ => false
  | .ldReg _ _ _ _ _ _ _ => true
  | .ldImm _ _ _ _ _ _ _ => true
  | .stReg _ _ _ _ _ _ => true
  | .stImm _ _ _ _ _ _ => true
  | .ldc _ _ _ _ _ => true
  | .stc _ _ _ _ _ => true
  | .ldfe _ _ _ _ _ _ => true
  | .ldfeClr _ _ _ _ _ _ => true
  | .stfe _ _ _ _ _ => true
  | .smap _ _ _ => true
  | .sflush _ _ => true
  | .patset _ _ _ _ => true
  | .redmAdd _ _ _ _ _ => true
  | .redmMax _ _ _ _ _ => true
  | .redmMin _ _ _ _ _ => true
  | .amadd32 _ _ _ _ _ _ => true
  | .amand32 _ _ _ _ _ _ => true
  | .amor32 _ _ _ _ _ _ => true
  | .amxor32 _ _ _ _ _ _ => true
  | .ammaxI32 _ _ _ _ _ _ => true
  | .ammaxU32 _ _ _ _ _ _ => true
  | .amminI32 _ _ _ _ _ _ => true
  | .amminU32 _ _ _ _ _ _ => true
  | .amadd64 _ _ _ _ _ _ => true
  | .amand64 _ _ _ _ _ _ => true
  | .amor64 _ _ _ _ _ _ => true
  | .amxor64 _ _ _ _ _ _ => true
  | .ammaxI64 _ _ _ _ _ _ => true
  | .ammaxU64 _ _ _ _ _ _ => true
  | .amminI64 _ _ _ _ _ _ => true
  | .amminU64 _ _ _ _ _ _ => true
  | .amswap32 _ _ _ _ _ _ => true
  | .amcas32 _ _ _ _ _ _ => true
  | .amswap64 _ _ _ _ _ _ => true
  | .amcas64 _ _ _ _ _ _ => true
  | .amaddF32 _ _ _ _ _ _ => true
  | .txbeg _ => true
  | .txend => true
  | .txabort _ => true
  | .tacq _ _ => true
  | .trel _ _ => true
  | .tclaim _ _ => true
  | .tmma _ _ _ _ _ _ _ => true
  | .tdrain _ _ _ => true
  | .tzero _ _ => true
  | .ecopy _ _ _ _ _ => true
  | .ered _ _ _ _ _ => true
  | .ecoll _ _ _ _ _ => true
  | .esealOpen _ _ _ _ _ => true
  | .esealCommit _ _ _ _ _ => true
  | .post _ _ => true
  | .done => true
  | .cancel _ _ => true
  | .ctread _ => true
  | .ctarm _ => true
  | .ctwait _ => true
  | .ctwaitPeer _ _ => true
  | .trap _ => true
  | .rett => true
  | .fence _ _ => true
  | .setpl _ => true
  | .modeRead _ _ => true
  | .modeWrite _ _ => true
  | .clusterAssignment _ _ => false
  | .latchRunLeave _ _ _ => false
  | .trapEntry _ _ => false
  | .barrierComplete _ _ => false
  | .loadCompletion _ _ _ => false
  | .storePlaceTaken _ _ _ => false
  | .stashWriteback _ _ _ => false
  | .txDurationExpiry _ _ _ => false
  | .leasePtsAdvance _ _ => false
  | .redmDeliveryApply _ _ _ => false
  | .tmmaStep _ => false
  | .tzeroPerform _ => false
  | .tdrainPerform _ => false
  | .trelPerform _ => false
  | .engineSubmission _ => false
  | .ecopyChunk _ => false
  | .eredReduce _ => false
  | .ecollRun _ => false
  | .sealOpenPerform _ => false
  | .sealCommitPerform _ => false
  | .qnotifyWrite _ _ _ => false
  | .queueEntryAdmit _ => false
  | .cardRunComplete _ => false
  | .curatorPass => false
  | .classAgeing _ => false
  | .makeRoomTimeout => false
  | .carveOutChange _ => false
  | .blockCompletion _ => false
  | .unitCancel _ _ => false
  | .variantSwitch _ => false
  | .switchWaitTimeout _ _ => false
  | .blockRetire _ => false
  | .contextEnable _ _ _ => false
  | .contextDisable _ _ => false
  | .hostStopRequest _ _ => false
  | .debugStopRequest _ _ => false
  | .stopRelease _ _ => false
  | .debugStep _ _ => false
  | .cxctWrite _ _ _ => false
  | .hostNotification _ _ => false
  | .sliceExpiry _ => false
  | .freezeInstant _ => false
  | .handlerBudgetExpiry _ _ => false
  | .saveComplete _ => false
  | .resumeInstant _ => false
  | .resumeLoadTimeout _ => false
  | .arrivalDelivery _ => false
  | .alarmFire _ _ => false
  | .ctwaitDeadline _ _ _ => false
  | .windowOpen _ _ => false
  | .windowOpenAnswer _ _ _ => false
  | .windowClose _ => false
  | .doorbellMessage _ _ _ _ _ _ _ => false
  | .messageRetry _ _ => false
  | .fabricRequestCheck _ _ _ _ _ _ _ => false
  | .flitReceive _ _ _ => false
  | .flitReplay _ => false
  | .creditReportSend _ => false
  | .creditReportReceive _ _ => false
  | .linkTraining _ _ _ => false
  | .fnodeWrite _ _ => false
  | .frsvWrite _ _ _ => false
  | .biasFlip _ _ _ => false
  | .biasFlipComplete => false
  | .backInvalidateAnswer _ => false
  | .hostAccess _ _ _ _ => false
  | .tlpReceive _ _ _ => false
  | .ideKeyProg _ _ _ => false
  | .ideKSetGo _ _ => false
  | .lockInterfaceRequest _ => false
  | .startInterfaceRequest _ => false
  | .stopInterfaceRequest _ => false
  | .spdmRequest _ _ => false
  | .getMeasurements _ => false
  | .bckey _ _ => false
  | .capabilityDerive _ _ => false
  | .typeKeyDerive _ _ => false
  | .keyGenerateEcdsa _ _ => false
  | .keyGenerateMldsa _ _ => false
  | .keyRevoke _ _ => false
  | .handleReissue _ _ => false
  | .waysChange _ _ _ => false
  | .s2rootWrite _ _ _ => false
  | .pageWalk _ _ _ => false
  | .ringRecordRetry _ => false
  | .fresumeWrite _ _ _ => false
  | .invalidationStart _ _ _ => false
  | .invalidationComplete _ => false
  | .coreReset _ => false
  | .patrolScrub _ _ _ => false
  | .revocationSweepStart _ _ _ => false
  | .groupRegisterSweep _ _ => false
  | .sweepSwitchWaitExpiry _ _ => false
  | .sweepGranuleCheck _ => false
  | .repair _ _ _ _ => false
  | .corectlWrite _ _ _ => false
  | .replanRequest _ _ => false
  | .wingReplan _ _ _ => false
  | .timingErrorReplay _ => false
  | .clockChange _ => false
  | .pkcapAdjust _ => false
  | .energyAccounting _ _ _ _ _ => false
  | .fillerIssue _ _ _ => false
  | .powerOnBoot _ => false
  | .unitReady _ _ => false
  | .registerWrite _ _ _ => false
  | .trapModeBudgetExpiry _ _ => false
  | .controlParityError _ => false

/-- The rows without an encoding: events of the machine and of the outside world. -/
def isEvent : Instr → Bool
  | .nop => false
  | .sadd _ _ _ => false
  | .ssub _ _ _ => false
  | .sand _ _ _ => false
  | .sor _ _ _ => false
  | .sxor _ _ _ => false
  | .sshl _ _ _ => false
  | .sshr _ _ _ => false
  | .ssra _ _ _ => false
  | .smul _ _ _ => false
  | .smulhI64 _ _ _ => false
  | .smulhU64 _ _ _ => false
  | .sminI64 _ _ _ => false
  | .sminU64 _ _ _ => false
  | .smaxI64 _ _ _ => false
  | .smaxU64 _ _ _ => false
  | .saddImm _ _ _ => false
  | .ssubImm _ _ _ => false
  | .sandImm _ _ _ => false
  | .sorImm _ _ _ => false
  | .sxorImm _ _ _ => false
  | .sshlImm _ _ _ => false
  | .sshrImm _ _ _ => false
  | .ssraImm _ _ _ => false
  | .smulImm _ _ _ => false
  | .smulhI64Imm _ _ _ => false
  | .smulhU64Imm _ _ _ => false
  | .sminI64Imm _ _ _ => false
  | .sminU64Imm _ _ _ => false
  | .smaxI64Imm _ _ _ => false
  | .smaxU64Imm _ _ _ => false
  | .scmpEq _ _ _ => false
  | .scmpNe _ _ _ => false
  | .scmpLtI64 _ _ _ => false
  | .scmpGeI64 _ _ _ => false
  | .scmpLtU64 _ _ _ => false
  | .scmpGeU64 _ _ _ => false
  | .scmpEqImm _ _ _ => false
  | .scmpNeImm _ _ _ => false
  | .scmpLtI64Imm _ _ _ => false
  | .scmpGeI64Imm _ _ _ => false
  | .scmpLtU64Imm _ _ _ => false
  | .scmpGeU64Imm _ _ _ => false
  | .smovi _ _ => false
  | .br _ => false
  | .brcEq0 _ _ => false
  | .brcNe0 _ _ => false
  | .brcLt0 _ _ => false
  | .brcGe0 _ _ => false
  | .brcZ _ => false
  | .brcNz _ => false
  | .brcC _ => false
  | .brcNc _ => false
  | .call _ _ => false
  | .ret => false
  | .split _ _ => false
  | .merge => false
  | .waitc _ _ => false
  | .bar _ => false
  | .qbindPush _ _ => false
  | .qbindPop _ _ => false
  | .qbindUnbind _ => false
  | .sstat _ _ _ => false
  | .smaskRd _ => false
  | .smaskWr _ => false
  | .sflags _ _ => false
  | .slane _ _ _ => false
  | .vaddInt _ _ _ _ _ _ _ => false
  | .vsubInt _ _ _ _ _ _ _ => false
  | .vmulInt _ _ _ _ _ _ => false
  | .vmulh _ _ _ _ _ => false
  | .vmad _ _ _ _ _ _ => false
  | .vminInt _ _ _ _ _ => false
  | .vmaxInt _ _ _ _ _ => false
  | .vabsd _ _ _ _ _ => false
  | .vand _ _ _ _ _ _ => false
  | .vor _ _ _ _ _ _ => false
  | .vxor _ _ _ _ _ _ => false
  | .vandn _ _ _ _ _ _ => false
  | .vshl _ _ _ _ _ => false
  | .vshr _ _ _ _ _ => false
  | .vsra _ _ _ _ _ => false
  | .vcmpInt _ _ _ => false
  | .vaddx _ _ _ _ _ _ => false
  | .vsubx _ _ _ _ _ _ => false
  | .vselFlag _ _ _ _ _ => false
  | .vselPred _ _ _ _ _ => false
  | .vaddMasked _ _ _ _ _ _ => false
  | .vsubMasked _ _ _ _ _ _ => false
  | .vmovMasked _ _ _ _ _ => false
  | .vaddImm _ _ _ _ _ _ => false
  | .vandImm _ _ _ _ _ => false
  | .vorImm _ _ _ _ _ => false
  | .vshlImm _ _ _ _ => false
  | .vshrImm _ _ _ _ => false
  | .vsraImm _ _ _ _ => false
  | .vmovi _ _ _ => false
  | .vperm _ _ _ _ => false
  | .vbcast _ _ _ _ => false
  | .vscanAddI32 _ _ _ => false
  | .vredAddI32 _ _ _ => false
  | .vredMaxI32 _ _ _ => false
  | .vredMinI32 _ _ _ => false
  | .vfroms _ _ _ => false
  | .pcmpB _ _ _ _ => false
  | .pand _ _ _ => false
  | .por _ _ _ => false
  | .pxor _ _ _ => false
  | .pnot _ _ => false
  | .pfromcc _ _ => false
  | .vaddFloat _ _ _ _ _ _ => false
  | .vsubFloat _ _ _ _ _ _ => false
  | .vmulFloat _ _ _ _ _ _ => false
  | .vfma _ _ _ _ _ _ => false
  | .vfms _ _ _ _ _ _ => false
  | .vminFloat _ _ _ _ _ => false
  | .vmaxFloat _ _ _ _ _ => false
  | .vcmpFloat _ _ _ => false
  | .vabs _ _ _ _ _ => false
  | .vneg _ _ _ _ _ => false
  | .vsqrt _ _ _ _ _ => false
  | .vrcp _ _ _ _ _ => false
  | .vrsqrt _ _ _ _ _ => false
  | .vexp2 _ _ _ _ _ => false
  | .vlog2 _ _ _ _ _ => false
  | .vsin _ _ _ _ _ => false
  | .vcos _ _ _ _ _ => false
  | .vtanh _ _ _ _ _ => false
  | .vclass _ _ _ _ => false
  | .vcvt _ _ _ _ _ _ => false
  | .vcvtSat _ _ _ _ _ _ => false
  | .vpackb _ _ _ _ _ _ _ => false
  | .vunpackb _ _ _ _ _ _ => false
  | .vscale _ _ _ _ _ => false
  | .mmul _ _ _ _ _ _ => false
  | .mtrans _ _ _ _ => false
  | .mchol _ _ _ _ => false
  | .mlu _ _ _ _ => false
  | .mtrsl _ _ _ _ _ => false
  | .mtrsu _ _ _ _ _ => false
  | .msolveChol _ _ _ _ _ => false
  | .msolveLu _ _ _ _ _ => false
  | .cbnd _ _ _ _ => false
  | .cbndX _ _ _ _ => false
  | .coff _ _ _ _ => false
  | .cinc _ _ _ _ => false
  | .cperm _ _ _ _ => false
  | .cseal _ _ _ _ => false
  | .cunseal _ _ _ _ => false
  | .cmov _ _ _ _ => false
  | .cuntag _ _ _ _ => false
  | .cgetBase _ _ _ => false
  | .cgetTop _ _ _ => false
  | .cgetPos _ _ _ => false
  | .cgetRoom _ _ _ => false
  | .cgetPerm _ _ _ => false
  | .cgetType _ _ _ => false
  | .cgetTag _ _ _ => false
  | .cgetAddr _ _ _ => false
  | .cgetExp _ _ _ => false
  | .ldReg _ _ _ _ _ _ _ => false
  | .ldImm _ _ _ _ _ _ _ => false
  | .stReg _ _ _ _ _ _ => false
  | .stImm _ _ _ _ _ _ => false
  | .ldc _ _ _ _ _ => false
  | .stc _ _ _ _ _ => false
  | .ldfe _ _ _ _ _ _ => false
  | .ldfeClr _ _ _ _ _ _ => false
  | .stfe _ _ _ _ _ => false
  | .smap _ _ _ => false
  | .sflush _ _ => false
  | .patset _ _ _ _ => false
  | .redmAdd _ _ _ _ _ => false
  | .redmMax _ _ _ _ _ => false
  | .redmMin _ _ _ _ _ => false
  | .amadd32 _ _ _ _ _ _ => false
  | .amand32 _ _ _ _ _ _ => false
  | .amor32 _ _ _ _ _ _ => false
  | .amxor32 _ _ _ _ _ _ => false
  | .ammaxI32 _ _ _ _ _ _ => false
  | .ammaxU32 _ _ _ _ _ _ => false
  | .amminI32 _ _ _ _ _ _ => false
  | .amminU32 _ _ _ _ _ _ => false
  | .amadd64 _ _ _ _ _ _ => false
  | .amand64 _ _ _ _ _ _ => false
  | .amor64 _ _ _ _ _ _ => false
  | .amxor64 _ _ _ _ _ _ => false
  | .ammaxI64 _ _ _ _ _ _ => false
  | .ammaxU64 _ _ _ _ _ _ => false
  | .amminI64 _ _ _ _ _ _ => false
  | .amminU64 _ _ _ _ _ _ => false
  | .amswap32 _ _ _ _ _ _ => false
  | .amcas32 _ _ _ _ _ _ => false
  | .amswap64 _ _ _ _ _ _ => false
  | .amcas64 _ _ _ _ _ _ => false
  | .amaddF32 _ _ _ _ _ _ => false
  | .txbeg _ => false
  | .txend => false
  | .txabort _ => false
  | .tacq _ _ => false
  | .trel _ _ => false
  | .tclaim _ _ => false
  | .tmma _ _ _ _ _ _ _ => false
  | .tdrain _ _ _ => false
  | .tzero _ _ => false
  | .ecopy _ _ _ _ _ => false
  | .ered _ _ _ _ _ => false
  | .ecoll _ _ _ _ _ => false
  | .esealOpen _ _ _ _ _ => false
  | .esealCommit _ _ _ _ _ => false
  | .post _ _ => false
  | .done => false
  | .cancel _ _ => false
  | .ctread _ => false
  | .ctarm _ => false
  | .ctwait _ => false
  | .ctwaitPeer _ _ => false
  | .trap _ => false
  | .rett => false
  | .fence _ _ => false
  | .setpl _ => false
  | .modeRead _ _ => false
  | .modeWrite _ _ => false
  | .clusterAssignment _ _ => true
  | .latchRunLeave _ _ _ => true
  | .trapEntry _ _ => true
  | .barrierComplete _ _ => true
  | .loadCompletion _ _ _ => true
  | .storePlaceTaken _ _ _ => true
  | .stashWriteback _ _ _ => true
  | .txDurationExpiry _ _ _ => true
  | .leasePtsAdvance _ _ => true
  | .redmDeliveryApply _ _ _ => true
  | .tmmaStep _ => true
  | .tzeroPerform _ => true
  | .tdrainPerform _ => true
  | .trelPerform _ => true
  | .engineSubmission _ => true
  | .ecopyChunk _ => true
  | .eredReduce _ => true
  | .ecollRun _ => true
  | .sealOpenPerform _ => true
  | .sealCommitPerform _ => true
  | .qnotifyWrite _ _ _ => true
  | .queueEntryAdmit _ => true
  | .cardRunComplete _ => true
  | .curatorPass => true
  | .classAgeing _ => true
  | .makeRoomTimeout => true
  | .carveOutChange _ => true
  | .blockCompletion _ => true
  | .unitCancel _ _ => true
  | .variantSwitch _ => true
  | .switchWaitTimeout _ _ => true
  | .blockRetire _ => true
  | .contextEnable _ _ _ => true
  | .contextDisable _ _ => true
  | .hostStopRequest _ _ => true
  | .debugStopRequest _ _ => true
  | .stopRelease _ _ => true
  | .debugStep _ _ => true
  | .cxctWrite _ _ _ => true
  | .hostNotification _ _ => true
  | .sliceExpiry _ => true
  | .freezeInstant _ => true
  | .handlerBudgetExpiry _ _ => true
  | .saveComplete _ => true
  | .resumeInstant _ => true
  | .resumeLoadTimeout _ => true
  | .arrivalDelivery _ => true
  | .alarmFire _ _ => true
  | .ctwaitDeadline _ _ _ => true
  | .windowOpen _ _ => true
  | .windowOpenAnswer _ _ _ => true
  | .windowClose _ => true
  | .doorbellMessage _ _ _ _ _ _ _ => true
  | .messageRetry _ _ => true
  | .fabricRequestCheck _ _ _ _ _ _ _ => true
  | .flitReceive _ _ _ => true
  | .flitReplay _ => true
  | .creditReportSend _ => true
  | .creditReportReceive _ _ => true
  | .linkTraining _ _ _ => true
  | .fnodeWrite _ _ => true
  | .frsvWrite _ _ _ => true
  | .biasFlip _ _ _ => true
  | .biasFlipComplete => true
  | .backInvalidateAnswer _ => true
  | .hostAccess _ _ _ _ => true
  | .tlpReceive _ _ _ => true
  | .ideKeyProg _ _ _ => true
  | .ideKSetGo _ _ => true
  | .lockInterfaceRequest _ => true
  | .startInterfaceRequest _ => true
  | .stopInterfaceRequest _ => true
  | .spdmRequest _ _ => true
  | .getMeasurements _ => true
  | .bckey _ _ => true
  | .capabilityDerive _ _ => true
  | .typeKeyDerive _ _ => true
  | .keyGenerateEcdsa _ _ => true
  | .keyGenerateMldsa _ _ => true
  | .keyRevoke _ _ => true
  | .handleReissue _ _ => true
  | .waysChange _ _ _ => true
  | .s2rootWrite _ _ _ => true
  | .pageWalk _ _ _ => true
  | .ringRecordRetry _ => true
  | .fresumeWrite _ _ _ => true
  | .invalidationStart _ _ _ => true
  | .invalidationComplete _ => true
  | .coreReset _ => true
  | .patrolScrub _ _ _ => true
  | .revocationSweepStart _ _ _ => true
  | .groupRegisterSweep _ _ => true
  | .sweepSwitchWaitExpiry _ _ => true
  | .sweepGranuleCheck _ => true
  | .repair _ _ _ _ => true
  | .corectlWrite _ _ _ => true
  | .replanRequest _ _ => true
  | .wingReplan _ _ _ => true
  | .timingErrorReplay _ => true
  | .clockChange _ => true
  | .pkcapAdjust _ => true
  | .energyAccounting _ _ _ _ _ => true
  | .fillerIssue _ _ _ => true
  | .powerOnBoot _ => true
  | .unitReady _ _ => true
  | .registerWrite _ _ _ => true
  | .trapModeBudgetExpiry _ _ => true
  | .controlParityError _ => true

end Sys2Proof.Machine
end

