-- ==== Sys2Proof/WellFormed.lean ====
section
/-! DEFINITION. Well-formed instructions: the static checks of R26, R27, R29, R32 and R38 to R42. -/
namespace Sys2Proof

/-- A well-formed instruction. Checks that depend on the group (its width, trap mode) are made when it runs. -/
def Instr.wf (i : Instr) : Bool := Machine.legal i

end Sys2Proof
end

