-- ==== Sys2Proof/Decode.lean ====
section
/-! DEFINITION. Instruction words: the decoder, which rejects by name, the encoder, and packets (R21 to R26, R39 to R43). -/
namespace Sys2Proof
open Sys2Proof.Machine

/-- Why a word is not an instruction (R43). -/
inductive DecodeError where
  /-- Fewer than four bytes. -/
  | truncated
  /-- Major 0x00 (R40). -/
  | zeroMajor
  /-- Major 0x7F (R40). -/
  | reservedMajor
  /-- A major that R40 does not assign. -/
  | unassignedMajor (m : Nat)
  /-- A sub-field value that R40 does not list, or a reserved bit set (R39, R40). -/
  | fixedBits (m : Nat)
  /-- An extension word where none may stand (R26). -/
  | extension
  /-- An operand code, type, rounding or scope that R27, R29, R32, R38, R41 or R42 forbids. -/
  | operand
deriving DecidableEq, Repr

/-- `n` bits of a word from bit `lo` up. -/
def fld (w : Word) (lo n : Nat) : BitVec n := BitVec.ofNat n (w.toNat / 2 ^ lo)

/-- A row of the opcode map: its instruction when every fixed bit range holds its value. -/
def row (ok : Bool) (i : Instr) (next : Except DecodeError Instr) : Except DecodeError Instr :=
  bif ok then .ok i else next

/-- The majors that accept extension words (R40). -/
def extMajor (m : Nat) : Bool :=
  m == 0x03 || m == 0x05 || m == 0x06 || m == 0x2E || m == 0x2F || m == 0x30 || m == 0x34 || m == 0x63 || m == 0x65

/-- The rows of major 0x01. -/
def dec01 (w : Word) : Except DecodeError Instr :=
  row (fld w 0 24 == 0) (.nop) <|
  .error (.fixedBits 0x01)

/-- The rows of major 0x02. -/
def dec02 (w : Word) : Except DecodeError Instr :=
  row (fld w 0 9 == 0) (.sadd (fld w 19 5) (fld w 14 5) (fld w 9 5)) <|
  row (fld w 0 9 == 1) (.ssub (fld w 19 5) (fld w 14 5) (fld w 9 5)) <|
  row (fld w 0 9 == 2) (.sand (fld w 19 5) (fld w 14 5) (fld w 9 5)) <|
  row (fld w 0 9 == 3) (.sor (fld w 19 5) (fld w 14 5) (fld w 9 5)) <|
  row (fld w 0 9 == 4) (.sxor (fld w 19 5) (fld w 14 5) (fld w 9 5)) <|
  row (fld w 0 9 == 5) (.sshl (fld w 19 5) (fld w 14 5) (fld w 9 5)) <|
  row (fld w 0 9 == 6) (.sshr (fld w 19 5) (fld w 14 5) (fld w 9 5)) <|
  row (fld w 0 9 == 7) (.ssra (fld w 19 5) (fld w 14 5) (fld w 9 5)) <|
  row (fld w 0 9 == 8) (.smul (fld w 19 5) (fld w 14 5) (fld w 9 5)) <|
  row (fld w 0 9 == 9) (.smulhI64 (fld w 19 5) (fld w 14 5) (fld w 9 5)) <|
  row (fld w 0 9 == 10) (.smulhU64 (fld w 19 5) (fld w 14 5) (fld w 9 5)) <|
  row (fld w 0 9 == 11) (.sminI64 (fld w 19 5) (fld w 14 5) (fld w 9 5)) <|
  row (fld w 0 9 == 12) (.sminU64 (fld w 19 5) (fld w 14 5) (fld w 9 5)) <|
  row (fld w 0 9 == 13) (.smaxI64 (fld w 19 5) (fld w 14 5) (fld w 9 5)) <|
  row (fld w 0 9 == 14) (.smaxU64 (fld w 19 5) (fld w 14 5) (fld w 9 5)) <|
  .error (.fixedBits 0x02)

/-- The rows of major 0x03. -/
def dec03 (w : Word) (x : Ext) : Except DecodeError Instr :=
  row (fld w 0 5 == 0) (.saddImm (fld w 19 5) (fld w 14 5) ⟨fld w 5 9, x⟩) <|
  row (fld w 0 5 == 1) (.ssubImm (fld w 19 5) (fld w 14 5) ⟨fld w 5 9, x⟩) <|
  row (fld w 0 5 == 2) (.sandImm (fld w 19 5) (fld w 14 5) ⟨fld w 5 9, x⟩) <|
  row (fld w 0 5 == 3) (.sorImm (fld w 19 5) (fld w 14 5) ⟨fld w 5 9, x⟩) <|
  row (fld w 0 5 == 4) (.sxorImm (fld w 19 5) (fld w 14 5) ⟨fld w 5 9, x⟩) <|
  row (fld w 0 5 == 5) (.sshlImm (fld w 19 5) (fld w 14 5) ⟨fld w 5 9, x⟩) <|
  row (fld w 0 5 == 6) (.sshrImm (fld w 19 5) (fld w 14 5) ⟨fld w 5 9, x⟩) <|
  row (fld w 0 5 == 7) (.ssraImm (fld w 19 5) (fld w 14 5) ⟨fld w 5 9, x⟩) <|
  row (fld w 0 5 == 8) (.smulImm (fld w 19 5) (fld w 14 5) ⟨fld w 5 9, x⟩) <|
  row (fld w 0 5 == 9) (.smulhI64Imm (fld w 19 5) (fld w 14 5) ⟨fld w 5 9, x⟩) <|
  row (fld w 0 5 == 10) (.smulhU64Imm (fld w 19 5) (fld w 14 5) ⟨fld w 5 9, x⟩) <|
  row (fld w 0 5 == 11) (.sminI64Imm (fld w 19 5) (fld w 14 5) ⟨fld w 5 9, x⟩) <|
  row (fld w 0 5 == 12) (.sminU64Imm (fld w 19 5) (fld w 14 5) ⟨fld w 5 9, x⟩) <|
  row (fld w 0 5 == 13) (.smaxI64Imm (fld w 19 5) (fld w 14 5) ⟨fld w 5 9, x⟩) <|
  row (fld w 0 5 == 14) (.smaxU64Imm (fld w 19 5) (fld w 14 5) ⟨fld w 5 9, x⟩) <|
  .error (.fixedBits 0x03)

/-- The rows of major 0x04. -/
def dec04 (w : Word) : Except DecodeError Instr :=
  row (fld w 0 9 == 0) (.scmpEq (fld w 19 5) (fld w 14 5) (fld w 9 5)) <|
  row (fld w 0 9 == 1) (.scmpNe (fld w 19 5) (fld w 14 5) (fld w 9 5)) <|
  row (fld w 0 9 == 2) (.scmpLtI64 (fld w 19 5) (fld w 14 5) (fld w 9 5)) <|
  row (fld w 0 9 == 3) (.scmpGeI64 (fld w 19 5) (fld w 14 5) (fld w 9 5)) <|
  row (fld w 0 9 == 4) (.scmpLtU64 (fld w 19 5) (fld w 14 5) (fld w 9 5)) <|
  row (fld w 0 9 == 5) (.scmpGeU64 (fld w 19 5) (fld w 14 5) (fld w 9 5)) <|
  .error (.fixedBits 0x04)

/-- The rows of major 0x05. -/
def dec05 (w : Word) (x : Ext) : Except DecodeError Instr :=
  row (fld w 0 5 == 0) (.scmpEqImm (fld w 19 5) (fld w 14 5) ⟨fld w 5 9, x⟩) <|
  row (fld w 0 5 == 1) (.scmpNeImm (fld w 19 5) (fld w 14 5) ⟨fld w 5 9, x⟩) <|
  row (fld w 0 5 == 2) (.scmpLtI64Imm (fld w 19 5) (fld w 14 5) ⟨fld w 5 9, x⟩) <|
  row (fld w 0 5 == 3) (.scmpGeI64Imm (fld w 19 5) (fld w 14 5) ⟨fld w 5 9, x⟩) <|
  row (fld w 0 5 == 4) (.scmpLtU64Imm (fld w 19 5) (fld w 14 5) ⟨fld w 5 9, x⟩) <|
  row (fld w 0 5 == 5) (.scmpGeU64Imm (fld w 19 5) (fld w 14 5) ⟨fld w 5 9, x⟩) <|
  .error (.fixedBits 0x05)

/-- The rows of major 0x06. -/
def dec06 (w : Word) (x : Ext) : Except DecodeError Instr :=
  row (true) (.smovi (fld w 19 5) ⟨fld w 0 19, x⟩) <|
  .error (.fixedBits 0x06)

/-- The rows of major 0x07. -/
def dec07 (w : Word) : Except DecodeError Instr :=
  row (true) (.br (fld w 0 24)) <|
  .error (.fixedBits 0x07)

/-- The rows of major 0x08. -/
def dec08 (w : Word) : Except DecodeError Instr :=
  row (fld w 21 3 == 0) (.brcEq0 (fld w 16 5) (fld w 0 16)) <|
  row (fld w 21 3 == 1) (.brcNe0 (fld w 16 5) (fld w 0 16)) <|
  row (fld w 21 3 == 2) (.brcLt0 (fld w 16 5) (fld w 0 16)) <|
  row (fld w 21 3 == 3) (.brcGe0 (fld w 16 5) (fld w 0 16)) <|
  row (fld w 16 8 == 128) (.brcZ (fld w 0 16)) <|
  row (fld w 16 8 == 160) (.brcNz (fld w 0 16)) <|
  row (fld w 16 8 == 192) (.brcC (fld w 0 16)) <|
  row (fld w 16 8 == 224) (.brcNc (fld w 0 16)) <|
  .error (.fixedBits 0x08)

/-- The rows of major 0x09. -/
def dec09 (w : Word) : Except DecodeError Instr :=
  row (true) (.call (fld w 21 3) (fld w 0 21)) <|
  .error (.fixedBits 0x09)

/-- The rows of major 0x0A. -/
def dec0A (w : Word) : Except DecodeError Instr :=
  row (fld w 0 24 == 0) (.ret) <|
  .error (.fixedBits 0x0A)

/-- The rows of major 0x0B. -/
def dec0B (w : Word) : Except DecodeError Instr :=
  row (true) (.split (fld w 18 6) (fld w 0 18)) <|
  .error (.fixedBits 0x0B)

/-- The rows of major 0x0C. -/
def dec0C (w : Word) : Except DecodeError Instr :=
  row (fld w 0 24 == 0) (.merge) <|
  .error (.fixedBits 0x0C)

/-- The rows of major 0x0D. -/
def dec0D (w : Word) : Except DecodeError Instr :=
  row (fld w 0 16 == 0) (.waitc (fld w 22 2) (fld w 16 6)) <|
  .error (.fixedBits 0x0D)

/-- The rows of major 0x0E. -/
def dec0E (w : Word) : Except DecodeError Instr :=
  row (fld w 0 20 == 0) (.bar (fld w 20 4)) <|
  .error (.fixedBits 0x0E)

/-- The rows of major 0x0F. -/
def dec0F (w : Word) : Except DecodeError Instr :=
  row (fld w 0 18 == 0) (.qbindPush (fld w 22 2) (fld w 18 4)) <|
  row (fld w 0 18 == 65536) (.qbindPop (fld w 22 2) (fld w 18 4)) <|
  row (fld w 0 22 == 131072) (.qbindUnbind (fld w 22 2)) <|
  .error (.fixedBits 0x0F)

/-- The rows of major 0x10. -/
def dec10 (w : Word) : Except DecodeError Instr :=
  row (fld w 0 12 == 0) (.sstat (fld w 19 5) (fld w 13 6) (fld w 12 1)) <|
  .error (.fixedBits 0x10)

/-- The rows of major 0x11. -/
def dec11 (w : Word) : Except DecodeError Instr :=
  row (fld w 0 19 == 0) (.smaskRd (fld w 19 5)) <|
  row (fld w 0 19 == 262144) (.smaskWr (fld w 19 5)) <|
  .error (.fixedBits 0x11)

/-- The rows of major 0x12. -/
def dec12 (w : Word) : Except DecodeError Instr :=
  row (fld w 0 16 == 0) (.sflags (fld w 19 5) (fld w 16 3)) <|
  .error (.fixedBits 0x12)

/-- The rows of major 0x13. -/
def dec13 (w : Word) : Except DecodeError Instr :=
  row (fld w 0 7 == 0) (.slane (fld w 19 5) (fld w 13 6) (fld w 7 6)) <|
  .error (.fixedBits 0x13)

/-- The rows of major 0x18. -/
def dec18 (w : Word) : Except DecodeError Instr :=
  row (true) (.vaddInt (fld w 18 6) (fld w 17 1) (fld w 11 6) (fld w 5 6) (fld w 4 1) (fld w 3 1) (fld w 0 3)) <|
  .error (.fixedBits 0x18)

/-- The rows of major 0x19. -/
def dec19 (w : Word) : Except DecodeError Instr :=
  row (true) (.vsubInt (fld w 18 6) (fld w 17 1) (fld w 11 6) (fld w 5 6) (fld w 4 1) (fld w 3 1) (fld w 0 3)) <|
  .error (.fixedBits 0x19)

/-- The rows of major 0x1A. -/
def dec1A (w : Word) : Except DecodeError Instr :=
  row (fld w 4 1 == 0) (.vmulInt (fld w 18 6) (fld w 17 1) (fld w 11 6) (fld w 5 6) (fld w 3 1) (fld w 0 3)) <|
  .error (.fixedBits 0x1A)

/-- The rows of major 0x1B. -/
def dec1B (w : Word) : Except DecodeError Instr :=
  row (fld w 2 3 == 0) (.vmulh (fld w 18 6) (fld w 17 1) (fld w 11 6) (fld w 5 6) (fld w 0 2)) <|
  .error (.fixedBits 0x1B)

/-- The rows of major 0x1C. -/
def dec1C (w : Word) : Except DecodeError Instr :=
  row (fld w 4 1 == 0) (.vmad (fld w 18 6) (fld w 17 1) (fld w 11 6) (fld w 5 6) (fld w 3 1) (fld w 0 3)) <|
  .error (.fixedBits 0x1C)

/-- The rows of major 0x1D. -/
def dec1D (w : Word) : Except DecodeError Instr :=
  row (fld w 3 2 == 0) (.vminInt (fld w 18 6) (fld w 17 1) (fld w 11 6) (fld w 5 6) (fld w 0 3)) <|
  .error (.fixedBits 0x1D)

/-- The rows of major 0x1E. -/
def dec1E (w : Word) : Except DecodeError Instr :=
  row (fld w 3 2 == 0) (.vmaxInt (fld w 18 6) (fld w 17 1) (fld w 11 6) (fld w 5 6) (fld w 0 3)) <|
  .error (.fixedBits 0x1E)

/-- The rows of major 0x1F. -/
def dec1F (w : Word) : Except DecodeError Instr :=
  row (fld w 3 2 == 0) (.vabsd (fld w 18 6) (fld w 17 1) (fld w 11 6) (fld w 5 6) (fld w 0 3)) <|
  .error (.fixedBits 0x1F)

/-- The rows of major 0x20. -/
def dec20 (w : Word) : Except DecodeError Instr :=
  row (fld w 0 1 == 0 && fld w 2 2 == 0) (.vand (fld w 18 6) (fld w 17 1) (fld w 11 6) (fld w 5 6) (fld w 4 1) (fld w 1 1)) <|
  .error (.fixedBits 0x20)

/-- The rows of major 0x21. -/
def dec21 (w : Word) : Except DecodeError Instr :=
  row (fld w 0 1 == 0 && fld w 2 2 == 0) (.vor (fld w 18 6) (fld w 17 1) (fld w 11 6) (fld w 5 6) (fld w 4 1) (fld w 1 1)) <|
  .error (.fixedBits 0x21)

/-- The rows of major 0x22. -/
def dec22 (w : Word) : Except DecodeError Instr :=
  row (fld w 0 1 == 0 && fld w 2 2 == 0) (.vxor (fld w 18 6) (fld w 17 1) (fld w 11 6) (fld w 5 6) (fld w 4 1) (fld w 1 1)) <|
  .error (.fixedBits 0x22)

/-- The rows of major 0x23. -/
def dec23 (w : Word) : Except DecodeError Instr :=
  row (fld w 0 1 == 0 && fld w 2 2 == 0) (.vandn (fld w 18 6) (fld w 17 1) (fld w 11 6) (fld w 5 6) (fld w 4 1) (fld w 1 1)) <|
  .error (.fixedBits 0x23)

/-- The rows of major 0x24. -/
def dec24 (w : Word) : Except DecodeError Instr :=
  row (fld w 3 2 == 0) (.vshl (fld w 18 6) (fld w 17 1) (fld w 11 6) (fld w 5 6) (fld w 0 3)) <|
  .error (.fixedBits 0x24)

/-- The rows of major 0x25. -/
def dec25 (w : Word) : Except DecodeError Instr :=
  row (fld w 3 2 == 0) (.vshr (fld w 18 6) (fld w 17 1) (fld w 11 6) (fld w 5 6) (fld w 0 3)) <|
  .error (.fixedBits 0x25)

/-- The rows of major 0x26. -/
def dec26 (w : Word) : Except DecodeError Instr :=
  row (fld w 3 2 == 0) (.vsra (fld w 18 6) (fld w 17 1) (fld w 11 6) (fld w 5 6) (fld w 0 3)) <|
  .error (.fixedBits 0x26)

/-- The rows of major 0x27. -/
def dec27 (w : Word) : Except DecodeError Instr :=
  row (fld w 3 2 == 0 && fld w 17 7 == 0) (.vcmpInt (fld w 11 6) (fld w 5 6) (fld w 0 3)) <|
  .error (.fixedBits 0x27)

/-- The rows of major 0x28. -/
def dec28 (w : Word) : Except DecodeError Instr :=
  row (fld w 2 2 == 0) (.vaddx (fld w 18 6) (fld w 17 1) (fld w 11 6) (fld w 5 6) (fld w 4 1) (fld w 0 2)) <|
  .error (.fixedBits 0x28)

/-- The rows of major 0x29. -/
def dec29 (w : Word) : Except DecodeError Instr :=
  row (fld w 2 2 == 0) (.vsubx (fld w 18 6) (fld w 17 1) (fld w 11 6) (fld w 5 6) (fld w 4 1) (fld w 0 2)) <|
  .error (.fixedBits 0x29)

/-- The rows of major 0x2A. -/
def dec2A (w : Word) : Except DecodeError Instr :=
  row (fld w 4 1 == 0) (.vselFlag (fld w 18 6) (fld w 17 1) (fld w 11 6) (fld w 5 6) (fld w 0 4)) <|
  row (fld w 3 2 == 2) (.vselPred (fld w 18 6) (fld w 17 1) (fld w 11 6) (fld w 5 6) (fld w 0 3)) <|
  .error (.fixedBits 0x2A)

/-- The rows of major 0x2B. -/
def dec2B (w : Word) : Except DecodeError Instr :=
  row (true) (.vaddMasked (fld w 18 6) (fld w 17 1) (fld w 11 6) (fld w 5 6) (fld w 2 3) (fld w 0 2)) <|
  .error (.fixedBits 0x2B)

/-- The rows of major 0x2C. -/
def dec2C (w : Word) : Except DecodeError Instr :=
  row (true) (.vsubMasked (fld w 18 6) (fld w 17 1) (fld w 11 6) (fld w 5 6) (fld w 2 3) (fld w 0 2)) <|
  .error (.fixedBits 0x2C)

/-- The rows of major 0x2D. -/
def dec2D (w : Word) : Except DecodeError Instr :=
  row (fld w 5 6 == 0) (.vmovMasked (fld w 18 6) (fld w 17 1) (fld w 11 6) (fld w 2 3) (fld w 0 2)) <|
  .error (.fixedBits 0x2D)

/-- The rows of major 0x2E. -/
def dec2E (w : Word) (x : Ext) : Except DecodeError Instr :=
  row (fld w 5 1 == 0) (.vaddImm (fld w 18 6) (fld w 17 1) ⟨fld w 6 11, x⟩ (fld w 4 1) (fld w 3 1) (fld w 0 3)) <|
  .error (.fixedBits 0x2E)

/-- The rows of major 0x2F. -/
def dec2F (w : Word) (x : Ext) : Except DecodeError Instr :=
  row (fld w 0 1 == 0 && fld w 2 2 == 0 && fld w 5 1 == 0) (.vandImm (fld w 18 6) (fld w 17 1) ⟨fld w 6 11, x⟩ (fld w 4 1) (fld w 1 1)) <|
  .error (.fixedBits 0x2F)

/-- The rows of major 0x30. -/
def dec30 (w : Word) (x : Ext) : Except DecodeError Instr :=
  row (fld w 0 1 == 0 && fld w 2 2 == 0 && fld w 5 1 == 0) (.vorImm (fld w 18 6) (fld w 17 1) ⟨fld w 6 11, x⟩ (fld w 4 1) (fld w 1 1)) <|
  .error (.fixedBits 0x30)

/-- The rows of major 0x31. -/
def dec31 (w : Word) : Except DecodeError Instr :=
  row (fld w 3 3 == 0) (.vshlImm (fld w 18 6) (fld w 17 1) (fld w 6 11) (fld w 0 3)) <|
  .error (.fixedBits 0x31)

/-- The rows of major 0x32. -/
def dec32 (w : Word) : Except DecodeError Instr :=
  row (fld w 3 3 == 0) (.vshrImm (fld w 18 6) (fld w 17 1) (fld w 6 11) (fld w 0 3)) <|
  .error (.fixedBits 0x32)

/-- The rows of major 0x33. -/
def dec33 (w : Word) : Except DecodeError Instr :=
  row (fld w 3 3 == 0) (.vsraImm (fld w 18 6) (fld w 17 1) (fld w 6 11) (fld w 0 3)) <|
  .error (.fixedBits 0x33)

/-- The rows of major 0x34. -/
def dec34 (w : Word) (x : Ext) : Except DecodeError Instr :=
  row (true) (.vmovi (fld w 18 6) (fld w 17 1) ⟨fld w 0 17, x⟩) <|
  .error (.fixedBits 0x34)

/-- The rows of major 0x35. -/
def dec35 (w : Word) : Except DecodeError Instr :=
  row (fld w 0 5 == 0) (.vperm (fld w 18 6) (fld w 17 1) (fld w 11 6) (fld w 5 6)) <|
  row (fld w 0 5 == 1) (.vbcast (fld w 18 6) (fld w 17 1) (fld w 11 6) (fld w 5 6)) <|
  row (fld w 0 11 == 2) (.vscanAddI32 (fld w 18 6) (fld w 17 1) (fld w 11 6)) <|
  row (fld w 0 11 == 3) (.vredAddI32 (fld w 18 6) (fld w 17 1) (fld w 11 6)) <|
  row (fld w 0 11 == 4) (.vredMaxI32 (fld w 18 6) (fld w 17 1) (fld w 11 6)) <|
  row (fld w 0 11 == 5) (.vredMinI32 (fld w 18 6) (fld w 17 1) (fld w 11 6)) <|
  .error (.fixedBits 0x35)

/-- The rows of major 0x36. -/
def dec36 (w : Word) : Except DecodeError Instr :=
  row (fld w 0 12 == 0) (.vfroms (fld w 18 6) (fld w 17 1) (fld w 12 5)) <|
  .error (.fixedBits 0x36)

/-- The rows of major 0x37. -/
def dec37 (w : Word) : Except DecodeError Instr :=
  row (fld w 0 5 == 0) (.pcmpB (fld w 21 3) (fld w 15 6) (fld w 9 6) (fld w 5 4)) <|
  row (fld w 0 12 == 1 && fld w 15 3 == 0) (.pand (fld w 21 3) (fld w 18 3) (fld w 12 3)) <|
  row (fld w 0 12 == 2 && fld w 15 3 == 0) (.por (fld w 21 3) (fld w 18 3) (fld w 12 3)) <|
  row (fld w 0 12 == 3 && fld w 15 3 == 0) (.pxor (fld w 21 3) (fld w 18 3) (fld w 12 3)) <|
  row (fld w 0 18 == 4) (.pnot (fld w 21 3) (fld w 18 3)) <|
  row (fld w 0 5 == 5 && fld w 9 12 == 0) (.pfromcc (fld w 21 3) (fld w 5 4)) <|
  .error (.fixedBits 0x37)

/-- The rows of major 0x38. -/
def dec38 (w : Word) : Except DecodeError Instr :=
  row (true) (.vaddFloat (fld w 18 6) (fld w 17 1) (fld w 11 6) (fld w 5 6) (fld w 2 3) (fld w 0 2)) <|
  .error (.fixedBits 0x38)

/-- The rows of major 0x39. -/
def dec39 (w : Word) : Except DecodeError Instr :=
  row (true) (.vsubFloat (fld w 18 6) (fld w 17 1) (fld w 11 6) (fld w 5 6) (fld w 2 3) (fld w 0 2)) <|
  .error (.fixedBits 0x39)

/-- The rows of major 0x3A. -/
def dec3A (w : Word) : Except DecodeError Instr :=
  row (true) (.vmulFloat (fld w 18 6) (fld w 17 1) (fld w 11 6) (fld w 5 6) (fld w 2 3) (fld w 0 2)) <|
  .error (.fixedBits 0x3A)

/-- The rows of major 0x3B. -/
def dec3B (w : Word) : Except DecodeError Instr :=
  row (true) (.vfma (fld w 18 6) (fld w 17 1) (fld w 11 6) (fld w 5 6) (fld w 2 3) (fld w 0 2)) <|
  .error (.fixedBits 0x3B)

/-- The rows of major 0x3C. -/
def dec3C (w : Word) : Except DecodeError Instr :=
  row (true) (.vfms (fld w 18 6) (fld w 17 1) (fld w 11 6) (fld w 5 6) (fld w 2 3) (fld w 0 2)) <|
  .error (.fixedBits 0x3C)

/-- The rows of major 0x3D. -/
def dec3D (w : Word) : Except DecodeError Instr :=
  row (fld w 2 3 == 0) (.vminFloat (fld w 18 6) (fld w 17 1) (fld w 11 6) (fld w 5 6) (fld w 0 2)) <|
  .error (.fixedBits 0x3D)

/-- The rows of major 0x3E. -/
def dec3E (w : Word) : Except DecodeError Instr :=
  row (fld w 2 3 == 0) (.vmaxFloat (fld w 18 6) (fld w 17 1) (fld w 11 6) (fld w 5 6) (fld w 0 2)) <|
  .error (.fixedBits 0x3E)

/-- The rows of major 0x3F. -/
def dec3F (w : Word) : Except DecodeError Instr :=
  row (fld w 2 3 == 0 && fld w 17 7 == 0) (.vcmpFloat (fld w 11 6) (fld w 5 6) (fld w 0 2)) <|
  .error (.fixedBits 0x3F)

/-- The rows of major 0x40. -/
def dec40 (w : Word) : Except DecodeError Instr :=
  row (fld w 5 6 == 0) (.vabs (fld w 18 6) (fld w 17 1) (fld w 11 6) (fld w 2 3) (fld w 0 2)) <|
  row (fld w 5 6 == 1) (.vneg (fld w 18 6) (fld w 17 1) (fld w 11 6) (fld w 2 3) (fld w 0 2)) <|
  row (fld w 5 6 == 2) (.vsqrt (fld w 18 6) (fld w 17 1) (fld w 11 6) (fld w 2 3) (fld w 0 2)) <|
  row (fld w 5 6 == 3) (.vrcp (fld w 18 6) (fld w 17 1) (fld w 11 6) (fld w 2 3) (fld w 0 2)) <|
  row (fld w 5 6 == 4) (.vrsqrt (fld w 18 6) (fld w 17 1) (fld w 11 6) (fld w 2 3) (fld w 0 2)) <|
  row (fld w 5 6 == 5) (.vexp2 (fld w 18 6) (fld w 17 1) (fld w 11 6) (fld w 2 3) (fld w 0 2)) <|
  row (fld w 5 6 == 6) (.vlog2 (fld w 18 6) (fld w 17 1) (fld w 11 6) (fld w 2 3) (fld w 0 2)) <|
  row (fld w 5 6 == 7) (.vsin (fld w 18 6) (fld w 17 1) (fld w 11 6) (fld w 2 3) (fld w 0 2)) <|
  row (fld w 5 6 == 8) (.vcos (fld w 18 6) (fld w 17 1) (fld w 11 6) (fld w 2 3) (fld w 0 2)) <|
  row (fld w 5 6 == 9) (.vtanh (fld w 18 6) (fld w 17 1) (fld w 11 6) (fld w 2 3) (fld w 0 2)) <|
  .error (.fixedBits 0x40)

/-- The rows of major 0x41. -/
def dec41 (w : Word) : Except DecodeError Instr :=
  row (fld w 2 9 == 0) (.vclass (fld w 18 6) (fld w 17 1) (fld w 11 6) (fld w 0 2)) <|
  .error (.fixedBits 0x41)

/-- The rows of major 0x42. -/
def dec42 (w : Word) : Except DecodeError Instr :=
  row (true) (.vcvt (fld w 18 6) (fld w 17 1) (fld w 11 6) (fld w 7 4) (fld w 3 4) (fld w 0 3)) <|
  .error (.fixedBits 0x42)

/-- The rows of major 0x43. -/
def dec43 (w : Word) : Except DecodeError Instr :=
  row (true) (.vcvtSat (fld w 18 6) (fld w 17 1) (fld w 11 6) (fld w 7 4) (fld w 3 4) (fld w 0 3)) <|
  .error (.fixedBits 0x43)

/-- The rows of major 0x44. -/
def dec44 (w : Word) : Except DecodeError Instr :=
  row (true) (.vpackb (fld w 18 6) (fld w 17 1) (fld w 11 6) (fld w 7 4) (fld w 4 3) (fld w 3 1) (fld w 0 3)) <|
  .error (.fixedBits 0x44)

/-- The rows of major 0x45. -/
def dec45 (w : Word) : Except DecodeError Instr :=
  row (fld w 3 1 == 0) (.vunpackb (fld w 18 6) (fld w 17 1) (fld w 11 6) (fld w 7 4) (fld w 4 3) (fld w 0 3)) <|
  .error (.fixedBits 0x45)

/-- The rows of major 0x46. -/
def dec46 (w : Word) : Except DecodeError Instr :=
  row (fld w 4 1 == 0) (.vscale (fld w 18 6) (fld w 17 1) (fld w 11 6) (fld w 5 6) (fld w 0 4)) <|
  .error (.fixedBits 0x46)

/-- The rows of major 0x58. -/
def dec58 (w : Word) : Except DecodeError Instr :=
  row (true) (.mmul (fld w 19 5) (fld w 14 5) (fld w 9 5) (fld w 6 3) (fld w 3 3) (fld w 0 3)) <|
  .error (.fixedBits 0x58)

/-- The rows of major 0x59. -/
def dec59 (w : Word) : Except DecodeError Instr :=
  row (fld w 6 6 == 0) (.mtrans (fld w 18 6) (fld w 12 6) (fld w 3 3) (fld w 0 3)) <|
  .error (.fixedBits 0x59)

/-- The rows of major 0x5A. -/
def dec5A (w : Word) : Except DecodeError Instr :=
  row (fld w 6 6 == 0) (.mchol (fld w 18 6) (fld w 12 6) (fld w 3 3) (fld w 0 3)) <|
  .error (.fixedBits 0x5A)

/-- The rows of major 0x5B. -/
def dec5B (w : Word) : Except DecodeError Instr :=
  row (fld w 6 6 == 0) (.mlu (fld w 18 6) (fld w 12 6) (fld w 3 3) (fld w 0 3)) <|
  .error (.fixedBits 0x5B)

/-- The rows of major 0x5C. -/
def dec5C (w : Word) : Except DecodeError Instr :=
  row (true) (.mtrsl (fld w 18 6) (fld w 12 6) (fld w 6 6) (fld w 3 3) (fld w 0 3)) <|
  .error (.fixedBits 0x5C)

/-- The rows of major 0x5D. -/
def dec5D (w : Word) : Except DecodeError Instr :=
  row (true) (.mtrsu (fld w 18 6) (fld w 12 6) (fld w 6 6) (fld w 3 3) (fld w 0 3)) <|
  .error (.fixedBits 0x5D)

/-- The rows of major 0x5E. -/
def dec5E (w : Word) : Except DecodeError Instr :=
  row (true) (.msolveChol (fld w 18 6) (fld w 12 6) (fld w 6 6) (fld w 3 3) (fld w 0 3)) <|
  .error (.fixedBits 0x5E)

/-- The rows of major 0x5F. -/
def dec5F (w : Word) : Except DecodeError Instr :=
  row (true) (.msolveLu (fld w 18 6) (fld w 12 6) (fld w 6 6) (fld w 3 3) (fld w 0 3)) <|
  .error (.fixedBits 0x5F)

/-- The rows of major 0x60. -/
def dec60 (w : Word) : Except DecodeError Instr :=
  row (fld w 0 9 == 0) (.cbnd (fld w 20 4) (fld w 19 1) (fld w 15 4) (fld w 9 6)) <|
  row (fld w 0 9 == 1) (.cbndX (fld w 20 4) (fld w 19 1) (fld w 15 4) (fld w 9 6)) <|
  row (fld w 0 9 == 2) (.coff (fld w 20 4) (fld w 19 1) (fld w 15 4) (fld w 9 6)) <|
  row (fld w 0 9 == 3) (.cinc (fld w 20 4) (fld w 19 1) (fld w 15 4) (fld w 9 6)) <|
  row (fld w 0 9 == 4) (.cperm (fld w 20 4) (fld w 19 1) (fld w 15 4) (fld w 9 6)) <|
  row (fld w 0 5 == 5 && fld w 9 6 == 0) (.cseal (fld w 20 4) (fld w 19 1) (fld w 15 4) (fld w 5 4)) <|
  row (fld w 0 5 == 6 && fld w 9 6 == 0) (.cunseal (fld w 20 4) (fld w 19 1) (fld w 15 4) (fld w 5 4)) <|
  row (fld w 0 9 == 7 && fld w 11 4 == 0) (.cmov (fld w 20 4) (fld w 19 1) (fld w 15 4) (fld w 9 2)) <|
  row (fld w 0 9 == 8) (.cuntag (fld w 20 4) (fld w 19 1) (fld w 15 4) (fld w 9 6)) <|
  .error (.fixedBits 0x60)

/-- The rows of major 0x61. -/
def dec61 (w : Word) : Except DecodeError Instr :=
  row (fld w 0 13 == 0) (.cgetBase (fld w 18 6) (fld w 17 1) (fld w 13 4)) <|
  row (fld w 0 13 == 1) (.cgetTop (fld w 18 6) (fld w 17 1) (fld w 13 4)) <|
  row (fld w 0 13 == 2) (.cgetPos (fld w 18 6) (fld w 17 1) (fld w 13 4)) <|
  row (fld w 0 13 == 3) (.cgetRoom (fld w 18 6) (fld w 17 1) (fld w 13 4)) <|
  row (fld w 0 13 == 4) (.cgetPerm (fld w 18 6) (fld w 17 1) (fld w 13 4)) <|
  row (fld w 0 13 == 5) (.cgetType (fld w 18 6) (fld w 17 1) (fld w 13 4)) <|
  row (fld w 0 13 == 6) (.cgetTag (fld w 18 6) (fld w 17 1) (fld w 13 4)) <|
  row (fld w 0 13 == 7) (.cgetAddr (fld w 18 6) (fld w 17 1) (fld w 13 4)) <|
  row (fld w 0 13 == 8) (.cgetExp (fld w 18 6) (fld w 17 1) (fld w 13 4)) <|
  .error (.fixedBits 0x61)

/-- The rows of major 0x62. -/
def dec62 (w : Word) : Except DecodeError Instr :=
  row (true) (.ldReg (fld w 18 6) (fld w 17 1) (fld w 16 1) (fld w 12 4) (fld w 6 6) (fld w 4 2) (fld w 0 4)) <|
  .error (.fixedBits 0x62)

/-- The rows of major 0x63. -/
def dec63 (w : Word) (x : Ext) : Except DecodeError Instr :=
  row (true) (.ldImm (fld w 18 6) (fld w 17 1) (fld w 16 1) (fld w 12 4) ⟨fld w 6 6, x⟩ (fld w 4 2) (fld w 0 4)) <|
  .error (.fixedBits 0x63)

/-- The rows of major 0x64. -/
def dec64 (w : Word) : Except DecodeError Instr :=
  row (fld w 17 1 == 0) (.stReg (fld w 18 6) (fld w 16 1) (fld w 12 4) (fld w 6 6) (fld w 4 2) (fld w 0 4)) <|
  .error (.fixedBits 0x64)

/-- The rows of major 0x65. -/
def dec65 (w : Word) (x : Ext) : Except DecodeError Instr :=
  row (fld w 17 1 == 0) (.stImm (fld w 18 6) (fld w 16 1) (fld w 12 4) ⟨fld w 6 6, x⟩ (fld w 4 2) (fld w 0 4)) <|
  .error (.fixedBits 0x65)

/-- The rows of major 0x66. -/
def dec66 (w : Word) : Except DecodeError Instr :=
  row (fld w 0 6 == 0 && fld w 17 2 == 0) (.ldc (fld w 20 4) (fld w 19 1) (fld w 16 1) (fld w 12 4) (fld w 6 6)) <|
  row (fld w 0 6 == 0 && fld w 17 2 == 2) (.stc (fld w 20 4) (fld w 19 1) (fld w 16 1) (fld w 12 4) (fld w 6 6)) <|
  .error (.fixedBits 0x66)

/-- The rows of major 0x67. -/
def dec67 (w : Word) : Except DecodeError Instr :=
  row (fld w 0 4 == 0 && fld w 5 1 == 0) (.ldfe (fld w 18 6) (fld w 17 1) (fld w 16 1) (fld w 12 4) (fld w 6 6) (fld w 4 1)) <|
  row (fld w 0 4 == 4 && fld w 5 1 == 0) (.ldfeClr (fld w 18 6) (fld w 17 1) (fld w 16 1) (fld w 12 4) (fld w 6 6) (fld w 4 1)) <|
  row (fld w 0 4 == 8 && fld w 5 1 == 0 && fld w 17 1 == 0) (.stfe (fld w 18 6) (fld w 16 1) (fld w 12 4) (fld w 6 6) (fld w 4 1)) <|
  .error (.fixedBits 0x67)

/-- The rows of major 0x68. -/
def dec68 (w : Word) : Except DecodeError Instr :=
  row (fld w 0 10 == 0) (.smap (fld w 19 5) (fld w 14 5) (fld w 10 4)) <|
  row (fld w 0 14 == 1) (.sflush (fld w 19 5) (fld w 14 5)) <|
  .error (.fixedBits 0x68)

/-- The rows of major 0x69. -/
def dec69 (w : Word) : Except DecodeError Instr :=
  row (fld w 0 8 == 0) (.patset (fld w 22 2) (fld w 18 4) (fld w 13 5) (fld w 8 5)) <|
  .error (.fixedBits 0x69)

/-- The rows of major 0x6A. -/
def dec6A (w : Word) : Except DecodeError Instr :=
  row (fld w 0 2 == 0 && fld w 4 2 == 0 && fld w 17 1 == 0) (.redmAdd (fld w 18 6) (fld w 16 1) (fld w 12 4) (fld w 6 6) (fld w 2 2)) <|
  row (fld w 0 2 == 0 && fld w 4 2 == 1 && fld w 17 1 == 0) (.redmMax (fld w 18 6) (fld w 16 1) (fld w 12 4) (fld w 6 6) (fld w 2 2)) <|
  row (fld w 0 2 == 0 && fld w 4 2 == 2 && fld w 17 1 == 0) (.redmMin (fld w 18 6) (fld w 16 1) (fld w 12 4) (fld w 6 6) (fld w 2 2)) <|
  .error (.fixedBits 0x6A)

/-- The rows of major 0x6C. -/
def dec6C (w : Word) : Except DecodeError Instr :=
  row (fld w 3 3 == 0) (.amadd32 (fld w 18 6) (fld w 17 1) (fld w 16 1) (fld w 12 4) (fld w 6 6) (fld w 0 3)) <|
  row (fld w 3 3 == 1) (.amand32 (fld w 18 6) (fld w 17 1) (fld w 16 1) (fld w 12 4) (fld w 6 6) (fld w 0 3)) <|
  row (fld w 3 3 == 2) (.amor32 (fld w 18 6) (fld w 17 1) (fld w 16 1) (fld w 12 4) (fld w 6 6) (fld w 0 3)) <|
  row (fld w 3 3 == 3) (.amxor32 (fld w 18 6) (fld w 17 1) (fld w 16 1) (fld w 12 4) (fld w 6 6) (fld w 0 3)) <|
  row (fld w 3 3 == 4) (.ammaxI32 (fld w 18 6) (fld w 17 1) (fld w 16 1) (fld w 12 4) (fld w 6 6) (fld w 0 3)) <|
  row (fld w 3 3 == 5) (.ammaxU32 (fld w 18 6) (fld w 17 1) (fld w 16 1) (fld w 12 4) (fld w 6 6) (fld w 0 3)) <|
  row (fld w 3 3 == 6) (.amminI32 (fld w 18 6) (fld w 17 1) (fld w 16 1) (fld w 12 4) (fld w 6 6) (fld w 0 3)) <|
  row (fld w 3 3 == 7) (.amminU32 (fld w 18 6) (fld w 17 1) (fld w 16 1) (fld w 12 4) (fld w 6 6) (fld w 0 3)) <|
  .error (.fixedBits 0x6C)

/-- The rows of major 0x6D. -/
def dec6D (w : Word) : Except DecodeError Instr :=
  row (fld w 3 3 == 0) (.amadd64 (fld w 18 6) (fld w 17 1) (fld w 16 1) (fld w 12 4) (fld w 6 6) (fld w 0 3)) <|
  row (fld w 3 3 == 1) (.amand64 (fld w 18 6) (fld w 17 1) (fld w 16 1) (fld w 12 4) (fld w 6 6) (fld w 0 3)) <|
  row (fld w 3 3 == 2) (.amor64 (fld w 18 6) (fld w 17 1) (fld w 16 1) (fld w 12 4) (fld w 6 6) (fld w 0 3)) <|
  row (fld w 3 3 == 3) (.amxor64 (fld w 18 6) (fld w 17 1) (fld w 16 1) (fld w 12 4) (fld w 6 6) (fld w 0 3)) <|
  row (fld w 3 3 == 4) (.ammaxI64 (fld w 18 6) (fld w 17 1) (fld w 16 1) (fld w 12 4) (fld w 6 6) (fld w 0 3)) <|
  row (fld w 3 3 == 5) (.ammaxU64 (fld w 18 6) (fld w 17 1) (fld w 16 1) (fld w 12 4) (fld w 6 6) (fld w 0 3)) <|
  row (fld w 3 3 == 6) (.amminI64 (fld w 18 6) (fld w 17 1) (fld w 16 1) (fld w 12 4) (fld w 6 6) (fld w 0 3)) <|
  row (fld w 3 3 == 7) (.amminU64 (fld w 18 6) (fld w 17 1) (fld w 16 1) (fld w 12 4) (fld w 6 6) (fld w 0 3)) <|
  .error (.fixedBits 0x6D)

/-- The rows of major 0x6E. -/
def dec6E (w : Word) : Except DecodeError Instr :=
  row (fld w 3 3 == 0) (.amswap32 (fld w 18 6) (fld w 17 1) (fld w 16 1) (fld w 12 4) (fld w 6 6) (fld w 0 3)) <|
  row (fld w 3 3 == 1) (.amcas32 (fld w 18 6) (fld w 17 1) (fld w 16 1) (fld w 12 4) (fld w 6 6) (fld w 0 3)) <|
  row (fld w 3 3 == 2) (.amswap64 (fld w 18 6) (fld w 17 1) (fld w 16 1) (fld w 12 4) (fld w 6 6) (fld w 0 3)) <|
  row (fld w 3 3 == 3) (.amcas64 (fld w 18 6) (fld w 17 1) (fld w 16 1) (fld w 12 4) (fld w 6 6) (fld w 0 3)) <|
  row (fld w 3 3 == 4) (.amaddF32 (fld w 18 6) (fld w 17 1) (fld w 16 1) (fld w 12 4) (fld w 6 6) (fld w 0 3)) <|
  .error (.fixedBits 0x6E)

/-- The rows of major 0x6F. -/
def dec6F (w : Word) : Except DecodeError Instr :=
  row (fld w 0 18 == 0) (.txbeg (fld w 18 6)) <|
  .error (.fixedBits 0x6F)

/-- The rows of major 0x70. -/
def dec70 (w : Word) : Except DecodeError Instr :=
  row (fld w 0 24 == 0) (.txend) <|
  .error (.fixedBits 0x70)

/-- The rows of major 0x71. -/
def dec71 (w : Word) : Except DecodeError Instr :=
  row (fld w 0 16 == 0) (.txabort (fld w 16 8)) <|
  .error (.fixedBits 0x71)

/-- The rows of major 0x72. -/
def dec72 (w : Word) : Except DecodeError Instr :=
  row (fld w 0 13 == 0) (.tacq (fld w 19 5) (fld w 13 6)) <|
  .error (.fixedBits 0x72)

/-- The rows of major 0x73. -/
def dec73 (w : Word) : Except DecodeError Instr :=
  row (fld w 0 13 == 0) (.trel (fld w 19 5) (fld w 13 6)) <|
  .error (.fixedBits 0x73)

/-- The rows of major 0x74. -/
def dec74 (w : Word) : Except DecodeError Instr :=
  row (fld w 0 14 == 0) (.tclaim (fld w 19 5) (fld w 14 5)) <|
  .error (.fixedBits 0x74)

/-- The rows of major 0x75. -/
def dec75 (w : Word) : Except DecodeError Instr :=
  row (fld w 1 5 == 0) (.tmma (fld w 20 4) (fld w 16 4) (fld w 11 5) (fld w 8 3) (fld w 7 1) (fld w 6 1) (fld w 0 1)) <|
  .error (.fixedBits 0x75)

/-- The rows of major 0x76. -/
def dec76 (w : Word) : Except DecodeError Instr :=
  row (fld w 0 12 == 0) (.tdrain (fld w 18 6) (fld w 17 1) (fld w 12 5)) <|
  .error (.fixedBits 0x76)

/-- The rows of major 0x77. -/
def dec77 (w : Word) : Except DecodeError Instr :=
  row (fld w 0 13 == 0) (.tzero (fld w 19 5) (fld w 13 6)) <|
  .error (.fixedBits 0x77)

/-- The rows of major 0x78. -/
def dec78 (w : Word) : Except DecodeError Instr :=
  row (fld w 0 10 == 0) (.ecopy (fld w 20 4) (fld w 15 5) (fld w 12 3) (fld w 11 1) (fld w 10 1)) <|
  row (fld w 0 10 == 1) (.ered (fld w 20 4) (fld w 15 5) (fld w 12 3) (fld w 11 1) (fld w 10 1)) <|
  row (fld w 0 10 == 2) (.ecoll (fld w 20 4) (fld w 15 5) (fld w 12 3) (fld w 11 1) (fld w 10 1)) <|
  row (fld w 0 10 == 3) (.esealOpen (fld w 20 4) (fld w 15 5) (fld w 12 3) (fld w 11 1) (fld w 10 1)) <|
  row (fld w 0 10 == 4) (.esealCommit (fld w 20 4) (fld w 15 5) (fld w 12 3) (fld w 11 1) (fld w 10 1)) <|
  .error (.fixedBits 0x78)

/-- The rows of major 0x79. -/
def dec79 (w : Word) : Except DecodeError Instr :=
  row (fld w 0 15 == 0) (.post (fld w 20 4) (fld w 15 5)) <|
  row (fld w 0 24 == 1) (.done) <|
  row (fld w 0 15 == 2) (.cancel (fld w 20 4) (fld w 15 5)) <|
  .error (.fixedBits 0x79)

/-- The rows of major 0x7A. -/
def dec7A (w : Word) : Except DecodeError Instr :=
  row (fld w 0 19 == 0) (.ctread (fld w 19 5)) <|
  row (fld w 0 19 == 1) (.ctarm (fld w 19 5)) <|
  row (fld w 0 19 == 2) (.ctwait (fld w 19 5)) <|
  row (fld w 0 14 == 2 && fld w 18 1 == 1) (.ctwaitPeer (fld w 19 5) (fld w 14 4)) <|
  .error (.fixedBits 0x7A)

/-- The rows of major 0x7C. -/
def dec7C (w : Word) : Except DecodeError Instr :=
  row (fld w 0 8 == 0) (.trap (fld w 8 16)) <|
  row (fld w 0 24 == 1) (.rett) <|
  row (fld w 0 17 == 2) (.fence (fld w 21 3) (fld w 17 4)) <|
  row (fld w 0 19 == 3) (.setpl (fld w 19 5)) <|
  .error (.fixedBits 0x7C)

/-- The rows of major 0x7D. -/
def dec7D (w : Word) : Except DecodeError Instr :=
  row (fld w 0 13 == 0) (.modeRead (fld w 19 5) (fld w 13 6)) <|
  row (fld w 0 13 == 4096) (.modeWrite (fld w 19 5) (fld w 13 6)) <|
  .error (.fixedBits 0x7D)

/-- The instruction a host word and its extension payloads stand for, before the operand checks. -/
def decodeRaw (w : Word) (x : Ext) : Except DecodeError Instr :=
  let m := (fld w 24 7).toNat
  bif m == 0 then .error .zeroMajor
  else bif m == 0x7F then .error .reservedMajor
  else bif m == 0x7E then .error .extension
  else bif m == 0x01 then dec01 w
  else bif m == 0x02 then dec02 w
  else bif m == 0x03 then dec03 w x
  else bif m == 0x04 then dec04 w
  else bif m == 0x05 then dec05 w x
  else bif m == 0x06 then dec06 w x
  else bif m == 0x07 then dec07 w
  else bif m == 0x08 then dec08 w
  else bif m == 0x09 then dec09 w
  else bif m == 0x0A then dec0A w
  else bif m == 0x0B then dec0B w
  else bif m == 0x0C then dec0C w
  else bif m == 0x0D then dec0D w
  else bif m == 0x0E then dec0E w
  else bif m == 0x0F then dec0F w
  else bif m == 0x10 then dec10 w
  else bif m == 0x11 then dec11 w
  else bif m == 0x12 then dec12 w
  else bif m == 0x13 then dec13 w
  else bif m == 0x18 then dec18 w
  else bif m == 0x19 then dec19 w
  else bif m == 0x1A then dec1A w
  else bif m == 0x1B then dec1B w
  else bif m == 0x1C then dec1C w
  else bif m == 0x1D then dec1D w
  else bif m == 0x1E then dec1E w
  else bif m == 0x1F then dec1F w
  else bif m == 0x20 then dec20 w
  else bif m == 0x21 then dec21 w
  else bif m == 0x22 then dec22 w
  else bif m == 0x23 then dec23 w
  else bif m == 0x24 then dec24 w
  else bif m == 0x25 then dec25 w
  else bif m == 0x26 then dec26 w
  else bif m == 0x27 then dec27 w
  else bif m == 0x28 then dec28 w
  else bif m == 0x29 then dec29 w
  else bif m == 0x2A then dec2A w
  else bif m == 0x2B then dec2B w
  else bif m == 0x2C then dec2C w
  else bif m == 0x2D then dec2D w
  else bif m == 0x2E then dec2E w x
  else bif m == 0x2F then dec2F w x
  else bif m == 0x30 then dec30 w x
  else bif m == 0x31 then dec31 w
  else bif m == 0x32 then dec32 w
  else bif m == 0x33 then dec33 w
  else bif m == 0x34 then dec34 w x
  else bif m == 0x35 then dec35 w
  else bif m == 0x36 then dec36 w
  else bif m == 0x37 then dec37 w
  else bif m == 0x38 then dec38 w
  else bif m == 0x39 then dec39 w
  else bif m == 0x3A then dec3A w
  else bif m == 0x3B then dec3B w
  else bif m == 0x3C then dec3C w
  else bif m == 0x3D then dec3D w
  else bif m == 0x3E then dec3E w
  else bif m == 0x3F then dec3F w
  else bif m == 0x40 then dec40 w
  else bif m == 0x41 then dec41 w
  else bif m == 0x42 then dec42 w
  else bif m == 0x43 then dec43 w
  else bif m == 0x44 then dec44 w
  else bif m == 0x45 then dec45 w
  else bif m == 0x46 then dec46 w
  else bif m == 0x58 then dec58 w
  else bif m == 0x59 then dec59 w
  else bif m == 0x5A then dec5A w
  else bif m == 0x5B then dec5B w
  else bif m == 0x5C then dec5C w
  else bif m == 0x5D then dec5D w
  else bif m == 0x5E then dec5E w
  else bif m == 0x5F then dec5F w
  else bif m == 0x60 then dec60 w
  else bif m == 0x61 then dec61 w
  else bif m == 0x62 then dec62 w
  else bif m == 0x63 then dec63 w x
  else bif m == 0x64 then dec64 w
  else bif m == 0x65 then dec65 w x
  else bif m == 0x66 then dec66 w
  else bif m == 0x67 then dec67 w
  else bif m == 0x68 then dec68 w
  else bif m == 0x69 then dec69 w
  else bif m == 0x6A then dec6A w
  else bif m == 0x6C then dec6C w
  else bif m == 0x6D then dec6D w
  else bif m == 0x6E then dec6E w
  else bif m == 0x6F then dec6F w
  else bif m == 0x70 then dec70 w
  else bif m == 0x71 then dec71 w
  else bif m == 0x72 then dec72 w
  else bif m == 0x73 then dec73 w
  else bif m == 0x74 then dec74 w
  else bif m == 0x75 then dec75 w
  else bif m == 0x76 then dec76 w
  else bif m == 0x77 then dec77 w
  else bif m == 0x78 then dec78 w
  else bif m == 0x79 then dec79 w
  else bif m == 0x7A then dec7A w
  else bif m == 0x7C then dec7C w
  else bif m == 0x7D then dec7D w
  else .error (.unassignedMajor m)

/-- A host word with its extensions, and the checks of R26, R27, R29, R32, R38 to R42. -/
def decodeHost (w : Word) (x : Ext) : Except DecodeError Instr :=
  match decodeRaw w x with
  | .error e => .error e
  | .ok i =>
    if x != .none && !extMajor (fld w 24 7).toNat then .error .extension
    else if i.wf then .ok i else .error .operand

/-- The payload of a word when it is an extension word (R26). -/
def extPayload? (w : Word) : Option (BitVec 24) :=
  if fld w 24 8 == 0x7E then some (fld w 0 24) else none

/-- The words of a byte list, little-endian (R21); bytes short of a word are dropped. -/
def wordsOf : List Byte → List Word
  | b0 :: b1 :: b2 :: b3 :: r => (b3 ++ b2 ++ b1 ++ b0) :: wordsOf r
  | _ => []

/-- The bytes of a word, little-endian. -/
def bytesOf (w : Word) : List Byte := [fld w 0 8, fld w 8 8, fld w 16 8, fld w 24 8]

/-- The extension payloads that follow an extensible host, at most two, and the words after them (R26). -/
def takeExt (m : Nat) (ws : List Word) : Ext × List Word :=
  if extMajor m then
    match ws with
    | [] => (.none, [])
    | w1 :: r1 =>
      match extPayload? w1 with
      | none => (.none, w1 :: r1)
      | some p1 =>
        match r1 with
        | [] => (.one p1, [])
        | w2 :: r2 =>
          match extPayload? w2 with
          | none => (.one p1, w2 :: r2)
          | some p2 => (.two p1 p2, r2)
  else (.none, ws)

/-- One instruction from the front of a list of words: its chain bit, itself, and the words that follow. -/
def decodeWords : List Word → Except DecodeError (BitVec 1 × Instr × List Word)
  | [] => .error .truncated
  | w :: r =>
    let (x, rest) := takeExt (fld w 24 7).toNat r
    match decodeHost w x with
    | .error e => .error e
    | .ok i => .ok (fld w 31 1, i, rest)

/-- One instruction from bytes; total, and every refusal has its name. -/
def decode (bs : List Byte) : Except DecodeError (BitVec 1 × Instr × List Word) := decodeWords (wordsOf bs)

/-- `k` words of a number, the first in the low bits. -/
def wordsOfNat : Nat → Nat → List Word
  | 0, _ => []
  | k + 1, w => BitVec.ofNat 32 w :: wordsOfNat k (w / 2 ^ 32)

/-- The instruction whose bits, numbered as spec/opcode_table.json numbers them, are `w`. -/
def decodeTableWord (nbits w : Nat) : Option Instr :=
  match decode ((wordsOfNat (max 1 (nbits / 32)) w).flatMap bytesOf) with
  | .ok (_, i, _) => some i
  | .error _ => none

/-! The encoder, from the same table. -/

/-- A field placed at bit `lo`, over the fixed bits below it. -/
def put {n : Nat} (x : BitVec n) (lo rest : Nat) : Nat := x.toNat * 2 ^ lo + rest

/-- Bits [30:0] of the host word of an instruction; an event has none. -/
def hostBits : Instr → Nat
  | .nop => 0x01000000
  | .sadd d a b => put d 19 (put a 14 (put b 9 (0x02000000)))
  | .ssub d a b => put d 19 (put a 14 (put b 9 (0x02000001)))
  | .sand d a b => put d 19 (put a 14 (put b 9 (0x02000002)))
  | .sor d a b => put d 19 (put a 14 (put b 9 (0x02000003)))
  | .sxor d a b => put d 19 (put a 14 (put b 9 (0x02000004)))
  | .sshl d a b => put d 19 (put a 14 (put b 9 (0x02000005)))
  | .sshr d a b => put d 19 (put a 14 (put b 9 (0x02000006)))
  | .ssra d a b => put d 19 (put a 14 (put b 9 (0x02000007)))
  | .smul d a b => put d 19 (put a 14 (put b 9 (0x02000008)))
  | .smulhI64 d a b => put d 19 (put a 14 (put b 9 (0x02000009)))
  | .smulhU64 d a b => put d 19 (put a 14 (put b 9 (0x0200000A)))
  | .sminI64 d a b => put d 19 (put a 14 (put b 9 (0x0200000B)))
  | .sminU64 d a b => put d 19 (put a 14 (put b 9 (0x0200000C)))
  | .smaxI64 d a b => put d 19 (put a 14 (put b 9 (0x0200000D)))
  | .smaxU64 d a b => put d 19 (put a 14 (put b 9 (0x0200000E)))
  | .saddImm d a i => put d 19 (put a 14 (put i.short 5 (0x03000000)))
  | .ssubImm d a i => put d 19 (put a 14 (put i.short 5 (0x03000001)))
  | .sandImm d a i => put d 19 (put a 14 (put i.short 5 (0x03000002)))
  | .sorImm d a i => put d 19 (put a 14 (put i.short 5 (0x03000003)))
  | .sxorImm d a i => put d 19 (put a 14 (put i.short 5 (0x03000004)))
  | .sshlImm d a i => put d 19 (put a 14 (put i.short 5 (0x03000005)))
  | .sshrImm d a i => put d 19 (put a 14 (put i.short 5 (0x03000006)))
  | .ssraImm d a i => put d 19 (put a 14 (put i.short 5 (0x03000007)))
  | .smulImm d a i => put d 19 (put a 14 (put i.short 5 (0x03000008)))
  | .smulhI64Imm d a i => put d 19 (put a 14 (put i.short 5 (0x03000009)))
  | .smulhU64Imm d a i => put d 19 (put a 14 (put i.short 5 (0x0300000A)))
  | .sminI64Imm d a i => put d 19 (put a 14 (put i.short 5 (0x0300000B)))
  | .sminU64Imm d a i => put d 19 (put a 14 (put i.short 5 (0x0300000C)))
  | .smaxI64Imm d a i => put d 19 (put a 14 (put i.short 5 (0x0300000D)))
  | .smaxU64Imm d a i => put d 19 (put a 14 (put i.short 5 (0x0300000E)))
  | .scmpEq d a b => put d 19 (put a 14 (put b 9 (0x04000000)))
  | .scmpNe d a b => put d 19 (put a 14 (put b 9 (0x04000001)))
  | .scmpLtI64 d a b => put d 19 (put a 14 (put b 9 (0x04000002)))
  | .scmpGeI64 d a b => put d 19 (put a 14 (put b 9 (0x04000003)))
  | .scmpLtU64 d a b => put d 19 (put a 14 (put b 9 (0x04000004)))
  | .scmpGeU64 d a b => put d 19 (put a 14 (put b 9 (0x04000005)))
  | .scmpEqImm d a i => put d 19 (put a 14 (put i.short 5 (0x05000000)))
  | .scmpNeImm d a i => put d 19 (put a 14 (put i.short 5 (0x05000001)))
  | .scmpLtI64Imm d a i => put d 19 (put a 14 (put i.short 5 (0x05000002)))
  | .scmpGeI64Imm d a i => put d 19 (put a 14 (put i.short 5 (0x05000003)))
  | .scmpLtU64Imm d a i => put d 19 (put a 14 (put i.short 5 (0x05000004)))
  | .scmpGeU64Imm d a i => put d 19 (put a 14 (put i.short 5 (0x05000005)))
  | .smovi d i => put d 19 (put i.short 0 (0x06000000))
  | .br o => put o 0 (0x07000000)
  | .brcEq0 a o => put a 16 (put o 0 (0x08000000))
  | .brcNe0 a o => put a 16 (put o 0 (0x08200000))
  | .brcLt0 a o => put a 16 (put o 0 (0x08400000))
  | .brcGe0 a o => put a 16 (put o 0 (0x08600000))
  | .brcZ o => put o 0 (0x08800000)
  | .brcNz o => put o 0 (0x08A00000)
  | .brcC o => put o 0 (0x08C00000)
  | .brcNc o => put o 0 (0x08E00000)
  | .call l o => put l 21 (put o 0 (0x09000000))
  | .ret => 0x0A000000
  | .split a o => put a 18 (put o 0 (0x0B000000))
  | .merge => 0x0C000000
  | .waitc n l => put n 22 (put l 16 (0x0D000000))
  | .bar n => put n 20 (0x0E000000)
  | .qbindPush q h => put q 22 (put h 18 (0x0F000000))
  | .qbindPop q h => put q 22 (put h 18 (0x0F010000))
  | .qbindUnbind q => put q 22 (0x0F020000)
  | .sstat d r l => put d 19 (put r 13 (put l 12 (0x10000000)))
  | .smaskRd s => put s 19 (0x11000000)
  | .smaskWr s => put s 19 (0x11040000)
  | .sflags d f => put d 19 (put f 16 (0x12000000))
  | .slane d a l => put d 19 (put a 13 (put l 7 (0x13000000)))
  | .vaddInt d s a b g t y => put d 18 (put s 17 (put a 11 (put b 5 (put g 4 (put t 3 (put y 0 (0x18000000)))))))
  | .vsubInt d s a b g t y => put d 18 (put s 17 (put a 11 (put b 5 (put g 4 (put t 3 (put y 0 (0x19000000)))))))
  | .vmulInt d s a b t y => put d 18 (put s 17 (put a 11 (put b 5 (put t 3 (put y 0 (0x1A000000))))))
  | .vmulh d s a b y => put d 18 (put s 17 (put a 11 (put b 5 (put y 0 (0x1B000000)))))
  | .vmad d s a b t y => put d 18 (put s 17 (put a 11 (put b 5 (put t 3 (put y 0 (0x1C000000))))))
  | .vminInt d s a b y => put d 18 (put s 17 (put a 11 (put b 5 (put y 0 (0x1D000000)))))
  | .vmaxInt d s a b y => put d 18 (put s 17 (put a 11 (put b 5 (put y 0 (0x1E000000)))))
  | .vabsd d s a b y => put d 18 (put s 17 (put a 11 (put b 5 (put y 0 (0x1F000000)))))
  | .vand d s a b g y => put d 18 (put s 17 (put a 11 (put b 5 (put g 4 (put y 1 (0x20000000))))))
  | .vor d s a b g y => put d 18 (put s 17 (put a 11 (put b 5 (put g 4 (put y 1 (0x21000000))))))
  | .vxor d s a b g y => put d 18 (put s 17 (put a 11 (put b 5 (put g 4 (put y 1 (0x22000000))))))
  | .vandn d s a b g y => put d 18 (put s 17 (put a 11 (put b 5 (put g 4 (put y 1 (0x23000000))))))
  | .vshl d s a b y => put d 18 (put s 17 (put a 11 (put b 5 (put y 0 (0x24000000)))))
  | .vshr d s a b y => put d 18 (put s 17 (put a 11 (put b 5 (put y 0 (0x25000000)))))
  | .vsra d s a b y => put d 18 (put s 17 (put a 11 (put b 5 (put y 0 (0x26000000)))))
  | .vcmpInt a b y => put a 11 (put b 5 (put y 0 (0x27000000)))
  | .vaddx d s a b g y => put d 18 (put s 17 (put a 11 (put b 5 (put g 4 (put y 0 (0x28000000))))))
  | .vsubx d s a b g y => put d 18 (put s 17 (put a 11 (put b 5 (put g 4 (put y 0 (0x29000000))))))
  | .vselFlag d s a b e => put d 18 (put s 17 (put a 11 (put b 5 (put e 0 (0x2A000000)))))
  | .vselPred d s a b p => put d 18 (put s 17 (put a 11 (put b 5 (put p 0 (0x2A000010)))))
  | .vaddMasked d s a b p y => put d 18 (put s 17 (put a 11 (put b 5 (put p 2 (put y 0 (0x2B000000))))))
  | .vsubMasked d s a b p y => put d 18 (put s 17 (put a 11 (put b 5 (put p 2 (put y 0 (0x2C000000))))))
  | .vmovMasked d s a p y => put d 18 (put s 17 (put a 11 (put p 2 (put y 0 (0x2D000000)))))
  | .vaddImm d s i g t y => put d 18 (put s 17 (put i.short 6 (put g 4 (put t 3 (put y 0 (0x2E000000))))))
  | .vandImm d s i g y => put d 18 (put s 17 (put i.short 6 (put g 4 (put y 1 (0x2F000000)))))
  | .vorImm d s i g y => put d 18 (put s 17 (put i.short 6 (put g 4 (put y 1 (0x30000000)))))
  | .vshlImm d s i y => put d 18 (put s 17 (put i 6 (put y 0 (0x31000000))))
  | .vshrImm d s i y => put d 18 (put s 17 (put i 6 (put y 0 (0x32000000))))
  | .vsraImm d s i y => put d 18 (put s 17 (put i 6 (put y 0 (0x33000000))))
  | .vmovi d s i => put d 18 (put s 17 (put i.short 0 (0x34000000)))
  | .vperm d s a b => put d 18 (put s 17 (put a 11 (put b 5 (0x35000000))))
  | .vbcast d s a b => put d 18 (put s 17 (put a 11 (put b 5 (0x35000001))))
  | .vscanAddI32 d s a => put d 18 (put s 17 (put a 11 (0x35000002)))
  | .vredAddI32 d s a => put d 18 (put s 17 (put a 11 (0x35000003)))
  | .vredMaxI32 d s a => put d 18 (put s 17 (put a 11 (0x35000004)))
  | .vredMinI32 d s a => put d 18 (put s 17 (put a 11 (0x35000005)))
  | .vfroms d s a => put d 18 (put s 17 (put a 12 (0x36000000)))
  | .pcmpB d a b t => put d 21 (put a 15 (put b 9 (put t 5 (0x37000000))))
  | .pand d a b => put d 21 (put a 18 (put b 12 (0x37000001)))
  | .por d a b => put d 21 (put a 18 (put b 12 (0x37000002)))
  | .pxor d a b => put d 21 (put a 18 (put b 12 (0x37000003)))
  | .pnot d a => put d 21 (put a 18 (0x37000004))
  | .pfromcc d e => put d 21 (put e 5 (0x37000005))
  | .vaddFloat d s a b r y => put d 18 (put s 17 (put a 11 (put b 5 (put r 2 (put y 0 (0x38000000))))))
  | .vsubFloat d s a b r y => put d 18 (put s 17 (put a 11 (put b 5 (put r 2 (put y 0 (0x39000000))))))
  | .vmulFloat d s a b r y => put d 18 (put s 17 (put a 11 (put b 5 (put r 2 (put y 0 (0x3A000000))))))
  | .vfma d s a b r y => put d 18 (put s 17 (put a 11 (put b 5 (put r 2 (put y 0 (0x3B000000))))))
  | .vfms d s a b r y => put d 18 (put s 17 (put a 11 (put b 5 (put r 2 (put y 0 (0x3C000000))))))
  | .vminFloat d s a b y => put d 18 (put s 17 (put a 11 (put b 5 (put y 0 (0x3D000000)))))
  | .vmaxFloat d s a b y => put d 18 (put s 17 (put a 11 (put b 5 (put y 0 (0x3E000000)))))
  | .vcmpFloat a b y => put a 11 (put b 5 (put y 0 (0x3F000000)))
  | .vabs d s a r y => put d 18 (put s 17 (put a 11 (put r 2 (put y 0 (0x40000000)))))
  | .vneg d s a r y => put d 18 (put s 17 (put a 11 (put r 2 (put y 0 (0x40000020)))))
  | .vsqrt d s a r y => put d 18 (put s 17 (put a 11 (put r 2 (put y 0 (0x40000040)))))
  | .vrcp d s a r y => put d 18 (put s 17 (put a 11 (put r 2 (put y 0 (0x40000060)))))
  | .vrsqrt d s a r y => put d 18 (put s 17 (put a 11 (put r 2 (put y 0 (0x40000080)))))
  | .vexp2 d s a r y => put d 18 (put s 17 (put a 11 (put r 2 (put y 0 (0x400000A0)))))
  | .vlog2 d s a r y => put d 18 (put s 17 (put a 11 (put r 2 (put y 0 (0x400000C0)))))
  | .vsin d s a r y => put d 18 (put s 17 (put a 11 (put r 2 (put y 0 (0x400000E0)))))
  | .vcos d s a r y => put d 18 (put s 17 (put a 11 (put r 2 (put y 0 (0x40000100)))))
  | .vtanh d s a r y => put d 18 (put s 17 (put a 11 (put r 2 (put y 0 (0x40000120)))))
  | .vclass d s a y => put d 18 (put s 17 (put a 11 (put y 0 (0x41000000))))
  | .vcvt d s a t u r => put d 18 (put s 17 (put a 11 (put t 7 (put u 3 (put r 0 (0x42000000))))))
  | .vcvtSat d s a t u r => put d 18 (put s 17 (put a 11 (put t 7 (put u 3 (put r 0 (0x43000000))))))
  | .vpackb d s a u r t n => put d 18 (put s 17 (put a 11 (put u 7 (put r 4 (put t 3 (put n 0 (0x44000000)))))))
  | .vunpackb d s a u r n => put d 18 (put s 17 (put a 11 (put u 7 (put r 4 (put n 0 (0x45000000))))))
  | .vscale d s a b u => put d 18 (put s 17 (put a 11 (put b 5 (put u 0 (0x46000000)))))
  | .mmul d a b m k n => put d 19 (put a 14 (put b 9 (put m 6 (put k 3 (put n 0 (0x58000000))))))
  | .mtrans d a r l => put d 18 (put a 12 (put r 3 (put l 0 (0x59000000))))
  | .mchol d a r l => put d 18 (put a 12 (put r 3 (put l 0 (0x5A000000))))
  | .mlu d a r l => put d 18 (put a 12 (put r 3 (put l 0 (0x5B000000))))
  | .mtrsl d a b r l => put d 18 (put a 12 (put b 6 (put r 3 (put l 0 (0x5C000000)))))
  | .mtrsu d a b r l => put d 18 (put a 12 (put b 6 (put r 3 (put l 0 (0x5D000000)))))
  | .msolveChol d a b r l => put d 18 (put a 12 (put b 6 (put r 3 (put l 0 (0x5E000000)))))
  | .msolveLu d a b r l => put d 18 (put a 12 (put b 6 (put r 3 (put l 0 (0x5F000000)))))
  | .cbnd d v a x => put d 20 (put v 19 (put a 15 (put x 9 (0x60000000))))
  | .cbndX d v a x => put d 20 (put v 19 (put a 15 (put x 9 (0x60000001))))
  | .coff d v a x => put d 20 (put v 19 (put a 15 (put x 9 (0x60000002))))
  | .cinc d v a x => put d 20 (put v 19 (put a 15 (put x 9 (0x60000003))))
  | .cperm d v a x => put d 20 (put v 19 (put a 15 (put x 9 (0x60000004))))
  | .cseal d v a b => put d 20 (put v 19 (put a 15 (put b 5 (0x60000005))))
  | .cunseal d v a b => put d 20 (put v 19 (put a 15 (put b 5 (0x60000006))))
  | .cmov d v a w => put d 20 (put v 19 (put a 15 (put w 9 (0x60000007))))
  | .cuntag d v a x => put d 20 (put v 19 (put a 15 (put x 9 (0x60000008))))
  | .cgetBase d v a => put d 18 (put v 17 (put a 13 (0x61000000)))
  | .cgetTop d v a => put d 18 (put v 17 (put a 13 (0x61000001)))
  | .cgetPos d v a => put d 18 (put v 17 (put a 13 (0x61000002)))
  | .cgetRoom d v a => put d 18 (put v 17 (put a 13 (0x61000003)))
  | .cgetPerm d v a => put d 18 (put v 17 (put a 13 (0x61000004)))
  | .cgetType d v a => put d 18 (put v 17 (put a 13 (0x61000005)))
  | .cgetTag d v a => put d 18 (put v 17 (put a 13 (0x61000006)))
  | .cgetAddr d v a => put d 18 (put v 17 (put a 13 (0x61000007)))
  | .cgetExp d v a => put d 18 (put v 17 (put a 13 (0x61000008)))
  | .ldReg d s v k x z m => put d 18 (put s 17 (put v 16 (put k 12 (put x 6 (put z 4 (put m 0 (0x62000000)))))))
  | .ldImm d s v k i z m => put d 18 (put s 17 (put v 16 (put k 12 (put i.short 6 (put z 4 (put m 0 (0x63000000)))))))
  | .stReg d v k x z m => put d 18 (put v 16 (put k 12 (put x 6 (put z 4 (put m 0 (0x64000000))))))
  | .stImm d v k i z m => put d 18 (put v 16 (put k 12 (put i.short 6 (put z 4 (put m 0 (0x65000000))))))
  | .ldc d e v k x => put d 20 (put e 19 (put v 16 (put k 12 (put x 6 (0x66000000)))))
  | .stc d e v k x => put d 20 (put e 19 (put v 16 (put k 12 (put x 6 (0x66040000)))))
  | .ldfe d s v k x z => put d 18 (put s 17 (put v 16 (put k 12 (put x 6 (put z 4 (0x67000000))))))
  | .ldfeClr d s v k x z => put d 18 (put s 17 (put v 16 (put k 12 (put x 6 (put z 4 (0x67000004))))))
  | .stfe d v k x z => put d 18 (put v 16 (put k 12 (put x 6 (put z 4 (0x67000008)))))
  | .smap a b k => put a 19 (put b 14 (put k 10 (0x68000000)))
  | .sflush a b => put a 19 (put b 14 (0x68000001))
  | .patset p k a b => put p 22 (put k 18 (put a 13 (put b 8 (0x69000000))))
  | .redmAdd a v k x y => put a 18 (put v 16 (put k 12 (put x 6 (put y 2 (0x6A000000)))))
  | .redmMax a v k x y => put a 18 (put v 16 (put k 12 (put x 6 (put y 2 (0x6A000010)))))
  | .redmMin a v k x y => put a 18 (put v 16 (put k 12 (put x 6 (put y 2 (0x6A000020)))))
  | .amadd32 d s v k b e => put d 18 (put s 17 (put v 16 (put k 12 (put b 6 (put e 0 (0x6C000000))))))
  | .amand32 d s v k b e => put d 18 (put s 17 (put v 16 (put k 12 (put b 6 (put e 0 (0x6C000008))))))
  | .amor32 d s v k b e => put d 18 (put s 17 (put v 16 (put k 12 (put b 6 (put e 0 (0x6C000010))))))
  | .amxor32 d s v k b e => put d 18 (put s 17 (put v 16 (put k 12 (put b 6 (put e 0 (0x6C000018))))))
  | .ammaxI32 d s v k b e => put d 18 (put s 17 (put v 16 (put k 12 (put b 6 (put e 0 (0x6C000020))))))
  | .ammaxU32 d s v k b e => put d 18 (put s 17 (put v 16 (put k 12 (put b 6 (put e 0 (0x6C000028))))))
  | .amminI32 d s v k b e => put d 18 (put s 17 (put v 16 (put k 12 (put b 6 (put e 0 (0x6C000030))))))
  | .amminU32 d s v k b e => put d 18 (put s 17 (put v 16 (put k 12 (put b 6 (put e 0 (0x6C000038))))))
  | .amadd64 d s v k b e => put d 18 (put s 17 (put v 16 (put k 12 (put b 6 (put e 0 (0x6D000000))))))
  | .amand64 d s v k b e => put d 18 (put s 17 (put v 16 (put k 12 (put b 6 (put e 0 (0x6D000008))))))
  | .amor64 d s v k b e => put d 18 (put s 17 (put v 16 (put k 12 (put b 6 (put e 0 (0x6D000010))))))
  | .amxor64 d s v k b e => put d 18 (put s 17 (put v 16 (put k 12 (put b 6 (put e 0 (0x6D000018))))))
  | .ammaxI64 d s v k b e => put d 18 (put s 17 (put v 16 (put k 12 (put b 6 (put e 0 (0x6D000020))))))
  | .ammaxU64 d s v k b e => put d 18 (put s 17 (put v 16 (put k 12 (put b 6 (put e 0 (0x6D000028))))))
  | .amminI64 d s v k b e => put d 18 (put s 17 (put v 16 (put k 12 (put b 6 (put e 0 (0x6D000030))))))
  | .amminU64 d s v k b e => put d 18 (put s 17 (put v 16 (put k 12 (put b 6 (put e 0 (0x6D000038))))))
  | .amswap32 d s v k b e => put d 18 (put s 17 (put v 16 (put k 12 (put b 6 (put e 0 (0x6E000000))))))
  | .amcas32 d s v k b e => put d 18 (put s 17 (put v 16 (put k 12 (put b 6 (put e 0 (0x6E000008))))))
  | .amswap64 d s v k b e => put d 18 (put s 17 (put v 16 (put k 12 (put b 6 (put e 0 (0x6E000010))))))
  | .amcas64 d s v k b e => put d 18 (put s 17 (put v 16 (put k 12 (put b 6 (put e 0 (0x6E000018))))))
  | .amaddF32 d s v k b e => put d 18 (put s 17 (put v 16 (put k 12 (put b 6 (put e 0 (0x6E000020))))))
  | .txbeg d => put d 18 (0x6F000000)
  | .txend => 0x70000000
  | .txabort n => put n 16 (0x71000000)
  | .tacq d n => put d 19 (put n 13 (0x72000000))
  | .trel a n => put a 19 (put n 13 (0x73000000))
  | .tclaim a b => put a 19 (put b 14 (0x74000000))
  | .tmma a b d e q l z => put a 20 (put b 16 (put d 11 (put e 8 (put q 7 (put l 6 (put z 0 (0x75000000)))))))
  | .tdrain d s a => put d 18 (put s 17 (put a 12 (0x76000000)))
  | .tzero a n => put a 19 (put n 13 (0x77000000))
  | .ecopy k d e q l => put k 20 (put d 15 (put e 12 (put q 11 (put l 10 (0x78000000)))))
  | .ered k d e q l => put k 20 (put d 15 (put e 12 (put q 11 (put l 10 (0x78000001)))))
  | .ecoll k d e q l => put k 20 (put d 15 (put e 12 (put q 11 (put l 10 (0x78000002)))))
  | .esealOpen k d e q l => put k 20 (put d 15 (put e 12 (put q 11 (put l 10 (0x78000003)))))
  | .esealCommit k d e q l => put k 20 (put d 15 (put e 12 (put q 11 (put l 10 (0x78000004)))))
  | .post k a => put k 20 (put a 15 (0x79000000))
  | .done => 0x79000001
  | .cancel k a => put k 20 (put a 15 (0x79000002))
  | .ctread s => put s 19 (0x7A000000)
  | .ctarm s => put s 19 (0x7A000001)
  | .ctwait s => put s 19 (0x7A000002)
  | .ctwaitPeer s k => put s 19 (put k 14 (0x7A040002))
  | .trap n => put n 8 (0x7C000000)
  | .rett => 0x7C000001
  | .fence e t => put e 21 (put t 17 (0x7C000002))
  | .setpl a => put a 19 (0x7C000003)
  | .modeRead s r => put s 19 (put r 13 (0x7D000000))
  | .modeWrite s r => put s 19 (put r 13 (0x7D001000))
  | .clusterAssignment _ _ => 0
  | .latchRunLeave _ _ _ => 0
  | .trapEntry _ _ => 0
  | .barrierComplete _ _ => 0
  | .loadCompletion _ _ _ => 0
  | .storePlaceTaken _ _ _ => 0
  | .stashWriteback _ _ _ => 0
  | .txDurationExpiry _ _ _ => 0
  | .leasePtsAdvance _ _ => 0
  | .redmDeliveryApply _ _ _ => 0
  | .tmmaStep _ => 0
  | .tzeroPerform _ => 0
  | .tdrainPerform _ => 0
  | .trelPerform _ => 0
  | .engineSubmission _ => 0
  | .ecopyChunk _ => 0
  | .eredReduce _ => 0
  | .ecollRun _ => 0
  | .sealOpenPerform _ => 0
  | .sealCommitPerform _ => 0
  | .qnotifyWrite _ _ _ => 0
  | .queueEntryAdmit _ => 0
  | .cardRunComplete _ => 0
  | .curatorPass => 0
  | .classAgeing _ => 0
  | .makeRoomTimeout => 0
  | .carveOutChange _ => 0
  | .blockCompletion _ => 0
  | .unitCancel _ _ => 0
  | .variantSwitch _ => 0
  | .switchWaitTimeout _ _ => 0
  | .blockRetire _ => 0
  | .contextEnable _ _ _ => 0
  | .contextDisable _ _ => 0
  | .hostStopRequest _ _ => 0
  | .debugStopRequest _ _ => 0
  | .stopRelease _ _ => 0
  | .debugStep _ _ => 0
  | .cxctWrite _ _ _ => 0
  | .hostNotification _ _ => 0
  | .sliceExpiry _ => 0
  | .freezeInstant _ => 0
  | .handlerBudgetExpiry _ _ => 0
  | .saveComplete _ => 0
  | .resumeInstant _ => 0
  | .resumeLoadTimeout _ => 0
  | .arrivalDelivery _ => 0
  | .alarmFire _ _ => 0
  | .ctwaitDeadline _ _ _ => 0
  | .windowOpen _ _ => 0
  | .windowOpenAnswer _ _ _ => 0
  | .windowClose _ => 0
  | .doorbellMessage _ _ _ _ _ _ _ => 0
  | .messageRetry _ _ => 0
  | .fabricRequestCheck _ _ _ _ _ _ _ => 0
  | .flitReceive _ _ _ => 0
  | .flitReplay _ => 0
  | .creditReportSend _ => 0
  | .creditReportReceive _ _ => 0
  | .linkTraining _ _ _ => 0
  | .fnodeWrite _ _ => 0
  | .frsvWrite _ _ _ => 0
  | .biasFlip _ _ _ => 0
  | .biasFlipComplete => 0
  | .backInvalidateAnswer _ => 0
  | .hostAccess _ _ _ _ => 0
  | .tlpReceive _ _ _ => 0
  | .ideKeyProg _ _ _ => 0
  | .ideKSetGo _ _ => 0
  | .lockInterfaceRequest _ => 0
  | .startInterfaceRequest _ => 0
  | .stopInterfaceRequest _ => 0
  | .spdmRequest _ _ => 0
  | .getMeasurements _ => 0
  | .bckey _ _ => 0
  | .capabilityDerive _ _ => 0
  | .typeKeyDerive _ _ => 0
  | .keyGenerateEcdsa _ _ => 0
  | .keyGenerateMldsa _ _ => 0
  | .keyRevoke _ _ => 0
  | .handleReissue _ _ => 0
  | .waysChange _ _ _ => 0
  | .s2rootWrite _ _ _ => 0
  | .pageWalk _ _ _ => 0
  | .ringRecordRetry _ => 0
  | .fresumeWrite _ _ _ => 0
  | .invalidationStart _ _ _ => 0
  | .invalidationComplete _ => 0
  | .coreReset _ => 0
  | .patrolScrub _ _ _ => 0
  | .revocationSweepStart _ _ _ => 0
  | .groupRegisterSweep _ _ => 0
  | .sweepSwitchWaitExpiry _ _ => 0
  | .sweepGranuleCheck _ => 0
  | .repair _ _ _ _ => 0
  | .corectlWrite _ _ _ => 0
  | .replanRequest _ _ => 0
  | .wingReplan _ _ _ => 0
  | .timingErrorReplay _ => 0
  | .clockChange _ => 0
  | .pkcapAdjust _ => 0
  | .energyAccounting _ _ _ _ _ => 0
  | .fillerIssue _ _ _ => 0
  | .powerOnBoot _ => 0
  | .unitReady _ _ => 0
  | .registerWrite _ _ _ => 0
  | .trapModeBudgetExpiry _ _ => 0
  | .controlParityError _ => 0

/-- The extensions an instruction carries. -/
def extOf : Instr → Ext
  | .nop => .none
  | .sadd _ _ _ => .none
  | .ssub _ _ _ => .none
  | .sand _ _ _ => .none
  | .sor _ _ _ => .none
  | .sxor _ _ _ => .none
  | .sshl _ _ _ => .none
  | .sshr _ _ _ => .none
  | .ssra _ _ _ => .none
  | .smul _ _ _ => .none
  | .smulhI64 _ _ _ => .none
  | .smulhU64 _ _ _ => .none
  | .sminI64 _ _ _ => .none
  | .sminU64 _ _ _ => .none
  | .smaxI64 _ _ _ => .none
  | .smaxU64 _ _ _ => .none
  | .saddImm _ _ i => i.ext
  | .ssubImm _ _ i => i.ext
  | .sandImm _ _ i => i.ext
  | .sorImm _ _ i => i.ext
  | .sxorImm _ _ i => i.ext
  | .sshlImm _ _ i => i.ext
  | .sshrImm _ _ i => i.ext
  | .ssraImm _ _ i => i.ext
  | .smulImm _ _ i => i.ext
  | .smulhI64Imm _ _ i => i.ext
  | .smulhU64Imm _ _ i => i.ext
  | .sminI64Imm _ _ i => i.ext
  | .sminU64Imm _ _ i => i.ext
  | .smaxI64Imm _ _ i => i.ext
  | .smaxU64Imm _ _ i => i.ext
  | .scmpEq _ _ _ => .none
  | .scmpNe _ _ _ => .none
  | .scmpLtI64 _ _ _ => .none
  | .scmpGeI64 _ _ _ => .none
  | .scmpLtU64 _ _ _ => .none
  | .scmpGeU64 _ _ _ => .none
  | .scmpEqImm _ _ i => i.ext
  | .scmpNeImm _ _ i => i.ext
  | .scmpLtI64Imm _ _ i => i.ext
  | .scmpGeI64Imm _ _ i => i.ext
  | .scmpLtU64Imm _ _ i => i.ext
  | .scmpGeU64Imm _ _ i => i.ext
  | .smovi _ i => i.ext
  | .br _ => .none
  | .brcEq0 _ _ => .none
  | .brcNe0 _ _ => .none
  | .brcLt0 _ _ => .none
  | .brcGe0 _ _ => .none
  | .brcZ _ => .none
  | .brcNz _ => .none
  | .brcC _ => .none
  | .brcNc _ => .none
  | .call _ _ => .none
  | .ret => .none
  | .split _ _ => .none
  | .merge => .none
  | .waitc _ _ => .none
  | .bar _ => .none
  | .qbindPush _ _ => .none
  | .qbindPop _ _ => .none
  | .qbindUnbind _ => .none
  | .sstat _ _ _ => .none
  | .smaskRd _ => .none
  | .smaskWr _ => .none
  | .sflags _ _ => .none
  | .slane _ _ _ => .none
  | .vaddInt _ _ _ _ _ _ _ => .none
  | .vsubInt _ _ _ _ _ _ _ => .none
  | .vmulInt _ _ _ _ _ _ => .none
  | .vmulh _ _ _ _ _ => .none
  | .vmad _ _ _ _ _ _ => .none
  | .vminInt _ _ _ _ _ => .none
  | .vmaxInt _ _ _ _ _ => .none
  | .vabsd _ _ _ _ _ => .none
  | .vand _ _ _ _ _ _ => .none
  | .vor _ _ _ _ _ _ => .none
  | .vxor _ _ _ _ _ _ => .none
  | .vandn _ _ _ _ _ _ => .none
  | .vshl _ _ _ _ _ => .none
  | .vshr _ _ _ _ _ => .none
  | .vsra _ _ _ _ _ => .none
  | .vcmpInt _ _ _ => .none
  | .vaddx _ _ _ _ _ _ => .none
  | .vsubx _ _ _ _ _ _ => .none
  | .vselFlag _ _ _ _ _ => .none
  | .vselPred _ _ _ _ _ => .none
  | .vaddMasked _ _ _ _ _ _ => .none
  | .vsubMasked _ _ _ _ _ _ => .none
  | .vmovMasked _ _ _ _ _ => .none
  | .vaddImm _ _ i _ _ _ => i.ext
  | .vandImm _ _ i _ _ => i.ext
  | .vorImm _ _ i _ _ => i.ext
  | .vshlImm _ _ _ _ => .none
  | .vshrImm _ _ _ _ => .none
  | .vsraImm _ _ _ _ => .none
  | .vmovi _ _ i => i.ext
  | .vperm _ _ _ _ => .none
  | .vbcast _ _ _ _ => .none
  | .vscanAddI32 _ _ _ => .none
  | .vredAddI32 _ _ _ => .none
  | .vredMaxI32 _ _ _ => .none
  | .vredMinI32 _ _ _ => .none
  | .vfroms _ _ _ => .none
  | .pcmpB _ _ _ _ => .none
  | .pand _ _ _ => .none
  | .por _ _ _ => .none
  | .pxor _ _ _ => .none
  | .pnot _ _ => .none
  | .pfromcc _ _ => .none
  | .vaddFloat _ _ _ _ _ _ => .none
  | .vsubFloat _ _ _ _ _ _ => .none
  | .vmulFloat _ _ _ _ _ _ => .none
  | .vfma _ _ _ _ _ _ => .none
  | .vfms _ _ _ _ _ _ => .none
  | .vminFloat _ _ _ _ _ => .none
  | .vmaxFloat _ _ _ _ _ => .none
  | .vcmpFloat _ _ _ => .none
  | .vabs _ _ _ _ _ => .none
  | .vneg _ _ _ _ _ => .none
  | .vsqrt _ _ _ _ _ => .none
  | .vrcp _ _ _ _ _ => .none
  | .vrsqrt _ _ _ _ _ => .none
  | .vexp2 _ _ _ _ _ => .none
  | .vlog2 _ _ _ _ _ => .none
  | .vsin _ _ _ _ _ => .none
  | .vcos _ _ _ _ _ => .none
  | .vtanh _ _ _ _ _ => .none
  | .vclass _ _ _ _ => .none
  | .vcvt _ _ _ _ _ _ => .none
  | .vcvtSat _ _ _ _ _ _ => .none
  | .vpackb _ _ _ _ _ _ _ => .none
  | .vunpackb _ _ _ _ _ _ => .none
  | .vscale _ _ _ _ _ => .none
  | .mmul _ _ _ _ _ _ => .none
  | .mtrans _ _ _ _ => .none
  | .mchol _ _ _ _ => .none
  | .mlu _ _ _ _ => .none
  | .mtrsl _ _ _ _ _ => .none
  | .mtrsu _ _ _ _ _ => .none
  | .msolveChol _ _ _ _ _ => .none
  | .msolveLu _ _ _ _ _ => .none
  | .cbnd _ _ _ _ => .none
  | .cbndX _ _ _ _ => .none
  | .coff _ _ _ _ => .none
  | .cinc _ _ _ _ => .none
  | .cperm _ _ _ _ => .none
  | .cseal _ _ _ _ => .none
  | .cunseal _ _ _ _ => .none
  | .cmov _ _ _ _ => .none
  | .cuntag _ _ _ _ => .none
  | .cgetBase _ _ _ => .none
  | .cgetTop _ _ _ => .none
  | .cgetPos _ _ _ => .none
  | .cgetRoom _ _ _ => .none
  | .cgetPerm _ _ _ => .none
  | .cgetType _ _ _ => .none
  | .cgetTag _ _ _ => .none
  | .cgetAddr _ _ _ => .none
  | .cgetExp _ _ _ => .none
  | .ldReg _ _ _ _ _ _ _ => .none
  | .ldImm _ _ _ _ i _ _ => i.ext
  | .stReg _ _ _ _ _ _ => .none
  | .stImm _ _ _ i _ _ => i.ext
  | .ldc _ _ _ _ _ => .none
  | .stc _ _ _ _ _ => .none
  | .ldfe _ _ _ _ _ _ => .none
  | .ldfeClr _ _ _ _ _ _ => .none
  | .stfe _ _ _ _ _ => .none
  | .smap _ _ _ => .none
  | .sflush _ _ => .none
  | .patset _ _ _ _ => .none
  | .redmAdd _ _ _ _ _ => .none
  | .redmMax _ _ _ _ _ => .none
  | .redmMin _ _ _ _ _ => .none
  | .amadd32 _ _ _ _ _ _ => .none
  | .amand32 _ _ _ _ _ _ => .none
  | .amor32 _ _ _ _ _ _ => .none
  | .amxor32 _ _ _ _ _ _ => .none
  | .ammaxI32 _ _ _ _ _ _ => .none
  | .ammaxU32 _ _ _ _ _ _ => .none
  | .amminI32 _ _ _ _ _ _ => .none
  | .amminU32 _ _ _ _ _ _ => .none
  | .amadd64 _ _ _ _ _ _ => .none
  | .amand64 _ _ _ _ _ _ => .none
  | .amor64 _ _ _ _ _ _ => .none
  | .amxor64 _ _ _ _ _ _ => .none
  | .ammaxI64 _ _ _ _ _ _ => .none
  | .ammaxU64 _ _ _ _ _ _ => .none
  | .amminI64 _ _ _ _ _ _ => .none
  | .amminU64 _ _ _ _ _ _ => .none
  | .amswap32 _ _ _ _ _ _ => .none
  | .amcas32 _ _ _ _ _ _ => .none
  | .amswap64 _ _ _ _ _ _ => .none
  | .amcas64 _ _ _ _ _ _ => .none
  | .amaddF32 _ _ _ _ _ _ => .none
  | .txbeg _ => .none
  | .txend => .none
  | .txabort _ => .none
  | .tacq _ _ => .none
  | .trel _ _ => .none
  | .tclaim _ _ => .none
  | .tmma _ _ _ _ _ _ _ => .none
  | .tdrain _ _ _ => .none
  | .tzero _ _ => .none
  | .ecopy _ _ _ _ _ => .none
  | .ered _ _ _ _ _ => .none
  | .ecoll _ _ _ _ _ => .none
  | .esealOpen _ _ _ _ _ => .none
  | .esealCommit _ _ _ _ _ => .none
  | .post _ _ => .none
  | .done => .none
  | .cancel _ _ => .none
  | .ctread _ => .none
  | .ctarm _ => .none
  | .ctwait _ => .none
  | .ctwaitPeer _ _ => .none
  | .trap _ => .none
  | .rett => .none
  | .fence _ _ => .none
  | .setpl _ => .none
  | .modeRead _ _ => .none
  | .modeWrite _ _ => .none
  | .clusterAssignment _ _ => .none
  | .latchRunLeave _ _ _ => .none
  | .trapEntry _ _ => .none
  | .barrierComplete _ _ => .none
  | .loadCompletion _ _ _ => .none
  | .storePlaceTaken _ _ _ => .none
  | .stashWriteback _ _ _ => .none
  | .txDurationExpiry _ _ _ => .none
  | .leasePtsAdvance _ _ => .none
  | .redmDeliveryApply _ _ _ => .none
  | .tmmaStep _ => .none
  | .tzeroPerform _ => .none
  | .tdrainPerform _ => .none
  | .trelPerform _ => .none
  | .engineSubmission _ => .none
  | .ecopyChunk _ => .none
  | .eredReduce _ => .none
  | .ecollRun _ => .none
  | .sealOpenPerform _ => .none
  | .sealCommitPerform _ => .none
  | .qnotifyWrite _ _ _ => .none
  | .queueEntryAdmit _ => .none
  | .cardRunComplete _ => .none
  | .curatorPass => .none
  | .classAgeing _ => .none
  | .makeRoomTimeout => .none
  | .carveOutChange _ => .none
  | .blockCompletion _ => .none
  | .unitCancel _ _ => .none
  | .variantSwitch _ => .none
  | .switchWaitTimeout _ _ => .none
  | .blockRetire _ => .none
  | .contextEnable _ _ _ => .none
  | .contextDisable _ _ => .none
  | .hostStopRequest _ _ => .none
  | .debugStopRequest _ _ => .none
  | .stopRelease _ _ => .none
  | .debugStep _ _ => .none
  | .cxctWrite _ _ _ => .none
  | .hostNotification _ _ => .none
  | .sliceExpiry _ => .none
  | .freezeInstant _ => .none
  | .handlerBudgetExpiry _ _ => .none
  | .saveComplete _ => .none
  | .resumeInstant _ => .none
  | .resumeLoadTimeout _ => .none
  | .arrivalDelivery _ => .none
  | .alarmFire _ _ => .none
  | .ctwaitDeadline _ _ _ => .none
  | .windowOpen _ _ => .none
  | .windowOpenAnswer _ _ _ => .none
  | .windowClose _ => .none
  | .doorbellMessage _ _ _ _ _ _ _ => .none
  | .messageRetry _ _ => .none
  | .fabricRequestCheck _ _ _ _ _ _ _ => .none
  | .flitReceive _ _ _ => .none
  | .flitReplay _ => .none
  | .creditReportSend _ => .none
  | .creditReportReceive _ _ => .none
  | .linkTraining _ _ _ => .none
  | .fnodeWrite _ _ => .none
  | .frsvWrite _ _ _ => .none
  | .biasFlip _ _ _ => .none
  | .biasFlipComplete => .none
  | .backInvalidateAnswer _ => .none
  | .hostAccess _ _ _ _ => .none
  | .tlpReceive _ _ _ => .none
  | .ideKeyProg _ _ _ => .none
  | .ideKSetGo _ _ => .none
  | .lockInterfaceRequest _ => .none
  | .startInterfaceRequest _ => .none
  | .stopInterfaceRequest _ => .none
  | .spdmRequest _ _ => .none
  | .getMeasurements _ => .none
  | .bckey _ _ => .none
  | .capabilityDerive _ _ => .none
  | .typeKeyDerive _ _ => .none
  | .keyGenerateEcdsa _ _ => .none
  | .keyGenerateMldsa _ _ => .none
  | .keyRevoke _ _ => .none
  | .handleReissue _ _ => .none
  | .waysChange _ _ _ => .none
  | .s2rootWrite _ _ _ => .none
  | .pageWalk _ _ _ => .none
  | .ringRecordRetry _ => .none
  | .fresumeWrite _ _ _ => .none
  | .invalidationStart _ _ _ => .none
  | .invalidationComplete _ => .none
  | .coreReset _ => .none
  | .patrolScrub _ _ _ => .none
  | .revocationSweepStart _ _ _ => .none
  | .groupRegisterSweep _ _ => .none
  | .sweepSwitchWaitExpiry _ _ => .none
  | .sweepGranuleCheck _ => .none
  | .repair _ _ _ _ => .none
  | .corectlWrite _ _ _ => .none
  | .replanRequest _ _ => .none
  | .wingReplan _ _ _ => .none
  | .timingErrorReplay _ => .none
  | .clockChange _ => .none
  | .pkcapAdjust _ => .none
  | .energyAccounting _ _ _ _ _ => .none
  | .fillerIssue _ _ _ => .none
  | .powerOnBoot _ => .none
  | .unitReady _ _ => .none
  | .registerWrite _ _ _ => .none
  | .trapModeBudgetExpiry _ _ => .none
  | .controlParityError _ => .none

/-- The host word with its chain bit. -/
def encodeHost (c : BitVec 1) (i : Instr) : Word := BitVec.ofNat 32 (c.toNat * 2 ^ 31 + hostBits i)

/-- An extension word (R26). -/
def extWord (p : BitVec 24) : Word := BitVec.ofNat 32 (0x7E000000 + p.toNat)

/-- The words of extensions. -/
def extWords : Ext → List Word
  | .none => []
  | .one p1 => [extWord p1]
  | .two p1 p2 => [extWord p1, extWord p2]

/-- The words of an instruction. -/
def encode (c : BitVec 1) (i : Instr) : List Word := encodeHost c i :: extWords (extOf i)

/-! Packets (R21, R23 to R26, R43). -/

/-- A decoded word of a packet: its index, its chain bit and its instruction. -/
structure Slot where
  idx   : Nat
  chain : Bool
  ins   : Instr
deriving DecidableEq, Repr

/-- The word index a packet's illegality is reported at: 0 to 2 for a word, 3 for the shape (R43). -/
abbrev PacketFault := Nat

/-- An extension word by its major. -/
def isExtWord (w : Word) : Bool := (fld w 24 7).toNat == 0x7E

/-- The words of a packet from index `n`, hosts with their extensions. A bad word answers its index; a bad
extension answers its own (R26, R43). `fuel` is the number of words left. -/
def slotsFrom : Nat → Nat → List Word → Except PacketFault (List Slot)
  | 0, _, _ => .ok []
  | _, _, [] => .ok []
  | fuel + 1, n, w :: r =>
    if isExtWord w then .error n else
    let e1 := r.head?.filter isExtWord
    let e2 := if e1.isSome then (r.drop 1).head?.filter isExtWord else none
    match e1 with
    | none =>
      match decodeHost w .none with
      | .error _ => .error n
      | .ok i => (slotsFrom fuel (n + 1) r).map (⟨n, fld w 31 1 == 1, i⟩ :: ·)
    | some x1 =>
      let k := if e2.isSome then 2 else 1
      let rest := r.drop k
      let x : Ext := match e2 with
        | none => .one (fld x1 0 24)
        | some x2 => .two (fld x1 0 24) (fld x2 0 24)
      -- the host by itself, its payloads taken as zero
      if !(decodeHost w (if e2.isSome then .two 0 0 else .one 0)).toBool then
        .error (if !extMajor (fld w 24 7).toNat && (decodeHost w .none).toBool then n + 1 else n)
      else if fld w 31 1 == 1 && rest.isEmpty then .error n
      else if fld x1 31 1 == 1 then .error (n + 1)
      else if (e2.map fun x2 => fld x2 31 1 == 1).getD false then .error (n + 2)
      else match decodeHost w x with
        | .error _ => .error (n + k)
        | .ok i => (slotsFrom fuel (n + k + 1) rest).map (⟨n, fld w 31 1 == 1, i⟩ :: ·)

/-- The issue groups of a packet: a word with chain bit 1 issues with the next word (R23). -/
def groupsOf : List Slot → List (List Slot)
  | [] => []
  | s :: r =>
    match groupsOf r with
    | [] => [[s]]
    | g :: gs => if s.chain then (s :: g) :: gs else [s] :: g :: gs

/-- No number of `l` in the range occurs twice. -/
def noRepeat (lo hi : Nat) (l : List (BitVec 6)) : Bool :=
  (List.range (hi + 1 - lo)).all fun k => (l.filter fun x => x.toNat == lo + k).length ≤ 1

/-- Two words of one issue group use different pipes and write nothing in common (R25). -/
def apart (a b : Instr) : Bool :=
  pipeOf a != pipeOf b && (writesOf a).all fun r => !(writesOf b).contains r || r == .s 0

/-- Every two words of an issue group are apart. -/
def allApart : List Slot → Bool
  | [] => true
  | a :: r => (r.all fun b => apart a.ins b.ins) && allApart r

/-- The shape rules of an issue group (R25): no repeated queue or pattern code either. -/
def groupShape (g : List Slot) : Bool :=
  allApart g &&
  noRepeat 48 53 (g.flatMap fun s => srcCodes s.ins) && noRepeat 48 53 (g.flatMap fun s => dstCodes s.ins)

/-- Nothing but `nop` follows a control-transfer word (R25). -/
def controlShape : List Slot → Bool
  | [] => true
  | s :: r => (!isControl s.ins || r.all fun t => t.ins == .nop) && controlShape r

/-- The chain bit of the packet's last word is 0 (R25). -/
def lastShape (ws : List Word) : Bool := (ws.getLast?.map fun w => fld w 31 1 == 0).getD true

/-- The three words of a packet, decoded, or the index R43 reports. -/
def decodePacket (ws : List Word) : Except PacketFault (List Slot) :=
  match slotsFrom 3 0 ws with
  | .error n => .error n
  | .ok ss =>
    if lastShape ws && (groupsOf ss).all groupShape && controlShape ss then .ok ss else .error 3

/-- The run of trailing padding of R24: `nop`s with chain bit 0 after a word with chain bit 0. -/
def paddingCount (ss : List Slot) : Nat :=
  let n := (ss.reverse.takeWhile fun s => s.ins == .nop && !s.chain).length
  if n == ss.length then n - 1
  else if ((ss.reverse.drop n).head?.map fun s => s.chain).getD false then n - 1 else n

end Sys2Proof
end

