-- ==== Sys2Proof/Config.lean ====
section
/-! DEFINITION. The figures of R3, and the values the spec leaves open as constants with no body. -/
namespace Sys2Proof.Config

/-- Enabled cores (R2, R3). -/
def cores : Nat := 224
/-- Wings of seven cores (R2). -/
def wings : Nat := 32
/-- Worlds (R3). -/
def worlds : Nat := 64
/-- Context identifiers (R3). -/
def contexts : Nat := 4096
/-- Host queues (R252). -/
def queues : Nat := 131072
/-- Units (R254). -/
def units : Nat := 65536
/-- Bytes of a carve-out unit (R216). -/
def carveUnit : Nat := 262144
/-- Entries of the page-lock table (R307). -/
def lockEntries : Nat := 32768
/-- Size of local HBM in bytes (R316). -/
def hbmBytes : Nat := 0xC000000000

/-! Free values: nothing constrains them. -/

/-- A fresh word where the spec leaves a value open: applied to the counter State.nfree, or to the operands. -/
opaque freeWord : Nat → BitVec 32
/-- The bits of vrcp (R114), before they are clamped to the bound. -/
opaque rcpRaw : BitVec 32 → BitVec 32
/-- The bits of vrsqrt (R114). -/
opaque rsqrtRaw : BitVec 32 → BitVec 32
/-- The bits of vexp2 (R114). -/
opaque exp2Raw : BitVec 32 → BitVec 32
/-- The bits of vlog2 (R114). -/
opaque log2Raw : BitVec 32 → BitVec 32
/-- The bits of vsin (R114). -/
opaque sinRaw : BitVec 32 → BitVec 32
/-- The bits of vcos (R114). -/
opaque cosRaw : BitVec 32 → BitVec 32
/-- The bits of vtanh (R114). -/
opaque tanhRaw : BitVec 32 → BitVec 32
/-- SHA-384 (R190, R350): 48 bytes as a number. -/
opaque sha384 : List Byte → BitVec 384
/-- The key pair a slot generates (R347): secret, from the slot's history. -/
opaque keySecret : Nat → BitVec 384
/-- The public key of a secret: 97 bytes for ALG 0, 1952 for ALG 1 (R347). -/
opaque publicByte : BitVec 384 → Nat → Byte
/-- Byte n of a signature (R348): 96 bytes for ALG 0, 3309 for ALG 1. -/
opaque signByte : BitVec 384 → Nat → List Byte → Nat → Byte
/-- A fresh symmetric key (R341, R346). -/
opaque freshKey : Nat → BitVec 256
/-- AES-256-GCM: byte n of the key stream of a key and an IV (R333). -/
opaque gcmPad : BitVec 256 → BitVec 96 → Nat → Byte
/-- The 16 tag bytes of AES-256-GCM over a ciphertext (R333). -/
opaque gcmTag : BitVec 256 → BitVec 96 → List Byte → BitVec 128
/-- AES-256-XTS of a line: key, tweak, plaintext (R341). -/
opaque xtsLine : BitVec 256 → BitVec 48 → BitVec 512 → BitVec 512
/-- KMAC256 of a sealed line, its low 56 bits: key, ciphertext, side-band byte, physical address (R341). -/
opaque lineMac : BitVec 256 → BitVec 512 → BitVec 8 → BitVec 48 → BitVec 56
/-- The switch-point declarations that `bnld` lays out after the variant entries of an image, in a layout that the spec
does not give (R249): for the bytes there, one list of numbers per switch point. -/
opaque switchDecls : List Byte → List (List Nat)
/-- The bytes of a save slot, whose layout is the device's own (R279): from a fresh number and the offset. -/
opaque slotByte : Nat → Nat → Byte
/-- The alias-key signature over a measurement response (R351). -/
opaque aliasSign : BitVec 384 → List Byte → BitVec 768
/-- The certificates of slot 0 down to the alias key's, and the alias public key, from MREG[0] (R344, R351). -/
opaque certHead : BitVec 384 → List Byte
/-- The alias public key. -/
opaque aliasPublic : BitVec 384 → List Byte
/-- The SHA-384 that is fused for the key of the boot images (R350). -/
opaque fusedKey : BitVec 384
/-- The check of an ECDSA P-384 signature: public key, digest, signature (R350). -/
opaque ecdsaGood : List Byte → BitVec 384 → BitVec 768 → Bool
/-- The performance events of a context from a tick of the global timer to the next (R271): which events there are is not in the spec. -/
opaque perfEvents : Nat → Nat → Nat
/-- Which of the ways that its world may use a line takes in its slice (R340): by the line's number. -/
opaque wayPick : Nat → Nat

/-- The KIND that the record of a trap in trap mode holds, less one, modulo 6 (R304, R309). -/
opaque trapKind : Nat → Nat
/-- The port that leads to a node (R316). -/
opaque fabricPort : Nat → Nat

end Sys2Proof.Config
end

