-- ==== Sys2Proof/Machine/Maps.lean ====
section
/-! DEFINITION. Sparse maps in their canonical form, lane masks, and plain bit helpers. -/
namespace Sys2Proof.Machine
open Sys2Proof

/-- The value at a key, or the default. -/
def mget {α : Type} : SMap α → Nat → α → α
  | [], _, d => d
  | (k', v) :: r, k, d => if k = k' then v else mget r k d

/-- The value at a key, if one is listed. -/
def mfind {α : Type} : SMap α → Nat → Option α
  | [], _ => none
  | (k', v) :: r, k => if k = k' then some v else mfind r k

/-- The map without a key. -/
def merase {α : Type} : SMap α → Nat → SMap α
  | [], _ => []
  | (k', v) :: r, k => if k = k' then merase r k else (k', v) :: merase r k

/-- The map with a key listed. -/
def minsert {α : Type} : SMap α → Nat → α → SMap α
  | [], k, v => [(k, v)]
  | (k', v') :: r, k, v =>
    if k = k' then (k, v) :: r else if k < k' then (k, v) :: (k', v') :: r else (k', v') :: minsert r k v

/-- The map with a key at a value: a key at the default is not listed. -/
def mput {α : Type} [DecidableEq α] (m : SMap α) (k : Nat) (v d : α) : SMap α :=
  if v = d then merase m k else minsert m k v

/-- The map with a function applied at a key. -/
def mmod {α : Type} [DecidableEq α] (m : SMap α) (k : Nat) (d : α) (f : α → α) : SMap α :=
  mput m k (f (mget m k d)) d

/-- The canonical form: keys strictly rising, no entry at the default. -/
def mwf {α : Type} [DecidableEq α] (d : α) : SMap α → Bool
  | [] => true
  | [(_, v)] => v != d
  | (k, v) :: (k', v') :: r => k < k' && v != d && mwf d ((k', v') :: r)

/-- Writes at consecutive keys. -/
def mputAll {α : Type} [DecidableEq α] (m : SMap α) (k : Nat) (vs : List α) (d : α) : SMap α :=
  match vs with
  | [] => m
  | v :: r => mputAll (mput m k v d) (k + 1) r d

/-- Bit `i` of a lane mask. -/
def bit (m : LaneMask) (i : Nat) : Bool := m.getLsbD i

/-- The mask of one lane. -/
def oneLane (l : Nat) : LaneMask := BitVec.ofNat 64 (2 ^ l)

/-- The mask of the lanes below `w`. -/
def allLanes (w : Nat) : LaneMask := BitVec.ofNat 64 (2 ^ w - 1)

/-- The lanes of a mask, ascending. -/
def lanesOf (m : LaneMask) : List Nat := (List.range 64).filter fun l => bit m l

/-- The mask of a list of lanes. -/
def maskOf (ls : List Nat) : LaneMask := ls.foldl (fun m l => m ||| oneLane l) 0

/-- A mask with one lane set or cleared. -/
def putBit (m : LaneMask) (l : Nat) (b : Bool) : LaneMask :=
  if b then m ||| oneLane l else m &&& ~~~(oneLane l)

/-- A mask with the lanes of `sel` taken from `v`. -/
def mergeMask (old sel v : LaneMask) : LaneMask := (old &&& ~~~sel) ||| (v &&& sel)

/-- The lowest lane of a mask, or 0. -/
def lowest (m : LaneMask) : Nat := (lanesOf m).headD 0

/-- `n` bits from bit `lo` as a number. -/
def bits {w : Nat} (v : BitVec w) (lo n : Nat) : Nat := v.toNat / 2 ^ lo % 2 ^ n

/-- The bytes of a number, little-endian (R6). -/
def bytesLE : Nat → Nat → List Byte
  | 0, _ => []
  | n + 1, v => BitVec.ofNat 8 v :: bytesLE n (v / 256)

/-- The number of little-endian bytes. -/
def ofBytesLE : List Byte → Nat
  | [] => 0
  | b :: r => b.toNat + 256 * ofBytesLE r

/-- The ceiling of a quotient. -/
def ceilDiv (a b : Nat) : Nat := (a + b - 1) / b

/-- A number rounded up to a multiple. -/
def roundUp (a m : Nat) : Nat := ceilDiv a m * m

/-- The element of a list with one place changed. -/
def setAt {α : Type} : List α → Nat → α → List α
  | [], _, _ => []
  | _ :: r, 0, v => v :: r
  | x :: r, n + 1, v => x :: setAt r n v

/-- One place of a list changed by a function. -/
def modAt {α : Type} : List α → Nat → (α → α) → List α
  | [], _, _ => []
  | x :: r, 0, f => f x :: r
  | x :: r, n + 1, f => x :: modAt r n f

/-- Saturating increment of a counter field. -/
def satInc (top n : Nat) : Nat := if n < top then n + 1 else top

end Sys2Proof.Machine
end

