-- ==== Sys2Proof/Machine/State.lean ====
section
/-! DEFINITION. The state of the VX9, as plain data: every piece INVENTORY.md lists under State, and the state after reset. -/
namespace Sys2Proof.Machine
open Sys2Proof

/-- Why a run stops with a fault. -/
inductive Fault where
  /-- Raised by `exec` of an instruction word while no split is issuing (State.cur is none, or names a group or split
  that does not exist). The machine never issues a word of nobody, so this stop is safe. -/
  | noIssuer
deriving DecidableEq, Repr

/-- Why an instruction has no meaning here. -/
inductive Refusal where
  /-- Raised by `exec` for an instruction that this model does not give a meaning yet; safe. -/
  | notModelled (mnemonic : String)
deriving DecidableEq, Repr

/-- A capability (R121). Its reset value is the null capability. -/
structure Cap where
  tag   : Bool := false
  otype : BitVec 8 := 0
  perm  : BitVec 12 := 0
  e     : BitVec 6 := 0
  bf    : BitVec 19 := 0
  lf    : BitVec 19 := 0
  addr  : BitVec 64 := 0
deriving DecidableEq, Repr

/-- One lane mask per capability-fault kind (R132): tag, seal, perm, bounds, align, format. -/
structure KindMasks where
  tag   : LaneMask := 0
  sealed : LaneMask := 0
  perm  : LaneMask := 0
  bnd   : LaneMask := 0
  align : LaneMask := 0
  fmt   : LaneMask := 0
deriving DecidableEq, Repr

/-- The registers that an issue group reads and writes: the copy of R23 covers exactly these. -/
structure Regs where
  /-- Window registers: key 64 * physical register + lane. -/
  w    : SMap Word := []
  s    : SMap DWord := []
  k    : SMap Cap := []
  /-- c registers: key 64 * register + lane. -/
  c    : SMap Cap := []
  /-- Predicates: key 64 * register + lane. -/
  p    : SMap (BitVec 4) := []
  fC   : LaneMask := 0
  fZ   : LaneMask := 0
  fN   : LaneMask := 0
  fV   : LaneMask := 0
  fSP  : LaneMask := 0
  fFX  : LaneMask := 0
  /-- Latches, newest first, at most eight; each a map from lanes. -/
  bV   : List (SMap Word) := []
  bM   : List (SMap Word) := []
  bX   : List (SMap Word) := []
  fpm  : DWord := 1
  base : Nat := 0
deriving DecidableEq, Repr

/-- The wait counters (R80). -/
inductive Ctr where
  | ld | st | eng | mat
  /-- Spill, fill and pattern accesses are counted nowhere. -/
  | free
deriving DecidableEq, Repr

/-- What a split waits for (R92, R212). -/
inductive Wait where
  | none
  | bar (n : BitVec 4)
  | merge
  | waitc (counter : BitVec 2) (limit : BitVec 6)
  /-- `ctwait`: the deadline in context time, if there is one (R197). -/
  | ctwait (deadline : Option Nat)
  /-- `ctwait.peer`: window, context time at issue, ticks wanted, stopped ticks reported, pause standing (R198, R287). -/
  | ctpeer (win : Nat) (issue want stopped : Nat) (paused : Bool)
  /-- `fence`: scope, kinds, the words before it, and whether it has written the stash back. -/
  | fence (scope : BitVec 3) (kinds : BitVec 4) (upto : Nat) (flushed : Bool)
  /-- A push whose channel is full, or a pop whose channel is empty (R86): the word's queue codes, popped and pushed. -/
  | chan (pops pushes : List (BitVec 6))
  /-- `ldfe` on empty granules (R136): the scratchpad addresses of its lanes. -/
  | granule (offs : List Nat)
  /-- A counted word that would raise its counter to 64 (R80). -/
  | counter (c : Ctr)
  /-- Earlier memory words are not confirmed (R300). -/
  | confirm
  /-- A line waits for something outside its core (R330, R331, R373): the tick at which it was found so. -/
  | held (tick : Nat)
  /-- A stream read whose group has accesses before it that do not have their places yet (R231). -/
  | settle
  /-- An atomic of a scope wider than its group: earlier deliveries and commands are not done (R157). -/
  | order (scope : BitVec 3) (kinds : BitVec 4) (upto : Nat)
  /-- A switch point, with the cycle count of the arrival (R225). -/
  | switchPt (n : Nat) (since : Nat)
  /-- `rett` waits for the other splits of the handler (R206). -/
  | rett
deriving DecidableEq, Repr

/-- A bound stream pattern (R139, R140). -/
structure Pat where
  cap : Cap
  sa  : DWord
  sb  : DWord
  pos : Nat
deriving DecidableEq, Repr

/-- A latch run (R34 to R36). -/
structure Run where
  /-- Its first packet. -/
  start : BitVec 32
  /-- The packets executed so far, newest first. -/
  pkts  : List (BitVec 32)
  /-- The patterns as they were bound when it began. -/
  pats  : SMap Pat
  /-- Its latest packet holds a word that only the last may hold (R35). -/
  ended : Bool
  /-- Its latches are lost, and whether the next packet goes on with it is not known yet: its page is not translated. -/
  lost  : Bool := false
deriving DecidableEq, Repr

/-- A split (R74, R201, R212). -/
structure Split where
  no    : Nat := 0
  pc    : BitVec 32 := 0
  word  : Nat := 0
  /-- The packet and word after the word that is executing. -/
  nxt   : BitVec 32 × Nat := (0, 0)
  mem   : LaneMask := 0
  act   : LaneMask := 0
  wait  : Wait := .none
  run   : Option Run := none
  /-- The next packet shall read no latch: it is the first after the split formed by divergence, a merge, a trap entry or
  `rett` (R33), or an abort has sent the split there from a packet that ended its run (R35). -/
  fresh : Bool := false
  /-- Wait count of R212, and quarter cycles since the last issue (R214). -/
  rdy   : Nat := 0
  held  : Nat := 0
  /-- Its latest issue among those of its group (R213). -/
  iss   : Nat := 0
  /-- Words of the present packet that only a run's last packet may hold and that have executed (R35). -/
  did   : List Nat := []
  /-- Words of a run that are parked or have executed, by place of their packet in the run: when the run executes again
  they are not issued again (R36, R159). -/
  skip  : List (Nat × Nat) := []
  /-- Packets after which a switch point was passed over once (R225): the packet whose switch point is not to be waited at again. -/
  passed : Option (BitVec 32) := none
deriving DecidableEq, Repr

/-- The trap registers and the alarm of a group (R201). -/
structure TrapRegs where
  tvec    : DWord := 0
  trcause : DWord := 0
  trpc    : DWord := 0
  trmask  : DWord := 0
  kinds   : KindMasks := {}
  rowprog : BitVec 32 := 0
  ctal    : DWord := 0
deriving DecidableEq, Repr

/-- What `rett` restores (R202, R206). -/
structure TrapSave where
  splits : List Split
  base   : Nat
  raiser : Nat
  /-- The resume point that `trpc` received (R201): while it stands, the raising split goes on from its saved place. -/
  point  : BitVec 32 × Nat
  /-- Entered for a pre-emption (R275): `rett` completes the save. -/
  preempt : Bool
deriving DecidableEq, Repr

/-- Where a trap resumes (R204). -/
inductive Resume where
  /-- The offending packet, which had no effect. -/
  | offending
  /-- The packet the raising split would execute next. -/
  | next
  /-- A given packet and word. -/
  | at (pkt : BitVec 32) (word : Nat)
deriving DecidableEq, Repr

/-- A trap that has been raised (R204). -/
structure TrapReq where
  cause  : BitVec 8
  detail : BitVec 16 := 0
  widx   : Nat := 0
  resume : Resume := .offending
  split  : Nat := 0
  pkt    : BitVec 32 := 0
  kinds  : KindMasks := {}
  rowprog : Option (BitVec 32) := none
  /-- Raised in trap mode (R202): taking it is a double fault. -/
  inTrap : Bool := false
deriving DecidableEq, Repr

/-- A queue binding (R85). -/
structure QBind where
  push : Bool
  chan : Nat
deriving DecidableEq, Repr

/-- What one lane does to memory. -/
inductive AccOp where
  | ld
  | st (v : DWord)
  /-- `ldc`: the address capability lets a tag through (R134). -/
  | ldc (keep : Bool)
  | stc (c : Cap)
  | atom (op : AOp) (v : DWord)
  | ldfe (clr : Bool)
  | stfe (v : DWord)
  /-- A delivery of `redm` (R141). -/
  | red (op : AOp) (v : DWord)
deriving DecidableEq, Repr

/-- One lane's access (R131): lane, address space, address, bytes, format qualifier, the operation, and once it is
confirmed the physical address with whether L1 may hold the line (R300). -/
structure LaneAcc where
  lane : Nat
  spad : Bool
  va   : BitVec 64
  n    : Nat
  fmt  : BitVec 4
  op   : AccOp
  pa   : Option (Nat × Bool) := none
  /-- Its way leads over the fabric (R316): so may that to an address of this package. -/
  fab  : Bool := false
  /-- A store, atomic or delivery to another node's line: the number of its request, 0 before it is sent, and the old value once
  its directory has applied it (R317, R321). -/
  req  : Nat := 0
  ans  : Option DWord := none
deriving DecidableEq, Repr

/-- Where a load's values go (R80). -/
inductive Dest where
  | none
  /-- Physical window register, and the second of a pair. -/
  | win (p : Nat) (hi : Option Nat)
  | chan (c : Nat)
  | capC (n : Nat)
  | capK (n : Nat)
deriving DecidableEq, Repr

/-- A value that a lane's load has been given. -/
inductive Val where
  | data (v : DWord)
  | cap (c : Cap)
deriving DecidableEq, Repr

/-- Why a lane's access parks (R301, R319, R342): the record it writes. -/
structure FaultInfo where
  lane  : Nat
  va    : BitVec 64
  kind  : Nat
  level : Nat
  need  : BitVec 3
  ipa   : Nat
  /-- The record goes to world 0's buffer (R304). -/
  host  : Bool
  /-- CAUSE of an integrity record (R343); 0 for a translation fault. -/
  integ : Nat
  pa    : Nat
deriving DecidableEq, Repr

/-- An access or command of a group from its issue to its completion (R80). -/
structure Pending where
  id     : Nat
  ctr    : Ctr
  /-- The packet that issued it, and the split. -/
  pkt    : BitVec 32 := 0
  split  : Nat := 0
  /-- The index of its word in the packet. -/
  wix    : Nat := 0
  /-- A `tmma.rel` whose last operand read has not been made: the group's later stores wait for it (R240). -/
  rel    : Bool := false
  /-- A `tmma`, which a fence of kind eng waits for (R199). -/
  mma    : Bool := false
  dest   : Dest := .none
  /-- Values already fixed, by lane. -/
  vals   : SMap Val := []
  /-- Confirmed stores and accepted deliveries not yet performed, in lane order. -/
  buf    : List LaneAcc := []
  /-- Lanes not yet confirmed (R300). -/
  todo   : List LaneAcc := []
  /-- Lanes whose translation faulted: they park (R301), and the token the replay waits for. -/
  flt    : List LaneAcc := []
  token  : BitVec 32 := 0
  fault  : Option FaultInfo := none
  /-- SRC of R303. -/
  src    : BitVec 4 := 0
  /-- An address that something waits for, with no access of its own: a fetch, a spill or fill, a pattern read, a stash fill. -/
  probe  : Bool := false
  /-- The needed right of a probe: R, W, X in bits 0 to 2 (R304). -/
  need   : BitVec 3 := 0
  redm   : Bool := false
  accepted : Bool := false
  /-- An engine command whose parameter block has not been read: the group's later accesses wait for it (R334). -/
  unread : Bool := false
  /-- Issued by its group in trap mode (R309). -/
  inTrap : Bool := false
  /-- Every destination of the engine command lies on another VX9 (R233). -/
  far    : Bool := false
  /-- Stash lines that the word has still to write back: first byte of the region, line (R137, R199). -/
  lines  : List (Nat × Nat) := []
  /-- The region that it removes then. -/
  unmap  : Option Nat := none
  /-- The home time of the last delivery applied (R239), or of an engine's last data write (R240). -/
  ack    : Nat := 0
  /-- The engine command or tile word has completed; a stop may hold its drop (R274). -/
  ended  : Bool := false
deriving DecidableEq, Repr

/-- An open lane transaction (R161, R163). -/
structure Tx where
  d      : BitVec 6
  base   : Nat
  pkt    : BitVec 32
  split  : Nat
  age    : Nat
  /-- The split number that it holds in reserve (R161). -/
  rsv    : Nat
  /-- The packet of its `txbeg` is over (R161). -/
  live   : Bool
  /-- Read set: virtual lines with the physical line and the write time recorded. -/
  reads  : SMap (Nat × Nat)
  /-- Write buffer, oldest first. -/
  writes : List LaneAcc
deriving DecidableEq, Repr

/-- How far a stop or a pre-emption has taken a group (R273 to R278). -/
inductive Halt where
  | no
  /-- Halted by a stop request. -/
  | halted
  /-- Debug-stopped, one of its splits executing its step (R289). -/
  | stepping
  /-- In its pre-emption handler, with the quarter cycles left of its budget. -/
  | handler (left : Nat)
  /-- Saved. -/
  | saved
deriving DecidableEq, Repr

/-- The control state saved at the freeze instant (R275). -/
structure PreSave where
  r      : Regs
  splits : List Split
  stack  : List (BitVec 32 × Nat)
  lo     : Nat
  hi     : Nat
  qb     : SMap QBind
  pat    : SMap Pat
  ctal   : DWord
  cycQ   : Nat
  /-- Its parked words: the handler runs without them (R273). -/
  parked : List Pending
  pts    : Nat
deriving DecidableEq, Repr

/-- What the words of an issue group read: the state before the group (R23). -/
structure OldView where
  r   : Regs
  act : LaneMask
  qb  : SMap QBind
  pat : SMap Pat
  /-- The wait counters, 0 to 3. -/
  ctrs : List Nat
  /-- The outstanding words that stand before the issue group have lower numbers. -/
  upto : Nat
deriving DecidableEq, Repr

/-- A group (R68, R211, R275). -/
structure Group where
  r      : Regs := {}
  /-- The state before the issue group, while its later words run (R23). -/
  old    : Option OldView := none
  splits : List Split := []
  last   : Nat := 0
  /-- Numbers the issues of the group (R213). -/
  nextIss : Nat := 1
  stack  : List (BitVec 32 × Nat) := []
  lo     : Nat := 0
  hi     : Nat := 5
  out    : List Pending := []
  nextId : Nat := 0
  qb     : SMap QBind := []
  pat    : SMap Pat := []
  tr     : TrapRegs := {}
  tmode  : Option TrapSave := none
  heldAlarm : Bool := false
  pend   : Option TrapReq := none
  /-- Traps raised while another is to be taken, in order. -/
  later  : List TrapReq := []
  az     : Bool := false
  band   : Option (Nat × Nat) := none
  cycQ   : Nat := 0
  /-- Quarter cycles until the clusters that it issued on are free (R213); cycQ has counted them. -/
  busy   : Nat := 0
  pts    : Nat := 0
  /-- Quarter cycles since pts last rose (R236), and since a stop request (R273). -/
  ptsIdle : Nat := 0
  reqQ   : Nat := 0
  /-- Largest times of its acknowledged `redm` deliveries and of its completed engine commands and `tmma` (R239, R240). -/
  redAck : Nat := 0
  engAck : Nat := 0
  /-- The same of those whose destinations lie on other VX9s (R233). -/
  redFar : Nat := 0
  engFar : Nat := 0
  /-- Time of the last operand read of the group's `tmma.rel` words: its stores take later ones (R240). -/
  relTop : Nat := 0
  tx     : SMap Tx := []
  spill  : Cap := {}
  halt   : Halt := .no
  /-- Control state saved at the freeze instant (R275). -/
  pre    : Option PreSave := none
  quarter : Nat := 0
  cluster : Nat := 0
  /-- A register sweep is due at the next switch point or boundary, since this tick (R360). -/
  sweepDue : Option Nat := none
deriving DecidableEq, Repr

/-- A variant's declarations (R223, R249). -/
structure Variant where
  entry : BitVec 32 := 0
  p     : Nat := 48
  d     : Nat := 0
  g     : Nat := 1
  b     : Nat := 0
  q     : Nat := 0
  spad  : Nat := 0
  frame : Nat := 0
deriving DecidableEq, Repr

/-- A switch point of an image (R223): number, packet in each variant, register counts, ranges. -/
structure SwitchPt where
  n     : Nat
  pkts  : List (BitVec 32)
  nw    : Nat
  ns    : Nat
  nk    : Nat
  scratch : List (Nat × Nat)
  acc   : Option (Nat × Nat)
deriving DecidableEq, Repr

/-- A block's scratchpad (R136, R216). -/
structure Spad where
  size  : Nat := 0
  /-- First byte in the core's local array. -/
  at0   : Nat := 0
  bytes : SMap Byte := []
  /-- Per 16-byte granule. -/
  tags  : SMap Bool := []
  full  : SMap Bool := []
  /-- Per 64-byte sector: format code. -/
  fmt   : SMap (BitVec 4) := []
  /-- Per 64-byte line: wts, rts (R234). -/
  lines : SMap (Nat × Nat) := []
deriving DecidableEq, Repr

/-- A place in a channel that a group holds: a load's reservation, not filled yet, or an entry pushed after one (R86). -/
structure Hold where
  gix : Nat
  id  : Nat
  val : Option (SMap Word × Nat)
deriving DecidableEq, Repr

/-- A queue channel: entries oldest first, each the lanes' values and the pusher's time (R84, R237), and the places
held behind loads that have not completed. -/
structure Chan where
  ents : List (SMap Word × Nat) := []
  hold : List Hold := []
deriving DecidableEq, Repr

/-- The fill of a stash line (R138): its lease end and write time, and the physical line it came from. -/
structure Filled where
  lease : Nat
  wts   : Nat
  pa    : Nat
  /-- Written back since: the next read fills it again (R241). -/
  stale : Bool := false
  /-- It came over the fabric (R316). -/
  fab   : Bool := false
deriving DecidableEq, Repr

/-- A stash region (R137, R138). -/
structure Stash where
  at0   : Nat
  len   : Nat
  cap   : Cap
  /-- Filled lines, by number in the region. -/
  fill  : SMap Filled
  /-- Dirty bytes by offset in the region, with one more than the group that stored each. -/
  dirty : SMap Nat
deriving DecidableEq, Repr

/-- A tile word at the sequencer (R177). -/
inductive TileOp where
  | tmma (gix id : Nat) (pkt : BitVec 32) (ka kb : Cap) (d0 d1 : DWord) (z acq rel : Bool) (pts : Nat) (step : Nat)
      (fa fb : Option (BitVec 4)) (token : BitVec 32)
  | tzero (gix id : Nat) (first count : Nat)
  | tdrain (gix id : Nat) (lanes : List (Nat × Nat)) (row : Nat) (zeros : LaneMask)
  | trel (first count : Nat)
  /-- The zeroing that an acquisition makes before any later tile word (R172). -/
  | fresh (first count : Nat)
deriving DecidableEq, Repr

/-- Where a block stands (R225 to R228, R277 to R281). -/
inductive Life where
  | resident
  /-- Its frame is being written (R227). -/
  | framing
  /-- Retired, its frame whole, waiting for re-dispatch. -/
  | retired
  /-- Saved in its slot. -/
  | saved
  /-- Loaded again, not yet issuing. -/
  | loaded
deriving DecidableEq, Repr

/-- A tile task on its core (R260): its command, and once a step has ended it the STATUS code and INFO. -/
structure Task where
  cmd  : Nat
  code : Nat := 0
  info : Nat := 0
  /-- Steps performed. -/
  steps : Nat := 0
deriving DecidableEq, Repr

/-- A block (R211, R223). -/
structure Block where
  card   : Nat := 0
  ctx    : Nat := 0
  world  : Nat := 0
  core   : Nat := 0
  bix    : BitVec 32 := 0
  width  : Nat := 16
  vix    : Nat := 0
  v      : Variant := {}
  variants : List Variant := []
  points : List SwitchPt := []
  /-- The kernel image's code capability and the address of packet 0 (R249). -/
  image  : Cap := {}
  code   : BitVec 64 := 0
  frameCap : Cap := {}
  spillCap : Cap := {}
  groups : List Group := []
  spad   : Spad := {}
  chans  : SMap Chan := []
  acq    : BitVec 64 := 0
  /-- Accumulator: key 128 * row + column. -/
  acc    : SMap Word := []
  tiles  : List TileOp := []
  stash  : List Stash := []
  swReq  : Bool := false
  frame  : Option Nat := none
  frameSlot : Nat := 0
  /-- Offset and length of the save slot in SAVE (R279). -/
  slot   : Nat × Nat := (0, 0)
  /-- Offsets of its groups' slices in the launch's spill capability (R210). -/
  spills : List Nat := []
  seq    : Nat := 0
  life   : Life := .resident
  /-- Banks parked on a shadow side of this core (R280). -/
  shadow : Option Nat := none
  /-- Scratchpad bytes kept by the handlers (R277). -/
  keep   : Nat := 0
  /-- The contents of its channels at the freeze instant, while its handlers run (R275). -/
  preChans : Option (SMap Chan) := none
  /-- Class at dispatch (R261). -/
  cls    : Nat := 0
  /-- Groups that ended before a variant switch (R227). -/
  ended  : BitVec 16 := 0
  /-- Largest released time its groups may not fall below (R235, R238). -/
  pts0   : Nat := 0
  /-- Largest time of its stash write-backs (R193, R238). -/
  wbTop  : Nat := 0
  /-- A write of its frame or save slot waits on a translation fault: the token (R228, R303). -/
  wtok   : BitVec 32 := 0
  /-- A tile task stands on its core as a block of no groups, with the banks that it borrows (R260). -/
  task   : Option Task := none
deriving DecidableEq, Repr

/-- A copy of a line in an L1 (R234, R293): holder, context and virtual line, with the physical line it came from. -/
structure Copy where
  core : Nat
  ctx  : Nat
  va   : Nat
  pa   : Nat
  data : LineData
  side : BitVec 8
  wts  : Nat
  rts  : Nat
  /-- It came over the fabric (R316). -/
  fab  : Bool := false
  /-- The way of its L2 slice that holds the line (R340). -/
  way  : Nat := 0
deriving DecidableEq, Repr

/-- An MTLB entry (R295): context, first virtual byte of the effective page, its size, physical and intermediate
address, the rights of each stage (R, W, X in bits 0 to 2) with the levels of their leaves, SH, MS. -/
structure Tlb where
  ctx  : Nat
  va   : Nat
  size : Nat
  pa   : Nat
  ipa  : Nat
  s1   : BitVec 3
  s2   : BitVec 3
  lv1  : Nat
  lv2  : Nat
  sh   : Bool
  ms   : Bool
deriving DecidableEq, Repr

/-- A page-lock entry (R306, R307). -/
structure Lock where
  ctx  : Nat
  va   : Nat
  size : Nat
  pa   : Nat
  pins : Nat
deriving DecidableEq, Repr

/-- A bias flip in progress (R331). -/
structure Bflip where
  busy  : Bool := false
  host  : Bool := false
  page  : Nat := 0
  len   : BitVec 32 := 0
  /-- Lines of a flip to device bias whose snoop has been answered. -/
  done  : SMap Bool := []
deriving DecidableEq, Repr

/-- What the host reads of a byte that a group has written (R242): who wrote it, by the kind of a fence that makes it
visible (0 ld, as value-returning atomics, 1 st, 2 redm), and the byte as it was before. -/
structure Hidden where
  blk  : Nat
  gix  : Nat
  kind : Nat
  old  : Byte
deriving DecidableEq, Repr

/-- Memory and what stands between it and the cores. -/
structure MemSys where
  bytes  : List Host.Cell := []
  /-- Side-band byte per 64-byte sector (R61). -/
  side   : SMap (BitVec 8) := []
  /-- wts, rts per line at its home (R234). -/
  lines  : SMap (Nat × Nat) := []
  copies : List Copy := []
  mtlb   : List Tlb := []
  locks  : List Lock := []
  token  : BitVec 32 := 1
  /-- Pages in host bias (R330). -/
  bias   : SMap Bool := []
  bflip  : Bflip := {}
  /-- Lines of host-bias pages whose snoop the host has still to answer, and those that it has answered for the access that
  waits (R330): 1 BISnpData, 2 BISnpInv. -/
  asked  : SMap Nat := []
  snooped : SMap Nat := []
  /-- Lines of other nodes that have arrived for the access that waits (R317): 0, or the cause of an integrity failure (R342). -/
  got    : SMap Nat := []
  /-- Sectors with an uncorrectable error (R354). -/
  bad    : SMap Bool := []
  /-- Sealed lines: world and key epoch + 1 (R341). -/
  sealed : SMap (Nat × Nat) := []
  /-- Protected regions: BASE, SIZE, MACBASE (R341). -/
  pregs  : SMap (DWord × DWord × DWord) := []
  /-- Sealed lines whose MAC slot another party has written since: it holds what `bytes` says (R341). -/
  macs   : SMap Bool := []
  /-- What sealed lines held before: world and key epoch, line, side-band byte (R341). -/
  past   : SMap (List ((Nat × Nat) × LineData × BitVec 8)) := []
  /-- Writes of groups that no fence at system scope has made visible to the host, oldest first, by byte (R242). -/
  hidden : SMap (List Hidden) := []
  /-- Largest time of a host store (R238, R242). -/
  hostTop : Nat := 0
deriving DecidableEq, Repr

/-- An engine (R184). -/
inductive EngKind where
  | copy | red | coll | sealOpen | sealCommit
  /-- A tile task (R260). -/
  | tile
deriving DecidableEq, Repr

/-- A team table as the engine has read it (R324): ranks, own rank, a field out of range, each rank's source and destination. -/
structure Team where
  nrank : Nat
  rank  : Nat
  bad   : Bool
  caps  : List (Cap × Cap)
deriving DecidableEq, Repr

/-- What a rank of a collective has issued (R189, R324): NRANK of its table, KIND, ROOT, LEN. -/
structure Join where
  nrank : Nat
  kind  : Nat
  root  : Nat
  len   : Nat
deriving DecidableEq, Repr

/-- An engine command (R184 to R191). -/
structure EngCmd where
  id      : Nat
  kind    : EngKind
  ctx     : Nat
  world   : Nat
  /-- The issuing block and group, unless a card submitted it. -/
  who     : Option (Nat × Nat)
  /-- Its entry among the group's outstanding words. -/
  pid     : Nat := 0
  card    : Option Nat
  ticket  : BitVec 32
  pblock  : Cap
  scope   : BitVec 3
  acq     : Bool
  rel     : Bool
  /-- The issuing group's time at issue (R240), and its CT (R190). -/
  ipts    : Nat
  ict     : Nat
  /-- The parameter block has been read (R334). -/
  got     : Bool := false
  submitted : Bool := false
  ctl     : DWord := 0
  slots   : List Cap := []
  /-- PROGRESS as of the latest boundary (R191), and how far it is: bytes of a copy, elements of a reduction. -/
  prog    : Nat := 0
  pos     : Nat := 0
  /-- The team of a collective, read at submission, and the other ranks that have joined it (R189, R324). -/
  team    : Option Team := none
  joins   : SMap Join := []
  /-- Its locked pages: virtual address, size, physical address (R306). -/
  locked  : List (Nat × Nat × Nat) := []
  /-- First bounce counter of the command (R333). -/
  c0      : Option Nat := none
  /-- A sealed copy: its channel, device to host, and the host buffer (R333). -/
  bounce  : Option (BitVec 4 × Bool × Cap) := none
  token   : BitVec 32 := 0
  cancelled : Bool := false
  /-- Stopped with its context; resubmitted at resume (R191, R274). -/
  stopped : Bool := false
  /-- Largest time of its data writes (R240). -/
  wpts    : Nat := 0
  /-- The image of the producing kernel, where an `eseal.open` is to measure it (R348). -/
  image   : Option Cap := none
deriving DecidableEq, Repr

/-- The measurement of an image of a context, by base and length, which Hallmark keeps (R348). -/
structure Measure where
  ctx  : Nat
  base : Nat
  len  : Nat
  hash : BitVec 384
deriving DecidableEq, Repr

/-- A rank of a collective, by its context, that has ended with 0x07, and the contexts of the ranks that have met it (R324). -/
structure RankFail where
  ctx  : Nat
  told : List Nat
deriving DecidableEq, Repr

/-- An open seal (R190, R349). -/
structure Seal where
  ctx    : Nat
  world  : Nat
  /-- The issuing block, its group, and the bytes of its scratchpad. -/
  blk    : Option Nat
  gix    : Nat := 0
  limit  : Nat := 0
  slot   : Nat
  gen    : BitVec 32
  seq    : BitVec 32
  alg    : BitVec 8
  handle : BitVec 64
  pblock : BitVec 64
  record : Cap
  measure : BitVec 384
  secret : BitVec 384
  /-- Voided with this reason at this context time: its record is still to be written. -/
  void   : Option (Nat × Nat) := none
deriving DecidableEq, Repr

/-- The engines. -/
structure Engines where
  cmds  : List EngCmd := []
  seals : List Seal := []
  nextId : Nat := 0
  /-- Logical time of each engine, keyed by kind and number (R240). -/
  pts   : SMap Nat := []
  measures : List Measure := []
  fails : List RankFail := []
deriving DecidableEq, Repr

/-- A host queue (R252). -/
structure Queue where
  en     : Bool := false
  world  : Nat := 0
  pmax   : Nat := 0
  log2n  : Nat := 4
  head   : BitVec 32 := 0
  tail   : BitVec 32 := 0
  arena  : Cap := {}
  ring   : Cap := {}
  refused : Nat := 0
  lasterr : BitVec 8 := 0
deriving DecidableEq, Repr

/-- A unit (R254). -/
structure UnitSt where
  en     : Bool := false
  canc   : Bool := false
  level  : Nat := 0
  irq    : Bool := false
  world  : Nat := 0
  parent : BitVec 16 := 0xFFFF
  expect : BitVec 32 := 0
  done   : BitVec 32 := 0
  cancd  : BitVec 32 := 0
deriving DecidableEq, Repr

/-- A card from its post to the completion of its run (R255 to R258), keyed by the physical address of its record. -/
structure CardRun where
  /-- The virtual address of the record and the capability that reached it. -/
  cap    : Cap
  /-- Word 1 as the Curator keeps it (R257), and a post that waits for this run to complete: its released time and the PMAX
  of its queue (R238, R253, R255). -/
  w1     : DWord := 0
  next2  : Nat × Option Nat := (0, none)
  ctx    : Nat
  world  : Nat
  kind   : Nat
  unit   : BitVec 16
  arg    : BitVec 24
  base   : Nat
  cls    : Nat
  /-- Global tick of the last event of R258. -/
  since  : Nat
  /-- Its place among the cards that have become ready (R258). -/
  seq    : Nat
  run    : Cap
  succ   : Cap
  ops    : Cap
  target : BitVec 16
  ready  : Bool
  /-- Next block index, blocks counted done and cancelled, blocks returned to the pool. -/
  next   : Nat
  doneN  : Nat
  cancN  : Nat
  started : Bool
  lastCore : Nat
  /-- Contexts of posting groups, for KIND 2 arrivals (R283). -/
  posters : List Nat
  /-- Largest released time of predecessors and of the post (R238), and the largest that this run releases. -/
  pts    : Nat
  outPts : Nat
  /-- Set when the engine or join run has its outcome: done or not. -/
  result : Option Bool
deriving DecidableEq, Repr

/-- A core that make_room has reserved (R261): for an instance of a card, of a class, since a tick; pre-emption has
been asked for. -/
structure Reserve where
  core  : Nat
  cls   : Nat
  card  : Nat
  bix   : Nat
  since : Nat
  asked : Bool := false
  /-- What the instance takes of the core: its variant and width, and where its groups and scratchpad would stand. -/
  v      : Variant := {}
  width  : Nat := 16
  places : List (Nat × Nat) := []
  at0    : Nat := 0
deriving DecidableEq, Repr

/-- The Curator's own state (R258, R261). -/
structure Curator where
  queues : SMap Queue := []
  units  : SMap UnitSt := []
  runs   : SMap CardRun := []
  /-- Deficits: key 64 * class + world. -/
  defs   : SMap Nat := []
  rr     : SMap Nat := []
  /-- Cores reserved by make_room (R261). -/
  reserve : List Reserve := []
  nextSeq : Nat := 0
  /-- Tick of a pass that placed nothing, while no instance has become ready and no block has left a core since (R258). -/
  idleAt : Option Nat := none
  nextBlk : Nat := 0
  /-- Released times of predecessors that completed before a card was posted, by card (R238). -/
  rels   : SMap Nat := []
deriving DecidableEq, Repr

/-- An arrival (R282, R283). -/
structure Arrival where
  kind : BitVec 8
  src  : BitVec 12
  data : BitVec 32
  /-- The window that carried a notice or has closed (R286, R288). -/
  win  : Option Nat := none
  /-- The ticks of the stop, unsaturated, that a resume notice reports (R287). -/
  delta : Nat := 0
deriving DecidableEq, Repr

/-- A completion held while its context is stopped (R274). -/
inductive Held where
  | cmd (blk gix id : Nat)
  | tile (blk gix id : Nat)
  | block (blk : Nat)
deriving DecidableEq, Repr

/-- The revocation block of a context (R358). -/
structure Rv where
  busy   : Bool := false
  phase  : Nat := 0
  narea  : BitVec 4 := 0
  err    : Nat := 0
  ndone  : BitVec 32 := 0
  cur    : BitVec 64 := 0
  /-- Area being swept. -/
  area   : Nat := 0
  base   : BitVec 64 := 0
  cleared : BitVec 32 := 0
  count  : BitVec 32 := 0
  map    : Cap := {}
  areas  : List Cap := [{}, {}, {}, {}]
  /-- Engine commands submitted before GO that the sweep waits for (R359). -/
  waits  : List Nat := []
deriving DecidableEq, Repr

/-- A context (R266 to R269). -/
structure Ctx where
  en      : Bool := false
  world   : Nat := 0
  /-- A host stop is in force. -/
  stop    : Bool := false
  dbg     : Bool := false
  st      : Nat := 0
  cause   : Nat := 0
  /-- The frozen value F (R269). -/
  f       : Nat := 0
  /-- CXCT was written while the context was stopped (R269). -/
  fset    : Bool := false
  /-- Enabled and not resumed yet (R268, R310). -/
  fresh   : Bool := false
  /-- What the save area of a moved context holds has been taken over (R290). -/
  restored : Bool := false
  stopped : Nat := 0
  base    : Int := 0
  slice   : BitVec 32 := 0
  sliceAt : Option Nat := none
  /-- Global tick of the freeze instant and of the stop request. -/
  tf      : Nat := 0
  reqAt   : Nat := 0
  loadAt  : Option Nat := none
  save    : Cap := {}
  evring  : Cap := {}
  s1      : DWord := 0
  aq      : List Arrival := []
  /-- Arrivals that wait at their sources for room in the queue, oldest first (R284). -/
  waiting : List Arrival := []
  pause   : BitVec 32 := 0
  /-- A pause notice has been sent for the present stop (R286). -/
  paused  : Bool := false
  /-- Windows of this package that are open to this context: their holders are its peers (R286, R322). -/
  peers   : List Nat := []
  /-- Windows of other nodes that are open to this context: node, number there (R286, R322). -/
  rpeers  : List (Nat × Nat) := []
  held    : List Held := []
  tickets : SMap (BitVec 32) := []
  plreq   : BitVec 3 := 0
  rv      : Rv := {}
  xmtf    : DWord := 0
  xmpn    : DWord := 0
  ectx    : BitVec 64 := 0
  /-- The performance event counters kept for the context, as one number: the spec gives no events, number or width of them (R271). -/
  perf    : Nat := 0
  /-- FRESUME tokens kept while stopped (R303). -/
  keptTok : List (BitVec 32) := []
  /-- Splits that a debug step has still to execute: block, group, split (R289). -/
  steps   : List (Nat × Nat × Nat) := []
deriving DecidableEq, Repr

/-- The TDISP states (R336). -/
inductive Tdisp where
  | unlocked | locked | run | error
deriving DecidableEq, Repr

/-- A key slot (R347). -/
structure KeySlot where
  alg    : Option (BitVec 8) := none
  secret : BitVec 384 := 0
  gen    : BitVec 32 := 0
  seq    : Nat := 0
deriving DecidableEq, Repr

/-- A bounce channel (R332). -/
structure Bounce where
  opened : Bool := false
  inCtr  : Nat := 0
  outCtr : Nat := 0
  key    : BitVec 256 := 0
deriving DecidableEq, Repr

/-- The trust block of a world (R339). -/
structure Trust where
  cdctl  : DWord := 0
  cdbase : DWord := 0
  cdlen  : DWord := 0
  cdaddr : DWord := 0
  cddst  : DWord := 0
  /-- A derivation whose store waits: the capability, the context and address of its destination, and the token of a
  translation fault, or 0. -/
  cdWait : Option (Cap × Nat × Nat × BitVec 32) := none
  /-- The world's capability root (R339). -/
  root   : Cap := { tag := true, perm := 0x19F, e := 39, lf := 0x40000 }
  ways   : BitVec 24 := 0
  intring : Cap := {}
  keycmd : DWord := 0
  keydst : DWord := 0
  intfail : BitVec 32 := 0
  keys   : SMap KeySlot := []
  bch    : SMap Bounce := []
  /-- Data and MAC keys, and how often the world has been locked. -/
  dataKey : BitVec 256 := 0
  macKey  : BitVec 256 := 0
  epoch  : Nat := 0
  ide    : SMap (BitVec 256) := []
  ideActive : Option Nat := none
  ideOn  : Bool := false
  session : Bool := false
  /-- A KEY_EXCHANGE has been answered and its FINISH has not come. -/
  shaking : Bool := false
  /-- The SPDM session that locked the world. -/
  lockSession : Bool := false
deriving DecidableEq, Repr

/-- A world (R253, R267, R297, R336, R367, R369). -/
structure World where
  weight : Nat := 1
  maxp   : Nat := 0
  capblk : Nat := 0
  wingset : BitVec 32 := 0
  budget : Nat := 1700
  defpl  : BitVec 3 := 5
  maxpl  : BitVec 3 := 7
  s2en   : Bool := false
  s2root : BitVec 36 := 0
  fbuf   : Cap := {}
  refused : Nat := 0
  invaddr : BitVec 45 := 0
  invctl : DWord := 0
  /-- INVADDR as it stood when the invalidation that goes on was started (R298). -/
  invat  : BitVec 45 := 0
  tdisp  : Tdisp := .unlocked
  t      : Trust := {}
  /-- Interrupts raised: completion, fault, revocation, error. -/
  irqs   : List Nat := [0, 0, 0, 0]
  econs  : BitVec 64 := 0
  efill  : BitVec 64 := 0
  ecred  : BitVec 64 := 0
  /-- Credit that does not make up 1 µJ yet, in pJ (R371). -/
  creditPj : Nat := 0
  frsv   : Nat := 8
deriving DecidableEq, Repr

/-- A fabric window (R322). -/
structure Window where
  en     : Bool := false
  opened : Bool := false
  refused : Bool := false
  world  : Nat := 0
  ctx    : Nat := 0
  node   : Nat := 0
  rworld : Nat := 0
  rctx   : Nat := 0
  va     : BitVec 45 := 0
  npages : BitVec 32 := 0
  /-- A pause notice stands without its resume notice (R287). -/
  paused : Bool := false
deriving DecidableEq, Repr

/-- A message on its way from a doorbell page (R323). -/
structure Msg where
  id    : Nat
  blk   : Nat
  gix   : Nat
  pid   : Nat
  win   : Nat
  data  : BitVec 32
  /-- Ticks until it is offered again, and the tick of the last offer. -/
  delay : Nat
  since : Nat
  /-- Offered to a target on another node, whose answer has not come. -/
  sent  : Bool := false
deriving DecidableEq, Repr

/-- An access-table entry of the port that leads to node `tnode` (R319): source node and world, target world, range,
rights R W A M in bits 0 to 3. -/
structure AccessEntry where
  tnode  : Nat
  node   : Nat
  world  : Nat
  tworld : Nat
  lo     : Nat
  len    : Nat
  rights : BitVec 4
deriving DecidableEq, Repr

/-- A fabric port (R326 to R328). -/
structure Port where
  trained : Bool := false
  /-- The peer's announced slots and reserves. -/
  peerSlots : Nat := 0
  peerRsv : SMap Nat := []
  /-- Our reserves as announced at the last training. -/
  rsv    : SMap Nat := []
  sent   : BitVec 32 := 0
  sentW  : SMap (BitVec 32) := []
  freed  : BitVec 32 := 0
  freedW : SMap (BitVec 32) := []
  rcvd   : BitVec 32 := 0
  /-- From the latest report received. -/
  pFreed : BitVec 32 := 0
  pFreedW : SMap (BitVec 32) := []
  pRcvd  : BitVec 32 := 0
  /-- Flits that wait to be sent, oldest first. -/
  queue  : List Flit := []
  /-- Flits sent and not yet known received, oldest first. -/
  held   : List Flit := []
  nextSeq : BitVec 32 := 0
  /-- A bad code was seen: flits are discarded until RCVD. -/
  gap    : Bool := false
  /-- First world of the next report. -/
  turn   : Nat := 0
deriving DecidableEq, Repr

/-- The fabric side of the package. -/
structure Fabric where
  node    : BitVec 7 := 0
  nodeSet : Bool := false
  exports : SMap (Bool × BitVec 36 × BitVec 32) := []
  access  : List AccessEntry := []
  wins    : SMap Window := []
  msgs    : List Msg := []
  nextMsg : Nat := 0
  /-- Requests to other nodes that have not been answered (R317): number, address as this package names it, what was asked. -/
  asks    : List (Nat × Nat × FabOp) := []
  nextAsk : Nat := 1
  ports   : SMap Port := []
deriving DecidableEq, Repr

/-- A core (R216, R354, R363). -/
structure CoreSt where
  drain   : Bool := false
  offline : Bool := false
  spared  : Bool := false
  cerr    : Nat := 0
  carve   : Nat := 1
  /-- A carve-out being changed to (R217). -/
  carveTo : Option Nat := none
  resetting : Bool := false
  /-- Logical time of the macro-sequencer (R240). -/
  seqPts : Nat := 0
deriving DecidableEq, Repr

/-- A wing (R364 to R366, R368). -/
structure Wing where
  replan  : Bool := false
  replans : Nat := 0
  /-- Ticks of the timing replays in the latest 1 ms. -/
  replays : List Nat := []
  /-- Tick since which the wing has held no block, if it holds none; ticks of the last re-plan and of its end. -/
  emptyAt : Option Nat := some 0
  planAt  : Nat := 0
  planEnd : Nat := 0
  margin  : BitVec 8 := 0
  agecap  : Nat := 7
  pl      : Nat := 0
  plNext  : Nat := 0
  /-- Quarter cycles of the present tick, and of the present cycle, that have passed. -/
  sub     : Nat := 0
  phase   : Nat := 0
deriving DecidableEq, Repr

/-- Repair state of a die (R363). -/
structure Repair where
  lcore  : Nat := 0
  spares : BitVec 4 := 0xF
  code   : Nat := 0
  /-- Spare by logical core, as Holdar's table records it. -/
  table  : SMap Nat := []
deriving DecidableEq, Repr

/-- A record of ERRRING in the making (R356): words 0 and 1, the tick of the first event, the events merged. -/
structure Merge where
  w0 : DWord
  pa : Nat
  at0 : Nat
  count : Nat
deriving DecidableEq, Repr

/-- The management complex (R350, R356, R363 to R368, R372). -/
structure Holdar where
  cores   : SMap CoreSt := []
  wings   : SMap Wing := []
  repair  : SMap Repair := []
  pkcap   : Nat := 7
  plim    : Nat := 3000
  ready   : BitVec 64 := 0
  wready  : BitVec 32 := 0
  pready  : BitVec 32 := 0
  mreg    : SMap (BitVec 384) := []
  bootFail : Bool := false
  /-- The boot chain has been run (R350). -/
  booted : Bool := false
  /-- Virtual functions have appeared: SR-IOV is enabled (R373). -/
  sriov  : Bool := false
  /-- Tick since which the averaged power has stayed below 95 % of WATTS (R368). -/
  lowAt  : Option Nat := none
  minver  : Nat := 0
  errring : Cap := {}
  merges  : List Merge := []
deriving DecidableEq, Repr

/-- A record that waits for room in its ring (R305): which ring, its words, its back-off in cycles. -/
structure RingRec where
  id    : Nat
  /-- 0 FBUF, 1 INTRING, 2 ERRRING. -/
  ring  : Nat
  world : Nat
  words : List DWord
  delay : Nat
  /-- Tick of the last offer. -/
  since : Nat
  /-- The wing whose clock counts the back-off, where a core offers the record. -/
  wing  : Option Nat := none
deriving DecidableEq, Repr

/-- An error in an array of the package (R353, R354). The units are those of R356: 2 memory-side cache, 3 L2 slice, 4 core arrays. -/
inductive SoftErr where
  /-- Its code corrected it: unit, index, physical address. -/
  | corrected (unit index pa : Nat)
  /-- In a clean line of the memory-side cache, an L2 slice or an L1. -/
  | clean (unit index pa : Nat)
  /-- In a clean line of a stash: block, first byte of the region, line. -/
  | cleanStash (blk at0 line : Nat)
  /-- In a dirty line of an L2 slice, an L1 or a stash, which bears the tag of a context. -/
  | dirty (unit index ctx pa : Nat)
  /-- In an array of a core: 0 scratchpad, 1 accumulator memory, 2 queue channels. -/
  | array (core which : Nat)
  /-- In a register of a group. -/
  | regs (blk gix : Nat)
deriving DecidableEq, Repr

/-- An outside input or autonomous event still to happen (model's own). -/
inductive Stimulus where
  | op (i : Instr)
  | ticks (n : Nat)
  /-- A pause or resume notice that the hub of a window's target sends (R286): the number of the stop, and the ticks stopped. -/
  | notice (win : Nat) (resume : Bool) (num ticks : Nat)
  /-- A rank of another package has issued its part of a collective (R189, R324): the command here, the rank. -/
  | join (cmd rank : Nat) (j : Join)
  /-- A world's function reads the 64-bit word of an aperture at an offset (R252, R266, R297, R322, R338, R339): 0 queue,
  1 context, 2 translation, 3 trust, 4 revocation, 5 Holdar as R339 numbers them; 6 fabric, 7 host, 8 units, 9 worlds. -/
  | read (world aper off : Nat)
  /-- A write of BFLIP by world 0 with GO = 0 (R331). -/
  | bflip (world : Nat) (toHost : Bool) (page : Nat)
  /-- An error in an array (R353, R354). -/
  | soft (e : SoftErr)
deriving DecidableEq, Repr

/-- The split that is issuing: core block id, group index, split number (model's own). -/
structure Cursor where
  blk : Nat
  gix : Nat
  no  : Nat
deriving DecidableEq, Repr

/-- An answer the device gives outward (model's own). Kinds: 1 a logged write, 2 an access check, 3 SPDM, 4 measurements,
5 host read data, 6 a credit report, 7 poison, 8 Unsupported Request, 9 a bounce key, 10 a snoop, 11 the snoops of a flip,
12 a flit, 13 a rank of a collective, 14 a notice and 15 the end of a window of another node, 16 the answer to its open,
17 the answer to a message, 18 a training announcement, 19 a register read. -/
structure Answer where
  kind  : Nat
  world : Nat
  data  : List Byte
deriving DecidableEq, Repr

/-- The machine. -/
structure State where
  cur    : Option Cursor
  /-- A trap that the word just executed raised: the packet had no effect (model's own, inside one step). -/
  raised : Option TrapReq
  /-- The word just executed did not issue: its split waits at it (model's own, inside one step). -/
  stalled : Bool
  /-- The word just executed set its split's program counter (model's own, inside one step). -/
  jumped : Bool
  inbox  : List Stimulus
  blocks : SMap Block
  mem    : MemSys
  eng    : Engines
  curator : Curator
  ctxs   : SMap Ctx
  worlds : SMap World
  fab    : Fabric
  hol    : Holdar
  rings  : List RingRec
  nextRing : Nat
  gt     : Nat
  nfree  : Nat
  answers : List Answer
deriving DecidableEq, Repr

/-- The machine right after power-on reset: every register at the value its rule gives, or at the value its log entry names. -/
def State.reset : State :=
  { cur := none, raised := none, stalled := false, jumped := false, inbox := [], blocks := [], mem := {}, eng := {}, curator := {},
    ctxs := [], worlds := [], fab := {}, hol := {}, rings := [], nextRing := 0, gt := 0, nfree := 0, answers := [] }

end Sys2Proof.Machine
end

