-- ==== Sys2Proof/Machine/Caps.lean ====
section
/-! DEFINITION. Capabilities: their bits, bounds, derivations and the checks of every access (R121 to R132). -/
namespace Sys2Proof.Machine
open Sys2Proof

/-- The null capability (R121). -/
def nullCap : Cap := {}

/-- The 128-bit value (R121). -/
def capBits (c : Cap) : BitVec 128 := c.otype ++ c.perm ++ c.e ++ c.bf ++ c.lf ++ c.addr

/-- A capability from its value and tag. -/
def ofCapBits (tag : Bool) (v : BitVec 128) : Cap :=
  { tag := tag, otype := v.extractLsb' 120 8, perm := v.extractLsb' 108 12, e := v.extractLsb' 102 6,
    bf := v.extractLsb' 83 19, lf := v.extractLsb' 64 19, addr := v.extractLsb' 0 64 }

/-- The exponent that every value decodes with (R122). -/
def capE (c : Cap) : Nat := min c.e.toNat 39

/-- The base (R122), modulo 2^64. -/
def capBase (c : Cap) : Nat :=
  let e := capE c
  let a := c.addr.toNat
  let k := if a / 2 ^ e % 2 ^ 19 < c.bf.toNat then 1 else 0
  ((((a / 2 ^ (e + 19) : Nat) : Int) - k) * (2 ^ (e + 19) : Nat) + (c.bf.toNat * 2 ^ e : Nat)).emod (2 ^ 64) |>.toNat

/-- The top (R122), modulo 2^64. -/
def capTop (c : Cap) : Nat := (capBase c + c.lf.toNat * 2 ^ capE c) % 2 ^ 64

/-- The length of the reach in bytes. -/
def capLen (c : Cap) : Nat := c.lf.toNat * 2 ^ capE c

/-- The permission bits of R124. -/
def pLD : BitVec 12 := 0x001
def pST : BitVec 12 := 0x002
def pLDC : BitVec 12 := 0x004
def pSTC : BitVec 12 := 0x008
def pEXEC : BitVec 12 := 0x010
def pSEAL : BitVec 12 := 0x020
def pUNSEAL : BitVec 12 := 0x040
def pATOM : BitVec 12 := 0x080
def pFAB : BitVec 12 := 0x100
def pSPAD : BitVec 12 := 0x200
def pKEY : BitVec 12 := 0x400

/-- All the bits of `need` are granted. -/
def hasPerm (c : Cap) (need : BitVec 12) : Bool := c.perm &&& need == need
/-- The address space is the block's scratchpad (R124). -/
def isSpad (c : Cap) : Bool := hasPerm c pSPAD
/-- A type key (R125). -/
def isKey (c : Cap) : Bool := hasPerm c pKEY
/-- Unsealed: KEY 0 and OTYPE 0 (R128). -/
def isUnsealed (c : Cap) : Bool := !isKey c && c.otype == 0
/-- Sealed: KEY 0 and OTYPE not 0 (R128). -/
def isSealed (c : Cap) : Bool := !isKey c && c.otype != 0

/-- The least exponent whose rounded reach fits, from `e` on (R123): exponent, rounded base and top. -/
def fitReach (b n : Nat) : Nat → Nat → Option (Nat × Nat × Nat)
  | 0, _ => none
  | fuel + 1, e =>
    let b' := b / 2 ^ e * 2 ^ e
    let t' := ceilDiv (b + n) (2 ^ e) * 2 ^ e
    if t' - b' ≤ (2 ^ 19 - 1) * 2 ^ e then some (e, b', t') else fitReach b n fuel (e + 1)

/-- The reach of R123 for a requested base and length. -/
def reachOf (b n : Nat) : Option (Nat × Nat × Nat) := fitReach b n 40 0

/-- A capability with its bounds set to a reach. -/
def withReach (c : Cap) (e b' t' : Nat) : Cap :=
  { c with e := BitVec.ofNat 6 e, bf := BitVec.ofNat 19 (b' / 2 ^ e), lf := BitVec.ofNat 19 ((t' - b') / 2 ^ e) }

/-- `cbnd` and `cbnd.x` (R128). -/
def capBound (exact : Bool) (c : Cap) (n : Nat) : Cap :=
  match reachOf c.addr.toNat n with
  | none => { c with tag := false }
  | some (e, b', t') =>
    let inside := capBase c ≤ b' && t' ≤ capBase c + capLen c
    let ex := !exact || (b' == c.addr.toNat && t' == c.addr.toNat + n)
    { withReach c e b' t' with tag := c.tag && isUnsealed c && inside && ex }

/-- A capability with its cursor moved (R128): tagged only while the cursor stays within the reach. -/
def capMove (c : Cap) (a : BitVec 64) : Cap :=
  let lo := capBase c
  { c with addr := a, tag := c.tag && isUnsealed c && lo ≤ a.toNat && a.toNat ≤ lo + capLen c }

/-- `coff` (R128). -/
def capOff (c : Cap) (x : BitVec 64) : Cap := capMove c (BitVec.ofNat 64 (capBase c) + x)
/-- `cinc` (R128). -/
def capInc (c : Cap) (x : BitVec 64) : Cap := capMove c (c.addr + x)
/-- `cperm` (R128). -/
def capPerm (c : Cap) (x : BitVec 64) : Cap :=
  { c with perm := c.perm &&& (0xE00 ||| (x.setWidth 12 &&& 0x1FF)), tag := c.tag && (isUnsealed c || isKey c) }
/-- `cseal` (R128). -/
def capSeal (c k : Cap) : Cap :=
  { c with otype := k.otype, tag := c.tag && isUnsealed c && k.tag && isKey k && hasPerm k pSEAL }
/-- `cunseal` (R128). -/
def capUnseal (c k : Cap) : Cap :=
  { c with otype := 0, tag := c.tag && isSealed c && k.tag && isKey k && hasPerm k pUNSEAL && k.otype == c.otype }
/-- `cuntag` (R128). -/
def capUntag (c : Cap) : Cap := { c with tag := false }

/-- The values of `cget` (R130), by its function number. -/
def capGet (f : Nat) (c : Cap) : BitVec 64 :=
  let base := BitVec.ofNat 64 (capBase c)
  let top := BitVec.ofNat 64 (capTop c)
  if f == 0 then base else if f == 1 then top else if f == 2 then c.addr - base else if f == 3 then top - c.addr
  else if f == 4 then c.perm.setWidth 64 else if f == 5 then c.otype.setWidth 64
  else if f == 6 then (if c.tag then 1 else 0) else if f == 7 then c.addr else c.e.setWidth 64

/-- The kinds of a capability check (R131), with the sixth kind of R132. -/
inductive Kind where
  | none | tag | sealed | perm | bounds | align | format
deriving DecidableEq, Repr

/-- The check of one access (R131): `limit` is the block's scratchpad size for a scratchpad capability. -/
def capCheck (c : Cap) (need : BitVec 12) (a : BitVec 64) (n al limit : Nat) : Kind :=
  let top := capBase c + capLen c
  let top := if isSpad c then min top limit else top
  if !c.tag then .tag
  else if c.otype != 0 then .sealed
  else if !hasPerm c need then .perm
  else if a.toNat < capBase c || a.toNat + n > top then .bounds
  else if a.toNat % al != 0 then .align
  else .none

/-- The masks with one lane's kind added. -/
def addKind (m : KindMasks) (k : Kind) (l : LaneMask) : KindMasks :=
  match k with
  | .none => m
  | .tag => { m with tag := m.tag ||| l }
  | .sealed => { m with sealed := m.sealed ||| l }
  | .perm => { m with perm := m.perm ||| l }
  | .bounds => { m with bnd := m.bnd ||| l }
  | .align => { m with align := m.align ||| l }
  | .format => { m with fmt := m.fmt ||| l }

/-- The union of two records. -/
def orKinds (a b : KindMasks) : KindMasks :=
  { tag := a.tag ||| b.tag, sealed := a.sealed ||| b.sealed, perm := a.perm ||| b.perm, bnd := a.bnd ||| b.bnd,
    align := a.align ||| b.align, fmt := a.fmt ||| b.fmt }

/-- Some lane failed. -/
def anyKind (m : KindMasks) : Bool := m != {}

/-- The abort detail of a kind (R165). -/
def kindDetail (k : Kind) : Nat :=
  match k with
  | .none => 0
  | .tag => 1
  | .sealed => 2
  | .perm => 3
  | .bounds => 4
  | .align => 5
  | .format => 6

/-- A revoked capability (R358): tagged, virtual, not a key handle, its base in a marked granule. `marked` reads the map. -/
def revokedBy (marked : Nat → Bool) (c : Cap) : Bool :=
  c.tag && !isSpad c && c.otype != 2 && marked (capBase c)

/-- The scratchpad capability of R211. -/
def spadCap (size : Nat) : Cap :=
  match reachOf 0 size with
  | none => {}
  | some (e, b', t') => withReach { tag := true, perm := 0x28F } e b' t'

/-- A tagged, unsealed capability over a range, for what the hardware derives from roots it holds (R127). -/
def mkCap (perm : BitVec 12) (base len : Nat) : Cap :=
  match reachOf base len with
  | none => {}
  | some (e, b', t') => withReach { tag := true, perm := perm, addr := BitVec.ofNat 64 base } e b' t'

end Sys2Proof.Machine
end

