-- ==== Sys2Proof/Machine/Fp.lean ====
section
/-! DEFINITION. Floating-point values and rounding (R48 to R60, R114): exact dyadic arithmetic, one rounding at the end. -/
namespace Sys2Proof.Machine
open Sys2Proof

/-- A binary interchange format: exponent bits and fraction bits (R48). -/
structure FFmt where
  eb : Nat
  fb : Nat
deriving DecidableEq, Repr

/-- binary32. -/
def f32 : FFmt := ⟨8, 23⟩
/-- binary16. -/
def f16 : FFmt := ⟨5, 10⟩
/-- bfloat16. -/
def bf16 : FFmt := ⟨8, 7⟩

/-- A value: NaN (signalling or not), infinity, or (-1)^neg m 2^e exactly. -/
inductive FVal where
  | nan (signalling : Bool)
  | inf (neg : Bool)
  | fin (neg : Bool) (m : Nat) (e : Int)
deriving DecidableEq, Repr

/-- The rounding modes of R53; RS carries its hash bits u (R54). -/
inductive RMode where
  | rn | rz | ru | rd
  | rs (u : Nat)
deriving DecidableEq, Repr

/-- A result and whether it sets FX (R50). -/
structure FRes where
  bits : Nat
  fx   : Bool
deriving DecidableEq, Repr

/-- The exponent bias of a format. -/
def FFmt.bias (f : FFmt) : Nat := 2 ^ (f.eb - 1) - 1
/-- The bits of infinity without sign. -/
def FFmt.infBits (f : FFmt) : Nat := (2 ^ f.eb - 1) * 2 ^ f.fb
/-- The canonical NaN (R49). -/
def FFmt.nanBits (f : FFmt) : Nat := f.infBits + 2 ^ (f.fb - 1)
/-- The sign bit's weight. -/
def FFmt.signBit (f : FFmt) : Nat := 2 ^ (f.eb + f.fb)

/-- The value of a bit pattern (R48). -/
def fdec (f : FFmt) (x : Nat) : FVal :=
  let neg := x / f.signBit % 2 == 1
  let e := x / 2 ^ f.fb % 2 ^ f.eb
  let m := x % 2 ^ f.fb
  if e == 2 ^ f.eb - 1 then (if m == 0 then .inf neg else .nan (m < 2 ^ (f.fb - 1)))
  else if e == 0 then .fin neg m (1 - (f.bias : Int) - f.fb)
  else .fin neg (m + 2 ^ f.fb) ((e : Int) - f.bias - f.fb)

/-- The value with a subnormal read as a zero of its sign, when `sub` (R55). -/
def fdecSub (f : FFmt) (sub : Bool) (x : Nat) : FVal :=
  let neg := x / f.signBit % 2 == 1
  if sub && x / 2 ^ f.fb % 2 ^ f.eb == 0 then .fin neg 0 0 else fdec f x

/-- A multiple `m` of 2^e rounded to a multiple of 2^q: the multiple's count (R53, R54). -/
def roundTo (mode : RMode) (neg : Bool) (m : Nat) (e q : Int) : Nat :=
  if q ≤ e then m * 2 ^ (e - q).toNat
  else
    let s := (q - e).toNat
    let k := m / 2 ^ s
    let r := m % 2 ^ s
    let up := match mode with
      | .rn => decide (2 * r > 2 ^ s) || (2 * r == 2 ^ s && k % 2 == 1)
      | .rz => false
      | .ru => !neg && r != 0
      | .rd => neg && r != 0
      | .rs u => decide (r * 65536 / 2 ^ s > u)
    if up then k + 1 else k

/-- The exponent of the leading bit of a nonzero dyadic. -/
def topExp (m : Nat) (e : Int) : Int := (Nat.log2 m : Int) + e

/-- m 2^e is above n 2^d. -/
def dyadGt (m : Nat) (e : Int) (n : Nat) (d : Int) : Bool :=
  let b := min e d
  decide (m * 2 ^ (e - b).toNat > n * 2 ^ (d - b).toNat)

/-- An exact finite value rounded into a format: bits and overflow (R53). -/
def fround (f : FFmt) (mode : RMode) (neg : Bool) (m : Nat) (e : Int) : FRes :=
  let sg := if neg then f.signBit else 0
  if m == 0 then ⟨sg, false⟩ else
  let emin : Int := 1 - (f.bias : Int)
  let q := max (topExp m e) emin - f.fb
  let big := dyadGt m e (2 ^ (f.fb + 1) - 1) ((f.bias : Int) - f.fb)
  let mode' := match mode with
    | .rs u => if big then .rn else .rs u
    | .rn => .rn
    | .rz => .rz
    | .ru => .ru
    | .rd => .rd
  let k := roundTo mode' neg m e q
  let b := ((q + f.fb + f.bias).toNat * 2 ^ f.fb + k) - 2 ^ f.fb
  if b < f.infBits then ⟨sg + b, false⟩
  else
    let toInf := match mode' with
      | .rn => true
      | .rs _ => true
      | .rz => false
      | .ru => !neg
      | .rd => neg
    ⟨sg + (if toInf then f.infBits else f.infBits - 1), true⟩

/-- A nonzero subnormal result becomes a zero of its sign, when `sub` (R55). -/
def flush (f : FFmt) (sub : Bool) (r : FRes) : FRes :=
  if sub && r.bits / 2 ^ f.fb % 2 ^ f.eb == 0 then ⟨r.bits / f.signBit * f.signBit, r.fx⟩ else r

/-- A value delivered to a format. -/
def fput (f : FFmt) (mode : RMode) : FVal → FRes
  | .nan s => ⟨f.nanBits, s⟩
  | .inf neg => ⟨(if neg then f.signBit else 0) + f.infBits, false⟩
  | .fin neg m e => fround f mode neg m e

/-- A signalling NaN (R49, R50). -/
def FVal.isS : FVal → Bool
  | .nan s => s
  | .inf _ => false
  | .fin _ _ _ => false

/-- The sign of a value that is not a NaN. -/
def FVal.isNeg : FVal → Bool
  | .nan _ => false
  | .inf n => n
  | .fin n _ _ => n

/-- The value with its sign turned. -/
def FVal.neg : FVal → FVal
  | .nan s => .nan s
  | .inf n => .inf (!n)
  | .fin n m e => .fin (!n) m e

/-- The exact sum of two finite values; the sign of an exact zero follows R48. -/
def addFin (mode : RMode) (n1 : Bool) (m1 : Nat) (e1 : Int) (n2 : Bool) (m2 : Nat) (e2 : Int) : FVal :=
  let b := min e1 e2
  let x1 : Int := (m1 * 2 ^ (e1 - b).toNat : Nat)
  let x2 : Int := (m2 * 2 ^ (e2 - b).toNat : Nat)
  let s := (if n1 then -x1 else x1) + (if n2 then -x2 else x2)
  if s == 0 then .fin (if n1 == n2 then n1 else mode == .rd) 0 0
  else .fin (decide (s < 0)) s.natAbs b

/-- A sum of values and whether it is invalid. -/
def addVal (mode : RMode) : FVal → FVal → FVal × Bool
  | .nan s, y => (.nan false, s || y.isS)
  | .inf _, .nan s => (.nan false, s)
  | .fin _ _ _, .nan s => (.nan false, s)
  | .inf n1, .inf n2 => if n1 == n2 then (.inf n1, false) else (.nan false, true)
  | .inf n1, .fin _ _ _ => (.inf n1, false)
  | .fin _ _ _, .inf n2 => (.inf n2, false)
  | .fin n1 m1 e1, .fin n2 m2 e2 => (addFin mode n1 m1 e1 n2 m2 e2, false)

/-- A product of values and whether it is invalid. -/
def mulVal : FVal → FVal → FVal × Bool
  | .nan s, y => (.nan false, s || y.isS)
  | .inf _, .nan s => (.nan false, s)
  | .fin _ _ _, .nan s => (.nan false, s)
  | .inf n1, .inf n2 => (.inf (n1 != n2), false)
  | .inf n1, .fin n2 m _ => if m == 0 then (.nan false, true) else (.inf (n1 != n2), false)
  | .fin n1 m _, .inf n2 => if m == 0 then (.nan false, true) else (.inf (n1 != n2), false)
  | .fin n1 m1 e1, .fin n2 m2 e2 => (.fin (n1 != n2) (m1 * m2) (e1 + e2), false)

/-- A value rounded, with an invalid operation beside it. -/
def fin1 (f : FFmt) (mode : RMode) (sub : Bool) (x : FVal × Bool) : FRes :=
  let r := flush f sub (fput f mode x.1)
  ⟨r.bits, r.fx || x.2⟩

/-- a + b (R111). -/
def fadd (f : FFmt) (mode : RMode) (sub : Bool) (a b : Nat) : FRes :=
  fin1 f mode sub (addVal mode (fdecSub f sub a) (fdecSub f sub b))

/-- a - b (R111). -/
def fsub (f : FFmt) (mode : RMode) (sub : Bool) (a b : Nat) : FRes :=
  fin1 f mode sub (addVal mode (fdecSub f sub a) (fdecSub f sub b).neg)

/-- a b (R111). -/
def fmul (f : FFmt) (mode : RMode) (sub : Bool) (a b : Nat) : FRes :=
  fin1 f mode sub (mulVal (fdecSub f sub a) (fdecSub f sub b))

/-- d + a b, or d - a b, rounded once (R48, R111). -/
def ffma (f : FFmt) (mode : RMode) (sub minus : Bool) (d a b : Nat) : FRes :=
  let p := mulVal (fdecSub f sub a) (fdecSub f sub b)
  let t := if minus then p.1.neg else p.1
  let s := addVal mode (fdecSub f sub d) t
  fin1 f mode sub (s.1, p.2 || s.2)

/-- The order of two finite values as exact integers on one scale. -/
def cmpFin (n1 : Bool) (m1 : Nat) (e1 : Int) (n2 : Bool) (m2 : Nat) (e2 : Int) : Ordering :=
  let b := min e1 e2
  let x1 : Int := (m1 * 2 ^ (e1 - b).toNat : Nat)
  let x2 : Int := (m2 * 2 ^ (e2 - b).toNat : Nat)
  compare (if n1 then -x1 else x1) (if n2 then -x2 else x2)

/-- The order of two values; none when unordered (R113). -/
def cmpVal : FVal → FVal → Option Ordering
  | .nan _, _ => none
  | .inf _, .nan _ => none
  | .fin _ _ _, .nan _ => none
  | .inf n1, .inf n2 => some (if n1 == n2 then .eq else if n1 then .lt else .gt)
  | .inf n1, .fin _ _ _ => some (if n1 then .lt else .gt)
  | .fin _ _ _, .inf n2 => some (if n2 then .gt else .lt)
  | .fin n1 m1 e1, .fin n2 m2 e2 => some (cmpFin n1 m1 e1 n2 m2 e2)

/-- The bits of an input after the flush of R55. -/
def inBits (f : FFmt) (sub : Bool) (x : Nat) : Nat :=
  if sub && x / 2 ^ f.fb % 2 ^ f.eb == 0 then x / f.signBit % 2 * f.signBit else x % (2 * f.signBit)

/-- Minimum or maximum (R112): one operand unrounded; -0 is less than +0; a single NaN gives the number. -/
def fminmax (f : FFmt) (sub isMax : Bool) (a b : Nat) : FRes :=
  let x := fdecSub f sub a
  let y := fdecSub f sub b
  let fx := x.isS || y.isS
  let pick (first : Bool) : FRes := ⟨inBits f sub (if first then a else b), fx⟩
  match x, y with
  | .nan _, .nan _ => ⟨f.nanBits, fx⟩
  | .nan _, _ => pick false
  | _, .nan _ => pick true
  | x, y =>
    match cmpVal x y with
    | some .lt => pick (!isMax)
    | some .gt => pick isMax
    | _ =>
      -- equal values: a zero of sign 1 is the smaller
      let na := a / f.signBit % 2 == 1
      pick (na != isMax)

/-- The integer square root below 2^(2 k). -/
def isqrtAux : Nat → Nat → Nat → Nat
  | 0, _, r => r
  | k + 1, n, r => let t := r + 2 ^ k; isqrtAux k n (if t * t ≤ n then t else r)

/-- The correctly rounded square root (R114). -/
def fsqrt (f : FFmt) (mode : RMode) (sub : Bool) (a : Nat) : FRes :=
  match fdecSub f sub a with
  | .nan s => ⟨f.nanBits, s⟩
  | .inf true => ⟨f.nanBits, true⟩
  | .inf false => ⟨f.infBits, false⟩
  | .fin n m e =>
    if m == 0 then ⟨if n then f.signBit else 0, false⟩
    else if n then ⟨f.nanBits, true⟩
    else
      -- an even exponent, 60 extra bits, and a sticky bit
      let odd := e % 2 != 0
      let m' := (if odd then 2 * m else m) * 2 ^ 120
      let e' := ((if odd then e - 1 else e) - 120) / 2
      let r := isqrtAux 80 m' 0
      let st := if r * r == m' then 0 else 1
      flush f sub (fround f mode false (2 * r + st) (e' - 1))

/-- The quotient of two positive dyadics as a dyadic with a sticky bit. -/
def divFin (m1 : Nat) (e1 : Int) (m2 : Nat) (e2 : Int) : Nat × Int :=
  let k := 2 ^ 80
  let q := m1 * k / m2
  let st := if m1 * k % m2 == 0 then 0 else 1
  (2 * q + st, e1 - e2 - 81)

/-- round_rn(1 / a), for the small-matrix reciprocals (R147 to R150). -/
def frcpRn (a : Nat) : FRes :=
  match fdec f32 a with
  | .nan s => ⟨f32.nanBits, s⟩
  | .inf n => ⟨if n then f32.signBit else 0, false⟩
  | .fin n m e =>
    if m == 0 then ⟨(if n then f32.signBit else 0) + f32.infBits, false⟩
    else let q := divFin 1 0 m e; fround f32 .rn n q.1 q.2

/-! The functions 3 to 9 of `vfun` (R114): a free value held to the bound of the table. References are dyadics
with a denominator of 2^128. -/

/-- pi scaled by 2^320. -/
def piFix : Nat := 0x3243f6a8885a308d313198a2e03707344a4093822299f31d0082efa98ec4e6c89452821e638d01377
/-- ln 2 scaled by 2^128. -/
def ln2Fix : Nat := 0xb17217f7d1cf79abc9e3b39803f2f6af
/-- One, on the scale of 2^128. -/
def one128 : Nat := 2 ^ 128

/-- A dyadic on the scale of 2^128, floor of the magnitude. -/
def toFix (m : Nat) (e : Int) : Nat :=
  if 0 ≤ e + 128 then m * 2 ^ (e + 128).toNat else m / 2 ^ (-(e + 128)).toNat

/-- exp x for 0 ≤ x < 1, both scaled: the series to `n` terms, from the last. -/
def expSeries (x : Nat) : Nat → Nat → Nat
  | 0, acc => acc
  | n + 1, acc => expSeries x n (one128 + x * acc / one128 / (n + 1))

/-- 2^f for a scaled 0 ≤ f < 1. -/
def exp2Frac (f : Nat) : Nat := expSeries (f * ln2Fix / one128) 40 one128

/-- 2^x for a signed scaled x, as a dyadic. -/
def exp2Ref (neg : Bool) (x : Nat) : Nat × Int :=
  let i := x / one128
  let f := x % one128
  if !neg then (exp2Frac f, (i : Int) - 128)
  else if f == 0 then (one128, -(i : Int) - 128)
  else (exp2Frac (one128 - f), -(i : Int) - 129)

/-- The fraction bits of log2 of a scaled 1 ≤ y < 2. -/
def log2Bits : Nat → Nat → Nat → Nat
  | 0, _, acc => acc
  | n + 1, y, acc =>
    let z := y * y / one128
    if z ≥ 2 * one128 then log2Bits n (z / 2) (2 * acc + 1) else log2Bits n z (2 * acc)

/-- log2 of a positive dyadic, as a signed number scaled by 2^100. -/
def log2Ref (m : Nat) (e : Int) : Int :=
  let k := Nat.log2 m
  let y := m * one128 / 2 ^ k
  ((k : Int) + e) * 2 ^ 100 + (log2Bits 100 y 0 : Nat)

/-- sum of (-1)^k x^(2k) / (2k + c)!-like series, from the last term: c = 0 gives cos, c = 1 gives sin / x. -/
def trigSeries (x2 : Int) (c : Nat) : Nat → Int → Int
  | 0, acc => acc
  | n + 1, acc => trigSeries x2 c n ((one128 : Int) - x2 * acc / one128 / (((2 * n + 1 + c) * (2 * n + 2 + c) : Nat) : Int))

/-- |a| modulo 2 pi, scaled by 2^128, in -pi to pi. -/
def reduceTrig (m : Nat) (e : Int) : Int :=
  -- on a scale of 2^(-170 - 149): exact for every binary32
  let sc : Nat := 319
  let a := if 0 ≤ e + sc then m * 2 ^ (e + sc).toNat else m / 2 ^ (-(e + sc)).toNat
  let twoPi := piFix
  -- piFix is pi 2^320 = 2 pi 2^319
  let r := a % twoPi
  let s : Int := if 2 * r > twoPi then (r : Int) - twoPi else r
  s / 2 ^ 191

/-- sin (c = 1) or cos (c = 0) of a scaled angle, scaled. -/
def trigRef (x : Int) (c : Nat) : Int :=
  let t := trigSeries (x * x / one128) c 30 one128
  if c == 1 then x * t / one128 else t

/-- The bound kept: a raw result within `num / 2^den` of the reference stays, any other becomes the reference rounded.
`ref` and `bound` are on the scale of 2^-sc. -/
def clampTo (raw : BitVec 32) (ref : Int) (bound : Nat) (sc : Nat) : Nat :=
  let back := (fround f32 .rn (decide (ref < 0)) ref.natAbs (-(sc : Int))).bits
  match fdec f32 raw.toNat with
  | .fin n m e =>
    let x : Int := if 0 ≤ e + sc then ((m * 2 ^ (e + sc).toNat : Nat) : Int) else ((m / 2 ^ (-(e + sc)).toNat : Nat) : Int)
    let d := (if n then -x else x) - ref
    if d.natAbs ≤ bound then raw.toNat else back
  | .nan _ => back
  | .inf _ => back

/-- The unit in the last place of a positive dyadic in binary32, as an exponent. -/
def ulpExp (m : Nat) (e : Int) : Int := if m == 0 then -149 else max (topExp m e) (-126) - 23

/-- A positive reference dyadic and a bound of `k` ulp kept: the sign is `neg`. -/
def clampUlp (raw : BitVec 32) (neg : Bool) (m : Nat) (e : Int) (k : Nat) : Nat :=
  let u := ulpExp m e
  -- one scale fine enough for both
  let sc := (max 0 (max (-e) (-u))).toNat
  let ref : Int := (m * 2 ^ (e + sc).toNat : Nat)
  clampTo raw (if neg then -ref else ref) (k * 2 ^ (u + sc).toNat) sc

/-- The binary32 result of function `fn` (3 to 9) on a value, and FX (R114). -/
def special32 (fn : Nat) (a : FVal) (abits : BitVec 32) : FRes :=
  match fn, a with
  | _, .nan s => ⟨f32.nanBits, s⟩
  | 3, .inf n => ⟨if n then f32.signBit else 0, false⟩
  | 3, .fin n m e =>
    if m == 0 then ⟨(if n then f32.signBit else 0) + f32.infBits, false⟩
    else
      let q := divFin 1 0 m e
      let r := fround f32 .rn n q.1 q.2
      if r.fx then r else ⟨clampUlp (Config.rcpRaw abits) n q.1 q.2 1, false⟩
  | 4, .inf n => if n then ⟨f32.nanBits, true⟩ else ⟨0, false⟩
  | 4, .fin n m e =>
    if m == 0 then ⟨(if n then f32.signBit else 0) + f32.infBits, false⟩
    else if n then ⟨f32.nanBits, true⟩
    else
      let odd := e % 2 != 0
      let m' := (if odd then 2 * m else m)
      let e' := (if odd then e - 1 else e) / 2
      -- 1 / sqrt(m' 2^(2 e')) = sqrt(2^200 / m') 2^(-100 - e')
      let r := isqrtAux 101 (2 ^ 200 / m') 0
      ⟨clampUlp (Config.rsqrtRaw abits) false r (-100 - e') 2, false⟩
  | 5, .inf n => ⟨if n then 0 else f32.infBits, false⟩
  | 5, .fin n m e =>
    if m != 0 && topExp m e ≥ 8 then (if n then ⟨clampUlp (Config.exp2Raw abits) false 0 0 2, false⟩ else ⟨f32.infBits, true⟩)
    else
      let x := toFix m e
      if !n && x ≥ 128 * one128 then ⟨f32.infBits, true⟩
      else
        let r := exp2Ref n x
        let exact := e ≥ 0 || m % 2 ^ (-e).toNat == 0
        if exact && (!n || x ≤ 149 * one128) then fround f32 .rn false r.1 r.2
        else ⟨clampUlp (Config.exp2Raw abits) false r.1 r.2 2, false⟩
  | 6, .inf n => if n then ⟨f32.nanBits, true⟩ else ⟨f32.infBits, false⟩
  | 6, .fin n m e =>
    if m == 0 then ⟨f32.signBit + f32.infBits, false⟩
    else if n then ⟨f32.nanBits, true⟩
    else if dyadGt 1 0 m e == false && dyadGt m e 1 0 == false then ⟨0, false⟩
    else
      let r := log2Ref m e
      let inside := !dyadGt m e 2 0 && !dyadGt 1 (-1) m e
      let b := if inside then 2 ^ 78 else 2 * 2 ^ ((ulpExp r.natAbs (-100)) + 100).toNat
      ⟨clampTo (Config.log2Raw abits) r b 100, false⟩
  | 7, .inf _ => ⟨f32.nanBits, false⟩
  | 7, .fin n m e =>
    let r := trigRef (reduceTrig m e) 1
    if m == 0 then ⟨clampTo (Config.sinRaw abits) 0 (2 ^ 107) 128, false⟩
    else ⟨clampTo (Config.sinRaw abits) (if n then -r else r) (2 ^ 107) 128, false⟩
  | 8, .inf _ => ⟨f32.nanBits, false⟩
  | 8, .fin _ m e => ⟨clampTo (Config.cosRaw abits) (trigRef (reduceTrig m e) 0) (2 ^ 107) 128, false⟩
  | 9, .inf n => ⟨(if n then f32.signBit else 0) + 0x3F800000, false⟩
  | 9, .fin n m e =>
    -- tanh x = 1 - 2 / (e^(2 x) + 1); e^(2x) = 2^(2 x / ln 2)
    let r : Nat :=
      if m != 0 && topExp m e ≥ 5 then one128
      else
        let y := 2 * toFix m e * one128 / ln2Fix
        let p := exp2Ref false y
        let ex := toFix p.1 p.2
        (ex - one128) * one128 / (ex + one128)
    let b := max (2 * 2 ^ ((ulpExp r (-128)) + 128).toNat) (2 ^ 104)
    ⟨clampTo (Config.tanhRaw abits) (if n then -(r : Int) else r) b 128, false⟩
  | _, .inf _ => ⟨f32.nanBits, false⟩
  | _, .fin _ _ _ => ⟨f32.nanBits, false⟩

/-- `vfun` functions 2 to 9 in any float type: evaluated as binary32, then rounded to the destination (R114). -/
def ffun (f : FFmt) (mode : RMode) (sub : Bool) (fn : Nat) (a : Nat) : FRes :=
  let v := fdecSub f sub a
  let a32 := (fput f32 .rn v).bits
  let r := if fn == 2 then fsqrt f32 mode false a32 else special32 fn (match v with | .nan s => .nan s | _ => fdec f32 a32) (BitVec.ofNat 32 a32)
  let fx0 := r.fx || v.isS
  if f == f32 then ⟨(flush f32 sub r).bits, fx0⟩
  else
    let q := flush f sub (fput f mode (fdec f32 r.bits))
    ⟨q.bits, fx0 || q.fx⟩

/-- The class mask of R115. -/
def fclass (f : FFmt) (x : Nat) : Nat :=
  match fdec f x with
  | .inf true => 1
  | .inf false => 2 ^ 7
  | .nan true => 2 ^ 8
  | .nan false => 2 ^ 9
  | .fin n m _ =>
    if m == 0 then (if n then 2 ^ 3 else 2 ^ 4)
    else if m < 2 ^ f.fb then (if n then 2 ^ 2 else 2 ^ 5)
    else (if n then 2 ^ 1 else 2 ^ 6)

/-! Narrow formats (R57 to R60, R117 to R120). -/

/-- An element grid: lowest and highest exponent, fraction bits, largest magnitude as a multiple of the top spacing. -/
structure Grid where
  emin : Int
  emax : Int
  fb   : Nat
  maxM : Nat
deriving DecidableEq, Repr

/-- The grid of a block format by its code (R38): D8, D4, E4M3, E5M2, MXFP4. -/
def gridOf (bf : Nat) : Grid :=
  if bf == 4 then ⟨0, 6, 3, 15⟩
  else if bf == 5 then ⟨2, 2, 2, 3⟩
  else if bf == 6 then ⟨-6, 8, 3, 14⟩
  else if bf == 7 then ⟨-14, 15, 2, 7⟩
  else ⟨0, 2, 1, 3⟩

/-- A dyadic rounded to the grid extended without limit beyond its top (R119): count and spacing. -/
def gridRound (g : Grid) (mode : RMode) (neg : Bool) (m : Nat) (e : Int) : Nat × Int :=
  let q := (if m == 0 then g.emin else min (max (topExp m e) g.emin) g.emax) - g.fb
  let mode' := match mode with
    | .rs u => if dyadGt m e g.maxM (g.emax - g.fb) then .rn else .rs u
    | .rn => .rn
    | .rz => .rz
    | .ru => .ru
    | .rd => .rd
  (roundTo mode' neg m e q, q)

/-- The magnitude code of a grid value. -/
def gridCode (g : Grid) (k : Nat) (q : Int) : Nat :=
  ((q - (g.emin - g.fb) + 1).toNat * 2 ^ g.fb + k) - 2 ^ g.fb

/-- The value of a magnitude code. -/
def gridVal (g : Grid) (code : Nat) : Nat × Int :=
  let e := code / 2 ^ g.fb
  let m := code % 2 ^ g.fb
  if e == 0 then (m, g.emin - g.fb) else (m + 2 ^ g.fb, g.emin - g.fb + ((e : Int) - 1))

/-- Largest magnitude code of a format. -/
def maxCode (bf : Nat) : Nat :=
  if bf == 4 then 0x3F else if bf == 5 then 3 else if bf == 6 then 0x7E else if bf == 7 then 0x7B else 7

/-- Sign bit of an element code. -/
def elemSign (bf : Nat) : Nat := if bf == 4 then 0x40 else if bf == 5 then 4 else if bf == 8 then 8 else 0x80

/-- Selector bit of a D element. -/
def elemSel (bf : Nat) : Nat := if bf == 4 then 0x80 else if bf == 5 then 8 else 0

/-- narrow(v, sel) of R119: the code of a value, and FX, by R60. -/
def narrow (bf : Nat) (sat : Bool) (mode : RMode) (v : FVal) (sel : Bool) : FRes :=
  let g := gridOf bf
  let isD := bf == 4 || bf == 5
  let top (neg : Bool) : Nat :=
    (if isD && sel then elemSel bf else 0) + (if neg then elemSign bf else 0) + maxCode bf
  match v with
  | .nan s => if bf == 6 || bf == 7 then ⟨0x7F, s⟩ else ⟨0, true⟩
  | .inf n =>
    if bf == 6 then ⟨if sat then top n else 0x7F, true⟩
    else if bf == 7 then (if sat then ⟨top n, true⟩ else ⟨(if n then 0x80 else 0) + 0x7C, false⟩)
    else ⟨top n, true⟩
  | .fin n m e =>
    let r := gridRound g mode n m e
    if dyadGt r.1 r.2 g.maxM (g.emax - g.fb) then
      (if bf == 6 && !sat then ⟨0x7F, true⟩
       else if bf == 7 && !sat then ⟨(if n then 0x80 else 0) + 0x7C, true⟩
       else ⟨top n, true⟩)
    else ⟨(if isD && sel then elemSel bf else 0) + (if n then elemSign bf else 0) + gridCode g r.1 r.2, false⟩

/-- A conversion to E8M0 (R60). -/
def toE8m0 (v : FVal) : FRes :=
  match v with
  | .nan _ => ⟨0xFF, true⟩
  | .inf _ => ⟨0xFF, true⟩
  | .fin _ m e =>
    if m == 0 || topExp m e < -127 then ⟨0, true⟩ else ⟨(topExp m e + 127).toNat, false⟩

/-- A value times a power of two. -/
def scaleVal (v : FVal) (k : Int) : FVal :=
  match v with
  | .fin n m e => .fin n m (e + k)
  | .nan s => .nan s
  | .inf n => .inf n

/-- `vpackb` (R119): the element code and FX, from the value and the scale word. -/
def packElem (bf : Nat) (sat : Bool) (mode : RMode) (x : FVal) (sw : Nat) : FRes :=
  let ea := sw % 256
  let eb := sw / 256 % 256
  let fxS (r : FRes) : FRes := ⟨r.bits, r.fx || x.isS⟩
  if bf == 10 then toE8m0 x
  else if bf == 4 || bf == 5 then
    if ea == 255 || eb == 255 then fxS (narrow bf sat mode (.nan false) false)
    else
      let (ef, sf, ec, sc) := if ea ≤ eb then (ea, false, eb, true) else (eb, true, ea, false)
      let g := gridOf bf
      match x with
      | .fin n m e =>
        let r := gridRound g mode n m (e + 127 - ef)
        if dyadGt r.1 r.2 g.maxM (g.emax - g.fb) then narrow bf sat mode (scaleVal x (127 - (ec : Int))) sc
        else narrow bf sat mode (scaleVal x (127 - (ef : Int))) sf
      | .nan s => fxS (narrow bf sat mode (.nan s) sc)
      | .inf n => narrow bf sat mode (.inf n) sc
  else if ea == 255 then fxS (narrow bf sat mode (.nan false) false)
  else fxS (narrow bf sat mode (scaleVal x (127 - (ea : Int))) false)

/-- The value of an element code before scaling (R57, R58). -/
def elemVal (bf : Nat) (code : Nat) : FVal :=
  let n := code / elemSign bf % 2 == 1
  let mag := if bf == 4 then code % 64 else if bf == 5 then code % 4 else if bf == 8 then code % 8 else code % 128
  if bf == 6 && mag == 0x7F then .nan false
  else if bf == 7 && mag == 0x7C then .inf n
  else if bf == 7 && mag > 0x7C then .nan false
  else let v := gridVal (gridOf bf) mag; .fin n v.1 v.2

/-- The scaled value of an element, from its code and the scales Ea, Eb (R57, R58). -/
def scaledElem (bf : Nat) (code ea eb : Nat) : FVal :=
  let isD := bf == 4 || bf == 5
  let sel := isD && code / elemSel bf % 2 == 1
  if ea == 255 || (isD && eb == 255) then .nan false
  else scaleVal (elemVal bf code) ((if sel then (eb : Int) else ea) - 127)

/-- `vunpackb` (R120). -/
def unpackElem (bf : Nat) (mode : RMode) (sub : Bool) (code sw : Nat) : FRes :=
  if bf == 10 then
    (if code == 255 then ⟨f32.nanBits, false⟩ else flush f32 sub (fround f32 mode false 1 ((code : Int) - 127)))
  else flush f32 sub (fput f32 mode (scaledElem bf code (sw % 256) (sw / 256 % 256)))

/-- floor(log2 |v|) and whether |v| is exactly that power. -/
def logFloor (m : Nat) (e : Int) : Int × Bool := (topExp m e, m == 2 ^ Nat.log2 m)

/-- `vscale` for one value (R118). -/
def scaleOf (bf : Nat) (v : FVal) : Nat :=
  let clampE (x : Int) : Nat := (min (max x 0) 254).toNat
  match v with
  | .nan _ => 0xFF
  | .inf _ => 0xFF
  | .fin _ m e =>
    if m == 0 then 127
    else if bf == 4 || bf == 5 then
      -- ceil(log2(|v| / M)): the least k with |v| ≤ M 2^k
      let big : Nat := if bf == 5 then 3 else 120
      let k := topExp m e - Nat.log2 big
      let k' := if dyadGt m e big (k - 1) then (if dyadGt m e big k then k + 1 else k) else k - 1
      clampE (k' + 127)
    else
      let emax : Int := if bf == 8 then 2 else if bf == 6 then 8 else 15
      clampE (topExp m e - emax + 127)

/-- The hash of R54. -/
def rsHash (tick seed lane elem : Nat) : Nat :=
  let m32 := 2 ^ 32
  let h := (tick % m32) ^^^ (seed * 65536 % m32) ^^^ (lane * 256) ^^^ elem
  let h := h ^^^ (h / 65536)
  let h := h * 0x7FEB352D % m32
  let h := h ^^^ (h / 32768)
  let h := h * 0x846CA68B % m32
  let h := h ^^^ (h / 65536)
  h / 65536

/-! binary32 helpers of the units that ignore fpm (R56). -/

/-- round_rn(a + b). -/
def add32 (a b : Word) : Word := BitVec.ofNat 32 (fadd f32 .rn false a.toNat b.toNat).bits

end Sys2Proof.Machine
end

