-- ==== Sys2Proof/Machine/Mem.lean ====
section
/-! DEFINITION. Physical memory: bytes, side-band bytes, line leases, copies and sealed lines (R61, R62, R126, R234,
R316, R341), and what one access does at its place. -/
namespace Sys2Proof.Machine
open Sys2Proof

/-- Where a physical address leads (R316). -/
inductive Home where
  | hbm | hole | host
  | fabric (node : Nat)
deriving DecidableEq, Repr

/-- The destination of a physical address (R316). -/
def homeOf (pa : Nat) : Home :=
  if pa < Config.hbmBytes then .hbm
  else if pa < 0x400000000000 then .hole
  else if pa < 0x800000000000 then .host
  else if pa % 0x10000000000 < Config.hbmBytes then .fabric (pa / 0x10000000000 % 128)
  else .hole

/-- A fabric address that names this node is the local line (R316). -/
def canonPa (node : BitVec 7) (pa : Nat) : Nat :=
  if homeOf pa = .fabric node.toNat then pa % 0x10000000000 else pa

/-- The HBM stack that holds a local address (R335). -/
def hbmStack (pa : Nat) : Nat := pa / 256 % 1024 / 64

/-- What an address that nothing has written reads as. DESIGN CHOICE [7]. -/
def emptyByte : Byte := 0

/-- One byte of memory. -/
def memByte (m : MemSys) (pa : Nat) : Byte := mget m.bytes pa emptyByte
/-- `n` bytes of memory. -/
def memBytes (m : MemSys) (pa n : Nat) : List Byte := (List.range n).map fun i => memByte m (pa + i)
/-- A little-endian number of `n` bytes (R6). -/
def memNat (m : MemSys) (pa n : Nat) : Nat := ofBytesLE (memBytes m pa n)
/-- Bytes written, nothing else. -/
def memPut (m : MemSys) (pa : Nat) (bs : List Byte) : MemSys := { m with bytes := mputAll m.bytes pa bs emptyByte }
/-- The canonical form of memory. -/
def MemSys.wf (m : MemSys) : Bool := mwf emptyByte m.bytes

/-- The side-band byte of the sector of an address (R61). -/
def sideAt (m : MemSys) (pa : Nat) : BitVec 8 := mget m.side (pa / 64) 0
/-- The side-band byte set: host memory holds none (R61, R126). -/
def putSide (m : MemSys) (pa : Nat) (v : BitVec 8) : MemSys :=
  if homeOf pa == .host then m else { m with side := mput m.side (pa / 64) v 0 }
/-- The TAG bit of a granule in a side-band byte. -/
def sideTag (v : BitVec 8) (pa : Nat) : Bool := v.getLsbD (4 + pa / 16 % 4)
/-- A side-band byte with the TAG of one granule set or cleared. -/
def sideWithTag (v : BitVec 8) (pa : Nat) (t : Bool) : BitVec 8 :=
  let k : BitVec 8 := BitVec.ofNat 8 (2 ^ (4 + pa / 16 % 4))
  if t then v ||| k else v &&& ~~~k
/-- The sector format code of a side-band byte. -/
def sideFmt (v : BitVec 8) : BitVec 4 := v.setWidth 4
/-- A side-band byte with a format code. -/
def sideWithFmt (v : BitVec 8) (f : BitVec 4) : BitVec 8 := (v &&& 0xF0) ||| f.setWidth 8
/-- A store's qualifier writes the code unless it is 15 (R62). -/
def storeFmt (v : BitVec 8) (f : BitVec 4) : BitVec 8 := if f.toNat ≤ 11 then sideWithFmt v f else v

/-- The lease pair of a line at its home (R234). -/
def lineAt (m : MemSys) (pa : Nat) : Nat × Nat := mget m.lines (pa / 64) (0, 0)
/-- The answer that an access to a line has waited for is used up (R317, R330). -/
def useAnswer (m : MemSys) (pa : Nat) : MemSys :=
  { m with snooped := merase m.snooped (pa / 64), got := merase m.got (pa / 64) }
/-- The lease pair set by an access, which uses up the answer that it has waited for. -/
def putLine (m : MemSys) (pa : Nat) (v : Nat × Nat) : MemSys :=
  { useAnswer m pa with lines := mput m.lines (pa / 64) v (0, 0) }

/-- A line as one value. -/
def memLine (m : MemSys) (pa : Nat) : LineData := BitVec.ofNat 512 (memNat m (pa / 64 * 64) 64)

/-- A data store of bytes inside one granule: the TAG is cleared and the qualifier's code written (R62, R126). -/
def memStore (m : MemSys) (pa : Nat) (bs : List Byte) (f : BitVec 4) : MemSys :=
  putSide (memPut m pa bs) pa (storeFmt (sideWithTag (sideAt m pa) pa false) f)

/-- The capability of a granule with its tag (R134). -/
def memCap (m : MemSys) (pa : Nat) : Cap := ofCapBits (sideTag (sideAt m pa) pa) (BitVec.ofNat 128 (memNat m pa 16))

/-- A granule written with a capability and its tag (R134). -/
def memPutCap (m : MemSys) (pa : Nat) (c : Cap) : MemSys :=
  putSide (memPut m pa (bytesLE 16 (capBits c).toNat)) pa (sideWithTag (sideAt m pa) pa c.tag)

/-- The tags of the granules that a run of bytes touches, cleared, sector by sector, with a code where one is given. -/
def clearTags (m : MemSys) (pa : Nat) : Nat → MemSys
  | 0 => m
  | k + 1 => clearTags (putSide m (pa / 16 * 16) (sideWithTag (sideAt m pa) pa false)) (pa / 16 * 16 + 16) k

/-- Bytes that the host reads as they stand (R242). -/
def unhide (m : MemSys) (pa n : Nat) : MemSys :=
  if m.hidden.isEmpty then m else { m with hidden := m.hidden.filter fun (a, _) => !(pa ≤ a && a < pa + n) }

/-- A data write of any length by a party that is no group: bytes, tags cleared. -/
def memWrite (m : MemSys) (pa : Nat) (bs : List Byte) : MemSys :=
  if bs.isEmpty then m else clearTags (memPut (unhide m pa bs.length) pa bs) pa (ceilDiv (pa % 16 + bs.length) 16)

/-- A data store of bytes of one sector that arrives from another node (R61, R126): the tag of each granule that it touches is
cleared, and its code written. -/
def memArrive (m : MemSys) (pa : Nat) (bs : List Byte) (f : BitVec 4) : MemSys :=
  let m1 := memWrite m pa bs
  putSide m1 pa (storeFmt (sideAt m1 pa) f)

/-! ### Sealed lines (R341, R342) -/

/-- The key that world `w` has in its epoch: a free value (R341). -/
def worldKey (w epoch : Nat) : BitVec 256 := Config.freshKey (w * 2 ^ 32 + epoch)

/-- Its MAC key. -/
def worldMacKey (w epoch : Nat) : BitVec 256 := Config.freshKey (2 ^ 64 + w * 2 ^ 32 + epoch)

/-- The ciphertext of a line under a world's data key (R341). -/
def cipherLine (m : MemSys) (pa w e : Nat) : LineData :=
  Config.xtsLine (worldKey w e) (BitVec.ofNat 48 (pa / 64 * 64)) (memLine m pa)

/-- The MAC slot of a line of a protected region (R341). -/
def macSlot (m : MemSys) (pa : Nat) : Option Nat :=
  m.pregs.findSome? fun (_, b, n, k) =>
    if b.toNat ≤ pa && pa < b.toNat + n.toNat then some (k.toNat + 8 * ((pa - b.toNat) / 64)) else none

/-- The slot of a sealed line as the integrity engine writes it (R341). -/
def macWord (m : MemSys) (pa : Nat) : DWord :=
  match mfind m.sealed (pa / 64) with
  | some (w, e) => (Config.lineMac (worldMacKey w e) (cipherLine m pa w e) (sideAt m pa) (BitVec.ofNat 48 (pa / 64 * 64))).setWidth 64
  | none => 0

/-- The sealed line whose MAC the byte at an address belongs to, while no other party has written the slot. -/
def macLineAt (m : MemSys) (a : Nat) : Option Nat :=
  m.pregs.findSome? fun (_, b, n, k) =>
    let l := b.toNat / 64 + (a - k.toNat) / 8
    if k.toNat ≤ a && a < k.toNat + n.toNat / 8 && (mfind m.sealed l).isSome && !mget m.macs l false then some l else none

/-- No byte of a line belongs to such a MAC. -/
def macFree (m : MemSys) (pa : Nat) : Bool :=
  m.pregs.isEmpty || m.sealed.isEmpty || (List.range 64).all fun i => (macLineAt m (pa / 64 * 64 + i)).isNone

/-- A byte of the carve-out: of the MAC that stands there, or as memory holds it. -/
def macByte (m : MemSys) (a : Nat) : Byte :=
  match macLineAt m a with
  | some l => BitVec.ofNat 8 ((macWord m (64 * l)).toNat / 2 ^ (8 * ((a - (macSlot m (64 * l)).getD a) % 8)))
  | none => memByte m a

/-- A line's bytes with the MACs that it holds. -/
def macLine (m : MemSys) (pa : Nat) : LineData :=
  if macFree m pa then memLine m pa
  else BitVec.ofNat 512 (ofBytesLE ((List.range 64).map fun i => macByte m (pa / 64 * 64 + i)))

/-- The line as stored outside the world: ciphertext of a sealed line, else its bytes, MACs among them (R341). -/
def storedLine (m : MemSys) (pa : Nat) : LineData :=
  match mfind m.sealed (pa / 64) with
  | some (w, e) => cipherLine m pa w e
  | none => macLine m pa

/-- The MACs in a line stand there as memory holds them from now on. -/
def holdMacs (m : MemSys) (pa : Nat) : MemSys :=
  if macFree m pa then m
  else { m with macs := (List.range 64).foldl (fun x i => match macLineAt m (pa / 64 * 64 + i) with
    | some l => mput x l true false
    | none => x) m.macs }

/-- What a sealed line holds, kept: whoever has read its stored bits and its MAC may put them back (R341). -/
def keepPast (m : MemSys) (pa : Nat) : MemSys :=
  match mfind m.sealed (pa / 64) with
  | some t =>
    let x := (t, memLine m pa, sideAt m pa)
    let xs := mget m.past (pa / 64) []
    if xs.contains x then m else { m with past := mput m.past (pa / 64) (x :: xs) [] }
  | none => m

/-- The MAC of a line's earlier content. -/
def pastMac (pa : Nat) (x : (Nat × Nat) × LineData × BitVec 8) : DWord :=
  (Config.lineMac (worldMacKey x.1.1 x.1.2) (Config.xtsLine (worldKey x.1.1 x.1.2) (BitVec.ofNat 48 (pa / 64 * 64)) x.2.1) x.2.2
    (BitVec.ofNat 48 (pa / 64 * 64))).setWidth 64

/-- The content that a line opens to under a seal tag once its stored bits and its MAC of then have been put back (R341). -/
def openPast (m : MemSys) (t : Nat × Nat) (pa : Nat) : Option LineData :=
  if (mfind m.sealed (pa / 64)).isSome then none
  else ((mget m.past (pa / 64) []).find? fun x => x.1 == t && x.2.2 == sideAt m pa &&
    memLine m pa == Config.xtsLine (worldKey t.1 t.2) (BitVec.ofNat 48 (pa / 64 * 64)) x.2.1 &&
    match macSlot m pa with
    | some a => memNat m a 8 == (pastMac pa x).toNat
    | none => false).map (·.2.1)

/-- A line about to be written by a party that does not hold its key: what it holds is its stored bits from then on, and so are
the bits of its MAC slot. -/
def unsealLine (m0 : MemSys) (pa : Nat) : MemSys :=
  let m := keepPast m0 pa
  match mfind m.sealed (pa / 64) with
  | some _ =>
    let l := storedLine m pa
    let m1 := match macSlot m pa with
      | some a => if mget m.macs (pa / 64) false then m else memPut m a (bytesLE 8 (macWord m pa).toNat)
      | none => m
    { memPut m1 (pa / 64 * 64) (bytesLE 64 l.toNat) with sealed := merase m.sealed (pa / 64), macs := merase m.macs (pa / 64) }
  | none => if macFree m pa then m else holdMacs (memPut m (pa / 64 * 64) (bytesLE 64 (macLine m pa).toNat)) pa

/-- A line that a world writes whole or in part takes the world's seal, when the world has one, and with it a new MAC. -/
def sealLine (m : MemSys) (pa : Nat) (tag : Option (Nat × Nat)) : MemSys :=
  match tag with
  | some t =>
    let m := match openPast m t pa with
      | some l => memPut m (pa / 64 * 64) (bytesLE 64 l.toNat)
      | none => keepPast m pa
    { holdMacs m pa with sealed := minsert m.sealed (pa / 64) t, macs := merase (holdMacs m pa).macs (pa / 64) }
  | none => unsealLine m pa

/-- A line whose stored bits are its bytes: no world has sealed it, and it holds no MAC of one that is sealed. -/
def plainLine (m : MemSys) (pa : Nat) : Bool := (mfind m.sealed (pa / 64)).isNone && macFree m pa

/-- The MAC slot of a sealed line holds its MAC (R342). -/
def macGood (m : MemSys) (pa : Nat) : Bool :=
  !mget m.macs (pa / 64) false || match macSlot m pa with
    | some a => memNat m a 8 == (macWord m pa).toNat
    | none => true

/-- The regions changed: a sealed line whose slot lies elsewhere now has what memory holds there for its MAC. -/
def moveMacs (old new : MemSys) : MemSys :=
  { new with macs := old.sealed.foldl (fun x q =>
      if macSlot old (64 * q.1) = macSlot new (64 * q.1) then x else mput x q.1 true false) old.macs }

/-- The cause of an integrity failure of a line for a reader with this seal tag (R342, R343): 1 uncorrectable ECC,
2 MAC mismatch, 0 none. Lines of other packages and of the host are opened where they are. -/
def integOf (m : MemSys) (tag : Option (Nat × Nat)) (pa : Nat) : Nat :=
  if homeOf pa != .hbm then 0
  else if mget m.bad (pa / 64) false then 1
  else match tag with
    | some t => if (mfind m.sealed (pa / 64) = some t && macGood m pa) || (openPast m t pa).isSome then 0 else 2
    | none => 0

/-- A line as a reader with this seal tag opens it: its own plaintext, or the stored bits of another's line. -/
def viewLine (m : MemSys) (tag : Option (Nat × Nat)) (pa : Nat) : LineData :=
  match tag with
  | some t => (openPast m t pa).getD (memLine m pa)
  | none => storedLine m pa

/-! ### Leases (R234) -/

/-- The copy of a virtual line that a core may use (R293): the newest one it holds. -/
def findCopy (m : MemSys) (core ctx va : Nat) : Option Copy :=
  m.copies.find? fun c => c.core == core && c.ctx == ctx && c.va == va / 64 * 64

/-- Any copy of the virtual line in the package: L2 holds it. -/
def findL2 (m : MemSys) (ctx va : Nat) : Option Copy :=
  m.copies.find? fun c => c.ctx == ctx && c.va == va / 64 * 64

/-- A copy installed in place of the one that the core held. -/
def installCopy (m : MemSys) (c : Copy) : MemSys :=
  { m with copies := c :: m.copies.filter fun x => !(x.core == c.core && x.ctx == c.ctx && x.va == c.va) }

/-- A translated place in memory: physical address, its virtual address, whether L1 may hold the line, and whether the way
there leads over the fabric (R316). -/
structure Spot where
  pa    : Nat
  va    : Nat
  cache : Bool
  fab   : Bool := false
deriving DecidableEq, Repr

/-- The way of its slice that a line newly takes among those that its world may use (R340): which one is a free value. -/
def wayIn (ways : BitVec 24) (line : Nat) : Nat :=
  let ws := (List.range 24).filter fun i => ways.getLsbD i
  ws.getD (Config.wayPick line % ws.length) 0

/-- R234, load: the copy serves it while its lease reaches `t`; else the home grants t + 16 and sends a new copy.
The result is the write time of the version that serves the load. -/
def leaseLoad (m : MemSys) (core ctx : Nat) (tag : Option (Nat × Nat)) (ways : BitVec 24) (p : Spot) (t : Nat) : MemSys × Nat :=
  let home : Unit → MemSys × Nat := fun _ =>
    let (w, r) := lineAt m p.pa
    let r' := max r (t + 16)
    let m1 := putLine m p.pa (w, r')
    if p.cache then
      (installCopy m1 { core := core, ctx := ctx, va := p.va / 64 * 64, pa := p.pa / 64 * 64, data := viewLine m tag p.pa,
                        side := sideAt m p.pa, wts := w, rts := r', fab := p.fab,
                        way := wayIn ways (p.pa / 64) }, w)
    else (m1, w)
  if p.cache then
    match findCopy m core ctx p.va with
    | some c => if t ≤ c.rts then (m, c.wts) else home ()
    | none => home ()
  else home ()

/-- The line and side-band byte that a load at time `t` reads. -/
def versionAt (m : MemSys) (core ctx : Nat) (tag : Option (Nat × Nat)) (p : Spot) (t : Nat) : LineData × BitVec 8 :=
  if p.cache then
    match findCopy m core ctx p.va with
    | some c => if t ≤ c.rts then (c.data, c.side) else (viewLine m tag p.pa, sideAt m p.pa)
    | none => (viewLine m tag p.pa, sideAt m p.pa)
  else (viewLine m tag p.pa, sideAt m p.pa)

/-- `n` bytes of a line at an offset, as a number. -/
def lineNat (l : LineData) (off n : Nat) : Nat := l.toNat / 2 ^ (8 * off) % 2 ^ (8 * n)

/-- The new value of an atomic or delivery on an `n`-byte word (R141, R153); none where a failing compare writes nothing. -/
def aopEval (op : AOp) (n : Nat) (m v : DWord) : Option DWord :=
  let w := 8 * n
  let sx : DWord → Int := fun x => (BitVec.ofNat w x.toNat).toInt
  let u : DWord → Nat := fun x => x.toNat % 2 ^ w
  let ret : Nat → Option DWord := fun x => some (BitVec.ofNat 64 (x % 2 ^ w))
  match op with
  | .add => ret (u m + u v)
  | .and => ret (u (m &&& v))
  | .or => ret (u (m ||| v))
  | .xor => ret (u (m ^^^ v))
  | .maxS => ret (if sx m < sx v then u v else u m)
  | .maxU => ret (max (u m) (u v))
  | .minS => ret (if sx v < sx m then u v else u m)
  | .minU => ret (min (u m) (u v))
  | .swap => ret (u v)
  | .cas e => if u m == u e then ret (u v) else none
  | .addF => ret (fadd f32 .rn false (u m) (u v)).bits
  | .maxF => ret (fminmax f32 false true (u m) (u v)).bits
  | .minF => ret (fminmax f32 false false (u m) (u v)).bits

/-- Memory after an atomic that has met an old value, and whether it wrote (R153, R158): a failing compare leaves memory and tag
as they were. -/
def memAtomicOn (m : MemSys) (pa n : Nat) (op : AOp) (v old : DWord) : MemSys × DWord × Bool :=
  match aopEval op n old v with
  | some x => (memStore m pa (bytesLE n x.toNat) 15, old, true)
  | none => (m, old, false)
/-- The old value of an atomic and memory after it. -/
def memAtomic (m : MemSys) (pa n : Nat) (op : AOp) (v : DWord) : MemSys × DWord × Bool :=
  memAtomicOn m pa n op v (BitVec.ofNat 64 (memNat m pa n))

/-! ### Scratchpad (R136, R216, R218) -/

/-- Byte of scratchpad; the spec gives no value before a write. DESIGN CHOICE [8]. -/
def spByte (p : Spad) (o : Nat) : Byte := mget p.bytes o 0
/-- Little-endian number in scratchpad. -/
def spNat (p : Spad) (o n : Nat) : Nat := ofBytesLE ((List.range n).map fun i => spByte p (o + i))
/-- Bytes of scratchpad written, nothing else. -/
def spPut (p : Spad) (o : Nat) (bs : List Byte) : Spad := { p with bytes := mputAll p.bytes o bs 0 }
/-- Format code of a scratchpad sector. -/
def spFmt (p : Spad) (o : Nat) : BitVec 4 := mget p.fmt (o / 64) 0
/-- Tag of a granule. -/
def spTag (p : Spad) (o : Nat) : Bool := mget p.tags (o / 16) false
/-- Full bit of a granule (R136). -/
def spFull (p : Spad) (o : Nat) : Bool := mget p.full (o / 16) false
/-- Tag set. -/
def spPutTag (p : Spad) (o : Nat) (t : Bool) : Spad := { p with tags := mput p.tags (o / 16) t false }
/-- Full bit set. -/
def spPutFull (p : Spad) (o : Nat) (t : Bool) : Spad := { p with full := mput p.full (o / 16) t false }
/-- Lease pair of a scratchpad line. -/
def spLine (p : Spad) (o : Nat) : Nat × Nat := mget p.lines (o / 64) (0, 0)
/-- Lease pair set. -/
def spPutLine (p : Spad) (o : Nat) (v : Nat × Nat) : Spad := { p with lines := mput p.lines (o / 64) v (0, 0) }
/-- A data store inside one granule of scratchpad. -/
def spStore (p : Spad) (o : Nat) (bs : List Byte) (f : BitVec 4) : Spad :=
  let p := spPutTag (spPut p o bs) o false
  if f.toNat ≤ 11 then { p with fmt := mput p.fmt (o / 64) f 0 } else p
/-- The capability of a scratchpad granule. -/
def spCap (p : Spad) (o : Nat) : Cap := ofCapBits (spTag p o) (BitVec.ofNat 128 (spNat p o 16))
/-- A scratchpad granule written with a capability. -/
def spPutCap (p : Spad) (o : Nat) (c : Cap) : Spad := spPutTag (spPut p o (bytesLE 16 (capBits c).toNat)) o c.tag
/-- An atomic on scratchpad (R158). -/
def spAtomic (p : Spad) (o n : Nat) (op : AOp) (v : DWord) : Spad × DWord × Bool :=
  let old := BitVec.ofNat 64 (spNat p o n)
  match aopEval op n old v with
  | some x => (spStore p o (bytesLE n x.toNat) 15, old, true)
  | none => (p, old, false)

end Sys2Proof.Machine
end

