-- ==== Sys2Proof/Machine/Links.lean ====
section
/-! DEFINITION. The links of the fabric: packets, and the room that their flits draw on (R316, R326 to R328). -/
namespace Sys2Proof.Machine
open Sys2Proof

/-- Memory changed. -/
def modMem (s : State) (f : MemSys → MemSys) : State := { s with mem := f s.mem }

/-- Who makes an access: core, context, world, and the seal of the world's lines. -/
structure Who where
  core  : Nat
  ctx   : Nat
  world : Nat
  tag   : Option (Nat × Nat)
  /-- The L2 ways that lines of the world may take (R340). -/
  ways  : BitVec 24 := BitVec.allOnes 24
deriving DecidableEq, Repr

/-- The device's answers outward, one more. -/
def answer (s : State) (kind world : Nat) (data : List Byte) : State :=
  { s with answers := s.answers ++ [{ kind := kind, world := world, data := data }] }

/-- A byte of local HBM lies in an exported range: its line is homed at the last-hop switch (R318). -/
def exported (s : State) (pa : Nat) : Bool :=
  s.fab.exports.any fun (_, en, base, len) => en && base.toNat * 4096 ≤ pa && pa < (base.toNat + len.toNat) * 4096

/-- A port. -/
def portOf (s : State) (p : Nat) : Port := mget s.fab.ports p {}
/-- A port changed. -/
def modPort (s : State) (p : Nat) (f : Port → Port) : State :=
  { s with fab := { s.fab with ports := mmod s.fab.ports p {} f } }

/-- The slots of the shared pool at the peer (R326). -/
def poolSlots (p : Port) : Nat := p.peerSlots - p.peerRsv.foldl (fun n x => n + x.2) 0

/-- A flit drawn on the shared pool, while SENT - FREED is below its size (R327). -/
def drawPool (p : Port) (f : Flit) : Option (Port × Flit) :=
  if (p.sent - p.pFreed).toNat < poolSlots p then some ({ p with sent := p.sent + 1 }, { f with rsv := false }) else none

/-- A flit drawn on its world's reserve (R327). -/
def drawReserve (p : Port) (f : Flit) : Option (Port × Flit) :=
  let sw := mget p.sentW f.world 0
  if (sw - mget p.pFreedW f.world 0).toNat < mget p.peerRsv f.world 0 then
    some ({ p with sentW := mput p.sentW f.world (sw + 1) 0 }, { f with rsv := true })
  else none

/-- An ordinary flit draws on the pool, and on its world's reserve only when the pool is full (R326). -/
def drawOrdinary (p : Port) (f : Flit) : Option (Port × Flit) := (drawPool p f).or (drawReserve p f)

/-- A replayed flit draws on its world's reserve first (R326). -/
def drawReplay (p : Port) (f : Flit) : Option (Port × Flit) := (drawReserve p f).or (drawPool p f)

/-- The flits of a queue that have room, sent in order and held until they are known received; those that have none stay, and
hold no other world's flits back (R328). -/
def sendQueue : Port → List Flit → Port × List Flit × List Flit
  | p, [] => (p, [], [])
  | p, f :: r =>
    match drawOrdinary p f with
    | some (p1, f1) =>
      let f2 := { f1 with seq := p1.nextSeq }
      let q := sendQueue { p1 with nextSeq := p1.nextSeq + 1, held := p1.held ++ [f2] } r
      (q.1, f2 :: q.2.1, q.2.2)
    | none =>
      let q := sendQueue p r
      (q.1, q.2.1, f :: q.2.2)

/-- A flit put on the link (R326): the answer outward names the port. -/
def emitFlit (s : State) (port : Nat) (f : Flit) : State :=
  answer s 12 f.world (bytesLE 2 port ++ bytesLE 4 f.seq.toNat ++ [if f.rsv then 1 else 0, f.side] ++ bytesLE 64 f.body.toNat)

/-- The flits of a port that have room are sent. -/
def pumpPort (s : State) (port : Nat) : State :=
  let p := portOf s port
  if p.queue.isEmpty then s
  else
    let q := sendQueue p p.queue
    q.2.1.foldl (emitFlit · port) (modPort s port fun _ => { q.1 with queue := q.2.2 })

/-- A packet for a node: a header flit, and up to eight data flits with the side-band bytes of their sectors (R326). -/
def sendPacket (s : State) (node world : Nat) (req : Option FabReq) (ans : Option FabAns) (data : List (BitVec 512 × BitVec 8)) : State :=
  let port := Config.fabricPort node
  let head : Flit := { seq := 0, world := world, body := 0, caps := [], req := req, ans := ans }
  let flits := head :: (data.take 8).map fun d => { seq := 0, world := world, body := d.1, side := d.2, caps := [] }
  pumpPort (modPort s port fun p => { p with queue := p.queue ++ flits }) port

/-- The data flits of a request (R320, R326). -/
def flitsOf : FabOp → List (BitVec 512 × BitVec 8)
  | .load _ => []
  | .store bs fmt => [(BitVec.ofNat 512 (ofBytesLE bs), fmt.setWidth 8)]
  | .sector line side => [(line, side)]
  | .stc tag v => [(v.setWidth 512, if tag then 16 else 0)]
  | .atom _ _ v => [(v.setWidth 512, 0)]
  | .red _ _ v => [(v.setWidth 512, 0)]
  | .openWin _ _ => []
  | .closeWin _ _ => []
  | .msg _ _ v _ => [(v.setWidth 512, 0)]

/-- A line of another node's HBM, which is homed at the switch that leads to it (R316, R317). -/
def remote (pa : Nat) : Bool :=
  match homeOf pa with
  | .fabric _ => true
  | .hbm => false
  | .hole => false
  | .host => false

/-- The address by which the fabric knows a line of this node (R316). -/
def fabricPa (s : State) (pa : Nat) : Nat := 0x800000000000 + s.fab.node.toNat * 0x10000000000 + pa

/-- The node that a request to a translated address goes to over the fabric: the one it names, or this one where the way leads
over the fabric or the line is exported (R316, R318). -/
def fabNode (s : State) (pa : Nat) (fab : Bool) : Option Nat :=
  match homeOf pa with
  | .fabric node => some node
  | .hbm => if fab || exported s pa then some s.fab.node.toNat else none
  | .hole => none
  | .host => none

/-- A request of this package that a switch of the fabric answers (R316, R317), with its number. -/
def sendNumbered (s : State) (w : Who) (p : Spot) (time id : Nat) (op : FabOp) : State :=
  match fabNode s p.pa p.fab with
  | some node =>
    sendPacket s node w.world (some { node := s.fab.node.toNat, world := w.world, tworld := w.world, pa := p.pa % 0x10000000000,
                                      time := time, op := op, id := id }) none (flitsOf op)
  | none => s

/-- A request whose answer nothing waits for. -/
def sendReq (s : State) (w : Who) (p : Spot) (time : Nat) (op : FabOp) : State := sendNumbered s w p time 0 op

/-- A request to another node whose answer is waited for (R317). -/
def sendAsk (s : State) (world pa time : Nat) (op : FabOp) : State :=
  let n := s.fab.nextAsk
  sendNumbered { s with fab := { s.fab with asks := s.fab.asks ++ [(n, pa, op)], nextAsk := n + 1 } }
    { core := 0, ctx := 0, world := world, tag := none } { pa := pa, va := 0, cache := false } time n op

end Sys2Proof.Machine
end

