-- ==== Sys2Proof/Machine/Walk.lean ====
section
/-! DEFINITION. Translation and the checks of an access on its way to memory: the walk of both stages (R294 to R296),
the MTLB (R295), refusals (R316, R319), bias (R330, R331), readiness (R373) and integrity (R342). -/
namespace Sys2Proof.Machine
open Sys2Proof

/-- Needed rights: R, W, X in bits 0 to 2 (R304). -/
def needR : BitVec 3 := 1
def needW : BitVec 3 := 2
def needRW : BitVec 3 := 3
def needX : BitVec 3 := 4

/-- The world record. -/
def worldOf (s : State) (w : Nat) : World := mget s.worlds w {}
/-- The context record. -/
def ctxOf (s : State) (c : Nat) : Ctx := mget s.ctxs c {}
/-- A world record changed. -/
def modWorld (s : State) (w : Nat) (f : World → World) : State := { s with worlds := mmod s.worlds w {} f }
/-- A context record changed. -/
def modCtx (s : State) (c : Nat) (f : Ctx → Ctx) : State := { s with ctxs := mmod s.ctxs c {} f }
/-- A protected world (R336). -/
def isProtected (w : World) : Bool := w.tdisp == .run
/-- A world in ERROR: every TLP of its function is refused (R336). -/
def silenced (s : State) (w : Nat) : Bool :=
  let r := worldOf s w
  (w != 0 && !s.hol.sriov) || r.tdisp == .error || ((r.tdisp == .locked || r.tdisp == .run) && !r.t.ideOn)
/-- A world whose contexts may run (R336). -/
def worldRuns (w : World) : Bool := w.tdisp == .unlocked || w.tdisp == .run

/-- The seal of a world's lines: its number and key epoch while it is protected (R341). -/
def sealTag (s : State) (w : Nat) : Option (Nat × Nat) :=
  let r := worldOf s w
  if isProtected r then some (w, r.t.epoch) else none

/-- A page-table entry's fields (R294). -/
def pteV (e : Nat) : Bool := e % 2 == 1
def pteLeaf (e : Nat) : Bool := e / 2 % 2 == 1
/-- R, W, X of an entry in bits 0 to 2. -/
def pteRights (e : Nat) : BitVec 3 := BitVec.ofNat 3 (e / 16)
def pteCont (e : Nat) : Bool := e / 128 % 2 == 1
def pteOA (e : Nat) : Nat := e / 4096 % 2 ^ 36 * 4096
def pteMS (e : Nat) : Bool := e / 2 ^ 60 % 2 == 1
def pteSH (e : Nat) : Bool := e / 2 ^ 61 % 2 == 1

/-- The page size of one leaf at a level (R296). -/
def leafSize (n : Nat) : Nat := 2 ^ (12 + 9 * n)

/-- A reserved bit of an entry is 1 (R294). -/
def pteReserved (e : Nat) : Bool := e / 2 ^ 62 != 0 || e / 2 ^ 48 % 2 ^ 12 != 0 || e / 256 % 16 != 0 || e / 4 % 4 != 0

/-- A valid entry that is malformed by itself (R294, R296): `top` is the highest level at which a leaf may stand. -/
def pteMalformed (n : Nat) (e : Nat) : Bool :=
  pteReserved e
  || (!pteLeaf e && (e / 2 ^ 60 % 4 != 0 || e / 16 % 16 != 0 || n == 0))
  || (pteLeaf e && (n ≥ 3 || pteOA e % leafSize n != 0 || (pteCont e && n ≥ 2)))

/-- A contiguous group of 16 entries as R296 asks: every one a valid leaf with CONT, equal attributes, rising OA. -/
def contOk (n : Nat) (es : List Nat) : Bool :=
  let first := es.headD 0
  pteOA first % (16 * leafSize n) == 0 &&
  (List.range 16).all fun i =>
    let e := es.getD i 0
    pteV e && pteLeaf e && pteCont e && !pteMalformed n e && pteOA e == pteOA first + i * leafSize n &&
    pteRights e == pteRights first && pteSH e == pteSH first && pteMS e == pteMS first

/-- What a look at one table entry finds. -/
inductive Step1 where
  | table (oa : Nat)
  /-- Output address of the page of this size that holds the address, its rights, SH and MS. -/
  | leaf (size oa : Nat) (rights : BitVec 3) (sh ms : Bool)
  | invalid
  | malformed
deriving DecidableEq, Repr

/-- One entry of a table at level n (R294 to R296): `rd i` reads entry i of the table. One entry with CONT makes its 16 a
contiguous group. -/
def readEntry (rd : Nat → Nat) (n va : Nat) : Step1 :=
  let i := va / leafSize n % 512
  let e := rd i
  if !pteV e then .invalid
  else if pteMalformed n e then .malformed
  else
    let es := if n ≤ 1 then (List.range 16).map fun k => rd (i / 16 * 16 + k) else []
    if es.any pteCont then
      if contOk n es then .leaf (16 * leafSize n) (pteOA (es.headD 0)) (pteRights e) (pteSH e) (pteMS e) else .malformed
    else if !pteLeaf e then .table (pteOA e)
    else .leaf (leafSize n) (pteOA e) (pteRights e) (pteSH e) (pteMS e)

/-- What an access waits for at a line. -/
inductive Awaits where
  /-- Its stack, or the flip of its page (R331, R373). -/
  | ready
  /-- The host's answer to BISnpData (1) or BISnpInv (2), which an access of this kind needs (R330). -/
  | snoop (kind : Nat)
  /-- The line itself, from another node: for which world, and at what time (R317). -/
  | line (world time : Nat)
deriving DecidableEq, Repr

/-- The outcome of a walk (R295). -/
inductive WalkRes where
  /-- Physical address, rights of each stage with their levels, SH, MS, effective page size. -/
  | ok (pa ipa : Nat) (s1 s2 : BitVec 3) (lv1 lv2 : Nat) (sh ms : Bool) (size : Nat)
  /-- KIND, LEVEL, IPA, and whether the record is world 0's. -/
  | fault (kind level ipa : Nat) (host : Bool)
  /-- A line of a table waits, and for what (R330, R331, R373). -/
  | hold (pa : Nat) (why : Awaits)
deriving DecidableEq, Repr

/-- A page of local HBM is in host bias (R330). -/
def hostBias (s : State) (pa : Nat) : Bool := mget s.mem.bias (pa / 4096) false

/-- A flip in progress covers the page (R331). -/
def flipCovers (s : State) (pa : Nat) : Bool :=
  let f := s.mem.bflip
  f.busy && f.page ≤ pa / 4096 && pa / 4096 < f.page + f.len.toNat

/-- The stack of a local address is ready (R372, R373). -/
def stackReady (s : State) (pa : Nat) : Bool := bits s.hol.ready (16 + hbmStack pa) 1 == 1

/-- A device access to a local line waits, and for what (R330, R331, R373). An access of kind `k` needs that snoop, or the
stronger one. -/
def waits (s : State) (pa k : Nat) : Option Awaits :=
  if homeOf pa != .hbm then none
  else if !stackReady s pa || flipCovers s pa then some .ready
  else if hostBias s pa && mget s.mem.snooped (pa / 64) 0 < k then some (.snoop k)
  else none

/-- The snoop that an access of this need sends (R330). -/
def snoopKind (need : BitVec 3) : Nat := if need &&& needW != 0 then 2 else 1

/-- A line that the read of a table entry waits for: the entry's own, or at levels 0 and 1 one of its 16's. -/
def tableWaits (s : State) (t n va : Nat) : Option (Nat × Awaits) :=
  let i := va / leafSize n % 512
  let as := if n ≤ 1 then [t + 8 * i, t + 128 * (i / 16), t + 128 * (i / 16) + 64] else [t + 8 * i]
  as.findSome? fun a => (waits s (canonPa s.fab.node a) 1).map fun k => (canonPa s.fab.node a, k)

/-- A table entry whose read fails after translation, its line one that does not open among them: KIND 6 (R295, R342). -/
def readFails (s : State) (tag : Option (Nat × Nat)) (pa : Nat) : Bool :=
  homeOf pa == .hole || integOf s.mem tag (canonPa s.fab.node pa) != 0

/-- A table entry as a reader with this seal tag opens its line (R341). -/
def tableWord (s : State) (tag : Option (Nat × Nat)) (a : Nat) : Nat :=
  let pa := canonPa s.fab.node a
  lineNat (viewLine s.mem tag pa) (pa % 64) 8

/-- The stage-2 outcome: physical address, rights, level, SH, MS, page size. -/
inductive S2Res where
  | ok (pa : Nat) (rights : BitVec 3) (level : Nat) (sh ms : Bool) (size : Nat)
  | fault (kind level : Nat)
  | hold (pa : Nat) (why : Awaits)
deriving DecidableEq, Repr

/-- Stage-2 levels 3 to 0 from a table at a physical address (R295). -/
def s2Levels (s : State) (ipa : Nat) : Nat → Nat → S2Res
  | 0, _ => .fault 5 0
  | n + 1, t =>
    match tableWaits s t n ipa with
    | some (pa, k) => .hold pa k
    | none => if readFails s none (t + 8 * (ipa / leafSize n % 512)) then .fault 6 n
      else match readEntry (fun i => tableWord s none (t + 8 * i)) n ipa with
      | .invalid => .fault 3 n
      | .malformed => .fault 5 n
      | .table oa => s2Levels s ipa n oa
      | .leaf sz oa rt sh ms => .ok (oa + ipa % sz) rt n sh ms sz

/-- A protected region of world 0's trust aperture holds the address (R341). -/
def inPreg (s : State) (pa : Nat) : Bool :=
  s.mem.pregs.any fun (_, b, sz, _) => b.toNat ≤ pa && pa < b.toNat + sz.toNat

/-- The stage-2 walk of a world (R295, R341): with EN = 0 world 0 passes addresses on, and every other world faults. -/
def stage2 (s : State) (w ipa : Nat) (need : BitVec 3) : S2Res :=
  let r := worldOf s w
  if !r.s2en then (if w == 0 then .ok ipa 7 0 false false (2 ^ 48) else .fault 3 3)
  else match s2Levels s ipa 4 (r.s2root.toNat * 4096) with
    | .ok pa rt n sh ms sz =>
      if rt &&& need != need then .fault 4 n
      else if isProtected r && !inPreg s pa then .fault 4 n
      else .ok pa rt n sh ms sz
    | f => f

/-- Stage-1 levels from a table at an intermediate address (R295). -/
def s1Levels (s : State) (w va : Nat) (need : BitVec 3) : Nat → Nat → WalkRes
  | 0, _ => .fault 5 0 0 false
  | n + 1, t =>
    match stage2 s w (t + 8 * (va / leafSize n % 512)) needR with
    | .fault k l => .fault k l (t + 8 * (va / leafSize n % 512)) true
    | .hold pa k => .hold pa k
    | .ok ta _ _ _ _ _ =>
      let base := ta / 4096 * 4096
      match tableWaits s base n va with
      | some (pa, k) => .hold pa k
      | none => if readFails s (sealTag s w) ta then .fault 6 n 0 false
        else match readEntry (fun i => tableWord s (sealTag s w) (base + 8 * i)) n va with
        | .invalid => .fault 1 n 0 false
        | .malformed => .fault 5 n 0 false
        | .table oa => s1Levels s w va need n oa
        | .leaf sz oa rt sh ms =>
          if rt &&& need != need then .fault 2 n 0 false
          else
            let ipa := oa + va % sz
            match stage2 s w ipa need with
            | .fault k l => .fault k l ipa true
            | .hold pa k => .hold pa k
            | .ok pa rt2 n2 sh2 ms2 sz2 => .ok pa ipa rt rt2 n n2 (sh || sh2) (ms || ms2) (min sz sz2)

/-- The walk of a context's virtual address (R295, R297). -/
def walk (s : State) (c va : Nat) (need : BitVec 3) : WalkRes :=
  let x := ctxOf s c
  if bits x.s1 63 1 == 0 then .fault 1 4 0 false
  else s1Levels s x.world va need 5 (bits x.s1 12 36 * 4096)

/-- The MTLB entry of a successful walk: the effective page (R295). -/
def tlbOf (c va : Nat) : WalkRes → Option Tlb
  | .ok pa ipa s1 s2 l1 l2 sh ms size =>
    some { ctx := c, va := va / size * size, size := size, pa := pa - va % size, ipa := ipa - va % size,
           s1 := s1, s2 := s2, lv1 := l1, lv2 := l2, sh := sh, ms := ms }
  | .fault _ _ _ _ => none
  | .hold _ _ => none

/-- The MTLB entry that covers an address (R295). -/
def tlbFind (m : MemSys) (c va : Nat) : Option Tlb :=
  m.mtlb.find? fun t => t.ctx == c && t.va ≤ va && va < t.va + t.size

/-- An MTLB entry added in place of one of the same page. -/
def tlbAdd (m : MemSys) (t : Tlb) : MemSys :=
  { m with mtlb := t :: m.mtlb.filter fun x => !(x.ctx == t.ctx && x.va == t.va && x.size == t.size) }

/-- The stage-2 table entries that a walk reads, from a level on. -/
def s2Reads (s : State) (ipa : Nat) : Nat → Nat → List Nat
  | 0, _ => []
  | n + 1, t =>
    let a := t + 8 * (ipa / leafSize n % 512)
    a :: match readEntry (fun i => tableWord s none (t + 8 * i)) n ipa with
      | .table oa => s2Reads s ipa n oa
      | .leaf _ _ _ _ _ => []
      | .invalid => []
      | .malformed => []

/-- The stage-2 table entries that the translation of an address reads. -/
def stage2Reads (s : State) (w ipa : Nat) : List Nat :=
  let r := worldOf s w
  if r.s2en then s2Reads s ipa 4 (r.s2root.toNat * 4096) else []

/-- The table entries of both stages that a walk reads, from a level on. -/
def s1Reads (s : State) (w va : Nat) : Nat → Nat → List Nat
  | 0, _ => []
  | n + 1, t =>
    let a := t + 8 * (va / leafSize n % 512)
    stage2Reads s w a ++ match stage2 s w a needR with
      | .fault _ _ => []
      | .hold _ _ => []
      | .ok ta _ _ _ _ _ =>
        ta :: match readEntry (fun i => tableWord s (sealTag s w) (ta / 4096 * 4096 + 8 * i)) n va with
          | .table oa => s1Reads s w va n oa
          | .leaf sz oa _ _ _ => stage2Reads s w (oa + va % sz)
          | .invalid => []
          | .malformed => []

/-- The host's answers that reads of table entries have waited for are used up (R330). -/
def useReads (s : State) (as : List Nat) : State :=
  if s.mem.snooped.isEmpty then s else modMem s fun m => as.foldl (fun m a => useAnswer m (canonPa s.fab.node a)) m

/-- The walk of an address with its entry kept (R295); one that waits for nothing uses up the answers for the lines that it reads. -/
def walkFill (s : State) (c va : Nat) (need : BitVec 3) : State × WalkRes :=
  let x := ctxOf s c
  match walk s c va need with
  | .hold pa k => (s, .hold pa k)
  | r =>
    let s1 := if s.mem.snooped.isEmpty || bits x.s1 63 1 == 0 then s else useReads s (s1Reads s x.world va 5 (bits x.s1 12 36 * 4096))
    match tlbOf c va r with
    | some t => (modMem s1 (tlbAdd · t), r)
    | none => (s1, r)

/-- An access-table entry passes a request (R319): rights R, W, A, M in bits 0 to 3. -/
def accessPass (s : State) (tnode node world lo len : Nat) (need : BitVec 4) : Bool :=
  s.fab.access.any fun e => e.tnode == tnode && e.node == node && e.world == world && e.lo ≤ lo &&
    lo + len ≤ e.lo + e.len && e.rights &&& need == need

/-- A message of an open window passes the access table of the port that leads to its target (R319, R323): right M. -/
def messagePass (s : State) (w : Window) : Bool :=
  s.fab.access.any fun e => e.tnode == w.node && e.node == s.fab.node.toNat && e.world == w.world && e.tworld == w.rworld && e.rights.getLsbD 3

/-- A request of this package to a physical address meets a refusal (R316, R318, R319): the needed rights on the fabric. An
access to one's own exported line is forwarded to the switch, and checked there like any other. -/
def refused (s : State) (world pa n : Nat) (need : BitVec 4) : Bool :=
  match homeOf pa with
  | .hbm => exported s pa && !accessPass s s.fab.node.toNat s.fab.node.toNat world pa n need
  | .host => false
  | .hole => true
  | .fabric t => !accessPass s t s.fab.node.toNat world (pa % 0x10000000000) n need

/-- L1 and L2 may hold the line (R216, R299, R330): not SH, not MS, device bias, not host memory, and the core has an L1. -/
def cacheable (s : State) (core : Nat) (sh ms : Bool) (pa : Nat) : Bool :=
  !sh && !ms && homeOf pa != .host && !(homeOf pa == .hbm && hostBias s pa) && (mget s.hol.cores core {}).carve < 6

/-- What an access finds on its way (R293 to R302, R319, R323, R342). -/
inductive Look where
  | ok (p : Spot)
  /-- Doorbell page of an open window. -/
  | door (win : Nat)
  /-- The MTLB misses: a walk is needed. -/
  | miss
  /-- It waits at a line and does not fault: what for, as `waits` says. -/
  | hold (pa : Nat) (why : Awaits)
  | fault (kind level ipa : Nat) (host : Bool)
  | integ (cause pa : Nat)
deriving DecidableEq, Repr

/-- The open window whose first page holds the address (R322, R323). -/
def doorOf (s : State) (c va : Nat) : Option Nat :=
  (s.fab.wins.find? fun (_, w) => w.opened && w.ctx == c && w.va.toNat * 4096 ≤ va && va < w.va.toNat * 4096 + 4096).map (·.1)

/-- The open window of a context that an address lies in (R322). -/
def windowAt (s : State) (ctx a : Nat) : Option Nat :=
  (s.fab.wins.find? fun (_, w) => w.opened && w.ctx == ctx && w.va.toNat * 4096 ≤ a && a < (w.va.toNat + w.npages.toNat) * 4096).map (·.1)

/-- The needed rights on the fabric (R319): R, W, A in bits 0 to 2. -/
def fabNeed (need : BitVec 3) : BitVec 4 := if need == needRW then 4 else if need == needW then 2 else 1

/-- It waits. -/
def Look.isHold : Look → Bool
  | .hold _ _ => true
  | .ok _ => false
  | .door _ => false
  | .miss => false
  | .fault _ _ _ _ => false
  | .integ _ _ => false

/-- A request for a line of another node has not been answered. -/
def asking (s : State) (pa : Nat) : Bool := s.fab.asks.any fun q => q.2.1 / 64 == pa / 64 && match q.2.2 with
  | .load _ => true
  | _ => false

/-- What waits for an answer asks for it: one snoop of the line, or of a stronger kind (R330), or one load of another node's line
(R317). -/
def ask (s : State) : Look → State
  | .hold _ .ready => s
  | .hold pa (.snoop k) =>
    if mget s.mem.asked (pa / 64) 0 < k then
      answer (modMem s fun m => { m with asked := mput m.asked (pa / 64) k 0 }) 10 0 (bytesLE 1 k ++ bytesLE 6 (pa / 64 * 64))
    else s
  | .hold pa (.line w t) => if asking s pa then s else sendAsk s w (pa / 64 * 64) t (.load 64)
  | .ok _ => s
  | .door _ => s
  | .miss => s
  | .fault _ _ _ _ => s
  | .integ _ _ => s

/-- The latest time of the groups of a core's blocks of a context. -/
def coreTop (s : State) (w : Who) : Nat :=
  s.blocks.foldl (fun t kb => if kb.2.core == w.core && kb.2.ctx == w.ctx then kb.2.groups.foldl (fun t g => max t g.pts) t else t) 0

/-- The core's own copy of a virtual line serves its loads (R234). -/
def ownCopy (s : State) (w : Who) (va : Nat) : Bool :=
  match findCopy s.mem w.core w.ctx va with
  | some c => decide (coreTop s w ≤ c.rts)
  | none => false

/-- What an access of this need waits for at a line: the package's own, or a read of another node's (R317, R330, R331, R373). -/
def lineWaits (s : State) (w : Who) (pa : Nat) (need : BitVec 3) : Option Awaits :=
  if remote pa then (if need &&& needW == 0 && (mfind s.mem.got (pa / 64)).isNone then some (.line w.world (coreTop s w)) else none)
  else waits s pa (snoopKind need)

/-- The cause of an integrity failure that an access meets at a line, 0 for none (R342). -/
def lineInteg (s : State) (tag : Option (Nat × Nat)) (pa : Nat) : Nat :=
  if remote pa then mget s.mem.got (pa / 64) 0 else integOf s.mem tag pa

/-- A translated address: refused, waiting, failing its integrity check, or good. A load that the core's own copy serves reads no
line. -/
def lookPa (s : State) (w : Who) (va pa n : Nat) (need : BitVec 3) (fab : BitVec 4) (cache opens : Bool) : Look :=
  if refused s w.world pa n fab then .fault 4 0 pa true
  else
    let way := match homeOf pa with
      | .fabric _ => true
      | _ => false
    let pa := canonPa s.fab.node pa
    let spot : Spot := { pa := pa, va := va, cache := cache, fab := way }
    if cache && need == needR && ownCopy s w va then .ok spot
    else match lineWaits s w pa need with
    | some k => .hold pa k
    | none => if opens && lineInteg s w.tag pa != 0 then .integ (lineInteg s w.tag pa) (pa / 64 * 64) else .ok spot

/-- The look of one virtual access of `n` bytes. Loads may hit a line that L1 or L2 holds, without translation (R293).
`opens`: the line's seal is checked; a write that covers the whole line replaces it unread (R342). -/
def lookVaF (s : State) (w : Who) (va n : Nat) (need : BitVec 3) (fab : BitVec 4) (opens : Bool) : Look :=
  match doorOf s w.ctx va with
  | some win => .door win
  | none =>
    match (if need == needR then findL2 s.mem w.ctx va else none) with
    | some c => lookPa s w va ((if c.fab && !remote c.pa then fabricPa s c.pa else c.pa) + va % 64) n need fab
        (cacheable s w.core false false c.pa) opens
    | none =>
      match tlbFind s.mem w.ctx va with
      | none => .miss
      | some t =>
        if t.s1 &&& need != need then .fault 2 t.lv1 0 false
        else if t.s2 &&& need != need then .fault 4 t.lv2 (t.ipa + (va - t.va)) true
        else
          let pa := t.pa + (va - t.va)
          lookPa s w va pa n need fab (cacheable s w.core t.sh t.ms pa) opens

/-- As `lookVaF`, with the fabric rights of a plain access, which a doorbell page refuses (R323). -/
def lookVa (s : State) (w : Who) (va n : Nat) (need : BitVec 3) (opens : Bool) : Look :=
  match lookVaF s w va n need (fabNeed need) opens with
  | .door _ => .fault 4 0 0 true
  | l => l

/-- As `lookVa`, walking at once on a miss: for the parties whose translation is one act of their step. One that waits asks
for the host's answer. -/
def resolveVa (s : State) (w : Who) (va n : Nat) (need : BitVec 3) (opens : Bool) : State × Look :=
  match lookVa s w va n need opens with
  | .miss =>
    match walkFill s w.ctx va need with
    | (s1, .ok _ _ _ _ _ _ _ _ _) =>
      let l := lookVa s1 w va n need opens
      (ask s1 l, l)
    | (s1, .fault k l i h) => (s1, .fault k l i h)
    | (s1, .hold pa k) => (ask s1 (.hold pa k), .hold pa k)
  | r => (ask s r, r)

end Sys2Proof.Machine
end

