-- ==== Sys2Proof/Machine/Access.lean ====
section
/-! DEFINITION. Accesses: confirmation, the lease rules over the lanes of one word, ranges that the hardware moves,
record rings, and the delivery of loaded values (R131 to R141, R229 to R243, R300 to R305). -/
namespace Sys2Proof.Machine
open Sys2Proof

/-! ### Blocks and groups -/

/-- The block of a number. -/
def blockOf (s : State) (k : Nat) : Option Block := mfind s.blocks k
/-- A block put back. -/
def putBlock (s : State) (k : Nat) (b : Block) : State := { s with blocks := minsert s.blocks k b }
/-- A block changed. -/
def modBlock (s : State) (k : Nat) (f : Block → Block) : State :=
  match blockOf s k with
  | some b => putBlock s k (f b)
  | none => s
/-- A group of a block. -/
def groupOf (s : State) (k g : Nat) : Option Group :=
  match blockOf s k with
  | some b => b.groups[g]?
  | none => none
/-- A group changed in its block. -/
def Block.modGroup (b : Block) (g : Nat) (f : Group → Group) : Block := { b with groups := modAt b.groups g f }
/-- A group changed. -/
def modGroup (s : State) (k g : Nat) (f : Group → Group) : State := modBlock s k (·.modGroup g f)

/-- The ways that worlds other than one have reserved. -/
def otherWays (s : State) (w : Nat) : BitVec 24 := s.worlds.foldl (fun m x => if x.1 == w then m else m ||| x.2.t.ways) 0

/-- The ways that a world's lines are allocated in (R340): its own, and those that no world reserves. -/
def openWays (s : State) (w : Nat) : BitVec 24 := ~~~(otherWays s w)

/-- Who a block's groups are as a party of memory. -/
def whoOf (s : State) (b : Block) : Who :=
  { core := b.core, ctx := b.ctx, world := b.world, tag := sealTag s b.world, ways := openWays s b.world }

/-- Context time (R269): live while running or halting, else the frozen value. -/
def ctOf (s : State) (c : Nat) : Nat :=
  let x := ctxOf s c
  if x.st == 1 || x.st == 2 then ((s.gt : Int) - x.stopped - x.base).toNat else x.f

/-- The context is stopped: completions are held until it resumes (R274). One that has never been resumed holds none: its
engine cards run. -/
def ctxHolds (s : State) (c : Nat) : Bool :=
  let x := ctxOf s c
  !(x.st == 1 || x.st == 2 || (x.st == 4 && x.fresh))

/-- A logical time that rises, with the idle count of R236 begun again. -/
def Group.raise (g : Group) (t : Nat) : Group := if g.pts < t then { g with pts := t, ptsIdle := 0 } else g

/-! ### Stash regions (R137, R138) -/

/-- The stash region that holds a scratchpad byte, with its index. -/
def stashAt (b : Block) (o : Nat) : Option (Nat × Stash) :=
  let rec go : List Stash → Nat → Option (Nat × Stash)
    | [], _ => none
    | r :: rs, i => if r.at0 ≤ o && o < r.at0 + r.len then some (i, r) else go rs (i + 1)
  go b.stash 0

/-- The virtual line that a stash byte stands for. -/
def Stash.lineVa (r : Stash) (o : Nat) : Nat := r.cap.addr.toNat + (o - r.at0) / 64 * 64
/-- The number of the line in its region. -/
def Stash.lineNo (r : Stash) (o : Nat) : Nat := (o - r.at0) / 64

/-- The bytes of a filled line that are not dirty take the version's; the tags of granules with no dirty byte and the
code come with it. -/
def fillBytes (b : Block) (i : Nat) (r : Stash) (ln : Nat) (data : LineData) (side : BitVec 8) (f : Filled) : Block :=
  let o := r.at0 + 64 * ln
  let clean := fun k => mget r.dirty (64 * ln + k) 0 == 0
  let sp := (List.range 64).foldl (fun sp k =>
    if clean k then spPut sp (o + k) [BitVec.ofNat 8 (lineNat data k 1)] else sp) b.spad
  let sp := (List.range 4).foldl (fun sp q =>
    if (List.range 16).all fun k => clean (16 * q + k) then spPutTag sp (o + 16 * q) (sideTag side (16 * q)) else sp) sp
  let sp := if (List.range 64).all clean then { sp with fmt := mput sp.fmt (o / 64) (sideFmt side) 0 } else sp
  { b with spad := sp, stash := setAt b.stash i { r with fill := minsert r.fill ln f } }

/-- The bytes that a store of a group marks dirty. -/
def markDirty (b : Block) (gix o n : Nat) : Block :=
  match stashAt b o with
  | none => b
  | some (i, r) =>
    { b with stash := setAt b.stash i { r with dirty := (List.range n).foldl (fun d k => minsert d (o - r.at0 + k) (gix + 1)) r.dirty } }

/-! ### One word's lanes (R132, R133, R231) -/

/-- A capability as a place of memory holds or gives it (R126, R320): over the fabric a tag passes with FAB alone; host
memory has none. -/
def fabCap (p : Spot) (c : Cap) : Cap :=
  match homeOf p.pa with
  | .fabric _ => if hasPerm c pFAB then c else { c with tag := false }
  | .hbm => if p.fab && !hasPerm c pFAB then { c with tag := false } else c
  | .hole => c
  | .host => { c with tag := false }

/-- Memory and the block while a word of one of its groups is performed. -/
structure Sys where
  m : MemSys
  b : Block
  gix : Nat := 0
deriving DecidableEq, Repr

/-- The spot of a confirmed lane. -/
def LaneAcc.spot (a : LaneAcc) : Option Spot := a.pa.map fun (p, c) => { pa := p, va := a.va.toNat, cache := c, fab := a.fab }

/-- A confirmed lane's line lies on another VX9. -/
def LaneAcc.far (a : LaneAcc) : Bool :=
  match a.pa with
  | some (pa, _) => !a.spad && match homeOf pa with
    | .fabric _ => true
    | _ => false
  | none => false

/-- A side-band byte as a line arrives with it (R126, R320): over the fabric a tag passes for a capability with FAB alone. -/
def arriveSide (p : Spot) (line : LineData) (side : BitVec 8) : BitVec 8 :=
  (List.range 4).foldl (fun v i =>
    sideWithTag v (16 * i) (fabCap p (ofCapBits (sideTag side (16 * i)) (BitVec.ofNat 128 (lineNat line (16 * i) 16)))).tag) side

/-- A stash line made fit to be read at time `t`: filled, or renewed when its lease has ended (R138). -/
def fillAt (y : Sys) (w : Who) (o t : Nat) (pa : Option (Nat × Bool)) (fab : Bool) : Sys × Nat :=
  match stashAt y.b o with
  | none => (y, 0)
  | some (i, r) =>
    let ln := r.lineNo o
    let go : Nat → Bool → Bool → Sys × Nat := fun p cache fab =>
      let sp : Spot := { pa := p, va := r.lineVa o, cache := cache, fab := fab }
      let (m, wts) := leaseLoad y.m w.core w.ctx w.tag w.ways sp t
      let (d, side) := versionAt m w.core w.ctx w.tag sp t
      let lease := match (if cache then findCopy m w.core w.ctx sp.va else none) with
        | some c => c.rts
        | none => (lineAt m p).2
      ({ y with m := m, b := fillBytes y.b i r ln d (arriveSide sp d side) { lease := lease, wts := wts, pa := p, fab := fab } }, wts)
    match mfind r.fill ln with
    | some f => if t ≤ f.lease && !f.stale then (y, f.wts) else go f.pa false f.fab
    | none => match pa with
      | some (p, cache) => go p cache fab
      | none => (y, 0)

/-- The lease a lane takes as a load at time `t`, and the write time it meets (R234). -/
def leaseLane (y : Sys) (w : Who) (t : Nat) (a : LaneAcc) : Sys × Nat :=
  if a.spad then
    let (y, w1) := fillAt y w a.va.toNat t a.pa a.fab
    let (wt, r) := spLine y.b.spad a.va.toNat
    ({ y with b := { y.b with spad := spPutLine y.b.spad a.va.toNat (wt, max r t) } }, max w1 wt)
  else match a.spot with
    | none => (y, 0)
    | some p => let (m, wt) := leaseLoad y.m w.core w.ctx w.tag w.ways p t
      ({ y with m := m }, wt)

/-- One pass over the lanes of a load word at time `t`. -/
def leasePass (w : Who) (t : Nat) (y : Sys) : List LaneAcc → Sys × Nat
  | [] => (y, t)
  | a :: r =>
    let (y1, wt) := leaseLane y w t a
    let (y2, top) := leasePass w t y1 r
    (y2, max wt top)

/-- The time of a load word: the least that no version it reads was written after (R234, R231). -/
def settle (w : Who) (ls : List LaneAcc) : Nat → Sys → Nat → Sys × Nat
  | 0, y, t => (y, t)
  | n + 1, y, t =>
    let (y1, t1) := leasePass w t y ls
    if t1 ≤ t then (y1, t) else settle w ls n y1 t1

/-- A loaded value, and whether its sector's code disagrees with the qualifier (R63). -/
def readLane (y : Sys) (w : Who) (t : Nat) (a : LaneAcc) : Val × Bool :=
  let o := a.va.toNat
  let (isCap, keep) := match a.op with
    | .ldc keep => (true, keep)
    | _ => (false, false)
  let strip : Cap → Cap := fun c => if keep then c else { c with tag := false }
  if a.spad then
    (if isCap then .cap (strip (spCap y.b.spad o)) else .data (BitVec.ofNat 64 (spNat y.b.spad o a.n)),
     a.fmt.toNat ≤ 11 && spFmt y.b.spad o != 0 && spFmt y.b.spad o != a.fmt)
  else match a.spot with
    | none => (.data 0, false)
    | some p =>
      let (d, side) := versionAt y.m w.core w.ctx w.tag p t
      let v := lineNat d (p.pa % 64) a.n
      (if isCap then .cap (strip (fabCap p (ofCapBits (sideTag side p.pa) (BitVec.ofNat 128 v))))
       else .data (BitVec.ofNat 64 v),
       a.fmt.toNat ≤ 11 && sideFmt side != 0 && sideFmt side != a.fmt)

/-- The lease end that a store of a lane must pass (R234). -/
def leaseEnd (y : Sys) (a : LaneAcc) : Nat :=
  if a.spad then (spLine y.b.spad a.va.toNat).2
  else match a.spot with
    | none => 0
    | some p => (lineAt y.m p.pa).2

/-- The write time of a lane's line. -/
def writeTime (y : Sys) (a : LaneAcc) : Nat :=
  if a.spad then (spLine y.b.spad a.va.toNat).1
  else match a.spot with
    | none => 0
    | some p => (lineAt y.m p.pa).1

/-- A lane's line given a lease pair. -/
def putLease (y : Sys) (a : LaneAcc) (v : Nat × Nat) : Sys :=
  if a.spad then { y with b := { y.b with spad := spPutLine y.b.spad a.va.toNat v } }
  else match a.spot with
    | none => y
    | some p => { y with m := putLine y.m p.pa v }

/-- One lane's write or atomic at its place, with the old value of an atomic and whether it wrote. -/
def applyLane (y : Sys) (w : Who) (a : LaneAcc) : Sys × Option Val × Bool :=
  let o := a.va.toNat
  let onSpad : (Spad → Spad) → Sys := fun f => { y with b := markDirty { y.b with spad := f y.b.spad } y.gix o a.n }
  let onMem : (MemSys → Spot → MemSys) → Sys := fun f =>
    match a.spot with
    | none => y
    | some p => { y with m := f (sealLine y.m p.pa w.tag) p }
  match a.op with
  | .ld => (y, none, false)
  | .ldc _ => (y, none, false)
  | .ldfe clr => (if clr then { y with b := { y.b with spad := spPutFull y.b.spad o false } } else y, none, false)
  | .st v =>
    if a.spad then (onSpad fun p => spStore p o (bytesLE a.n v.toNat) a.fmt, none, true)
    else (onMem fun m p => memStore m p.pa (bytesLE a.n v.toNat) a.fmt, none, true)
  | .stfe v => (onSpad fun p => spPutFull (spStore p o (bytesLE a.n v.toNat) 15) o true, none, true)
  | .stc c =>
    if a.spad then (onSpad fun p => spPutCap p o c, none, true)
    else (onMem fun m p => memPutCap m p.pa (fabCap p c), none, true)
  | .atom op v =>
    if a.spad then
      let (p, old, wr) := spAtomic y.b.spad o a.n op v
      (if wr then { y with b := markDirty { y.b with spad := p } y.gix o a.n } else y, some (.data old), wr)
    else match a.spot with
      | none => (y, none, false)
      | some p =>
        let m0 := sealLine y.m p.pa w.tag
        -- R321: another node's line has been changed where it is homed
        let (m, old, wr) := memAtomicOn m0 p.pa a.n op v (a.ans.getD (BitVec.ofNat 64 (memNat m0 p.pa a.n)))
        (if wr then { y with m := m } else y, some (.data old), wr)
  | .red op v =>
    if a.spad then
      let (p, _, wr) := spAtomic y.b.spad o a.n op v
      ({ y with b := markDirty { y.b with spad := p } y.gix o a.n }, none, wr)
    else (onMem fun m p => (memAtomic m p.pa a.n op v).1, none, true)

/-- Lanes applied in increasing lane order, with old values and the lanes that wrote. -/
def applyLanes (w : Who) (y : Sys) : List LaneAcc → Sys × SMap Val × List Nat
  | [] => (y, [], [])
  | a :: r =>
    let (y1, v, wr) := applyLane y w a
    let (y2, vs, ws) := applyLanes w y1 r
    (y2, match v with
      | some x => minsert vs a.lane x
      | none => vs, if wr then a.lane :: ws else ws)

/-- The kinds of word by what they do to the order. -/
inductive Shape where
  | loads | stores | atomics
deriving DecidableEq, Repr

/-- A write of one byte by a group, as the host does not see it yet (R242). -/
def hideByte (old : MemSys) (k gix kind : Nat) (m : MemSys) (pa : Nat) : MemSys :=
  let hs := mget m.hidden pa []
  let seen := match hs.getLast? with
    | some h => h.blk == k && h.gix == gix && h.kind == kind
    | none => false
  if seen then m
  else { m with hidden := mput m.hidden pa (hs ++ [{ blk := k, gix := gix, kind := kind, old := memByte old pa }]) [] }

/-- What a group's lanes have written, as the host does not see it yet (R242): memory before and after. -/
def hideLanes (old m : MemSys) (k gix kind : Nat) (ls : List LaneAcc) : MemSys :=
  ls.foldl (fun m a => match a.pa with
    | some (pa, _) => if a.spad then m else (List.range a.n).foldl (fun m i => hideByte old k gix kind m (pa + i)) m
    | none => m) m

/-- The writes of a byte that are still hidden once a group's of a kind are not: those after its last (R242). -/
def stillHidden (k gix kind : Nat) : List Hidden → List Hidden
  | [] => []
  | h :: r =>
    if (h :: r).any fun x => x.blk == k && x.gix == gix && x.kind == kind then stillHidden k gix kind r else h :: r

/-- A group's accesses of a kind made visible to host reads (R242). -/
def reveal (m : MemSys) (k gix kind : Nat) : MemSys :=
  { m with hidden := (m.hidden.map fun (a, hs) => (a, stillHidden k gix kind hs)).filter fun (_, hs) => !hs.isEmpty }

/-- A byte as the host reads it (R242). -/
def hostByte (m : MemSys) (pa : Nat) : Byte :=
  match mget m.hidden pa [] with
  | [] => memByte m pa
  | h :: _ => h.old

/-- The shape of a lane's operation. -/
def shapeOf : AccOp → Shape
  | .ld => .loads
  | .ldc _ => .loads
  | .ldfe _ => .loads
  | .st _ => .stores
  | .stfe _ => .stores
  | .stc _ => .stores
  | .atom _ _ => .atomics
  | .red _ _ => .atomics

/-- What performing a word's lanes gives: memory and block, the word's time, values, lanes with a format fault. -/
structure Done where
  y    : Sys
  t    : Nat
  vals : SMap Val
  bad  : LaneMask
deriving DecidableEq, Repr

/-- The stash lines that stores and atomics touch, filled first (R138). -/
def fillAll (w : Who) (t : Nat) (y : Sys) : List LaneAcc → Sys × Nat
  | [] => (y, t)
  | a :: r =>
    let (y1, wt) := if a.spad then fillAt y w a.va.toNat t a.pa a.fab else (y, 0)
    let (y2, top) := fillAll w t y1 r
    (y2, max wt top)

/-- The lanes of one word, all confirmed, performed at one logical time (R133, R153, R231, R234). -/
def perform (y : Sys) (w : Who) (pts : Nat) (ls : List LaneAcc) : Done :=
  match ls with
  | [] => { y := y, t := pts, vals := [], bad := 0 }
  | a :: _ =>
    match shapeOf a.op with
    | .loads =>
      let (y1, t) := settle w ls (ls.length + 2) y pts
      let rs := ls.map fun a => (a, readLane y1 w t a)
      let good := rs.filter fun (_, _, bad) => !bad
      let y2 := (good.map (·.1)).foldl (fun y a => (applyLane y w a).1) y1
      { y := y2, t := t, vals := good.foldl (fun m (a, v, _) => minsert m a.lane v) [],
        bad := maskOf ((rs.filter fun (_, _, bad) => bad).map (·.1.lane)) }
    | .stores =>
      let (y0, t0) := fillAll w pts y ls
      let t := ls.foldl (fun t a => max t (leaseEnd y0 a + 1)) t0
      let (y1, _, _) := applyLanes w y0 ls
      { y := ls.foldl (fun y a => putLease y a (t, t)) y1, t := t, vals := [], bad := 0 }
    | .atomics =>
      let (y0, t0) := fillAll w pts y ls
      let (y1, vals, wrote) := applyLanes w y0 ls
      let ws := ls.filter fun a => wrote.contains a.lane
      let fs := ls.filter fun a => !wrote.contains a.lane
      let t := fs.foldl (fun t a => max t (writeTime y0 a)) (ws.foldl (fun t a => max t (leaseEnd y0 a + 1)) t0)
      let y2 := fs.foldl (fun y a => putLease y a (writeTime y0 a, max (leaseEnd y0 a) t)) y1
      { y := ws.foldl (fun y a => putLease y a (t, t)) y2, t := t, vals := vals, bad := 0 }

/-! ### Confirmation (R300, R301) -/

/-- The need of a lane's operation at the walk (R295). -/
def AccOp.need : AccOp → BitVec 3
  | .ld => needR
  | .ldc _ => needR
  | .ldfe _ => needR
  | .st _ => needW
  | .stc _ => needW
  | .stfe _ => needW
  | .atom _ _ => needRW
  | .red _ _ => needW

/-- Its rights on the fabric (R319): R, W, A in bits 0 to 2. -/
def AccOp.fab : AccOp → BitVec 4
  | .ld => 1
  | .ldc _ => 1
  | .ldfe _ => 1
  | .st _ => 2
  | .stc _ => 2
  | .stfe _ => 2
  | .atom _ _ => 4
  | .red _ _ => 4

/-- The lanes of a store word cover a whole line (R342). -/
def coversLine (ls : List LaneAcc) (va : Nat) : Bool :=
  (List.range 64).all fun k =>
    ls.any fun a => !a.spad && a.va.toNat ≤ va / 64 * 64 + k && va / 64 * 64 + k < a.va.toNat + a.n

/-- What one lane finds: confirmed, or the look that stops it. -/
inductive LaneLook where
  | go (a : LaneAcc)
  | stop (l : Look)
deriving DecidableEq, Repr

/-- The look of a lane (R300). Scratchpad lanes are confirmed at once, but for a stash line that is to be filled or whose lease is to
be renewed. A write of another node's line waits until its directory has applied it (R317). -/
def lookLane (s : State) (b : Block) (w : Who) (ls : List LaneAcc) (a : LaneAcc) : LaneLook :=
  let put : LaneAcc → Look → LaneLook := fun a l =>
    match l with
    | .ok p => .go { a with pa := some (p.pa, p.cache), fab := p.fab }
    | .door n => .stop (.door n)
    | .miss => .stop .miss
    | .hold pa k => .stop (.hold pa k)
    | .fault k l i h => .stop (.fault k l i h)
    | .integ c p => .stop (.integ c p)
  if a.spad then
    match stashAt b a.va.toNat with
    | none => .go a
    | some (_, r) => match mfind r.fill (r.lineNo a.va.toNat) with
      | none => put a (lookVa s w (r.lineVa a.va.toNat) 64 needR true)
      | some f =>
        if !f.stale && b.groups.all fun g => g.pts ≤ f.lease then .go a
        else put a (lookPa s w (r.lineVa a.va.toNat) (if f.fab && !remote f.pa then fabricPa s f.pa else f.pa) 64 needR 1 false true)
  else
    let opens := !(shapeOf a.op == .stores && coversLine ls a.va.toNat)
    match lookVaF s w a.va.toNat a.n a.op.need a.op.fab opens with
    | .door _ =>
      -- R323: a 32-bit store to byte 0 is a message; any other access is refused
      match a.op, doorOf s w.ctx a.va.toNat with
      | .st _, some n => if a.n == 4 && a.va.toNat % 4096 == 0 && messagePass s (mget s.fab.wins n {}) then .go { a with pa := none }
                         else .stop (.fault 4 0 0 true)
      | _, _ => .stop (.fault 4 0 0 true)
    | .ok p => if remote p.pa && shapeOf a.op != .loads && a.ans.isNone then .stop (.hold p.pa (.line w.world (coreTop s w))) else put a (.ok p)
    | l => put a l

/-- A lane that writes memory itself. -/
def LaneAcc.writes (a : LaneAcc) : Bool := !a.spad && shapeOf a.op != .loads

/-- What a lane asks of a line over the fabric (R317, R320, R321). -/
def laneOp (a : LaneAcc) : FabOp :=
  match a.op with
  | .ld => .load a.n
  | .ldc _ => .load 16
  | .ldfe _ => .load a.n
  | .st v => .store (bytesLE a.n v.toNat) a.fmt
  | .stfe v => .store (bytesLE a.n v.toNat) 15
  | .stc c => .stc c.tag (capBits c)
  | .atom op v => .atom a.n op v
  | .red op v => .red a.n op v

/-- The requests that a performed word has sent over the fabric to this node's own switch (R316 to R318): a load that a copy served
sent none, a scratchpad lane one for the stash line that it has filled. What other nodes home has been answered before. `old` is
memory before. -/
def sendLanes (s : State) (w : Who) (old : MemSys) (t : Nat) (ls : List LaneAcc) : State :=
  ls.foldl (fun s a => match a.spot with
    | none => s
    | some p =>
      let served := shapeOf a.op == .loads && p.cache && match findCopy old w.core w.ctx p.va with
        | some c => decide (t ≤ c.rts)
        | none => false
      if served || remote p.pa then s else sendReq s w p t (if a.spad then .load 64 else laneOp a)) s

/-! ### Ranges that the hardware moves -/

/-- A byte range cut at lines: first address and length of each piece. -/
def linePieces (va len : Nat) : List (Nat × Nat) :=
  (List.range (ceilDiv (va % 64 + len) 64)).map fun i =>
    let lo := if i == 0 then va else va / 64 * 64 + 64 * i
    let hi := min (va + len) (va / 64 * 64 + 64 * (i + 1))
    (lo, hi - lo)

/-- Pieces translated, walking as needed; the first that cannot be had stops it. -/
def resolvePieces (w : Who) (need : BitVec 3) (s : State) : List (Nat × Nat) → State × Except (Nat × Look) (List (Spot × Nat))
  | [] => (s, .ok [])
  | (va, n) :: r =>
    match resolveVa s w va n need (n != 64 || need == needR) with
    | (s1, .ok p) =>
      match resolvePieces w need s1 r with
      | (s2, .ok ps) => (s2, .ok ((p, n) :: ps))
      | (s2, .error e) => (s2, .error e)
    | (s1, l) => (s1, .error (va, l))

/-- Loads of pieces at time `t`, in address order: bytes and the time after (R234). -/
def loadPieces (w : Who) (m : MemSys) (t : Nat) : List (Spot × Nat) → MemSys × Nat × List Byte
  | [] => (m, t, [])
  | (p, n) :: r =>
    let (m1, wt) := leaseLoad m w.core w.ctx w.tag w.ways p t
    let t1 := max t wt
    let (d, _) := versionAt m1 w.core w.ctx w.tag p t
    let (m2, t2, bs) := loadPieces w m1 t1 r
    (m2, t2, bytesLE n (lineNat d (p.pa % 64) n) ++ bs)

/-- A plain data write at a spot: seal, bytes, tags cleared. -/
def writeSpot (m : MemSys) (w : Who) (p : Spot) (bs : List Byte) : MemSys := memWrite (sealLine m p.pa w.tag) p.pa bs

/-- The least time of a store to the pieces at `t` (R234). -/
def piecesTime (m : MemSys) (t : Nat) (ps : List (Spot × Nat)) : Nat :=
  ps.foldl (fun t (p, _) => max t ((lineAt m p.pa).2 + 1)) t

/-- Stores of a run of bytes to its pieces at time `t`. -/
def storePieces (w : Who) (m : MemSys) (t : Nat) (bs : List Byte) : List (Spot × Nat) → MemSys
  | [] => m
  | (p, n) :: r => storePieces w (putLine (writeSpot m w p (bs.take n)) p.pa (t, t)) t (bs.drop n) r

/-- The requests that a moved range sends over the fabric (R317, R326): loads of this node's own lines, or stores of its bytes with
a code. -/
def sendPieces (s : State) (w : Who) (t : Nat) (fmt : BitVec 4) (bs : Option (List Byte)) : List (Spot × Nat) → State
  | [] => s
  | (p, n) :: r =>
    sendPieces (match bs with
      | some x => sendReq s w p t (.store (x.take n) fmt)
      | none => if remote p.pa then s else sendReq s w p t (.load n)) w t fmt (bs.map (·.drop n)) r

/-- A store by a party with no time of its own: applied at the line's lease end plus one (R242). -/
def storeLate (w : Who) (m : MemSys) (bs : List Byte) : List (Spot × Nat) → MemSys
  | [] => m
  | (p, n) :: r =>
    let t := (lineAt m p.pa).2 + 1
    storeLate w (putLine (writeSpot m w p (bs.take n)) p.pa (t, t)) (bs.drop n) r

/-- Bytes stored to places of memory at one time; those that the fabric homes are sent there too (R242, R318). -/
def storeOut (s : State) (w : Who) (t : Nat) (bs : List Byte) (ps : List (Spot × Nat)) : State :=
  sendPieces (modMem s fun m => storePieces w m t bs ps) w t 15 (some bs) ps

/-- As `storeOut`, each line at its own time. -/
def storeLateOut (s : State) (w : Who) (bs : List Byte) (ps : List (Spot × Nat)) : State :=
  sendPieces (modMem s fun m => storeLate w m bs ps) w 0 15 (some bs) ps

/-! ### Record rings (R282, R304, R305, R343, R356) -/

/-- An intermediate range of a world cut at lines and translated by stage 2. DESIGN CHOICE [18]: the capabilities that a
world's registers hold for its own rings and arenas name intermediate addresses. -/
def resolveIpa (s : State) (w : Nat) (need : BitVec 3) : List (Nat × Nat) → Option (List (Spot × Nat))
  | [] => some []
  | (a, n) :: r =>
    match stage2 s w a need with
    | .fault _ _ => none
    | .hold _ _ => none
    | .ok pa _ _ _ _ _ =>
      if refused s w pa n (fabNeed need) || (waits s (canonPa s.fab.node pa) (snoopKind need)).isSome then none
      else (resolveIpa s w need r).map (({ pa := canonPa s.fab.node pa, va := a, cache := false }, n) :: ·)

/-- The lines of an intermediate range that wait for the host are asked for (R330). -/
def askIpa (s : State) (w : Nat) (need : BitVec 3) (ps : List (Nat × Nat)) : State :=
  ps.foldl (fun s q => match stage2 s w q.1 need with
    | .fault _ _ => s
    | .hold pa k => ask s (.hold pa k)
    | .ok pa _ _ _ _ _ =>
      let pa := canonPa s.fab.node pa
      match waits s pa (snoopKind need) with
      | some k => ask s (.hold pa k)
      | none => s) s

/-- The host's answers for the lines of an intermediate range are used up by a read (R330). -/
def useIpa (s : State) (w : Nat) (ps : List (Nat × Nat)) : State :=
  match resolveIpa s w needR ps with
  | some qs => modMem s fun m => qs.foldl (fun m q => useAnswer m q.1.pa) m
  | none => s

/-- A line of an intermediate range waits for the host (R330). -/
def ipaHeld (s : State) (w : Nat) (need : BitVec 3) (ps : List (Nat × Nat)) : Bool :=
  ps.any fun q => match stage2 s w q.1 need with
    | .fault _ _ => false
    | .hold _ _ => true
    | .ok pa _ _ _ _ _ => (waits s (canonPa s.fab.node pa) (snoopKind need)).isSome

/-- A world as a party of memory for its rings. -/
def ringWho (s : State) (w : Nat) : Who := { core := 0, ctx := 0, world := w, tag := sealTag s w }

/-- A little-endian word of a world's intermediate space. -/
def ipaWord (s : State) (w a : Nat) : Option Nat :=
  (resolveIpa s w needR (linePieces a 8)).map fun ps =>
    ofBytesLE (loadPieces (ringWho s w) s.mem 0 ps).2.2

/-- A run of words written to a world's intermediate space at one time, no earlier than `t`: the time comes with it. -/
def ipaStore (s : State) (w a : Nat) (ws : List DWord) (t : Nat) : Option (State × Nat) :=
  (resolveIpa s w needW (linePieces a (8 * ws.length))).map fun ps =>
    let t := piecesTime s.mem t ps
    (storeOut s (ringWho s w) t (ws.flatMap fun x => bytesLE 8 x.toNat) ps, t)

/-- Records of a ring of this length and record size, when it is a power of two in the range (R282, R304). -/
def ringCount (len rec : Nat) : Option Nat :=
  let n := (len - 64) / rec
  if 64 ≤ len && 16 ≤ n && n ≤ 65536 && 2 ^ Nat.log2 n == n then some n else none

/-- The capability that ring 0 FBUF, 1 INTRING or 2 ERRRING of a world is. -/
def ringCap (s : State) (ring w : Nat) : Cap :=
  if ring == 0 then (worldOf s w).fbuf else if ring == 1 then (worldOf s w).t.intring else s.hol.errring

/-- A record offered to a ring: the state with it written, TAIL after it (R304), or none when it is refused (R305). -/
def ringOffer (s : State) (ring w : Nat) (ws : List DWord) : Option State :=
  let c := ringCap s ring w
  if c.tag && isUnsealed c && hasPerm c (pLD ||| pST) then
    let base := capBase c
    match ringCount (capLen c) 32, ipaWord s w base, ipaWord s w (base + 8) with
    | some n, some tail, some head =>
      if (tail + 2 ^ 64 - head) % 2 ^ 64 == n then none
      else match ipaStore s w (base + 64 + 32 * (tail % n)) ws 0 with
        | some (s1, t) => (ipaStore s1 w base [BitVec.ofNat 64 (tail + 1)] t).map (·.1)
        | none => none
    | _, _, _ => none
  else none

/-- A ring's lines that a refused record waits for are asked for (R330). -/
def askRing (s : State) (ring w : Nat) : State :=
  let base := capBase (ringCap s ring w)
  let s := askIpa s w needW (linePieces base 8)
  match ringCount (capLen (ringCap s ring w)) 32, ipaWord s w base with
  | some n, some tail => askIpa s w needW (linePieces (base + 64 + 32 * (tail % n)) 32)
  | _, _ => s

/-- A world's interrupt raised: 0 completion, 1 fault, 2 revocation, 3 error. -/
def raiseIrq (s : State) (w i : Nat) : State := modWorld s w fun r => { r with irqs := modAt r.irqs i (· + 1) }

/-- A record written, or kept to be offered again and counted in its world's REFUSED (R305). INTRING records also count in
INTFAIL (R343). -/
def ringPut (s : State) (ring w : Nat) (ws : List DWord) : State :=
  let s := if ring == 1 then modWorld s w fun r =>
      { r with t := { r.t with intfail := if r.t.intfail == BitVec.allOnes 32 then r.t.intfail else r.t.intfail + 1 } }
    else s
  match ringOffer s ring w ws with
  | some s1 => if ring == 0 then raiseIrq s1 w 1 else s1
  | none =>
    let s := askRing (modWorld s w fun r => { r with refused := satInc 0xFFFF r.refused }) ring w
    { s with rings := s.rings ++ [{ id := s.nextRing, ring := ring, world := w, words := ws, delay := 64, since := s.gt }],
             nextRing := s.nextRing + 1 }

/-- Word 0 of a record of ERRRING (R356). -/
def errWord0 (unit index sev world ctx : Nat) : DWord :=
  BitVec.ofNat 64 (unit * 2 ^ 56 + index % 256 * 2 ^ 48 + sev * 2 ^ 44 + world % 64 * 2 ^ 38 + ctx % 4096 * 2 ^ 26)

/-- A record of an error of its own written to ERRRING (R354, R356). -/
def errRecord (s : State) (unit index sev world ctx pa : Nat) : State :=
  ringPut s 2 0 [errWord0 unit index sev world ctx, BitVec.ofNat 64 (pa % 2 ^ 48), BitVec.ofNat 64 s.gt, 1]

/-- The records whose 1 ms is over are written (R356). -/
def flushMerges (s : State) : State :=
  let old := s.hol.merges.filter fun m => m.at0 + 100000 ≤ s.gt
  if old.isEmpty then s
  else old.foldl (fun s m => ringPut s 2 0 [m.w0, BitVec.ofNat 64 (m.pa % 2 ^ 48), BitVec.ofNat 64 m.at0, BitVec.ofNat 64 m.count])
    { s with hol := { s.hol with merges := s.hol.merges.filter fun m => s.gt < m.at0 + 100000 } }

/-- A corrected error: once the records whose 1 ms is over have been written, it joins one of its unit and address (R356). -/
def errMerge (s0 : State) (unit index pa : Nat) : State :=
  let s := flushMerges s0
  let w0 := errWord0 unit index 1 0 0
  let same := fun m : Merge => m.w0 == w0 && m.pa == pa
  let ms := if s.hol.merges.any same then s.hol.merges.map fun m => if same m then { m with count := m.count + 1 } else m
    else s.hol.merges ++ [{ w0 := w0, pa := pa, at0 := s.gt, count := 1 }]
  { s with hol := { s.hol with merges := ms } }

/-- A fresh fault token, never 0 (R304). -/
def newToken (s : State) : State × BitVec 32 :=
  let t := s.mem.token
  (modMem s fun m => { m with token := if t + 1 == 0 then 1 else t + 1 }, t)

/-- Word 0 of a fault record (R304). -/
def faultWord0 (ctx world src kind : Nat) (acc : BitVec 3) (level : Nat) (tm : Bool) (token : BitVec 32) : DWord :=
  BitVec.ofNat 64 (ctx % 4096 * 2 ^ 52 + world % 64 * 2 ^ 46 + src % 16 * 2 ^ 42 + kind % 8 * 2 ^ 39 +
    acc.toNat * 2 ^ 36 + level % 8 * 2 ^ 33 + (if tm then 2 ^ 32 else 0) + token.toNat)

/-- The record of a parked access (R304, R343): to the world's FBUF, world 0's FBUF, or INTRING. -/
def faultRecord (s : State) (ctx world src : Nat) (f : FaultInfo) (tm : Bool) (token : BitVec 32) (detail : DWord) : State :=
  if f.integ != 0 then
    -- the answer that the read has met is used up
    let s := modMem s (useAnswer · f.pa)
    -- R354: an uncorrectable sector is logged to world 0 as well
    let s := if f.integ == 1 then errRecord s 1 (hbmStack f.pa) 2 world ctx f.pa else s
    ringPut s 1 world [BitVec.ofNat 64 (ctx % 4096 * 2 ^ 52 + world % 64 * 2 ^ 46 + src % 16 * 2 ^ 42 + f.integ % 4 * 2 ^ 40 + token.toNat),
      f.va, BitVec.ofNat 64 f.pa, detail]
  else
    ringPut s 0 (if f.host then 0 else world)
      [faultWord0 ctx world src f.kind f.need f.level tm token, f.va.setWidth 57 |>.setWidth 64,
       BitVec.ofNat 64 (f.ipa % 2 ^ 48), detail]

/-- What a failing look says in its record. -/
def faultOf (lane : Nat) (va : BitVec 64) (need : BitVec 3) : Look → Option FaultInfo
  | .fault k l i h => some { lane := lane, va := va, kind := k, level := l, need := need, ipa := i, host := h, integ := 0, pa := 0 }
  | .integ c p => some { lane := lane, va := va, kind := 0, level := 0, need := need, ipa := 0, host := false, integ := c, pa := p }
  | .ok _ => none
  | .door _ => none
  | .miss => none
  | .hold _ _ => none

/-! ### Delivery (R80, R135) -/

/-- The byte of the revocation map for a base, where the map covers it (R358). -/
def mapByteVa (s : State) (c base : Nat) : Option Nat :=
  let rv := (ctxOf s c).rv
  let off := (base - rv.base.toNat) / 64 / 8
  if base < rv.base.toNat || !(rv.map.tag && isUnsealed rv.map && hasPerm rv.map pLD) || capLen rv.map ≤ off then none
  else some (capBase rv.map + off)

/-- The physical address of that byte. -/
def mapBytePa (s : State) (c base : Nat) : Option Nat :=
  match (mapByteVa s c base).map fun va => walk s c va needR with
  | some (.ok pa _ _ _ _ _ _ _ _) => some (canonPa s.fab.node pa)
  | some (.fault _ _ _ _) => none
  | some (.hold _ _) => none
  | none => none

/-- A revocation map bit (R358): the map is read at the moment of the check, through the ordinary path. -/
def mapMarked (s : State) (c base : Nat) : Bool :=
  match mapBytePa s c base with
  | some pa => (memByte s.mem pa).getLsbD ((base - (ctxOf s c).rv.base.toNat) / 64 % 8)
  | none => false

/-- What the read of that bit waits for (R330, R331). -/
def mapWait (s : State) (c base : Nat) : Option (Nat × Awaits) :=
  match (mapByteVa s c base).map fun va => walk s c va needR with
  | some (.ok pa _ _ _ _ _ _ _ _) => (waits s (canonPa s.fab.node pa) 1).map (canonPa s.fab.node pa, ·)
  | some (.hold pa k) => some (pa, k)
  | some (.fault _ _ _ _) => none
  | none => none

/-- The map lines that the checks of some capabilities read can be read now, and the host's answers for them are used up; else one
that waits is asked for (R330). -/
def checkMap (s : State) (c : Nat) (cs : List Cap) : State × Bool :=
  if !(ctxOf s c).rv.busy then (s, true)
  else
    let bs := (cs.filter (revokedBy fun _ => true)).map capBase
    match bs.findSome? (mapWait s c) with
    | some (pa, k) => (ask s (.hold pa k), false)
    | none => (if s.mem.snooped.isEmpty then s else modMem s fun m => (bs.filterMap (mapBytePa s c)).foldl useAnswer m, true)

/-- The filter of an active sweep (R135): revoked capabilities lose their tags. -/
def rvFilter (s : State) (ctx : Nat) (c : Cap) : Cap :=
  if (ctxOf s ctx).rv.busy && revokedBy (mapMarked s ctx) c then { c with tag := false } else c

/-- Values written to window registers of a partition, by lane. -/
def putWin (r : Regs) (p : Nat) (vs : SMap Word) : Regs :=
  { r with w := vs.foldl (fun w (l, v) => mput w (64 * p + l) v 0) r.w }

/-- A number out of a loaded value. -/
def Val.num : Val → Nat
  | .data v => v.toNat
  | .cap c => c.addr.toNat

/-- The capability that an `ldc` loaded. -/
def Val.asCap : Val → Cap
  | .data _ => {}
  | .cap c => c

/-- Values written to a lane capability register, by lane. -/
def putCapC (r : Regs) (n : Nat) (vs : SMap Cap) : Regs :=
  { r with c := vs.foldl (fun m (l, c) => mput m (64 * n + l) c {}) r.c }

/-- The places taken in a channel (R84, R86). -/
def Chan.used (h : Chan) : Nat := h.ents.length + h.hold.length

/-- The held places in order: those filled that stand behind no unfilled place of their group, and the rest (R86). -/
def freed : List Hold → List Nat → List (SMap Word × Nat) × List Hold
  | [], _ => ([], [])
  | x :: r, stuck =>
    match x.val with
    | some v =>
      if stuck.contains x.gix then let q := freed r stuck; (q.1, x :: q.2)
      else let q := freed r stuck; (v :: q.1, q.2)
    | none => let q := freed r (x.gix :: stuck); (q.1, x :: q.2)

/-- Filled places become entries (R86). -/
def Chan.settle (h : Chan) : Chan := let q := freed h.hold []; { ents := h.ents ++ q.1, hold := q.2 }

/-- A channel changed. -/
def modChan (b : Block) (c : Nat) (f : Chan → Chan) : Block := { b with chans := mmod b.chans c {} f }

/-- An entry pushed to a channel, in the order of its group's pushes (R86, R237). -/
def pushChan (b : Block) (c gix : Nat) (v : SMap Word) (pts : Nat) : Block :=
  modChan b c fun h => Chan.settle { h with hold := h.hold ++ [{ gix := gix, id := 0, val := some (v, pts) }] }

/-- The entry that a load reserves at its issue (R86). -/
def reserveChan (b : Block) (c gix id : Nat) : Block :=
  modChan b c fun h => { h with hold := h.hold ++ [{ gix := gix, id := id, val := none }] }

/-- A load's reserved entry filled (R86, R237). -/
def fillChan (b : Block) (c gix id : Nat) (v : SMap Word) (pts : Nat) : Block :=
  modChan b c fun h => Chan.settle { h with hold := h.hold.map fun x =>
    if x.gix == gix && x.id == id && x.val.isNone then { x with val := some (v, pts) } else x }

/-- A load's values delivered to their destination (R80, R82, R86, R135). -/
def deliver (s : State) (k gix : Nat) (p : Pending) : State :=
  match p.dest with
  | .none => s
  | .win r hi =>
    modGroup s k gix fun g =>
      let lo := putWin g.r r (p.vals.map fun (l, v) => (l, BitVec.ofNat 32 v.num))
      { g with r := match hi with
          | none => lo
          | some h => putWin lo h (p.vals.map fun (l, v) => (l, BitVec.ofNat 32 (v.num / 2 ^ 32))) }
  | .chan c =>
    -- a load that is outstanding at the freeze instant fills its place in the saved channels too (R275)
    modBlock s k fun b =>
      let v := p.vals.foldl (fun m (l, v) => mput m l (BitVec.ofNat 32 v.num) 0) []
      let t := (b.groups[gix]?.map fun g => max g.pts g.redAck).getD 0
      let b1 := fillChan b c gix p.id v t
      { b1 with preChans := b.preChans.map fun cs => (fillChan { b with chans := cs } c gix p.id v t).chans }
  | .capC n =>
    match blockOf s k with
    | none => s
    | some b => modGroup s k gix fun g => { g with r := putCapC g.r n (p.vals.map fun (l, v) => (l, rvFilter s b.ctx v.asCap)) }
  | .capK n =>
    match blockOf s k with
    | none => s
    | some b => modGroup s k gix fun g =>
      { g with r := p.vals.foldl (fun r (_, v) => { r with k := mput r.k n (rvFilter s b.ctx v.asCap) {} }) g.r }

/-! ### Wings (R2, R364, R366, R368) -/

/-- The wing of a core (R2). -/
def wingOf (core : Nat) : Nat := core / 7
/-- Records kept since an earlier state are offered by a core: its clock counts their back-off (R305). -/
def byCore (old : State) (core : Nat) (s : State) : State :=
  { s with rings := s.rings.map fun r => if old.nextRing ≤ r.id then { r with wing := some (wingOf core) } else r }
/-- A wing's record. -/
def wingSt (s : State) (n : Nat) : Wing := mget s.hol.wings n {}
/-- Quarter cycles of a tick at a level (R366). -/
def tickQ (pl : Nat) : Nat := [8, 16, 22, 26, 30, 34, 37, 40].getD pl 40
/-- A wing's record changed. -/
def modWing (s : State) (n : Nat) (f : Wing → Wing) : State :=
  { s with hol := { s.hol with wings := mmod s.hol.wings n {} f } }
/-- The level a wing shall run at (R368). -/
def levelOf (s : State) (wing : Nat) : Nat :=
  let cs := (s.blocks.filter fun (_, b) => wingOf b.core == wing && b.life != .retired && b.life != .saved).map fun (_, b) => b.ctx
  if cs.isEmpty then 0
  else
    let top := cs.foldl (fun t c => max t (min (ctxOf s c).plreq.toNat (worldOf s (ctxOf s c).world).maxpl.toNat)) 0
    min (min (wingSt s wing).agecap s.hol.pkcap) top

/-- A wing's level evaluated (R366, R368): a fall changes the clock at the next tick boundary, a rise once the rail has
settled; both are CLOCK_CHANGE. Since when it has held no block is noted with it (R364). -/
def evalLevel (s : State) (wing : Nat) : State :=
  let next := levelOf s wing
  let used := s.blocks.any fun (_, b) => wingOf b.core == wing && b.life != .retired && b.life != .saved
  modWing s wing fun w => { w with plNext := next, emptyAt := if used then none else some (w.emptyAt.getD s.gt) }

/-- Every wing's level evaluated. -/
def evalLevels (s : State) : State := (List.range 32).foldl evalLevel s

end Sys2Proof.Machine
end

