-- ==== Sys2Proof/Machine/Ops.lean ====
section
/-! DEFINITION. The shared operations of groups and blocks: wait counters, stores taking their place, transactions
aborted, window slides, cancels, taking a trap and returning from one (R77 to R80, R138, R166, R194, R202 to R206, R263). -/
namespace Sys2Proof.Machine
open Sys2Proof

/-! ### Splits -/

/-- The split of a number. -/
def Group.split (g : Group) (n : Nat) : Option Split := g.splits.find? fun p => p.no == n
/-- A split changed. -/
def Group.modSplit (g : Group) (n : Nat) (f : Split → Split) : Group :=
  { g with splits := g.splits.map fun p => if p.no == n then f p else p }
/-- A split removed. -/
def Group.dropSplit (g : Group) (n : Nat) : Group := { g with splits := g.splits.filter fun p => p.no != n }
/-- The latches emptied (R33). -/
def Regs.noLatches (r : Regs) : Regs := { r with bV := [], bM := [], bX := [] }
/-- A split sent to a packet. -/
def Split.goto (p : Split) (pc : BitVec 32) : Split := { p with pc := pc, word := 0, wait := .none }
/-- A split that has passed the word it waited at. -/
def Split.pass (p : Split) : Split := { p with pc := p.nxt.1, word := p.nxt.2, wait := .none }

/-! ### Wait counters (R80) -/

/-- Outstanding words of a counter (R80). -/
def ctrCount (g : Group) (c : Ctr) : Nat := (g.out.filter fun p => p.ctr == c).length
/-- A counter by its number. -/
def ctrOf (n : BitVec 2) : Ctr := if n == 0 then .ld else if n == 1 then .st else if n == 2 then .eng else .mat
/-- A counter as the words of an issue group see it: as it stood before the first of them (R23). -/
def ctrSeen (g : Group) (n : BitVec 2) : Nat :=
  match g.old with
  | some v => v.ctrs.getD n.toNat 0
  | none => ctrCount g (ctrOf n)
/-- Some earlier word of the group has unconfirmed lanes (R300). -/
def unconfirmed (g : Group) : Bool := g.out.any fun p => !p.todo.isEmpty
/-- The group is parked (R301). -/
def isParked (g : Group) : Bool := g.out.any fun p => !p.flt.isEmpty
/-- An outstanding word that stores: a store, or an atomic (R156). -/
def Pending.stores (p : Pending) : Bool :=
  (p.ctr == .st && !p.redm && !p.probe) || (p.ctr == .ld && (p.buf ++ p.todo).any fun a => match a.op with
    | .atom _ _ => true
    | _ => false)

/-- Outstanding words in order, up to the first that may not be performed yet: one with a lane not confirmed (R231), an engine
command whose parameter block is not read (R334), or a store behind a `tmma.rel` that still reads (R240). -/
def settledFrom : Bool → List Pending → List Pending
  | _, [] => []
  | rel, p :: r =>
    if !(p.probe || p.todo.isEmpty) || p.unread || (rel && p.stores) then [] else p :: settledFrom (rel || p.rel) r

/-- The outstanding words that may be performed now. -/
def Group.settled (g : Group) : List Pending := settledFrom false g.out
/-- Some load or store may not be performed yet. -/
def Group.unsettled (g : Group) : Bool :=
  g.out.any fun p => !p.probe && (p.ctr == .ld || p.ctr == .st) && !(g.settled.any fun q => q.id == p.id)
/-- An outstanding word that its group executed in trap mode (R309). -/
def Group.ranInTrap (g : Group) (id : Nat) : Bool := g.out.any fun p => p.id == id && p.inTrap
/-- A pending entry changed. -/
def Group.modOut (g : Group) (id : Nat) (f : Pending → Pending) : Group :=
  { g with out := g.out.map fun p => if p.id == id then f p else p }
/-- A pending entry removed: its counter falls. -/
def Group.dropOut (g : Group) (id : Nat) : Group := { g with out := g.out.filter fun p => p.id != id }
/-- A pending entry added. -/
def Group.addOut (g : Group) (p : Pending) : Group :=
  { g with out := g.out ++ [{ p with id := g.nextId, inTrap := g.tmode.isSome }], nextId := g.nextId + 1 }

/-! ### Stores take their places (R80, R231) -/

/-- The messages among the lanes of a confirmed store (R323). -/
def doorLanes (ls : List LaneAcc) : List LaneAcc := ls.filter fun a => !a.spad && a.pa.isNone

/-- Messages set out on their way (R323): delay 0 means not yet offered. -/
def sendDoors (s : State) (k gix pid : Nat) (ctx : Nat) (ls : List LaneAcc) : State :=
  ls.foldl (fun s a => match a.op, doorOf s ctx a.va.toNat with
    | .st v, some win =>
      { s with fab := { s.fab with msgs := s.fab.msgs ++ [{ id := s.fab.nextMsg, blk := k, gix := gix, pid := pid, win := win,
                                                             data := v.setWidth 32, delay := 0, since := s.gt }],
                                   nextMsg := s.fab.nextMsg + 1 } }
    | _, _ => s) s

/-- A pending store is over: nothing unconfirmed, parked, buffered or waiting as a message. -/
def storeOver (s : State) (k gix : Nat) (p : Pending) : Bool :=
  p.todo.isEmpty && p.flt.isEmpty && p.buf.isEmpty && !p.probe &&
  !(s.fab.msgs.any fun m => m.blk == k && m.gix == gix && m.pid == p.id)

/-- One pending store's confirmed lanes take their place at one time; the entry ends with its last lane. -/
def placeOne (s : State) (k gix id : Nat) : State :=
  match blockOf s k with
  | none => s
  | some b => match b.groups[gix]? with
    | none => s
    | some g => match g.out.find? fun p => p.id == id with
      | none => s
      | some p =>
        if p.redm || p.ctr != .st || p.buf.isEmpty then s else
        let doors := doorLanes p.buf
        let ls := p.buf.filter fun a => a.spad || a.pa.isSome
        let d := perform { m := s.mem, b := b, gix := gix } (whoOf s b) (max g.pts g.relTop) ls
        let s1 := putBlock { s with mem := hideLanes s.mem d.y.m k gix 1 ls } k (d.y.b.modGroup gix fun g => (g.raise d.t).modOut id fun p => { p with buf := [] })
        let s2 := sendDoors (sendLanes s1 (whoOf s b) s.mem d.t ls) k gix id b.ctx doors
        if storeOver s2 k gix { p with buf := [] } then modGroup s2 k gix (·.dropOut id) else s2

/-- A destination whose lanes take their values one by one: a queue entry waits for every lane (R86). -/
def Dest.byLane : Dest → Bool
  | .win _ _ => true
  | .capC _ => true
  | .capK _ => false
  | .chan _ => false
  | .none => false

/-- Every store of the group issued before `upto` takes its place, in order. -/
def placeStores (s : State) (k gix upto : Nat) : State :=
  match groupOf s k gix with
  | none => s
  | some g => (g.settled.filter fun p => p.id < upto && !p.redm && p.ctr == .st && !p.buf.isEmpty).foldl (fun s p => placeOne s k gix p.id) s

/-! ### Deliveries of `redm` (R141, R239) -/

/-- One delivery applied at its unit at rts + 1 of its line (R141, R239), an unfilled stash line filled first (R138): what
is changed, and the latest times of deliveries to this package and to others. -/
def applyRed (w : Who) (q : Sys × Nat × Nat) (a : LaneAcc) : Sys × Nat × Nat :=
  let (y0, wt) := if a.spad then fillAt q.1 w a.va.toNat (leaseEnd q.1 a) a.pa a.fab else (q.1, 0)
  let t := max wt (leaseEnd y0 a) + 1
  let (y, _, _) := applyLane y0 w a
  (putLease y a (t, t), if a.far then (q.2.1, max q.2.2 t) else (max q.2.1 t, q.2.2))

/-- Two words of deliveries touch one memory word. -/
def sameWord (p q : Pending) : Bool :=
  (p.buf ++ p.todo ++ p.flt).any fun a => (q.buf ++ q.todo ++ q.flt).any fun b => a.spad == b.spad && a.va / 4 == b.va / 4

/-- The confirmed deliveries of a `redm` applied in lane order, after the group's earlier ones to the same words (R141, R239). -/
def applyRedm (s : State) (k gix id : Nat) : State :=
  match blockOf s k, groupOf s k gix with
  | some b, some g => match g.out.find? fun p => p.id == id with
    | none => s
    | some p =>
      if !p.redm || p.buf.isEmpty || (g.out.any fun q => q.redm && q.id < id && sameWord q p) then s
      else
        let (y, t, u) := p.buf.foldl (applyRed (whoOf s b)) ({ m := s.mem, b := b, gix := gix }, 0, 0)
        let done := p.todo.isEmpty && p.flt.isEmpty
        let s1 := putBlock { s with mem := hideLanes s.mem y.m k gix 2 p.buf } k (y.b.modGroup gix fun g =>
          let h := { g with redAck := max g.redAck t, redFar := max g.redFar u }
          if done then h.dropOut id else h.modOut id fun p => { p with buf := [] })
        sendLanes s1 (whoOf s b) s.mem (max t u) p.buf
  | _, _ => s

/-- The deliveries of the issue group's earlier words applied, as a push of its next word waits for them (R23, R87). -/
def applyNew (s : State) (k gix : Nat) : State :=
  match groupOf s k gix with
  | none => s
  | some g => (g.out.filter fun p => p.redm && ((g.old.map (·.upto)).getD g.nextId) ≤ p.id).foldl (fun s p => applyRedm s k gix p.id) s

/-! ### Outstanding words complete (R80) -/

/-- The loads whose values are all fixed are delivered (R80). -/
def deliverAll (s : State) (k gix : Nat) : State :=
  match groupOf s k gix with
  | none => s
  | some g =>
    (g.out.filter fun p => p.ctr == .ld && p.todo.isEmpty && p.flt.isEmpty && p.buf.isEmpty).foldl
      (fun s p => modGroup (deliver s k gix p) k gix (·.dropOut p.id)) s

/-- The values that partly parked words have been given reach their destinations (R159). -/
def deliverParts (s : State) (k gix : Nat) : State :=
  match groupOf s k gix with
  | none => s
  | some g =>
    (g.out.filter fun p => p.ctr == .ld && p.dest.byLane && !p.vals.isEmpty).foldl
      (fun s p => modGroup (deliver s k gix p) k gix (·.modOut p.id fun p => { p with vals := [] })) s

/-- Outstanding loads and stores complete (R92, R159, R202): stores in order, then values; deliveries of `redm` are
accepted. -/
def drainGroup (s : State) (k gix : Nat) : State :=
  match groupOf s k gix with
  | none => s
  | some g =>
    let s := deliverParts (deliverAll (placeStores s k gix g.nextId) k gix) k gix
    modGroup s k gix fun g => { g with out := g.out.map fun p =>
      if p.redm && p.todo.isEmpty && p.flt.isEmpty then { p with accepted := true, ctr := .free } else p }

/-! ### Parking (R301, R303, R309) -/

/-- The lane mask of parked lanes (R304). -/
def lanesMask (ls : List LaneAcc) : LaneMask := maskOf (ls.map (·.lane))

/-! ### Records and the end of a context (R202, R309, R355) -/

/-- The bytes of a slot that lie from its cursor on, a scratchpad slot's inside the scratchpad of `limit` bytes (R348). -/
def slotBytesOf (c : Cap) (limit : Nat) : Nat :=
  (if isSpad c then min (capBase c + capLen c) limit else capBase c + capLen c) - c.addr.toNat

/-- The bytes of a seal record (R348): 160 bytes, the signature, zeros to the slot's end. -/
def sealBytes (x : Seal) (kind reason ct hashed : Nat) (hash : BitVec 384) : List Byte :=
  let head := bytesLE 8 (2 ^ 56 + kind * 2 ^ 48 + reason * 2 ^ 40 + x.alg.toNat * 2 ^ 32 + x.seq.toNat) ++
    bytesLE 8 x.handle.toNat ++ bytesLE 8 ct ++ bytesLE 8 hashed ++ bytesLE 8 (x.ctx % 4096 * 2 ^ 52) ++
    List.replicate 24 0 ++ (bytesLE 48 hash.toNat).reverse ++ (bytesLE 48 x.measure.toNat).reverse
  let n := if x.alg == 0 then 96 else 3309
  let total := slotBytesOf x.record x.limit
  head ++ (List.range n).map (Config.signByte x.secret x.alg.toNat head) ++ List.replicate (total - 160 - n) 0

/-- Data bytes stored in a block's scratchpad, line by line after the leases there (R216, R234). -/
def spWrite (b : Block) (gix o : Nat) (bs : List Byte) : Block :=
  let p := (List.range (ceilDiv (o % 16 + bs.length) 16)).foldl (fun p i => spPutTag p (o / 16 * 16 + 16 * i) false) (spPut b.spad o bs)
  let p := (linePieces o bs.length).foldl (fun p q => spPutLine p q.1 ((spLine p q.1).2 + 1, (spLine p q.1).2 + 1)) p
  markDirty { b with spad := p } gix o bs.length

/-- A record written into its slot: in the scratchpad of its block, while that stands, or through the context's translation. -/
def sealWrite (s : State) (x : Seal) (bs : List Byte) : Option State :=
  if isSpad x.record then some (match x.blk with
    | some k => modBlock s k (spWrite · x.gix x.record.addr.toNat bs)
    | none => s)
  else
  let w : Who := { core := 0, ctx := x.ctx, world := x.world, tag := sealTag s x.world }
  match resolvePieces w needW s (linePieces x.record.addr.toNat bs.length) with
  | (s1, .ok ps) => some (storeLateOut s1 w bs ps)
  | (_, .error _) => none

/-- The void record of a seal, if its slot can be reached now (R190, R349). -/
def voidWrite (s : State) (x : Seal) : Option State :=
  match x.void with
  | none => none
  | some (reason, ct) => sealWrite s x (sealBytes x 2 reason ct 0 0)

/-- Void records that can be written are written, and their seals end. -/
def flushVoids (s : State) : State :=
  s.eng.seals.foldl (fun s x => match voidWrite s x with
    | some s1 => { s1 with eng := { s1.eng with seals := s1.eng.seals.filter fun y => y != x } }
    | none => s) s

/-- Every open seal that `p` picks is voided with a reason; a commit of it not yet answered is cancelled (R190, R349). -/
def voidSeals (s : State) (p : Seal → Bool) (reason : Nat) : State :=
  let hit := fun x : Seal => p x && x.void.isNone
  let pbs := (s.eng.seals.filter hit).map fun x => (x.ctx, x.pblock)
  let eng := { s.eng with
    seals := s.eng.seals.map fun x => if hit x then { x with void := some (reason, ctOf s x.ctx) } else x,
    cmds := s.eng.cmds.map fun c =>
      if c.kind == .sealCommit && pbs.contains (c.ctx, c.pblock.addr) then { c with cancelled := true } else c }
  flushVoids { s with eng := eng }

/-- The commit of a seal has been accepted: its command is submitted and not cancelled (R352). -/
def commitAccepted (s : State) (x : Seal) : Bool :=
  s.eng.cmds.any fun c => c.kind == .sealCommit && c.submitted && !c.cancelled && c.ctx == x.ctx && c.pblock.addr == x.pblock

/-- A card run changed. -/
def modRun (s : State) (card : Nat) (f : CardRun → CardRun) : State :=
  match mfind s.curator.runs card with
  | some r => { s with curator := { s.curator with runs := minsert s.curator.runs card (f r) } }
  | none => s

/-- The dirty bytes of a stash line. -/
def dirtyBytes (r : Stash) (ln : Nat) : List Nat := (List.range 64).filter fun q => mget r.dirty (64 * ln + q) 0 != 0

/-- A stash line's dirty bytes stored at its place as ordered stores with its code (R138, R241), at time `pts` where a group
caused it, else at the home's rule alone, and the time. A read of the line fills it again. -/
def storeDirty (s : State) (k i ln : Nat) (b : Block) (r : Stash) (pts : Option Nat) (p : Spot) : State × Nat :=
  let w := whoOf s b
  let ks := dirtyBytes r ln
  let t := max ((lineAt s.mem p.pa).2 + 1) (pts.getD 0)
  let fmt := spFmt b.spad (r.at0 + 64 * ln)
  let m := ks.foldl (fun m q =>
    let pa := p.pa / 64 * 64 + q
    hideByte s.mem k (mget r.dirty (64 * ln + q) 0 - 1) 1 (memStore m pa [spByte b.spad (r.at0 + 64 * ln + q)] fmt) pa)
    (sealLine s.mem p.pa w.tag)
  let r1 := { r with dirty := ks.foldl (fun d q => merase d (64 * ln + q)) r.dirty,
                     fill := match mfind r.fill ln with
                       | some f => minsert r.fill ln { f with stale := true }
                       | none => r.fill }
  let s1 := sendReq { s with mem := putLine m p.pa (t, t) } w p t (.sector (storedLine m p.pa) (sideAt m p.pa))
  (putBlock s1 k { b with stash := setAt b.stash i r1, wbTop := max b.wbTop t }, t)

/-- One dirty stash line written back through its translation (R138, R241): the look that stops it, if one does, and the
time. -/
def writeBackLine (s : State) (k i ln : Nat) (pts : Option Nat) : State × Option Look × Nat :=
  match blockOf s k with
  | none => (s, none, 0)
  | some b => match b.stash[i]? with
    | none => (s, none, 0)
    | some r =>
      if (dirtyBytes r ln).isEmpty then (s, none, 0) else
      match resolveVa s (whoOf s b) (r.cap.addr.toNat + 64 * ln) 64 needW ((dirtyBytes r ln).length != 64) with
      | (s1, .ok p) => let z := storeDirty s1 k i ln b r pts p; (z.1, none, z.2)
      | (s1, l) => (s1, some l, 0)

/-- Every dirty line of a region from line `lo`, `n` lines, written back; the first that cannot be stops it. -/
def writeBackLines (s : State) (k i lo : Nat) (pts : Option Nat) : Nat → State × Option Look
  | 0 => (s, none)
  | n + 1 =>
    match writeBackLine s k i lo pts with
    | (s1, none, _) => writeBackLines s1 k i (lo + 1) pts n
    | (s1, some l, _) => (s1, some l)

/-- Every dirty stash byte of a block written back; a look that stops it is returned. -/
def writeBackAll (s : State) (k : Nat) (pts : Option Nat) : State × Option Look :=
  match blockOf s k with
  | none => (s, none)
  | some b =>
    (List.range b.stash.length).foldl (fun (s, e) i =>
      match e with
      | some l => (s, some l)
      | none => writeBackLines s k i 0 pts (((b.stash[i]?.map (·.len)).getD 0) / 64)) (s, none)

/-- Every dirty stash line of a block that can be reached written back (R138): a line that cannot is passed over. -/
def writeBackRest (s : State) (k : Nat) : State :=
  match blockOf s k with
  | none => s
  | some b =>
    (List.range b.stash.length).foldl (fun s i =>
      (List.range (((b.stash[i]?.map (·.len)).getD 0) / 64)).foldl (fun s ln => (writeBackLine s k i ln none).1) s) s

/-- The block has dirty stash bytes. -/
def stashDirty (b : Block) : Bool := b.stash.any fun r => !r.dirty.isEmpty

/-- A command cancelled: a token that it waits on is dropped (R303). -/
def EngCmd.cancel (c : EngCmd) : EngCmd := { c with cancelled := true, token := 0 }

/-- The commands of a block cancelled: each stops at its next boundary with STATUS 0x02 (R185, R263), but for a commit that has been
accepted, which signs (R352). -/
def cancelCmds (s : State) (k : Nat) : State :=
  { s with eng := { s.eng with cmds := s.eng.cmds.map fun c =>
      if (c.who.map (·.1)) == some k then { (if c.kind == .sealCommit && c.submitted then c else c.cancel) with who := none } else c } }

/-- A running clock stopped at this tick (R269). -/
def stopClock (s : State) (c : Nat) : State :=
  modCtx s c fun x => if x.st == 1 || x.st == 2 then { x with f := ctOf s c, tf := s.gt } else x

/-- A context whose every block has been cancelled is stopped with nothing saved (R268). -/
def emptied (s : State) (c : Nat) : State :=
  let x := ctxOf s c
  if x.en && x.st != 4 && !(s.blocks.any fun (_, b) => b.ctx == c && b.task.isNone) then
    modCtx (stopClock s c) c fun x => { x with st := 4, steps := [] }
  else s

/-- The steps that the task at the head of a queue has performed. -/
def stepsMade (b : Block) : Nat :=
  match b.tiles with
  | .tmma _ _ _ _ _ _ _ _ _ _ _ step _ _ _ :: _ => step
  | _ => (b.task.map (·.steps)).getD 0

/-- A tile task stopped at its next boundary (R263): what it has done stands, and its command answers for the run. -/
def Block.stopTask (b : Block) : Block :=
  { b with tiles := [], task := b.task.map fun t => { t with code := 2, steps := stepsMade b } }

/-- A block cancelled (R194, R238, R263): its placed stores stand, its stash is written back, everything it holds is
released, and its completion counts as "cancelled". -/
def cancelBlock (s : State) (k : Nat) : State :=
  match blockOf s k with
  | none => s
  | some b =>
    let s := writeBackRest s k
    let s := cancelCmds s k
    match b.task with
    | some t =>
      { putBlock s k b.stopTask with eng := { s.eng with cmds := s.eng.cmds.map fun c => if c.id == t.cmd then c.cancel else c } }
    | none =>
    let s := { s with blocks := merase s.blocks k, curator := { s.curator with idleAt := none },
                      fab := { s.fab with msgs := s.fab.msgs.filter fun m => m.blk != k || m.delay != 0 } }
    let s := voidSeals s (fun x => x.blk == some k && !commitAccepted s x) 2
    evalLevel (emptied (modRun s b.card fun r => { r with cancN := r.cancN + 1 }) b.ctx) (wingOf b.core)

/-- The blocks of a context. -/
def ctxBlocks (s : State) (c : Nat) : List Nat := (s.blocks.filter fun (_, b) => b.ctx == c).map (·.1)

/-- A context ended (R202, R268, R309, R355): blocks cancelled, seals voided with reason 1, the record in both
buffers, world 0's error interrupt, and state 4 with nothing saved. The KIND of a trap's record is one of 1 to 6 that the spec
does not name: a free value (R304). -/
def endContext (s : State) (c : Nat) (f : Option FaultInfo) (tm : Bool) (cause : Nat) (pkt : BitVec 32) : State :=
  let x := ctxOf s c
  let s := voidSeals s (fun y => y.ctx == c) 1
  let s := (ctxBlocks s c).foldl cancelBlock s
  let s := { s with eng := { s.eng with cmds := s.eng.cmds.map fun y => if y.ctx == c then y.cancel else y } }
  let detail := BitVec.ofNat 64 (cause % 256 + pkt.toNat * 2 ^ 16)
  let ws : List DWord :=
    [faultWord0 c x.world 8 ((f.map (·.kind)).getD (1 + Config.trapKind s.nfree % 6)) ((f.map (·.need)).getD 0) ((f.map (·.level)).getD 0) tm 0,
     (f.map fun i => (i.va.setWidth 57).setWidth 64).getD 0, BitVec.ofNat 64 ((f.map (·.ipa)).getD 0 % 2 ^ 48), detail]
  let s := ringPut s 0 x.world ws
  let s := if x.world == 0 then s else ringPut s 0 0 ws
  let s := raiseIrq s 0 3
  let s := stopClock s c
  modCtx s c fun y => { y with st := 4, held := [], steps := [] }

/-! ### The register window (R28, R77 to R79) -/

/-- The physical register of a window code (R28, R77). -/
def physOf (P base n : Nat) : Nat := (base + n) % P

/-- The bytes of a frame in the spill area: register j of lane l at 4Wj + 4l (R78). -/
def frameBytes (r : Regs) (P W F : Nat) : List Byte :=
  (List.range 8).flatMap fun j => (List.range W).flatMap fun l =>
    bytesLE 4 (mget r.w (64 * ((8 * F + j) % P) + l) 0).toNat

/-- A frame taken from its bytes. -/
def unframe (r : Regs) (P W F : Nat) (bs : List Byte) : Regs :=
  { r with w := (List.range 8).foldl (fun w j => (List.range W).foldl (fun w l =>
      mput w (64 * ((8 * F + j) % P) + l) (BitVec.ofNat 32 (ofBytesLE ((bs.drop (4 * W * j + 4 * l)).take 4))) 0) w) r.w }

/-- The outcome of a slide's spill or fill accesses. -/
inductive Slid where
  | ok (s : State)
  /-- A capability check failed (R78). -/
  | capFault
  /-- An address is not translated yet: where, and what the look found. -/
  | stop (s : State) (va : Nat) (l : Look)
deriving DecidableEq, Repr

/-- Pieces looked up without walking. -/
def lookPieces (s : State) (w : Who) (need : BitVec 3) : List (Nat × Nat) → Except (Nat × Look) (List (Spot × Nat))
  | [] => .ok []
  | (va, n) :: r =>
    match lookVa s w va n need (n != 64 || need == needR) with
    | .ok p => match lookPieces s w need r with
      | .ok ps => .ok ((p, n) :: ps)
      | .error e => .error e
    | l => .error (va, l)

/-- What a group's stores to pieces have written, as the host does not see it yet (R242): memory before and after. -/
def hidePieces (old m : MemSys) (k gix : Nat) (ps : List (Spot × Nat)) : MemSys :=
  ps.foldl (fun m q => (List.range q.2).foldl (fun m i => hideByte old k gix 1 m (q.1.pa + i)) m) { m with hidden := old.hidden }

/-- Frames spilled, oldest first (R78): ordered stores of the group, past the reads of its `tmma.rel` words (R240). -/
def spillFrames (k gix : Nat) : Nat → Nat → State → Slid
  | 0, _, s => .ok s
  | n + 1, F, s =>
    match blockOf s k with
    | none => .ok s
    | some b => match b.groups[gix]? with
      | none => .ok s
      | some g =>
        let len := 32 * b.width
        let va := capBase g.spill + F * len
        if capCheck g.spill pST (BitVec.ofNat 64 va) len 4 0 != .none then .capFault else
        let w := whoOf s b
        match lookPieces s w needW (linePieces va len) with
        | .error (a, l) => .stop s a l
        | .ok ps =>
          let t := piecesTime s.mem (max g.pts g.relTop) ps
          let m := hidePieces s.mem (storePieces w s.mem t (frameBytes g.r b.v.p b.width F) ps) k gix ps
          spillFrames k gix n (F + 1)
            (putBlock (sendPieces { s with mem := m } w t 15 (some (frameBytes g.r b.v.p b.width F)) ps) k
              (b.modGroup gix fun g => { g.raise t with lo := F + 1 }))

/-- Frames filled, newest first (R78): ordered loads of the group. `F` is one past the next frame to fill. -/
def fillFrames (k gix : Nat) : Nat → Nat → State → Slid
  | 0, _, s => .ok s
  | n + 1, F, s =>
    match blockOf s k with
    | none => .ok s
    | some b => match b.groups[gix]? with
      | none => .ok s
      | some g =>
        let len := 32 * b.width
        let va := capBase g.spill + (F - 1) * len
        if capCheck g.spill pLD (BitVec.ofNat 64 va) len 4 0 != .none then .capFault else
        let w := whoOf s b
        match lookPieces s w needR (linePieces va len) with
        | .error (a, l) => .stop s a l
        | .ok ps =>
          let (m, t, bs) := loadPieces w s.mem g.pts ps
          fillFrames k gix n (F - 1)
            (putBlock (sendPieces { s with mem := m } w t 15 none ps) k (b.modGroup gix fun g =>
              { g.raise t with r := unframe g.r b.v.p b.width (F - 1) bs, lo := F - 1 }))

/-- The oldest frame that a window of a new base leaves in a partition of P registers (R78). -/
def keptFrom (g : Group) (P newBase : Nat) : Nat := max g.hi ((newBase + 47) / 8) + 1 - P / 8

/-- A slide up spills, and stores of the group before it have not taken their places yet, or a `tmma.rel` holds its stores
(R78, R231, R240). -/
def spillWaits (g : Group) (P newBase : Nat) : Bool := g.lo < keptFrom g P newBase && (g.unsettled || g.out.any (·.rel))

/-- The window slid up to a new base: the oldest frames are spilled until the span fits (R78). -/
def slideUp (s : State) (k gix newBase : Nat) : Slid :=
  match blockOf s k with
  | none => .ok s
  | some b => match b.groups[gix]? with
    | none => .ok s
    | some g =>
      let hi := max g.hi ((newBase + 47) / 8)
      match spillFrames k gix (keptFrom g b.v.p newBase - g.lo) g.lo (placeStores s k gix g.nextId) with
      | .ok s => .ok (modGroup s k gix fun g => { g with hi := hi, r := { g.r with base := newBase } })
      | e => e

/-- The window moved down to an older base: frames that lie above it are discarded (R78). -/
def Group.windowTo (g : Group) (newBase : Nat) : Group :=
  let hi := (newBase + 47) / 8
  { g with hi := hi, lo := min g.lo (hi + 1), r := { g.r with base := newBase } }

/-- Frames of its window that a group lacks. -/
def Group.missing (g : Group) : Nat := g.lo - g.r.base / 8

/-- A slide down fills, and accesses of the group before it are not performed yet (R78, R231). -/
def fillWaits (g : Group) : Bool := g.missing != 0 && g.unsettled

/-- The missing frames of a group's window filled. -/
def fillWindow (s : State) (k gix : Nat) : Slid :=
  match groupOf s k gix with
  | none => .ok s
  | some g => fillFrames k gix g.missing g.lo (placeStores s k gix g.nextId)

/-- The window slid down to an older base: frames above it are discarded, then missing ones filled (R78). -/
def slideDown (s : State) (k gix newBase : Nat) : Slid := fillWindow (modGroup s k gix (·.windowTo newBase)) k gix

/-! ### Transactions aborted (R165, R166) -/

/-- The flags of an abort cause: Z, C, N, V (R165). -/
def txFlags (cause : Nat) : Bool × Bool × Bool × Bool :=
  (cause == 0, cause == 1 || cause == 2 || cause == 8 || cause == 10 || cause == 11 || cause == 12, cause == 5,
   cause == 3 || cause == 4)

/-- One lane's code written to its register and flags. -/
def txCode (r : Regs) (P base : Nat) (d : BitVec 6) (l cause detail : Nat) : Regs :=
  let (z, c, n, v) := txFlags cause
  { r with w := mput r.w (64 * physOf P base d.toNat + l) (BitVec.ofNat 32 (cause + 256 * detail)) 0,
           fZ := putBit r.fZ l z, fC := putBit r.fC l c, fN := putBit r.fN l n, fV := putBit r.fV l v }

/-- Open transactions of some lanes aborted, their buffers and sets discarded. -/
def abortLanes (P : Nat) (g : Group) (ls : List Nat) (cause detail : Nat) : Group :=
  ls.foldl (fun g l => match mfind g.tx l with
    | none => g
    | some x => { g with r := txCode g.r P x.base x.d l cause detail, tx := merase g.tx l }) g

/-- The lanes of a split with a transaction open. -/
def txOfSplit (g : Group) (n : Nat) : List Nat := (g.tx.filter fun (_, x) => x.split == n).map (·.1)

/-- The lanes of a split inside an open transaction: the packet of their `txbeg` is over (R161). -/
def liveTx (g : Group) (n : Nat) : List Nat := (g.tx.filter fun (_, x) => x.split == n && x.live).map (·.1)

/-- A split sent back to the packet after its `txbeg`, out of any run (R166). The packet that it comes from may have ended its
run: the packet executed next shall read no latch then (R35). -/
def Split.sendBack (p : Split) (pc : BitVec 32) : Split :=
  { p.goto pc with run := none, fresh := p.fresh || p.run.any (·.ended) }

/-- Every open transaction of a split aborted; the split goes to the packet after its `txbeg` whole (R166). -/
def abortSplit (P : Nat) (g : Group) (n cause detail : Nat) : Group :=
  match g.tx.find? fun (_, x) => x.split == n with
  | none => g
  | some (_, x) => (abortLanes P g (txOfSplit g n) cause detail).modSplit n (·.sendBack (x.pkt + 1))

/-- Every open transaction of a split aborted, once the loads that have issued have completed (R163, R166). -/
def abortTx (s : State) (k gix n cause detail : Nat) : State :=
  modBlock (deliverAll s k gix) k fun b => b.modGroup gix fun g => abortSplit b.v.p g n cause detail

/-- Every open transaction of the group aborted. -/
def abortAll (P : Nat) (g : Group) (cause : Nat) : Group :=
  (g.splits.map (·.no)).foldl (fun g n => abortSplit P g n cause 0) g

/-! ### Latch runs (R36) -/

/-- Packets of a run so far. -/
def Run.len (u : Run) : Nat := u.pkts.length

/-- A split halted at a boundary is outside every run, unless that cannot be known yet; one halted at a waiting word of its
run's first packet goes on with the run there (R33, R36, R92). -/
def Split.leaveRun (p : Split) : Split := { p with run := p.run.filter fun u => u.lost || p.word != 0 }

/-- A split sent back to the first packet of its run, with the patterns bound as they were then; what its last packet has
done already is not issued again (R36, R159). A run that may be over stands as it is. -/
def Group.restartRun (g : Group) (n : Nat) : Group :=
  match g.split n with
  | none => g
  | some p => match p.run with
    | none => g
    | some u =>
      if p.pc == u.start || u.lost then g
      else
        { (g.modSplit n fun p => { p.goto u.start with run := none, did := [], skip := p.skip ++ p.did.map fun w => (u.len, w) }) with
          pat := u.pats }

/-! ### Taking a trap (R202 to R204) -/

/-- The resume point of the raising split, before R36 (R204). -/
def resumeOf (p : Split) (q : TrapReq) : BitVec 32 × Nat :=
  match q.resume with
  | .offending => (q.pkt, 0)
  | .next => (p.pc, p.word)
  | .at a w => (a, w)

/-- trcause as R201 lays it out. -/
def causeWord (q : TrapReq) : DWord := q.detail ++ q.pkt ++ BitVec.ofNat 2 q.widx ++ (0 : BitVec 6) ++ q.cause

/-- Two requests of one trap. -/
def TrapReq.same (p q : TrapReq) : Bool :=
  p.cause == q.cause && p.split == q.split && p.pkt == q.pkt && p.inTrap == q.inTrap && (p.cause == 0x0A || p.widx == q.widx)

/-- The traps that a group is still to take. -/
def Group.waiting (g : Group) : List TrapReq := g.pend.toList ++ g.later

/-- The traps that a group is still to take, set. -/
def Group.setWaiting (g : Group) (qs : List TrapReq) : Group := { g with pend := qs.head?, later := qs.tail }

/-- A trap that waits to be taken: beside those that wait already (R202). -/
def Group.await (g : Group) (q : TrapReq) : Group :=
  let q : TrapReq := { q with inTrap := q.inTrap || g.tmode.isSome }
  if g.waiting.any (·.same q) then
    g.setWaiting (g.waiting.map fun p => if p.same q then { p with kinds := orKinds p.kinds q.kinds } else p)
  else g.setWaiting (g.waiting ++ [q])

/-- A split as trap entry saves it: at a switch point it is before the packet after `.switch` (R228). -/
def Split.saved (p : Split) : Split :=
  { p.leaveRun with wait := match p.wait with
    | .switchPt _ _ => .none
    | w => w }

/-- The entry of a trap whose group has nothing outstanding (R202): steps 3 to 5. -/
def enterTrap (s : State) (k gix : Nat) (q : TrapReq) (pre : Bool) : State :=
  modBlock s k fun b => b.modGroup gix fun g =>
    let raiser := g.split q.split
    let res := (raiser.map fun p => resumeOf p q).getD (q.pkt, 0)
    let g1 : Group := g.modSplit q.split fun p =>
      { p with pc := res.1, word := res.2, wait := if (p.pc, p.word) == res then p.wait else .none }
    let g2 : Group := (g1.splits.map (·.no)).foldl (fun (g : Group) n => g.restartRun n) g1
    let g3 : Group := { g2 with splits := g2.splits.map Split.saved }
    let at' := (g3.split q.split).map fun p => (p.pc, p.word)
    let (pc, wd) := at'.getD res
    let later := g.waiting.filter fun p => !p.same q
    -- R201: for the alarm and pre-emption, PKT is the resume packet
    let q := if q.cause == 0x12 || q.cause == 0x15 then { q with pkt := pc, widx := wd } else q
    { g3 with
      r := g3.r.noLatches
      tmode := some { splits := g3.splits, base := g3.r.base - 48, raiser := q.split,
                      point := (pc, wd), preempt := pre }
      splits := [{ no := 0, pc := BitVec.ofNat 32 g3.tr.tvec.toNat, mem := allLanes b.width, act := allLanes b.width, fresh := true }]
      pend := later.head?
      later := later.tail
      tr := { g3.tr with trcause := causeWord q, trpc := BitVec.ofNat 64 (pc.toNat + wd * 2 ^ 32),
                         trmask := (raiser.map (·.act)).getD 0, kinds := q.kinds,
                         rowprog := q.rowprog.getD g3.tr.rowprog } }

/-- Addresses that something waits for, as a pending entry of its own (R300, R303). -/
def addProbes (s : State) (k gix : Nat) (need : BitVec 3) (src : BitVec 4) (ls : List LaneAcc) : State :=
  modGroup s k gix fun g =>
    let new := ls.filter fun a => !(g.out.any fun p => p.probe && (p.todo ++ p.flt).any fun x => x.va == a.va)
    if new.isEmpty then g
    else g.addOut { id := 0, ctr := .free, probe := true, src := src, need := need, todo := new }

/-- One address that something waits for. Its record names lane 0, and for a fetch SRC 0 (DESIGN CHOICE, log 144). -/
def addProbe (s : State) (k gix : Nat) (va : Nat) (need : BitVec 3) (src : BitVec 4) : State :=
  addProbes s k gix need src [{ lane := 0, spad := false, va := BitVec.ofNat 64 va, n := 1, fmt := 15, op := .ld }]

/-- A trap that waits has halted the split inside its packet, whose words before have executed (R92, R204). -/
def Group.stopsAt (g : Group) (p : Split) : Bool := g.waiting.any fun q => q.split == p.no && q.resume == .at p.pc p.word

/-- A split stands inside a packet, between two of its issue groups (R23). -/
def Group.inside (g : Group) (p : Split) : Bool := p.word != 0 && p.wait == .none && !g.stopsAt p

/-- Some split stands inside a packet: the group is at no boundary (R23, R202, R273). -/
def Group.inPacket (g : Group) : Bool := g.splits.any g.inside

/-- What a trap waits for before its entry (R202, R203): splits inside a packet, accesses of the group that are not complete, and
for its spill a `tmma.rel` that holds the group's stores. A pre-emption entry is made beside a word that the stop holds (R274,
R275; DESIGN CHOICE, log 145). -/
def Group.entryWaits (g : Group) (P : Nat) (q : TrapReq) : Bool :=
  (g.await q).inPacket || g.unsettled || (g.out.any fun p => !p.probe && (!p.todo.isEmpty || !p.flt.isEmpty)) ||
  (q.cause != 0x15 && spillWaits g P (g.r.base + 48))

/-- A trap taken at its boundary (R202, R203): it waits for parked words and for the spill's translation; with no
handler, in trap mode, or when the spill fails its check, it is a double fault. -/
def takeTrap (s : State) (k gix : Nat) (q : TrapReq) : State :=
  match blockOf s k with
  | none => s
  | some b => match b.groups[gix]? with
    | none => s
    | some g =>
      if g.entryWaits b.v.p q then modGroup s k gix (·.await q)
      else if g.tr.tvec.getLsbD 63 == false || g.tmode.isSome || q.inTrap then
        endContext s b.ctx none (g.tmode.isSome || q.inTrap) q.cause.toNat q.pkt
      else
        let s := drainGroup s k gix
        let open' := !(txOfSplit g q.split).isEmpty
        let s := modGroup s k gix fun g => abortAll b.v.p g 10
        let q := if open' then { q with resume := .next } else q
        match slideUp s k gix (g.r.base + 48) with
        | .ok s => enterTrap s k gix q (q.cause == 0x15)
        | .capFault => endContext s b.ctx none false 0x07 q.pkt
        | .stop s va l =>
          let s := modGroup s k gix (·.await q)
          if l.isHold then ask s l else addProbe s k gix va needW 1

/-- A group that has left trap mode fills its window as far as it can now (R206, R309): a translation fault of a fill parks it. -/
def fillOn (s : State) (k gix : Nat) : State :=
  match groupOf s k gix with
  | none => s
  | some g =>
    if g.missing == 0 || fillWaits g then s
    else match fillWindow s k gix with
      | .ok t => t
      | .capFault => s
      | .stop t va l => if l.isHold then ask t l else addProbe t k gix va needR 1

/-- A fill that the window of a base needs fails its capability check (R78, R203). -/
def fillsBad (b : Block) (g : Group) (base : Nat) : Bool :=
  let h := g.windowTo base
  (List.range h.missing).any fun i =>
    capCheck g.spill pLD (BitVec.ofNat 64 (capBase g.spill + (base / 8 + i) * (32 * b.width))) (32 * b.width) 4 0 != .none

/-- A trap that the group may take at its boundaries now: one raised before trap mode waits until the group is out of it. -/
def Group.unmasked (g : Group) (q : TrapReq) : Bool := g.tmode.isNone || q.inTrap

/-- The group stands where it may take a trap (R202). -/
def Group.mayTake (g : Group) (q : TrapReq) : Bool := !g.inPacket && g.unmasked q

/-- A trap that halts the group's splits at their next boundaries (R202). A capability trap waits until the packet that raised it
is over: its other words complete (R132), though its split may wait at one of them. -/
def Group.halting (g : Group) (q : TrapReq) : Bool :=
  g.unmasked q && !(q.cause == 0x0A && g.splits.any fun p => p.no == q.split && p.pc == q.pkt && (p.wait != .none || p.word != 0))

/-- A trap that the group is to take at this boundary. -/
def Group.isDue (g : Group) (q : TrapReq) : Bool := !g.inPacket && g.halting q

/-- A split may go on: its packet is not over, or neither a trap that waits nor a parked word halts it (R202, R301). -/
def Group.goesOn (g : Group) (p : Split) : Bool := g.inside p || (!isParked g && !(g.waiting.any g.halting))

/-- The trap that a group is to take at this boundary: the first that may be taken. -/
def Group.pendDue (g : Group) : Option TrapReq := g.waiting.find? g.isDue

/-! ### Counters of released time -/

/-- Every group of a block raised to a time. -/
def raiseBlock (b : Block) (t : Nat) : Block := { b with groups := b.groups.map (·.raise t) }
/-- The largest time of a block's groups. -/
def blockTop (b : Block) : Nat := b.groups.foldl (fun t g => max t g.pts) b.pts0
/-- The time that a block's release at package scope carries: past its stores, its acknowledged deliveries, the writes of its
commands and its stash write-backs (R193, R233, R238 to R241). -/
def blockRelease (b : Block) : Nat :=
  b.groups.foldl (fun t g => max t (max g.redAck g.engAck)) (max (blockTop b) b.wbTop)

end Sys2Proof.Machine
end

