-- ==== Sys2Proof/Machine/TxRead.lean ====
section
/-! DEFINITION. What an access inside a lane transaction meets and reads (R162, R163, R168). -/
namespace Sys2Proof.Machine
open Sys2Proof

/-- One buffered write seen by a load of `n` bytes at `va`: the bytes, the tag, and the sector's code. -/
def seeWrite (va n : Nat) (x : List Byte × Bool × BitVec 4) (w : LaneAcc) : List Byte × Bool × BitVec 4 :=
  let wa := w.va.toNat
  let (bs, tag) : List Byte × Bool := match w.op with
    | .st v => (bytesLE w.n v.toNat, false)
    | .stc c => (bytesLE 16 (capBits c).toNat, c.tag)
    | _ => ([], x.2.1)
  let out := (x.1.zip (List.range n)).map fun (b, i) =>
    if wa ≤ va + i && va + i < wa + bs.length then bs.getD (va + i - wa) 0 else b
  let touches := wa / 16 == va / 16
  (out, if touches then tag else x.2.1, if w.fmt.toNat ≤ 11 && wa / 64 == va / 64 then w.fmt else x.2.2)

/-- A load in a transaction: its value with the lane's own buffered writes laid over it, and whether the code disagrees. -/
def txValue (m : MemSys) (w : Who) (t : Nat) (own : List LaneAcc) (a : LaneAcc) (p : Spot) : Val × Bool :=
  let (d, side) := versionAt m w.core w.ctx w.tag p t
  let base := bytesLE a.n (lineNat d (p.pa % 64) a.n)
  let (bs, tag, code) := own.foldl (seeWrite a.va.toNat a.n) (base, sideTag side p.pa, sideFmt side)
  let bad := a.fmt.toNat ≤ 11 && code != 0 && code != a.fmt
  match a.op with
  | .ldc keep =>
    let c := fabCap p (ofCapBits tag (BitVec.ofNat 128 (ofBytesLE bs)))
    (.cap (if keep then c else { c with tag := false }), bad)
  | _ => (.data (BitVec.ofNat 64 (ofBytesLE bs)), bad)

/-- The write time of the version that a load at time `t` reads. -/
def versionTime (m : MemSys) (core ctx : Nat) (p : Spot) (t : Nat) : Nat :=
  match (if p.cache then findCopy m core ctx p.va else none) with
  | some c => if t ≤ c.rts then c.wts else (lineAt m p.pa).1
  | none => (lineAt m p.pa).1

/-- A line recorded in a read set: the time of its first load stands (R163). -/
def Tx.note (x : Tx) (va pa wts : Nat) : Tx :=
  if (mfind x.reads (va / 64)).isSome then x else { x with reads := minsert x.reads (va / 64) (pa / 64 * 64, wts) }

/-- The lines of a write set. -/
def Tx.writeLines (x : Tx) : List Nat := (x.writes.map fun a => a.va.toNat / 64).eraseDups

/-- A lane's transaction changed. -/
def Group.modTx (g : Group) (l : Nat) (f : Tx → Tx) : Group :=
  match mfind g.tx l with
  | some x => { g with tx := minsert g.tx l (f x) }
  | none => g

/-- A page that a transaction may not touch: memory-side, remote, or not of this package (R162). -/
def txBarred (s : State) (w : Who) (a : LaneAcc) : Bool :=
  match a.pa with
  | none => true
  | some (pa, _) => a.fab || homeOf pa != .hbm || match tlbFind s.mem w.ctx a.va.toNat with
    | some t => t.sh || t.ms
    | none => false

/-- What one lane's look leaves to stop it. -/
def LaneLook.stopped : LaneLook → Option Look
  | .go _ => none
  | .stop l => some l

/-- The looks that stop a word's lanes, once each missing page has been walked: what a transaction's access meets is known at
its word (R168). -/
def txLooks (b : Block) (ls : List LaneAcc) : List LaneAcc → State → State × List (LaneAcc × Look)
  | [], s => (s, [])
  | a :: r, s =>
    let q : State × Option Look := match (lookLane s b (whoOf s b) ls a).stopped with
      | some .miss => match walkFill s b.ctx a.va.toNat a.op.need with
        | (s1, .ok _ _ _ _ _ _ _ _ _) => (s1, (lookLane s1 b (whoOf s1 b) ls a).stopped)
        | (s1, .fault k l i h) => (s1, some (.fault k l i h))
        | (s1, .hold pa k) => (s1, some (.hold pa k))
      | l => (s, l)
    let z := txLooks b ls r q.1
    (z.1, match q.2 with
      | some l => (a, l) :: z.2
      | none => z.2)

/-- The record of a translation fault met inside a transaction: SRC 6, nothing waits (R168, R303). -/
def txFaultRecord (s : State) (b : Block) (g : Group) (xs : List (LaneAcc × Look)) : State :=
  match xs with
  | [] => s
  | (a, l) :: _ => match faultOf a.lane a.va a.op.need l with
    | some f => byCore s b.core <| faultRecord s b.ctx b.world 6 f g.tmode.isSome 0 ((maskOf (xs.map (·.1.lane))).setWidth 64)
    | none => s

/-- Loads of lanes inside their transactions performed together at the group's time (R163): memory, the group with its read
sets, and each lane's value with whether its code disagrees. None where a ninth line would enter a read set. -/
def txRead (w : Who) (y : Sys) (g : Group) (ls : List LaneAcc) : Option (Sys × Group × List (LaneAcc × Val × Bool)) :=
  let (y1, t) := settle w ls (ls.length + 2) y g.pts
  let full := ls.any fun a => match mfind g.tx a.lane, a.spot with
    | some x, some p => 8 < (x.note a.va.toNat p.pa 0).reads.length
    | _, _ => false
  if full then none
  else
    let g1 := ls.foldl (fun g a => match a.spot with
      | some p => g.modTx a.lane (·.note a.va.toNat p.pa (versionTime y1.m w.core w.ctx p t))
      | none => g) (g.raise t)
    some (y1, g1, ls.map fun a => match a.spot with
      | some p => (a, txValue y1.m w t (((mfind g.tx a.lane).map fun x => x.writes).getD []) a p)
      | none => (a, .data 0, false))

/-- What the accesses of lanes inside their transactions meet (R162, R163, R168). -/
inductive TxMeets where
  | pass (s : State) (ls : List LaneAcc)
  | abort (s : State) (cause : Nat)
  /-- A line waits, and what for. -/
  | hold (ls : List Look)

/-- The lanes of a word looked up, those of `live` inside their transactions (R162, R168): a page that the word may not touch,
a fault of translation, or a line that waits. The lanes of `live` are confirmed. -/
def txMeet (s0 : State) (b : Block) (g : Group) (live : List Nat) (ls : List LaneAcc) : TxMeets :=
  let (s, xs) := txLooks b ls (ls.filter fun a => live.contains a.lane) s0
  let faults := xs.filter fun (_, l) => match l with
    | .fault _ _ _ _ => true
    | .integ _ _ => true
    | _ => false
  if xs.any fun (_, l) => match l with
    | .door _ => true
    | _ => false then .abort s0 6
  else if !faults.isEmpty then .abort (txFaultRecord s b g faults) 8
  else if !xs.isEmpty then .hold (xs.map (·.2))
  else
    let good := ls.filterMap fun a => match lookLane s b (whoOf s b) ls a with
      | .go x => some x
      | .stop _ => none
    if good.any (txBarred s (whoOf s b)) then .abort s0 6 else .pass s (good.filter fun a => live.contains a.lane)

end Sys2Proof.Machine
end

