-- ==== Sys2Proof/Machine/Operands.lean ====
section
/-! DEFINITION. How a word reads its operands and writes its results (R23, R27 to R32, R74, R86, R140), and the one
frame that every word of a packet runs in: legality, transactions, queues, patterns, then its own effect. -/
namespace Sys2Proof.Machine
open Sys2Proof

/-- A word about to have its effect. -/
structure Op where
  /-- The state before the word, for a trap that comes before any effect. -/
  s0   : State
  /-- The state after its pops and pattern reads. -/
  s    : State
  k    : Nat
  gix  : Nat
  no   : Nat
  b    : Block
  g    : Group
  sp   : Split
  /-- What it reads (R23). -/
  r    : Regs
  /-- The lanes it acts in. -/
  act  : LaneMask
  /-- Popped entries and stream vectors, by operand code. -/
  ext  : List (BitVec 6 × SMap Word)

/-- The group width. -/
def Op.W (o : Op) : Nat := o.b.width
/-- The active lanes, ascending. -/
def Op.lanes (o : Op) : List Nat := lanesOf o.act

/-- The context time of a word's issue (R195, R269): its packet's earlier issue groups have taken their cycles, so the word
may issue in a later tick than its packet began in; a stopped context's time stands. -/
def Op.ct (o : Op) : Nat :=
  let st := (ctxOf o.s0 o.b.ctx).st
  let w := wingSt o.s0 (wingOf o.b.core)
  ctOf o.s0 o.b.ctx + (if st == 1 || st == 2 then (w.sub + o.g.busy) / tickQ w.pl else 0)

/-! ### Immediates (R26) -/

/-- The immediate of a 64-bit operand. -/
def immWide {n : Nat} (i : Imm n) : DWord :=
  match i.ext with
  | .none => i.short.signExtend 64
  | .one p1 => p1.signExtend 64
  | .two p1 p2 => (p2 ++ p1).signExtend 64

/-- The immediate of a 32-bit operand. -/
def immWord {n : Nat} (i : Imm n) : Word :=
  match i.ext with
  | .none => i.short.signExtend 32
  | .one p1 => p1.signExtend 32
  | .two p1 p2 => p2.setWidth 8 ++ p1

/-! ### Registers -/

/-- A window register of a lane. -/
def Regs.win (r : Regs) (P n l : Nat) : Word := mget r.w (64 * physOf P r.base n + l) 0
/-- A scalar register; s0 reads as zero (R29). -/
def Regs.sc (r : Regs) (n : BitVec 5) : DWord := if n == 0 then 0 else mget r.s n.toNat 0
/-- A scalar register written; a write to s0 is discarded (R29). -/
def Regs.putSc (r : Regs) (n : BitVec 5) (v : DWord) : Regs := if n == 0 then r else { r with s := mput r.s n.toNat v 0 }
/-- A k register. -/
def Regs.kreg (r : Regs) (n : BitVec 4) : Cap := mget r.k n.toNat {}
/-- A k register written. -/
def Regs.putK (r : Regs) (n : BitVec 4) (c : Cap) : Regs := { r with k := mput r.k n.toNat c {} }
/-- A c register of a lane. -/
def Regs.creg (r : Regs) (n : BitVec 4) (l : Nat) : Cap := mget r.c (64 * n.toNat + l) {}
/-- A c register of a lane written. -/
def Regs.putC (r : Regs) (n : BitVec 4) (l : Nat) (c : Cap) : Regs := { r with c := mput r.c (64 * n.toNat + l) c {} }
/-- A predicate register of a lane. -/
def Regs.pred (r : Regs) (n : BitVec 3) (l : Nat) : BitVec 4 := mget r.p (64 * n.toNat + l) 0
/-- A predicate register of a lane written. -/
def Regs.putPred (r : Regs) (n : BitVec 3) (l : Nat) (v : BitVec 4) : Regs := { r with p := mput r.p (64 * n.toNat + l) v 0 }

/-- The latches of a pipe (R30). -/
def Regs.latches (r : Regs) : Pipe → List (SMap Word)
  | .V => r.bV
  | .M => r.bM
  | .X => r.bX
  | .S => []

/-- A latch as R31 reads it; one that holds nothing gives a free value. -/
def latchVal (r : Regs) (p : Pipe) (n l free : Nat) : Word :=
  match (r.latches p)[n]? with
  | some m => mget m l 0
  | none => Config.freeWord (65536 * free + 64 * n + l)

/-- A result pushed into a pipe's latches (R30). -/
def Regs.pushLatch (r : Regs) (p : Pipe) (v : SMap Word) : Regs :=
  match p with
  | .V => { r with bV := (v :: r.bV).take 8 }
  | .M => { r with bM := (v :: r.bM).take 8 }
  | .X => { r with bX := (v :: r.bX).take 8 }
  | .S => r

/-- A vector of words as a map over the lanes of a mask. -/
def tab (act : LaneMask) (f : Nat → Word) : SMap Word :=
  (lanesOf act).filterMap fun l => if f l == 0 then none else some (l, f l)

/-- The mask of the lanes of `act` where `f` holds. -/
def laneMask (act : LaneMask) (f : Nat → Bool) : LaneMask := maskOf ((lanesOf act).filter f)

/-- A window register written in the lanes of a mask. -/
def Regs.putWinLanes (r : Regs) (P n : Nat) (act : LaneMask) (f : Nat → Word) : Regs :=
  { r with w := (lanesOf act).foldl (fun w l => mput w (64 * physOf P r.base n + l) (f l) 0) r.w }

/-! ### Sources -/

/-- A 32-bit source operand of a lane (R27). -/
def Op.src (o : Op) (p : Pipe) (x : BitVec 6) (l : Nat) : Word :=
  if x.toNat ≤ 47 then o.r.win o.b.v.p x.toNat l
  else if x.toNat ≤ 53 then
    match o.ext.find? fun (c, _) => c == x with
    | some (_, m) => mget m l 0
    | none => 0
  else if x == 54 then 0
  else if x == 55 then BitVec.ofNat 32 l
  else latchVal o.r p (x.toNat - 56) l o.s0.nfree

/-- A 64-bit source operand of a lane (R27, R28). -/
def Op.src64 (o : Op) (x : BitVec 6) (l : Nat) : DWord :=
  if x.toNat ≤ 46 then o.r.win o.b.v.p (x.toNat + 1) l ++ o.r.win o.b.v.p x.toNat l
  else if x == 55 then BitVec.ofNat 64 l
  else 0

/-! ### Results -/

/-- The group after a change. -/
def Op.mod (o : Op) (f : Group → Group) : State := modGroup o.s o.k o.gix f
/-- The group's registers after a change. -/
def Op.modR (o : Op) (f : Regs → Regs) : State := o.mod fun g => { g with r := f g.r }
/-- The split after a change. -/
def Op.modSp (o : Op) (f : Split → Split) : State := o.mod fun g => g.modSplit o.no f
/-- The split sent to a packet, which ends its packet. -/
def Op.jump (o : Op) (pc : BitVec 32) : State := { o.modSp (·.goto pc) with jumped := true }

/-- The trap record of a word (R204). -/
def Op.req (o : Op) (cause : BitVec 8) : TrapReq :=
  { cause := cause, widx := o.sp.word, resume := .offending, split := o.no, pkt := o.sp.pc }

/-- A trap before any effect of the packet (R93, R204). -/
def raiseAt (s : State) (k gix : Nat) (q : TrapReq) : State := { takeTrap s k gix q with raised := some q }
/-- The trap of a word. -/
def Op.raise (o : Op) (cause : BitVec 8) : State := raiseAt o.s0 o.k o.gix (o.req cause)
/-- The capability trap of a word that had no effect, with its kinds. -/
def Op.raiseKinds (o : Op) (kinds : KindMasks) : State :=
  raiseAt o.s0 o.k o.gix { o.req 0x0A with kinds := kinds }

/-- The split waits at its word, which has not issued (R92). -/
def stallAt (s : State) (k gix no : Nat) (w : Wait) : State :=
  { modGroup s k gix (·.modSplit no fun p => { p with wait := w }) with stalled := true }

/-- A record kept to the lanes of a mask. -/
def KindMasks.only (m : KindMasks) (l : LaneMask) : KindMasks :=
  { tag := m.tag &&& l, sealed := m.sealed &&& l, perm := m.perm &&& l, bnd := m.bnd &&& l, align := m.align &&& l, fmt := m.fmt &&& l }

/-- The detail of an abort by the first kind present (R165). -/
def firstDetail (m : KindMasks) : Nat :=
  if m.tag != 0 then 1 else if m.sealed != 0 then 2 else if m.perm != 0 then 3
  else if m.bnd != 0 then 4 else if m.align != 0 then 5 else 6

/-- A capability trap added to what waits for the group's boundary (R132). -/
def Group.addKinds (g : Group) (q : TrapReq) (kinds : KindMasks) : Group :=
  g.await { q with kinds := kinds, resume := .next }

/-- A capability or format fault of some lanes: the trap at the boundary after the packet (R132); lanes inside a
transaction abort, and their split with them, with cause 9 (R166, R168). -/
def addCapTrap (s : State) (k gix no : Nat) (q : TrapReq) (kinds : KindMasks) : State :=
  match groupOf s k gix with
  | none => s
  | some g =>
    let live := maskOf (liveTx g no)
    let inside := kinds.only live
    let outside := kinds.only (~~~live)
    let s := if outside == {} then s else modGroup s k gix (·.addKinds q outside)
    if inside == {} then s else { abortTx s k gix no 9 (firstDetail inside) with jumped := true }

/-- The channel that a queue code is bound to in a direction (R85, R86). -/
def boundTo (qb : SMap QBind) (x : BitVec 6) (push : Bool) : Option Nat :=
  match mfind qb (x.toNat - 48) with
  | some q => if q.push == push then some q.chan else none
  | none => none

/-- A queue code. -/
def isQueue (x : BitVec 6) : Bool := 48 ≤ x.toNat && x.toNat ≤ 51
/-- A pattern code. -/
def isPat (x : BitVec 6) : Bool := x == 52 || x == 53

/-- A push waits for the group's earlier deliveries to be applied, and for its earlier stores to have their places (R87):
one that cannot take it yet has a lane not confirmed or parked, or stands behind a word that has. -/
def pushHeld (g : Group) : Bool :=
  g.unsettled || g.out.any fun p => p.redm || (p.stores && !(p.todo.isEmpty && p.flt.isEmpty))

/-- A 32-bit result in the destination of a word (R27, R30, R32, R86). -/
def Op.put (o : Op) (p : Pipe) (d : BitVec 6) (sup : BitVec 1) (f : Nat → Word) : State :=
  let v := tab o.act f
  let latch := fun r : Regs => r.pushLatch p v
  if sup == 1 || d == 54 then o.modR latch
  else if d.toNat ≤ 47 then o.modR fun r => latch (r.putWinLanes o.b.v.p d.toNat o.act f)
  else
    match boundTo ((o.g.old.map (·.qb)).getD o.g.qb) d true with
    | none => o.modR latch
    | some c =>
      let s := placeStores (o.modR latch) o.k o.gix o.g.nextId
      modBlock s o.k fun b => pushChan b c o.gix v (((b.groups[o.gix]?).map fun g => max g.pts g.redAck).getD 0)

/-- A 64-bit result (R28, R30): the low half is pushed first. -/
def Op.put64 (o : Op) (p : Pipe) (d : BitVec 6) (sup : BitVec 1) (f : Nat → DWord) : State :=
  let lo := fun l => (f l).setWidth 32
  let hi := fun l => (f l).extractLsb' 32 32
  o.modR fun r =>
    let r := if sup == 1 || 48 ≤ d.toNat then r
      else (r.putWinLanes o.b.v.p d.toNat o.act lo).putWinLanes o.b.v.p (d.toNat + 1) o.act hi
    (r.pushLatch p (tab o.act lo)).pushLatch p (tab o.act hi)

/-! ### Stream patterns (R139, R140) -/

/-- A signed field of 21 bits. -/
def sext21 (n : Nat) : Int := (BitVec.ofNat 21 n).toInt

/-- The element addresses of the vector at a position: none past the end. -/
def patAddr (q : Pat) (W l : Nat) : Option (BitVec 64) :=
  let n0 := bits q.sa 0 16
  let n1 := bits q.sa 16 16
  let n2 := bits q.sa 32 16
  let e := q.pos * W + l
  if n0 * n1 * n2 ≤ e then none
  else
    let i0 := e % n0
    let i1 := e / n0 % n1
    let i2 := e / (n0 * n1)
    some (q.cap.addr + BitVec.ofInt 64 (i0 * sext21 (bits q.sb 0 21) + i1 * sext21 (bits q.sb 21 21) + i2 * sext21 (bits q.sb 42 21)))

/-- The pattern map as a read finds it: an ended stream with a bound continuation takes it (R140). -/
def patSwitch (m : SMap Pat) (p W : Nat) : SMap Pat :=
  match mfind m p, mfind m (p + 2) with
  | some q, some c =>
    if bits q.sa 0 16 * bits q.sa 16 16 * bits q.sa 32 16 ≤ q.pos * W then merase (minsert m p { c with pos := 0 }) (p + 2) else m
  | _, _ => m

/-- The patterns that a group has bound, as a word reads them (R23). -/
def Group.patSeen (g : Group) : SMap Pat := (g.old.map (·.pat)).getD g.pat

/-- The patterns after a read of pattern `p` that leaves `q` in it and has taken its continuation or not: what an earlier word
of the issue group has bound since stays (R23, R139, R140). -/
def Group.patLeave (g : Group) (p : Nat) (q : Pat) (took : Bool) : Group :=
  let m := if mfind g.pat p == mfind g.patSeen p then minsert g.pat p q else g.pat
  { g with pat := if took && mfind g.pat (p + 2) == mfind g.patSeen (p + 2) then merase m (p + 2) else m }

/-- The elements of a vector: the accesses of the lanes that pass R131, and the masks of those that fail (R140). -/
def patLanes (b : Block) (q : Pat) : List LaneAcc × KindMasks :=
  let es := (List.range b.width).filterMap fun l => (patAddr q b.width l).map fun a => (l, a, capCheck q.cap pLD a 4 4 b.spad.size)
  ((es.filter fun (_, _, kd) => kd == .none).map fun (l, a, _) => { lane := l, spad := isSpad q.cap, va := a, n := 4, fmt := 15, op := .ld },
   es.foldl (fun m (l, _, kd) => addKind m kd (oneLane l)) {})

/-- The reading of one pattern by a word. -/
inductive PatRead where
  | unbound
  /-- Some element is not translated: the lanes that wait. -/
  | stop (ls : List LaneAcc)
  /-- Lines wait, and what for. -/
  | hold (ls : List Look)
  /-- A lane's transaction aborts, its split with it (R163, R168). -/
  | abort (s : State) (cause detail : Nat)
  /-- Values by lane, failing lanes, the state after. -/
  | ok (vals : SMap Word) (kinds : KindMasks) (s : State)

/-- The lanes `outs` of a vector that no transaction holds read as a load of the word would (R140, R229), beside the values that
its other lanes have. -/
def readPatOut (s : State) (k gix : Nat) (outs : List LaneAcc) (vals : SMap Word) (leave : Group → Group) (kinds : KindMasks) : PatRead :=
  match blockOf s k with
  | none => .unbound
  | some b =>
    let w := whoOf s b
    let looks := outs.map fun a => (a, lookLane s b w outs a)
    let stops := looks.filterMap fun (a, x) => match x with
      | .go _ => none
      | .stop l => if l.isHold then none else some a
    let holds := looks.filterMap fun (_, x) => match x with
      | .go _ => none
      | .stop l => if l.isHold then some l else none
    let goes := looks.filterMap fun (_, x) => match x with
      | .go a => some a
      | .stop _ => none
    if !stops.isEmpty then .stop stops
    else if !holds.isEmpty then .hold holds
    else
      let d := perform { m := s.mem, b := b } w (((b.groups[gix]?).map (·.pts)).getD 0) goes
      .ok (d.vals.foldl (fun m (l, v) => minsert m l (BitVec.ofNat 32 v.num)) vals) kinds
        (putBlock (sendLanes { s with mem := d.y.m } w s.mem d.t goes) k (d.y.b.modGroup gix fun g => leave (g.raise d.t)))

/-- The vector that pattern `p` delivers now to a split, for every lane of the group (R140): a lane inside its transaction reads
as its loads do (R163, R168). -/
def readPat (s : State) (k gix no p : Nat) : PatRead :=
  match blockOf s k, groupOf s k gix with
  | some b, some g =>
    let m := patSwitch g.patSeen p b.width
    match mfind m p with
    | none => .unbound
    | some q =>
      let (ls, kinds) := patLanes b q
      let live := liveTx g no
      let outs := ls.filter fun a => !live.contains a.lane
      let leave : Group → Group := fun g =>
        g.patLeave p (if kinds == {} then { q with pos := q.pos + 1 } else q) (mfind m (p + 2) != mfind g.patSeen (p + 2))
      if live.isEmpty then readPatOut s k gix outs [] leave kinds
      else if ls.any (·.spad) then .abort s 6 0
      else if kinds.only (maskOf live) != {} then .abort s 9 (firstDetail (kinds.only (maskOf live)))
      else match txMeet s b g live ls with
        | .abort s1 cause => .abort s1 cause 0
        | .hold xs => .hold xs
        | .pass s1 good => match txRead (whoOf s1 b) { m := s1.mem, b := b, gix := gix } g good with
          | none => .abort s1 3 0
          | some (y, g1, rs) =>
            readPatOut (putBlock { s1 with mem := y.m } k (y.b.modGroup gix fun _ => g1)) k gix outs
              (rs.foldl (fun m (a, v, _) => minsert m a.lane (BitVec.ofNat 32 v.num)) []) leave kinds
  | _, _ => .unbound

/-! ### The frame of a word -/

/-- The first source or destination queue code that no binding serves (R86). -/
def badQueue (qb : SMap QBind) (i : Instr) : Bool :=
  ((srcCodes i).any fun x => isQueue x && (boundTo qb x false).isNone) ||
  ((dstCodes i).any fun x => isQueue x && (boundTo qb x true).isNone)

/-- The channels that codes are bound to in a direction, one for each code. -/
def chansOf (qb : SMap QBind) (xs : List (BitVec 6)) (push : Bool) : List Nat := xs.filterMap fun x => boundTo qb x push

/-- A pop would find its channel without an entry for it, or a push its channel full (R84, R86). A push waits for the
group's earlier stores and deliveries (R87). A word with S = 1 that names a queue as its destination is checked and waits like a
push, though it pushes nothing (DESIGN CHOICE, log 134). -/
def chanWaits (b : Block) (g : Group) (qb : SMap QBind) (pops pushes : List (BitVec 6)) : Bool :=
  let outs := chansOf qb pops false
  let ins := chansOf qb pushes true
  (outs.any fun c => (mget b.chans c {}).ents.length < outs.count c) ||
  (ins.any fun c => 16 < (mget b.chans c {}).used + ins.count c) || (!ins.isEmpty && pushHeld g)

/-- One pop (R86, R237). -/
def popCode (s : State) (k gix : Nat) (qb : SMap QBind) (x : BitVec 6) : State × SMap Word :=
  match boundTo qb x false, blockOf s k with
  | some c, some b =>
    let h := mget b.chans c {}
    match h.ents with
    | (v, t) :: r => (putBlock s k { b.modGroup gix (·.raise t) with chans := mput b.chans c { h with ents := r } {} }, v)
    | [] => (s, [])
  | _, _ => (s, [])

/-- The outcome of fetching a word's queue and stream operands. -/
inductive Fetched where
  | trap (cause : BitVec 8)
  | abort (s : State) (cause detail : Nat)
  | stall (s : State) (w : Wait)
  | ok (s : State) (ext : List (BitVec 6 × SMap Word)) (skip : LaneMask) (kinds : KindMasks)

/-- Queue and stream operands in field order (R23, R86, R140). -/
def fetchCodes (s0 : State) (k gix no : Nat) (qb : SMap QBind) : State → List (BitVec 6) → Fetched
  | s, [] => .ok s [] 0 {}
  | s, x :: r =>
    let rest := fun s v (kd : KindMasks) =>
      match fetchCodes s0 k gix no qb s r with
      | .ok s ext skip kinds =>
        .ok s ((x, v) :: ext) (skip ||| kd.tag ||| kd.sealed ||| kd.perm ||| kd.bnd ||| kd.align ||| kd.fmt) (orKinds kd kinds)
      | e => e
    if isQueue x then let (s, v) := popCode s k gix qb x; rest s v {}
    else if isPat x then
      match readPat (placeStores s k gix (((groupOf s k gix).map (·.nextId)).getD 0)) k gix no (x.toNat - 52) with
      | .unbound => .trap 0x0C
      | .hold ls => .stall (ls.foldl ask s0) (.held s0.gt)
      | .stop ls => .stall (addProbes s0 k gix needR 3 ls) .confirm
      | .abort t cause detail => .abort (if cause == 6 then s0 else t) cause detail
      | .ok vals kinds t => rest t vals kinds
    else rest s [] {}

/-- Codes that name queues or streams among a word's operands: a word takes one entry or vector for each (R86, R140). -/
def extCodes (i : Instr) : List (BitVec 6) := ((srcCodes i).filter fun x => isQueue x || isPat x).eraseDups

/-- The queue codes that a word pops. -/
def popCodes (i : Instr) : List (BitVec 6) := ((srcCodes i).filter isQueue).eraseDups

/-- The queue codes that a word pushes. -/
def pushCodes (i : Instr) : List (BitVec 6) := (dstCodes i).filter isQueue

/-- A word names a queue code. -/
def namesQueue (i : Instr) : Bool := !((popCodes i).isEmpty && (pushCodes i).isEmpty)

/-- A word that only the last packet of a run may hold (R35). -/
def lastOnly (i : Instr) : Bool := endsRun i || namesQueue i

/-- A word of the V or small-matrix pipe. -/
def isVX (i : Instr) : Bool := pipeOf i == some .V || pipeOf i == some .X

/-- A word of an open transaction that R162 does not allow. -/
def txBars (g : Group) (no : Nat) (i : Instr) : Bool :=
  !(liveTx g no).isEmpty &&
  !(txAllowed i && !(isVX i && !((extCodes i).isEmpty && (pushCodes i).isEmpty)))

/-- The issuing split: its block, group and itself. -/
def issuerOf (s : State) : Option (Cursor × Block × Group × Split) :=
  match s.cur with
  | none => none
  | some c => match blockOf s c.blk with
    | none => none
    | some b => match b.groups[c.gix]? with
      | none => none
      | some g => (g.split c.no).map fun p => (c, b, g, p)

/-- What the issue of a word finds before its effect. -/
inductive Begun where
  /-- A trap, with no effect of the word. -/
  | trap (cause : BitVec 8)
  /-- The split's transactions abort (R162, R163, R168). -/
  | abort (s : State) (cause detail : Nat)
  | stall (s : State) (w : Wait)
  /-- The word has executed already in this run, or is parked (R36, R159). -/
  | skip
  | go (o : Op)

/-- The place of a word in its split's run, as `Split.skip` names it. -/
def Split.runPlace (p : Split) : Nat × Nat := (((p.run.map (·.len)).getD 0), p.word)

/-- A stream that cannot be read yet: an earlier word of the group is not confirmed, and a vector is read in program
order (R140, R231). -/
def patHeld (g : Group) (i : Instr) : Bool := g.unsettled && (extCodes i).any isPat

/-- What every word has in common before its effect: its checks, then its queue and stream operands (R23, R85, R86, R140,
R162). The lanes that a stream delivered nothing to are not among its lanes: what a word over the lanes takes from one the spec
does not say (DESIGN CHOICE, log 133). -/
def beginWord (i : Instr) (s : State) (c : Cursor) (b : Block) (g : Group) (p : Split) : Begun :=
  let qb := (g.old.map (·.qb)).getD g.qb
  let t := if (pushCodes i).isEmpty then s else applyNew s c.blk c.gix
  if !i.wf then .trap 0x01
  else if p.skip.contains p.runPlace then .skip
  else if txBars g c.no i then .abort s 6 0
  else if badQueue qb i then .trap 0x09
  else if chanWaits b ((groupOf t c.blk c.gix).getD g) qb (popCodes i) (pushCodes i) then .stall s (.chan (popCodes i) (pushCodes i))
  else if patHeld g i then .stall s .settle
  else
    match fetchCodes s c.blk c.gix c.no qb t (extCodes i) with
    | .trap cause => .trap cause
    | .abort s1 cause detail => .abort s1 cause detail
    | .stall s1 w => .stall s1 w
    | .ok s1 ext skip kinds =>
      let s1 := addCapTrap { s1 with nfree := s1.nfree + 1 } c.blk c.gix c.no
        { cause := 0x0A, widx := p.word, resume := .offending, split := c.no, pkt := p.pc } kinds
      let b1 := (blockOf s1 c.blk).getD b
      let g1 := (b1.groups[c.gix]?).getD g
      .go { s0 := s, s := s1, k := c.blk, gix := c.gix, no := c.no, b := b1, g := g1, sp := p,
            r := (g1.old.map (·.r)).getD g1.r,
            act := ((g1.old.map (·.act)).getD p.act) &&& ~~~skip, ext := ext }

/-- A word run by its split: its effect `f` where nothing comes before it. -/
def runWord (i : Instr) (s : State) (c : Cursor) (b : Block) (g : Group) (p : Split) (f : Op → State) : State :=
  match beginWord i s c b g p with
  | .trap cause => raiseAt s c.blk c.gix { cause := cause, widx := p.word, resume := .offending, split := c.no, pkt := p.pc }
  | .abort s1 cause detail => { abortTx s1 c.blk c.gix c.no cause detail with jumped := true }
  | .stall s1 w => stallAt s1 c.blk c.gix c.no w
  | .skip => modGroup s c.blk c.gix (·.modSplit c.no fun q => { q with skip := q.skip.filter (· != p.runPlace) })
  | .go o => f o

/-- The meaning of an encoded word: its split issues it. With no split issuing there is nothing to run it. -/
def issueWord (i : Instr) (s : State) (f : Op → State) : Host.Outcome State Fault Refusal :=
  match issuerOf s with
  | none => .fault .noIssuer
  | some (c, b, g, p) => .next (runWord i s c b g p f)

/-- The operands with which a word's effect begins, where nothing comes before it. -/
def wordOp (i : Instr) (s : State) : Option Op :=
  match issuerOf s with
  | none => none
  | some (c, b, g, p) => match beginWord i s c b g p with
    | .go o => some o
    | .trap _ => none
    | .abort _ _ _ => none
    | .stall _ _ => none
    | .skip => none

end Sys2Proof.Machine
end

