-- ==== Sys2Proof/Machine/Flags.lean ====
section
/-! DEFINITION. Integer element arithmetic and every flag computation: condition codes of integer words (R45, R96, R97,
R106), flag tests (R38), FX (R50), and the value of the flags over a split's lanes (R73, R90). -/
namespace Sys2Proof.Machine
open Sys2Proof

/-- An integer type: sub-elements per lane, element width, signedness (R38, R97). -/
structure IntTy where
  n : Nat
  w : Nat
  sgn : Bool
deriving DecidableEq, Repr

/-- The type of a TI code (R38). -/
def tyOf (y : BitVec 3) : IntTy :=
  if y == 0 then ⟨1, 32, true⟩ else if y == 1 then ⟨1, 32, false⟩ else if y == 2 then ⟨1, 64, true⟩
  else if y == 3 then ⟨1, 64, false⟩ else if y == 4 then ⟨4, 8, true⟩ else if y == 5 then ⟨4, 8, false⟩
  else if y == 6 then ⟨2, 16, true⟩ else ⟨2, 16, false⟩

/-- Sub-element j as bits (R45). -/
def elemBits (t : IntTy) (v : DWord) (j : Nat) : Nat := v.toNat / 2 ^ (t.w * j) % 2 ^ t.w
/-- Bits of a width read as signed. -/
def signed (w x : Nat) : Int := if x < 2 ^ (w - 1) then x else (x : Int) - 2 ^ w
/-- Sub-element j in the type's signedness (R97). -/
def elem (t : IntTy) (v : DWord) (j : Nat) : Int := if t.sgn then signed t.w (elemBits t v j) else elemBits t v j
/-- The low w bits of an exact value. -/
def wrapTo (w : Nat) (e : Int) : Nat := (e.emod (2 ^ w : Nat)).toNat
/-- A value clamped to its type (R45, R97). -/
def satTo (t : IntTy) (e : Int) : Nat :=
  let lo : Int := if t.sgn then -(2 ^ (t.w - 1) : Nat) else 0
  let hi : Int := if t.sgn then (2 ^ (t.w - 1) : Nat) - 1 else (2 ^ t.w : Nat) - 1
  wrapTo t.w (max lo (min hi e))
/-- Sub-elements put together, sub-element 0 lowest (R45). -/
def packElems (w : Nat) : List Nat → Nat
  | [] => 0
  | x :: r => x % 2 ^ w + 2 ^ w * packElems w r

/-- An element-wise word: the exact result of each sub-element, wrapped or clamped (R97). -/
def mapElems (t : IntTy) (sat : Bool) (op : Int → Int → Int → Int) (a b d : DWord) : DWord :=
  BitVec.ofNat 64 (packElems t.w ((List.range t.n).map fun j =>
    let e := op (elem t a j) (elem t b j) (elem t d j)
    if sat then satTo t e else wrapTo t.w e))

/-- The flags of one lane. -/
structure CC where
  c : Bool
  z : Bool
  n : Bool
  v : Bool
deriving DecidableEq, Repr

/-- The flags of a lane as they stand. -/
def Regs.cc (r : Regs) (l : Nat) : CC := { c := bit r.fC l, z := bit r.fZ l, n := bit r.fN l, v := bit r.fV l }

/-- Flags written in the lanes of a mask. -/
def Regs.putCC (r : Regs) (act : LaneMask) (f : Nat → CC) : Regs :=
  { r with fC := mergeMask r.fC act (laneMask act fun l => (f l).c), fZ := mergeMask r.fZ act (laneMask act fun l => (f l).z),
           fN := mergeMask r.fN act (laneMask act fun l => (f l).n), fV := mergeMask r.fV act (laneMask act fun l => (f l).v) }

/-- FX set, sticky, in the lanes of a mask where `f` holds (R50). -/
def Regs.setFX (r : Regs) (act : LaneMask) (f : Nat → Bool) : Regs := { r with fFX := r.fFX ||| laneMask act f }
/-- SP set, sticky (R146). -/
def Regs.setSP (r : Regs) (act : LaneMask) (f : Nat → Bool) : Regs := { r with fSP := r.fSP ||| laneMask act f }

/-- The top element's index. -/
def IntTy.top (t : IntTy) : Nat := t.n - 1
/-- The written lane value is 0: 64 bits of a 64-bit type, else 32. -/
def isZero (t : IntTy) (v : DWord) : Bool := if t.w == 64 then v == 0 else v.setWidth 32 == (0 : Word)
/-- Bit w - 1 of the written top element (R96). -/
def topBit (t : IntTy) (v : DWord) : Bool := v.getLsbD (t.w * t.n - 1)

/-- Flags of an addition with carry in (R96): the exact operation of the top element. -/
def addCC (t : IntTy) (a b : DWord) (cin : Bool) (written : DWord) : CC :=
  let i : Nat := if cin then 1 else 0
  let x := elemBits t a t.top
  let y := elemBits t b t.top
  let s := signed t.w x + signed t.w y + i
  { c := 2 ^ t.w ≤ x + y + i, z := isZero t written, n := topBit t written,
    v := s < -(2 ^ (t.w - 1) : Nat) || (2 ^ (t.w - 1) : Nat) - 1 < s }

/-- Flags of a subtraction with carry in (R96): C means no borrow. -/
def subCC (t : IntTy) (a b : DWord) (cin : Bool) (written : DWord) : CC :=
  let i : Nat := if cin then 0 else 1
  let x := elemBits t a t.top
  let y := elemBits t b t.top
  let s := signed t.w x - signed t.w y - i
  { c := y + i ≤ x, z := isZero t written, n := topBit t written,
    v := s < -(2 ^ (t.w - 1) : Nat) || (2 ^ (t.w - 1) : Nat) - 1 < s }

/-- Flags of a bitwise word: C and V unchanged (R96, R99). -/
def logicCC (t : IntTy) (old : CC) (written : DWord) : CC :=
  { old with z := isZero t written, n := topBit t written }

/-- Flags of an integer comparison (R106). -/
def cmpCC (t : IntTy) (a b : DWord) : CC :=
  let js := List.range t.n
  { z := js.all fun j => elem t a j == elem t b j, n := js.all fun j => elem t a j < elem t b j,
    c := js.all fun j => elem t b j ≤ elem t a j, v := false }

/-- A flag test of a lane (R38). -/
def flagTest (r : Regs) (e : BitVec 4) (l : Nat) : Bool :=
  let v := match e.toNat / 2 with
    | 0 => bit r.fZ l
    | 1 => bit r.fC l
    | 2 => bit r.fN l
    | 3 => bit r.fV l
    | _ => bit r.fSP l
  if e.toNat % 2 == 0 then v else !v

/-- One lane flag by its number (R90). -/
def flagMask (r : Regs) (f : BitVec 3) : LaneMask :=
  if f == 0 then r.fC else if f == 1 then r.fZ else if f == 2 then r.fN else if f == 3 then r.fV
  else if f == 4 then r.fSP else r.fFX

end Sys2Proof.Machine
end

