-- ==== Sys2Proof/Machine/Clock.lean ====
section
/-! DEFINITION. Global time, cycles and levels (R3, R89, R236, R269, R271, R366, R368). Cycles are counted in quarters,
since a tick of PL5 is 8.5 cycles and one of PL6 is 9.25 (R366). -/
namespace Sys2Proof.Machine
open Sys2Proof

/-- A core's record changed. -/
def modCore (s : State) (n : Nat) (f : CoreSt → CoreSt) : State :=
  { s with hol := { s.hol with cores := mmod s.hol.cores n {} f } }

/-- The group's cycles count: resident, not halted, not in a pre-emption entry (R89, R271). -/
def Group.counts (g : Group) : Bool := g.halt == .no || g.halt == .stepping

/-- A block that stands on its core with its groups issuing or waiting there. -/
def Block.onCore (b : Block) : Bool := b.life == .resident

/-- Quarter cycles that are left of `n` ticks of a wing, the present one the first of them. -/
def quartersLeft (w : Wing) (n : Nat) : Nat := n * tickQ w.pl - w.sub

/-- Clusters held: a group's own for a time more. -/
def Group.hold (g : Group) (q : Nat) : Group :=
  { g with busy := g.busy + q, cycQ := if g.counts then g.cycQ + q else g.cycQ }

end Sys2Proof.Machine
end

