-- ==== Sys2Proof/Machine/Fetch.lean ====
section
/-! DEFINITION. Fetching a packet, latch runs, and which split is ready to issue (R21, R33 to R36, R44, R212, R300). -/
namespace Sys2Proof.Machine
open Sys2Proof

/-- A block and one of its groups. -/
def groupWith (s : State) (k gix : Nat) : Option (Block × Group) :=
  match blockOf s k, groupOf s k gix with
  | some b, some g => some (b, g)
  | _, _ => none

/-- The address of a packet (R21). -/
def packetAddr (b : Block) (pc : BitVec 32) : Nat := b.code.toNat + 12 * pc.toNat

/-- The outcome of a fetch. -/
inductive Fetch where
  | ok (ss : List Slot)
  | trap (q : TrapReq)
  /-- Not translated yet, or held: the addresses waited for. -/
  | stall (vas : List Nat)
deriving DecidableEq, Repr

/-- The bytes of a range at their translated pieces. -/
def piecesBytes (m : MemSys) (tag : Option (Nat × Nat)) (ps : List (Spot × Nat)) : List Byte :=
  ps.flatMap fun (p, n) => bytesLE n (lineNat (viewLine m tag p.pa) (p.pa % 64) n)

/-- An `slane` word whose lane number lies outside the group width, which is illegal (R40). -/
def wideLane (W : Nat) (w : Word) : Bool := bits w 24 7 == 0x13 && W ≤ bits w 7 6

/-- A write of `trpc` or `trmask`, which is an illegal word outside trap mode (R201). -/
def trapWrite (w : Word) : Bool := bits w 24 7 == 0x7D && bits w 12 1 == 1 && (bits w 13 6 == 3 || bits w 13 6 == 4)

/-- The first word that is illegal in a group of this width, in trap mode or not, whatever stands beside it (R43). -/
def illegalHere (W : Nat) (tm : Bool) : List Word → Nat → Option Nat
  | [], _ => none
  | w :: r, n => if wideLane W w || (!tm && trapWrite w) then some n else illegalHere W tm r (n + 1)

/-- The packet at a split's program counter, for a group in trap mode or not (R21, R43, R44). -/
def fetchPacket (s : State) (b : Block) (tm : Bool) (no : Nat) (pc : BitVec 32) : Fetch :=
  let a := packetAddr b pc
  let q : BitVec 8 → Nat → TrapReq := fun cause w =>
    { cause := cause, widx := w, split := no, pkt := pc, resume := .at pc 0 }
  if capCheck b.image pEXEC (BitVec.ofNat 64 a) 12 4 0 != .none then .trap (q 0x02 0)
  else
    let w := whoOf s b
    let look := (linePieces a 12).map fun (va, n) => (va, n, lookVa s w va n needX true)
    let miss := look.filterMap fun (va, _, l) => match l with
      | .ok _ => none
      | _ => some va
    if !miss.isEmpty then .stall miss
    else
      let ps := look.filterMap fun (_, n, l) => match l with
        | .ok p => some (p, n)
        | _ => none
      let ws := wordsOf (piecesBytes s.mem w.tag ps)
      match decodePacket ws, illegalHere b.width tm ws 0 with
      | .error n, some i => .trap (q 0x01 (min n i))
      | .error n, none => .trap (q 0x01 n)
      | .ok _, some i => .trap (q 0x01 i)
      | .ok ss, none => .ok ss

/-- A word reads a latch (R31, R34). -/
def slotLatch (x : Slot) : Bool := (srcCodes x.ins).any fun c => 56 ≤ c.toNat
/-- A packet reads a latch (R34). -/
def readsLatch (ss : List Slot) : Bool := ss.any slotLatch

/-- Where a fetch has found its packet, whether it reads a latch. -/
def Fetch.reads : Fetch → Option Bool
  | .ok ss => some (readsLatch ss)
  | .trap _ => some false
  | .stall _ => none

/-- The state in which a look ahead finds a packet: its pages walked as its fetch would walk them. -/
def peekState (s : State) (b : Block) (pc : BitVec 32) : State :=
  (linePieces (packetAddr b pc) 12).foldl (fun s (va, n) => (resolveVa s (whoOf s b) va n needX true).1) s

/-- The packet at a place reads a latch, as far as that can be known: not where its page is not mapped or its line waits. -/
def readsAt (s : State) (b : Block) (no : Nat) (pc : BitVec 32) : Option Bool :=
  match (fetchPacket s b true no pc).reads with
  | some r => some r
  | none => (fetchPacket (peekState s b pc) b true no pc).reads

/-- The packet that a split is to execute next reads a latch. -/
def nextReads (s : State) (b : Block) (p : Split) : Option Bool := readsAt s b p.no p.pc

/-- How far a word may branch (R72, R73). -/
def branchOff : Instr → Option (BitVec 32)
  | .br o => some (o.signExtend 32)
  | .brcEq0 _ o => some (o.signExtend 32)
  | .brcNe0 _ o => some (o.signExtend 32)
  | .brcLt0 _ o => some (o.signExtend 32)
  | .brcGe0 _ o => some (o.signExtend 32)
  | .brcZ o => some (o.signExtend 32)
  | .brcNz o => some (o.signExtend 32)
  | .brcC o => some (o.signExtend 32)
  | .brcNc o => some (o.signExtend 32)
  | _ => none

/-- What is left of the packet in which a split stands reads a latch, or a packet that may follow it may. -/
def laterReads (s : State) (b : Block) (p : Split) : Bool :=
  readsAt s b p.no (p.pc + 1) != some false || match fetchPacket s b true p.no p.pc with
    | .ok ss => ss.any fun x => (p.word ≤ x.idx && slotLatch x) || match branchOff x.ins with
      | some o => readsAt s b p.no (p.pc + o) != some false
      | none => false
    | .trap _ => false
    | .stall _ => false

/-- A split stands inside a latch run: its clusters are its own (R33). Between two packets it does where the next reads a
latch or is not known yet; at a word of a packet, where that packet or one that may follow it reads one. -/
def insideRun (s : State) (b : Block) (p : Split) : Bool :=
  match p.run with
  | none => false
  | some u => !u.lost && if p.word == 0 then nextReads s b p != some false else p.pc != u.start || laterReads s b p

/-- A latch-reading packet may not go on with this run (R34, R35). -/
def Run.full (u : Run) : Bool := u.ended || 32 ≤ u.len

/-- The run checks of R33 to R35: the index of the word at fault, if the packet breaks one. -/
def runBreak (p : Split) (ss : List Slot) : Option Nat :=
  if !readsLatch ss || p.word != 0 then none
  else
    let bad := p.fresh || match p.run with
      | some u => u.full
      | none => false
    if bad then some (((ss.find? slotLatch).map (·.idx)).getD 0) else none

/-- The run that a split is in once it executes a packet (R34, R36). -/
def runAfter (g : Group) (p : Split) (ss : List Slot) : Option Run :=
  if p.word != 0 then p.run
  else
    let ended := ss.any fun x => lastOnly x.ins
    match readsLatch ss, p.run with
    | true, some u => some { u with pkts := p.pc :: u.pkts, ended := ended }
    | _, _ => some { start := p.pc, pkts := [p.pc], pats := g.pat, ended := ended }

/-- A run whose latches are lost goes back to its first packet now that it is known to go on. -/
def Group.regainRun (g : Group) (n : Nat) : Group :=
  (g.modSplit n fun p => { p with run := p.run.map fun u => { u with lost := false } }).restartRun n

/-- A split's run settled at a packet boundary, where its next packet reads a latch, does not, or cannot be known (R34). -/
def Group.settleRun (g : Group) (n : Nat) (reads : Option Bool) : Group :=
  match reads, (g.split n).bind (·.run) with
  | some false, _ => g.modSplit n fun p => { p with run := none }
  | none, _ => g.modSplit n fun p => { p with run := p.run.map fun u => { u with lost := true } }
  | some true, some u => if u.lost && !u.full then g.regainRun n else g
  | some true, none => g

/-- The runs of a group's splits settled, each that stands at a boundary (R34). -/
def normRuns (s : State) (k gix : Nat) : State :=
  match blockOf s k with
  | none => s
  | some b => modGroup s k gix fun g => g.splits.foldl (fun g p => if p.word == 0 then g.settleRun p.no (nextReads s b p) else g) g

/-- A trap that comes at a packet boundary, runs settled first. -/
def takeAtBoundary (s : State) (k gix : Nat) (q : TrapReq) : State := takeTrap (normRuns s k gix) k gix q

/-- A scope reaches other VX9s (R233). -/
def reachesFar (scope : BitVec 3) : Bool := 5 ≤ scope.toNat

/-- A scope reaches the destinations of an outstanding word: below `.domain`, one of them lies in the package (R233). -/
def Pending.within (p : Pending) (scope : BitVec 3) : Bool :=
  let ls := p.buf ++ p.todo ++ p.flt
  reachesFar scope || !(p.far || (!ls.isEmpty && ls.all (·.far)))

/-- The fence's accesses are done (R199, R233, R243): counters by kind, deliveries and commands before it, those that its
scope reaches. -/
def fenceDone (g : Group) (scope : BitVec 3) (kinds : BitVec 4) (upto : Nat) : Bool :=
  let before := g.out.filter fun p => p.id < upto
  let out := before.filter (·.within scope)
  (kinds.getLsbD 0 == false || before.all fun p => p.ctr != .ld) &&
  (kinds.getLsbD 1 == false || out.all fun p => p.ctr != .st || p.redm) &&
  (kinds.getLsbD 2 == false || out.all fun p => !p.redm) &&
  (kinds.getLsbD 3 == false || out.all fun p => p.ctr != .eng && !p.mma)

/-- A split's stash write-backs are not over (R199). -/
def flushing (g : Group) (no : Nat) : Bool := g.out.any fun p => p.split == no && !p.lines.isEmpty

/-- The group's time past what a fence of these kinds orders and its scope reaches (R233, R243): acknowledged deliveries,
completed commands. -/
def fenceRaise (scope : BitVec 3) (kinds : BitVec 4) (g : Group) : Group :=
  let far := fun n : Nat => if reachesFar scope then n else 0
  let g1 : Group := if kinds.getLsbD 2 then g.raise (max g.redAck (far g.redFar)) else g
  if kinds.getLsbD 3 then g1.raise (max g1.engAck (far g1.engFar)) else g1

/-- What a fence of these kinds does once they are done (R242, R243): the group's time, and at `.system` what the host
sees. -/
def fencePass (s : State) (k gix : Nat) (scope : BitVec 3) (kinds : BitVec 4) : State :=
  let s := modGroup s k gix (fenceRaise scope kinds)
  if scope != 6 then s
  else modMem s fun m =>
    let m := if kinds.getLsbD 0 || kinds.getLsbD 1 then reveal m k gix 0 else m
    let m := if kinds.getLsbD 1 then reveal m k gix 1 else m
    if kinds.getLsbD 2 then reveal m k gix 2 else m

/-- The condition a split waits for may hold now (R92, R212). -/
def waitMayEnd (b : Block) (g : Group) (gt : Nat) (p : Split) : Bool :=
  match p.wait with
  | .none => true
  | .waitc c n => ctrCount g (ctrOf c) ≤ n.toNat
  | .fence sc kd upto _ => fenceDone g sc kd upto && !flushing g p.no
  | .chan pops pushes => !chanWaits b g g.qb pops pushes
  | .granule offs => offs.all (spFull b.spad)
  | .counter c => ctrCount g c < 63
  | .order sc kd upto => fenceDone g sc kd upto
  | .confirm => !unconfirmed g && !(g.out.any fun q => q.probe)
  | .held tick => tick < gt
  | .settle => !g.unsettled
  | .bar _ => false
  | .merge => false
  | .ctwait _ => false
  | .ctpeer _ _ _ _ _ => false
  | .switchPt _ _ => false
  | .rett => false

/-- The context's groups may issue: running, or halting with this group not yet at its boundary (R268, R273). -/
def mayIssue (s : State) (b : Block) (g : Group) : Bool :=
  let st := (ctxOf s b.ctx).st
  worldRuns (worldOf s b.world) && match g.halt with
  | .stepping => b.onCore && st == 5
  | .no => b.onCore && (st == 1 || (st == 2 && (g.tmode.isSome || g.inPacket)))
  | .handler left => b.onCore && st == 3 && left != 0
  | .halted => false
  | .saved => false

/-- The switch point whose packet this is in the block's variant (R225). -/
def switchAt (b : Block) (pc : BitVec 32) : Option SwitchPt := b.points.find? fun x => x.pkts[b.vix]? == some pc

/-- The group is due for a sweep and its split stands at a switch point (R360). -/
def sweepHere (b : Block) (g : Group) (p : Split) : Bool :=
  g.sweepDue.isSome && p.word == 0 && (switchAt b p.pc).isSome

/-- A split is ready (R212): its group issues, neither a parked word nor a trap halts it, and it waits for nothing. -/
def splitReady (s : State) (b : Block) (g : Group) (p : Split) : Bool :=
  mayIssue s b g && g.goesOn p && !sweepHere b g p && waitMayEnd b g s.gt p

/-- The clusters of a group in its quarter (R207). -/
def clusterSpan (b : Block) (g : Group) : Nat × Nat := (g.cluster, g.cluster + b.width / 16)
/-- Two groups of one core share a cluster (R33). -/
def sameCluster (b1 : Block) (g1 : Group) (b2 : Block) (g2 : Group) : Bool :=
  b1.core == b2.core && g1.quarter == g2.quarter &&
  (clusterSpan b1 g1).1 < (clusterSpan b2 g2).2 && (clusterSpan b2 g2).1 < (clusterSpan b1 g1).2

/-- The latches that an issue of this split loses (R33): of other groups on its clusters, and its own group's when
another split of the group issued last. -/
def loseLatches (s : State) (k gix no : Nat) (b : Block) (g : Group) : State :=
  { s with blocks := s.blocks.map fun (k2, b2) =>
      if b2.core != b.core then (k2, b2) else
      (k2, { b2 with groups := (b2.groups.zip (List.range b2.groups.length)).map fun (g2, i) =>
        if k2 == k && i == gix then (if g2.last == no then g2 else { g2 with r := g2.r.noLatches })
        else if b2.onCore && sameCluster b g b2 g2 then { g2 with r := g2.r.noLatches } else g2 }) }

/-! ### Switch points (R225) -/

/-- Every group of the block that waits at a switch point goes past it, the request still set (R225). -/
def passSwitch (s : State) (k : Nat) : State :=
  modBlock s k fun b => { b with groups := b.groups.map fun g => { g with splits := g.splits.map fun p =>
    match p.wait with
    | .switchPt _ _ => { p with wait := .none, passed := some p.pc }
    | _ => p } }

/-- A group that has ended under `done` (R83, R193). -/
def Group.over (g : Group) : Bool := g.splits.isEmpty

/-- The switch point that a whole group waits at. -/
def Group.atSwitch (g : Group) : Option Nat :=
  match g.splits with
  | [p] => match p.wait with
    | .switchPt n _ => some n
    | _ => none
  | _ => none

/-- Every group that has not ended waits at point n (R225). -/
def allAtSwitch (b : Block) (n : Nat) : Bool := b.groups.all fun g => g.over || g.atSwitch == some n

/-- A group that can be switched: one split, CDEP 0, not in trap mode (R225). -/
def Group.switchable (g : Group) : Bool := g.splits.length == 1 && g.stack.isEmpty && g.tmode.isNone

/-- The block's conditions of R225 at a switch point. -/
def switchTaken (b : Block) (x : SwitchPt) : Bool :=
  (b.groups.all fun g => g.over || g.switchable) &&
  (b.groups.all fun g => g.tx.isEmpty) &&
  (b.groups.all fun g => g.pat.isEmpty) && b.stash.isEmpty &&
  (b.chans.all fun (_, h) => h.used == 0) &&
  (0 < x.nw || b.groups.all fun g => !g.over)

/-! ### Who issues (R212, R213) -/

/-- A split that may be chosen. -/
structure Cand where
  blk  : Nat
  gix  : Nat
  no   : Nat
  seq  : Nat
  rdy  : Nat
  /-- Its latest issue among those of its group. -/
  iss  : Nat
  holds : Bool
  ready : Bool
  span : Nat × Nat
deriving DecidableEq, Repr

/-- Clusters in common. -/
def spanMeets (a b : Nat × Nat) : Bool := a.1 < b.2 && b.1 < a.2

/-- Quarter cycles until the clusters of a group are free: the longest that a group on any of them holds them. -/
def clusterBusy (s : State) (b : Block) (g : Group) : Nat :=
  s.blocks.foldl (fun m kb =>
    if kb.2.core == b.core && kb.2.onCore then
      kb.2.groups.foldl (fun m h =>
        if h.quarter == g.quarter && spanMeets (clusterSpan kb.2 h) (clusterSpan b g) then max m h.busy else m) m
    else m) 0

/-- The candidates of one group of a block. -/
def groupCands (s : State) (k gix : Nat) (b : Block) (g : Group) : List Cand :=
  g.splits.map fun p => { blk := k, gix := gix, no := p.no, seq := b.seq, rdy := p.rdy, iss := p.iss, holds := insideRun s b p,
                          ready := splitReady s b g p && clusterBusy s b g == 0, span := clusterSpan b g }

/-- The splits of a quarter of a core. -/
def quarterCands (s : State) (core quarter : Nat) : List Cand :=
  s.blocks.flatMap fun (k, b) =>
    if b.core == core && b.onCore then
      (b.groups.zip (List.range b.groups.length)).flatMap fun gi => if gi.1.quarter == quarter then groupCands s k gi.2 b gi.1 else []
    else []

/-- The order of R213: long waits first, then dispatch order, GRP, and within a group the split that issued longest ago. -/
def candBefore (a b : Cand) : Bool :=
  let la := 256 ≤ a.rdy
  let lb := 256 ≤ b.rdy
  if la != lb then la
  else if la && a.rdy != b.rdy then b.rdy < a.rdy
  else if a.seq != b.seq then a.seq < b.seq
  else if a.gix != b.gix then a.gix < b.gix
  else if a.iss != b.iss then a.iss < b.iss
  else a.no < b.no

/-- The first of the candidates. -/
def firstCand (cs : List Cand) : Option Cand :=
  cs.foldl (fun m c => match m with
    | none => some c
    | some d => if candBefore c d then some c else some d) none

/-- The split of a quarter that issues next (R213): one inside a run, else the first ready one whose clusters no run holds. -/
def chooseSplit (s : State) (core quarter : Nat) : Option Cand :=
  let cs := quarterCands s core quarter
  let hs := cs.filter (·.holds)
  match firstCand (hs.filter (·.ready)) with
  | some c => some c
  | none => firstCand (cs.filter fun c => c.ready && !(hs.any fun h => spanMeets h.span c.span))

/-! ### Time that passes (R89, R163, R212, R214, R236, R273, R276) -/

/-- Quarter cycles that pass over a group: each split counts those that it is ready without issuing (R212). -/
def Group.pass (g : Group) (q : Nat) (ready : Split → Bool) : Group :=
  let splits := g.splits.map fun p =>
    { p with rdy := if ready p then p.rdy + (if p.no == g.last then q - g.busy else q) else p.rdy, held := p.held + q }
  match g.halt with
  | .no => { g with cycQ := g.cycQ + (q - g.busy), busy := g.busy - q, ptsIdle := g.ptsIdle + q, reqQ := g.reqQ + q,
                    tx := g.tx.map fun (l, x) => (l, { x with age := x.age + q }), splits := splits }
  | .stepping => g
  | .handler left => { g with halt := .handler (left - q), busy := g.busy - q, reqQ := g.reqQ + q, splits := splits }
  | .halted => { g with busy := g.busy - q }
  | .saved => { g with busy := g.busy - q }

/-- Quarter cycles that pass over a block's groups while it stands on its core. -/
def Block.pass (s : State) (b : Block) (q : Nat) : Block :=
  if b.onCore then { b with groups := b.groups.map fun g => g.pass q (splitReady s b g) } else b

/-- Cycles pass in one wing. -/
def passWing (s : State) (wing q : Nat) : State :=
  { s with blocks := s.blocks.map fun kb => (kb.1, if wingOf kb.2.core == wing then Block.pass s kb.2 q else kb.2) }

/-- Time moves on within the present tick of one wing. -/
def spend (s : State) (wing q : Nat) : State :=
  modWing (passWing s wing q) wing fun w => { w with sub := w.sub + q, phase := (w.phase + q) % 4 }

/-- Performance events of a context counted in a tick (R271): while it runs, and no group of it is in a pre-emption entry. -/
def countEvents (s : State) (c : Nat) (x : Ctx) : Ctx :=
  if x.st == 1 && !(s.blocks.any fun (_, b) => b.ctx == c && b.groups.any fun g => g.pre.isSome) then { x with perf := x.perf + Config.perfEvents c s.gt } else x

/-- Ticks of the global timer for every wing: each begins a tick. The timer has 64 bits (R3). -/
def tickAll (s : State) (n : Nat) : State :=
  { s with ctxs := s.ctxs.map fun cx => (cx.1, countEvents s cx.1 cx.2), blocks := s.blocks.map fun kb => (kb.1, Block.pass s kb.2 (quartersLeft (wingSt s (wingOf kb.2.core)) n)),
           hol := { s.hol with wings := ((s.hol.wings.map (·.1)) ++ (s.blocks.map fun kb => wingOf kb.2.core)).eraseDups.foldl (fun m x =>
             let w := wingSt s x
             mput m x { w with sub := 0, phase := (w.phase + quartersLeft w n) % 4 } {}) s.hol.wings },
           gt := (s.gt + n) % 2 ^ 64 }

end Sys2Proof.Machine
end

