-- ==== Sys2Proof/Machine/Loader.lean ====
section
/-! DEFINITION. Placing an instruction where the machine fetches its next one: what stands for the load of a program. -/
namespace Sys2Proof.Machine
open Sys2Proof

/-- A packet's bytes: the words given, then `nop`s (R21, R24). -/
def packetBytes (ws : List Word) : List Byte := ((ws ++ List.replicate (3 - ws.length) 0x01000000).take 3).flatMap bytesOf

/-- The words of an instruction of `nbits` bits, its first word in the low bits. -/
def tableWords (nbits w : Nat) : List Word := wordsOfNat (nbits / 32) w

/-- The first 2 MiB of context 0, translated with every right, as a walk would have left it. -/
def bootPage : Tlb := { ctx := 0, va := 0, size := 2097152, pa := 0, ipa := 0, s1 := 7, s2 := 7, lv1 := 1, lv2 := 1, sh := false, ms := false }

/-- A dispatched block of one group of 16 lanes on core 0, its code at address 0. -/
def bootBlock : Block :=
  { image := mkCap (pLD ||| pEXEC) 0 4096, code := 0,
    groups := [{ splits := [{ no := 0, mem := allLanes 16, act := allLanes 16 }] }] }

/-- The state in which that block's split is about to issue packet 0 of its code: units ready, context 0 running. -/
def bootState (s : State) : State :=
  { s with
    cur := some { blk := 0, gix := 0, no := 0 }, inbox := [],
    hol := { s.hol with ready := BitVec.allOnes 64, wready := BitVec.allOnes 32 },
    ctxs := minsert s.ctxs 0 { en := true, st := 1 },
    blocks := minsert s.blocks 0 bootBlock,
    mem := { s.mem with mtlb := [bootPage] } }

/-- The physical address of the next packet of the chosen split. -/
def fetchPa (s : State) : Option Nat :=
  match issuerOf s with
  | none => none
  | some (_, b, _, p) =>
    match lookVa s (whoOf s b) (packetAddr b p.pc) 12 needX true with
    | .ok q => some q.pa
    | _ => none

/-- An instruction stored at the next fetch: at the chosen split's packet, or in a block booted for it. -/
def placeWord (s : State) (nbits w : Nat) : State :=
  let bs := packetBytes (tableWords nbits w)
  match fetchPa s with
  | some pa => modMem { s with inbox := [] } fun m => memPut m pa bs
  | none => modMem (bootState s) fun m => memPut m 0 bs

end Sys2Proof.Machine
end

