-- ==== Sys2Proof/Machine/Confirm.lean ====
section
/-! DEFINITION. A memory word from its address check to the performing of its confirmed lanes: the checks of R131, the
lanes of a word looked up (R300), performed together once all are known (R133, R231), and words inside a lane
transaction (R162, R163, R168). -/
namespace Sys2Proof.Machine
open Sys2Proof

/-! ### The checks of every access (R131, R132) -/

/-- The capability of a lane: a k register with V = 0, a c register with V = 1. -/
def Op.cap (o : Op) (v : BitVec 1) (k : BitVec 4) (l : Nat) : Cap := if v == 1 then o.r.creg k l else o.r.kreg k

/-- A 32-bit offset, sign-extended. -/
def Op.off (o : Op) (x : BitVec 6) (l : Nat) : BitVec 64 := (o.src .M x l).signExtend 64

/-- The offset of form MI (R26, R133): the short field scaled by the size, or the extension's bytes. -/
def immOff (i : Imm 6) (n : Nat) : BitVec 64 :=
  match i.ext with
  | .none => i.short.signExtend 64 * BitVec.ofNat 64 n
  | .one _ => (immWord i).signExtend 64
  | .two _ _ => (immWord i).signExtend 64

/-- A store into a stash region whose capability lacks ST (R137). -/
def stashReadOnly (b : Block) (spad : Bool) (a : BitVec 64) : Bool :=
  spad && match stashAt b a.toNat with
    | some (_, r) => !hasPerm r.cap pST
    | none => false

/-- One lane's kind: R131, then the refusals that R134 and R137 add as kind perm. -/
def laneKind (b : Block) (c : Cap) (need : BitVec 12) (a : BitVec 64) (n : Nat) (op : AccOp) : Kind :=
  let k := capCheck c need a n n b.spad.size
  let spadOut := match op with
    | .stc v => v.tag && isSpad v && !isSpad c
    | _ => false
  match k with
  | .tag => .tag
  | .sealed => .sealed
  | k => if spadOut || (shapeOf op != .loads && stashReadOnly b (isSpad c) a) then .perm else k

/-- A word's lanes: those that pass, as accesses, and the masks of those that fail. -/
def laneList (b : Block) (cap : Nat → Cap) (need : Nat → BitVec 12) (off : Nat → BitVec 64) (n : Nat) (fmt : BitVec 4)
    (op : Nat → AccOp) : List Nat → List LaneAcc × KindMasks
  | [] => ([], {})
  | l :: r =>
    let q := laneList b cap need off n fmt op r
    let c := cap l
    let a := c.addr + off l
    match laneKind b c (need l) a n (op l) with
    | .none => ({ lane := l, spad := isSpad c, va := a, n := n, fmt := fmt, op := op l } :: q.1, q.2)
    | k => (q.1, addKind q.2 k (oneLane l))

/-! ### Confirmation (R300) -/

/-- The lanes of a word split into the confirmed, with their places, and the rest. -/
def lookLanes (s : State) (b : Block) (ls : List LaneAcc) : List LaneAcc × List LaneAcc :=
  ls.foldr (fun a q => match lookLane s b (whoOf s b) ls a with
    | .go x => (x :: q.1, q.2)
    | .stop _ => (q.1, a :: q.2)) ([], [])

/-- The confirmed lanes of a load or atomic performed together at the group's time, earlier stores first; its values
wait for their delivery (R80, R133, R231). A sector's code that disagrees is the trap of R132. -/
def performOut (s : State) (k gix id : Nat) : State :=
  let s := placeStores s k gix id
  match blockOf s k with
  | none => s
  | some b => match b.groups[gix]? with
    | none => s
    | some g => match g.out.find? fun p => p.id == id with
      | none => s
      | some p =>
        if p.ctr != .ld || p.buf.isEmpty then s else
        let d := perform { m := s.mem, b := b, gix := gix } (whoOf s b) (if p.stores then max g.pts g.relTop else g.pts) p.buf
        let m := if p.stores then hideLanes s.mem d.y.m k gix 0 p.buf else d.y.m
        let s1 := putBlock (sendLanes { s with mem := m } (whoOf s b) s.mem d.t p.buf) k (d.y.b.modGroup gix fun g => (g.raise d.t).modOut id fun p =>
          { p with buf := [], vals := d.vals.foldl (fun m (l, v) => minsert m l v) p.vals })
        if d.bad == 0 then s1
        else modGroup s1 k gix (·.addKinds { cause := 0x0A, widx := p.wix, split := p.split, pkt := p.pkt } { fmt := d.bad })

/-- Every load and atomic that no unconfirmed word stands before is performed, in order (R231). -/
def settleOut (s : State) (k gix : Nat) : State :=
  match groupOf s k gix with
  | none => s
  | some g => (g.settled.filter fun p => p.ctr == .ld && !p.buf.isEmpty).foldl (fun s p => performOut s k gix p.id) s

/-- A word put among the outstanding ones (R80). -/
def Op.start (o : Op) (s : State) (p : Pending) : State :=
  settleOut (modGroup s o.k o.gix (·.addOut { p with pkt := o.sp.pc, split := o.no, wix := o.sp.word })) o.k o.gix

/-- The trap request of a capability fault of this word (R132). -/
def Op.capReq (o : Op) : TrapReq := o.req 0x0A

/-! ### Words inside a lane transaction (R162, R163, R168) -/

/-- Every open transaction of the split aborted at this word (R166). -/
def Op.abort (o : Op) (s : State) (cause detail : Nat) : State := { abortTx s o.k o.gix o.no cause detail with jumped := true }

/-- The lanes of a word that no transaction holds, issued beside the values that its other lanes have (R80, R132, R300). -/
def Op.launch (o : Op) (s : State) (ctr : Ctr) (dest : Dest) (redm : Bool) (ls : List LaneAcc) (kinds : KindMasks) (vals : SMap Val) : State :=
  let s := addCapTrap s o.k o.gix o.no o.capReq kinds
  let s := match dest with
    | .chan c => modBlock s o.k fun b => reserveChan b c o.gix o.g.nextId
    | _ => s
  let (go, todo) := lookLanes s o.b ls
  if ctr == .st && ls.isEmpty then s
  else o.start s { id := 0, ctr := ctr, dest := dest, buf := go, todo := todo, redm := redm, vals := vals }

/-- The confirmed lanes of a load in a transaction, performed: values with the lanes' own stores, read sets, time. The
lanes `outs` that no transaction holds load as ever. -/
def Op.txLoad (o : Op) (s : State) (dest : Dest) (ls outs : List LaneAcc) (kinds : KindMasks) : State :=
  let s := placeStores s o.k o.gix o.g.nextId
  match blockOf s o.k with
  | none => s
  | some b => match b.groups[o.gix]? with
    | none => s
    | some g =>
      match txRead (whoOf s b) { m := s.mem, b := b, gix := o.gix } g ls with
      | none => o.abort s 3 0
      | some (y, g1, rs) =>
        let vals := rs.foldl (fun m (a, v, bad) => if bad then m else minsert m a.lane v) []
        let s1 := putBlock { s with mem := y.m } o.k (y.b.modGroup o.gix fun _ => g1)
        let s2 := o.launch s1 .ld dest false outs kinds vals
        addCapTrap s2 o.k o.gix o.no o.capReq { fmt := maskOf ((rs.filter (·.2.2)).map (·.1.lane)) }

/-- Stores in a transaction: each goes into its lane's buffer (R163); the lanes `outs` that no transaction holds store as
ever. -/
def Op.txStore (o : Op) (s : State) (ls outs : List LaneAcc) (kinds : KindMasks) : State :=
  let put : Group → Group := fun g => ls.foldl (fun g a => g.modTx a.lane fun x => { x with writes := x.writes ++ [a] }) g
  let full := ((put o.g).tx.any fun (_, x) => 8 < x.writeLines.length)
  if full then o.abort s 4 0 else o.launch (modGroup s o.k o.gix put) .st .none false outs kinds []

/-- A memory word inside an open transaction (R162, R163, R168). A lane of the split that has no transaction open makes its
access as outside. -/
def Op.txIssue (o : Op) (ctr : Ctr) (dest : Dest) (ls : List LaneAcc) (kinds : KindMasks) : State :=
  let live := liveTx o.g o.no
  let outs := ls.filter fun a => !live.contains a.lane
  if ls.any (·.spad) then o.abort o.s0 6 0
  else if kinds.only (maskOf live) != {} then addCapTrap o.s o.k o.gix o.no o.capReq kinds
  else match txMeet o.s o.b o.g live ls with
    | .abort s cause => o.abort (if cause == 6 then o.s0 else s) cause 0
    | .hold xs => stallAt (xs.foldl ask o.s0) o.k o.gix o.no (.held o.s0.gt)
    | .pass s good => if ctr == .ld then o.txLoad s dest good outs kinds else o.txStore s good outs kinds

/-! ### Issue -/

/-- A memory word issued with its lanes (R80, R132, R300): a counter at 63 holds it back. -/
def Op.issue (o : Op) (ctr : Ctr) (dest : Dest) (redm : Bool) (ls : List LaneAcc) (kinds : KindMasks) : State :=
  if 63 ≤ ctrCount o.g ctr then stallAt o.s0 o.k o.gix o.no (.counter ctr)
  else if !(liveTx o.g o.no).isEmpty then o.txIssue ctr dest ls kinds
  else o.launch o.s ctr dest redm ls kinds []

end Sys2Proof.Machine
end

