-- ==== Sys2Proof/Machine/MemWords.lean ====
section
/-! DEFINITION. Memory words: loads and stores, capabilities, full/empty granules, the stash, stream patterns and
reduce-to-memory (R133 to R141). -/
namespace Sys2Proof.Machine
open Sys2Proof

/-- The bytes of a size field (R38). -/
def sizeOf' (z : BitVec 2) : Nat := if z == 0 then 4 else if z == 1 then 8 else if z == 2 then 2 else 1

/-- Where a load's values go (R86, R133): its registers are fixed at issue. -/
def Op.dest (o : Op) (d : BitVec 6) (sup : BitVec 1) (wide : Bool) : Dest :=
  if sup == 1 || d == 54 then .none
  else if d.toNat ≤ 47 then
    .win (physOf o.b.v.p o.r.base d.toNat) (if wide then some (physOf o.b.v.p o.r.base (d.toNat + 1)) else none)
  else match boundTo ((o.g.old.map (·.qb)).getD o.g.qb) d true with
    | some c => .chan c
    | none => .none

/-- The data of a store: a pair, or 32 bits. -/
def Op.data (o : Op) (d : BitVec 6) (wide : Bool) (l : Nat) : DWord :=
  if wide then o.src64 d l else (o.src .M d l).setWidth 64

/-! ### `ld` and `st` (R133) -/

/-- A load with its offsets. -/
def loadWord (i : Instr) (s : State) (d : BitVec 6) (sup v : BitVec 1) (k : BitVec 4) (z : BitVec 2) (m : BitVec 4)
    (off : Op → Nat → BitVec 64) : Host.Outcome State Fault Refusal :=
  issueWord i s fun o =>
    let n := sizeOf' z
    let q := laneList o.b (o.cap v k) (fun _ => pLD) (off o) n m (fun _ => .ld) o.lanes
    o.issue .ld (o.dest d sup (n == 8)) false q.1 q.2

/-- A store with its offsets. -/
def storeWord (i : Instr) (s : State) (d : BitVec 6) (v : BitVec 1) (k : BitVec 4) (z : BitVec 2) (m : BitVec 4)
    (off : Op → Nat → BitVec 64) : Host.Outcome State Fault Refusal :=
  issueWord i s fun o =>
    let n := sizeOf' z
    let q := laneList o.b (o.cap v k) (fun _ => pST) (off o) n m (fun l => .st (o.data d (n == 8) l)) o.lanes
    o.issue .st .none false q.1 q.2

/-- `ld` with a register offset. -/
def execLdReg (d : BitVec 6) (sv v : BitVec 1) (k : BitVec 4) (x : BitVec 6) (z : BitVec 2) (m : BitVec 4) (s : State) :
    Host.Outcome State Fault Refusal :=
  loadWord (.ldReg d sv v k x z m) s d sv v k z m fun o l => o.off x l
/-- `ld` with an immediate offset. -/
def execLdImm (d : BitVec 6) (sv v : BitVec 1) (k : BitVec 4) (i : Imm 6) (z : BitVec 2) (m : BitVec 4) (s : State) :
    Host.Outcome State Fault Refusal :=
  loadWord (.ldImm d sv v k i z m) s d sv v k z m fun _ _ => immOff i (sizeOf' z)
/-- `st` with a register offset. -/
def execStReg (d : BitVec 6) (v : BitVec 1) (k : BitVec 4) (x : BitVec 6) (z : BitVec 2) (m : BitVec 4) (s : State) :
    Host.Outcome State Fault Refusal :=
  storeWord (.stReg d v k x z m) s d v k z m fun o l => o.off x l
/-- `st` with an immediate offset. -/
def execStImm (d : BitVec 6) (v : BitVec 1) (k : BitVec 4) (i : Imm 6) (z : BitVec 2) (m : BitVec 4) (s : State) :
    Host.Outcome State Fault Refusal :=
  storeWord (.stImm d v k i z m) s d v k z m fun _ _ => immOff i (sizeOf' z)

/-! ### `ldc` and `stc` (R134) -/

/-- `ldc`: `e` says a lane register; a k register is loaded by the lowest active lane alone. -/
def execLdc (d : BitVec 4) (e v : BitVec 1) (k : BitVec 4) (x : BitVec 6) (s : State) : Host.Outcome State Fault Refusal :=
  issueWord (.ldc d e v k x) s fun o =>
    let lanes := if e == 1 then o.lanes else o.lanes.take 1
    let q := laneList o.b (o.cap v k) (fun _ => pLD) (o.off x) 16 15 (fun l => .ldc (hasPerm (o.cap v k l) pLDC)) lanes
    o.issue .ld (if e == 1 then .capC d.toNat else .capK d.toNat) false q.1 q.2

/-- `stc`: STC is needed where the stored capability is tagged. -/
def execStc (d : BitVec 4) (e v : BitVec 1) (k : BitVec 4) (x : BitVec 6) (s : State) : Host.Outcome State Fault Refusal :=
  issueWord (.stc d e v k x) s fun o =>
    let c := fun l => if e == 1 then o.r.creg d l else o.r.kreg d
    let q := laneList o.b (o.cap v k) (fun l => if (c l).tag then pST ||| pSTC else pST) (o.off x) 16 15
      (fun l => .stc (c l)) o.lanes
    o.issue .st .none false q.1 q.2

/-! ### Full and empty granules (R136) -/

/-- Some lane's address lies in a stash region. -/
def inStash (b : Block) (ls : List LaneAcc) : Bool := ls.any fun a => (stashAt b a.va.toNat).isSome

/-- `ldfe` and `ldfe.clr`: it issues when every granule is full. -/
def ldfeWord (i : Instr) (s : State) (clr : Bool) (d : BitVec 6) (sup v : BitVec 1) (k : BitVec 4) (x : BitVec 6) (z : BitVec 1) :
    Host.Outcome State Fault Refusal :=
  issueWord i s fun o =>
    let n := if z == 1 then 8 else 4
    let q := laneList o.b (o.cap v k) (fun _ => pLD ||| pSPAD) (o.off x) n 15 (fun _ => .ldfe clr) o.lanes
    if inStash o.b q.1 then o.raise 0x0B
    else if unconfirmed o.g then stallAt o.s0 o.k o.gix o.no .confirm
    else
      let t := placeStores o.s o.k o.gix o.g.nextId
      match blockOf t o.k with
      | none => t
      | some b =>
        if q.1.all fun a => spFull b.spad a.va.toNat then
          ({ o with s := t, b := b, g := (b.groups[o.gix]?).getD o.g } : Op).issue .ld (o.dest d sup (n == 8)) false q.1 q.2
        else stallAt o.s0 o.k o.gix o.no (.granule (q.1.map (·.va.toNat)))

/-- `ldfe`. -/
def execLdfe (d : BitVec 6) (sv v : BitVec 1) (k : BitVec 4) (x : BitVec 6) (z : BitVec 1) (s : State) : Host.Outcome State Fault Refusal :=
  ldfeWord (.ldfe d sv v k x z) s false d sv v k x z
/-- `ldfe.clr`. -/
def execLdfeClr (d : BitVec 6) (sv v : BitVec 1) (k : BitVec 4) (x : BitVec 6) (z : BitVec 1) (s : State) : Host.Outcome State Fault Refusal :=
  ldfeWord (.ldfeClr d sv v k x z) s true d sv v k x z
/-- `stfe`. -/
def execStfe (d : BitVec 6) (v : BitVec 1) (k : BitVec 4) (x : BitVec 6) (z : BitVec 1) (s : State) : Host.Outcome State Fault Refusal :=
  issueWord (.stfe d v k x z) s fun o =>
    let n := if z == 1 then 8 else 4
    let q := laneList o.b (o.cap v k) (fun _ => pST ||| pSPAD) (o.off x) n 15 (fun l => .stfe (o.data d (n == 8) l)) o.lanes
    -- an address in a region is the stash-map trap, whatever the region lets be stored
    let any := laneList o.b (o.cap v k) (fun _ => pST ||| pSPAD) (o.off x) n 15 (fun _ => .ldfe false) o.lanes
    if inStash o.b any.1 then o.raise 0x0B else o.issue .st .none false q.1 q.2

/-! ### The stash (R137, R138) -/

/-- The stash lines of a scratchpad range: first byte of the region, line number. -/
def stashLines (b : Block) (lo len : Nat) : List (Nat × Nat) :=
  b.stash.flatMap fun r =>
    ((List.range (r.len / 64)).filter fun n => r.at0 + 64 * n < lo + len && lo < r.at0 + 64 * n + 64).map fun n => (r.at0, n)

/-- Stash lines, by first byte of their region and number, written back in order at the group's time, which rises past
them (R241): the lines left at the first that cannot be reached, and its address. -/
def flushLines (k gix : Nat) : List (Nat × Nat) → State → State × List (Nat × Nat) × Option (Nat × Look)
  | [], s => (s, [], none)
  | (at0, n) :: r, s =>
    match (blockOf s k).bind fun b => (b.stash.zip (List.range b.stash.length)).find? fun q => q.1.at0 == at0 with
    | none => flushLines k gix r s
    | some (q, i) =>
      match writeBackLine s k i n ((groupOf s k gix).map (·.pts)) with
      | (s1, none, t) => flushLines k gix r (modGroup s1 k gix (·.raise t))
      | (s1, some l, _) => (s1, (at0, n) :: r, some (q.cap.addr.toNat + 64 * n, l))

/-- The write-backs of an outstanding word carried on: it ends with the last, its region removed if it removes one, or waits
for the address of the next (R137, R138, R303). -/
def settleFlush (s : State) (k gix id : Nat) : State :=
  match (groupOf s k gix).bind fun g => g.out.find? fun p => p.id == id with
  | none => s
  | some p =>
    match flushLines k gix p.lines (placeStores s k gix id) with
    | (t, _, none) =>
      modGroup (modBlock t k fun b => { b with stash := b.stash.filter fun q => p.unmap != some q.at0 }) k gix (·.dropOut id)
    | (t, ls, some (va, _)) =>
      modGroup t k gix (·.modOut id fun p =>
        { p with lines := ls, todo := [{ lane := 0, spad := false, va := BitVec.ofNat 64 va, n := 64, fmt := 15, op := .ld }] })

/-- A word's write-backs put among the outstanding words, and made as far as they can be at once (R137, R199). -/
def startFlush (s : State) (k gix : Nat) (p : Pending) : State :=
  match groupOf s k gix with
  | none => s
  | some g => settleFlush (modGroup s k gix (·.addOut { p with probe := true, src := 2, need := needW })) k gix g.nextId

/-- The write-backs of `sflush` or an unmapping `smap`: counted in counter 1 until they are done (R80, R137). -/
def Op.flush (o : Op) (lines : List (Nat × Nat)) (unmap : Option Nat) : State :=
  if 63 ≤ ctrCount o.g .st then stallAt o.s0 o.k o.gix o.no (.counter .st)
  else startFlush o.s o.k o.gix
    { id := 0, ctr := .st, pkt := o.sp.pc, split := o.no, wix := o.sp.word, lines := lines, unmap := unmap }

/-- Lines with a dirty byte that a group has stored (R199, R233). -/
def groupDirty (b : Block) (gix : Nat) : List (Nat × Nat) :=
  b.stash.flatMap fun r =>
    ((List.range (r.len / 64)).filter fun n => r.dirty.any fun (q, w) => q / 64 == n && w == gix + 1).map fun n => (r.at0, n)

/-- Two ranges meet. -/
def rangesMeet (a n b m : Nat) : Bool := a < b + m && b < a + n

/-- The limits of R137 for a new region. -/
def stashLimits (b : Block) (lo len : Nat) (c : Cap) : Bool :=
  lo % 64 == 0 && len % 64 == 0 && c.addr.toNat % 64 == 0 && lo + len ≤ b.spad.size && b.stash.length < 4 &&
  b.stash.all fun r => !rangesMeet lo len r.at0 r.len

/-- The check of `smap`'s capability, in the order of R131 (R137): a region of one for scratchpad takes kind perm. -/
def smapKind (b : Block) (c : Cap) (len : Nat) : Kind :=
  match capCheck c pLD c.addr len 64 b.spad.size with
  | .tag => .tag
  | .sealed => .sealed
  | k => if len != 0 && isSpad c then .perm else k

/-- The region that begins at a scratchpad address written back and removed (R137). -/
def Op.unmap (o : Op) (lo : Nat) : State :=
  match o.b.stash.find? fun r => r.at0 == lo with
  | none => o.s
  | some r => o.flush (stashLines o.b lo r.len) (some lo)

/-- `smap` (R137). -/
def execSmap (a b : BitVec 5) (k : BitVec 4) (s : State) : Host.Outcome State Fault Refusal :=
  issueWord (.smap a b k) s fun o =>
    let lo := (o.r.sc a).toNat
    let len := (o.r.sc b).toNat
    let c := o.r.kreg k
    if !(if len == 0 then lo % 64 == 0 && lo ≤ o.b.spad.size && c.addr.toNat % 64 == 0 else stashLimits o.b lo len c) then o.raise 0x0B
    else match smapKind o.b c len with
      | .none => if len == 0 then o.unmap lo else modBlock (placeStores o.s o.k o.gix o.g.nextId) o.k fun b =>
          { b with stash := b.stash ++ [{ at0 := lo, len := len, cap := c, fill := [], dirty := [] }] }
      | kd => addCapTrap o.s o.k o.gix o.no o.capReq (addKind {} kd o.act)

/-- `sflush` (R137). -/
def execSflush (a b : BitVec 5) (s : State) : Host.Outcome State Fault Refusal :=
  issueWord (.sflush a b) s fun o =>
    let lo := (o.r.sc a).toNat
    let len := (o.r.sc b).toNat
    if lo % 64 != 0 || len % 64 != 0 || o.b.spad.size < lo + len then o.raise 0x0B
    else o.flush (stashLines o.b lo len) none

/-- The core writes back a line's dirty bytes of its own accord (R138, R241). -/
def execStashWriteback (blk region line : Nat) (s : State) : Host.Outcome State Fault Refusal :=
  .next (writeBackLine s blk region line none).1

/-! ### Stream patterns (R139) -/

/-- Counts or a reserved bit that R139 refuses. -/
def badCounts (sa sb : DWord) : Bool :=
  bits sa 0 16 == 0 || bits sa 16 16 == 0 || bits sa 32 16 == 0 || bits sa 48 16 != 0 || bits sb 63 1 != 0

/-- `patset` (R139). -/
def execPatset (p : BitVec 2) (k : BitVec 4) (a b : BitVec 5) (s : State) : Host.Outcome State Fault Refusal :=
  issueWord (.patset p k a b) s fun o =>
    let sa := o.r.sc a
    let sb := o.r.sc b
    let c := o.r.kreg k
    if sa == 0 then o.mod fun g => { g with pat := merase g.pat p.toNat }
    else if badCounts sa sb then o.raise 0x0C
    else match capCheck c pLD c.addr 0 1 o.b.spad.size with
      | .none => o.mod fun g => { g with pat := minsert g.pat p.toNat { cap := c, sa := sa, sb := sb, pos := 0 } }
      | kd => addCapTrap o.s o.k o.gix o.no o.capReq (addKind {} kd o.act)

/-! ### Reduce-to-memory (R141) -/

/-- `redm` of an operation. -/
def redmWord (i : Instr) (s : State) (a : BitVec 6) (v : BitVec 1) (k : BitVec 4) (x : BitVec 6) (op : AOp) :
    Host.Outcome State Fault Refusal :=
  issueWord i s fun o =>
    let q := laneList o.b (o.cap v k) (fun _ => pST ||| pATOM) (o.off x) 4 15
      (fun l => .red op ((o.src .M a l).setWidth 64)) o.lanes
    o.issue .st .none true q.1 q.2

/-- `redm.add` (R141). -/
def execRedmAdd (a : BitVec 6) (v : BitVec 1) (k : BitVec 4) (x : BitVec 6) (y : BitVec 2) (s : State) : Host.Outcome State Fault Refusal :=
  redmWord (.redmAdd a v k x y) s a v k x (if y == 0 then .addF else .add)
/-- `redm.max` (R141). -/
def execRedmMax (a : BitVec 6) (v : BitVec 1) (k : BitVec 4) (x : BitVec 6) (y : BitVec 2) (s : State) : Host.Outcome State Fault Refusal :=
  redmWord (.redmMax a v k x y) s a v k x (if y == 0 then .maxF else if y == 1 then .maxS else .maxU)
/-- `redm.min` (R141). -/
def execRedmMin (a : BitVec 6) (v : BitVec 1) (k : BitVec 4) (x : BitVec 6) (y : BitVec 2) (s : State) : Host.Outcome State Fault Refusal :=
  redmWord (.redmMin a v k x y) s a v k x (if y == 0 then .minF else if y == 1 then .minS else .minU)

end Sys2Proof.Machine
end

