-- ==== Sys2Proof/Machine/Atomics.lean ====
section
/-! DEFINITION. Atomic words (R151 to R159). -/
namespace Sys2Proof.Machine
open Sys2Proof

/-- An atomic (R151 to R153): the capability alone addresses it; a scope wider than the group orders earlier `redm`
deliveries and engine commands before it (R157). `op` gives a lane's operation from the word, `n` the bytes. -/
def atomWord (i : Instr) (s : State) (n : Nat) (d : BitVec 6) (sup v : BitVec 1) (k : BitVec 4) (b : BitVec 6) (e : BitVec 3)
    (op : Op → Nat → AOp) : Host.Outcome State Fault Refusal :=
  issueWord i s fun o =>
    if e != 0 && !fenceDone o.g e 0xC o.g.nextId then stallAt o.s0 o.k o.gix o.no (.order e 0xC o.g.nextId)
    else
      let t := if e == 0 then o.s else fencePass o.s o.k o.gix e 0xC
      let q := laneList o.b (o.cap v k) (fun _ => pLD ||| pST ||| pATOM) (fun _ => 0) n 15
        (fun l => .atom (op o l) (o.data b (n == 8) l)) o.lanes
      ({ o with s := t } : Op).issue .ld (o.dest d sup (n == 8)) false q.1 q.2

/-- `amadd32` (R153). -/
def execAmadd32 (d : BitVec 6) (sv v : BitVec 1) (k : BitVec 4) (b : BitVec 6) (e : BitVec 3) (s : State) : Host.Outcome State Fault Refusal :=
  atomWord (.amadd32 d sv v k b e) s 4 d sv v k b e fun _ _ => .add

/-- `amand32` (R153). -/
def execAmand32 (d : BitVec 6) (sv v : BitVec 1) (k : BitVec 4) (b : BitVec 6) (e : BitVec 3) (s : State) : Host.Outcome State Fault Refusal :=
  atomWord (.amand32 d sv v k b e) s 4 d sv v k b e fun _ _ => .and

/-- `amor32` (R153). -/
def execAmor32 (d : BitVec 6) (sv v : BitVec 1) (k : BitVec 4) (b : BitVec 6) (e : BitVec 3) (s : State) : Host.Outcome State Fault Refusal :=
  atomWord (.amor32 d sv v k b e) s 4 d sv v k b e fun _ _ => .or

/-- `amxor32` (R153). -/
def execAmxor32 (d : BitVec 6) (sv v : BitVec 1) (k : BitVec 4) (b : BitVec 6) (e : BitVec 3) (s : State) : Host.Outcome State Fault Refusal :=
  atomWord (.amxor32 d sv v k b e) s 4 d sv v k b e fun _ _ => .xor

/-- `ammaxI32` (R153). -/
def execAmmaxI32 (d : BitVec 6) (sv v : BitVec 1) (k : BitVec 4) (b : BitVec 6) (e : BitVec 3) (s : State) : Host.Outcome State Fault Refusal :=
  atomWord (.ammaxI32 d sv v k b e) s 4 d sv v k b e fun _ _ => .maxS

/-- `ammaxU32` (R153). -/
def execAmmaxU32 (d : BitVec 6) (sv v : BitVec 1) (k : BitVec 4) (b : BitVec 6) (e : BitVec 3) (s : State) : Host.Outcome State Fault Refusal :=
  atomWord (.ammaxU32 d sv v k b e) s 4 d sv v k b e fun _ _ => .maxU

/-- `amminI32` (R153). -/
def execAmminI32 (d : BitVec 6) (sv v : BitVec 1) (k : BitVec 4) (b : BitVec 6) (e : BitVec 3) (s : State) : Host.Outcome State Fault Refusal :=
  atomWord (.amminI32 d sv v k b e) s 4 d sv v k b e fun _ _ => .minS

/-- `amminU32` (R153). -/
def execAmminU32 (d : BitVec 6) (sv v : BitVec 1) (k : BitVec 4) (b : BitVec 6) (e : BitVec 3) (s : State) : Host.Outcome State Fault Refusal :=
  atomWord (.amminU32 d sv v k b e) s 4 d sv v k b e fun _ _ => .minU

/-- `amadd64` (R153). -/
def execAmadd64 (d : BitVec 6) (sv v : BitVec 1) (k : BitVec 4) (b : BitVec 6) (e : BitVec 3) (s : State) : Host.Outcome State Fault Refusal :=
  atomWord (.amadd64 d sv v k b e) s 8 d sv v k b e fun _ _ => .add

/-- `amand64` (R153). -/
def execAmand64 (d : BitVec 6) (sv v : BitVec 1) (k : BitVec 4) (b : BitVec 6) (e : BitVec 3) (s : State) : Host.Outcome State Fault Refusal :=
  atomWord (.amand64 d sv v k b e) s 8 d sv v k b e fun _ _ => .and

/-- `amor64` (R153). -/
def execAmor64 (d : BitVec 6) (sv v : BitVec 1) (k : BitVec 4) (b : BitVec 6) (e : BitVec 3) (s : State) : Host.Outcome State Fault Refusal :=
  atomWord (.amor64 d sv v k b e) s 8 d sv v k b e fun _ _ => .or

/-- `amxor64` (R153). -/
def execAmxor64 (d : BitVec 6) (sv v : BitVec 1) (k : BitVec 4) (b : BitVec 6) (e : BitVec 3) (s : State) : Host.Outcome State Fault Refusal :=
  atomWord (.amxor64 d sv v k b e) s 8 d sv v k b e fun _ _ => .xor

/-- `ammaxI64` (R153). -/
def execAmmaxI64 (d : BitVec 6) (sv v : BitVec 1) (k : BitVec 4) (b : BitVec 6) (e : BitVec 3) (s : State) : Host.Outcome State Fault Refusal :=
  atomWord (.ammaxI64 d sv v k b e) s 8 d sv v k b e fun _ _ => .maxS

/-- `ammaxU64` (R153). -/
def execAmmaxU64 (d : BitVec 6) (sv v : BitVec 1) (k : BitVec 4) (b : BitVec 6) (e : BitVec 3) (s : State) : Host.Outcome State Fault Refusal :=
  atomWord (.ammaxU64 d sv v k b e) s 8 d sv v k b e fun _ _ => .maxU

/-- `amminI64` (R153). -/
def execAmminI64 (d : BitVec 6) (sv v : BitVec 1) (k : BitVec 4) (b : BitVec 6) (e : BitVec 3) (s : State) : Host.Outcome State Fault Refusal :=
  atomWord (.amminI64 d sv v k b e) s 8 d sv v k b e fun _ _ => .minS

/-- `amminU64` (R153). -/
def execAmminU64 (d : BitVec 6) (sv v : BitVec 1) (k : BitVec 4) (b : BitVec 6) (e : BitVec 3) (s : State) : Host.Outcome State Fault Refusal :=
  atomWord (.amminU64 d sv v k b e) s 8 d sv v k b e fun _ _ => .minU

/-- `amswap32` (R153). -/
def execAmswap32 (d : BitVec 6) (sv v : BitVec 1) (k : BitVec 4) (b : BitVec 6) (e : BitVec 3) (s : State) : Host.Outcome State Fault Refusal :=
  atomWord (.amswap32 d sv v k b e) s 4 d sv v k b e fun _ _ => .swap

/-- `amswap64` (R153). -/
def execAmswap64 (d : BitVec 6) (sv v : BitVec 1) (k : BitVec 4) (b : BitVec 6) (e : BitVec 3) (s : State) : Host.Outcome State Fault Refusal :=
  atomWord (.amswap64 d sv v k b e) s 8 d sv v k b e fun _ _ => .swap

/-- `amaddF32` (R153). -/
def execAmaddF32 (d : BitVec 6) (sv v : BitVec 1) (k : BitVec 4) (b : BitVec 6) (e : BitVec 3) (s : State) : Host.Outcome State Fault Refusal :=
  atomWord (.amaddF32 d sv v k b e) s 4 d sv v k b e fun _ _ => .addF

/-- `amcas32` (R153). -/
def execAmcas32 (d : BitVec 6) (sv v : BitVec 1) (k : BitVec 4) (b : BitVec 6) (e : BitVec 3) (s : State) : Host.Outcome State Fault Refusal :=
  atomWord (.amcas32 d sv v k b e) s 4 d sv v k b e fun o l => .cas (o.data d false l)

/-- `amcas64` (R153). -/
def execAmcas64 (d : BitVec 6) (sv v : BitVec 1) (k : BitVec 4) (b : BitVec 6) (e : BitVec 3) (s : State) : Host.Outcome State Fault Refusal :=
  atomWord (.amcas64 d sv v k b e) s 8 d sv v k b e fun o l => .cas (o.data d true l)

end Sys2Proof.Machine
end

