-- ==== Sys2Proof/Machine/CapWords.lean ====
section
/-! DEFINITION. Capability words: derivation, moves and inspection (R128 to R130). -/
namespace Sys2Proof.Machine
open Sys2Proof

/-- A lane capability register written in the word's lanes. -/
def Regs.putCs (r : Regs) (n : BitVec 4) (act : LaneMask) (f : Nat → Cap) : Regs :=
  (lanesOf act).foldl (fun r l => r.putC n l (f l)) r

/-- A derivation (R128): of k registers with V = 0, of each active lane's c registers with V = 1. -/
def capWord (i : Instr) (s : State) (d : BitVec 4) (v : BitVec 1) (ks : Op → Cap) (cs : Op → Nat → Cap) :
    Host.Outcome State Fault Refusal :=
  issueWord i s fun o => o.modR fun r => if v == 1 then r.putCs d o.act (cs o) else r.putK d (ks o)

/-- A derivation with an integer operand (R128): a scalar register, or a lane's 32 bits, sign-extended where `sx`. -/
def capIntWord (i : Instr) (s : State) (d : BitVec 4) (v : BitVec 1) (a : BitVec 4) (x : BitVec 6) (sx : Bool)
    (f : Cap → BitVec 64 → Cap) : Host.Outcome State Fault Refusal :=
  capWord i s d v (fun o => f (o.r.kreg a) (o.r.sc (x.setWidth 5)))
    fun o l => f (o.r.creg a l) (if sx then (o.src .M x l).signExtend 64 else (o.src .M x l).setWidth 64)

/-- `cbnd` (R128). -/
def execCbnd (d : BitVec 4) (v : BitVec 1) (a : BitVec 4) (x : BitVec 6) (s : State) : Host.Outcome State Fault Refusal :=
  capIntWord (.cbnd d v a x) s d v a x false fun c n => capBound false c n.toNat

/-- `cbnd.x` (R128). -/
def execCbndX (d : BitVec 4) (v : BitVec 1) (a : BitVec 4) (x : BitVec 6) (s : State) : Host.Outcome State Fault Refusal :=
  capIntWord (.cbndX d v a x) s d v a x false fun c n => capBound true c n.toNat

/-- `coff` (R128). -/
def execCoff (d : BitVec 4) (v : BitVec 1) (a : BitVec 4) (x : BitVec 6) (s : State) : Host.Outcome State Fault Refusal :=
  capIntWord (.coff d v a x) s d v a x true capOff

/-- `cinc` (R128). -/
def execCinc (d : BitVec 4) (v : BitVec 1) (a : BitVec 4) (x : BitVec 6) (s : State) : Host.Outcome State Fault Refusal :=
  capIntWord (.cinc d v a x) s d v a x true capInc

/-- `cperm` (R128). -/
def execCperm (d : BitVec 4) (v : BitVec 1) (a : BitVec 4) (x : BitVec 6) (s : State) : Host.Outcome State Fault Refusal :=
  capIntWord (.cperm d v a x) s d v a x false capPerm

/-- `cuntag` (R128). -/
def execCuntag (d : BitVec 4) (v : BitVec 1) (a : BitVec 4) (x : BitVec 6) (s : State) : Host.Outcome State Fault Refusal :=
  capIntWord (.cuntag d v a x) s d v a x false fun c _ => capUntag c

/-- `cseal` (R128). -/
def execCseal (d : BitVec 4) (v : BitVec 1) (a b : BitVec 4) (s : State) : Host.Outcome State Fault Refusal :=
  capWord (.cseal d v a b) s d v (fun o => capSeal (o.r.kreg a) (o.r.kreg b)) fun o l => capSeal (o.r.creg a l) (o.r.creg b l)

/-- `cunseal` (R128). -/
def execCunseal (d : BitVec 4) (v : BitVec 1) (a b : BitVec 4) (s : State) : Host.Outcome State Fault Refusal :=
  capWord (.cunseal d v a b) s d v (fun o => capUnseal (o.r.kreg a) (o.r.kreg b)) fun o l => capUnseal (o.r.creg a l) (o.r.creg b l)

/-- `cmov` (R129): `w` is the direction, k to k and c to c, k to c, or c of the lowest active lane to k. -/
def execCmov (d : BitVec 4) (v : BitVec 1) (a : BitVec 4) (w : BitVec 2) (s : State) : Host.Outcome State Fault Refusal :=
  issueWord (.cmov d v a w) s fun o =>
    if w == 2 then (if o.act == 0 then o.s else o.modR fun r => r.putK d (o.r.creg a (lowest o.act)))
    else if v == 1 then o.modR fun r => r.putCs d o.act fun l => if w == 1 then o.r.kreg a else o.r.creg a l
    else o.modR fun r => r.putK d (o.r.kreg a)

/-- A reading of a capability (R130): a scalar register with V = 0; a lane register, and the M latches, with V = 1. -/
def cgetWord (i : Instr) (s : State) (d : BitVec 6) (v : BitVec 1) (a : BitVec 4) (f : Nat) (wide : Bool) : Host.Outcome State Fault Refusal :=
  issueWord i s fun o =>
    if v == 0 then o.modR fun r => r.putSc (d.setWidth 5) (capGet f (o.r.kreg a))
    else if wide then o.put64 .M d 0 fun l => capGet f (o.r.creg a l)
    else o.put .M d 0 fun l => (capGet f (o.r.creg a l)).setWidth 32

/-- `cget.base` (R130). -/
def execCgetBase (d : BitVec 6) (v : BitVec 1) (a : BitVec 4) (s : State) : Host.Outcome State Fault Refusal :=
  cgetWord (.cgetBase d v a) s d v a 0 true

/-- `cget.top` (R130). -/
def execCgetTop (d : BitVec 6) (v : BitVec 1) (a : BitVec 4) (s : State) : Host.Outcome State Fault Refusal :=
  cgetWord (.cgetTop d v a) s d v a 1 true

/-- `cget.pos` (R130). -/
def execCgetPos (d : BitVec 6) (v : BitVec 1) (a : BitVec 4) (s : State) : Host.Outcome State Fault Refusal :=
  cgetWord (.cgetPos d v a) s d v a 2 true

/-- `cget.room` (R130). -/
def execCgetRoom (d : BitVec 6) (v : BitVec 1) (a : BitVec 4) (s : State) : Host.Outcome State Fault Refusal :=
  cgetWord (.cgetRoom d v a) s d v a 3 true

/-- `cget.perm` (R130). -/
def execCgetPerm (d : BitVec 6) (v : BitVec 1) (a : BitVec 4) (s : State) : Host.Outcome State Fault Refusal :=
  cgetWord (.cgetPerm d v a) s d v a 4 false

/-- `cget.type` (R130). -/
def execCgetType (d : BitVec 6) (v : BitVec 1) (a : BitVec 4) (s : State) : Host.Outcome State Fault Refusal :=
  cgetWord (.cgetType d v a) s d v a 5 false

/-- `cget.tag` (R130). -/
def execCgetTag (d : BitVec 6) (v : BitVec 1) (a : BitVec 4) (s : State) : Host.Outcome State Fault Refusal :=
  cgetWord (.cgetTag d v a) s d v a 6 false

/-- `cget.addr` (R130). -/
def execCgetAddr (d : BitVec 6) (v : BitVec 1) (a : BitVec 4) (s : State) : Host.Outcome State Fault Refusal :=
  cgetWord (.cgetAddr d v a) s d v a 7 true

/-- `cget.exp` (R130). -/
def execCgetExp (d : BitVec 6) (v : BitVec 1) (a : BitVec 4) (s : State) : Host.Outcome State Fault Refusal :=
  cgetWord (.cgetExp d v a) s d v a 8 false

end Sys2Proof.Machine
end

