-- ==== Sys2Proof/Machine/Tiles.lean ====
section
/-! DEFINITION. Tile words and the macro-sequencer: accumulator banks, row bands, drains, and the matrix
multiply-accumulate with its steps (R64, R65, R171 to R183, R240). -/
namespace Sys2Proof.Machine
open Sys2Proof

/-! ### Banks and bands (R171 to R175) -/

/-- The mask of banks `first` to `first + count - 1`. -/
def bankMask (first count : Nat) : BitVec 64 := BitVec.ofNat 64 (2 ^ first * (2 ^ count - 1))

/-- The lowest run of free numbers (R172). -/
def freeRun (acq : BitVec 64) (B count : Nat) : Option Nat :=
  (List.range (B + 1 - count)).find? fun i => acq &&& bankMask i count == 0

/-- A tile word handed to the sequencer (R177). -/
def pushTile (b : Block) (t : TileOp) : Block := { b with tiles := b.tiles ++ [t] }

/-- The count of a bank word: one more than its field (R172). -/
def bankCount (n : BitVec 6) : Nat := n.toNat + 1

/-- `tacq` (R172). -/
def execTacq (d : BitVec 5) (n : BitVec 6) (s : State) : Host.Outcome State Fault Refusal :=
  issueWord (.tacq d n) s fun o =>
    match freeRun o.b.acq o.b.v.b (bankCount n) with
    | none => o.modR fun r => r.putSc d (BitVec.allOnes 64)
    | some i =>
      modBlock (o.modR fun r => r.putSc d (BitVec.ofNat 64 i)) o.k fun b =>
        pushTile { b with acq := b.acq ||| bankMask i (bankCount n) } (.fresh i (bankCount n))

/-- `trel` (R173). -/
def execTrel (a : BitVec 5) (n : BitVec 6) (s : State) : Host.Outcome State Fault Refusal :=
  issueWord (.trel a n) s fun o =>
    let lo := (o.r.sc a).toNat
    if o.b.v.b < lo + bankCount n then o.raise 0x0D
    else modBlock o.s o.k fun b =>
      pushTile { b with acq := b.acq &&& ~~~(bankMask lo (bankCount n)) } (.trel lo (bankCount n))

/-- Every bank of a range is acquired (R174, R180). -/
def acquired (b : Block) (first count : Nat) : Bool :=
  first + count ≤ b.v.b && b.acq &&& bankMask first count == bankMask first count

/-- A tile word counted in counter 3 and handed to the sequencer: `t` gets the number of its entry. -/
def Op.tile (o : Op) (p : Pending) (t : Nat → TileOp) : State :=
  if 63 ≤ ctrCount o.g .mat then stallAt o.s0 o.k o.gix o.no (.counter .mat)
  else
    let s := modGroup o.s o.k o.gix (·.addOut { p with ctr := .mat, pkt := o.sp.pc, split := o.no, wix := o.sp.word })
    modBlock s o.k fun b => pushTile b (t o.g.nextId)

/-- `tzero` (R174). -/
def execTzero (a : BitVec 5) (n : BitVec 6) (s : State) : Host.Outcome State Fault Refusal :=
  issueWord (.tzero a n) s fun o =>
    let lo := (o.r.sc a).toNat
    if !acquired o.b lo (bankCount n) then o.raise 0x0D
    else o.tile { id := 0, ctr := .mat } fun id => .tzero o.gix id lo (bankCount n)

/-- Another group of the block holds a band that meets the rows (R175). -/
def bandMeets (b : Block) (gix lo n : Nat) : Bool :=
  (b.groups.zip (List.range b.groups.length)).any fun (g, i) =>
    i != gix && match g.band with
      | some (lo', n') => rangesMeet lo n lo' n'
      | none => false

/-- `tclaim` (R175). -/
def execTclaim (a b : BitVec 5) (s : State) : Host.Outcome State Fault Refusal :=
  issueWord (.tclaim a b) s fun o =>
    let lo := (o.r.sc a).toNat
    let n := (o.r.sc b).toNat
    if n == 0 then o.mod fun g => { g with band := none }
    else if 16 * o.b.v.b < lo + n || bandMeets o.b o.gix lo n then o.raise 0x0E
    else o.mod fun g => { g with band := some (lo, n) }

/-- A row lies in the group's band, in an acquired bank (R176). -/
def rowOpen (b : Block) (g : Group) (row : Nat) : Bool :=
  (match g.band with
   | some (lo, n) => lo ≤ row && row < lo + n
   | none => false) && row < 16 * b.v.b && b.acq.getLsbD (row / 16)

/-- `tdrain` (R176): band, acquisition and bounds are taken at its issue. -/
def execTdrain (d : BitVec 6) (sv : BitVec 1) (a : BitVec 5) (s : State) : Host.Outcome State Fault Refusal :=
  issueWord (.tdrain d sv a) s fun o =>
    let x := o.r.sc a
    let row := bits x 0 11
    let col := bits x 16 7
    let live := fun l => rowOpen o.b o.g row && col + l ≤ 127
    o.tile { id := 0, ctr := .mat, dest := o.dest d sv false } fun id =>
      .tdrain o.gix id ((o.lanes.filter live).map fun l => (l, col + l)) row (maskOf (o.lanes.filter fun l => !live l))

/-! ### `tmma` at issue (R178 to R180) -/

/-- The fields of a descriptor (R179). -/
structure Desc where
  K : Nat
  N : Nat
  M : Nat
  row0 : Nat
  col0 : Nat
  lda : Nat
  ldb : Nat
deriving DecidableEq, Repr

/-- A descriptor from its scalar pair (R179). -/
def descOf (d0 d1 : DWord) : Desc :=
  { K := bits d0 40 12 + 1, N := bits d0 32 8 + 1, M := bits d0 21 11 + 1, row0 := bits d0 10 11, col0 := bits d0 3 7,
    lda := bits d1 0 32, ldb := bits d1 32 32 }

/-- The kind that an operand capability fails with at issue (R180). -/
def operandKind (c : Cap) : Kind :=
  if !c.tag then .tag else if c.otype != 0 then .sealed else if !hasPerm c pLD then .perm
  else if c.addr.toNat % 64 != 0 then .align else .none

/-- Reserved bits, the columns and the pitches of a descriptor (R179, R180). -/
def descBad (d0 d1 : DWord) : Bool :=
  let q := descOf d0 d1
  bits d0 52 12 != 0 || bits d0 0 3 != 0 || 128 < q.col0 + q.N || q.lda % 64 != 0 || q.ldb % 64 != 0

/-- The banks of rows `r` to `r + n - 1` are acquired (R180). -/
def rowsAcquired (b : Block) (r n : Nat) : Bool := acquired b (r / 16) ((r + n - 1) / 16 + 1 - r / 16)

/-- `tmma` (R178, R180, R182). Where both operands fail, the trap has the kind of ka (DESIGN CHOICE, log 138). -/
def execTmma (a b : BitVec 4) (d : BitVec 5) (e : BitVec 3) (q l z : BitVec 1) (s : State) : Host.Outcome State Fault Refusal :=
  issueWord (.tmma a b d e q l z) s fun o =>
    let ka := o.r.kreg a
    let kb := o.r.kreg b
    let d0 := o.r.sc d
    let d1 := o.r.sc (d + 1)
    let kind := if operandKind ka != .none then operandKind ka else operandKind kb
    if kind != .none then addCapTrap o.s o.k o.gix o.no o.capReq (addKind {} kind o.act)
    else if descBad d0 d1 then o.raise 0x0F
    else if !rowsAcquired o.b (descOf d0 d1).row0 (descOf d0 d1).M then o.raise 0x0D
    else
      let s1 := if q == 1 then placeStores o.s o.k o.gix o.g.nextId else o.s
      let pts := ((groupOf s1 o.k o.gix).map (·.pts)).getD 0
      ({ o with s := s1 } : Op).tile { id := 0, ctr := .mat, rel := l == 1, mma := true } fun id =>
        .tmma o.gix id o.sp.pc ka kb d0 d1 (z == 1) (q == 1) (l == 1) pts 0 none none 0

/-! ### Operand elements (R57 to R59, R64, R65) -/

/-- Bits of an element of a sector format. -/
def fmtBits (f : BitVec 4) : Nat := if f == 2 || f == 3 then 16 else if f == 5 || f == 8 then 4 else 8
/-- A format that the table of R61 accepts as a tile operand. -/
def isOperandFmt (f : BitVec 4) : Bool := (2 ≤ f.toNat && f.toNat ≤ 8) || f == 11
/-- The code of its scale array, and the scale bytes of a block: none for formats without scales. -/
def scaleFmt (f : BitVec 4) : Option (BitVec 4 × Nat) :=
  if f == 4 || f == 5 then some (9, 2) else if f == 6 || f == 7 || f == 8 then some (10, 1) else none

/-- The exact value of an element: its code, and its block's scales as a number (R57, R58, R61). -/
def tileVal (f : BitVec 4) (code sc : Nat) : FVal :=
  if f == 2 then fdec bf16 code
  else if f == 3 then fdec f16 code
  else if f == 11 then (let v := (BitVec.ofNat 8 code).toInt; .fin (decide (v < 0)) v.natAbs 0)
  else scaledElem f.toNat code (sc % 256) (sc / 256 % 256)

/-- Element k of a row's bytes. -/
def tileCode (f : BitVec 4) (row k : Nat) : Nat := row / 2 ^ (fmtBits f * k) % 2 ^ fmtBits f

/-- The exact dot product of a K block (R65). A sum that is exactly zero is +0 (DESIGN CHOICE, log 135). -/
def blockDot (fa fb : BitVec 4) (n : Nat) (ra sa rb sb : Nat) : FVal :=
  (List.range n).foldl (fun t k =>
    (addVal .rn t (mulVal (tileVal fa (tileCode fa ra k) sa) (tileVal fb (tileCode fb rb k) sb)).1).1) (.fin false 0 0)

/-- The accumulator element after one block (R65). -/
def accAdd (acc : Nat) (t : FVal) : Nat := (fin1 f32 .rn false (addVal .rn (fdec f32 acc) t)).bits

/-! ### Steps (R181) -/

/-- A read of the sequencer inside one line. -/
def seqAcc (c : Cap) (off n : Nat) : LaneAcc :=
  { lane := 0, spad := isSpad c, va := c.addr + BitVec.ofNat 64 off, n := n, fmt := 15, op := .ld }

/-- The element reads and the scale reads of rows `lo` to `hi - 1` of an operand for one K block (R180): `rows` is the
operand's row count, `ld` its pitch. -/
def operandReads (c : Cap) (f : BitVec 4) (rows ld K kb lo hi : Nat) : List LaneAcc × List LaneAcc :=
  let n := min 32 (K - kb)
  let es := (span lo hi).map fun i => seqAcc c (i * ld + kb * fmtBits f / 8) ((n * fmtBits f + 7) / 8)
  match scaleFmt f with
  | none => (es, [])
  | some (_, w) => (es, (span lo hi).map fun i => seqAcc c (rows * ld + i * (ceilDiv K 32 * w) + kb / 32 * w) w)
where
  /-- The numbers from `lo` up to but not including `hi`. -/
  span (lo hi : Nat) : List Nat := (List.range (hi - lo)).map (· + lo)

/-- A read lies inside its capability (R180). -/
def readInside (b : Block) (c : Cap) (a : LaneAcc) : Bool :=
  let top := capBase c + capLen c
  let top := if isSpad c then min top b.spad.size else top
  capBase c ≤ a.va.toNat && a.va.toNat + a.n ≤ top

/-- Reads translated, walking as needed; the first that cannot be had stops it. -/
def seqResolve (b : Block) (w : Who) (s : State) : List LaneAcc → State × Except (LaneAcc × Look) (List LaneAcc)
  | [] => (s, .ok [])
  | a :: r =>
    let va := if a.spad then (match stashAt b a.va.toNat with
        | some (_, q) => if (mfind q.fill (q.lineNo a.va.toNat)).isSome then none else some (q.lineVa a.va.toNat, 64)
        | none => none)
      else some (a.va.toNat, a.n)
    match va with
    | none =>
      match seqResolve b w s r with
      | (s1, .ok ls) => (s1, .ok (a :: ls))
      | (s1, .error e) => (s1, .error e)
    | some (va, n) =>
      match resolveVa s w va n needR true with
      | (s1, .ok p) =>
        match seqResolve b w s1 r with
        | (s2, .ok ls) => (s2, .ok ({ a with pa := some (p.pa, p.cache), fab := p.fab } :: ls))
        | (s2, .error e) => (s2, .error e)
      | (s1, l) => (s1, .error (a, l))

/-- A read's bytes as a number, and its sector's code. -/
def seqRead (y : Sys) (w : Who) (t : Nat) (a : LaneAcc) : Nat × BitVec 4 :=
  if a.spad then (spNat y.b.spad a.va.toNat a.n, spFmt y.b.spad a.va.toNat)
  else match a.spot with
    | none => (0, 0)
    | some p => let (d, side) := versionAt y.m w.core w.ctx w.tag p t
      (lineNat d (p.pa % 64) a.n, sideFmt side)

/-- What the reads of a step find. -/
inductive SeqOut where
  | ok (s : State) (t : Nat) (vals : List (Nat × BitVec 4))
  | stop (s : State) (a : LaneAcc) (l : Look)

/-- Reads made under the sequencer's own time (R182, R240). -/
def seqLoads (s : State) (k : Nat) (t : Nat) (ls : List LaneAcc) : SeqOut :=
  match blockOf s k with
  | none => .ok s t []
  | some b =>
    let w := whoOf s b
    match seqResolve b w s ls with
    | (s1, .error (a, l)) => .stop s1 a l
    | (s1, .ok ls) =>
      let (y, t1) := settle w ls (ls.length + 2) { m := s1.mem, b := b } t
      .ok (putBlock (sendLanes { s1 with mem := y.m } w s1.mem t1 ls) k y.b) t1 (ls.map (seqRead y w t1))

/-- The head of a block's tile queue removed. -/
def popTile (s : State) (k : Nat) : State := modBlock s k fun b => { b with tiles := b.tiles.drop 1 }

/-- The logical time of a core's macro-sequencer (R240). -/
def seqTime (s : State) (core : Nat) : Nat := (mget s.hol.cores core {}).seqPts
/-- It rises. -/
def setSeqTime (s : State) (core t : Nat) : State :=
  { s with hol := { s.hol with cores := mmod s.hol.cores core {} fun c => { c with seqPts := max c.seqPts t } } }

/-- The entry of a tile word ends: counter 3 falls, and what waited for its reads may go on. A `tmma` leaves its time to fences of
kind eng, and with `.rel` to the group's later stores, which take times above its reads (R240). -/
def endMat (s : State) (k gix id : Nat) : State :=
  let t := ((blockOf s k).map fun b => seqTime s b.core).getD 0
  let p := (groupOf s k gix).bind fun g => g.out.find? fun p => p.id == id
  let mma := (p.map (·.mma)).getD false
  let rel := (p.map (·.rel)).getD false
  settleOut (modGroup s k gix fun g =>
    { g.dropOut id with engAck := if mma then max g.engAck t else g.engAck, relTop := if rel then max g.relTop (t + 1) else g.relTop }) k gix

/-- The sequencer performs tile words of a block that stands on its core while its context runs: a stop request stops it at the
next step boundary (R183, R274). The engine cards of a context that has never been resumed run (R268). -/
def mayStep (s : State) (b : Block) : Bool :=
  let x := ctxOf s b.ctx
  b.onCore && (x.st == 1 || (x.st == 4 && x.fresh))

/-- The tile-operand trap of a word that ended at a step (R183): a group in trap mode double-faults, and with the issuing
group ended the block is cancelled. With the issuing split alone ended, the group's first live split stands for it (DESIGN CHOICE,
log 139). -/
def tileFault (s : State) (k gix id : Nat) (pkt : BitVec 32) (detail step info : Nat) : State :=
  match blockOf s k with
  | none => s
  | some b => match b.task with
    | some t => putBlock s k { b with tiles := [], task := some { t with code := detail, info := info, steps := step } }
    | none => match b.groups[gix]? with
    | none => s
    | some g =>
      let e := g.out.find? fun p => p.id == id
      let s := endMat (popTile s k) k gix id
      if g.splits.isEmpty && g.tmode.isNone then cancelBlock s k
      else
        let no := (e.map (·.split)).getD 0
        let no := if (g.split no).isSome then no else ((g.splits.head?).map (·.no)).getD 0
        takeAtBoundary s k gix { cause := 0x10, detail := BitVec.ofNat 16 detail, widx := (e.map (·.wix)).getD 0, resume := .next,
                                 split := no, pkt := pkt, rowprog := some (BitVec.ofNat 32 step) }

/-- The head of the queue changed. -/
def setTile (s : State) (k : Nat) (t : TileOp) : State := modBlock s k fun b => { b with tiles := t :: b.tiles.drop 1 }

/-- One step of the `tmma` at the head of a block's queue (R181 to R183). -/
def execTmmaStep (blk : Nat) (s : State) : Host.Outcome State Fault Refusal :=
  match blockOf s blk with
  | none => .next s
  | some b => match b.tiles with
    | .tmma gix id pkt ka kb d0 d1 z acq rel pts step fa fb token :: _ =>
      let g := (b.groups[gix]?).getD {}
      if token != 0 || !mayStep s b then .next s
      -- R182: an acquire waits for the stores that come before it
      else if acq && step == 0 && (g.out.any fun p => p.id < id && p.stores && (!p.todo.isEmpty || !p.flt.isEmpty)) then .next s
      else
        let s := if acq && step == 0 then placeStores s blk gix id else s
        let after := ((groupOf s blk gix).map (·.pts)).getD 0
        let seq := seqTime s b.core
        let t0 := if acq && step == 0 then max seq (if g.pts < after then max pts after else pts) else seq
        let q := descOf d0 d1
        let nkb := ceilDiv q.K 32
        let lo := 16 * (step / nkb)
        let hi := min (lo + 16) q.M
        let k0 := 32 * (step % nkb)
        let put : BitVec 4 → BitVec 4 → Nat → BitVec 32 → TileOp := fun fa fb n tok =>
          .tmma gix id pkt ka kb d0 d1 z acq rel pts n (some fa) (some fb) tok
        let hold : State → LaneAcc → Look → State := fun s a l =>
          match faultOf 0 a.va needR l with
          | none => ask s l
          | some f =>
            if f.integ != 0 && b.task.isSome then
              tileFault s blk gix id pkt 5 step (a.va.toNat - (if a.va.toNat < kb.addr.toNat then ka else kb).addr.toNat)
            -- R309: a word that its group executed in trap mode does not park
            else if f.integ == 0 && g.ranInTrap id then endContext s b.ctx (some f) true 0 pkt
            else
            let (s1, tok) := newToken s
            setTile (byCore s1 b.core (faultRecord s1 b.ctx b.world 4 f g.tmode.isSome tok (BitVec.ofNat 64 (step + b.core * 2 ^ 32)))) blk
              (.tmma gix id pkt ka kb d0 d1 z acq rel pts step fa fb tok)
        let first := [(fa, seqAcc ka 0 1), (fb, seqAcc kb 0 1)]
        if (first.zip [ka, kb]).any fun x => x.1.1.isNone && !readInside b x.2 x.1.2 then
          .next (tileFault s blk gix id pkt 4 step (if fa.isNone && !readInside b ka (seqAcc ka 0 1) then 2 else 3))
        else match seqLoads s blk t0 ((first.filter (·.1.isNone)).map (·.2)) with
          | .stop s1 a l => .next (hold s1 a l)
          | .ok s1 t1 codes =>
            let fa' := fa.getD ((codes.head?.map (·.2)).getD 0)
            let fb' := fb.getD ((codes.getLast?.map (·.2)).getD 0)
            if !isOperandFmt fa' || !isOperandFmt fb' then .next (tileFault s1 blk gix id pkt 6 step 0)
            else
              let ra := operandReads ka fa' q.M q.lda q.K k0 lo hi
              let rb := operandReads kb fb' q.N q.ldb q.K k0 0 q.N
              let all := ra.1 ++ ra.2 ++ rb.1 ++ rb.2
              if (ra.1 ++ ra.2).any (fun a => !readInside b ka a) || (rb.1 ++ rb.2).any (fun a => !readInside b kb a) then
                .next (tileFault s1 blk gix id pkt 4 step (if (ra.1 ++ ra.2).any fun a => !readInside b ka a then 2 else 3))
              else match seqLoads s1 blk t1 all with
                | .stop s2 a l => .next (hold s2 a l)
                | .ok s2 t2 vals =>
                  let want := ra.1.map (fun _ => fa') ++ ra.2.map (fun _ => ((scaleFmt fa').map (·.1)).getD 0) ++
                    rb.1.map (fun _ => fb') ++ rb.2.map (fun _ => ((scaleFmt fb').map (·.1)).getD 0)
                  let own := ra.1.map (fun _ => ka) ++ ra.2.map (fun _ => ka) ++ rb.1.map (fun _ => kb) ++ rb.2.map (fun _ => kb)
                  let wrong := ((vals.zip want).zip (all.zip own)).find? fun x => x.1.1.2 != x.1.2
                  if wrong.isSome then
                    .next (tileFault s2 blk gix id pkt 6 step ((wrong.map fun x => x.2.1.va.toNat - x.2.2.addr.toNat).getD 0))
                  else
                    let v := fun i => (vals.getD i (0, 0)).1
                    let na := ra.1.length
                    let oa := na + ra.2.length
                    let nb := rb.1.length
                    let n := min 32 (q.K - k0)
                    let acc := (List.range (hi - lo)).foldl (fun acc i => (List.range q.N).foldl (fun acc j =>
                      let key := 128 * (q.row0 + lo + i) + (q.col0 + j)
                      let a0 := if z && k0 == 0 then 0 else (mget acc key 0).toNat
                      let dot := blockDot fa' fb' n (v i) (if ra.2.isEmpty then 0 else v (na + i)) (v (oa + j))
                        (if rb.2.isEmpty then 0 else v (oa + nb + j))
                      mput acc key (BitVec.ofNat 32 (accAdd a0 dot)) 0) acc) b.acc
                    let s3 := setSeqTime (modBlock s2 blk fun b => { b with acc := acc }) b.core t2
                    if step + 1 < ceilDiv q.M 16 * nkb then .next (setTile s3 blk (put fa' fb' (step + 1) 0))
                    else
                      let ended := modBlock s3 blk fun b => { b with task := b.task.map fun t => { t with steps := step + 1 } }
                      .next (endMat (popTile ended blk) blk gix id)
    | _ => .next s

/-- Accumulator elements of a range of banks cleared to +0 (R172, R174). -/
def clearBanks (acc : SMap Word) (first count : Nat) : SMap Word :=
  acc.filter fun (key, _) => !(2048 * first ≤ key && key < 2048 * (first + count))

/-- A `tzero`, or the fresh banks of a `tacq`, in its turn (R172, R174). -/
def execTzeroPerform (blk : Nat) (s : State) : Host.Outcome State Fault Refusal :=
  match blockOf s blk with
  | none => .next s
  | some b => if !mayStep s b then .next s else match b.tiles with
    | .tzero gix id first count :: _ =>
      .next (endMat (popTile (putBlock s blk { b with acc := clearBanks b.acc first count }) blk) blk gix id)
    | .fresh first count :: _ => .next (popTile (putBlock s blk { b with acc := clearBanks b.acc first count }) blk)
    | _ => .next s

/-- A `tdrain` in its turn (R176). -/
def execTdrainPerform (blk : Nat) (s : State) : Host.Outcome State Fault Refusal :=
  match blockOf s blk with
  | none => .next s
  | some b => if !mayStep s b then .next s else match b.tiles with
    | .tdrain gix id lanes row zeros :: _ =>
      let s1 := popTile s blk
      let vals : SMap Val := (lanes.map fun (l, c) => (l, Val.data ((mget b.acc (128 * row + c) 0).setWidth 64))) ++
        (lanesOf zeros).map fun l => (l, Val.data 0)
      match (b.groups[gix]?).bind fun g => g.out.find? fun p => p.id == id with
      | none => .next s1
      | some p =>
        let s2 := deliver s1 blk gix { p with vals := vals }
        .next (endMat (modGroup s2 blk gix fun g => { g with az := g.az || zeros != 0 }) blk gix id)
    | _ => .next s

/-- The release of a `trel` in its turn (R173): the acquisition was already taken back at its issue. -/
def execTrelPerform (blk : Nat) (s : State) : Host.Outcome State Fault Refusal :=
  match blockOf s blk with
  | none => .next s
  | some b => match b.tiles with
    | .trel _ _ :: _ => .next (popTile s blk)
    | _ => .next s

end Sys2Proof.Machine
end

