-- ==== Sys2Proof/Machine/Engines.lean ====
section
/-! DEFINITION. Engine commands: issue, parameter blocks, submission checks, page locks, completion, and the copy,
reduction and collective engines (R184 to R189, R306 to R308, R324, R333, R334, R374). -/
namespace Sys2Proof.Machine
open Sys2Proof

/-! ### Commands -/

/-- The engine kind that counts tickets and time: open and commit are one engine (R184). -/
def engNo : EngKind → Nat
  | .copy => 0
  | .red => 1
  | .coll => 2
  | .sealOpen => 3
  | .sealCommit => 3
  | .tile => 4

/-- The size of a parameter block (R185). -/
def engSize : EngKind → Nat
  | .red => 192
  | .copy => 64
  | .coll => 64
  | .sealOpen => 64
  | .sealCommit => 64
  | .tile => 80

/-- The command of a number. -/
def cmdOf (s : State) (id : Nat) : Option EngCmd := s.eng.cmds.find? fun x => x.id == id
/-- A command changed. -/
def modCmd (s : State) (id : Nat) (f : EngCmd → EngCmd) : State :=
  { s with eng := { s.eng with cmds := s.eng.cmds.map fun x => if x.id == id then f x else x } }
/-- A command removed. -/
def dropCmd (s : State) (id : Nat) : State := { s with eng := { s.eng with cmds := s.eng.cmds.filter fun x => x.id != id } }
/-- A command added. -/
def addCmd (s : State) (x : EngCmd) : State :=
  { s with eng := { s.eng with cmds := s.eng.cmds ++ [{ x with id := s.eng.nextId }], nextId := s.eng.nextId + 1 } }

/-- The issuing block of a command, while it stands. -/
def cmdBlock (s : State) (x : EngCmd) : Option Block :=
  match x.who with
  | some (k, _) => blockOf s k
  | none => none

/-- A command as a party of memory. -/
def cmdWho (s : State) (x : EngCmd) : Who :=
  { core := ((cmdBlock s x).map (·.core)).getD 0, ctx := x.ctx, world := x.world, tag := sealTag s x.world, ways := openWays s x.world }

/-- A slot of the parameter block, by its offset over 16 (R185). -/
def EngCmd.slot (x : EngCmd) (i : Nat) : Cap := x.slots.getD (i - 1) {}

/-- Ticket of the context's next command of a kind (R184, R334). -/
def takeTicket (s : State) (c : Nat) (k : EngKind) : State × BitVec 32 :=
  let t := mget (ctxOf s c).tickets (engNo k) 0
  (modCtx s c fun x => { x with tickets := minsert x.tickets (engNo k) (t + 1) }, t)

/-- Words that come before one of a group and have not all got their places: the read of a parameter block waits for them
(R231, R334). -/
def beforeOpen (g : Group) (id : Nat) : Bool :=
  g.out.any fun p => p.id < id && ((p.stores && !p.flt.isEmpty) || !(g.settled.any fun q => q.id == p.id))

/-- The word of a command, if a group in trap mode executed it. -/
def EngCmd.trapWord (s : State) (x : EngCmd) : Option Pending :=
  match x.who with
  | some (k, gix) => ((groupOf s k gix).bind fun g => g.out.find? fun p => p.id == x.pid).filter (·.inTrap)
  | none => none

/-- A parked command: its record names the ticket (R304, R306). One whose line waits asks for it; a translation fault of one that
a group in trap mode issued ends the context (R309). -/
def parkCmd (s : State) (x : EngCmd) (va : BitVec 64) (need : BitVec 3) (l : Look) : State :=
  match faultOf 0 va need l, x.trapWord s with
  | none, _ => ask s l
  | some f, some p => if f.integ == 0 then endContext s x.ctx (some f) true 0 p.pkt else park f
  | some f, none => park f
where
  park (f : FaultInfo) : State :=
    let (s1, tok) := newToken s
    let core := (((s.blocks.find? fun (_, b) => (b.task.map (·.cmd)) == some x.id).map fun (_, b) => b.core)).getD 0
    let (src, detail) := if x.kind == .tile then (4, BitVec.ofNat 64 (core * 2 ^ 32)) else (5, x.ticket.setWidth 64)
    modCmd (faultRecord s1 x.ctx x.world src f false tok detail) x.id fun y => { y with token := tok }

/-- The granules of a parameter block as accesses. -/
def blockLanes (x : EngCmd) : List LaneAcc :=
  (List.range (engSize x.kind / 16)).map fun i =>
    { lane := i, spad := isSpad x.pblock, va := x.pblock.addr + BitVec.ofNat 64 (16 * i), n := 16, fmt := 15, op := .ldc true }

/-- The page of an address with the rights an engine needs. -/
def engPage (s : State) (w : Who) (va : Nat) (need : BitVec 3) : State × Except Look Tlb :=
  let check : State → Tlb → State × Except Look Tlb := fun s t =>
    if t.s1 &&& need != need then (s, .error (.fault 2 t.lv1 0 false))
    else if t.s2 &&& need != need then (s, .error (.fault 4 t.lv2 (t.ipa + (va - t.va)) true))
    else (s, .ok t)
  if (doorOf s w.ctx va).isSome then (s, .error (.fault 4 0 0 true)) else
  match tlbFind s.mem w.ctx va with
  | some t => check s t
  | none =>
    match walkFill s w.ctx va need with
    | (s1, .fault k l i h) => (s1, .error (.fault k l i h))
    | (s1, .hold pa k) => (ask s1 (.hold pa k), .error (.hold pa k))
    | (s1, .ok _ _ _ _ _ _ _ _ _) =>
      match tlbFind s1.mem w.ctx va with
      | some t => check s1 t
      | none => (s1, .error .miss)

/-- The pages of the lines of a parameter block that the engine is to write, or the look that keeps it from that. -/
def blockPages (w : Who) : List (Nat × Nat) → State → State × Except Look (List (Nat × Nat × Nat))
  | [], s => (s, .ok [])
  | (va, _) :: r, s =>
    match engPage s w va needW with
    | (s1, .error l) => (s1, .error l)
    | (s1, .ok t) =>
      let pa := canonPa s1.fab.node (t.pa + (va - t.va))
      match waits s1 pa 2 with
      | some k => (ask s1 (.hold pa k), .error (.hold pa k))
      | none => match blockPages w r s1 with
        | (s2, .ok ps) => (s2, .ok ((t.va, t.size, t.pa) :: ps.filter (· != (t.va, t.size, t.pa))))
        | (s2, .error l) => (s2, .error l)

/-- The lines of a command's parameter block. -/
def EngCmd.blockLines (x : EngCmd) : List (Nat × Nat) := linePieces x.pblock.addr.toNat (engSize x.kind)

/-- The look that keeps an engine from writing its parameter block (R185, R306, R330): none where it may be written. -/
def blockStop (s : State) (x : EngCmd) : State × Option Look :=
  if isSpad x.pblock then (s, none)
  else match blockPages (cmdWho s x) x.blockLines s with
    | (s1, .ok _) => (s1, none)
    | (s1, .error l) => (s1, some l)

/-- The parameter block read as an ordered load of the issuing group (R334), after the words before it; its later accesses have
waited for this. A load of the engine for a card. -/
def captureCmd (s : State) (x : EngCmd) : State :=
  let (k, gix) := x.who.getD (0, 0)
  let b := (cmdBlock s x).getD {}
  let g := (b.groups[gix]?).getD {}
  if x.who.isSome && beforeOpen g x.pid then s else
  let s := if x.who.isSome then placeStores s k gix x.pid else s
  let b := (cmdBlock s x).getD {}
  let g := (b.groups[gix]?).getD {}
  let w := cmdWho s x
  match seqResolve b w s (blockLanes x) with
  | (s1, .error (a, l)) => parkCmd s1 x a.va needR l
  | (s1, .ok ls) =>
    match blockStop s1 x with
    | (s1, some l) => parkCmd s1 x x.pblock.addr needW l
    | (s1, none) =>
    let d := perform { m := s1.mem, b := b } w (if x.who.isSome then g.pts else x.ipts) ls
    let caps := (List.range (engSize x.kind / 16)).map fun i => ((mfind d.vals i).map (·.asCap)).getD {}
    match checkMap s1 x.ctx (caps.drop 1) with
    | (s1, false) => s1
    | (s1, true) =>
    let s2 : State := { s1 with mem := d.y.m }
    let s2 := if x.who.isSome then putBlock (sendLanes s2 w s1.mem d.t ls) k (d.y.b.modGroup gix fun g =>
        (g.raise d.t).modOut x.pid fun p => { p with unread := false }) else s2
    let prog := match x.kind with
      | .copy => (caps.getD 3 {}).addr
      | .red => (caps.getD 10 {}).addr
      | .coll => 0
      | .sealOpen => 0
      | .sealCommit => 0
      | .tile => 0
    let s3 := modCmd s2 x.id fun y =>
      { y with got := true, ctl := (capBits (caps.getD 0 {})).extractLsb' 64 64, slots := (caps.drop 1).map (rvFilter s2 x.ctx),
               prog := prog.toNat, pos := prog.toNat }
    if x.who.isSome then settleOut s3 k gix else s3

/-- An engine word (R184): the check of its block, the ticket, the counter, and the block read. -/
def engWord (i : Instr) (s : State) (kind : EngKind) (k : BitVec 4) (d : BitVec 5) (e : BitVec 3) (q l : BitVec 1) :
    Host.Outcome State Fault Refusal :=
  issueWord i s fun o =>
    let c := o.r.kreg k
    match capCheck c (pLD ||| pLDC ||| pST) c.addr (engSize kind) 64 o.b.spad.size with
    | .none =>
      if 63 ≤ ctrCount o.g .eng then stallAt o.s0 o.k o.gix o.no (.counter .eng)
      else
        let (s1, t) := takeTicket o.s o.b.ctx kind
        let s2 := placeStores (modGroup s1 o.k o.gix fun g => { g with r := g.r.putSc d (t.setWidth 64) }) o.k o.gix o.g.nextId
        let pts := ((groupOf s2 o.k o.gix).map (·.pts)).getD 0
        let s3 := modGroup s2 o.k o.gix (·.addOut { id := 0, ctr := .eng, pkt := o.sp.pc, split := o.no, wix := o.sp.word, unread := true })
        let x : EngCmd := { id := s3.eng.nextId, kind := kind, ctx := o.b.ctx, world := o.b.world, who := some (o.k, o.gix),
                            pid := o.g.nextId, card := none, ticket := t, pblock := c, scope := e, acq := q == 1, rel := l == 1,
                            ipts := pts, ict := o.ct }
        captureCmd (addCmd s3 x) x
    | kd => addCapTrap o.s o.k o.gix o.no o.capReq (addKind {} kd o.act)

/-- `ecopy` (R187). -/
def execEcopy (k : BitVec 4) (d : BitVec 5) (e : BitVec 3) (q l : BitVec 1) (s : State) : Host.Outcome State Fault Refusal :=
  engWord (.ecopy k d e q l) s .copy k d e q l
/-- `ered` (R188). -/
def execEred (k : BitVec 4) (d : BitVec 5) (e : BitVec 3) (q l : BitVec 1) (s : State) : Host.Outcome State Fault Refusal :=
  engWord (.ered k d e q l) s .red k d e q l
/-- `ecoll` (R189). -/
def execEcoll (k : BitVec 4) (d : BitVec 5) (e : BitVec 3) (q l : BitVec 1) (s : State) : Host.Outcome State Fault Refusal :=
  engWord (.ecoll k d e q l) s .coll k d e q l
/-- `eseal.open` (R190). -/
def execEsealOpen (k : BitVec 4) (d : BitVec 5) (e : BitVec 3) (q l : BitVec 1) (s : State) : Host.Outcome State Fault Refusal :=
  engWord (.esealOpen k d e q l) s .sealOpen k d e q l
/-- `eseal.commit` (R190). -/
def execEsealCommit (k : BitVec 4) (d : BitVec 5) (e : BitVec 3) (q l : BitVec 1) (s : State) : Host.Outcome State Fault Refusal :=
  engWord (.esealCommit k d e q l) s .sealCommit k d e q l

/-! ### Page locks (R306 to R308) -/

/-- The pages of a range, added to those had; more pages than the table holds wait for ever (R307). -/
def lockRange (w : Who) (need : BitVec 3) : Nat → State → List (Nat × Nat × Nat) → Nat → Nat →
    State × Except (Nat × Look) (List (Nat × Nat × Nat))
  | 0, s, _, va, _ => (s, .error (va, .miss))
  | n + 1, s, ls, va, top =>
    if top ≤ va then (s, .ok ls)
    else match engPage s w va need with
      | (s1, .error l) => (s1, .error (va, l))
      | (s1, .ok t) =>
        lockRange w need n s1 (if ls.contains (t.va, t.size, t.pa) then ls else ls ++ [(t.va, t.size, t.pa)]) (t.va + t.size) top

/-- The virtual ranges whose pages a slot's range needs: its own, or for a scratchpad range the lines of the stash regions that
it meets, which the engine may have to fill (R138). -/
def rangeVas (b : Block) (c : Cap) (n : Nat) (need : BitVec 3) : List (Nat × Nat × BitVec 3) :=
  if isSpad c then (linePieces c.addr.toNat n).filterMap fun p => (stashAt b p.1).map fun (_, r) => (r.lineVa p.1, 64, needR)
  else [(c.addr.toNat, n, need)]

/-- The pages of several virtual ranges with the rights each needs. -/
def lockRanges (w : Who) : List (Nat × Nat × BitVec 3) → State → List (Nat × Nat × Nat) →
    State × Except (BitVec 64 × BitVec 3 × Look) (List (Nat × Nat × Nat))
  | [], s, ls => (s, .ok ls)
  | (va, n, need) :: r, s, ls =>
    match lockRange w need (Config.lockEntries + 1) s ls va (va + n) with
    | (s1, .error (va, l)) => (s1, .error (BitVec.ofNat 64 va, need, l))
    | (s1, .ok ls) => lockRanges w r s1 ls

/-- One page locked once more; none when the table has no room (R307). -/
def lockOne (m : MemSys) (c : Nat) (p : Nat × Nat × Nat) : Option MemSys :=
  match m.locks.find? fun l => l.ctx == c && l.va == p.1 && l.size == p.2.1 && l.pa == p.2.2 with
  | some l => if 65535 ≤ l.pins then none
    else some { m with locks := m.locks.map fun y => if y = l then { y with pins := y.pins + 1 } else y }
  | none => if Config.lockEntries ≤ m.locks.length then none
    else some { m with locks := m.locks ++ [{ ctx := c, va := p.1, size := p.2.1, pa := p.2.2, pins := 1 }] }

/-- Pages locked, all or none (R307). -/
def lockAll (m : MemSys) (c : Nat) : List (Nat × Nat × Nat) → Option MemSys
  | [] => some m
  | p :: r => match lockOne m c p with
    | some m1 => lockAll m1 c r
    | none => none

/-- One pin given back. -/
def unlockOne (m : MemSys) (c : Nat) (p : Nat × Nat × Nat) : MemSys :=
  { m with locks := (m.locks.map fun l =>
      if l.ctx == c && l.va == p.1 && l.size == p.2.1 && l.pa == p.2.2 then { l with pins := l.pins - 1 } else l).filter fun l => l.pins != 0 }

/-- The locks of a command released (R306). -/
def unlockAll (m : MemSys) (c : Nat) (ps : List (Nat × Nat × Nat)) : MemSys := ps.foldl (fun m p => unlockOne m c p) m

/-! ### Data accesses under locked pages (R240, R306) -/

/-- The locked place of a virtual address. -/
def lockedSpot (s : State) (x : EngCmd) (va : Nat) : Option Spot :=
  (x.locked.find? fun p => p.1 ≤ va && va < p.1 + p.2.1).map fun p =>
    let raw := p.2.2 + (va - p.1)
    { pa := canonPa s.fab.node raw, va := va, cache := false, fab := match homeOf raw with
        | .fabric _ => true
        | .hbm => false
        | .hole => false
        | .host => false }

/-- Its physical address. -/
def lockedPa (s : State) (x : EngCmd) (va : Nat) : Option Nat := (lockedSpot s x va).map (·.pa)

/-- The key of an engine's own time: the copy engine of a wing, the reduction engine of a base die (R184, R240). -/
def engKey (s : State) (x : EngCmd) : Nat :=
  engNo x.kind * 64 + match x.kind with
    | .copy => wingOf (cmdWho s x).core
    | .red => ((lockedPa s x (x.slot 1).addr.toNat).map hbmStack).getD 0
    | .coll => 0
    | .sealOpen => 0
    | .sealCommit => 0
    | .tile => wingOf (cmdWho s x).core

/-- The engine's time. -/
def engTime (s : State) (x : EngCmd) : Nat := mget s.eng.pts (engKey s x) 0
/-- The engine's time raised. -/
def setEngTime (s : State) (x : EngCmd) (t : Nat) : State :=
  { s with eng := { s.eng with pts := mput s.eng.pts (engKey s x) (max t (engTime s x)) 0 } }

/-- The side-band byte of a scratchpad sector. -/
def spSide (p : Spad) (o : Nat) : BitVec 8 :=
  (List.range 4).foldl (fun v q => sideWithTag v (16 * q) (spTag p (o / 64 * 64 + 16 * q))) ((spFmt p o).setWidth 8)

/-- The line of memory that an engine's access to a place meets: its own, or for scratchpad that of a stash line not filled yet
(R138). -/
def engLine (s : State) (x : EngCmd) (c : Cap) (a : Nat) : Option Nat :=
  if isSpad c then
    match cmdBlock s x with
    | none => none
    | some b => match stashAt b a with
      | none => none
      | some (_, r) => if (mfind r.fill (r.lineNo a)).isSome then none else lockedPa s x (r.lineVa a)
  else lockedPa s x a

/-- What keeps an engine from a place: its line waits (R317, R330, R331, R373). `k` is the snoop of the access: a fill is a load. -/
def engStop (s : State) (x : EngCmd) (c : Cap) (a k : Nat) : Option Look :=
  match engLine s x c a with
  | some pa => (lineWaits s (cmdWho s x) pa (if isSpad c || k == 1 then needR else needW)).map (.hold pa)
  | none => none

/-- What keeps an engine from one of several places. -/
def engStops (s : State) (x : EngCmd) (ps : List (Cap × Nat × Nat)) : Option Look := ps.findSome? fun q => engStop s x q.1 q.2.1 q.2.2

/-- The lines of a range, as places of one kind of access. -/
def rangePlaces (c : Cap) (off n k : Nat) : List (Cap × Nat × Nat) := (linePieces (c.addr.toNat + off) n).map fun p => (c, p.1, k)

/-- The integrity failure of a line that an engine reads (R342). -/
def engInteg (s : State) (x : EngCmd) (c : Cap) (a : Nat) : Nat :=
  match engLine s x c a with
  | some pa => lineInteg s (sealTag s x.world) pa
  | none => 0

/-- The first line of a range that fails its integrity check: its offset and cause. -/
def rangeInteg (s : State) (x : EngCmd) (c : Cap) (off n : Nat) : Option (Nat × Nat) :=
  ((linePieces (c.addr.toNat + off) n).find? fun p => engInteg s x c p.1 != 0).map fun p => (p.1 - c.addr.toNat, engInteg s x c p.1)

/-- A stash line that an engine's access touches is filled first, at its time (R138): the version's write time comes with it. -/
def engFill (s : State) (x : EngCmd) (b : Block) (a : Nat) : State × Block × Nat :=
  let pa := match stashAt b a with
    | some (_, r) => (lockedPa s x (r.lineVa a)).map fun pa => (pa, false)
    | none => none
  let q := fillAt { m := s.mem, b := b } (cmdWho s x) a (engTime s x) pa false
  ({ s with mem := q.1.m }, q.1.b, q.2)

/-- A read of an engine inside one line: the state, the engine's time after, the value, the sector's side-band byte. -/
def engRead (s : State) (x : EngCmd) (c : Cap) (a n : Nat) : State × Nat × BitVec 8 :=
  let t := engTime s x
  if isSpad c then
    match x.who, cmdBlock s x with
    | some (k, _), some b0 =>
      let (s, b, w0) := engFill s x b0 a
      let (wt, r) := spLine b.spad a
      let t1 := max (max t w0) wt
      let s1 := putBlock s k { b with spad := spPutLine b.spad a (wt, max r t1) }
      (setEngTime s1 x t1, spNat b.spad a n, spSide b.spad a)
    -- the scratchpad of a block that has gone: free bytes
    | _, _ => ({ s with nfree := s.nfree + n }, ofBytesLE ((List.range n).map fun i => (Config.freeWord (s.nfree + i)).setWidth 8), 0)
  else match lockedSpot s x a with
    | none => (s, 0, 0)
    | some p =>
      let w := cmdWho s x
      let (m, wt) := leaseLoad s.mem w.core w.ctx w.tag w.ways p t
      (setEngTime (sendPieces { s with mem := m } w t 15 none [(p, n)]) x (max t wt), lineNat (viewLine m w.tag p.pa) (p.pa % 64) n, sideAt m p.pa)

/-- A side-band byte after bytes `off` to `off + n - 1` of its sector are written: tags of the granules touched, and the
code where it is not 15. -/
def sideAfter (old : BitVec 8) (off n : Nat) (tags : BitVec 4) (fmt : BitVec 4) : BitVec 8 :=
  let v := (List.range 4).foldl (fun v q =>
    if off < 16 * q + 16 && 16 * q < off + n then sideWithTag v (16 * q) (tags.getLsbD q) else v) old
  if fmt.toNat ≤ 11 then sideWithFmt v fmt else v

/-- A data write of an engine inside one line (R62, R126, R234, R240): `full` marks scratchpad granules full (R187). -/
def engWrite (s : State) (x : EngCmd) (c : Cap) (a : Nat) (bs : List Byte) (tags : BitVec 4) (fmt : BitVec 4) (full : Bool) : State :=
  let t := engTime s x
  if isSpad c then
    match x.who, cmdBlock s x with
    | some (k, gix), some b0 =>
      let (s, b, w0) := engFill s x b0 a
      let t1 := max (max t w0) ((spLine b.spad a).2 + 1)
      let side := sideAfter (spSide b.spad a) (a % 64) bs.length tags fmt
      let p := spPutLine (spPut b.spad a bs) a (t1, t1)
      let p := (List.range 4).foldl (fun p q => spPutTag p (a / 64 * 64 + 16 * q) (sideTag side (16 * q))) p
      let p : Spad := { p with fmt := mput p.fmt (a / 64) (sideFmt side) 0 }
      let p := if full then (List.range 4).foldl (fun p q =>
        if a % 64 < 16 * q + 16 && 16 * q < a % 64 + bs.length then spPutFull p (a / 64 * 64 + 16 * q) true else p) p else p
      modCmd (setEngTime (putBlock s k (markDirty { b with spad := p } gix a bs.length)) x t1) x.id fun y => { y with wpts := max y.wpts t1 }
    | _, _ => s
  else match lockedSpot s x a with
    | none => s
    | some p =>
      let w := cmdWho s x
      let pa := p.pa
      let m := sealLine (unhide s.mem pa bs.length) pa w.tag
      let t1 := max t ((lineAt m pa).2 + 1)
      let m := putSide (memPut m pa bs) pa (sideAfter (sideAt m pa) (pa % 64) bs.length tags fmt)
      let op : FabOp := if bs.length == 64 then .sector (storedLine m pa) (sideAt m pa) else .store bs fmt
      modCmd (setEngTime (sendReq { s with mem := putLine m pa (t1, t1) } w p t1 op) x t1) x.id fun y => { y with wpts := max y.wpts t1 }

/-- The tags of a destination sector cleared (R188). -/
def wipeSector (s : State) (x : EngCmd) (c : Cap) (a : Nat) : State :=
  if isSpad c then
    match x.who with
    | some (k, _) => modBlock s k fun b =>
        { b with spad := (List.range 4).foldl (fun p q => spPutTag p (a / 64 * 64 + 16 * q) false) b.spad }
    | none => s
  else match lockedPa s x a with
    | none => s
    | some pa => modMem s fun m => putSide m pa (sideAt m pa &&& 0x0F)

/-- A plain data write of any length to a capability's range from offset `off`: tags cleared, codes kept. -/
def engStore (s : State) (x : EngCmd) (c : Cap) (off : Nat) (bs : List Byte) : State :=
  ((linePieces (c.addr.toNat + off) bs.length).foldl (fun (q : State × List Byte) p =>
    (engWrite q.1 x c p.1 (q.2.take p.2) 0 15 false, q.2.drop p.2)) (s, bs)).1

/-- A read of any length: the bytes. -/
def engLoad (s : State) (x : EngCmd) (c : Cap) (off n : Nat) : State × List Byte :=
  (linePieces (c.addr.toNat + off) n).foldl (fun q p =>
    let r := engRead q.1 x c p.1 p.2
    (r.1, q.2 ++ bytesLE p.2 r.2.1)) (s, [])

/-! ### Completion (R185, R186, R274) -/

/-- The record of an integrity failure that ended a command (R343): the address, the cause, the physical line. -/
def integEnd (s : State) (x : EngCmd) (va cause pa : Nat) : State :=
  let f : FaultInfo := { lane := 0, va := BitVec.ofNat 64 va, kind := 0, level := 0, need := 0, ipa := 0, host := false, integ := cause, pa := pa }
  faultRecord s x.ctx x.world 5 f false 0 (x.ticket.setWidth 64)

/-- As `integEnd`, for a line of a locked page. -/
def integLine (s : State) (x : EngCmd) (va cause : Nat) : State := integEnd s x va cause ((lockedPa s x va).getD 0 / 64 * 64)

/-- The counter of a finished command falls, or its drop is held (R274). Its time is kept for fences of kind eng that reach it
(R233, R240). -/
def releaseCmd (s : State) (x : EngCmd) (t : Nat) : State :=
  match x.who with
  | none => s
  | some (k, gix) =>
    let far := (((groupOf s k gix).bind fun g => g.out.find? fun p => p.id == x.pid).map (·.far)).getD false
    let s := modGroup s k gix fun g => if far then { g with engFar := max g.engFar t } else { g with engAck := max g.engAck t }
    if ctxHolds s x.ctx then
      modCtx (modGroup s k gix fun g => g.modOut x.pid fun p => { p with ended := true }) x.ctx fun c =>
        { c with held := c.held ++ [.cmd k gix x.pid] }
    else settleOut (modGroup s k gix (·.dropOut x.pid)) k gix

/-- The block of a command that ends before its pages were locked, locked for the STATUS write. -/
def lockBlock (s : State) (x : EngCmd) : State × EngCmd :=
  if isSpad x.pblock || (lockedPa s x x.pblock.addr.toNat).isSome then (s, x)
  else match blockPages (cmdWho s x) x.blockLines s with
    | (s1, .ok ps) => (s1, { x with locked := ps ++ x.locked })
    | (s1, .error _) => (s1, x)

/-- What keeps an engine that runs from writing its parameter block: one of its lines waits. -/
def blockHold (s : State) (x : EngCmd) : Option Look :=
  if isSpad x.pblock then none else engStops s x (x.blockLines.map fun p => (x.pblock, p.1, 2))

/-- The issuing block reads what the engine has written into the parameter block: the copies of its lines in the core's L1 are
dropped, and stash lines of them are filled again (R334). -/
def freshBlock (s : State) (x : EngCmd) : State :=
  if isSpad x.pblock then s
  else
    let ls := x.blockLines.filterMap fun p => (lockedPa s x p.1).map (· / 64)
    let s1 := match cmdBlock s x with
      | some b => modMem s fun m => { m with copies := m.copies.filter fun c => !(c.core == b.core && ls.contains (c.pa / 64)) }
      | none => s
    match x.who with
    | some (k, _) => modBlock s1 k fun b => { b with stash := b.stash.map fun r =>
        { r with fill := r.fill.map fun (n, f) => (n, if ls.contains (f.pa / 64) then { f with stale := true } else f) } }
    | none => s1

/-- A command ends (R185, R186): PROGRESS where it is given, then STATUS, last; the locks, the counter or the card. -/
def finishCmd (s : State) (x0 : EngCmd) (code info : Nat) (prog : Option (Nat × Nat)) : State :=
  let x := (cmdOf s x0.id).getD x0
  let (s, y) := lockBlock s x
  let s := modCmd s x.id fun _ => y
  let s := match prog with
    | some (off, v) => engStore s y y.pblock off (bytesLE 8 v)
    | none => s
  let s := if y.rel then setEngTime s y (((cmdOf s y.id).getD y).wpts + 1) else s
  let s := freshBlock (engStore s y y.pblock 0 (bytesLE 8 (code + info % 2 ^ 32 * 256))) y
  let t := ((cmdOf s y.id).getD y).wpts
  let s := modMem s fun m => if x.submitted then unlockAll m x.ctx x.locked else m
  let s := releaseCmd (dropCmd s x.id) x t
  match x.card with
  | some c => modRun s c fun r => { r with result := some (code == 1), outPts := max r.outPts (max t (engTime s y)) }
  | none => s

/-! ### Submission checks (R185, R374) -/

/-- A slot's own check: tagged, unsealed, with the permissions (R374). -/
def slotOk (c : Cap) (need : BitVec 12) : Bool := c.tag && c.otype == 0 && hasPerm c need

/-- The first slot of a list that fails: INFO is its offset over 16. -/
def slotsBad (ls : List (Nat × Cap × BitVec 12)) : Option (Nat × Nat) :=
  (ls.find? fun q => !slotOk q.2.1 q.2.2).map fun q => (3, q.1)

/-- A range inside its capability; a scratchpad one inside the block's scratchpad too. -/
def rangeIn (limit : Nat) (c : Cap) (n : Nat) : Bool :=
  let top := capBase c + capLen c
  let top := if isSpad c then min top limit else top
  capBase c ≤ c.addr.toNat && c.addr.toNat + n ≤ top

/-- The first range of a list that exceeds its slot's bounds. -/
def rangesBad (limit : Nat) (ls : List (Nat × Cap × Nat)) : Option (Nat × Nat) :=
  (ls.find? fun q => !rangeIn limit q.2.1 q.2.2).map fun q => (4, q.1)

/-- Two capability ranges share bytes. -/
def capsMeet (c d : Cap) (n m : Nat) : Bool := isSpad c == isSpad d && rangesMeet c.addr.toNat n d.addr.toNat m

/-- A sealed bounce descriptor (R333): OTYPE 3, exactly 64 bytes. -/
def isDescriptor (c : Cap) : Bool := c.tag && c.otype == 3 && !isKey c && capLen c == 64

/-- The first check that fails of an `ecopy` (R187, R333, R374). -/
def copyBad (limit : Nat) (x : EngCmd) : Option (Nat × Nat) :=
  let len := bits x.ctl 0 40
  let src := x.slot 1
  let dst := x.slot 2
  let tags := 16 * (len / 4096)
  if bits x.ctl 40 24 != 0 || len == 0 then some (7, 0)
  else
    let (s1, s2, r1, r2) : Option (Nat × Nat) × Option (Nat × Nat) × (Nat × Cap × Nat) × (Nat × Cap × Nat) := match x.bounce with
      | some (_, false, buf) => (slotsBad [(1, buf, pLD)], slotsBad [(2, dst, pST)], (1, buf, len + tags), (2, dst, len))
      | some (_, true, buf) => (slotsBad [(1, src, pLD)], slotsBad [(2, buf, pST)], (1, src, len), (2, buf, len + tags))
      | none => (slotsBad [(1, src, pLD)], slotsBad [(2, dst, pST)], (1, src, len), (2, dst, len))
    match s1, s2, rangesBad limit [r1, r2] with
    | some e, _, _ => some e
    | none, some e, _ => some e
    | none, none, some e => some e
    | none, none, none =>
      let a := r1.2.1
      let b := r2.2.1
      if a.addr.toNat % 64 != 0 || b.addr.toNat % 64 != 0 || len % 64 != 0 || (x.bounce.isSome && len % 4096 != 0) ||
         capsMeet a b len len || x.prog % 65536 != 0 || len ≤ x.prog then some (7, 0)
      else none

/-- The source slots of an `ered`. -/
def redSources (x : EngCmd) : List (Nat × Cap) := (List.range (bits x.ctl 44 4)).map fun i => (2 + i, x.slot (2 + i))

/-- The first check that fails of an `ered` (R188, R374). -/
def redBad (limit : Nat) (x : EngCmd) : Option (Nat × Nat) :=
  let nsrc := bits x.ctl 44 4
  let count := bits x.ctl 0 40
  let dst := x.slot 1
  let srcs := redSources x
  if bits x.ctl 48 16 != 0 || bits x.ctl 40 4 != 0 || nsrc == 0 || 8 < nsrc || count == 0 then some (7, 0)
  else match slotsBad ((1, dst, pST) :: srcs.map fun q => (q.1, q.2, pLD)),
      rangesBad limit ((1, dst, 4 * count) :: srcs.map fun q => (q.1, q.2, 4 * count)) with
    | some e, _ => some e
    | none, some e => some e
    | none, none =>
      if dst.addr.toNat % 4 != 0 || (srcs.any fun q => q.2.addr.toNat % 4 != 0 ||
          (q.2.addr != dst.addr && capsMeet q.2 dst (4 * count) (4 * count))) || count < x.prog then some (7, 0)
      else none

/-- A window capability of the command's context (R322). -/
def isWindowCap (s : State) (x : EngCmd) (c : Cap) : Bool := !isSpad c && (windowAt s x.ctx (capBase c)).isSome

/-- The team's entries of the other ranks fail their checks (R324): each holds window capabilities, with their permissions. -/
def teamBad (s : State) (x : EngCmd) (t : Team) : Bool :=
  (t.caps.zip (List.range t.caps.length)).any fun q => q.2 != t.rank &&
    !(slotOk q.1.1 pLD && slotOk q.1.2 pST && isWindowCap s x q.1.1 && isWindowCap s x q.1.2)

/-- The source and destination bytes of a rank (R189). -/
def collBytes (kind len nrank : Nat) : Nat × Nat :=
  (len, if kind == 1 then nrank * len else if kind == 3 then len / nrank else len)

/-- The CTL word of an `ecoll` is out of range (R185, R374). -/
def collCtlBad (x : EngCmd) : Bool :=
  bits x.ctl 56 8 != 0 || bits x.ctl 48 4 != 0 || 3 < bits x.ctl 52 4 || bits x.ctl 0 40 == 0

/-- The first check that fails of an `ecoll` whose team table has been read (R189, R324, R374). -/
def collBad (s : State) (limit : Nat) (x : EngCmd) (t : Team) : Option (Nat × Nat) :=
  let kind := bits x.ctl 52 4
  let root := bits x.ctl 40 8
  let len := bits x.ctl 0 40
  let team := x.slot 1
  let useSrc := kind != 2 || t.rank == root
  let src := x.slot 2
  let dst := x.slot 3
  let n := collBytes kind len t.nrank
  if !t.bad && (!rangeIn limit team (64 + 32 * t.nrank) || teamBad s x t) then some (3, 1)
  else match slotsBad ((if useSrc then [(2, src, pLD)] else []) ++ [(3, dst, pST)]),
      (if t.bad then none else rangesBad limit ((if useSrc then [(2, src, n.1)] else []) ++ [(3, dst, n.2)])) with
    | some e, _ => some e
    | none, some e => some e
    | none, none =>
      if t.bad || t.nrank ≤ root || ((kind == 0 || kind == 3) && len % 4 != 0) || (kind == 3 && len % (4 * t.nrank) != 0) then some (7, 0)
      else none

/-- A key handle that Hallmark accepts (R347). -/
def handleKey (s : State) (x : EngCmd) (h : Cap) : Option KeySlot :=
  let key := mget (worldOf s x.world).t.keys (bits h.addr 0 4) {}
  if bits h.addr 8 6 == x.world && key.alg.isSome && bits h.addr 16 32 == key.gen.toNat then some key else none

/-- The least record bytes of an algorithm (R348). -/
def recordBytes (alg : Nat) : Nat := if alg == 0 then 256 else 3520

/-- The first check that fails of a seal command before its perform (R190, R348, R374). -/
def sealBad (s : State) (x : EngCmd) : Option (Nat × Nat) :=
  let alg := bits x.ctl 0 8
  let h := x.slot 1
  let limit := ((cmdBlock s x).map (·.spad.size)).getD 0
  if bits x.ctl 8 24 != 0 || 1 < alg then some (7, 0)
  else if !(h.tag && h.otype == 2) then some (3, 1)
  else match slotsBad [(2, x.slot 2, pLD), (3, x.slot 3, pST)], rangesBad limit [(3, x.slot 3, recordBytes alg)] with
    | some e, _ => some e
    | none, some e => some e
    | none, none => none

/-- The measurement that Hallmark keeps of an image. -/
def measureOf (s : State) (c : Nat) (i : Cap) : Option (BitVec 384) :=
  (s.eng.measures.find? fun m => m.ctx == c && m.base == capBase i && m.len == capLen i).map (·.hash)

/-- The image of the producing kernel, where it is still to be measured (R348). -/
def imageOf (s : State) (x : EngCmd) : Option Cap :=
  match cmdBlock s x with
  | some b => if (measureOf s x.ctx b.image).isNone then some { b.image with addr := BitVec.ofNat 64 (capBase b.image) } else none
  | none => none

/-- The open seal on a parameter block. -/
def sealOn (s : State) (x : EngCmd) : Option Seal := s.eng.seals.find? fun y => y.ctx == x.ctx && y.pblock == x.pblock.addr && y.void.isNone

/-! ### Submission (R185, R306, R333) -/

/-- A table that an engine reads at submission through a slot, after its acquire (R240): the granules with their tags, filtered while
a sweep is active (R359). -/
def readTable (s : State) (x : EngCmd) (c : Cap) (n : Nat) : State × Except (BitVec 64 × Look) (List Cap) :=
  let s := if x.acq then setEngTime s x x.ipts else s
  let b := (cmdBlock s x).getD {}
  let w := cmdWho s x
  let ls : List LaneAcc := (List.range n).map fun i =>
    { lane := i, spad := isSpad c, va := c.addr + BitVec.ofNat 64 (16 * i), n := 16, fmt := 15, op := .ldc (hasPerm c pLDC || c.otype == 3) }
  match seqResolve b w s ls with
  | (s1, .error (a, l)) => (s1, .error (a.va, l))
  | (s1, .ok ls) =>
    let d := perform { m := s1.mem, b := b } w (engTime s x) ls
    let gs := (List.range n).map fun i => ((mfind d.vals i).map (·.asCap)).getD {}
    match checkMap s1 x.ctx gs with
    | (s2, false) => (s2, .error (c.addr, .hold 0 .ready))
    | (s2, true) => (setEngTime { s2 with mem := { d.y.m with asked := s2.mem.asked, snooped := s2.mem.snooped } } x d.t, .ok (gs.map (rvFilter s2 x.ctx)))

/-- The read of a table that cannot be made: parked, or ended by a line that fails its check (R342). -/
def tableStop (s : State) (x : EngCmd) (c : Cap) (va : BitVec 64) : Look → State
  | .integ cause pa => finishCmd (integEnd s x va.toNat cause pa) x 5 (va.toNat - c.addr.toNat) none
  | l => parkCmd s x va needR l

/-- The team of a table's granules (R324). -/
def teamOf (gs : List Cap) : Team :=
  let w := (gs.getD 0 {}).addr
  let n := bits w 0 7
  let r := bits w 8 7
  { nrank := n, rank := r, bad := n < 2 || 64 < n || n ≤ r || bits w 7 1 != 0 || bits w 15 49 != 0,
    caps := (List.range n).map fun i => (gs.getD (4 + 2 * i) {}, gs.getD (5 + 2 * i) {}) }

/-- A descriptor's record (R333): channel, direction, buffer; none when a reserved bit is set. -/
def bounceOf (gs : List Cap) : Option (BitVec 4 × Bool × Cap) :=
  let w := (gs.getD 0 {}).addr
  if bits w 4 4 != 0 || bits w 9 55 != 0 then none else some (BitVec.ofNat 4 (bits w 0 4), bits w 8 1 == 1, gs.getD 1 {})

/-- A range that a slot of a command names: the slot's number, the capability, bytes, and the rights it needs. -/
abbrev SlotRange := Nat × Cap × Nat × BitVec 3

/-- The ranges a command's slots name (R306), the tables that it reads through them among these, and the image that an
`eseal.open` measures. -/
def cmdRanges (x : EngCmd) : List SlotRange :=
  let len := bits x.ctl 0 40
  (0, x.pblock, engSize x.kind, needRW) :: match x.kind with
    | .copy =>
      let tags := 16 * (len / 4096)
      match x.bounce with
      | some (_, false, buf) => [(1, x.slot 1, 64, needR), (1, buf, len + tags, needR), (2, x.slot 2, len, needW)]
      | some (_, true, buf) => [(1, x.slot 1, len, needR), (2, x.slot 2, 64, needR), (2, buf, len + tags, needW)]
      | none => [(1, x.slot 1, len, needR), (2, x.slot 2, len, needW)]
    | .red => (1, x.slot 1, 4 * len, needW) :: (redSources x).map fun q => (q.1, q.2, 4 * len, needR)
    | .coll =>
      match x.team with
      | none => []
      | some t =>
        let kind := bits x.ctl 52 4
        let n := collBytes kind len t.nrank
        let own := (if kind != 2 || t.rank == bits x.ctl 40 8 then [(2, x.slot 2, n.1, needR)] else []) ++ [(3, x.slot 3, n.2, needW)]
        let others := (t.caps.zip (List.range t.nrank)).filter fun q => q.2 != t.rank && (kind != 2 || q.2 == bits x.ctl 40 8)
        (1, x.slot 1, 64 + 32 * t.nrank, needR) :: own ++ others.map fun q => (1, q.1.1, n.1, needR)
    | .sealOpen =>
      let f := x.slot 2
      [(2, { f with addr := BitVec.ofNat 64 (capBase f) }, capLen f, needR), (3, x.slot 3, slotBytesOf (x.slot 3) 0, needW)] ++
        x.image.toList.map fun i => (2, i, capLen i, needR)
    | .sealCommit =>
      let f := x.slot 2
      [(2, { f with addr := BitVec.ofNat 64 (capBase f) }, capLen f, needR), (3, x.slot 3, slotBytesOf (x.slot 3) 0, needW)]
    | .tile => []

/-- A request of an engine is refused (R319): for its right to load, to store, or both. -/
def engRefused (s : State) (x : EngCmd) (pa n : Nat) (need : BitVec 3) : Bool :=
  (need &&& needR != 0 && refused s x.world pa n 1) || (need &&& needW != 0 && refused s x.world pa n 2)

/-- A part of a locked page is refused (R319): looked at line by line where the fabric checks each. -/
def partRefused (s : State) (x : EngCmd) (pa n : Nat) (need : BitVec 3) : Bool :=
  if homeOf pa == .host || homeOf pa == .hbm && homeOf (pa + n - 1) == .hbm && !(s.fab.exports.any (·.2.1)) then false
  else (linePieces pa n).any fun l => engRefused s x l.1 l.2 need

/-- The slot of the first of some places whose access, of at most `n` bytes, the fabric refuses now (R319). -/
def engDenied (s : State) (x : EngCmd) (n : Nat) (ps : List (Cap × Nat × Nat)) : Option Nat :=
  ps.findSome? fun q =>
    if isSpad q.1 then none
    else match (cmdRanges x).find? fun r => !isSpad r.2.1 && r.2.1.addr.toNat ≤ q.2.1 && q.2.1 < r.2.1.addr.toNat + r.2.2.1, lockedSpot s x q.2.1 with
      | some r, some p =>
        let pa := if p.fab && !remote p.pa then fabricPa s p.pa else p.pa
        if refused s x.world pa (min n (min (64 - q.2.1 % 64) (r.2.1.addr.toNat + r.2.2.1 - q.2.1))) (if q.2.2 == 2 then 2 else 1) then some r.1 else none
      | _, _ => none

/-- The slot whose range the fabric refuses, if one does (R319). -/
def fabricRefused (s : State) (x : EngCmd) (rs : List SlotRange) : Option Nat :=
  (rs.find? fun q => !isSpad q.2.1 && x.locked.any fun p =>
    let lo := max p.1 q.2.1.addr.toNat
    let hi := min (p.1 + p.2.1) (q.2.1.addr.toNat + q.2.2.1)
    lo < hi && partRefused s x (p.2.2 + (lo - p.1)) (hi - lo) q.2.2.2).map (·.1)

/-- The slot whose range holds a doorbell page, which refuses every access of an engine (R319, R323). -/
def doorRefused (s : State) (x : EngCmd) (rs : List SlotRange) : Option Nat :=
  (rs.find? fun q => !isSpad q.2.1 && s.fab.wins.any fun (_, w) => w.opened && w.ctx == x.ctx &&
    w.va.toNat * 4096 < q.2.1.addr.toNat + q.2.2.1 && q.2.1.addr.toNat < w.va.toNat * 4096 + 4096).map (·.1)

/-- A table that a slot names is refused by the fabric (R319). -/
def tableRefused (s : State) (x : EngCmd) (c : Cap) (n : Nat) : Bool :=
  !isSpad c && (linePieces c.addr.toNat n).any fun p => match walk s x.ctx p.1 needR with
    | .ok pa _ _ _ _ _ _ _ _ => refused s x.world pa p.2 1 || (doorOf s x.ctx p.1).isSome
    | .fault _ _ _ _ => false
    | .hold _ _ => false

/-- Every place that the command writes data to lies on another VX9 (R233). -/
def allFar (s : State) (x : EngCmd) (rs : List SlotRange) : Bool :=
  let ws := (rs.drop 1).filter fun q => q.2.2.2 == needW
  !ws.isEmpty && ws.all fun q => !isSpad q.2.1 && (linePieces q.2.1.addr.toNat q.2.2.1).all fun p => match lockedPa s x p.1 with
    | some pa => match homeOf pa with
      | .fabric _ => true
      | .hbm => false
      | .hole => false
      | .host => false
    | none => false

/-! ### The ranks of a collective (R189, R324) -/

/-- What a rank has issued. -/
def joinOf (x : EngCmd) (t : Team) : Join :=
  { nrank := t.nrank, kind := bits x.ctl 52 4, root := bits x.ctl 40 8, len := bits x.ctl 0 40 }

/-- The context of this package that the window of a team's entry leads to. -/
def rankCtx (s : State) (x : EngCmd) (t : Team) (i : Nat) : Option Nat :=
  match windowAt s x.ctx (capBase (t.caps.getD i ({}, {})).1) with
  | none => none
  | some n =>
    let w := mget s.fab.wins n {}
    if w.node == s.fab.node.toNat then some w.rctx else none

/-- The rank that another command of this package is to a command: each of their tables names the other's context. -/
def partnerRank (s : State) (x : EngCmd) (t : Team) (y : EngCmd) : Option Nat :=
  match y.team with
  | none => none
  | some u =>
    if y.kind == .coll && y.submitted && y.id != x.id && rankCtx s x t u.rank == some y.ctx && rankCtx s y u t.rank == some x.ctx
    then some u.rank else none

/-- A rank of another package has issued its part (R189, R324). -/
def takeJoin (s : State) (cmd rank : Nat) (j : Join) : State :=
  match cmdOf s cmd with
  | none => s
  | some x =>
    if x.submitted && x.kind == .coll && (x.team.any fun t => rank < t.nrank && rank != t.rank) && (mfind x.joins rank).isNone then
      modCmd s cmd fun y => { y with joins := minsert y.joins rank j }
    else s

/-- What a rank that has ended with 0x07 has issued: it agrees with no rank. -/
def badJoin : Join := { nrank := 0, kind := 0, root := 0, len := 0 }

/-- A rank's failure met by a rank of `n` in a context: once all the others have met it, it is forgotten. -/
def tellFail (s : State) (f : RankFail) (ctx n : Nat) : State :=
  let g : RankFail := { f with told := ctx :: f.told }
  { s with eng := { s.eng with fails := s.eng.fails.flatMap fun y => if y != f then [y] else if n ≤ g.told.length + 1 then [] else [g] } }

/-- A rank of this package has issued its part: each other rank here has failed, or it joins the oldest command of it that it has not
joined, and that one joins it; the other packages are told. -/
def joinRanks (s : State) (x : EngCmd) (t : Team) : State :=
  let s := ((List.range t.nrank).filter (· != t.rank)).foldl (fun s i =>
    match s.eng.fails.find? fun f => rankCtx s x t i == some f.ctx && !f.told.contains x.ctx with
    | some f => modCmd (tellFail s f x.ctx t.nrank) x.id fun z => { z with joins := minsert z.joins i badJoin }
    | none =>
      match s.eng.cmds.find? fun y => partnerRank s x t y == some i && (mfind y.joins t.rank).isNone with
      | none => s
      | some y =>
        let s := modCmd s y.id fun y => { y with joins := minsert y.joins t.rank (joinOf x t) }
        match y.team with
        | some u => modCmd s x.id fun z => { z with joins := minsert z.joins i (joinOf y u) }
        | none => s) s
  let j := joinOf x t
  answer s 13 x.world (bytesLE 2 x.ctx ++ bytesLE 1 t.rank ++ bytesLE 1 j.nrank ++ bytesLE 1 j.kind ++ bytesLE 1 j.root ++ bytesLE 5 j.len)

/-- The rank, in the table of a command that waits for it, of the context of another: it has not joined that command. -/
def waitsFor (s : State) (y : EngCmd) (ctx : Nat) : Option Nat :=
  match y.team with
  | none => none
  | some u =>
    if y.kind == .coll && y.submitted then
      (List.range u.nrank).find? fun i => i != u.rank && rankCtx s y u i == some ctx && (mfind y.joins i).isNone
    else none

/-- A rank ends with 0x07, and with it every rank (R324): those that wait for it learn it now, those of this package that issue their
part later then, and the other packages are told. -/
def failRank (s : State) (x : EngCmd) : State :=
  let f : RankFail := { ctx := x.ctx, told := [] }
  let s := s.eng.cmds.foldl (fun s y => match y.team, waitsFor s y x.ctx with
    | some u, some i =>
      let g := (s.eng.fails.getLast?).getD f
      modCmd (tellFail s g y.ctx u.nrank) y.id fun z => { z with joins := minsert z.joins i badJoin }
    | _, _ => s) { s with eng := { s.eng with fails := s.eng.fails ++ [f] } }
  answer s 13 x.world (bytesLE 2 x.ctx ++ [BitVec.ofNat 8 ((x.team.map (·.rank)).getD 127)] ++ bytesLE 8 0)

/-- A command whose checks have passed: its pages locked, its bounce counter taken, its acquire made (R182, R306, R333). -/
def submitCmd (s : State) (x : EngCmd) : State :=
  let rs := cmdRanges x
  let b := (cmdBlock s x).getD {}
  match doorRefused s x rs with
  | some i => finishCmd s x 3 i none
  | none => match lockRanges (cmdWho s x) (rs.flatMap fun q => rangeVas b q.2.1 q.2.2.1 q.2.2.2) s [] with
  | (s1, .error (va, need, l)) => parkCmd s1 x va need l
  | (s1, .ok pages) =>
    match lockAll s1.mem x.ctx pages with
    | none => s1
    | some m =>
      let y := { x with locked := pages, submitted := true }
      let s2 := modCmd { s1 with mem := m } x.id fun _ => y
      match fabricRefused s2 y rs with
      | some i => finishCmd s2 y 3 i none
      | none =>
        let s3 := if y.acq then setEngTime s2 y y.ipts else s2
        let s3 := match y.who with
          | some (k, gix) => modGroup s3 k gix (·.modOut y.pid fun p => { p with far := allFar s3 y rs })
          | none => s3
        let s3 := match y.team with
          | some t => joinRanks s3 y t
          | none => s3
        match y.bounce with
        | none => s3
        | some (ch, out, _) =>
          let b := mget (worldOf s3 y.world).t.bch ch.toNat {}
          let n := (bits y.ctl 0 40 - y.prog) / 4096
          let b1 := if out then { b with outCtr := b.outCtr + n } else { b with inCtr := b.inCtr + n }
          let s4 := modWorld s3 y.world fun r =>
            { r with t := { r.t with bch := minsert r.t.bch ch.toNat b1 } }
          modCmd s4 y.id fun y => { y with c0 := some (if out then b.outCtr else b.inCtr) }

/-! ### Tile tasks (R260) -/

/-- The block that a tile task stands as. -/
def taskBlock (s : State) (x : EngCmd) : Option (Nat × Block) := s.blocks.find? fun (_, b) => (b.task.map (·.cmd)) == some x.id

/-- A tile task ends: its banks go back to the core. -/
def finishTask (s : State) (x : EngCmd) (code info : Nat) : State :=
  let s := match taskBlock s x with
    | some (k, _) => { s with blocks := merase s.blocks k, curator := { s.curator with idleAt := none } }
    | none => s
  finishCmd s x code info none

/-- The scalar pair of a task's descriptor, and the pitch of C. -/
def taskDesc (x : EngCmd) : DWord × DWord × Nat :=
  (x.ctl &&& ~~~(1 : DWord), (x.slot 1).addr, bits (capBits (x.slot 1)) 64 32)

/-- The pieces of the first `n` rows of C. -/
def rowPieces (x : EngCmd) (n : Nat) : List (Nat × Nat) :=
  let (d0, d1, ldc) := taskDesc x
  (List.range n).flatMap fun i => linePieces ((x.slot 4).addr.toNat + i * ldc) (4 * (descOf d0 d1).N)

/-- The first submission check that a tile task fails (R260, R374). -/
def taskBad (x : EngCmd) : Option (Nat × Nat) :=
  let (d0, d1, ldc) := taskDesc x
  let q := descOf d0 d1
  let c := x.slot 4
  let al := fun c : Cap => c.addr.toNat % 64 != 0
  if descBad d0 0 || q.row0 != 0 || q.col0 != 0 || 1024 < q.M then some (7, 0)
  else match slotsBad [(2, x.slot 2, pLD), (3, x.slot 3, pLD), (4, c, pLD ||| pST)], rangesBad 0 [(4, c, (q.M - 1) * ldc + 4 * q.N)] with
    | some e, _ => some e
    | none, some e => some e
    | none, none =>
      if descBad d0 d1 || ldc % 64 != 0 || bits (capBits (x.slot 1)) 96 32 != 0 || al (x.slot 2) || al (x.slot 3) || al c then some (7, 0) else none

/-- The words of little-endian bytes. -/
def wordsLE : List Byte → List Word
  | a :: b :: c :: d :: r => BitVec.ofNat 32 (ofBytesLE [a, b, c, d]) :: wordsLE r
  | _ => []

/-- A tile task submitted (R260): its checks, its acquire, C loaded when Z is 0, its steps handed to the sequencer. -/
def checkTask (s : State) (x : EngCmd) : State :=
  match taskBad x, taskBlock s x with
  | some (code, info), _ => finishTask s x code info
  | none, none => finishTask s x 2 0
  | none, some (k, b) =>
    let (d0, d1, _) := taskDesc x
    let q := descOf d0 d1
    let z := x.ctl.getLsbD 0
    let start : State → Nat → SMap Word → State := fun s t acc =>
      let op : TileOp := .tmma 0 0 0 (x.slot 2) (x.slot 3) d0 d1 z false false 0 0 none none 0
      modBlock (setSeqTime (modCmd s x.id fun y => { y with submitted := true }) b.core t) k fun b => { b with acc := acc, tiles := [op] }
    let t0 := max (seqTime s b.core) x.ipts
    if z then start s t0 []
    else
      let ps := rowPieces x q.M
      match seqLoads s k t0 (ps.map fun p => { lane := 0, spad := false, va := BitVec.ofNat 64 p.1, n := p.2, fmt := 15, op := .ld }) with
      | .stop s1 a l => match l with
        | .integ cause pa => finishTask (integEnd s1 x a.va.toNat cause pa) x 5 (a.va.toNat - (x.slot 4).addr.toNat)
        | _ => parkCmd s1 x a.va needR l
      | .ok s1 t vals =>
        let ws := wordsLE ((ps.zip vals).flatMap fun v => bytesLE v.1.2 v.2.1)
        start s1 t ((ws.zip (List.range ws.length)).foldl (fun m v => mput m (128 * (v.2 / q.N) + v.2 % q.N) v.1 0) [])

/-- A tile task whose steps are over: C stored with code 1, then STATUS (R260, R263). -/
def endTask (s : State) (k : Nat) : State :=
  match blockOf s k with
  | none => s
  | some b => match b.task with
    | none => s
    | some t => match cmdOf s t.cmd with
      | none => { s with blocks := merase s.blocks k }
      | some x =>
        let (d0, d1, _) := taskDesc x
        let q := descOf d0 d1
        let rows := if t.code == 0 then q.M else min q.M (16 * ceilDiv t.steps (ceilDiv q.K 32))
        let ps := rowPieces x rows
        let w := whoOf s b
        match resolvePieces w needW s ps with
        | (s1, .error (va, .integ cause pa)) => finishTask (integEnd s1 x va cause pa) x 5 (va - (x.slot 4).addr.toNat)
        | (s1, .error (va, l)) => parkCmd s1 x (BitVec.ofNat 64 va) needW l
        | (s1, .ok ss) =>
          let bs := (List.range rows).flatMap fun i => (List.range q.N).flatMap fun j => bytesLE 4 (mget b.acc (128 * i + j) 0).toNat
          let t1 := piecesTime s1.mem (seqTime s1 b.core) ss
          let s2 := modMem (sendPieces s1 w t1 1 (some bs) ss) fun m => ss.foldl (fun m p => putSide m p.1.pa (sideWithFmt (sideAt m p.1.pa) 1)) (storePieces w m t1 bs ss)
          finishTask (modCmd s2 x.id fun y => { y with wpts := max y.wpts t1 }) x (if t.code == 0 then 1 else t.code) t.info

/-- A command whose checks are over: finished with the first that fails, or submitted. -/
def passCmd (s : State) (x : EngCmd) : Option (Nat × Nat) → State
  | some (code, info) => finishCmd s x code info none
  | none => submitCmd (modCmd s x.id fun _ => x) x

/-- The record that a descriptor names is sealed by another world: the descriptor belongs to that world (R333). -/
def foreignRecord (s : State) (x : EngCmd) (c : Cap) : Bool :=
  !isSpad c && match walk s x.ctx c.addr.toNat needR with
    | .ok pa _ _ _ _ _ _ _ _ => match mfind s.mem.sealed (canonPa s.fab.node pa / 64) with
      | some (w, _) => w != x.world
      | none => false
    | .fault _ _ _ _ => false
    | .hold _ _ => false

/-- An `ecopy` with a descriptor in slot `i` (R333): a slot before it has passed its check. -/
def checkBounce (s : State) (x : EngCmd) (i : Nat) : State :=
  let c := x.slot i
  let limit := ((cmdBlock s x).map (·.spad.size)).getD 0
  if foreignRecord s x c || tableRefused s x c 64 then finishCmd s x 3 i none
  else match readTable s x c 4 with
    | (s1, .error (va, l)) => tableStop s1 x c va l
    | (s1, .ok gs) =>
      match bounceOf gs with
      | none => finishCmd s1 x 3 i none
      | some (ch, out, buf) =>
        if out == (i == 1) || !(mget (worldOf s1 x.world).t.bch ch.toNat {}).opened then finishCmd s1 x 3 i none
        else if i == 1 && isDescriptor (x.slot 2) then finishCmd s1 x 3 2 none
        else
          let y := { x with bounce := some (ch, out, buf) }
          passCmd s1 y (copyBad limit y)

/-- The checks of a command whose block is read, then its pages (R374). -/
def checkCmd (s : State) (x : EngCmd) : State :=
  let limit := ((cmdBlock s x).map (·.spad.size)).getD 0
  match x.kind with
  | .copy =>
    let src := x.slot 1
    if bits x.ctl 40 24 != 0 || bits x.ctl 0 40 == 0 then finishCmd s x 7 0 none
    else if isDescriptor src then checkBounce s x 1
    else if isDescriptor (x.slot 2) then if slotOk src pLD then checkBounce s x 2 else finishCmd s x 3 1 none
    else passCmd s x (copyBad limit x)
  | .red => passCmd s x (redBad limit x)
  | .coll =>
    let team := x.slot 1
    if collCtlBad x then finishCmd (failRank s x) x 7 0 none
    else if !slotOk team (pLD ||| pLDC) || !rangeIn limit team 64 then finishCmd s x 3 1 none
    else
      let n := min 132 ((capBase team + capLen team - team.addr.toNat) / 16)
      if tableRefused s x team (16 * n) then finishCmd s x 3 1 none
      else match readTable s x team n with
        | (s1, .error (va, l)) => tableStop s1 x team va l
        | (s1, .ok gs) =>
          let t := teamOf gs
          let y := { x with team := some t }
          match collBad s1 limit y t with
          | some (7, info) => finishCmd (failRank s1 y) y 7 info none
          | bad => passCmd s1 y bad
  | .sealOpen =>
    let open' := (s.eng.seals.filter fun y => y.ctx == x.ctx && y.void.isNone).length
    let bad := match sealBad s x with
      | some e => some e
      | none => match handleKey s x (x.slot 1) with
        | none => some (9, 0)
        | some k => if 16 ≤ open' || 2 ^ 32 ≤ k.seq || k.alg != some (BitVec.ofNat 8 (bits x.ctl 0 8)) then some (7, 0) else none
    passCmd s { x with image := imageOf s x } bad
  | .sealCommit =>
    match sealBad s x, sealOn s x with
    | some (code, info), some y =>
      -- R348: a commit that fails with 0x04 or 0x07 voids its seal with reason 6
      finishCmd (if code == 3 then s else voidSeals s (fun z => z == y) 6) x code info none
    | some (code, info), none => finishCmd s x code info none
    | none, none => finishCmd s x (if (handleKey s x (x.slot 1)).isNone then 9 else 8) 0 none
    | none, some _ => passCmd s x none
  | .tile => checkTask s x

/-- The engine has come up (R373). -/
def engReady (s : State) (x : EngCmd) : Bool :=
  match x.kind with
  -- the copy engine of the issuing core's wing; any ready wing's for a card
  | .copy => match cmdBlock s x with
    | some b => s.hol.wready.getLsbD (wingOf b.core)
    | none => s.hol.wready != 0
  | .red => true
  | .coll => s.hol.ready.getLsbD 56 || s.hol.ready.getLsbD 57
  | .sealOpen => s.hol.ready.getLsbD 62
  | .sealCommit => s.hol.ready.getLsbD 62
  | .tile => true

/-- A command submitted (R185): its block read, its checks made in order, its pages locked. -/
def execEngineSubmission (id : Nat) (s : State) : Host.Outcome State Fault Refusal :=
  match cmdOf s id with
  | none => .next s
  | some x =>
    if x.kind == .tile && x.cancelled && (taskBlock s x).isNone then .next (finishCmd s x 2 0 none)
    else if x.submitted || x.token != 0 || x.stopped || !engReady s x then .next s
    else if x.cancelled then
      match blockStop s x with
      | (s1, some l) => .next (if l.isHold then s1 else finishTask s1 x 2 0)
      | (s1, none) => .next (finishTask s1 x 2 0)
    else
      let s1 := if x.got then s else captureCmd s x
      match cmdOf s1 id with
      | some y =>
        if !y.got then .next s1
        else match blockStop s1 y with
          | (s2, some l) => .next (parkCmd s2 y y.pblock.addr needW l)
          | (s2, none) => .next (checkCmd s2 y)
      | none => .next s1

/-! ### `ecopy` (R187, R333) -/

/-- Why an engine stops inside a chunk. -/
inductive EngEnd where
  | done
  /-- A line waits. -/
  | hold (l : Look)
  /-- The fabric refuses an access to the range of a slot (R319). -/
  | refused (slot : Nat)
  /-- STATUS code, the address of the line, and the cause of an integrity failure. -/
  | bad (code va cause : Nat)
deriving DecidableEq, Repr

/-- The context of a command has been told to stop, or stands (R191, R274). The engine cards of a context that has never been
resumed run (R268). -/
def stopsNow (s : State) (x : EngCmd) : Bool :=
  let c := ctxOf s x.ctx
  !(c.st == 1 || (c.st == 4 && c.fresh))

/-- A command that a stop meets at a boundary (R191, R274): PROGRESS is written, and it goes on from there at resume. -/
def stopCmd (s : State) (x : EngCmd) : State :=
  let s := modCmd s x.id fun y => { y with stopped := true }
  freshBlock (engStore s x x.pblock (if x.kind == .red then 0xA0 else 0x30) (bytesLE 8 x.prog)) x

/-- A command of the copy or reduction engine at its turn: held by its parameter block, ended by a cancel at a boundary, which for a
sealed copy is each of its chunks (R333), stopped at one, or running on as `f` says (R185, R191, R263). -/
def turnCmd (s : State) (x : EngCmd) (f : Unit → State) : State :=
  match blockHold s x with
  | some l => ask s l
  | none =>
    if x.cancelled && (x.pos == x.prog || x.bounce.isSome) then finishCmd s x 2 0 none
    else if x.stopped then s
    else if x.pos == x.prog && stopsNow s x then stopCmd s x
    else f ()

/-- One line copied: bytes, code, and the tags that both slots and the fabric let through. -/
def copyLine (s : State) (x : EngCmd) (o : Nat) : State :=
  let src := x.slot 1
  let dst := x.slot 2
  let a := src.addr.toNat + o
  let d := dst.addr.toNat + o
  let (s1, v, side) := engRead s x src a 64
  let keep := hasPerm src pLDC && hasPerm dst pSTC
  let far := fun c va => !isSpad c && match lockedSpot s x va with
    | some p => p.fab || homeOf p.pa != .hbm
    | none => false
  let tags := (List.range 4).foldl (fun t q =>
    let c := ofCapBits true (BitVec.ofNat 128 (v / 2 ^ (128 * q)))
    if keep && sideTag side (16 * q) && (!(far src a || far dst d) || hasPerm c pFAB) then t ||| BitVec.ofNat 4 (2 ^ q) else t) (0 : BitVec 4)
  engWrite s1 x dst d (bytesLE 64 v) tags (sideFmt side) true

/-- Lines copied in ascending order: the offset reached, and why it stopped there. -/
def copyLines (x : EngCmd) : Nat → Nat → State → State × Nat × EngEnd
  | 0, o, s => (s, o, .done)
  | n + 1, o, s =>
    let src := x.slot 1
    let dst := x.slot 2
    let a := src.addr.toNat + o
    match engStops s x [(src, a, 1), (dst, dst.addr.toNat + o, 2)], engDenied s x 64 [(src, a, 1), (dst, dst.addr.toNat + o, 2)] with
    | some l, _ => (s, o, .hold l)
    | none, some i => (s, o, .refused i)
    | none, none =>
      if engInteg s x src a != 0 then (s, o, .bad 5 a (engInteg s x src a))
      else copyLines x n (o + 64) (copyLine s x o)

/-- The IV of a bounce chunk (R333). -/
def bounceIv (world chan : Nat) (out : Bool) (ctr : Nat) : BitVec 96 :=
  BitVec.ofNat 96 (world % 256 * 2 ^ 88 + chan % 16 * 2 ^ 84 + (if out then 2 ^ 83 else 0) + ctr % 2 ^ 64)

/-- Bytes under the key stream. -/
def gcmText (key : BitVec 256) (iv : BitVec 96) (bs : List Byte) : List Byte :=
  (bs.zip (List.range bs.length)).map fun q => q.1 ^^^ Config.gcmPad key iv q.2

/-- Decrypted bytes written: their sectors take code 0, as host memory holds no other (R62, R333), and scratchpad granules become
full (R187). -/
def engFresh (s : State) (x : EngCmd) (c : Cap) (off : Nat) (bs : List Byte) : State :=
  ((linePieces (c.addr.toNat + off) bs.length).foldl (fun (q : State × List Byte) p =>
    (engWrite q.1 x c p.1 (q.2.take p.2) 0 0 true, q.2.drop p.2)) (s, bs)).1

/-- One 4096-byte chunk of a sealed copy (R333). -/
def bounceChunk (s : State) (x : EngCmd) (ch : BitVec 4) (out : Bool) (buf : Cap) (j : Nat) : State × EngEnd :=
  let b := mget (worldOf s x.world).t.bch ch.toNat {}
  let len := bits x.ctl 0 40
  let iv := bounceIv x.world ch.toNat out (x.c0.getD 0 + j - x.pos / 4096)
  let (from', into) := if out then (x.slot 1, buf) else (buf, x.slot 2)
  let tagK := if out then 2 else 1
  let ps := rangePlaces from' (4096 * j) 4096 1 ++ rangePlaces into (4096 * j) 4096 2 ++ rangePlaces buf (len + 16 * j) 16 tagK
  match engStops s x ps, engDenied s x 64 ps, rangeInteg s x from' (4096 * j) 4096 with
  | some l, _, _ => (s, .hold l)
  | none, some i, _ => (s, .refused i)
  | none, none, some (off, cause) => (s, .bad 5 (from'.addr.toNat + off) cause)
  | none, none, none =>
    if out then
      let (s1, text) := engLoad s x (x.slot 1) (4096 * j) 4096
      let ct := gcmText b.key iv text
      (engStore (engStore s1 x buf (4096 * j) ct) x buf (len + 16 * j) (bytesLE 16 (Config.gcmTag b.key iv ct).toNat), .done)
    else
      let (s1, ct) := engLoad s x buf (4096 * j) 4096
      let (s2, tag) := engLoad s1 x buf (len + 16 * j) 16
      if ofBytesLE tag != (Config.gcmTag b.key iv ct).toNat then (s2, .bad 5 0 0)
      else (engFresh s2 x (x.slot 2) (4096 * j) (gcmText b.key iv ct), .done)

/-- A copy that has come to offset `o`: complete, at the chunk's end, or waiting inside the chunk. -/
def copyReached (s : State) (x : EngCmd) (o : Nat) : State :=
  let len := bits x.ctl 0 40
  if len ≤ o then finishCmd s x 1 0 (some (0x30, len))
  else modCmd s x.id fun y =>
    { y with pos := o, prog := if o % 65536 == 0 then o else y.prog, c0 := y.c0.map (· + (o - x.pos) / 4096) }

/-- A 64 KiB chunk of an `ecopy`, or what of it is left (R187); one chunk of a sealed copy (R333). -/
def execEcopyChunk (id : Nat) (s : State) : Host.Outcome State Fault Refusal :=
  match cmdOf s id with
  | none => .next s
  | some x =>
    if x.kind != .copy || !x.submitted then .next s
    else .next <| turnCmd s x fun _ =>
      let top := min (bits x.ctl 0 40) ((x.pos / 65536 + 1) * 65536)
      match x.bounce with
      | some (ch, out, buf) =>
        match bounceChunk s x ch out buf (x.pos / 4096) with
        | (s1, .done) => copyReached s1 x (x.pos + 4096)
        | (s1, .hold l) => ask s1 l
        | (s1, .refused i) => finishCmd s1 x 3 i none
        | (s1, .bad code va cause) =>
          if cause != 0 then finishCmd (integLine s1 x va cause) x code (va - (x.slot 1).addr.toNat) none
          else finishCmd (modWorld s1 x.world fun r => { r with t := { r.t with
            bch := mmod r.t.bch ch.toNat {} fun b => { b with opened := false } } }) x code x.pos none
      | none =>
        match copyLines x ((top - x.pos) / 64) x.pos s with
        | (s1, o, .done) => copyReached s1 x o
        | (s1, o, .hold l) => ask (copyReached s1 x o) l
        | (s1, _, .refused i) => finishCmd s1 x 3 i none
        | (s1, o, .bad code va cause) => finishCmd (integLine s1 x va cause) x code o none

/-! ### `ered` (R66, R188) -/

/-- A NaN made canonical (R49). -/
def canonNan (v : Word) : Word := if 0x7F800000 < v.toNat % 2 ^ 31 then 0x7FC00000 else v

/-- One level of the pairwise order of R66. -/
def pairLevel : List Word → List Word
  | a :: b :: r => add32 a b :: pairLevel r
  | r => r

/-- The pairwise sum of R66: `fuel` levels. -/
def pairSum : Nat → List Word → Word
  | 0, v => canonNan (v.headD 0)
  | n + 1, v => if v.length ≤ 1 then canonNan (v.headD 0) else pairSum n (pairLevel v)

/-- The result of one element from its sources in order (R66). -/
def reduceElem (v : List Word) : Word := pairSum v.length v

/-- The source values of element `e`, or the code and cause that stop it. -/
def redRead (x : EngCmd) (e : Nat) : List (Nat × Cap) → State → State × Except (Nat × Nat × Nat) (List Word)
  | [], s => (s, .ok [])
  | (_, c) :: r, s =>
    let a := c.addr.toNat + 4 * e
    if engInteg s x c a != 0 then (s, .error (5, a, engInteg s x c a))
    else
      let (s1, v, side) := engRead s x c a 4
      if 1 < (sideFmt side).toNat then (s1, .error (6, a, 0))
      else match redRead x e r s1 with
        | (s2, .ok vs) => (s2, .ok (BitVec.ofNat 32 v :: vs))
        | (s2, .error e) => (s2, .error e)

/-- Elements reduced one after another: where it stopped, and why. -/
def redElems (x : EngCmd) : Nat → Nat → State → State × Nat × EngEnd
  | 0, e, s => (s, e, .done)
  | n + 1, e, s =>
    let dst := x.slot 1
    let a := dst.addr.toNat + 4 * e
    let ps := (dst, a, 2) :: (redSources x).map fun q => (q.2, q.2.addr.toNat + 4 * e, 1)
    match engStops s x ps, engDenied s x 4 ps with
    | some l, _ => (s, e, .hold l)
    | none, some i => (s, e, .refused i)
    | none, none => match redRead x e (redSources x) s with
      | (s1, .error (code, va, cause)) => (s1, e, .bad code va cause)
      | (s1, .ok vs) =>
        redElems x n (e + 1) (engWrite (wipeSector s1 x dst a) x dst a (bytesLE 4 (reduceElem vs).toNat) 0 1 false)

/-- The destination elements up to the next 64-byte boundary, reduced (R188, R191). -/
def execEredReduce (id : Nat) (s : State) : Host.Outcome State Fault Refusal :=
  match cmdOf s id with
  | none => .next s
  | some x =>
    if x.kind != .red || !x.submitted then .next s
    else .next <| turnCmd s x fun _ =>
      let count := bits x.ctl 0 40
      let a := (x.slot 1).addr.toNat + 4 * x.pos
      match redElems x (min (count - x.pos) ((64 - a % 64) / 4)) x.pos s with
      | (s1, e, .done) =>
        if count ≤ e then finishCmd s1 x 1 0 (some (0xA0, count)) else modCmd s1 id fun y => { y with pos := e, prog := e }
      | (s1, e, .hold l) => ask (modCmd s1 id fun y => { y with pos := e }) l
      | (s1, _, .refused i) => finishCmd s1 x 3 i none
      | (s1, e, .bad code va cause) => finishCmd (if code == 5 then integLine s1 x va cause else s1) x code e none

/-! ### `ecoll` (R189, R324) -/

/-- A run of bytes stored with one sector code, or with a code kept where it is 15; tags cleared. -/
def engStoreFmt (s : State) (x : EngCmd) (c : Cap) (off : Nat) (bs : List Byte) (fmt : BitVec 4) : State :=
  ((linePieces (c.addr.toNat + off) bs.length).foldl (fun (q : State × List Byte) p =>
    (engWrite q.1 x c p.1 (q.2.take p.2) 0 fmt false, q.2.drop p.2)) (s, bs)).1

/-- The sources of a collective that a rank reads, by rank: its own slot, the team's entries for the others (R324). -/
def collSource (x : EngCmd) (t : Team) (i : Nat) : Cap := if i == t.rank then x.slot 2 else (t.caps.getD i ({}, {})).1

/-- The ranks whose sources a rank reads. -/
def collRanks (x : EngCmd) (t : Team) : List Nat := if bits x.ctl 52 4 == 2 then [bits x.ctl 40 8] else List.range t.nrank

/-- A rank's destination written from the sources' bytes, in the order of the ranks (R189). -/
def collWrite (s : State) (x : EngCmd) (t : Team) (rows : List (List Byte)) : State :=
  let kind := bits x.ctl 52 4
  let len := bits x.ctl 0 40
  let dst := x.slot 3
  let elems := rows.map wordsLE
  let out := fun lo n => ((List.range n).flatMap fun e => bytesLE 4 (reduceElem (elems.map fun v => v.getD (lo + e) 0)).toNat)
  let m := len / (4 * t.nrank)
  if kind == 0 then engStoreFmt s x dst 0 (out 0 (len / 4)) 1
  else if kind == 3 then engStoreFmt s x dst 0 (out (t.rank * m) m) 1
  else if kind == 1 then
    -- R62 leaves the code of a gathered sector to R189, which states none: a free value among the codes written
    { engStoreFmt s x dst 0 rows.flatten (BitVec.ofNat 4 ((Config.freeWord s.nfree).toNat % 12)) with nfree := s.nfree + 1 }
  else
    let src := collSource x t (bits x.ctl 40 8)
    ((linePieces dst.addr.toNat len).foldl (fun (q : State × List Byte) p =>
      let r := engRead q.1 x src (src.addr.toNat + (p.1 - dst.addr.toNat)) 1
      (engWrite r.1 x dst p.1 (q.2.take p.2) 0 (sideFmt r.2.2) false, q.2.drop p.2)) (s, rows.headD [])).1

/-- A collective at a rank, once every other rank has issued it (R189): ranks that disagree give 0x07 (R324). -/
def execEcollRun (id : Nat) (s : State) : Host.Outcome State Fault Refusal :=
  match cmdOf s id with
  | none => .next s
  | some x => match x.team with
    | none => .next s
    | some t =>
      let len := bits x.ctl 0 40
      let others := (List.range t.nrank).filter (· != t.rank)
      if x.kind != .coll || !x.submitted then .next s
      else match blockHold s x with
      | some l => .next (ask s l)
      | none =>
      if x.cancelled then .next (finishCmd s x 2 0 none)
      else if others.any fun i => (mfind x.joins i).isNone then .next s
      else if others.any fun i => mfind x.joins i != some (joinOf x t) then .next (finishCmd s x 7 0 none)
      else
        let ranks := collRanks x t
        let ps := (ranks.flatMap fun i => rangePlaces (collSource x t i) 0 len 1) ++
          rangePlaces (x.slot 3) 0 (collBytes (bits x.ctl 52 4) len t.nrank).2 2
        match engStops s x ps, engDenied s x 64 ps with
        | some l, _ => .next (ask s l)
        | none, some i => .next (finishCmd s x 3 i none)
        | none, none => match ranks.findSome? fun i => (rangeInteg s x (collSource x t i) 0 len).map fun q => (i, q) with
          | some (i, off, cause) => .next (finishCmd (integLine s x ((collSource x t i).addr.toNat + off) cause) x 5 off none)
          | none =>
            let (s1, rows) := ranks.foldl (fun (q : State × List (List Byte)) i =>
              let r := engLoad q.1 x (collSource x t i) 0 len
              (r.1, q.2 ++ [r.2])) (s, [])
            .next (finishCmd (collWrite s1 x t rows) x 1 0 none)

end Sys2Proof.Machine
end

