-- ==== Sys2Proof/Machine/Seals.lean ====
section
/-! DEFINITION. Hallmark's work on a submitted seal command (R190, R347 to R349). -/
namespace Sys2Proof.Machine
open Sys2Proof

/-- The measurement of the producing kernel: SHA-384 of its image from the header to the end of its code, computed once per image and
kept (R348), or what keeps Hallmark from reading it. A command of a card has no producing kernel: a free value. -/
def kernelMeasure (s : State) (x : EngCmd) : State × Except EngEnd (BitVec 384) :=
  match cmdBlock s x, x.image with
  | none, _ => ({ s with nfree := s.nfree + 1 }, .ok (Config.sha384 [BitVec.ofNat 8 (Config.freeWord s.nfree).toNat]))
  | some b, none => (s, .ok ((measureOf s x.ctx b.image).getD 0))
  | some _, some i =>
    let n := capLen i
    match engStops s x (rangePlaces i 0 n 1), engDenied s x 64 (rangePlaces i 0 n 1), rangeInteg s x i 0 n with
    | some l, _, _ => (s, .error (.hold l))
    | none, some k, _ => (s, .error (.refused k))
    | none, none, some (off, cause) => (s, .error (.bad 5 (i.addr.toNat + off) cause))
    | none, none, none =>
      let (s1, bs) := engLoad s x i 0 n
      let m := Config.sha384 bs
      ({ s1 with eng := { s1.eng with measures := { ctx := x.ctx, base := capBase i, len := n, hash := m } :: s1.eng.measures } }, .ok m)

/-- The seal that an open begins. -/
def newSeal (s : State) (x : EngCmd) (key : KeySlot) (m : BitVec 384) : Seal :=
  { ctx := x.ctx, world := x.world, blk := x.who.map (·.1), gix := (x.who.map (·.2)).getD 0,
    limit := ((cmdBlock s x).map (·.spad.size)).getD 0, slot := bits (x.slot 1).addr 0 4, gen := key.gen,
    seq := BitVec.ofNat 32 key.seq, alg := BitVec.ofNat 8 (bits x.ctl 0 8), handle := (x.slot 1).addr, pblock := x.pblock.addr,
    record := x.slot 3, measure := m, secret := key.secret }

/-- Seals of a context that are open (R190). -/
def openSeals (s : State) (c : Nat) : Nat := (s.eng.seals.filter fun y => y.ctx == c && y.void.isNone).length

/-- `eseal.open` performed (R190): the key's next SEQ, the measurement, CTL.SEQ, then STATUS. -/
def execSealOpenPerform (id : Nat) (s : State) : Host.Outcome State Fault Refusal :=
  match cmdOf s id with
  | none => .next s
  | some x =>
    if x.kind != .sealOpen || !x.submitted || x.token != 0 then .next s
    else match blockHold s x with
    | some l => .next (ask s l)
    | none =>
    if x.cancelled then .next (finishCmd s x 2 0 none)
    else match handleKey s x (x.slot 1) with
      | none => .next (finishCmd s x 9 0 none)
      | some key =>
        if 2 ^ 32 ≤ key.seq || 16 ≤ openSeals s x.ctx then .next (finishCmd s x 7 0 none)
        else match kernelMeasure s x with
          | (s1, .error .done) => .next s1
          | (s1, .error (.hold l)) => .next (ask s1 l)
          | (s1, .error (.refused k)) => .next (finishCmd s1 x 3 k none)
          | (s1, .error (.bad code va cause)) =>
            .next (finishCmd (integLine s1 x va cause) x code (va - ((x.image.map capBase).getD 0)) none)
          | (s1, .ok m) =>
            let y := newSeal s1 x key m
            let s2 := modWorld s1 x.world fun r => { r with t := { r.t with
              keys := minsert r.t.keys y.slot { key with seq := key.seq + 1 } } }
            let s3 : State := { s2 with eng := { s2.eng with seals := s2.eng.seals ++ [y] } }
            .next (finishCmd (engStore s3 x x.pblock 12 (bytesLE 4 y.seq.toNat)) x 1 0 none)

/-- `eseal.commit` performed (R190, R348, R349): the frame buffer hashed whole and the record signed and written, or a
void record where a line fails its integrity check. -/
def execSealCommitPerform (id : Nat) (s : State) : Host.Outcome State Fault Refusal :=
  match cmdOf s id with
  | none => .next s
  | some x =>
    if x.kind != .sealCommit || !x.submitted then .next s
    else match blockHold s x with
    | some l => .next (ask s l)
    | none =>
    if x.cancelled then .next (finishCmd s x 2 0 none)
    else match sealOn s x with
      | none => .next (finishCmd s x (if (handleKey s x (x.slot 1)).isNone then 9 else 8) 0 none)
      | some y =>
        let f : Cap := { x.slot 2 with addr := BitVec.ofNat 64 (capBase (x.slot 2)) }
        let n := capLen f
        let ps := rangePlaces f 0 n 1 ++ rangePlaces (x.slot 3) 0 (slotBytesOf y.record y.limit) 2
        match engStops s x ps, engDenied s x 64 ps, rangeInteg s x f 0 n with
        | some l, _, _ => .next (ask s l)
        | none, some i, _ => .next (finishCmd (voidSeals s (fun z => z == y) 6) x 3 i none)
        | none, none, some (off, cause) =>
          .next (finishCmd (voidSeals (integLine s x (f.addr.toNat + off) cause) (fun z => z == y) 6) x 5 off none)
        | none, none, none =>
          let (s1, bs) := engLoad s x f 0 n
          let rec' := sealBytes y 1 0 x.ict n (Config.sha384 bs)
          let s2 := engStore s1 x (x.slot 3) 0 rec'
          let s3 : State := { s2 with eng := { s2.eng with seals := s2.eng.seals.filter fun z => z != y } }
          .next (finishCmd s3 x 1 0 none)

end Sys2Proof.Machine
end

