-- ==== Sys2Proof/Machine/Control.lean ====
section
/-! DEFINITION. Branches, splits and merges, calls and returns, wait counters, barriers and queue bindings (R72 to R86). -/
namespace Sys2Proof.Machine
open Sys2Proof

/-! ### Branches (R72, R73) -/

/-- The packet an offset away from the word's own. -/
def Op.target {n : Nat} (o : Op) (off : BitVec n) : BitVec 32 := o.sp.pc + off.signExtend 32

/-- `br`. -/
def execBr (o : BitVec 24) (s : State) : Host.Outcome State Fault Refusal :=
  issueWord (.br o) s fun w => w.jump (w.target o)

/-- A conditional branch. -/
def branchWord (i : Instr) (off : BitVec 16) (s : State) (f : Op → Bool) : Host.Outcome State Fault Refusal :=
  issueWord i s fun w => if f w then w.jump (w.target off) else w.s

/-- A flag is 1 in every active lane. -/
def allSet (o : Op) (flag : LaneMask) : Bool := flag &&& o.act == o.act
/-- A flag is 0 in every active lane. -/
def allClear (o : Op) (flag : LaneMask) : Bool := flag &&& o.act == 0

/-- `brc.eq0`. -/
def execBrcEq0 (a : BitVec 5) (o : BitVec 16) (s : State) : Host.Outcome State Fault Refusal :=
  branchWord (.brcEq0 a o) o s fun w => w.r.sc a == 0
/-- `brc.ne0`. -/
def execBrcNe0 (a : BitVec 5) (o : BitVec 16) (s : State) : Host.Outcome State Fault Refusal :=
  branchWord (.brcNe0 a o) o s fun w => w.r.sc a != 0
/-- `brc.lt0`. -/
def execBrcLt0 (a : BitVec 5) (o : BitVec 16) (s : State) : Host.Outcome State Fault Refusal :=
  branchWord (.brcLt0 a o) o s fun w => (w.r.sc a).slt 0
/-- `brc.ge0`. -/
def execBrcGe0 (a : BitVec 5) (o : BitVec 16) (s : State) : Host.Outcome State Fault Refusal :=
  branchWord (.brcGe0 a o) o s fun w => !(w.r.sc a).slt 0
/-- `brc.z`. -/
def execBrcZ (o : BitVec 16) (s : State) : Host.Outcome State Fault Refusal :=
  branchWord (.brcZ o) o s fun w => allSet w w.r.fZ
/-- `brc.nz`. -/
def execBrcNz (o : BitVec 16) (s : State) : Host.Outcome State Fault Refusal :=
  branchWord (.brcNz o) o s fun w => allClear w w.r.fZ
/-- `brc.c`. -/
def execBrcC (o : BitVec 16) (s : State) : Host.Outcome State Fault Refusal :=
  branchWord (.brcC o) o s fun w => allSet w w.r.fC
/-- `brc.nc`. -/
def execBrcNc (o : BitVec 16) (s : State) : Host.Outcome State Fault Refusal :=
  branchWord (.brcNc o) o s fun w => allClear w w.r.fC

/-! ### Calls and returns (R77 to R79) -/

/-- A spill or fill that found no translation: the group parks at the word, which has had no effect (R78). -/
def parkSlide (o : Op) (va : Nat) (need : BitVec 3) (l : Look) : State :=
  if l.isHold then stallAt (ask o.s0 l) o.k o.gix o.no (.held o.s0.gt)
  else stallAt (addProbe o.s0 o.k o.gix va need 1) o.k o.gix o.no .confirm

/-- `call` (R77). -/
def execCall (l : BitVec 3) (o : BitVec 21) (s : State) : Host.Outcome State Fault Refusal :=
  issueWord (.call l o) s fun w =>
    if 1 < w.g.splits.length then w.raise 0x04
    else if 64 ≤ w.g.stack.length then w.raise 0x05
    else if spillWaits w.g w.b.v.p (w.g.r.base + 8 * l.toNat) then stallAt w.s0 w.k w.gix w.no .settle
    else match slideUp w.s w.k w.gix (w.g.r.base + 8 * l.toNat) with
      | .ok t =>
        let t := modGroup t w.k w.gix fun g => { g with stack := (w.sp.pc + 1, 8 * l.toNat) :: g.stack }
        { modGroup t w.k w.gix (·.modSplit w.no (·.goto (w.target o))) with jumped := true }
      | .capFault => w.raise 0x07
      | .stop _ va k => parkSlide w va needW k

/-- `ret` (R79). -/
def execRet (s : State) : Host.Outcome State Fault Refusal :=
  issueWord .ret s fun w =>
    if 1 < w.g.splits.length then w.raise 0x04
    else match w.g.stack with
      | [] => w.raise 0x06
      | (pc, n) :: rest =>
        if fillWaits (w.g.windowTo (w.g.r.base - n)) then stallAt w.s0 w.k w.gix w.no .settle else
        match slideDown w.s w.k w.gix (w.g.r.base - n) with
        | .ok t =>
          let t := modGroup t w.k w.gix fun g => { g with stack := rest }
          { modGroup t w.k w.gix (·.modSplit w.no (·.goto pc)) with jumped := true }
        | .capFault => w.raise 0x07
        | .stop _ va k => parkSlide w va needR k

/-! ### Splits and merges (R74, R75) -/

/-- The numbers from 0 to 3 that no split of the group has and no transaction holds in reserve (R74, R161). -/
def freeNumbers (g : Group) : List Nat :=
  [0, 1, 2, 3].filter fun n => !(g.splits.any fun p => p.no == n) && !(g.tx.any fun (_, x) => x.rsv == n)
/-- The lowest of them. -/
def freeNumber (g : Group) : Option Nat := (freeNumbers g).head?

/-- The numbers that a new split takes: its own, and one in reserve where lanes with open transactions go with it: they keep
a reserve of their own, as R161 asks of every split with one open. -/
def splitNumbers (g : Group) (carries : Bool) : Option (Nat × Nat) :=
  match freeNumbers g, carries with
  | [], _ => none
  | n :: _, false => some (n, n)
  | n :: m :: _, true => some (n, m)
  | [_], true => none

/-- Transactions of some lanes taken to a split, with its reserve (R161). -/
def Group.moveTx (g : Group) (lanes : LaneMask) (no rsv : Nat) : Group :=
  { g with tx := g.tx.map fun (l, x) => (l, if bit lanes l then { x with split := no, rsv := rsv } else x) }

/-- `split` (R74). -/
def execSplit (a : BitVec 6) (o : BitVec 18) (s : State) : Host.Outcome State Fault Refusal :=
  issueWord (.split a o) s fun w =>
    let act := (w.g.old.map (·.act)).getD w.sp.act
    let taken := laneMask w.act fun l => w.src .S a l != 0
    let rest := act &&& ~~~taken
    if taken == 0 then w.s
    else if rest == 0 then w.jump (w.target o)
    else match splitNumbers w.g ((txOfSplit w.g w.no).any (bit taken)) with
      | none => w.raise 0x03
      | some (n, m) => w.mod fun g =>
        let g1 : Group := (g.modSplit w.no fun p => { p with mem := rest, act := rest }).moveTx taken n m
        { g1 with splits := g1.splits ++ [{ no := n, pc := w.target o, mem := taken, act := taken, fresh := true }] }

/-- A split put among those gathered, combined with one at the same packet (R75). -/
def gather (p : Split) : List Split → List Split
  | [] => [p]
  | q :: r => if q.pc == p.pc then { q with no := min q.no p.no, mem := q.mem ||| p.mem, act := q.act ||| p.act } :: r
              else q :: gather p r

/-- A split's open transactions under its number, with one reserve: the lowest that they hold (R161). -/
def Group.joinTx (g : Group) (p : Split) : Group :=
  match (g.tx.filterMap fun (l, x) => if bit p.mem l then some x.rsv else none).min? with
  | none => g
  | some r => g.moveTx p.mem p.no r

/-- Every live split waits at a `merge`: those at one packet combine, and each goes on after it (R75). -/
def resolveMerges (g : Group) : Group :=
  if !g.splits.isEmpty && g.splits.all fun p => p.wait == .merge then
    let ps := (g.splits.foldl (fun acc p => gather p acc) []).map fun p =>
      { p with pc := p.pc + 1, word := 0, wait := .none, run := none, fresh := true }
    ps.foldl Group.joinTx { g with splits := ps }
  else g

/-- Splits that wait at a `merge` or a `bar` (R83). -/
def Wait.meets : Wait → Bool
  | .bar _ => true
  | .merge => true
  | _ => false

/-- Every live split waits at a `merge` or a `bar`, and not all alike (R75, R83): the barrier-mismatch trap of the
lowest-numbered split. -/
def mismatch (g : Group) : Option TrapReq :=
  match g.splits with
  | [] => none
  | p :: r =>
    if (p :: r).all (fun q => q.wait.meets) && !(r.all fun q => q.wait == p.wait) then
      let low := r.foldl (fun a q => if q.no < a.no then q else a) p
      some { cause := 0x08, widx := low.word, resume := .at low.pc low.word, split := low.no, pkt := low.pc }
    else none

/-- What follows when a split has begun to wait or has ended (R75, R83). -/
def settleGroup (s : State) (k gix : Nat) : State :=
  let s := modGroup s k gix resolveMerges
  match (groupOf s k gix).bind mismatch with
  | some q => takeAtBoundary s k gix q
  | none => s

/-- The split waits at its word, which it has not completed (R92). -/
def Op.wait (o : Op) (w : Wait) : State := { o.modSp fun p => { p with wait := w } with jumped := true }

/-- `merge` (R75): with one split it is a `nop`. -/
def execMerge (s : State) : Host.Outcome State Fault Refusal :=
  issueWord .merge s fun w =>
    if w.g.splits.length ≤ 1 then w.s else settleGroup (w.wait .merge) w.k w.gix

/-! ### Wait counters and barriers (R80 to R83) -/

/-- `waitc` (R81). -/
def execWaitc (n : BitVec 2) (l : BitVec 6) (s : State) : Host.Outcome State Fault Refusal :=
  issueWord (.waitc n l) s fun w =>
    if ctrSeen w.g n ≤ l.toNat then w.s else w.wait (.waitc n l)

/-- `bar` (R83). -/
def execBar (n : BitVec 4) (s : State) : Host.Outcome State Fault Refusal :=
  issueWord (.bar n) s fun w => settleGroup (w.wait (.bar n)) w.k w.gix

/-- The group has ended under `done` (R193). -/
def Group.ended (g : Group) : Bool := g.splits.isEmpty && g.tmode.isNone

/-- Live splits that all wait at barrier n (R83). -/
def atBar (n : BitVec 4) (ps : List Split) : Bool := !ps.isEmpty && ps.all fun p => p.wait == .bar n

/-- The group has arrived at barrier n (R83). In trap mode the splits of its handler arrive as any others do, and an arrival
that stood at trap entry stands (R92). -/
def arrived (n : BitVec 4) (g : Group) : Bool :=
  g.ended || atBar n g.splits || (g.tmode.map fun v => atBar n v.splits).getD false

/-- The loads and stores of a group have been performed or can be (R237): none is unconfirmed, parked, or behind one that
is; deliveries of `redm` are not waited for. -/
def performable (g : Group) : Bool :=
  g.out.all fun p => p.redm || p.probe ||
    (p.flt.isEmpty && ((p.ctr != .ld && p.ctr != .st) || g.settled.any fun q => q.id == p.id))

/-- Splits past barrier n, if all of them have arrived at it. -/
def passBar (n : BitVec 4) (ps : List Split) : List Split := if atBar n ps then ps.map (·.pass) else ps

/-- A group past barrier n, at the time that the barrier gives it: its splits, and in trap mode those that the entry saved. -/
def leaveBar (n : BitVec 4) (t : Nat) (g : Group) : Group :=
  let g1 : Group := g.raise t
  { g1 with splits := passBar n g1.splits, tmode := g1.tmode.map fun v => { v with splits := passBar n v.splits } }

/-- A barrier completes (R83, R237). A group that `done` has ended counts as arrived and gives the barrier no time, a point on which
the spec is silent (DESIGN CHOICE, log 140). -/
def execBarrierComplete (blk bar : Nat) (s : State) : Host.Outcome State Fault Refusal :=
  match blockOf s blk with
  | none => .next s
  | some b =>
    let n := BitVec.ofNat 4 bar
    if b.groups.all (arrived n) && (b.groups.any fun g => !g.ended) && b.groups.all performable then
      let s := (List.range b.groups.length).foldl (fun s i =>
        placeStores s blk i (((groupOf s blk i).map (·.nextId)).getD 0)) s
      .next (modBlock s blk fun b =>
        let t := b.groups.foldl (fun t g => if g.ended then t else max t g.pts) 0
        { b with groups := b.groups.map fun g => if g.ended then g else leaveBar n t g })
    else .next s

/-! ### Queue bindings (R85) -/

/-- A code bound to a channel of the block. -/
def bindWord (i : Instr) (q : BitVec 2) (h : BitVec 4) (push : Bool) (s : State) : Host.Outcome State Fault Refusal :=
  issueWord i s fun w =>
    if w.b.v.q ≤ h.toNat then w.raise 0x09
    else w.mod fun g => { g with qb := minsert g.qb q.toNat { push := push, chan := h.toNat } }

/-- `qbind.push`. -/
def execQbindPush (q : BitVec 2) (h : BitVec 4) (s : State) : Host.Outcome State Fault Refusal :=
  bindWord (.qbindPush q h) q h true s
/-- `qbind.pop`. -/
def execQbindPop (q : BitVec 2) (h : BitVec 4) (s : State) : Host.Outcome State Fault Refusal :=
  bindWord (.qbindPop q h) q h false s
/-- `qbind.unbind`. -/
def execQbindUnbind (q : BitVec 2) (s : State) : Host.Outcome State Fault Refusal :=
  issueWord (.qbindUnbind q) s fun w => w.mod fun g => { g with qb := merase g.qb q.toNat }

end Sys2Proof.Machine
end

