-- ==== Sys2Proof/Machine/Time.lean ====
section
/-! DEFINITION. Context time: reading it, alarms, waits, and arrivals (R195 to R198, R282 to R288, R311, R312). -/
namespace Sys2Proof.Machine
open Sys2Proof

/-! ### The words of major 0x7A -/

/-- A deadline no later than 62 bits hold (R196). -/
def deadline (ct n : Nat) : Nat := min (ct + n) (2 ^ 62 - 1)

/-- `ctal` armed, fired, or plain at a deadline (R201). -/
def alarmWord (armed fired : Bool) (dl : Nat) : DWord :=
  BitVec.ofNat 64 ((if armed then 2 ^ 63 else 0) + (if fired then 2 ^ 62 else 0) + dl % 2 ^ 62)
/-- The alarm is armed. -/
def alarmArmed (v : DWord) : Bool := v.getLsbD 63
/-- The alarm's deadline. -/
def alarmDl (v : DWord) : Nat := bits v 0 62

/-- `ctread` (R195). -/
def execCtread (s' : BitVec 5) (s : State) : Host.Outcome State Fault Refusal :=
  issueWord (.ctread s') s fun o => o.modR fun r => r.putSc s' (BitVec.ofNat 64 (o.ct))

/-- `ctarm` (R196). -/
def execCtarm (s' : BitVec 5) (s : State) : Host.Outcome State Fault Refusal :=
  issueWord (.ctarm s') s fun o =>
    let n := (o.r.sc s').toNat
    let armed := alarmWord true false (deadline (o.ct) n)
    o.mod fun g =>
      let clear := alarmWord false (g.tr.ctal.getLsbD 62) (alarmDl g.tr.ctal)
      { g with tr := { g.tr with ctal := if n == 0 then clear else armed } }

/-- `ctwait` (R197). -/
def execCtwait (s' : BitVec 5) (s : State) : Host.Outcome State Fault Refusal :=
  issueWord (.ctwait s') s fun o =>
    let n := (o.r.sc s').toNat
    o.wait (.ctwait (if n == 0 then none else some (deadline (o.ct) n)))

/-- A window changed. -/
def modWin (s : State) (n : Nat) (f : Window → Window) : State :=
  { s with fab := { s.fab with wins := mmod s.fab.wins n {} f } }

/-- `ctwait.peer` (R198, R287, R288): a k that is no window capability takes kind perm (R322). -/
def execCtwaitPeer (s' : BitVec 5) (k : BitVec 4) (s : State) : Host.Outcome State Fault Refusal :=
  issueWord (.ctwaitPeer s' k) s fun o =>
    let c := o.r.kreg k
    match (if !c.tag || !isUnsealed c || isSpad c then none else windowAt o.s o.b.ctx (capBase c)) with
    | none => addCapTrap o.s o.k o.gix o.no o.capReq (addKind {} .perm o.act)
    | some n => o.wait (.ctpeer n (o.ct) (o.r.sc s').toNat 0 (mget o.s.fab.wins n {}).paused)

/-! ### Waits that end -/

/-- A split waits in `ctwait` or `ctwait.peer`. -/
def Wait.isCt : Wait → Bool
  | .ctwait _ => true
  | .ctpeer _ _ _ _ _ => true
  | .none => false
  | .bar _ => false
  | .merge => false
  | .waitc _ _ => false
  | .fence _ _ _ _ => false
  | .chan _ _ => false
  | .granule _ => false
  | .counter _ => false
  | .confirm => false
  | .held _ => false
  | .settle => false
  | .order _ _ _ => false
  | .switchPt _ _ => false
  | .rett => false

/-- The splits of a list whose wait `p` picks go past their waiting word. -/
def passWhere (p : Wait → Bool) (ss : List Split) : List Split := ss.map fun x => if p x.wait then x.pass else x

/-- A group of the context can meet its clock: running, or halting and not halted yet (R268, R285). -/
def ctLive (s : State) (b : Block) (g : Group) : Bool :=
  let st := (ctxOf s b.ctx).st
  b.onCore && g.halt == .no && (st == 1 || st == 2)

/-- The alarm is due (R196). -/
def alarmDue (s : State) (b : Block) (g : Group) : Bool :=
  ctLive s b g && alarmArmed g.tr.ctal && alarmDl g.tr.ctal ≤ ctOf s b.ctx

/-- The lowest-numbered live split. -/
def Group.low (g : Group) : Option Split :=
  match g.splits with
  | [] => none
  | p :: r => some (r.foldl (fun a q => if q.no < a.no then q else a) p)

/-- The alarm trap of a group (R196, R204). -/
def alarmReq (p : Split) : TrapReq := { cause := 0x12, widx := p.word, resume := .next, split := p.no, pkt := p.pc }

/-- A due alarm fires (R196): FIRED set; every ctwait of the group ends, or the trap is taken, or held in trap mode. -/
def fireAlarm (s : State) (blk gix : Nat) : State :=
  match blockOf s blk with
  | none => s
  | some b => match b.groups[gix]? with
    | none => s
    | some g =>
      if !alarmDue s b g then s
      else
        let s := modGroup s blk gix fun g => { g with tr := { g.tr with ctal := alarmWord false true (alarmDl g.tr.ctal) } }
        if g.splits.any fun p => p.wait.isCt then
          modGroup s blk gix fun g => { g with splits := passWhere Wait.isCt g.splits }
        else if g.tmode.isSome || g.pend.isSome then modGroup s blk gix fun g => { g with heldAlarm := true }
        else match g.low with
          | none => s
          | some p => takeAtBoundary s blk gix (alarmReq p)

/-- The alarm of a group fires. -/
def execAlarmFire (blk gix : Nat) (s : State) : Host.Outcome State Fault Refusal := .next (fireAlarm s blk gix)

/-- A wait's own count is reached at a context time (R197, R287). -/
def Wait.reached (ct : Nat) : Wait → Bool
  | .ctwait (some d) => d ≤ ct
  | .ctwait Option.none => false
  | .ctpeer _ issue want stopped paused => !paused && want ≤ ct - issue - stopped
  | .none => false
  | .bar _ => false
  | .merge => false
  | .waitc _ _ => false
  | .fence _ _ _ _ => false
  | .chan _ _ => false
  | .granule _ => false
  | .counter _ => false
  | .confirm => false
  | .held _ => false
  | .settle => false
  | .order _ _ _ => false
  | .switchPt _ _ => false
  | .rett => false

/-- A split's wait has reached its count. -/
def deadlineDue (s : State) (b : Block) (g : Group) (p : Split) : Bool :=
  ctLive s b g && p.wait.reached (ctOf s b.ctx)

/-- Context time reaches the deadline of a `ctwait`, or the count of a `ctwait.peer` (R197, R287). -/
def execCtwaitDeadline (blk gix split : Nat) (s : State) : Host.Outcome State Fault Refusal :=
  match blockOf s blk with
  | none => .next s
  | some b => match b.groups[gix]? with
    | none => .next s
    | some g => match g.split split with
      | none => .next s
      | some p => if deadlineDue s b g p then .next (modGroup s blk gix fun g => g.modSplit split (·.pass)) else .next s

/-! ### Arrivals (R282 to R284) -/

/-- Notifications not yet delivered merge into one entry (R283). -/
def mergeBell : List Arrival → Option (List Arrival)
  | [] => none
  | a :: r =>
    if a.kind == 1 then some ({ a with data := if a.data == BitVec.allOnes 32 then a.data else a.data + 1 } :: r)
    else (mergeBell r).map (a :: ·)

/-- An arrival offered to a context's queue: a full queue makes it wait at its source (R284). -/
def Ctx.offer (x : Ctx) (a : Arrival) : Ctx :=
  if x.aq.length < 256 && x.waiting.isEmpty then { x with aq := x.aq ++ [a] } else { x with waiting := x.waiting ++ [a] }

/-- An arrival of any kind but a message reaches its context (R283, R284). -/
def Ctx.arrive (x : Ctx) (a : Arrival) : Ctx :=
  if a.kind == 1 then
    match mergeBell x.aq, mergeBell x.waiting with
    | some q, _ => { x with aq := q }
    | none, some q => { x with waiting := q }
    | none, none => x.offer a
  else x.offer a

/-- The arrival in a context's queue. -/
def arrive (s : State) (c : Nat) (a : Arrival) : State := modCtx s c (·.arrive a)

/-- The delivered entry leaves the queue, and the oldest waiting one takes a place. -/
def Ctx.popArrival (x : Ctx) : Ctx :=
  match x.waiting with
  | [] => { x with aq := x.aq.drop 1 }
  | a :: r => { x with aq := x.aq.drop 1 ++ [a], waiting := r }

/-- A write of CXBELL (R283): discarded where the world does not own the block (R266). -/
def execHostNotification (world ctx : Nat) (s : State) : Host.Outcome State Fault Refusal :=
  if ctx < Config.contexts && !silenced s world && (world == 0 || world == (ctxOf s ctx).world) then
    .next (arrive s ctx { kind := 1, src := 0, data := 1 })
  else .next s

/-- A context as a party of memory for the hardware's own accesses. -/
def hwWho (s : State) (c : Nat) : Who := { core := 0, ctx := c, world := (ctxOf s c).world, tag := sealTag s (ctxOf s c).world }

/-- What the hardware finds at an address of a context: a value, no access, or a line that waits and has been asked for (R330). -/
inductive Got (α : Type) where
  | val (x : α)
  | bad
  | waits
deriving DecidableEq, Repr

/-- A range of a context's virtual space translated for the hardware, which keeps no copies of its lines. -/
def hwResolve (s : State) (c : Nat) (need : BitVec 3) (va n : Nat) : State × Got (List (Spot × Nat)) :=
  match resolvePieces (hwWho s c) need s (linePieces va n) with
  | (s1, .ok ps) => (s1, .val (ps.map fun q => ({ q.1 with cache := false }, q.2)))
  | (s1, .error (_, l)) => (s1, if l.isHold then .waits else .bad)

/-- The host's answers for a range are used up, once all that its reader needs has been read (R330). -/
def useRange (s : State) (c va n : Nat) : State :=
  if s.mem.snooped.isEmpty then s
  else match hwResolve s c needR va n with
    | (_, .val ps) => modMem s fun m => ps.foldl (fun m q => useAnswer m q.1.pa) m
    | (_, .bad) => s
    | (_, .waits) => s

/-- A 64-bit word of a context's virtual space; `useRange` uses its answers up. -/
def hwWord (s : State) (c va : Nat) : State × Got Nat :=
  match hwResolve s c needR va 8 with
  | (s1, .val ps) =>
    let r := loadPieces (hwWho s c) s1.mem 0 ps
    ({ s1 with mem := { r.1 with snooped := s1.mem.snooped, got := s1.mem.got } }, .val (ofBytesLE r.2.2))
  | (s1, .bad) => (s1, .bad)
  | (s1, .waits) => (s1, .waits)

/-- Words stored to a context's virtual space at one time no earlier than `t`, which comes with it (R242). -/
def hwStore (s : State) (c va : Nat) (ws : List DWord) (t : Nat) : State × Option Nat :=
  match hwResolve s c needW va (8 * ws.length) with
  | (s1, .val ps) =>
    let t := piecesTime s1.mem t ps
    (storeOut s1 (hwWho s c) t (ws.flatMap fun x => bytesLE 8 x.toNat) ps, some t)
  | (s1, .bad) => (s1, none)
  | (s1, .waits) => (s1, none)

/-! ### Granules that a sweep checks (R359) -/

/-- A revocation block changed. -/
def modRv (s : State) (c : Nat) (f : Rv → Rv) : State := modCtx s c fun x => { x with rv := f x.rv }

/-- Tags counted for the sweep of a context. -/
def addCleared (s : State) (c n : Nat) : State := modRv s c fun r => { r with count := r.count + BitVec.ofNat 32 n }

/-- A granule of memory checked (R359): a revoked tag is cleared at the granule's home; one that cannot be reached is left. Where its
line or the map's waits, it is not checked yet. -/
def sweepGranule (s : State) (c va : Nat) : State × Bool :=
  match hwResolve s c needRW va 16 with
  | (s1, .val ((p, _) :: _)) =>
    let cap := memCap s1.mem p.pa
    if !cap.tag || integOf s1.mem (sealTag s1 (ctxOf s1 c).world) p.pa != 0 then (s1, true)
    else match checkMap s1 c [cap] with
      | (s2, false) => (s2, false)
      | (s2, true) =>
        if !revokedBy (mapMarked s2 c) cap then (s2, true)
        else
          let t := (lineAt s2.mem p.pa).2 + 1
          (addCleared (modMem s2 fun m => putLine (putSide m p.pa (sideWithTag (sideAt m p.pa) p.pa false)) p.pa (t, t)) c 1, true)
  | (s1, .val []) => (s1, true)
  | (s1, .bad) => (s1, true)
  | (s1, .waits) => (s1, false)

/-- The record of an arrival written to the event ring, then TAIL after a release (R282): the time of TAIL's write, which lies
past the record's, or none when the ring cannot take it. -/
def ringArrival (s : State) (c : Nat) (a : Arrival) (stamp : Nat) : State × Option Nat :=
  let r := (ctxOf s c).evring
  let base := capBase r
  match (if r.tag && isUnsealed r && hasPerm r (pLD ||| pST) then ringCount (capLen r) 16 else none) with
  | none => (s, none)
  | some n =>
    match hwWord s c base with
    | (s1, .bad) => (s1, none)
    | (s1, .waits) => (s1, none)
    | (s1, .val tail) =>
      match hwWord s1 c (base + 8) with
      | (s2, .bad) => (s2, none)
      | (s2, .waits) => (s2, none)
      | (s2, .val head) =>
        if (tail + 2 ^ 64 - head) % 2 ^ 64 == n then (s2, none)
        else match hwStore s2 c (base + 64 + 16 * (tail % n))
            [BitVec.ofNat 64 stamp, BitVec.ofNat 64 (a.kind.toNat * 2 ^ 56 + a.src.toNat * 2 ^ 44 + a.data.toNat)] 0 with
          | (s3, none) => (s3, none)
          | (s3, some t) => hwStore s3 c base [BitVec.ofNat 64 (tail + 1)] t

/-- A `ctwait.peer` on the window of a pause or resume notice takes it (R287). -/
def Wait.notice (ct : Nat) (a : Arrival) (same : Nat → Bool) (w : Wait) : Wait :=
  match w with
  | .ctpeer win issue want stopped paused =>
    if a.kind == 4 && same win then .ctpeer win issue want stopped true
    else if a.kind == 5 && same win then .ctpeer win issue want (min (stopped + a.delta) (ct - issue)) false
    else .ctpeer win issue want stopped paused
  | w => w

/-- The waits that a delivery ends: every one, but for `ctwait.peer` on the window of a pause or resume notice. -/
def Wait.endedBy (a : Arrival) (same : Nat → Bool) : Wait → Bool
  | .ctwait _ => true
  | .ctpeer win _ _ _ _ => !((a.kind == 4 || a.kind == 5) && same win)
  | .none => false
  | .bar _ => false
  | .merge => false
  | .waitc _ _ => false
  | .fence _ _ _ _ => false
  | .chan _ _ => false
  | .granule _ => false
  | .counter _ => false
  | .confirm => false
  | .held _ => false
  | .settle => false
  | .order _ _ _ => false
  | .switchPt _ _ => false
  | .rett => false

/-- A window leads to the context of another window's target, and is open (R286). -/
def sameTarget (s : State) (n m : Nat) : Bool :=
  let x := mget s.fab.wins n {}
  let y := mget s.fab.wins m {}
  n == m || (x.node == y.node && x.rctx == y.rctx && y.opened)

/-- A notice stands, or has been answered, for every window of its holder that leads to its sender (R286, R287). -/
def pauseWins (s : State) (n : Nat) (b : Bool) : State :=
  let c := (mget s.fab.wins n {}).ctx
  { s with fab := { s.fab with wins := s.fab.wins.map fun (m, w) =>
      (m, if w.ctx == c && sameTarget s n m then { w with paused := b } else w) } }

/-- A group that a delivery meets (R197, R284, R287, R312): a wait that an arrival ends acquires at package scope. Waits
of splits that a trap halted end too (R92, R311). -/
def Group.deliver (g : Group) (s : State) (ct t : Nat) (a : Arrival) : Group :=
  let same := fun m => (a.win.map (sameTarget s · m)).getD false
  let step : List Split → List Split := fun ss =>
    passWhere (·.endedBy a same) (ss.map fun p => { p with wait := p.wait.notice ct a same })
  let woken := (g.splits ++ (g.tmode.map (·.splits)).getD []).any fun p => p.wait.endedBy a same
  let g1 : Group := { g with splits := step g.splits, tmode := g.tmode.map fun v => { v with splits := step v.splits } }
  if woken then g1.raise t else g1

/-- The first entry of a context's queue delivered with a stamp: the state, and whether the ring took it (R284). -/
def deliverOne (s : State) (c stamp : Nat) : State × Bool :=
  match (ctxOf s c).aq with
  | [] => (s, false)
  | a :: _ =>
    match ringArrival s c a stamp with
    | (s1, none) => (s1, false)
    | (s1, some t) =>
      let s2 := modCtx s1 c (·.popArrival)
      let s3 := match a.win with
        | some n => if a.kind == 4 then pauseWins s2 n true else if a.kind == 5 then pauseWins s2 n false else s2
        | none => s2
      ({ s3 with blocks := s3.blocks.map fun kb =>
          (kb.1, if kb.2.ctx == c then { kb.2 with groups := kb.2.groups.map (·.deliver s3 stamp t a) } else kb.2) }, true)

/-- Every queued arrival that the ring can take, delivered (R281, R284). -/
def deliverArrivals (c stamp : Nat) : Nat → State → State
  | 0, s => s
  | n + 1, s => match deliverOne s c stamp with
    | (s1, true) => deliverArrivals c stamp n s1
    | (s1, false) => s1

/-- What has reached a halting context in a tick that was not its T_f, delivered as the tick ends, with its stamp (R284, R292). -/
def deliverHalting (s : State) : State :=
  (s.ctxs.filter fun (_, x) => x.st == 2).foldl (fun s (c, x) => deliverArrivals c (ctOf s c) (x.aq.length + x.waiting.length) s) s

/-- An arrival delivered while its context runs (R284). Whether a halting context's is held is known when the tick is over. -/
def execArrivalDelivery (ctx : Nat) (s : State) : Host.Outcome State Fault Refusal :=
  .next (if (ctxOf s ctx).st == 1 then (deliverOne s ctx (ctOf s ctx)).1 else s)

/-- A pause or resume notice of a window's target reaches the holder (R286): DATA of the first is the number of the stop, of the
second as much of the ticks stopped as 32 bits hold (R283). -/
def takeNotice (s : State) (n : Nat) (resume : Bool) (num ticks : Nat) : State :=
  let w := mget s.fab.wins n {}
  let data := BitVec.ofNat 32 (if resume then min ticks (2 ^ 32 - 1) else num)
  if w.opened then arrive s w.ctx { kind := if resume then 5 else 4, src := BitVec.ofNat 12 w.rctx, data := data, win := some n, delta := ticks }
  else s

end Sys2Proof.Machine
end

