-- ==== Sys2Proof/Machine/System.lean ====
section
/-! DEFINITION. System words: `trap`, `rett`, `fence`, `setpl` and the mode registers (R199 to R206, R277). -/
namespace Sys2Proof.Machine
open Sys2Proof

/-! ### Traps -/

/-- `trap` (R205): its packet's earlier words stand, and the resume packet is the next. -/
def execTrap (n : BitVec 16) (s : State) : Host.Outcome State Fault Refusal :=
  issueWord (.trap n) s fun o =>
    let s1 := o.modSp fun p => { p with pc := p.pc + 1, word := 0, run := none, did := [] }
    { takeAtBoundary s1 o.k o.gix { o.req 0x13 with detail := n, resume := .at (o.sp.pc + 1) 0 } with jumped := true }

/-- A split as `rett` sets it going: its next packet is the first that it executes (R33), unless it stands at a word. -/
def Split.restored (p : Split) : Split := { p with fresh := p.word == 0 && p.wait == .none }

/-- The splits that `rett` restores (R206): the raising split at `trpc` with `trmask`, or ended; where `trpc` still holds
the recorded point, the split goes on from its saved place. -/
def rettSplits (v : TrapSave) (t : TrapRegs) : List Split :=
  let pc := BitVec.ofNat 32 (bits t.trpc 0 32)
  let wd := bits t.trpc 32 2
  v.splits.filterMap fun p =>
    if p.no == v.raiser then
      let act := t.trmask &&& p.mem
      if act == 0 then none
      else if (pc, wd) == v.point then some { p with act := act }.restored
      else some { p with pc := pc, word := wd, wait := .none, act := act, run := none }.restored
    else some p.restored

/-- A group whose pre-emption handler has ended, its save complete (R277, R278): the control state of the freeze
instant, with the resume point that `trpc` holds. -/
def endHandler (g : Group) : Group :=
  let pc := BitVec.ofNat 32 (bits g.tr.trpc 0 32)
  let wd := bits g.tr.trpc 32 2
  -- what the handler's loads still deliver is gone with its registers
  let saved : Group := { g with halt := .saved, tmode := none, tx := [], old := none,
                                out := g.out.map (fun p => { p with dest := .none }) ++ (g.pre.map (·.parked)).getD [] }
  if g.splits.isEmpty then { saved with pre := none }
  else match g.pre, g.tmode with
    | some x, some v =>
      { saved with
        r := x.r.noLatches, stack := x.stack, lo := x.lo, hi := x.hi, qb := x.qb, pat := x.pat, cycQ := x.cycQ, pts := x.pts,
        tr := { g.tr with ctal := x.ctal }, pre := none,
        splits := x.splits.map fun p =>
          if p.no == v.raiser && (pc, wd) != v.point then { p with pc := pc, word := wd, wait := .none } else p }
    | some x, none =>
      { saved with
        r := x.r.noLatches, stack := x.stack, lo := x.lo, hi := x.hi, qb := x.qb, pat := x.pat, cycQ := x.cycQ, pts := x.pts,
        tr := { g.tr with ctal := x.ctal }, pre := none, splits := x.splits }
    | none, _ => saved

/-- The scratchpad bytes that a handler keeps (R277): s1[20:0] rounded up, at most the variant's. -/
def keepBytes (b : Block) (g : Group) : Nat := min (roundUp (bits (g.r.sc 1) 0 21) 4096) b.v.spad

/-- A handler that ends by `rett`, or whose splits have all ended (R276, R277). -/
def finishHandler (s : State) (k gix : Nat) : State :=
  modBlock s k fun b =>
    let n := match b.groups[gix]? with
      | some g => if g.splits.isEmpty then 0 else keepBytes b g
      | none => 0
    { b.modGroup gix endHandler with keep := max b.keep n }

/-- A group whose splits `rett` has restored: a trap that waits is taken, then a held alarm; with neither, waits at merges
and barriers are looked at again (R75, R83, R92, R206). -/
def afterRett (s : State) (k gix : Nat) (held : Bool) : State :=
  let s := match (if held then (groupOf s k gix).bind Group.low else none) with
    | some p => modGroup s k gix (·.await (alarmReq p))
    | none => s
  match (groupOf s k gix).bind Group.pendDue with
  | some q => takeAtBoundary s k gix q
  | none => settleGroup s k gix

/-- A group out of trap mode: its window at the base saved at entry, its splits restored (R206). -/
def Group.restored (g : Group) (v : TrapSave) : Group :=
  let h := g.windowTo v.base
  { h with tmode := none, splits := rettSplits v g.tr, r := h.r.noLatches, heldAlarm := false }

/-- A group leaves trap mode (R206): its splits restored and its window filled, what waits for that taken. A fill that fails its
capability check is a fault of trap mode (R203); a translation fault comes after it, and parks the group (R309). -/
def leaveTrap (s : State) (k gix : Nat) (v : TrapSave) : State :=
  match groupWith s k gix with
  | none => s
  | some (b, g) =>
    if fillsBad b g v.base then endContext s b.ctx none true 0x07 ((g.low.map (·.pc)).getD 0)
    else afterRett (fillOn (modGroup s k gix (·.restored v)) k gix) k gix g.heldAlarm

/-- What follows when a split of a group in trap mode waits at a `rett` or has ended (R206, R276). -/
def settleRett (s : State) (k gix : Nat) : State :=
  match groupOf s k gix with
  | none => s
  | some g => match g.tmode with
    | none => s
    | some v =>
      if g.splits.all fun p => p.wait == .rett then
        if v.preempt then finishHandler s k gix
        else if g.splits.isEmpty then modGroup s k gix fun g => { g with tmode := none }
        else leaveTrap s k gix v
      else s

/-- Every group of a block has ended (R193). -/
def allEnded (b : Block) : Bool := b.groups.all Group.ended

/-- A group that has ended holds no band (R246); with the last one the block's open seals are void (R190). -/
def endedGroup (s : State) (k gix : Nat) : State :=
  let s := modGroup s k gix fun g => if g.ended then { g with band := none } else g
  match blockOf s k with
  | some b => if allEnded b then voidSeals s (fun x => x.blk == some k) 3 else s
  | none => s

/-- `rett` (R206). -/
def execRett (s : State) : Host.Outcome State Fault Refusal :=
  issueWord .rett s fun o =>
    if o.g.tmode.isNone then o.raise 0x01 else endedGroup (settleRett (o.wait .rett) o.k o.gix) o.k o.gix

/-! ### `fence` (R199) -/

/-- The dirty lines of a block's stash: region and line. -/
def dirtyLines (b : Block) : List (Nat × Nat) :=
  (b.stash.zip (List.range b.stash.length)).flatMap fun (r, i) =>
    ((List.range (r.len / 64)).filter fun n => r.dirty.any fun (q, _) => q / 64 == n).map fun n => (i, n)

/-- The fence's stash write-backs: a scope wider than `.block` with kind st. -/
def fenceFlushes (e : BitVec 3) (t : BitVec 4) : Bool := t.getLsbD 1 && 2 ≤ e.toNat

/-- A split at a fence (R199, R243). Once the accesses of the named kinds are done, its group's dirty stash bytes are written
back, and then it goes on; until then it waits. The state, and whether it goes on. -/
def fenceStep (s : State) (k gix no : Nat) (e : BitVec 3) (t : BitVec 4) (upto : Nat) (flushed : Bool) : State × Bool :=
  let wait : State → Bool → State × Bool := fun s f => (modGroup s k gix (·.modSplit no fun p => { p with wait := .fence e t upto f }), false)
  match groupWith s k gix with
  | none => (s, true)
  | some (b, g) =>
    if !fenceDone g e t upto || flushing g no then wait s flushed
    else
      let s1 := if fenceFlushes e t && !flushed && !(groupDirty b gix).isEmpty then
          startFlush s k gix { id := 0, ctr := .free, split := no, pkt := ((g.split no).map (·.pc)).getD 0, lines := groupDirty b gix }
        else s
      if (groupOf s1 k gix).any (flushing · no) then wait s1 true else (fencePass s1 k gix e t, true)

/-- `fence` (R199, R243): the split goes on once the accesses of the named kinds are done. -/
def execFence (e : BitVec 3) (t : BitVec 4) (s : State) : Host.Outcome State Fault Refusal :=
  issueWord (.fence e t) s fun o =>
    match fenceStep o.s o.k o.gix o.no e t o.g.nextId false with
    | (s1, true) => s1
    | (s1, false) => { s1 with jumped := true }

/-! ### `setpl` (R200) -/

/-- `setpl`. -/
def execSetpl (a : BitVec 5) (s : State) : Host.Outcome State Fault Refusal :=
  issueWord (.setpl a) s fun o =>
    evalLevels (modCtx o.s o.b.ctx fun x => { x with plreq := BitVec.ofNat 3 (min 7 (o.r.sc a).toNat) })

/-! ### Mode registers (R51, R201) -/

/-- `fpm` as a write leaves it (R51). -/
def fpmStore (v : DWord) : DWord :=
  let rm := if v.toNat % 8 == 0 || 6 ≤ v.toNat % 8 then 1 else v.toNat % 8
  BitVec.ofNat 64 (bits v 16 16 * 2 ^ 16 + bits v 4 2 * 16 + rm)

/-- `trpc` as a write leaves it (R201). -/
def trpcStore (v : DWord) : DWord :=
  let wd := if bits v 32 2 == 3 then 0 else bits v 32 2
  BitVec.ofNat 64 (bits v 0 32 + wd * 2 ^ 32)

/-- The value of a mode register. -/
def modeValue (o : Op) (r : BitVec 6) : DWord :=
  let t := o.g.tr
  match r.toNat with
  | 0 => o.r.fpm
  | 1 => t.tvec
  | 2 => t.trcause
  | 3 => t.trpc
  | 4 => t.trmask
  | 5 => t.kinds.tag
  | 6 => t.kinds.sealed
  | 7 => t.kinds.perm
  | 8 => t.kinds.bnd
  | 9 => t.kinds.align
  | 10 => t.kinds.fmt
  | 11 => t.rowprog.setWidth 64
  | 12 => t.ctal
  | _ => BitVec.ofNat 64 ((wingSt o.s (wingOf o.b.core)).pl % 8 * 256 + (ctxOf o.s o.b.ctx).plreq.toNat)

/-- `mode`, from a mode register (R201). -/
def execModeRead (s' : BitVec 5) (r : BitVec 6) (s : State) : Host.Outcome State Fault Refusal :=
  issueWord (.modeRead s' r) s fun o =>
    if 14 ≤ r.toNat then o.raise 0x01 else o.modR fun q => q.putSc s' (modeValue o r)

/-- `mode`, to a mode register (R201): the read-only registers, and the trap registers outside trap mode, are illegal. -/
def execModeWrite (s' : BitVec 5) (r : BitVec 6) (s : State) : Host.Outcome State Fault Refusal :=
  issueWord (.modeWrite s' r) s fun o =>
    let v := o.r.sc s'
    match r.toNat with
    | 0 => o.modR fun q => { q with fpm := fpmStore v }
    | 1 => o.mod fun g => { g with tr := { g.tr with tvec := v &&& 0x80000000FFFFFFFF } }
    | 3 => if o.g.tmode.isNone then o.raise 0x01 else o.mod fun g => { g with tr := { g.tr with trpc := trpcStore v } }
    | 4 => if o.g.tmode.isNone then o.raise 0x01 else o.mod fun g => { g with tr := { g.tr with trmask := v &&& allLanes o.W } }
    | _ => o.raise 0x01

end Sys2Proof.Machine
end

