-- ==== Sys2Proof/Machine/Place.lean ====
section
/-! DEFINITION. Launch descriptors, image headers, and where a variant fits (R207, R209, R210, R216, R219, R221, R249, R258,
R259, R279, R373). -/
namespace Sys2Proof.Machine
open Sys2Proof

/-! ### Capabilities and words in a context's space -/

/-- A granule of a context's virtual space with its tag. -/
def hwCap (s : State) (c va : Nat) : State × Got Cap :=
  match hwResolve s c needR va 16 with
  | (s1, .val (p :: _)) =>
    let d := viewLine s1.mem (hwWho s1 c).tag p.1.pa
    (s1, .val (fabCap p.1 (ofCapBits (sideTag (sideAt s1.mem p.1.pa) p.1.pa) (BitVec.ofNat 128 (lineNat d (p.1.pa % 64) 16)))))
  | (s1, .val []) => (s1, .bad)
  | (s1, .bad) => (s1, .bad)
  | (s1, .waits) => (s1, .waits)

/-- Consecutive items of `size` bytes, each read by `get`. -/
def hwList {α : Type} (get : State → Nat → State × Got α) (size : Nat) : Nat → Nat → State → State × Got (List α)
  | 0, _, s => (s, .val [])
  | n + 1, va, s =>
    match get s va with
    | (s1, .bad) => (s1, .bad)
    | (s1, .waits) => (s1, .waits)
    | (s1, .val x) =>
      match hwList get size n (va + size) s1 with
      | (s2, .val xs) => (s2, .val (x :: xs))
      | (s2, .bad) => (s2, .bad)
      | (s2, .waits) => (s2, .waits)

/-- Consecutive granules. -/
def hwCaps (c n va : Nat) (s : State) : State × Got (List Cap) := hwList (hwCap · c) 16 n va s

/-- Consecutive 64-bit words. -/
def hwWords (c n va : Nat) (s : State) : State × Got (List Nat) := hwList (hwWord · c) 8 n va s

/-- An unsealed virtual capability that grants rights over its first `n` bytes from its cursor. -/
def slotGood (c : Cap) (need : BitVec 12) (n : Nat) : Bool :=
  c.tag && isUnsealed c && !isSpad c && hasPerm c need && capBase c ≤ c.addr.toNat && c.addr.toNat + n ≤ capBase c + capLen c

/-! ### Launches (R249, R250) -/

/-- What the Curator reads of a kernel launch (R249). -/
structure Launch where
  image : Cap
  spill : Cap
  frame : Cap
  width : Nat
  /-- Bit N: the kernel declares kN. -/
  caps  : BitVec 14
  code  : Nat
  variants : List Variant
  points : List SwitchPt
deriving DecidableEq, Repr

/-- A variant entry from its three words (R249). -/
def variantOf (a b c : Nat) : Variant :=
  { entry := BitVec.ofNat 32 (a / 2 ^ 32), p := 8 * (a / 2 ^ 23 % 2 ^ 9), d := a / 2 ^ 16 % 2 ^ 7, g := a / 2 ^ 12 % 2 ^ 4 + 1,
    b := a / 2 ^ 5 % 2 ^ 7, q := a % 2 ^ 5, spad := b % 2 ^ 21, frame := c % 2 ^ 32 }

/-- A switch point from its numbers: n, Nw, Ns, Nk, acc row and rows, the count of scratch ranges, those ranges, then its
packet in each variant. -/
def pointOf : List Nat → Option SwitchPt
  | n :: nw :: ns :: nk :: row :: rows :: k :: r =>
    let at' := fun i => r.getD i 0
    some { n := n, nw := nw, ns := ns, nk := nk, acc := if rows == 0 then none else some (row, rows),
           scratch := (List.range k).map fun i => (at' (2 * i), at' (2 * i + 1)),
           pkts := (r.drop (2 * k)).map (BitVec.ofNat 32) }
  | _ => none

/-- A variant entry of an image (R249). -/
def readVariant (s : State) (c va : Nat) : State × Got Variant :=
  match hwWords c 3 va s with
  | (s1, .val ws) => (s1, .val (variantOf (ws.getD 0 0) (ws.getD 1 0) (ws.getD 2 0)))
  | (s1, .bad) => (s1, .bad)
  | (s1, .waits) => (s1, .waits)

/-- The launch that a RUN slot names (R249): no access where a capability lacks what it needs or a line cannot be read. Of an NVAR
outside 1 to 4, on which the spec is silent, at most four entries are read, and of 0 none (DESIGN CHOICE, log 141). -/
def readLaunch (s : State) (c : Nat) (run : Cap) : State × Got Launch :=
  if !slotGood run (pLD ||| pLDC) 64 then (s, .bad) else
  match hwCaps c 3 run.addr.toNat s with
  | (s1, .val [image, spill, frame]) =>
    let good := image.tag && isUnsealed image && !isSpad image && hasPerm image (pEXEC ||| pLD) &&
      spill.tag && isUnsealed spill && !isSpad spill && hasPerm spill (pLD ||| pST) &&
      (frame == nullCap || (frame.tag && isUnsealed frame && !isSpad frame && hasPerm frame (pLD ||| pST ||| pLDC ||| pSTC)))
    if !good then (s1, .bad) else
    match hwWords c 2 (capBase image) s1 with
    | (s2, .val [h0, h1]) =>
      let nvar := min 4 (h0 % 256)
      match hwList (readVariant · c) 32 nvar (capBase image + 64) s2 with
      | (s3, .val vs) =>
        let from' := capBase image + 64 + 32 * nvar
        let n := (capBase image + h1) - from'
        let launch : List Byte → Got Launch := fun decl =>
          .val { image := image, spill := spill, frame := frame, width := h0 / 2 ^ 8 % 2 ^ 8, caps := BitVec.ofNat 14 (h0 / 2 ^ 16),
                 code := capBase image + h1, variants := vs, points := (Config.switchDecls decl).filterMap pointOf }
        match hwResolve s3 c needR from' n with
        | (s4, .val ps) => (s4, launch (piecesBytes s4.mem (hwWho s4 c).tag ps))
        | (s4, .bad) => (s4, launch [])
        | (s4, .waits) => (s4, .waits)
      | (s3, .bad) => (s3, .bad)
      | (s3, .waits) => (s3, .waits)
    | (s2, .waits) => (s2, .waits)
    | (s2, _) => (s2, .bad)
  | (s1, .waits) => (s1, .waits)
  | (s1, _) => (s1, .bad)

/-- The lines of a launch have been read (R330). -/
def useLaunch (s : State) (c : Nat) (run : Cap) (l : Launch) : State :=
  useRange (useRange s c run.addr.toNat 48) c (capBase l.image) (l.code - capBase l.image)

/-- The least length of the operand table (R250). -/
def opsBytes (caps : BitVec 14) : Nat :=
  16 * ((List.range 14).foldl (fun m i => if caps.getLsbD i then i + 1 else m) 0)

/-- k0 to k13 at block entry (R250, R359): the declared slots, filtered while a sweep is active. -/
def entryCaps (s : State) (c : Nat) (caps : BitVec 14) (slots : List Cap) : SMap Cap :=
  (List.range 14).foldl (fun k i => if caps.getLsbD i then mput k i (rvFilter s c (slots.getD i {})) {} else k) []

/-! ### Room on a core (R207, R209, R216, R219, R221, R258) -/

/-- The blocks that hold room on a core. -/
def coreBlocks (s : State) (core : Nat) : List Block :=
  (s.blocks.filter fun (_, b) => b.core == core && b.life != .retired && b.life != .saved).map (·.2)

/-- A partition in use: quarter, first cluster, clusters, registers (R207, R209). -/
abbrev Occ := List (Nat × Nat × Nat × Nat)

/-- The partitions of a core's groups. -/
def occOf (bs : List Block) : Occ := bs.flatMap fun b => b.groups.map fun g => (g.quarter, g.cluster, b.width / 16, b.v.p)

/-- Registers in use in a cluster. -/
def clusterUsed (o : Occ) (q c : Nat) : Nat :=
  o.foldl (fun n (q', c', w, p) => if q' == q && c' ≤ c && c < c' + w then n + p else n) 0

/-- A group of `w` clusters and `p` registers can stand at a place (R207, R209). -/
def placeFree (o : Occ) (w p q c : Nat) : Bool :=
  (o.filter fun x => x.1 == q).length < 32 && (List.range w).all fun i => clusterUsed o q (c + i) + p ≤ 512

/-- The places of a quarter that a group of `w` clusters can take, in order: DESIGN CHOICE, the lowest free one. -/
def spots (w : Nat) : List (Nat × Nat) :=
  (List.range 4).flatMap fun q => ((List.range 4).filter fun c => c % (max w 1) == 0).map fun c => (q, c)

/-- Places for `n` groups, first fit. -/
def placeGroups (w p : Nat) : Nat → Occ → Option (List (Nat × Nat))
  | 0, _ => some []
  | n + 1, o =>
    match (spots w).find? fun x => placeFree o w p x.1 x.2 with
    | none => none
    | some x => (placeGroups w p n (o ++ [(x.1, x.2, w, p)])).map (x :: ·)

/-- The lowest free range of `n` scratchpad bytes below a limit (R216). -/
def spadRange (bs : List Block) (n limit : Nat) : Option Nat :=
  let held := (bs.filter fun b => b.spad.size != 0).map fun b => (b.spad.at0, b.spad.size)
  let ends := 0 :: held.map fun r => r.1 + r.2
  let ok := ends.filter fun a => a + n ≤ limit && held.all fun r => !rangesMeet a n r.1 r.2
  match ok with
  | [] => none
  | a :: r => some (r.foldl min a)

/-- The smallest carve-out from `lo` on under which the bytes fit, with the range (R259). -/
def carveFor (bs : List Block) (n : Nat) : Nat → Nat → Option (Nat × Nat)
  | 0, _ => none
  | k + 1, u =>
    match spadRange bs n (u * Config.carveUnit) with
    | some a => some (u, a)
    | none => carveFor bs n k (u + 1)

/-- Units whose role does not change now, and the largest carve-out that a placement may ask for (R217). -/
def carveSpan (x : CoreSt) : Nat × Nat :=
  match x.carveTo with
  | some n => (min x.carve n, min x.carve n)
  | none => (x.carve, 6)

/-- A core on which the Curator may place work (R363, R373). -/
def coreUsable (s : State) (core : Nat) : Bool :=
  let x := mget s.hol.cores core {}
  core < Config.cores && !x.drain && !x.offline && !x.resetting && (wingSt s (wingOf core)).planEnd ≤ s.gt && s.hol.wready.getLsbD (wingOf core) && s.hol.ready.getLsbD (core / 28)

/-- Where a block would stand. -/
structure Room where
  places : List (Nat × Nat)
  at0    : Nat
  carve  : Nat
deriving DecidableEq, Repr

/-- A variant's room among the blocks given (R258). -/
def roomAmong (bs : List Block) (x : CoreSt) (v : Variant) (w : Nat) : Option Room :=
  let banks := bs.foldl (fun n b => n + b.v.b) 0
  let chans := bs.foldl (fun n b => n + b.v.q) 0
  if 16 ≤ (bs.filter fun b => b.task.isNone).length || 64 < banks + v.b || 16 < chans + v.q then none
  else
    let (lo, hi) := carveSpan x
    match placeGroups (w / 16) v.p v.g (occOf bs), carveFor bs v.spad (hi + 1 - lo) lo with
    | some ps, some (u, a) => some { places := ps, at0 := a, carve := u }
    | _, _ => none

/-- A variant's room on a core as it stands. -/
def roomOn (s : State) (core : Nat) (v : Variant) (w : Nat) : Option Room :=
  if coreUsable s core then roomAmong (coreBlocks s core) (mget s.hol.cores core {}) v w else none

/-- The slice of a group of the variant (R210). -/
def sliceBytes (v : Variant) (w : Nat) : Nat := 32 * w * (6 * v.d + 6)

/-- The lowest ranges of `n` slices of a size that meet none of those in use: offset and bytes. -/
def sliceRoom (top size : Nat) : Nat → List (Nat × Nat) → Option (List Nat)
  | 0, _ => some []
  | n + 1, used =>
    match (0 :: used.map fun r => r.1 + r.2).filter fun a => a + size ≤ top && used.all fun r => !rangesMeet a size r.1 r.2 with
    | [] => none
    | a :: r => let o := r.foldl min a; (sliceRoom top size n ((o, size) :: used)).map (o :: ·)

/-- Free slices of a launch's spill capability for `n` groups of a variant, of the variant's own size (R210): their offsets. -/
def freeSlices (s : State) (card : Nat) (spill : Cap) (v : Variant) (w n : Nat) : Option (List Nat) :=
  let used := (s.blocks.filter fun (_, b) => b.card == card && b.life != .retired).flatMap fun (_, b) =>
    b.spills.map fun o => (o, sliceBytes b.v b.width)
  sliceRoom (capLen spill) (sliceBytes v w) n used

/-- The capability of the slice at an offset: LD and ST only (R210). -/
def sliceCap (spill : Cap) (w : Nat) (v : Variant) (o : Nat) : Cap := mkCap (pLD ||| pST) (capBase spill + o) (sliceBytes v w)

/-- The bytes of a save slot (R279). -/
def slotBytes (v : Variant) (w : Nat) : Nat :=
  roundUp (4096 + v.g * (1024 + 4 * w * v.p) + v.q * 64 * w + v.spad + v.spad / 128 + 8192 * v.b) 4096

/-- A free range of SAVE for a slot (R279): its offset. -/
def freeSlot (s : State) (c : Nat) (n : Nat) : Option Nat :=
  let save := (ctxOf s c).save
  if !(save.tag && isUnsealed save && hasPerm save (pLD ||| pST ||| pLDC ||| pSTC)) then none
  else
    let held := (s.blocks.filter fun (_, b) => b.ctx == c && b.slot.2 != 0).map fun (_, b) => b.slot
    let ok := (0 :: held.map fun r => r.1 + r.2).filter fun a => a + n ≤ capLen save && held.all fun r => !rangesMeet a n r.1 r.2
    match ok with
    | [] => none
    | a :: r => some (r.foldl min a)

/-- An empty core of the world's wings would hold a variant of the launch (R252, R262). -/
def fitsEmpty (s : State) (world : Nat) (l : Launch) : Bool :=
  let cores := (List.range Config.cores).filter fun c => (worldOf s world).wingset.getLsbD (wingOf c)
  l.variants.any fun v =>
    sliceBytes v l.width * v.g ≤ capLen l.spill && (roomAmong [] { carve := 1 } v l.width).isSome &&
    cores.any fun c => !(mget s.hol.cores c {}).offline

end Sys2Proof.Machine
end

