-- ==== Sys2Proof/Machine/Cards.lean ====
section
/-! DEFINITION. Cards, units and host queues: records, checks, posts, completion and cancel, with the words `post`, `done`
and `cancel` (R192 to R194, R248 to R257, R263). -/
namespace Sys2Proof.Machine
open Sys2Proof

/-! ### Records (R248) -/

/-- A word of a card's record, by its physical address. -/
def cardWord (s : State) (world pa i : Nat) : Nat :=
  lineNat (viewLine s.mem (sealTag s world) pa) (pa % 64 + 8 * i) 8
/-- A slot of a card's record. -/
def cardSlot (s : State) (world pa off : Nat) : Cap :=
  ofCapBits (sideTag (sideAt s.mem pa) (pa + off)) (BitVec.ofNat 128 (lineNat (viewLine s.mem (sealTag s world) pa) (pa % 64 + off) 16))
/-- Word 1 written by the Curator at a time no earlier than `t`: its release at package scope (R256). -/
def putWord1 (s : State) (world pa t v : Nat) : State :=
  let ps : List (Spot × Nat) := [({ pa := pa + 8, va := 0, cache := false }, 8)]
  storeOut s (ringWho s world) (piecesTime s.mem t ps) (bytesLE 8 v) ps

/-- The fields of word 0. -/
def cwCtx (w : Nat) : Nat := w / 2 ^ 52 % 2 ^ 12
def cwWorld (w : Nat) : Nat := w / 2 ^ 46 % 2 ^ 6
def cwPrio (w : Nat) : Nat := w / 2 ^ 43 % 2 ^ 3
def cwKind (w : Nat) : Nat := w / 2 ^ 40 % 2 ^ 3
def cwUnit (w : Nat) : Nat := w / 2 ^ 24 % 2 ^ 16
def cwArg (w : Nat) : Nat := w % 2 ^ 24

/-- Word 1 as its fields. -/
structure CardState where
  st      : Nat
  pend    : Bool
  outcome : Nat
  ovr     : Bool
  rsv     : Nat
  target  : Nat
  preds   : Nat
  pcnt    : Nat
deriving DecidableEq, Repr

/-- The fields of word 1. -/
def cardState (w : Nat) : CardState :=
  { st := w / 2 ^ 61 % 8, pend := w / 2 ^ 60 % 2 == 1, outcome := w / 2 ^ 58 % 4, ovr := w / 2 ^ 57 % 2 == 1, rsv := w / 2 ^ 48 % 2 ^ 9,
    target := w / 2 ^ 32 % 2 ^ 16, preds := w / 2 ^ 16 % 2 ^ 16, pcnt := w % 2 ^ 16 }
/-- Word 1 from its fields. -/
def stateWord (c : CardState) : Nat :=
  c.st * 2 ^ 61 + (if c.pend then 2 ^ 60 else 0) + c.outcome % 4 * 2 ^ 58 + (if c.ovr then 2 ^ 57 else 0) + c.rsv * 2 ^ 48 +
    c.target % 2 ^ 16 * 2 ^ 32 + c.preds * 2 ^ 16 + c.pcnt % 2 ^ 16
/-- A run changed. -/
def putRun (s : State) (card : Nat) (r : CardRun) : State :=
  { s with curator := { s.curator with runs := minsert s.curator.runs card r } }

/-- Word 1 as it stands: the Curator's own while a run does (R257), but for PCNT of a posted card, which the host may rewrite
(R263); that in memory of an idle card. -/
def cardNow (s : State) (world pa : Nat) : CardState :=
  let m := cardState (cardWord s world pa 1)
  match mfind s.curator.runs pa with
  | some r => if r.ready then cardState r.w1.toNat else { cardState r.w1.toNat with pcnt := m.pcnt }
  | none => m

/-- Word 1 changed by a function of its fields, and written no earlier than what the run has released (R256, R257). -/
def modCard (s : State) (world pa t : Nat) (f : CardState → CardState) : State :=
  let v := stateWord (f (cardNow s world pa))
  match mfind s.curator.runs pa with
  | some r => putWord1 (putRun s pa { r with w1 := BitVec.ofNat 64 v }) world pa (max t (max r.pts r.outPts)) v
  | none => putWord1 s world pa t v

/-! ### Units (R254) -/

/-- A unit's record. -/
def unitOf (s : State) (u : Nat) : UnitSt := mget s.curator.units u {}
/-- A unit's record changed. -/
def modUnit (s : State) (u : Nat) (f : UnitSt → UnitSt) : State :=
  { s with curator := { s.curator with units := mmod s.curator.units u {} f } }

/-- A member completion counted in a unit, and the unit's own in its parent's (R254). -/
def countUnit : Nat → State → Nat → Bool → State
  | 0, s, _, _ => s
  | n + 1, s, u, ok =>
    let x := unitOf s u
    if u == 0xFFFF || !x.en then s
    else
      let y : UnitSt := if ok then { x with done := x.done + 1 } else { x with cancd := x.cancd + 1 }
      let s := modUnit s u fun _ => y
      if y.done.toNat + y.cancd.toNat == y.expect.toNat then
        let s := modUnit s u fun x => { x with canc := false }
        let s := if y.irq then raiseIrq s y.world 0 else s
        countUnit n s y.parent.toNat (y.cancd == 0)
      else s

/-- The chain of units from one upward. -/
def unitChain (s : State) : Nat → Nat → List Nat
  | 0, _ => []
  | n + 1, u => if u == 0xFFFF || !(unitOf s u).en then [] else u :: unitChain s n (unitOf s u).parent.toNat

/-! ### Checks (R252) -/

/-- A card's base class (R253). -/
def baseClass (s : State) (world prio : Nat) (pmax : Option Nat) : Nat :=
  let b := min prio (worldOf s world).maxp
  match pmax with
  | some p => min b p
  | none => b

/-- A reserved bit, an unknown KIND or an ARG out of range (R248, R252 code 3). -/
def cardShapeBad (w0 w1 : Nat) : Bool :=
  let k := cwKind w0
  let a := cwArg w0
  3 < k || (cardState w1).rsv != 0 || (k == 2 && 4 < a) || ((k == 1 || k == 3) && a != 0)

/-- The engine kind of an engine card's f (R184, R248). -/
def engKindOf (f : Nat) : EngKind :=
  if f == 0 then .copy else if f == 1 then .red else if f == 2 then .coll else if f == 3 then .sealOpen else .sealCommit

/-- A capability of a slot, for what lies from its base on. -/
def fromBase (c : Cap) : Cap := { c with addr := BitVec.ofNat 64 (capBase c) }

/-- The slots that the card's KIND needs (R248 to R250): the launch of a kernel card; one that is missing, code 4, is no access. -/
def cardSlots (s : State) (w0 : Nat) (run succ ops : Cap) : State × Got (Option Launch) :=
  if succ.tag && !slotGood (fromBase succ) (pLD ||| pLDC) (capLen succ) then (s, .bad)
  else if cwKind w0 == 0 then
    match readLaunch s (cwCtx w0) run with
    | (s1, .bad) => (s1, .bad)
    | (s1, .waits) => (s1, .waits)
    | (s1, .val l) =>
      let n := opsBytes l.caps
      if n == 0 || slotGood (fromBase ops) (pLD ||| pLDC) n then (useLaunch s1 (cwCtx w0) run l, .val (some l)) else (s1, .bad)
  else if cwKind w0 == 3 then (s, .val none)
  else
    let n := if cwKind w0 == 1 then 80 else engSize (engKindOf (cwArg w0))
    (s, if slotGood run (pLD ||| pLDC ||| pST) n then .val none else .bad)

/-- The target of a card is a core that is OFFLINE (R363). -/
def targetOffline (s : State) (target : Nat) : Bool := target < Config.cores && (mget s.hol.cores target {}).offline

/-- The refusal code of a card, 0 when it passes (R252, R265, R336, R363); none where a line that it names waits (R330). -/
def cardRefusal (s : State) (world pa target : Nat) : State × Option Nat :=
  let w0 := cardWord s world pa 0
  let x := ctxOf s (cwCtx w0)
  if cwWorld w0 != world || !x.en || x.world != world || (worldOf s world).tdisp == .locked then (s, some 2)
  else if cardShapeBad w0 (cardWord s world pa 1) then (s, some 3)
  else
    match cardSlots s w0 (cardSlot s world pa 0x10) (cardSlot s world pa 0x20) (cardSlot s world pa 0x30) with
    | (s1, .bad) => (s1, some 4)
    | (s1, .waits) => (s1, none)
    | (s1, .val l) =>
      let u := cwUnit w0
      if u != 0xFFFF && (!(unitOf s1 u).en || (unitOf s1 u).world != world) then (s1, some 5)
      else if (l.map fun l => !fitsEmpty s1 world l).getD false || targetOffline s1 target then (s1, some 6)
      else if target != 0xFFFF && !(target < Config.cores && (worldOf s1 world).wingset.getLsbD (wingOf target)) then (s1, some 7)
      else (s1, some 0)

/-! ### Posts (R255) -/

/-- A posted card becomes ready: PCNT is loaded with PREDS (R255). -/
def makeReady (s : State) (card : Nat) : State :=
  match mfind s.curator.runs card with
  | none => s
  | some r =>
    let rel := mget s.curator.rels card 0
    let r := { r with ready := true, since := s.gt, cls := r.base, seq := s.curator.nextSeq, pts := max r.pts rel }
    let s := putRun s card r
    let s := { s with curator := { s.curator with nextSeq := s.curator.nextSeq + 1, idleAt := none, rels := merase s.curator.rels card } }
    modCard s r.world card 0 fun c => { c with st := 2, pcnt := c.preds }

/-- A run begun by a post of an idle card, its word 0 and slots read now (R255, R257). -/
def beginRun (s : State) (world card target base : Nat) (cap : Cap) (posters : List Nat) (pts : Nat) : State :=
  let w0 := cardWord s world card 0
  let r : CardRun :=
    { cap := cap, w1 := BitVec.ofNat 64 (cardWord s world card 1), ctx := cwCtx w0, world := world, kind := cwKind w0, unit := BitVec.ofNat 16 (cwUnit w0), arg := BitVec.ofNat 24 (cwArg w0),
      base := base, cls := base, since := s.gt, seq := 0, run := cardSlot s world card 0x10, succ := cardSlot s world card 0x20,
      ops := cardSlot s world card 0x30, target := BitVec.ofNat 16 target, ready := false, next := 0, doneN := 0, cancN := 0,
      started := false, lastCore := Config.cores - 1, posters := posters, pts := pts, outPts := 0, result := none }
  let s := modCard (putRun s card r) world card 0 fun c => { c with st := 1, target := target }
  if (cardNow s world card).pcnt == 0 then makeReady s card else s

/-- A posted card whose PCNT stands at 0, since the host may rewrite it, becomes ready (R255, R263). -/
def readyPosted (s : State) : State :=
  (s.curator.runs.filter fun (_, r) => !r.ready).foldl (fun s x =>
    if (cardNow s x.2.world x.1).pcnt == 0 then makeReady s x.1 else s) s

/-- The KIND 2 arrivals of a completed run (R283). -/
def tellPosters (s : State) (ctx outcome : Nat) (posters : List Nat) : State :=
  (posters.eraseDups.filter (· != ctx)).foldl
    (fun s p => arrive s p { kind := 2, src := BitVec.ofNat 12 ctx, data := BitVec.ofNat 32 outcome }) s

/-- A card capability that the Curator can use: OTYPE 1 over one record, with LD, LDC and ST on it (R248). -/
def cardCapGood (c : Cap) : Bool :=
  c.tag && c.otype == 1 && !isKey c && !isSpad c && capLen c == 64 && hasPerm c (pLD ||| pLDC ||| pST)

/-- One entry of a successor list: PCNT of the card it names falls (R255, R256). -/
def releaseSucc (world pts : Nat) (s : State) (c : Cap) : State :=
  if !cardCapGood c then s else
  match resolveIpa s world needRW [(capBase c, 64)] with
  | some (p :: _) =>
    let pa := p.1.pa
    if cwWorld (cardWord s world pa 0) != world then s else
    let c1 := cardNow s world pa
    if c1.pcnt == 0 then modCard s world pa pts fun c => { c with ovr := true }
    else
      let s2 := modCard s world pa pts fun c => { c with pcnt := c.pcnt - 1 }
      let s3 : State := { s2 with curator := { s2.curator with rels := mput s2.curator.rels pa (max pts (mget s2.curator.rels pa 0)) 0 } }
      match mfind s3.curator.runs pa with
      | some r => if !r.ready && c1.pcnt == 1 then makeReady s3 pa else s3
      | none => s3
  | _ => s

/-- The entries of a successor list; one whose granule cannot be read is passed over, a point on which the spec is silent (DESIGN
CHOICE, log 143). -/
def succCaps (s : State) (r : CardRun) : State × Got (List Cap) :=
  let entry : State → Nat → State × Got Cap := fun s va => match hwCap s r.ctx va with
    | (s1, .bad) => (s1, .val {})
    | q => q
  if !r.succ.tag then (s, .val []) else hwList entry 16 (min 256 (capLen r.succ / 16)) (capBase r.succ) s

/-- The lines of a run's successor list and of the cards that it names can all be reached now; those that wait are asked for
(R330). -/
def succsReady (s : State) (r : CardRun) : State × Bool :=
  match succCaps s r with
  | (s1, .val cs) =>
    let held := cs.filter fun c => cardCapGood c && ipaHeld s1 r.world needRW [(capBase c, 64)]
    (held.foldl (fun s c => askIpa s r.world needRW [(capBase c, 64)]) s1, held.isEmpty)
  | (s1, .bad) => (s1, true)
  | (s1, .waits) => (s1, false)

/-- The successors of a run released in list order (R256). -/
def releaseSuccs (s : State) (r : CardRun) : State :=
  match succCaps s r with
  | (s1, .val cs) => useRange (cs.foldl (releaseSucc r.world (max r.pts r.outPts)) s1) r.ctx (capBase r.succ) (min 4096 (capLen r.succ))
  | (s1, .bad) => s1
  | (s1, .waits) => s1

/-- A run ends with an outcome (R255, R256): 1 done, 2 cancelled. A pending post begins the next run, which a cancelling
unit completes at once (R263). -/
def completeRun : Nat → State → Nat → Nat → State
  | 0, s, _, _ => s
  | n + 1, s, card, outcome =>
    match mfind s.curator.runs card with
    | none => s
    | some r =>
      let s := if outcome == 1 then releaseSuccs s r else s
      let pend := (cardNow s r.world card).pend
      let s := modCard s r.world card 0 fun c => { c with st := 0, outcome := outcome, pend := false }
      let s : State := { s with curator := { s.curator with runs := merase s.curator.runs card } }
      let s := tellPosters (countUnit 4 s r.unit.toNat (outcome == 1)) r.ctx outcome r.posters
      if !pend then s
      else
        let w0 := cardWord s r.world card 0
        let s := beginRun s r.world card r.target.toNat (baseClass s r.world (cwPrio w0) r.next2.2) r.cap r.posters r.next2.1
        if (unitOf s (cwUnit w0)).en && (unitOf s (cwUnit w0)).canc then completeRun n s card 2 else s

/-- A post of a card whose record lies at a physical address, with its refusal code (R252, R255, R263); none where it waits. -/
def postCard (s : State) (world card target : Nat) (pmax : Option Nat) (cap : Cap) (poster : Option Nat) (pts : Nat) : State × Option Nat :=
  match cardRefusal s world card target with
  | (s1, none) => (s1, none)
  | (s1, some 0) =>
    let w0 := cardWord s1 world card 0
    let u := unitOf s1 (cwUnit w0)
    match mfind s1.curator.runs card with
    | some r =>
      -- posts beyond one pending post are absorbed: the first gives the cap, and all of them what the next run sees
      let next := (max pts r.next2.1, if (cardNow s1 world card).pend then r.next2.2 else pmax)
      let s2 := putRun s1 card { r with posters := r.posters ++ poster.toList, next2 := next }
      (modCard s2 world card 0 fun c => { c with pend := true }, some 0)
    | none =>
      let s2 := beginRun s1 world card target (baseClass s1 world (cwPrio w0) pmax) cap poster.toList pts
      if cwUnit w0 != 0xFFFF && u.canc then (completeRun 2 s2 card 2, some 0) else (s2, some 0)
  | (s1, some code) =>
    -- a refusal counts as a run that completes refused: it counts in the unit, and a standing run is not disturbed
    let w0 := cardWord s1 world card 0
    let s2 := modCard s1 world card 0 fun c => { c with outcome := 3 }
    (if cwWorld w0 == world && (unitOf s2 (cwUnit w0)).world == world then countUnit 4 s2 (cwUnit w0) false else s2, some code)

/-! ### Cancel (R194, R263) -/

/-- The run of a card cancelled. -/
def cancelRun (s : State) (card : Nat) : State :=
  match mfind s.curator.runs card with
  | none => s
  | some r =>
    if r.kind == 0 then
      if r.next == 0 then completeRun 2 s card 2
      else
        let s := ((s.blocks.filter fun (_, b) => b.card == card && b.task.isNone).map (·.1)).foldl cancelBlock s
        modRun s card fun r => { r with cancN := r.cancN + (r.arg.toNat + 1 - r.next), next := r.arg.toNat + 1 }
    else if !r.started then completeRun 2 s card 2
    else
      { s with
        eng := { s.eng with cmds := s.eng.cmds.map fun c => if c.card == some card then c.cancel else c },
        blocks := s.blocks.map fun (k, b) => (k, if b.task.isSome && b.card == card then b.stopTask else b) }

/-- A unit and every unit below it cancelled, with the runs of their cards (R263). -/
def cancelUnit (s : State) (u : Nat) : State :=
  let under := (s.curator.units.filter fun (v, x) => x.en && (unitChain s 4 v).contains u).map (·.1)
  let s := under.foldl (fun s v => modUnit s v fun x => { x with canc := true }) s
  ((s.curator.runs.filter fun (_, r) => (unitChain s 4 r.unit.toNat).contains u).map (·.1)).foldl cancelRun s

/-- The unit at a level, 1 graph to 3 job, above a card's own (R194, R254). -/
def unitAt (s : State) (u level : Nat) : Option Nat := (unitChain s 4 u).find? fun v => (unitOf s v).level == level

/-- The record of a card of the issuing world that a capability names for a word (R192, R194). Like ARENA's, a card
capability's address is an intermediate address of its world (DESIGN CHOICE [18]). -/
def lookCard (o : Op) (c : Cap) : Option Nat :=
  if !(cardCapGood c && capBase c % 64 == 0) then none else
  match resolveIpa o.s o.b.world needRW [(capBase c, 64)] with
  | some (p :: _) => if cwWorld (cardWord o.s o.b.world p.1.pa 0) == o.b.world then some p.1.pa else none
  | _ => none

/-- A card's record lies in a line that waits for the host (R330): the word waits too. -/
def cardHeld (o : Op) (c : Cap) : Option State :=
  if cardCapGood c && ipaHeld o.s o.b.world needRW [(capBase c, 64)] then
    some (stallAt (askIpa o.s0 o.b.world needRW [(capBase c, 64)]) o.k o.gix o.no (.held o.s0.gt))
  else none

/-- `cancel` of what its operands name; none where they break R194. -/
def cancelNamed (o : Op) (level : Nat) (card : Nat) (own : Bool) (s : State) : Option State :=
  let run := mfind s.curator.runs card
  let unit := match run with
    | some r => r.unit.toNat
    | none => cwUnit (cardWord s o.b.world card 0)
  if level == 0 then (if own then some (cancelBlock s o.k) else none)
  else if level == 1 then some (cancelRun s card)
  else (unitAt s unit (level - 1)).map (cancelUnit s)

/-- `cancel` (R194): a cancel that includes the issuing group ends it at the word itself. -/
def execCancel (k : BitVec 4) (a : BitVec 5) (s : State) : Host.Outcome State Fault Refusal :=
  issueWord (.cancel k a) s fun o =>
    let v := (o.r.sc a).toNat
    let level := v % 8
    if 15 < v || 4 < level then o.raise 0x11
    else if v < 8 then
      if k != 0 then o.raise 0x11
      else match cancelNamed o level o.b.card true o.s with
        | some t => { t with jumped := t.jumped || (blockOf t o.k).isNone }
        | none => o.raise 0x11
    else match lookCard o (o.r.kreg k) with
      | none => (cardHeld o (o.r.kreg k)).getD (o.raise 0x11)
      | some pa => match cancelNamed o level pa false o.s with
        | some t => { t with jumped := t.jumped || (blockOf t o.k).isNone }
        | none => o.raise 0x11

/-! ### `post` and `done` (R192, R193) -/

/-- `post` (R192): it waits as `fence.package.st.redm` would before it. -/
def execPost (k : BitVec 4) (a : BitVec 5) (s : State) : Host.Outcome State Fault Refusal :=
  issueWord (.post k a) s fun o =>
    let target := (o.r.sc a).toNat % 2 ^ 16
    if target != 0xFFFF && !(target < Config.cores && wingOf target == wingOf o.b.core) then o.raise 0x11
    else match lookCard o (o.r.kreg k) with
      | none => (cardHeld o (o.r.kreg k)).getD (o.raise 0x11)
      | some pa =>
        let s1 := placeStores o.s o.k o.gix o.g.nextId
        match groupWith s1 o.k o.gix with
        | none => s1
        | some (b, g) =>
          if !fenceDone g 4 6 o.g.nextId then stallAt (placeStores o.s0 o.k o.gix o.g.nextId) o.k o.gix o.no (.order 4 6 o.g.nextId)
          else match flushLines o.k o.gix (groupDirty b o.gix) s1 with
            | (_, _, some (va, l)) =>
              if l.isHold then stallAt (ask o.s0 l) o.k o.gix o.no (.held o.s0.gt)
              else stallAt (addProbe o.s0 o.k o.gix va needW 2) o.k o.gix o.no .confirm
            | (t, _, none) =>
              let t := fencePass t o.k o.gix 4 6
              match postCard t b.world pa target none (o.r.kreg k) (some b.ctx) ((groupOf t o.k o.gix).map (·.pts) |>.getD 0) with
              | (u, some _) => u
              | (u, none) => stallAt u o.k o.gix o.no (.held o.s0.gt)

/-- What follows when a split has ended: the group's waits, trap mode, and open seals when the block's last group ends
(R75, R83, R190, R206). -/
def afterDone (s : State) (k gix : Nat) : State :=
  endedGroup (settleRett (settleGroup s k gix) k gix) k gix

/-- `done` (R193). -/
def execDone (s : State) : Host.Outcome State Fault Refusal :=
  issueWord .done s fun o => { afterDone (o.mod (·.dropSplit o.no)) o.k o.gix with jumped := true }

/-! ### Host queues (R252) -/

/-- A queue's record. -/
def queueOf (s : State) (q : Nat) : Queue := mget s.curator.queues q {}
/-- A queue's record changed. -/
def modQueue (s : State) (q : Nat) (f : Queue → Queue) : State :=
  { s with curator := { s.curator with queues := mmod s.curator.queues q {} f } }

/-- What the device logs to world 0 when a write is turned away (R252). -/
def logWrite (s : State) (world : Nat) (data : List Byte) : State :=
  { s with answers := s.answers ++ [{ kind := 1, world := world, data := data }] }

/-- A write of QNOTIFY (R252). -/
def execQnotifyWrite (world q : Nat) (tail : BitVec 32) (s : State) : Host.Outcome State Fault Refusal :=
  let x := queueOf s q
  if Config.queues ≤ q || silenced s world then .next s
  else if world != x.world then .next (logWrite s world (bytesLE 4 q ++ bytesLE 4 tail.toNat))
  else if 2 ^ x.log2n < (tail - x.head).toNat then .next (modQueue s q fun x => { x with lasterr := 9 })
  else .next (modQueue s q fun x => { x with tail := tail })

/-- The ring or the arena of a queue cannot be used (R252). -/
def queueUnusable (x : Queue) : Bool :=
  !(x.ring.tag && isUnsealed x.ring && hasPerm x.ring pLD && 8 * 2 ^ x.log2n ≤ capLen x.ring) ||
  !(x.arena.tag && isUnsealed x.arena && hasPerm x.arena (pLD ||| pLDC ||| pST))

/-- A Curator has come up (R373). -/
def curReady (s : State) : Bool := s.hol.ready.getLsbD 60 || s.hol.ready.getLsbD 61

/-- A refused entry counted (R252). -/
def refuseEntry (s : State) (q code : Nat) : State :=
  modQueue s q fun x => { x with refused := satInc 0xFFFF x.refused, lasterr := BitVec.ofNat 8 code }

/-- One ring entry admitted (R252). A record that stage 2 does not reach is refused with code 1 (DESIGN CHOICE, log 142). -/
def execQueueEntryAdmit (q : Nat) (s : State) : Host.Outcome State Fault Refusal :=
  let x := queueOf s q
  if !x.en || x.head == x.tail || !curReady s then .next s
  else if queueUnusable x then .next (modQueue s q fun x => { x with lasterr := 8 })
  else match ipaWord s x.world (capBase x.ring + 8 * (x.head.toNat % 2 ^ x.log2n)) with
    | none => .next (askIpa s x.world needR [(capBase x.ring + 8 * (x.head.toNat % 2 ^ x.log2n), 8)])
    | some e =>
      let off := e % 2 ^ 48
      let target := e / 2 ^ 48
      let s0 := s
      let s := modQueue (useIpa s x.world [(capBase x.ring + 8 * (x.head.toNat % 2 ^ x.log2n), 8)]) q fun x => { x with head := x.head + 1 }
      if off % 64 != 0 || capLen x.arena < off + 64 then .next (refuseEntry s q 1)
      else
        let a := capBase x.arena + off
        match resolveIpa s x.world needRW [(a, 64)] with
        | some (p :: _) =>
          let cap : Cap := { mkCap (x.arena.perm) a 64 with otype := 1 }
          match postCard s x.world p.1.pa target (some x.pmax) cap none s.mem.hostTop with
          | (_, none) => .next (postCard s0 x.world p.1.pa target (some x.pmax) cap none s.mem.hostTop).1
          | (s1, some 0) => .next s1
          | (s1, some code) => .next (refuseEntry s1 q code)
        | _ =>
          if ipaHeld s0 x.world needRW [(a, 64)] then .next (askIpa s0 x.world needRW [(a, 64)])
          else .next (refuseEntry s q 1)

/-! ### Completion (R256) -/

/-- The outcome of a run that has completed: done or not. -/
def runOutcome (r : CardRun) : Option Bool :=
  if !r.ready then none
  else if r.kind == 0 then
    if r.doneN + r.cancN == r.arg.toNat + 1 then some (r.cancN == 0) else none
  else r.result

/-- A card's run completes (R256), once the lines of its successors can be had (R330). The completion of an engine's work is held
while the context is stopped (R274). -/
def execCardRunComplete (card : Nat) (s : State) : Host.Outcome State Fault Refusal :=
  match mfind s.curator.runs card with
  | none => .next s
  | some r => match runOutcome r with
    | none => .next s
    | some ok =>
      if r.kind != 0 && ctxHolds s r.ctx then .next s
      else if !ok then .next (completeRun 2 s card 2)
      else match succsReady s r with
        | (s1, true) => .next (completeRun 2 s1 card 1)
        | (s1, false) => .next s1

/-- A host write of 1 to UCFG bit 62 (R254, R263). -/
def execUnitCancel (world unit : Nat) (s : State) : Host.Outcome State Fault Refusal :=
  let x := unitOf s unit
  if unit < Config.units && x.en && !silenced s world && (world == 0 || world == x.world) then .next (cancelUnit s unit) else .next s

/-- The class of a card rises (R258). -/
def execClassAgeing (card : Nat) (s : State) : Host.Outcome State Fault Refusal :=
  match mfind s.curator.runs card with
  | none => .next s
  | some r =>
    if r.ready && r.cls < 7 && r.since + 6400 ≤ s.gt then .next (putRun s card { r with cls := r.cls + 1, since := s.gt })
    else .next s

end Sys2Proof.Machine
end

