-- ==== Sys2Proof/Machine/Frames.lean ====
section
/-! DEFINITION. Switch frames: their layout, their write and their load (R226, R227, R250, R315). -/
namespace Sys2Proof.Machine
open Sys2Proof

/-- A part of a frame: its bytes, zero-padded to a multiple of 64, and the tags of its granules. -/
abbrev Part := List Byte × List Bool

/-- A part padded to a multiple of 64 bytes, with untagged granules. -/
def padPart (bs : List Byte) : Part :=
  let n := roundUp bs.length 64
  (bs ++ List.replicate (n - bs.length) 0, List.replicate (n / 16) false)

/-- Bytes with their granules' tags, padded. -/
def taggedPart (bs : List Byte) (tags : List Bool) : Part :=
  let p := padPart bs
  (p.1, tags ++ List.replicate (p.2.length - tags.length) false)

/-- The header of a frame (R226). -/
def frameHeader (b : Block) (x : SwitchPt) : Part :=
  let ended := (b.groups.zip (List.range b.groups.length)).foldl (fun n (g, i) => if g.splits.isEmpty then n + 2 ^ i else n) 0
  padPart (bytesLE 8 (ended * 2 ^ 48 + b.width * 2 ^ 32 + b.v.g * 2 ^ 24 + b.vix * 2 ^ 8 + x.n % 256) ++
    bytesLE 8 (((b.groups.head?).map (·.cycQ / 4)).getD 0) ++ List.replicate 48 0)

/-- The group header and w registers of one group (R226). -/
def frameGroup (b : Block) (x : SwitchPt) (g : Group) : List Byte :=
  let band := match g.band with
    | some (lo, n) => n * 2 ^ 16 + lo
    | none => 0
  bytesLE 8 g.r.fpm.toNat ++ bytesLE 8 g.tr.ctal.toNat ++ bytesLE 8 (g.cycQ / 4) ++ bytesLE 8 band ++ List.replicate 32 0 ++
    (List.range x.nw).flatMap fun j => (List.range b.width).flatMap fun l =>
      bytesLE 4 (mget g.r.w (64 * physOf b.v.p g.r.base j + l) 0).toNat

/-- Full bits of `n` granules from a scratchpad offset, eight to a byte. -/
def fullBytes (p : Spad) (off n : Nat) : List Byte :=
  (List.range (ceilDiv n 8)).map fun i => BitVec.ofNat 8 ((List.range 8).foldl (fun v j =>
    if 8 * i + j < n && spFull p (off + 16 * (8 * i + j)) then v + 2 ^ j else v) 0)

/-- One `scratch` range of a frame: its bytes with their tags, then its full bits. -/
def frameScratch (b : Block) (r : Nat × Nat) : List Part :=
  [taggedPart ((List.range r.2).map fun i => spByte b.spad (r.1 + i)) ((List.range (r.2 / 16)).map fun i => spTag b.spad (r.1 + 16 * i)),
   padPart (fullBytes b.spad r.1 (r.2 / 16))]

/-- The accumulator rows of a frame: +0 in a row of a bank that the block does not hold. -/
def frameAcc (b : Block) (row rows : Nat) : Part :=
  padPart ((List.range rows).flatMap fun i => (List.range 128).flatMap fun c =>
    bytesLE 4 (if b.acq.getLsbD ((row + i) / 16) then mget b.acc (128 * (row + i) + c) 0 else 0).toNat)

/-- The parts of a frame in order (R226). -/
def frameParts (b : Block) (x : SwitchPt) : List Part :=
  let r := ((b.groups.head?).map (·.r)).getD {}
  frameHeader b x ::
    taggedPart ((List.range x.nk).flatMap fun i => bytesLE 16 (capBits (mget r.k i {})).toNat) ((List.range x.nk).map fun i => (mget r.k i {}).tag) ::
    padPart ((List.range x.ns).flatMap fun i => bytesLE 8 (mget r.s (i + 1) 0).toNat) ::
    (if x.nw == 0 then ([] : List Part) else b.groups.map fun g => padPart (frameGroup b x g)) ++
    x.scratch.flatMap (frameScratch b) ++
    (match x.acc with
     | some (row, rows) => [frameAcc b row rows]
     | none => [])

/-- Code 0 given to the sectors of a frame's pieces, and their tags to its granules, which begin at multiples of 16 (R315). -/
def setSectors (m : MemSys) : List (Spot × Nat) → List Bool → MemSys
  | [], _ => m
  | (p, n) :: r, tags =>
    let side := (List.range (n / 16)).foldl (fun v i => sideWithTag v (p.pa + 16 * i) (tags.getD i false)) (sideWithFmt (sideAt m p.pa) 0)
    setSectors (putSide m p.pa side) r (tags.drop (n / 16))

/-- A frame written at a virtual address (R226, R229, R315), once every sector of it is translated: ordered stores at one time,
which comes with it. A frame that does not begin at a granule holds no tags. -/
def putFrame (s : State) (c va t : Nat) (parts : List Part) : State × Except (Nat × Look) Nat :=
  let w := hwWho s c
  let bs := parts.flatMap (·.1)
  match resolvePieces w needW s (linePieces va bs.length) with
  | (s1, .error e) => (s1, .error e)
  | (s1, .ok ps) =>
    let t := piecesTime s1.mem t ps
    let m := setSectors (storePieces w s1.mem t bs ps) ps (if va % 16 == 0 then parts.flatMap (·.2) else [])
    (sendPieces { s1 with mem := m } w t 0 (some bs) ps, .ok t)

/-- A frame read back with its granules' tags: ordered loads (R229), the time after them. -/
def getFrame (s : State) (c va n t : Nat) : State × Got (Part × Nat) :=
  match hwResolve s c needR va n with
  | (s1, .val ps) =>
    let w := hwWho s1 c
    let (m, t1, bs) := loadPieces w s1.mem t ps
    let tags := ps.flatMap fun q => (List.range (q.2 / 16)).map fun i => sideTag (sideAt s1.mem q.1.pa) (q.1.pa + 16 * i)
    (sendPieces { s1 with mem := m } w t 15 none ps, .val ((bs, if va % 16 == 0 then tags else []), t1))
  | (s1, .bad) => (s1, .bad)
  | (s1, .waits) => (s1, .waits)

/-! ### Loading (R227) -/

/-- A little-endian number of `n` bytes at an offset. -/
def numAt (bs : List Byte) (off n : Nat) : Nat := ofBytesLE ((bs.drop off).take n)

/-- The offsets of a frame's parts: capabilities, scalars, groups, scratchpad, accumulator, end. -/
def frameOffsets (x : SwitchPt) (g w : Nat) : Nat × Nat × Nat × Nat × Nat :=
  let k := 64
  let s := k + roundUp (16 * x.nk) 64
  let q := s + roundUp (8 * x.ns) 64
  let p := q + if x.nw == 0 then 0 else g * (64 + 4 * w * x.nw)
  let a := x.scratch.foldl (fun o r => o + r.2 + roundUp (ceilDiv (r.2 / 16) 8) 64) p
  let e := a + match x.acc with
    | some (_, rows) => 512 * rows
    | none => 0
  (s, q, p, a, e)

/-- A group as it starts after a switch, from what it is at entry (R227). -/
def loadGroup (s : State) (c : Nat) (x : SwitchPt) (f : Part) (w i : Nat) (g : Group) : Group :=
  let (so, go, _, _, _) := frameOffsets x 0 w
  let at0 := go + i * (64 + 4 * w * x.nw)
  let k := (List.range x.nk).foldl (fun k j =>
    mput k j (rvFilter s c (ofCapBits (f.2.getD (4 + j) false) (BitVec.ofNat 128 (numAt f.1 (64 + 16 * j) 16)))) {}) g.r.k
  let sc := (List.range x.ns).foldl (fun r j => mput r (j + 1) (BitVec.ofNat 64 (numAt f.1 (so + 8 * j) 8)) 0) g.r.s
  if x.nw == 0 then
    { g with r := { g.r with k := k, s := sc }, cycQ := 4 * numAt f.1 8 8 }
  else
    let win := (List.range x.nw).foldl (fun m j => (List.range w).foldl (fun m l =>
      mput m (64 * j + l) (BitVec.ofNat 32 (numAt f.1 (at0 + 64 + 4 * w * j + 4 * l) 4)) 0) m) g.r.w
    let band := numAt f.1 (at0 + 24) 8
    { g with r := { g.r with k := k, s := sc, w := win, fpm := BitVec.ofNat 64 (numAt f.1 at0 8) },
             tr := { g.tr with ctal := BitVec.ofNat 64 (numAt f.1 (at0 + 8) 8) }, cycQ := 4 * numAt f.1 (at0 + 16) 8,
             band := if band / 2 ^ 16 % 2 ^ 11 == 0 then none else some (band % 2 ^ 11, band / 2 ^ 16 % 2 ^ 11) }

/-- The scratchpad ranges of a frame put into an empty scratchpad; tags of revoked capabilities are not loaded (R360). -/
def loadScratch (s : State) (c : Nat) (f : Part) : List (Nat × Nat) → Nat → Spad → Spad
  | [], _, p => p
  | (off, len) :: r, o, p =>
    let p := spPut p off ((f.1.drop o).take len)
    let p := (List.range (len / 16)).foldl (fun p i =>
      let cap := ofCapBits (f.2.getD (o / 16 + i) false) (BitVec.ofNat 128 (numAt f.1 (o + 16 * i) 16))
      let full := numAt f.1 (o + len + i / 8) 1 / 2 ^ (i % 8) % 2 == 1
      spPutFull (spPutTag p (off + 16 * i) (rvFilter s c cap).tag) (off + 16 * i) full) p
    loadScratch s c f r (o + len + roundUp (ceilDiv (len / 16) 8) 64) p

/-- The capabilities that a frame holds. -/
def partCaps (f : Part) : List Cap :=
  (List.range (f.1.length / 16)).map fun i => ofCapBits (f.2.getD i false) (BitVec.ofNat 128 (numAt f.1 (16 * i) 16))

/-- A block that starts again from its frame (R227): `b` is the block as it would be at entry of its variant. -/
def loadFrame (s : State) (c : Nat) (x : SwitchPt) (f : Part) (b : Block) : Block :=
  let (_, _, p, a, _) := frameOffsets x b.v.g b.width
  let ended := BitVec.ofNat 16 (numAt f.1 6 2)
  let pc := (x.pkts[b.vix]?).getD 0
  let groups := (b.groups.zip (List.range b.groups.length)).map fun (g, i) =>
    if ended.getLsbD i then { g with splits := [] }
    else { loadGroup s c x f b.width i g with splits := g.splits.map fun q => { q with pc := pc } }
  let b1 := { b with groups := groups, ended := ended, spad := loadScratch s c f x.scratch p b.spad }
  match x.acc with
  | none => b1
  | some (row, rows) =>
    let acc := (List.range rows).foldl (fun m i => (List.range 128).foldl (fun m col =>
      mput m (128 * (row + i) + col) (BitVec.ofNat 32 (numAt f.1 (a + 512 * i + 4 * col) 4)) 0) m) ([] : SMap Word)
    let first := row / 16
    { b1 with acc := acc, acq := BitVec.ofNat 64 (2 ^ first * (2 ^ ((row + rows - 1) / 16 + 1 - first) - 1)) }

/-! ### Frame slots (R315) -/

/-- Slots that a launch's frame capability holds. -/
def frameSlots (b : Block) : Nat :=
  let n := ((b.variants.head?).map (·.frame)).getD 0
  if b.frameCap.tag && n != 0 then capLen b.frameCap / n else 0

/-- The lowest free frame slot of a block's launch. -/
def freeFrame (s : State) (b : Block) : Option Nat :=
  let used := (s.blocks.filter fun (_, y) => y.card == b.card && y.frame.isSome).map fun (_, y) => y.frameSlot
  (List.range (min (frameSlots b) (used.length + 1))).find? fun i => !used.contains i

/-- The address of a block's frame. -/
def frameVa (b : Block) : Nat := capBase b.frameCap + b.frameSlot * ((b.variants.head?).map (·.frame)).getD 0

/-- The frame slot of a block swept: whether every granule of it has been checked (R359, R362). -/
def sweepSlot (s : State) (b : Block) : State × Bool :=
  (List.range (((b.variants.head?).map (·.frame)).getD 0 / 16)).foldl (fun q i =>
    let r := sweepGranule q.1 b.ctx (frameVa b / 16 * 16 + 16 * i)
    (r.1, q.2 && r.2)) (s, true)

/-- A block that loads its frame while a sweep of the registers is under way has its slot swept first (R362). -/
def sweepBefore (s : State) (b : Block) : State × Bool :=
  if (ctxOf s b.ctx).rv.busy && (ctxOf s b.ctx).rv.phase != 2 then sweepSlot s b else (s, true)

end Sys2Proof.Machine
end

