-- ==== Sys2Proof/Machine/Curator.lean ====
section
/-! DEFINITION. The Curator's dispatch: heads of classes, cores, placement, make_room, carve-outs (R217, R238, R258 to R264,
R272, R281). -/
namespace Sys2Proof.Machine
open Sys2Proof

/-! ### Ready instances (R258) -/

/-- A ready instance: the next block of a launch, a block that has returned to the pool, or the one instance of another card. -/
inductive Inst where
  | next (card : Nat)
  | back (card blk : Nat)
  | single (card : Nat)
deriving DecidableEq, Repr

/-- The card of an instance. -/
def Inst.card : Inst → Nat
  | .next c => c
  | .back c _ => c
  | .single c => c

/-- The Curator may place a new instance of a context (R268, R273, R292): one that runs, or has never been resumed. -/
def takesNew (s : State) (c : Nat) : Bool :=
  let x := ctxOf s c
  x.en && worldRuns (worldOf s x.world) && (x.st == 1 || (x.st == 4 && x.fresh && !x.stop))

/-- A block that waits in the pool may be placed: a retired one while its context runs, a saved one for its resume (R281). -/
def takesBack (s : State) (b : Block) : Bool :=
  let x := ctxOf s b.ctx
  match b.life with
  | .retired => x.st == 1
  | .saved => x.st == 4 && !x.stop
  | .resident => false
  | .framing => false
  | .loaded => false

/-- The blocks of a card in the pool that may be placed, by block index. -/
def poolOf (s : State) (card : Nat) : Option Nat :=
  (s.blocks.filter fun (_, b) => b.card == card && takesBack s b).foldl (fun m (k, b) => match m with
    | none => some (k, b.bix.toNat)
    | some (k', i) => if b.bix.toNat < i then some (k, b.bix.toNat) else some (k', i)) (Option.none : Option (Nat × Nat)) |>.map (·.1)

/-- The next ready instance of a run. -/
def instOf (s : State) (card : Nat) (r : CardRun) : Option Inst :=
  if !r.ready then none
  else if r.kind == 0 then
    match poolOf s card with
    | some k => some (.back card k)
    | none => if r.next ≤ r.arg.toNat && takesNew s r.ctx then some (.next card) else none
  else if r.started || !takesNew s r.ctx then none else some (.single card)

/-- The oldest ready instance of a world in a class. -/
def headOf (s : State) (cls w : Nat) : Option (Inst × CardRun) :=
  let c := s.curator.runs.filterMap fun (card, r) =>
    if r.cls == cls && r.world == w then (instOf s card r).map fun x => (x, r) else none
  c.foldl (fun m y => match m with
    | none => some y
    | some z => if y.2.seq < z.2.seq then some y else m) none

/-- The charge of an instance. -/
def chargeOf (s : State) (x : Inst) (r : CardRun) : Nat :=
  match x with
  | .next _ => match readLaunch s r.ctx r.run with
    | (_, .val l) => ((l.variants.head?).map (·.g)).getD 1 * l.width
    | (_, .bad) => 16
    | (_, .waits) => 16
  | .back _ k => match blockOf s k with
    | some b => (if b.life == .saved then b.v.g else ((b.variants.head?).map (·.g)).getD 1) * b.width
    | none => 16
  | .single _ => if r.kind == 1 then 1024 else if r.kind == 2 then 256 else 0

/-- Resident blocks of a world. -/
def residentOf (s : State) (w : Nat) : Nat :=
  (s.blocks.filter fun (_, b) => b.world == w && b.task.isNone && b.life != .retired && b.life != .saved).length

/-- The world is under its cap (R253). -/
def underCap (s : State) (w : Nat) : Bool := let n := (worldOf s w).capblk; n == 0 || residentOf s w < n

/-! ### Cores (R258, R280) -/

/-- cores(x): `first` is the core that holds the block's parked banks, which the Curator prefers among the world's wings (R264). -/
def coresFor (s : State) (r : CardRun) (first : Option Nat) : List Nat :=
  if r.target != 0xFFFF then [r.target.toNat]
  else
    let ring := (List.range Config.cores).map fun i => (r.lastCore + 1 + i) % Config.cores
    let mine := ring.filter fun c => (worldOf s r.world).wingset.getLsbD (wingOf c)
    let want := (ctxOf s r.ctx).plreq.toNat
    (first.toList.filter mine.contains) ++ (mine.filter fun c => want ≤ (wingSt s (wingOf c)).pl) ++ mine.filter fun c => (wingSt s (wingOf c)).pl < want

/-- A core is kept for another instance (R261). -/
def keptOff (s : State) (core cls card bix : Nat) : Bool :=
  s.curator.reserve.any fun q => q.core == core && cls ≤ q.cls && !(q.card == card && q.bix == bix)

/-- What the instances take for which a core is kept, the given one apart (R261). -/
def reservedOn (s : State) (card bix core : Nat) : List Block :=
  (s.curator.reserve.filter fun q => q.core == core && !(q.card == card && q.bix == bix)).map fun q =>
    { core := core, width := q.width, v := q.v, spad := { size := q.v.spad, at0 := q.at0 },
      groups := q.places.map fun x => { quarter := x.1, cluster := x.2 } }

/-- The blocks of a core that make_room may move: lower-class blocks (R261). -/
def isLower (cls : Nat) (b : Block) : Bool := b.task.isNone && b.life == .resident && b.cls < cls

/-! ### Placing a block (R211, R238, R249, R250, R279) -/

/-- What a block asks of the launch: spill slices, a save slot. -/
structure Claim where
  slices : List Nat
  slot   : Nat × Nat
deriving DecidableEq, Repr

/-- Slices and a slot for a variant; `own` is a retired block, whose old slot is free for it. -/
def claimFor (s : State) (r : CardRun) (card : Nat) (spill : Cap) (w : Nat) (v : Variant) (own : Option Nat) : Option Claim :=
  let t := match own with
    | some k => modBlock s k fun b => { b with slot := (0, 0) }
    | none => s
  match freeSlices s card spill v w v.g, freeSlot t r.ctx (slotBytes v w) with
  | some ss, some a => some { slices := ss, slot := (a, slotBytes v w) }
  | _, _ => none

/-- The first variant and core that fit, with the room (R258): `lower` counts lower-class blocks as gone, and what `taken` lists
for a core stands there too (R261). -/
def findRoom (s : State) (cls card bix : Nat) (vs : List (Nat × Variant)) (w : Nat) (cores : List Nat) (lower : Bool)
    (taken : Nat → List Block) : Option (Nat × Variant × Nat × Room) :=
  vs.findSome? fun (i, v) => cores.findSome? fun core =>
    if keptOff s core cls card bix || !coreUsable s core then none
    else
      let bs := (coreBlocks s core).filter (fun b => !(lower && isLower cls b)) ++ taken core
      (roomAmong bs (mget s.hol.cores core {}) v w).map fun m => (i, v, core, m)

/-- A group at entry (R211). -/
def entryGroup (r : CardRun) (l : Launch) (v : Variant) (caps : SMap Cap) (place : Nat × Nat) (slice : Nat) : Group :=
  { r := { k := mput caps 15 (spadCap v.spad) {} },
    splits := [{ no := 0, pc := v.entry, mem := allLanes l.width, act := allLanes l.width }],
    pts := r.pts, spill := sliceCap l.spill l.width v slice, quarter := place.1, cluster := place.2 }

/-- A block at entry. -/
def entryBlock (s : State) (r : CardRun) (card bix : Nat) (l : Launch) (vi : Nat) (v : Variant) (core : Nat) (m : Room) (q : Claim)
    (caps : SMap Cap) : Block :=
  { card := card, ctx := r.ctx, world := r.world, core := core, bix := BitVec.ofNat 32 bix, width := l.width, vix := vi, v := v,
    variants := l.variants, points := l.points, image := l.image, code := BitVec.ofNat 64 l.code, frameCap := l.frame, spillCap := l.spill,
    groups := (m.places.zip q.slices).map fun x => entryGroup r l v caps x.1 x.2, spad := { size := v.spad, at0 := m.at0 },
    slot := q.slot, spills := q.slices, seq := s.curator.nextBlk, life := if (ctxOf s r.ctx).st == 1 then .resident else .loaded,
    cls := r.cls, pts0 := r.pts }

/-- k0 to k13 as the operand table gives them (R250), the map of an active sweep read (R359). -/
def operandCaps (s : State) (r : CardRun) (l : Launch) : State × Got (SMap Cap) :=
  match hwCaps r.ctx (opsBytes l.caps / 16) (capBase r.ops) s with
  | (s1, .val cs) =>
    match checkMap s1 r.ctx cs with
    | (s2, true) => (s2, .val (entryCaps s2 r.ctx l.caps cs))
    | (s2, false) => (s2, .waits)
  | (s1, .bad) => (s1, .bad)
  | (s1, .waits) => (s1, .waits)

/-- A core's carve-out raised for a block that has been placed (R217, R259): with six units no L1 is left. -/
def raiseCarve (s : State) (core u : Nat) : State :=
  if (mget s.hol.cores core {}).carve < u then
    let s := modCore s core fun x => { x with carve := u }
    if u == 6 then modMem s fun m => { m with copies := m.copies.filter fun c => c.core != core } else s
  else s

/-- A context's blocks that stand on cores. -/
def holdsBlock (s : State) (c : Nat) : Bool :=
  s.blocks.any fun (_, b) => b.ctx == c && b.task.isNone && b.life != .retired && b.life != .saved

/-- The key of a new block. -/
def newKey (s : State) : Nat := s.blocks.foldl (fun n (k, _) => max n (k + 1)) s.curator.nextBlk

/-- A switch request cleared (R225): a switch point holds nobody any more. A switch that has begun completes (R227). -/
def Block.unrequest (b : Block) : Block :=
  if b.life == .framing then b
  else { b with swReq := false, groups := b.groups.map fun g => { g with splits := g.splits.map fun p =>
    match p.wait with
    | .switchPt _ _ => { p with wait := .none }
    | _ => p } }

/-- The reservation of an instance dropped; a block that none asks to move any more has its request cleared (R225, R261). -/
def unreserve (s : State) (card bix : Nat) : State :=
  if !(s.curator.reserve.any fun q => q.card == card && q.bix == bix) then s
  else
    let rs := s.curator.reserve.filter fun q => !(q.card == card && q.bix == bix)
    { s with curator := { s.curator with reserve := rs },
             blocks := s.blocks.map fun (k, b) =>
               (k, if b.swReq && !(rs.any fun q => q.core == b.core && b.cls < q.cls) then b.unrequest else b) }

/-- What follows a dispatch (R255, R258, R272): the card runs, its class returns to its base. -/
def dispatched (s : State) (card bix core : Nat) (fresh : Bool) : State :=
  match mfind s.curator.runs card with
  | none => s
  | some r =>
    let s := if r.started then s else modCard s r.world card 0 fun c => { c with st := 3 }
    let s := putRun s card { r with started := true, lastCore := core, since := s.gt, cls := r.base, next := if fresh then r.next + 1 else r.next }
    evalLevel (unreserve s card bix) (wingOf core)

/-- A stopped context whose blocks have all been placed begins to resume (R268); no time runs for their loading any more (R281). -/
def beginResume (s : State) (c : Nat) : State :=
  if s.blocks.any fun (_, b) => b.ctx == c && b.life == .saved then s
  else modCtx s c fun x => { x with loadAt := none, st := if x.st == 4 && !x.stop then 6 else x.st }

/-- A block put on its core. -/
def putOn (s : State) (card k : Nat) (b : Block) (m : Room) (fresh : Bool) : State :=
  let s := if holdsBlock s b.ctx then s else modCtx s b.ctx fun x => { x with sliceAt := some s.gt }
  let s := raiseCarve (putBlock s k b) b.core m.carve
  let s : State := { s with curator := { s.curator with nextBlk := s.curator.nextBlk + 1 } }
  beginResume (dispatched s card b.bix.toNat b.core fresh) b.ctx

/-- The variants with their numbers. -/
def numbered (vs : List Variant) : List (Nat × Variant) := (List.range vs.length).zip vs

/-- What came of placing an instance. -/
inductive Placed where
  | on (s : State)
  /-- It does not fit anywhere now. -/
  | noRoom (s : State)
  /-- A line that it needs waits, and has been asked for (R330). -/
  | waits (s : State)
deriving DecidableEq, Repr

/-- The frame of a retired block loaded (R227), its slot swept before that and the map of an active sweep read (R359, R362). -/
def reload (s : State) (r : CardRun) (b0 b : Block) : State × Got Block :=
  match b0.points.find? fun x => some x.n == b0.frame with
  | none => (s, .bad)
  | some x =>
    match sweepBefore s b0 with
    | (s1, false) => (s1, .waits)
    | (s1, true) =>
      match getFrame s1 r.ctx (frameVa b0) (frameOffsets x b.v.g b.width).2.2.2.2 (max r.pts b0.pts0) with
      | (s2, .bad) => (s2, .bad)
      | (s2, .waits) => (s2, .waits)
      | (s2, .val (f, t)) =>
        match checkMap s2 r.ctx (partCaps f) with
        | (s3, false) => (s3, .waits)
        | (s3, true) => (s3, .val (raiseBlock { loadFrame s3 r.ctx x f b with pts0 := t } t))

/-- A block of a launch placed: a new one, or one that comes back from a switch (R227), which counts what the instances that asked
for room need as taken (R261). -/
def placeLaunch (s : State) (card : Nat) (r : CardRun) (bix : Nat) (old : Option (Nat × Block)) : Placed :=
  match readLaunch s r.ctx r.run with
  | (s1, .bad) => .noRoom s1
  | (s1, .waits) => .waits s1
  | (s1, .val l) =>
    match operandCaps s1 r l with
    | (s2, .bad) => .noRoom s2
    | (s2, .waits) => .waits s2
    | (s2, .val caps) =>
      let vs := (numbered l.variants).filter fun v => (claimFor s2 r card l.spill l.width v.2 (old.map (·.1))).isSome
      let taken := fun core => if old.isSome then reservedOn s2 card bix core else []
      match findRoom s2 r.cls card bix vs l.width (coresFor s2 r none) false taken with
      | none => .noRoom s2
      | some (vi, v, core, m) =>
        match claimFor s2 r card l.spill l.width v (old.map (·.1)) with
        | none => .noRoom s2
        | some q =>
          let b := entryBlock s2 r card bix l vi v core m q caps
          let place := fun (s : State) (k : Nat) (b : Block) =>
            Placed.on (putOn (useRange (useLaunch s r.ctx r.run l) r.ctx (capBase r.ops) (opsBytes l.caps)) card k b m old.isNone)
          match old with
          | none => place s2 (newKey s2) b
          | some (k, b0) =>
            match reload s2 r b0 b with
            | (s3, .val b1) => place s3 k b1
            | (s3, .bad) => .noRoom s3
            | (s3, .waits) => .waits s3

/-- A saved block placed again in its own variant (R281): it is loaded and does not issue. -/
def placeSaved (s : State) (card : Nat) (r : CardRun) (k : Nat) (b : Block) : Placed :=
  match findRoom s r.cls card b.bix.toNat [(b.vix, b.v)] b.width (coresFor s r b.shadow) false fun _ => [] with
  | none => .noRoom s
  | some (_, _, core, m) =>
    let groups := (b.groups.zip m.places).map fun x => { x.1 with quarter := x.2.1, cluster := x.2.2 }
    let b1 := { b with core := core, groups := groups, spad := { b.spad with at0 := m.at0 }, life := .loaded, shadow := none, cls := r.cls }
    let s := if (ctxOf s b.ctx).loadAt.isNone then modCtx s b.ctx fun y => { y with loadAt := some s.gt } else s
    .on (putOn s card k b1 m false)

/-! ### Tile tasks, engine commands and joins -/

/-- The banks that a tile task borrows (R260): all of them where its parameter block cannot be read. -/
def taskBanks (s : State) (r : CardRun) : State × Got Nat :=
  match hwWord s r.ctx (r.run.addr.toNat + 8) with
  | (s1, .val d) => (s1, .val (min 64 (ceilDiv (descOf (BitVec.ofNat 64 d) 0).M 16)))
  | (s1, .bad) => (s1, .val 64)
  | (s1, .waits) => (s1, .waits)

/-- The first core with an idle macro-sequencer and the banks. -/
def taskCore (s : State) (cls card banks : Nat) (cores : List Nat) (lower : Bool) : Option Nat :=
  cores.find? fun core =>
    let bs := (coreBlocks s core).filter fun b => !(lower && isLower cls b)
    !keptOff s core cls card 0 && coreUsable s core && (bs.all fun b => b.tiles.isEmpty && b.task.isNone) &&
      bs.foldl (fun n b => n + b.v.b) 0 + banks ≤ 64

/-- The engine command of a card (R258): acquire and release at package scope. -/
def cardCmd (s : State) (card : Nat) (r : CardRun) (kind : EngKind) : State :=
  addCmd s { id := 0, kind := kind, ctx := r.ctx, world := r.world, who := none, card := some card, ticket := 0, pblock := r.run,
             scope := 4, acq := true, rel := true, ipts := r.pts, ict := ctOf s r.ctx }

/-- The instance of a tile task, an engine command or a join placed. -/
def placeSingle (s : State) (card : Nat) (r : CardRun) : Placed :=
  if r.kind == 3 then
    match succsReady s r with
    | (s1, true) => .on (completeRun 2 (dispatched s1 card 0 r.lastCore false) card 1)
    | (s1, false) => .waits s1
  else if r.kind == 2 then .on (dispatched (cardCmd s card r (engKindOf r.arg.toNat)) card 0 r.lastCore false)
  else match taskBanks s r with
    | (s1, .waits) => .waits s1
    | (s1, .bad) => .noRoom s1
    | (s1, .val banks) => match taskCore s1 r.cls card banks (coresFor s1 r none) false with
    | none => .noRoom s1
    | some core =>
      let s1 := useRange s1 r.ctx (r.run.addr.toNat + 8) 8
      let b : Block := { card := card, ctx := r.ctx, world := r.world, core := core, v := { b := banks }, pts0 := r.pts,
                         seq := s1.curator.nextBlk, cls := r.cls, task := some { cmd := s1.eng.nextId } }
      let s2 := setSeqTime (putBlock (cardCmd s1 card r .tile) (newKey s1) b) core r.pts
      .on (dispatched { s2 with curator := { s2.curator with nextBlk := s2.curator.nextBlk + 1 } } card 0 core false)

/-- place(x) (R258). -/
def placeInst (s : State) (x : Inst) (r : CardRun) : Placed :=
  match x with
  | .next card => placeLaunch s card r r.next none
  | .single card => placeSingle s card r
  | .back card k =>
    match blockOf s k with
    | none => .noRoom s
    | some b => if b.life == .saved then placeSaved s card r k b else placeLaunch s card r b.bix.toNat (some (k, b))

/-! ### make_room (R261) -/

/-- The block index that names an instance of a card. -/
def instIx (s : State) (x : Inst) (r : CardRun) : Nat :=
  match x with
  | .next _ => r.next
  | .single _ => 0
  | .back _ k => ((blockOf s k).map (·.bix.toNat)).getD 0

/-- The first core on which some variant fits once lower-class blocks have left, kept for the instance with what it takes (R261). -/
def roomAnywhere (s : State) (cls card bix : Nat) (vs : List (Nat × Variant)) (w : Nat) (cores : List Nat) : Option Reserve :=
  cores.findSome? fun core => (findRoom s cls card bix vs w [core] true fun _ => []).map fun (_, v, _, m) =>
    { core := core, cls := cls, card := card, bix := bix, since := s.gt, v := v, width := w, places := m.places, at0 := m.at0 }

/-- The first core on which an instance would fit once lower-class blocks have left. -/
def roomCore (s : State) (x : Inst) (r : CardRun) : Option Reserve :=
  let ix := instIx s x r
  match x with
  | .single card =>
    match (if r.kind == 1 then (taskBanks s r).2 else .bad) with
    | .val banks => (taskCore s r.cls card banks (coresFor s r none) true).map fun core =>
      { core := core, cls := r.cls, card := card, bix := ix, since := s.gt, v := { b := banks } }
    | .bad => none
    | .waits => none
  | .next card => match readLaunch s r.ctx r.run with
    | (s1, .val l) =>
      let vs := (numbered l.variants).filter fun v => (claimFor s1 r card l.spill l.width v.2 none).isSome
      roomAnywhere s1 r.cls card ix vs l.width (coresFor s1 r none)
    | (_, .bad) => none
    | (_, .waits) => none
  | .back card k => match blockOf s k with
    | none => none
    | some b =>
      let vs := if b.life == .saved then [(b.vix, b.v)] else (numbered b.variants).filter fun v =>
        (claimFor s r card b.spillCap b.width v.2 (some k)).isSome
      roomAnywhere s r.cls card ix vs b.width (coresFor s r none)

/-- A block that a switch request may move: its launch has a frame capability with a slot left, and another variant. -/
def mayRequest (s : State) (b : Block) : Bool :=
  let asked := (s.blocks.filter fun (_, y) => y.card == b.card && (y.swReq || y.frame.isSome)).length
  b.frameCap.tag && 1 < b.variants.length && asked < frameSlots b

/-- The order of make_room: the lowest class first, and within a class the latest dispatched. -/
def roomBefore (a b : Nat × Block) : Bool := a.2.cls < b.2.cls || (a.2.cls == b.2.cls && b.2.seq ≤ a.2.seq)

/-- An element put in its place. -/
def insertBy (x : Nat × Block) : List (Nat × Block) → List (Nat × Block)
  | [] => [x]
  | y :: r => if roomBefore x y then x :: y :: r else y :: insertBy x r

/-- make_room(x). -/
def makeRoom (s : State) (x : Inst) (r : CardRun) : State :=
  let ix := instIx s x r
  if s.curator.reserve.any fun q => q.card == x.card && q.bix == ix then s
  else match roomCore s x r with
    | none => s
    | some q =>
      let s : State := { s with curator := { s.curator with reserve := s.curator.reserve ++ [q] } }
      let low := (s.blocks.filter fun (_, b) => b.core == q.core && isLower r.cls b).foldl (fun l y => insertBy y l) ([] : List (Nat × Block))
      low.foldl (fun s y => match blockOf s y.1 with
        | some b => if !b.swReq && mayRequest s b then modBlock s y.1 fun b => { b with swReq := true } else s
        | none => s) s

/-- The instance of a reservation is still to be placed. -/
def reserveLive (s : State) (q : Reserve) : Bool :=
  match mfind s.curator.runs q.card with
  | none => false
  | some r =>
    if r.kind == 0 then
      (decide (r.next ≤ q.bix) && decide (q.bix ≤ r.arg.toNat)) ||
        s.blocks.any fun (_, b) => b.card == q.card && b.bix.toNat == q.bix && (b.life == .retired || b.life == .saved)
    else !r.started

/-- A reservation whose instance is no longer to be placed is dropped. -/
def pruneReserve (s : State) : State :=
  s.curator.reserve.foldl (fun s q => if reserveLive s q then s else unreserve s q.card q.bix) s

/-! ### A pass (R258) -/

/-- A deficit. -/
def deficit (s : State) (cls w : Nat) : Nat := mget s.curator.defs (64 * cls + w) 0
/-- A deficit set. -/
def setDeficit (s : State) (cls w n : Nat) : State :=
  { s with curator := { s.curator with defs := mput s.curator.defs (64 * cls + w) n 0 } }

/-- The inner loop of a (class, world) pair: whether it placed anything. -/
def servePair (cls w : Nat) : Nat → State → Bool → State × Bool
  | 0, s, placed => (s, placed)
  | n + 1, s, placed =>
    match headOf s cls w with
    | none => (setDeficit s cls w 0, placed)
    | some (x, r) =>
      let c := chargeOf s x r
      if deficit s cls w < c || (r.kind == 0 && !underCap s w) then (s, placed)
      else match placeInst s x r with
        | .noRoom t => (makeRoom t x r, placed)
        | .waits t => (t, placed)
        | .on t => servePair cls w n (setDeficit t cls w (deficit t cls w - c)) true

/-- One visit of a world in a class. -/
def visitWorld (cls w : Nat) (s : State) (placed : Bool) : State × Bool :=
  if (headOf s cls w).isNone || !underCap s w then (s, placed)
  else
    let s : State := { s with curator := { s.curator with rr := mput s.curator.rr cls w 63 } }
    let d := deficit s cls w + 64 * (worldOf s w).weight
    servePair cls w (d + s.curator.runs.length + 1) (setDeficit s cls w d) placed

/-- The worlds of a class in round-robin order. -/
def visitClass (cls : Nat) (s : State) (placed : Bool) : State × Bool :=
  let from' := mget s.curator.rr cls 63 + 1
  ((List.range Config.worlds).map fun i => (from' + i) % Config.worlds).foldl (fun q w => visitWorld cls w q.1 q.2) (s, placed)

/-- One pass of the Curator, the classes from 7 down (R258). -/
def curatorPass (s : State) : State :=
  let q := ((List.range 8).map fun i => 7 - i).foldl (fun q c => visitClass c q.1 q.2) (pruneReserve (readyPosted s), false)
  { q.1 with curator := { q.1.curator with idleAt := if q.2 then none else some s.gt } }

/-- One pass of a Curator that has come up (R258, R373). After a pass that placed nothing the next waits for a tick. -/
def execCuratorPass (s : State) : Host.Outcome State Fault Refusal :=
  .next (if curReady s && s.curator.idleAt != some s.gt then curatorPass s else s)

/-! ### Carve-outs (R217, R259) -/

/-- The least carve-out that holds the ranges of a core's blocks. -/
def leastCarve (s : State) (core : Nat) : Nat :=
  max 1 ((coreBlocks s core).foldl (fun n b => if b.spad.size == 0 then n else max n (ceilDiv (b.spad.at0 + b.spad.size) Config.carveUnit)) 0)

/-- A core's carve-out lowered once blocks have left (R217, R259): it begins, and completes when no range lies in the units
taken away. -/
def execCarveOutChange (core : Nat) (s : State) : Host.Outcome State Fault Refusal :=
  let x := mget s.hol.cores core {}
  match x.carveTo with
  | some n => if leastCarve s core ≤ n then .next (modCore s core fun x => { x with carve := n, carveTo := none }) else .next s
  | none => if leastCarve s core < x.carve then .next (modCore s core fun x => { x with carveTo := some (leastCarve s core) }) else .next s

/-! ### Completion of a block (R193, R260) -/

/-- Every word of a block's groups is done, and its stash is clean. -/
def blockDrained (b : Block) : Bool := (b.groups.all fun g => g.out.isEmpty) && !stashDirty b

/-- A block off its core. -/
def eraseBlock (s : State) (k : Nat) : State :=
  match blockOf s k with
  | none => s
  | some b => evalLevel { s with blocks := merase s.blocks k, curator := { s.curator with idleAt := none } } (wingOf b.core)

/-- A block counted "done" (R193): its release carries its time to the card. -/
def countDone (s : State) (k : Nat) : State :=
  match blockOf s k with
  | none => s
  | some b => eraseBlock (modRun s b.card fun r => { r with doneN := r.doneN + 1, outPts := max r.outPts (blockRelease b) }) k

/-- A block whose groups have all ended (R193): counters and stash drain, then it is counted, or the count is held while its
context is stopped (R274). A tile task whose steps are over answers (R260). -/
def execBlockCompletion (blk : Nat) (s : State) : Host.Outcome State Fault Refusal :=
  match blockOf s blk with
  | none => .next s
  | some b => match b.task with
    | some t =>
      let finished := match cmdOf s t.cmd with
        | some x => x.submitted && x.token == 0 && (t.code == 2 || !ctxHolds s b.ctx)
        | none => true
      if finished && b.tiles.isEmpty then .next (endTask s blk) else .next s
    | none =>
      if b.life != .resident || !allEnded b then .next s
      else
        let s1 := (List.range b.groups.length).foldl (fun s i => drainGroup s blk i) s
        match writeBackAll s1 blk none with
        | (s2, some l) =>
          let va := (dirtyLines b).head?.bind fun q => (b.stash[q.1]?).map fun r => r.cap.addr.toNat + 64 * q.2
          .next (if l.isHold then ask s2 l else addProbe s2 blk 0 (va.getD 0) needW 2)
        | (s2, none) =>
          match blockOf s2 blk with
          | none => .next s2
          | some b2 =>
            if !blockDrained b2 || b2.tiles.any (fun _ => true) then .next s2
            else if ctxHolds s2 b2.ctx then
              if (ctxOf s2 b2.ctx).held.contains (.block blk) then .next s2
              else .next (modCtx s2 b2.ctx fun x => { x with held := x.held ++ [.block blk] })
            else .next (countDone s2 blk)

end Sys2Proof.Machine
end

