-- ==== Sys2Proof/Machine/Paging.lean ====
section
/-! DEFINITION. Walks on a miss, parking and replay, refused records offered again, and invalidation (R295, R298, R300 to R305,
R308, R309, R342). -/
namespace Sys2Proof.Machine
open Sys2Proof

/-! ### Lanes that wait (R300) -/

/-- Where a waiting lane's translation is needed: an unfilled stash line, or its own address. -/
def laneVa (b : Block) (a : LaneAcc) : Nat × Nat :=
  if a.spad then
    match stashAt b a.va.toNat with
    | some (_, r) => (r.lineVa a.va.toNat, 64)
    | none => (a.va.toNat, a.n)
  else (a.va.toNat, a.n)

/-- The right that a waiting lane needs. -/
def laneNeed (p : Pending) (a : LaneAcc) : BitVec 3 := if p.probe then p.need else if a.spad then needR else a.op.need

/-- The look of a lane that waits. -/
def pendLook (s : State) (b : Block) (p : Pending) (a : LaneAcc) : LaneLook :=
  if p.probe then
    match lookVa s (whoOf s b) a.va.toNat a.n p.need true with
    | .ok _ => .go a
    | l => .stop l
  else lookLane s b (whoOf s b) (p.buf ++ p.todo) a

/-- Lanes in ascending order. -/
def insertLane (a : LaneAcc) : List LaneAcc → List LaneAcc
  | [] => [a]
  | b :: r => if a.lane ≤ b.lane then a :: b :: r else b :: insertLane a r

/-- The lowest of two faults. -/
def lowerFault (f : Option FaultInfo) (g : FaultInfo) : Option FaultInfo :=
  match f with
  | none => some g
  | some f => if f.lane ≤ g.lane then some f else some g

/-- A lane that has faulted: it parks. -/
def Pending.failLane (p : Pending) (a : LaneAcc) (f : FaultInfo) : Pending :=
  { p with todo := p.todo.filter (· != a), flt := insertLane a p.flt, fault := lowerFault p.fault f }

/-- One waiting lane looked at again: confirmed, parked, or left waiting. -/
def relook (s : State) (b : Block) (p : Pending) (a : LaneAcc) : Pending :=
  match pendLook s b p a with
  | .go x => { p with todo := p.todo.filter (· != a), buf := if p.probe then p.buf else insertLane x p.buf }
  | .stop l =>
    match faultOf a.lane (BitVec.ofNat 64 (laneVa b a).1) (laneNeed p a) l with
    | some f => p.failLane a f
    | none => p

/-- The lanes that wait for the host ask for its answers (R330), and those that read a line of another node for the line (R317). -/
def askLanes (s : State) (b : Block) (p : Pending) : State :=
  p.todo.foldl (fun s a => match pendLook s b p a with
    | .go _ => s
    | .stop l => if a.writes then s else ask s l) s

/-- The writes of another node's lines that wait set out, each once (R317). -/
def sendWrites (s : State) (k gix id : Nat) (b : Block) (p : Pending) : State :=
  p.todo.foldl (fun s a => match pendLook s b p a with
    | .stop (.hold pa (.line w t)) =>
      if !a.writes || a.req != 0 then s
      else
        let n := s.fab.nextAsk
        modGroup (sendAsk s w pa t (laneOp a)) k gix (·.modOut id fun p => { p with todo := p.todo.map fun x => if x == a then { x with req := n } else x })
    | _ => s) s

/-- The first lane that still misses. -/
def firstMiss (s : State) (b : Block) (p : Pending) : Option LaneAcc :=
  p.todo.find? fun a => match pendLook s b p a with
    | .go _ => false
    | .stop l => l == .miss

/-- SRC of a parked word (R303). -/
def srcOf (p : Pending) : Nat :=
  if p.probe then p.src.toNat else if (p.flt.head?.map (·.spad)).getD false then 2 else 0

/-- A lane as an address that something waits for. -/
def probeLane (b : Block) (a : LaneAcc) : LaneAcc :=
  { a with spad := false, va := BitVec.ofNat 64 (laneVa b a).1, n := 1, op := .ld, pa := none }

/-- What is left of a word that is to execute again in all its lanes: the addresses that it waits for (R303). -/
def Pending.asProbe (b : Block) (p : Pending) : Pending :=
  { p with ctr := .free, probe := true, src := BitVec.ofNat 4 (srcOf p), dest := .none, buf := [], vals := [], redm := false,
           need := ((p.flt ++ p.todo).head?.map fun a => laneNeed p a).getD needR,
           todo := p.todo.map (probeLane b), flt := p.flt.map (probeLane b) }

/-- A parked word of its run's last packet sends its split back to the run's first: the words of that packet that are
outstanding keep their masks and are not issued again (R36). -/
def parkLast (p : Pending) (g : Group) : Group :=
  match g.split p.split with
  | none => g
  | some q => match q.run with
    | none => g
    | some u =>
      if p.probe || u.len < 2 || u.lost || u.pkts.head? != some p.pkt || q.pc == u.start then g
      else
        let held := (g.out.filter fun x => !x.probe && x.split == p.split && x.pkt == p.pkt).map fun x => (u.len, x.wix)
        (g.restartRun p.split).modSplit p.split fun q => { q with skip := q.skip ++ held }

/-- Every split of a parked group stands at its boundary (R301): inside a run, at the run's first packet (R36). -/
def parkSplits (g : Group) : Group := (g.splits.map (·.no)).foldl (fun (g : Group) n => g.restartRun n) g

/-- A parked word of a packet of a run that is not its last executes again in all its lanes (R36, R303). -/
def rerun (b : Block) (g : Group) (p : Pending) : Pending :=
  match (g.split p.split).bind (·.run) with
  | none => p
  | some u => if !p.probe && !u.lost && u.pkts.tail.contains p.pkt then p.asProbe b else p

/-- A word with faulted lanes and none still to walk parks (R301, R304, R309, R342): its record, its token, its group; a
translation fault of a word that a group in trap mode executes ends the context; the fills of `rett` and a save's write-backs
are no such words. -/
def parkOut (s : State) (k gix id : Nat) : State :=
  match blockOf s k with
  | none => s
  | some b => match b.groups[gix]? with
    | none => s
    | some g => match g.out.find? fun p => p.id == id with
      | none => s
      | some p => match p.fault with
        | none => s
        | some f =>
          if p.token != 0 || p.flt.isEmpty || (firstMiss s b p).isSome then s
          else if p.inTrap && f.integ == 0 && !(p.probe && p.src == 2 && (g.halt == .saved || p.split == 4)) then endContext s b.ctx (some f) true 0 p.pkt
          else
            let (s1, tok) := newToken s
            let s2 := byCore s1 b.core <| faultRecord s1 b.ctx b.world (srcOf p) f p.inTrap tok (lanesMask p.flt).toNat
            let s3 := normRuns (modGroup s2 k gix (parkLast p)) k gix
            modGroup s3 k gix fun g => parkSplits (g.modOut id fun _ => rerun b g { p with token := tok })

/-- A word looked at again: its lanes confirmed or parked; what may be performed is, and a probe with nothing left ends. -/
def settleWord (s : State) (k gix id : Nat) : State :=
  match blockOf s k, (groupOf s k gix).bind fun g => g.out.find? fun p => p.id == id with
  | some b, some p =>
    let s := sendWrites (askLanes s b p) k gix id b p
    let p := (((groupOf s k gix).bind fun g => g.out.find? fun p => p.id == id)).getD p
    let p1 := p.todo.foldl (relook s b) p
    let s1 := modGroup s k gix (·.modOut id fun _ => p1)
    if p1.probe && p1.todo.isEmpty && p1.flt.isEmpty then
      if p1.lines.isEmpty then modGroup s1 k gix (·.dropOut id) else settleFlush s1 k gix id
    else settleOut (parkOut s1 k gix id) k gix
  | _, _ => s

/-- The nested walker translates the first missing address of a word (R295, R300). -/
def execPageWalk (blk gix id : Nat) (s : State) : Host.Outcome State Fault Refusal :=
  match blockOf s blk, (groupOf s blk gix).bind fun g => g.out.find? fun p => p.id == id with
  | some b, some p =>
    match firstMiss s b p with
    | none => .next (settleWord s blk gix id)
    | some a =>
      let va := (laneVa b a).1
      match walkFill s b.ctx va (laneNeed p a) with
      | (s1, .ok _ _ _ _ _ _ _ _ _) => .next (settleWord s1 blk gix id)
      | (s1, .fault kd l i h) =>
        let f : FaultInfo := { lane := a.lane, va := BitVec.ofNat 64 va, kind := kd, level := l, need := laneNeed p a, ipa := i, host := h,
                               integ := 0, pa := 0 }
        .next (settleWord (modGroup s1 blk gix (·.modOut id fun p => p.failLane a f)) blk gix id)
      | (s1, .hold pa k) => .next (settleWord (ask s1 (.hold pa k)) blk gix id)
  | _, _ => .next s

/-! ### Replay (R303) -/

/-- A parked word that a token names tries its lanes again. -/
def Pending.replay (p : Pending) (tok : BitVec 32) : Pending :=
  if p.token == tok && !p.flt.isEmpty then { p with todo := p.flt.foldl (fun l a => insertLane a l) p.todo, flt := [], token := 0, fault := none }
  else p

/-- A tile word that a token names goes on from its step. -/
def TileOp.replay (t : TileOp) (tok : BitVec 32) : TileOp :=
  match t with
  | .tmma gix id pkt ka kb d0 d1 z acq rel pts step fa fb token =>
    .tmma gix id pkt ka kb d0 d1 z acq rel pts step fa fb (if token == tok then 0 else token)
  | .tzero gix id first count => .tzero gix id first count
  | .tdrain gix id lanes row zeros => .tdrain gix id lanes row zeros
  | .trel first count => .trel first count
  | .fresh first count => .fresh first count

/-- A context's requesters are kept parked while it is stopped (R303). -/
def keepsTokens (s : State) (c : Nat) : Bool := ctxHolds s c

/-- The contexts of a world that hold a requester parked on a token. -/
def tokenOwners (s : State) (tok : BitVec 32) : List Nat :=
  (s.blocks.filterMap fun (_, b) =>
    if (b.groups.any fun g => (g.out ++ (g.pre.map (·.parked)).getD []).any fun p => p.token == tok && !p.flt.isEmpty) ||
       (b.tiles.any fun t => t.replay tok != t) || b.wtok == tok then some b.ctx else none) ++
  (s.eng.cmds.filterMap fun x => if x.token == tok then some x.ctx else none)

/-- The requesters of a context parked on a token try again. -/
def replayIn (s : State) (c : Nat) (tok : BitVec 32) : State :=
  { s with
    blocks := s.blocks.map fun (k, b) => (k, if b.ctx == c then
      { b with groups := b.groups.map fun g => { g with out := g.out.map (·.replay tok) }, tiles := b.tiles.map (·.replay tok),
               wtok := if b.wtok == tok then 0 else b.wtok } else b),
    eng := { s.eng with cmds := s.eng.cmds.map fun x => if x.ctx == c && x.token == tok then { x with token := 0 } else x } }

/-- The token names only what a save itself waits for (R303: SRC 2 and 7, and 1 of an entry to a pre-emption handler), which goes
on while the context is stopped. -/
def savesToken (s : State) (c : Nat) (tok : BitVec 32) : Bool :=
  s.blocks.any fun (_, b) => b.ctx == c && (b.wtok == tok ||
    b.groups.any fun g => g.out.any fun p => p.token == tok && p.probe &&
      ((g.halt == .saved && p.src == 2) || (g.tmode.isNone && p.src == 1 && g.waiting.any fun q => q.cause == 0x15)))

/-- The derivation of a world that waits for its store (R339) is stored, or faults again. -/
def retryDerive (s : State) (w : Nat) : State :=
  let t := (worldOf s w).t
  match t.cdWait with
  | none => s
  | some (c, ctx, va, _) =>
    match resolvePieces (hwWho s ctx) needW s [(va, 16)] with
    | (s1, .ok ((p, _) :: _)) =>
      let m := putLine (memPutCap (sealLine s1.mem p.pa (sealTag s1 w)) p.pa (fabCap p c)) p.pa ((lineAt s1.mem p.pa).2 + 1, (lineAt s1.mem p.pa).2 + 1)
      modWorld { s1 with mem := m } w fun r => { r with t := { r.t with cdWait := none, cdctl := (r.t.cdctl &&& ~~~0x40000000FF000000) ||| 0x01000000 } }
    | (s1, .ok []) => s1
    | (s1, .error (a, l)) =>
      match faultOf 0 (BitVec.ofNat 64 a) needW l with
      | none =>
        -- it waits and is tried again; a doorbell page takes no capability
        if l.isHold then modWorld s1 w fun r => { r with t := { r.t with cdWait := some (c, ctx, va, 0), cdctl := r.t.cdctl ||| 0x4000000000000000 } }
        else modWorld s1 w fun r => { r with t := { r.t with cdWait := none, cdctl := (r.t.cdctl &&& ~~~0x40000000FF000000) ||| 0x04000000 } }
      | some f =>
        let (s2, tok) := newToken s1
        let s3 := faultRecord s2 ctx w 5 f false tok 0
        modWorld s3 w fun r => { r with t := { r.t with cdWait := some (c, ctx, va, tok), cdctl := r.t.cdctl ||| 0x4000000000000000 } }

/-- A write of FRESUME (R297, R303): in a world's own block, or by world 0. -/
def execFresumeWrite (writer world : Nat) (token : BitVec 32) (s : State) : Host.Outcome State Fault Refusal :=
  if (writer != 0 && writer != world) || silenced s writer || token == 0 then .next s
  else
    let mine := (tokenOwners s token).eraseDups.filter fun c => world == 0 || (ctxOf s c).world == world
    let s1 := mine.foldl (fun s c =>
      if keepsTokens s c && !savesToken s c token then modCtx s c fun x => { x with keptTok := x.keptTok ++ [token] }
      else replayIn s c token) s
    let waits := (s.worlds.filter fun (w, r) => (world == 0 || w == world) && (r.t.cdWait.map (·.2.2.2)) == some token).map (·.1)
    .next (waits.foldl retryDerive s1)

/-- The tokens kept while a context was stopped (R303). -/
def replayKept (s : State) (c : Nat) : State :=
  (ctxOf s c).keptTok.foldl (fun s t => replayIn s c t) (modCtx s c fun x => { x with keptTok := [] })

/-! ### Refused records (R305) -/

/-- A refused record offered again: accepted, or refused with its back-off doubled. -/
def execRingRecordRetry (id : Nat) (s : State) : Host.Outcome State Fault Refusal :=
  match s.rings.find? fun r => r.id == id with
  | none => .next s
  | some r => match ringOffer s r.ring r.world r.words with
    | some s1 =>
      let s2 : State := { s1 with rings := s1.rings.filter fun x => x.id != id }
      .next (if r.ring == 0 then raiseIrq s2 r.world 1 else s2)
    | none =>
      let s1 := askRing (modWorld s r.world fun x => { x with refused := satInc 0xFFFF x.refused }) r.ring r.world
      .next { s1 with rings := s1.rings.map fun x => if x.id == id then { x with delay := min 65536 (2 * x.delay), since := s.gt } else x }

/-! ### Invalidation (R298) -/

/-- An address of a context lies in the scope of an invalidation. -/
def inScope (s : State) (w : Nat) (v : DWord) (a : BitVec 45) (c va n : Nat) : Bool :=
  let lo := a.toNat * 4096
  (ctxOf s c).world == w && match bits v 60 2 with
    | 0 => c == bits v 48 12 && va < lo + bits v 0 32 * 4096 && lo < va + n
    | 1 => c == bits v 48 12
    | 2 => true
    | _ => false

/-- The stash lines of the scope: region and line. -/
def scopeLines (s : State) (w : Nat) (v : DWord) (a : BitVec 45) (b : Block) : List (Nat × Nat) :=
  (b.stash.zip (List.range b.stash.length)).flatMap fun (r, i) =>
    ((List.range (r.len / 64)).filter fun n => inScope s w v a b.ctx (r.cap.addr.toNat + 64 * n) 64).map fun n => (i, n)

/-- Stash lines dropped, but for those that are dirty still. -/
def dropClean (b : Block) (lines : List (Nat × Nat)) : Block :=
  let drop : Nat → Stash → Stash := fun n r => if !(dirtyBytes r n).isEmpty then r else { r with fill := merase r.fill n }
  lines.foldl (fun b q => { b with stash := modAt b.stash q.1 (drop q.2) }) b

/-- The lines among some that are dirty, of one group, and whose write-back is not under way: first byte of the region, line. -/
def unflushed (b : Block) (lines : List (Nat × Nat)) (gix : Nat) : List (Nat × Nat) :=
  let under := b.groups.flatMap fun g => g.out.flatMap (·.lines)
  lines.filterMap fun q => match b.stash[q.1]? with
    | some r => if (dirtyBytes r q.2).any (fun x => mget r.dirty (64 * q.2 + x) 0 == gix + 1) && !under.contains (r.at0, q.2)
        then some (r.at0, q.2) else none
    | none => none

/-- The dirty stash lines of the scope written back, then every stash line of it dropped. A write-back that meets a fault
parks (R303: SRC 2), and its line stays until it is over. -/
def dropStash (s : State) (w : Nat) (v : DWord) (a : BitVec 45) (k : Nat) : State :=
  match blockOf s k with
  | none => s
  | some b =>
    let lines := scopeLines s w v a b
    let s1 := lines.foldl (fun s q => (writeBackLine s k q.1 q.2 none).1) s
    let s2 := (List.range b.groups.length).foldl (fun s gix => match blockOf s k with
      | none => s
      | some b => match unflushed b lines gix with
        | [] => s
        | ls => startFlush s k gix { id := 0, ctr := .free, split := 4, lines := ls }) s1
    modBlock s2 k (dropClean · lines)

/-- A dirty stash line of the scope is left. -/
def scopeDirty (s : State) (w : Nat) (v : DWord) (a : BitVec 45) : Bool :=
  s.blocks.any fun (_, b) => (scopeLines s w v a b).any fun q => (b.stash[q.1]?).any fun r => !(dirtyBytes r q.2).isEmpty

/-- The bits of INVCTL that hold (R297). -/
def invctlMask : DWord := 0x3FFF0000FFFFFFFF

/-- A write of INVCTL with GO (R298): entries dropped, lines of the scope written back and dropped. -/
def execInvalidationStart (writer world : Nat) (v : BitVec 64) (s : State) : Host.Outcome State Fault Refusal :=
  let r := worldOf s world
  let scope := bits v 60 2
  if (writer != 0 && writer != world) || silenced s writer then .next s
  else if r.invctl.getLsbD 62 || scope == 3 || (scope == 2 && writer != 0) then .next s
  else if v.getLsbD 63 == false then .next (modWorld s world fun r => { r with invctl := v &&& invctlMask })
  else
    let a := r.invaddr
    let s1 := modMem s fun m => { m with mtlb := m.mtlb.filter fun t => !inScope s world v a t.ctx t.va t.size }
    let s2 := s1.blocks.foldl (fun s kb => dropStash s world v a kb.1) s1
    let s3 := modMem s2 fun m => { m with copies := m.copies.filter fun c => !inScope s2 world v a c.ctx c.va 64 }
    .next (modWorld s3 world fun r => { r with invctl := (v &&& invctlMask) ||| 0x4000000000000000, invat := a })

/-- The last page lock and the last dirty line of the scope are gone: its lines are dropped, and BUSY clears (R298). -/
def execInvalidationComplete (world : Nat) (s : State) : Host.Outcome State Fault Refusal :=
  let r := worldOf s world
  if r.invctl.getLsbD 62 == false || (s.mem.locks.any fun l => inScope s world r.invctl r.invat l.ctx l.va l.size) ||
      scopeDirty s world r.invctl r.invat then .next s
  else
    let s := { s with blocks := s.blocks.map fun (k, b) => (k, dropClean b (scopeLines s world r.invctl r.invat b)) }
    .next (modWorld s world fun r => { r with invctl := r.invctl &&& ~~~0x4000000000000000 })

end Sys2Proof.Machine
end

