-- ==== Sys2Proof/Machine/Variants.lean ====
section
/-! DEFINITION. Variant switches: the frame write, the wait at a switch point, retirement (R225 to R228). -/
namespace Sys2Proof.Machine
open Sys2Proof

/-- The switch point that every group of a block waits at, if the switch is taken there (R225). -/
def takenAt (b : Block) : Option SwitchPt :=
  b.points.find? fun x => allAtSwitch b x.n && (b.groups.any fun g => !g.over) && switchTaken b x

/-- A frame or save-slot write that cannot be made parks (R228, R303): SRC 7. -/
def parkWrite (s : State) (k : Nat) (b : Block) (va : Nat) (l : Look) : State :=
  match faultOf 0 (BitVec.ofNat 64 va) needW l with
  | none => ask s l
  | some f =>
    let (s1, tok) := newToken s
    modBlock (byCore s1 b.core (faultRecord s1 b.ctx b.world 7 f false tok 0)) k fun b => { b with wtok := tok }

/-- The frame of a block written into its slot; the request stands until every write has been made (R226 to R228). -/
def writeFrame (s : State) (k : Nat) (x : SwitchPt) : State :=
  match blockOf s k with
  | none => s
  | some b =>
    match putFrame s b.ctx (frameVa b) (blockTop b) (frameParts b x) with
    | (s1, .ok t) => modBlock s1 k fun b => { raiseBlock b t with swReq := false }
    | (s1, .error (va, l)) => parkWrite s1 k b va l

/-- A switch taken (R227): counters drain, `cyc` stops, the frame is written. -/
def execVariantSwitch (blk : Nat) (s : State) : Host.Outcome State Fault Refusal :=
  match blockOf s blk with
  | none => .next s
  | some b =>
    if !b.swReq || b.wtok != 0 then .next s
    else if b.life == .framing then
      match b.points.find? fun x => some x.n == b.frame with
      | some x => .next (writeFrame s blk x)
      | none => .next s
    else if b.life != .resident || (ctxOf s b.ctx).st != 1 then .next s
    else match takenAt b with
      | none => .next s
      | some x =>
        let s1 := (List.range b.groups.length).foldl (fun s i => drainGroup s blk i) s
        match blockOf s1 blk with
        | none => .next s1
        | some b1 =>
          if !blockDrained b1 || !b1.tiles.isEmpty then .next s1
          else match freeFrame s1 b1 with
            | none => .next s1
            | some i => .next (writeFrame (putBlock s1 blk { b1 with life := .framing, frame := some x.n, frameSlot := i }) blk x)

/-- A group has waited 1,024 cycles without the switch being taken (R225). -/
def execSwitchWaitTimeout (blk gix : Nat) (s : State) : Host.Outcome State Fault Refusal :=
  match blockOf s blk, groupOf s blk gix with
  | some b, some g =>
    let late := g.splits.any fun p => match p.wait with
      | .switchPt _ since => since + 1024 ≤ g.cycQ / 4
      | _ => false
    if b.life == .resident && late && (takenAt b).isNone then .next (passSwitch s blk) else .next s
  | _, _ => .next s

/-- A block whose frame is whole retires (R227): its room is released, and it waits in the pool with its block index. -/
def retireBlock (s : State) (k : Nat) (b : Block) : State :=
  let b1 := { b with life := .retired, pts0 := blockTop b, groups := [], spad := {}, chans := [], acq := 0, acc := [], spills := [], swReq := false }
  let s1 := putBlock s k b1
  evalLevel { s1 with curator := { s1.curator with idleAt := none } } (wingOf b.core)

/-- The frame write of a block is complete (R227). -/
def execBlockRetire (blk : Nat) (s : State) : Host.Outcome State Fault Refusal :=
  match blockOf s blk with
  | none => .next s
  | some b => if b.life == .framing && !b.swReq then .next (retireBlock s blk b) else .next s

end Sys2Proof.Machine
end

