-- ==== Sys2Proof/Machine/Contexts.lean ====
section
/-! DEFINITION. Contexts: enabling, stop requests, the freeze, handlers and saves, resume, debug stops (R265 to R281, R285,
R286, R288 to R292, R303, R310). -/
namespace Sys2Proof.Config
open Sys2Proof.Machine

/-- What the device finds in a save area that host software has copied from another VX9, by the bytes, whose layout is the
device's own (R279, R290): the runs of its cards, each with its saved blocks. -/
opaque movedBlocks : List Byte → List (CardRun × List Block)

end Sys2Proof.Config

namespace Sys2Proof.Machine
open Sys2Proof

/-! ### Peers (R286, R288) -/

/-- One window of each holder among some. -/
def oneEach (s : State) : List Nat → List Nat → List Nat
  | [], _ => []
  | n :: r, seen =>
    let c := (mget s.fab.wins n {}).ctx
    if seen.contains c then oneEach s r seen else n :: oneEach s r (c :: seen)

/-- A notice sent to every peer of a context, with the number of the stop and the ticks stopped: the hub brings it to a holder
here as the next input, and sends it outward to the holder of a window of another node. -/
def tellPeers (s : State) (c : Nat) (ended : Bool) (num ticks : Nat) : State :=
  let x := ctxOf s c
  let out := x.rpeers.foldl (fun s p => answer s 14 x.world
    (bytesLE 4 p.1 ++ bytesLE 4 p.2 ++ [if ended then 1 else 0] ++ bytesLE 4 num ++ bytesLE 8 ticks)) s
  { out with inbox := out.inbox ++ (oneEach s x.peers []).map fun n => .notice n ended num ticks }

/-- The notices of a window's target to its holder that are on their way. -/
def noticesOf (s : State) (n : Nat) : Stimulus → Bool
  | .notice m _ _ _ => (mget s.fab.wins m {}).ctx == (mget s.fab.wins n {}).ctx && sameTarget s m n
  | .op _ => false
  | .ticks _ => false
  | .join _ _ _ => false
  | .read _ _ _ => false
  | .bflip _ _ _ => false
  | .soft _ => false

/-- A window stops being open (R288): its holder gets the KIND 6 arrival; the waits bound to it end with it. -/
def closeWindow (s : State) (n : Nat) : State :=
  let w := mget s.fab.wins n {}
  if !w.opened then s
  else
    -- R288: every notice that the target has sent comes first
    let s := (s.inbox.filter (noticesOf s n)).foldl (fun s x => match x with
      | .notice m e num t => takeNotice s m e num t
      | .op _ => s
      | .ticks _ => s
      | .join _ _ _ => s
      | .read _ _ _ => s
      | .bflip _ _ _ => s
      | .soft _ => s) { s with inbox := s.inbox.filter fun x => !noticesOf s n x }
    let s := modWin s n fun w => { w with opened := false, paused := false }
    let s := modCtx s w.rctx fun x => { x with peers := x.peers.filter (· != n) }
    arrive s w.ctx { kind := 6, src := BitVec.ofNat 12 w.rctx, data := BitVec.ofNat 32 n, win := some n }

/-- Every window that is open to a context closes: the holders of those of other nodes are told outward. -/
def closePeers (s : State) (c : Nat) : State :=
  let x := ctxOf s c
  let out := x.rpeers.foldl (fun s p => answer s 15 x.world (bytesLE 4 p.1 ++ bytesLE 4 p.2)) (x.peers.foldl closeWindow s)
  modCtx out c fun x => { x with peers := [], rpeers := [] }

/-! ### Stop requests (R272, R273) -/

/-- The blocks of a context that a stop concerns. -/
def stopBlocks (s : State) (c : Nat) : List (Nat × Block) :=
  s.blocks.filter fun (_, b) => b.ctx == c && b.task.isNone && b.life == .resident

/-- A split as a halt leaves it: at its resume packet (R36), or before the packet after a switch point. -/
def haltSplit (p : Split) : Split := p.saved

/-- A group as its halt leaves it: its transactions abort, its runs go back to their first packets. -/
def stopGroup (P : Nat) (g : Group) : Group :=
  let g1 := abortAll P g 10
  let g2 := (g1.splits.map (·.no)).foldl (fun (g : Group) n => g.restartRun n) g1
  { g2 with splits := g2.splits.map haltSplit, halt := .halted }

/-- A trap of the group that can be entered now (R202). -/
def Group.aboutToTrap (g : Group) (P : Nat) : Bool := g.waiting.any fun q => g.mayTake q && !g.entryWaits P q

/-- A group halts at its boundary (R273). A group in trap mode, or one that can enter a trap now, runs on; a parked one halts at
once. A trap that waits for what the stop holds is taken after resume. -/
def haltGroup (P : Nat) (g : Group) : Group :=
  if g.halt != .no || g.inPacket || (!isParked g && (g.tmode.isSome || g.aboutToTrap P)) then g else stopGroup P g

/-- The groups of a context that may halt do, and the switch requests of its blocks end. An alarm that is due fires first
(R292). -/
def haltBlocks (s : State) (c : Nat) : State :=
  (stopBlocks s c).foldl (fun s kb =>
    let s := (List.range kb.2.groups.length).foldl (fun s i =>
      let s := fireAlarm s kb.1 i
      normRuns (if (groupOf s kb.1 i).any fun g => !g.tx.isEmpty then deliverAll s kb.1 i else s) kb.1 i) s
    modBlock s kb.1 fun b => { b with swReq := false, groups := b.groups.map (haltGroup b.v.p) }) s

/-- A stop requested of a running context (R272): absorbed in any other state. -/
def requestStop (s : State) (c cause : Nat) : State :=
  let x := ctxOf s c
  if x.st != 1 then s
  else
    let s := modCtx s c fun x => { x with st := 2, cause := cause, reqAt := s.gt }
    let s := { s with blocks := s.blocks.map fun (k, b) => (k, if b.ctx == c then { b with groups := b.groups.map fun g => { g with reqQ := 0 } } else b) }
    haltBlocks s c

/-- A slice that has run out (R272). -/
def execSliceExpiry (ctx : Nat) (s : State) : Host.Outcome State Fault Refusal :=
  let x := ctxOf s ctx
  match x.sliceAt with
  | some t =>
    if x.st == 1 && x.slice != 0 && holdsBlock s ctx && t + x.slice.toNat ≤ s.gt then .next (requestStop s ctx 1) else .next s
  | none => .next s

/-- 800 ticks after a reservation the contexts of its lower-class blocks are stopped (R261). -/
def execMakeRoomTimeout (s : State) : Host.Outcome State Fault Refusal :=
  .next (s.curator.reserve.foldl (fun s q =>
    if q.asked || s.gt < q.since + 800 then s
    else
      let s := ((s.blocks.filter fun (_, b) => b.core == q.core && isLower q.cls b).map fun (_, b) => b.ctx).eraseDups.foldl
        (fun s c => requestStop s c 2) s
      { s with curator := { s.curator with reserve := s.curator.reserve.map fun r => if r = q then { r with asked := true } else r } }) s)

/-- A group in trap mode whose budget since the request has run out halts at its boundary (R273). -/
def execTrapModeBudgetExpiry (blk gix : Nat) (s : State) : Host.Outcome State Fault Refusal :=
  match blockOf s blk, groupOf s blk gix with
  | some b, some g =>
    if (ctxOf s b.ctx).st == 2 && g.halt == .no && g.tmode.isSome && !g.inPacket && !(g.waiting.any g.mayTake) &&
        4 * (worldOf s b.world).budget ≤ g.reqQ then
      let s1 := normRuns (deliverAll s blk gix) blk gix
      .next (modGroup s1 blk gix (stopGroup b.v.p))
    else .next s
  | _, _ => .next s

/-! ### The freeze instant (R269, R273, R275) -/

/-- A group that has nothing more to issue before the freeze: halted with its last packet's cycles over, or ended. -/
def groupStill (g : Group) : Bool := (g.halt == .halted && g.busy == 0) || (g.splits.isEmpty && g.tmode.isNone)

/-- The trap of a pre-emption entry (R275): cause 0x15, its resume point the group's. -/
def preemptReq (p : Split) : TrapReq := { cause := 0x15, widx := p.word, resume := .next, split := p.no, pkt := p.pc }

/-- A word that waits for what a stop holds: parked lanes, or a load or store behind a tile word or an engine command that goes on
at resume (R240, R274, R301, R334). -/
def Group.heldBack (g : Group) (p : Pending) : Bool :=
  !p.flt.isEmpty || (!p.probe && (p.ctr == .ld || p.ctr == .st) && !(g.settled.any fun q => q.id == p.id))

/-- A halted group at T_f (R92, R275): once its outstanding accesses have completed, the forced save, or its control state saved
and its handler entered. The handler runs without the words that the stop holds. -/
def freezeGroup (k gix budget : Nat) (s : State) : State :=
  let s := drainGroup s k gix
  match groupOf s k gix with
  | none => s
  | some g =>
    if g.halt != .halted || unconfirmed g then s
    else
      if g.tmode.isSome || g.tr.tvec.getLsbD 63 == false || budget == 0 then
        modBlock s k fun b => { b.modGroup gix fun g => { g with halt := .saved } with keep := b.v.spad }
      else
        match (groupOf s k gix).bind Group.low with
        | none => s
        | some p =>
          let s := modGroup s k gix fun g =>
            { g with
              pre := some { r := g.r, splits := g.splits, stack := g.stack, lo := g.lo, hi := g.hi, qb := g.qb, pat := g.pat, ctal := g.tr.ctal,
                            cycQ := g.cycQ, parked := g.out.filter g.heldBack, pts := g.pts },
              out := g.out.filter (!g.heldBack ·), halt := .handler (4 * budget) }
          takeTrap s k gix (preemptReq p)

/-- The stash of a block written back as far as its lines are translated (R275). -/
def flushBlock (s : State) (k : Nat) : State := writeBackRest s k

/-- A block at T_f (R275): its accesses complete, the contents of its channels are kept, and each group enters its handler or
is saved. -/
def freezeBlock (s : State) (k : Nat) (b : Block) : State :=
  let gs := List.range b.groups.length
  let s := gs.foldl (fun s i => drainGroup s k i) (flushBlock s k)
  gs.foldl (fun s i => freezeGroup k i (worldOf s b.world).budget s) (modBlock s k fun b => { b with preChans := some b.chans })

/-- The last group of a stopping context has halted: its clock stands (R269, R273, R275, R286, R289). -/
def freeze (s : State) (c : Nat) : State :=
  let x := ctxOf s c
  let bs := stopBlocks s c
  let s := modCtx s c fun y => { y with f := ctOf s c, tf := s.gt, fset := false, st := if x.dbg then 5 else 3, pause := y.pause + 1, paused := true }
  let s := tellPeers s c false (x.pause + 1).toNat 0
  if x.dbg then s else bs.foldl (fun s kb => if allEnded kb.2 then s else freezeBlock s kb.1 kb.2) s

/-- The groups whose accesses have completed since the freeze instant (R92, R275). -/
def freezeLate (s : State) (c : Nat) : State :=
  (stopBlocks s c).foldl (fun s kb => if allEnded kb.2 then s else
    (List.range kb.2.groups.length).foldl (fun s i => freezeGroup kb.1 i (worldOf s kb.2.world).budget s) s) s

/-- The freeze instant of a halting context; then the groups that were not drained by it. -/
def execFreezeInstant (ctx : Nat) (s : State) : Host.Outcome State Fault Refusal :=
  if (ctxOf s ctx).st == 3 then .next (freezeLate s ctx)
  else if (ctxOf s ctx).st != 2 then .next s
  else
    let s1 := haltBlocks s ctx
    if (stopBlocks s1 ctx).all fun kb => kb.2.groups.all groupStill then .next (freeze s1 ctx) else .next s1

/-! ### Handlers and saves (R276 to R280) -/

/-- A group that has not come to its handler, or stands in it, gives that up: the entry, and the addresses that it waits for. -/
def Group.dropEntry (g : Group) : Group :=
  { g.setWaiting (g.waiting.filter fun q => q.cause != 0x15) with out := g.out.filter fun p => !(p.probe && p.src == 1) }

/-- A group whose budget has run out is saved by force, its whole scratchpad kept (R278), whether it has entered its handler or
still waits to. -/
def execHandlerBudgetExpiry (blk gix : Nat) (s : State) : Host.Outcome State Fault Refusal :=
  match groupOf s blk gix with
  | none => .next s
  | some g =>
    if g.halt == .handler 0 && !unconfirmed g.dropEntry then
      .next (modBlock (drainGroup (modGroup s blk gix Group.dropEntry) blk gix) blk fun b =>
        { b.modGroup gix endHandler with keep := b.v.spad })
    else .next s

/-- Every group of a block has been saved or has ended with its accesses complete. -/
def blockSaved (b : Block) : Bool := b.groups.all fun g => g.halt == .saved || (g.splits.isEmpty && g.tmode.isNone && !unconfirmed g)

/-- A scratchpad as a save leaves it (R277): bytes from `keep` on read empty and untagged. -/
def keepSpad (p : Spad) (keep : Nat) : Spad :=
  { p with bytes := p.bytes.filter fun (o, _) => o < keep, tags := p.tags.filter fun (o, _) => 16 * o < keep,
           full := p.full.filter fun (o, _) => 16 * o < keep, fmt := p.fmt.filter fun (o, _) => 64 * o < keep }

/-- The slot of a block written (R279). Its layout is the device's own: the bytes are free values. -/
def writeSlot (s : State) (k : Nat) (b : Block) : State × Bool :=
  let w := hwWho s b.ctx
  let va := capBase (ctxOf s b.ctx).save + b.slot.1
  match resolvePieces w needW s (linePieces va b.slot.2) with
  | (s1, .ok ps) =>
    let bs := (List.range b.slot.2).map (Config.slotByte s1.nfree)
    ({ storeLateOut s1 w bs ps with nfree := s1.nfree + 1 }, true)
  | (s1, .error (va, l)) => (parkWrite s1 k b va l, false)

/-- Banks parked on the shadow side of the core, another context's there first written to its slot (R280). -/
def parkBanks (s : State) (k : Nat) : State :=
  match blockOf s k with
  | none => s
  | some b =>
    if b.acq == 0 then s
    else { s with blocks := s.blocks.map fun (j, y) =>
             (j, if j == k then { y with shadow := some y.core } else if y.shadow == some b.core && y.ctx != b.ctx then { y with shadow := none } else y) }

/-- A block as its save leaves it: stash lines beyond what is kept are filled again when they are read. -/
def savedBlock (b : Block) : Block :=
  let stash := b.stash.map fun r => { r with fill := r.fill.filter fun (n, _) => r.at0 + 64 * n + 64 ≤ b.keep }
  { b with life := .saved, spad := keepSpad b.spad b.keep, keep := 0, swReq := false, stash := stash,
           chans := b.preChans.getD b.chans, preChans := none,
           groups := b.groups.map fun g => { g with busy := 0 } }

/-- One block saved: its stash clean, its slot written. -/
def saveBlock (s : State) (k : Nat) : State × Bool :=
  match blockOf s k with
  | none => (s, true)
  | some b =>
    if b.wtok != 0 || b.groups.any fun g => g.out.any fun p => p.probe && p.src == 2 then (s, false)
    else match writeBackAll s k none with
      | (s1, some l) =>
        let va := (dirtyLines b).head?.bind fun q => (b.stash[q.1]?).map fun r => r.cap.addr.toNat + 64 * q.2
        (if l.isHold then ask s1 l else addProbe s1 k 0 (va.getD 0) needW 2, false)
      | (s1, none) =>
        match blockOf s1 k with
        | none => (s1, true)
        | some b1 => match writeSlot s1 k b1 with
          | (s2, true) =>
            (evalLevel (parkBanks (modBlock s2 k savedBlock) k) (wingOf b.core), true)
          | (s2, false) => (s2, false)

/-- Every group's save is complete: the context is stopped (R268, R277). -/
def execSaveComplete (ctx : Nat) (s : State) : Host.Outcome State Fault Refusal :=
  let bs := (stopBlocks s ctx).filter fun kb => !allEnded kb.2
  if (ctxOf s ctx).st != 3 || !(bs.all fun kb => blockSaved kb.2) then .next s
  else
    let q := bs.foldl (fun q kb => if q.2 then saveBlock q.1 kb.1 else q) (s, true)
    if q.2 then
      let s1 := modCtx q.1 ctx fun x => { x with st := 4 }
      .next { s1 with curator := { s1.curator with idleAt := none } }
    else .next q.1

/-! ### Resume (R269, R274, R281, R310) -/

/-- A held completion takes effect (R274). -/
def releaseHeld (s : State) : Held → State
  | .cmd k gix id => modGroup s k gix (·.dropOut id)
  | .tile k gix id => modGroup s k gix (·.dropOut id)
  | .block k => countDone s k

/-- A group goes on after a stop. -/
def wakeGroup (g : Group) : Group := if g.halt == .halted || g.halt == .saved then { g with halt := .no, reqQ := 0 } else g

/-- T_f as a resume takes it: a move's record stands for it (R325), and a context never resumed has none (R310). -/
def freezeTick (s : State) (x : Ctx) : Nat :=
  if x.xmtf.getLsbD 63 then bits x.xmtf 0 63 else if x.fresh then s.gt else x.tf

/-- The resume instant T_r: the five steps of R281. -/
def resume (s : State) (c : Nat) : State :=
  let x := ctxOf s c
  let moved := x.xmtf.getLsbD 63
  let stopped := x.stopped + (s.gt - freezeTick s x)
  let base := if x.fresh || x.fset then (s.gt : Int) - stopped - x.f else x.base
  let s := modCtx s c fun y => { y with st := 1, stopped := stopped, base := base, fset := false, fresh := false, dbg := false, paused := false,
                                        loadAt := none, sliceAt := some s.gt, held := [], steps := [],
                                        pause := if moved then BitVec.ofNat 32 (bits x.xmpn 0 32) else y.pause,
                                        xmtf := y.xmtf &&& 0x7FFFFFFFFFFFFFFF }
  let s := x.held.foldl releaseHeld s
  let s := deliverArrivals c x.f (x.aq.length + x.waiting.length) s
  let s := if x.paused || moved then tellPeers s c true (ctxOf s c).pause.toNat (s.gt - freezeTick s x) else s
  let s : State := { s with
    blocks := s.blocks.map fun (k, b) => (k, if b.ctx == c && (b.life == .loaded || b.life == .resident) then
      { b with life := .resident, groups := b.groups.map wakeGroup } else b),
    eng := { s.eng with cmds := s.eng.cmds.map fun y => if y.ctx == c then { y with stopped := false } else y },
    curator := { s.curator with idleAt := none } }
  evalLevels (replayKept s c)

/-- The save area of a moved context is still to be taken over (R290). -/
def toRestore (s : State) (c : Nat) : Bool :=
  let x := ctxOf s c
  x.st == 4 && x.fresh && x.xmtf.getLsbD 63 && !x.restored && x.save.tag && isUnsealed x.save &&
    hasPerm x.save (pLD ||| pST ||| pLDC ||| pSTC)

/-- A run and its saved blocks found in a save area: the record of its card is found through its capability. -/
def restoreRun (c world : Nat) (s : State) (rb : CardRun × List Block) : State :=
  match resolveIpa s world needRW [(capBase rb.1.cap, 64)] with
  | some (p :: _) =>
    let r : CardRun := { rb.1 with ctx := c, world := world, kind := 0, ready := true, since := s.gt, seq := s.curator.nextSeq }
    let s1 := { putRun s p.1.pa r with curator := { (putRun s p.1.pa r).curator with nextSeq := s.curator.nextSeq + 1 } }
    rb.2.foldl (fun s b => putBlock s (newKey s)
      { b with card := p.1.pa, ctx := c, world := world, life := .saved, shadow := none, task := none, seq := s.curator.nextBlk }) s1
  | _ => s

/-- The runs and saved blocks of a moved context as its save area gives them (R290), once no line that they need waits (R330). -/
def restoreMoved (s : State) (c : Nat) : State :=
  let x := ctxOf s c
  if !toRestore s c then s
  else match hwResolve s c needR (capBase x.save) (capLen x.save) with
    | (s1, .bad) => modCtx s1 c fun x => { x with restored := true }
    | (s1, .waits) => s1
    | (s1, .val ps) =>
      let found := Config.movedBlocks (piecesBytes s1.mem (hwWho s1 c).tag ps)
      let cards := found.map fun rb => (capBase rb.1.cap, 64)
      if ipaHeld s1 x.world needRW cards then askIpa s1 x.world needRW cards
      else
        let s2 := useRange (found.foldl (restoreRun c x.world) s1) c (capBase x.save) (capLen x.save)
        { modCtx s2 c fun x => { x with restored := true } with curator := { s2.curator with idleAt := none } }

/-- A stopped context may resume (R268, R281): its saved blocks are all loaded, no host stop is in force; a new one, once
its first block has been dispatched. -/
def mayResume (s : State) (c : Nat) : Bool :=
  let x := ctxOf s c
  let mine := s.blocks.filter fun (_, b) => b.ctx == c
  x.en && worldRuns (worldOf s x.world) && !x.stop && !toRestore s c &&
    (x.st == 5 || x.st == 6 ||
     (x.st == 4 && !(mine.any fun (_, b) => b.life == .saved) && (!x.fresh || mine.any fun (_, b) => b.life == .loaded)))

/-- A context that may resume does. -/
def tryResume (s : State) (c : Nat) : State := if mayResume s c then resume s c else s

/-- The resume instant. -/
def execResumeInstant (ctx : Nat) (s : State) : Host.Outcome State Fault Refusal := .next (tryResume s ctx)

/-- A loaded block unloaded, unrun. -/
def unload (b : Block) : Block := if b.life == .loaded then { b with life := .saved } else b

/-- The saved blocks of a context were not all loaded within 6,400 ticks of the first load (R281). -/
def execResumeLoadTimeout (ctx : Nat) (s : State) : Host.Outcome State Fault Refusal :=
  let x := ctxOf s ctx
  match x.loadAt with
  | some t =>
    if x.st == 4 && t + 6400 ≤ s.gt then
      let s1 : State := { s with blocks := s.blocks.map fun (k, b) => (k, if b.ctx == ctx then unload b else b),
                                 curator := { s.curator with idleAt := none } }
      .next (evalLevels (modCtx s1 ctx fun x => { x with loadAt := none }))
    else .next s
  | none => .next s

/-! ### The registers of a context (R266, R268, R289) -/

/-- A write of CXCTL.EN = 1 (R266, R268, R334, R367): stopped, F as CXCT was written or 0, tickets from 0. -/
def execContextEnable (world ctx owner : Nat) (s : State) : Host.Outcome State Fault Refusal :=
  let x := ctxOf s ctx
  if world != 0 || x.en || Config.contexts ≤ ctx || Config.worlds ≤ owner then .next s
  else
    let s1 := modCtx s ctx fun x =>
      { x with en := true, world := owner, st := 4, fresh := true, restored := false, f := if x.fset then x.f else 0, stop := false, dbg := false, cause := 0,
               plreq := (worldOf s owner).defpl, ectx := 0, sliceAt := none, loadAt := none, tickets := [] }
    .next { s1 with curator := { s1.curator with idleAt := none },
                    eng := { s1.eng with measures := s1.eng.measures.filter fun m => m.ctx != ctx } }

/-- A context disabled (R266, R288): its saved blocks are cancelled, the windows open to it close. -/
def disableCtx (s : State) (c : Nat) : State :=
  let s1 := closePeers ((ctxBlocks s c).foldl cancelBlock s) c
  modCtx s1 c fun x => { x with en := false, st := 0, f := 0, fset := false, fresh := false, stop := false, paused := false, held := [], keptTok := [] }

/-- A host stop asked by world 0 (R272): in the tick of a resume, the resume comes first (R292). -/
def hostStop (s : State) (c : Nat) : State :=
  let s := if (ctxOf s c).st == 6 then resume s c else s
  requestStop (modCtx s c fun x => { x with stop := true, dbg := if x.st == 1 then false else x.dbg }) c 3

/-- A write of CXCTL.STOP = 1. -/
def execHostStopRequest (world ctx : Nat) (s : State) : Host.Outcome State Fault Refusal :=
  if world == 0 && (ctxOf s ctx).en then .next (hostStop s ctx) else .next s

/-- A write of STOP with DBG (R289): a running context's stop keeps its groups resident. -/
def execDebugStopRequest (world ctx : Nat) (s : State) : Host.Outcome State Fault Refusal :=
  if world != 0 || !(ctxOf s ctx).en then .next s
  else
    let s1 := if (ctxOf s ctx).st == 6 then resume s ctx else s
    .next (requestStop (modCtx s1 ctx fun x => { x with stop := true, dbg := x.st == 1 || x.dbg }) ctx 4)

/-- A write of CXCTL.STOP = 0 (R266, R281, R289): a debug stop ends at once, a stopped context with nothing to place too. -/
def execStopRelease (world ctx : Nat) (s : State) : Host.Outcome State Fault Refusal :=
  if world != 0 || !(ctxOf s ctx).en then .next s
  else
    .next (tryResume (restoreMoved { modCtx s ctx fun x => { x with stop := false } with curator := { s.curator with idleAt := none } } ctx) ctx)

/-- A candidate put in its place (R213). -/
def insertCand (c : Cand) : List Cand → List Cand
  | [] => [c]
  | d :: r => if candBefore c d then c :: d :: r else d :: insertCand c r

/-- The splits of a debug-stopped context that are ready (R212, R289), in the order of R213: block, group and number. -/
def readySplits (s : State) (c : Nat) : List (Nat × Nat × Nat) :=
  let cs := (stopBlocks s c).flatMap fun kb => (kb.2.groups.zip (List.range kb.2.groups.length)).flatMap fun gi =>
    let g : Group := { gi.1 with halt := .stepping }
    (groupCands s kb.1 gi.2 kb.2 g).filter fun x => (g.split x.no).any (splitReady s kb.2 g)
  (cs.foldl (fun l x => insertCand x l) []).map fun x => (x.blk, x.gix, x.no)

/-- A write of STEP (R289): each ready split is to execute its next packet. -/
def execDebugStep (world ctx : Nat) (s : State) : Host.Outcome State Fault Refusal :=
  if world == 0 && (ctxOf s ctx).st == 5 then .next (modCtx s ctx fun x => { x with steps := readySplits s ctx }) else .next s

/-- A write of CXCT by world 0 (R266, R269). -/
def execCxctWrite (world ctx : Nat) (v : BitVec 64) (s : State) : Host.Outcome State Fault Refusal :=
  let x := ctxOf s ctx
  if world == 0 && ctx < Config.contexts && (x.st == 0 || (x.st == 4 && x.f ≤ v.toNat)) then
    .next (modCtx s ctx fun x => { x with f := v.toNat, fset := true })
  else .next s

end Sys2Proof.Machine
end

