-- ==== Sys2Proof/Machine/Fabric.lean ====
section
/-! DEFINITION. The fabric and the host links: windows, messages, access checks, flits and reports, bias, host accesses
(R126, R242, R316, R319 to R323, R326 to R331). -/
namespace Sys2Proof.Machine
open Sys2Proof

/-! ### Windows (R322, R288) -/

/-- An open or a close of a window sent to its target on another node. -/
def sendWindow (s : State) (win : Nat) (opens : Bool) : State :=
  let w := mget s.fab.wins win {}
  if w.node == s.fab.node.toNat then s
  else
    let op : FabOp := if opens then .openWin w.rctx win else .closeWin w.rctx win
    sendPacket s w.node w.world (some { node := s.fab.node.toNat, world := w.world, tworld := w.rworld, pa := 0, time := 0, op := op }) none []

/-- A window opened: an open is sent to the target. -/
def openWindow (s : State) (win : Nat) : State :=
  sendWindow (modWin s win fun w => { w with en := true, opened := false, refused := false }) win true

/-- A write of WCTL.EN = 1 by world 0. -/
def execWindowOpen (world win : Nat) (s : State) : Host.Outcome State Fault Refusal :=
  if world != 0 || 4096 ≤ win || (mget s.fab.wins win {}).en then .next s else .next (openWindow s win)

/-- Room among a context's 64 peers. -/
def peerRoom (x : Ctx) : Bool := x.peers.length + x.rpeers.length < 64

/-- Whether a target context of this package accepts a window: it is a context of the world named, and one of its 64 peer
places is free. -/
def acceptsWindow (s : State) (w : Window) : Bool :=
  let x := ctxOf s w.rctx
  x.en && x.world == w.rworld && peerRoom x

/-- The pause number that a stopped target's acceptance carries. -/
def standingPause (s : State) (c : Nat) : Option (BitVec 32) :=
  let x := ctxOf s c
  if x.st == 1 || x.st == 2 then none else some x.pause

/-- The target's answer (R322): for a context of this package it follows from the state, for another node's it is given. -/
def execWindowOpenAnswer (win : Nat) (accepted : Bool) (pause : Option (BitVec 32)) (s : State) : Host.Outcome State Fault Refusal :=
  let w := mget s.fab.wins win {}
  if !w.en || w.opened || w.refused then .next s
  else
    let here := w.node == s.fab.node.toNat
    let ok := if here then acceptsWindow s w else accepted
    if !ok then .next (modWin s win fun w => { w with refused := true })
    else
      let s1 := modWin s win fun w => { w with opened := true }
      let s2 := if here then modCtx s1 w.rctx fun x => { x with peers := x.peers ++ [win] } else s1
      match if here then standingPause s w.rctx else pause with
      | some n => .next (takeNotice s2 win false n.toNat 0)
      | none => .next s2

/-- A window of another node asks to be open to a context here (R286, R322): the answer outward says whether it is, and the pause
number of a context that stands. -/
def takeOpen (s : State) (world node ctx win : Nat) : State :=
  let x := ctxOf s ctx
  let who := bytesLE 4 node ++ bytesLE 4 win
  if x.en && x.world == world && peerRoom x then
    answer (modCtx s ctx fun x => { x with rpeers := x.rpeers.filter (· != (node, win)) ++ [(node, win)] }) 16 world
      (who ++ [1] ++ match standingPause s ctx with
        | some n => bytesLE 4 n.toNat
        | none => [])
  else answer s 16 world (who ++ [0])

/-- A window of another node closes. -/
def takeClose (s : State) (node ctx win : Nat) : State := modCtx s ctx fun x => { x with rpeers := x.rpeers.filter (· != (node, win)) }

/-- A window stops being open (R288). -/
def execWindowClose (win : Nat) (s : State) : Host.Outcome State Fault Refusal := .next (closeWindow s win)

/-! ### Messages (R323) -/

/-- A message to a context of this package (R283, R323): accepted, or refused while its arrival queue is full. -/
def takeMessage (s : State) (ctx : Nat) (data : BitVec 32) (from' : Nat) : Option State :=
  let x := ctxOf s ctx
  if x.en && x.aq.length < 256 && x.waiting.isEmpty then some (arrive s ctx { kind := 3, src := BitVec.ofNat 12 from', data := data }) else none

/-- A message from another node's window (R319, R323): checked for right M, then delivered, or refused to its sender. -/
def execDoorbellMessage (node world ctx : Nat) (data : BitVec 32) (fromWorld fromNode fromCtx : Nat) (s : State) :
    Host.Outcome State Fault Refusal :=
  let passes := s.fab.access.any fun e => e.tnode == node && e.node == fromNode && e.world == fromWorld && e.tworld == world && e.rights.getLsbD 3
  if node != s.fab.node.toNat || !passes || (ctxOf s ctx).world != world then .next s
  else match takeMessage s ctx data fromCtx with
    | some t => .next (answer t 17 world [1])
    | none => .next (answer s 17 world [0])

/-- A message's store is done: its entry ends with its last message. -/
def messageDone (s : State) (m : Msg) : State :=
  let s := { s with fab := { s.fab with msgs := s.fab.msgs.filter fun x => x.id != m.id } }
  match (groupOf s m.blk m.gix).bind fun g => g.out.find? fun p => p.id == m.pid with
  | some p => if storeOver s m.blk m.gix p then modGroup s m.blk m.gix (·.dropOut m.pid) else s
  | none => s

/-- The fence that a message carries (R323): `.domain` with st and redm, over what its group issued before it. What is left of
its group's accesses holds it back; a dirty stash line is written back first. The state, and whether the message may go. -/
def messageFence (s : State) (m : Msg) : State × Bool :=
  match groupWith s m.blk m.gix with
  | none => (s, true)
  | some (b, g) =>
    if m.delay != 0 then (s, true)
    else if !fenceDone g 5 6 m.pid then (s, false)
    else match flushLines m.blk m.gix (groupDirty b m.gix) s with
      | (t, _, none) => (fencePass t m.blk m.gix 5 6, true)
      | (t, _, some (va, l)) => (if l.isHold then ask t l else addProbe t m.blk m.gix va needW 2, false)

/-- A message offered to its target (R323): accepted, or offered again after 1 µs, doubling to 64 µs. It is never dropped. -/
def execMessageRetry (id : Nat) (accepted : Bool) (s : State) : Host.Outcome State Fault Refusal :=
  match s.fab.msgs.find? fun m => m.id == id with
  | none => .next s
  | some m => match messageFence s m with
  | (s, false) => .next s
  | (s, true) =>
    let w := mget s.fab.wins m.win {}
    let later : State := { s with fab := { s.fab with msgs := s.fab.msgs.map fun x =>
      if x.id == id then { x with delay := min 6400 (max 100 (2 * x.delay)), since := s.gt, sent := false } else x } }
    if !w.opened then .next later
    else if w.node == s.fab.node.toNat then
      match takeMessage s w.rctx m.data w.ctx with
      | some s1 => .next (messageDone s1 m)
      | none => .next later
    else if !m.sent then
      let t := sendPacket s w.node w.world (some { node := s.fab.node.toNat, world := w.world, tworld := w.rworld, pa := 0, time := 0,
                                                   op := .msg w.rctx w.ctx m.data id }) none [(m.data.setWidth 512, 0)]
      .next { t with fab := { t.fab with msgs := t.fab.msgs.map fun x => if x.id == id then { x with sent := true } else x } }
    else if accepted then .next (messageDone s m) else .next later

/-! ### The access check (R319) -/

/-- The last-hop switch checks a request against the access table of the port that leads to the target: passed or refused,
and a refused request changes nothing. -/
def execFabricRequestCheck (port node world tworld pa len : Nat) (need : BitVec 4) (s : State) : Host.Outcome State Fault Refusal :=
  let ok := s.fab.access.any fun e => e.tnode == port && e.node == node && e.world == world && e.tworld == tworld &&
    e.lo ≤ pa && pa + len ≤ e.lo + e.len && e.rights &&& need == need
  .next (answer s 2 world [if ok then 1 else 0])

/-! ### Links (R326 to R328) -/

/-- A capability that arrives with a flit (R126, R320): its tag is kept when its FAB bit is 1. -/
def landCap (s : State) (c : Bool × BitVec 128 × Nat) : State :=
  let cap := ofCapBits c.1 c.2.1
  let kept : Cap := { cap with tag := cap.tag && hasPerm cap pFAB }
  modMem s fun m =>
    let t := (lineAt m c.2.2).2 + 1
    putLine (memPutCap m (c.2.2 / 16 * 16) kept) c.2.2 (t, t)

/-- Bytes that a request touches, and the rights that it needs: R, W, A in bits 0 to 2 (R319). -/
def reqNeeds : FabOp → Nat × BitVec 4
  | .load n => (n, 1)
  | .store bs _ => (bs.length, 2)
  | .sector _ _ => (64, 2)
  | .stc _ _ => (16, 2)
  | .atom n _ _ => (n, 4)
  | .red n _ _ => (n, 4)
  | .openWin _ _ => (0, 0)
  | .closeWin _ _ => (0, 0)
  | .msg _ _ _ _ => (0, 0)

/-- A sector that arrives (R61, R126, R320): its bytes, its code, and the tags of the capabilities whose FAB bit is 1. -/
def landSector (m : MemSys) (pa : Nat) (line : BitVec 512) (side : BitVec 8) : MemSys :=
  let a := pa / 64 * 64
  let tag := fun i => sideTag side (16 * i) && hasPerm (ofCapBits true (BitVec.ofNat 128 (lineNat line (16 * i) 16))) pFAB
  putSide (memWrite m a (bytesLE 64 line.toNat)) a ((List.range 4).foldl (fun v i => sideWithTag v (16 * i) (tag i)) (sideWithFmt 0 (sideFmt side)))

/-- A store of another node applied at its place (R234, R317). -/
def landStore (s : State) (r : FabReq) (f : MemSys → MemSys) : State :=
  let t := max r.time ((lineAt s.mem r.pa).2 + 1)
  modMem s fun m => putLine (f (sealLine m r.pa (sealTag s r.tworld))) r.pa (t, t)

/-- The answer that a request gets from the switch: a packet for its node, with the leases of its line. -/
def reply (s : State) (r : FabReq) (integ : Nat) (line : BitVec 512) (side : BitVec 8) (data : List (BitVec 512 × BitVec 8)) : State :=
  let v := lineAt s.mem r.pa
  sendPacket s r.node r.world none (some { id := r.id, wts := v.1, rts := v.2, integ := integ, line := line, side := side }) data

/-- A request reads its line (R341, R342): every one but a store of a whole sector. -/
def reqReads : FabOp → Bool
  | .load _ => true
  | .store _ _ => true
  | .sector _ _ => false
  | .stc _ _ => true
  | .atom _ _ _ => true
  | .red _ _ _ => true
  | .openWin _ _ => false
  | .closeWin _ _ => false
  | .msg _ _ _ _ => false

/-- A message that a packet brings (R319, R323): checked for right M, and answered with its number and whether it is accepted. -/
def takeMsgReq (s : State) (r : FabReq) (ctx src : Nat) (data : BitVec 32) (num : Nat) : State :=
  let passes := s.fab.access.any fun e => e.tnode == s.fab.node.toNat && e.node == r.node && e.world == r.world && e.tworld == r.tworld && e.rights.getLsbD 3
  let ans := fun (t : State) (ok : Nat) => answer t 17 r.tworld (bytesLE 4 r.node ++ bytesLE 4 num ++ bytesLE 1 ok)
  if !passes || (ctxOf s ctx).world != r.tworld then ans s 0
  else match takeMessage s ctx data src with
    | some t => ans t 1
    | none => ans s 0

/-- A passed request acts at the switch of this package, which homes its line (R317, R318, R320 to R322): loads are served with
the line and its side-band byte, atomics with the old value, `redm` at the home's own time. -/
def serveReq (s : State) (r : FabReq) : State :=
  let tag := sealTag s r.tworld
  let bad := if reqReads r.op then integOf s.mem tag r.pa else 0
  let done := fun t : State => reply t r 0 0 0 []
  if bad != 0 then reply s r bad 0 0 []
  else match r.op with
  | .load _ =>
    let q := leaseLoad s.mem 0 0 tag (BitVec.allOnes 24) { pa := r.pa, va := 0, cache := false } r.time
    -- R341: a line enters a packet sealed
    reply { s with mem := q.1 } r 0 (viewLine q.1 tag r.pa) (sideAt q.1 r.pa) [(storedLine q.1 r.pa, sideAt q.1 r.pa)]
  | .store bs fmt => done (landStore s r fun m => memArrive m r.pa bs fmt)
  | .sector line side => done (landStore s r fun m => landSector m r.pa line side)
  | .stc tag v => done (landStore s r fun m => memPutCap m r.pa (fabCap { pa := r.pa, va := 0, cache := false, fab := true } (ofCapBits tag v)))
  | .atom n op v =>
    let old := memNat s.mem r.pa n
    let t := if (memAtomic s.mem r.pa n op v).2.2 then landStore s r fun m => (memAtomic m r.pa n op v).1
      else
        -- R234: a failing `amcas` is a load that sends no copy
        let q := lineAt s.mem r.pa
        modMem s fun m => putLine m r.pa (q.1, max q.2 (max r.time q.1))
    reply t r 0 (BitVec.ofNat 512 old) 0 [(BitVec.ofNat 512 old, 0)]
  | .red n op v => done (landStore s { r with time := 0 } fun m => (memAtomic m r.pa n op v).1)
  | .openWin ctx win => takeOpen s r.tworld r.node ctx win
  | .closeWin ctx win => takeClose s r.node ctx win
  | .msg ctx src data num => takeMsgReq s r ctx src data num

/-- A request's line waits, as for an access of the device itself, for its stack, a flip or the host (R330, R331, R373). -/
def reqWaits (s : State) (f : Flit) : Option Look :=
  match f.req with
  | none => none
  | some r =>
    let q := reqNeeds r.op
    if q.1 == 0 then none
    else (waits s r.pa (if q.2 == 1 then 1 else 2)).map fun k => .hold r.pa k

/-- A request that arrives with a packet: checked, and performed or refused with nothing changed (R319). -/
def arriveReq (s : State) (r : FabReq) (caps : List (Bool × BitVec 128 × Nat)) : State :=
  let q := reqNeeds r.op
  let open' := q.1 == 0
  if !open' && (homeOf r.pa != .hbm || !accessPass s s.fab.node.toNat r.node r.world r.pa q.1 q.2) then answer s 2 r.world [0]
  else
    let mine := caps.filter fun c => q.2 == 2 && accessPass s s.fab.node.toNat r.node r.world c.2.2 16 2
    mine.foldl landCap (serveReq s r)

/-- The line that a load of another node's line has asked for arrives (R61, R126, R317): its bytes, its side-band byte and its leases.
One that does not open is not installed (R342). -/
def takeLine (m : MemSys) (pa : Nat) (a : FabAns) : MemSys :=
  if a.integ != 0 then { m with got := mput m.got (pa / 64) a.integ 5 }
  else
    let m1 := putSide (memPut m pa (bytesLE 64 a.line.toNat)) pa a.side
    { putLine m1 pa (a.wts, a.rts) with got := mput m1.got (pa / 64) 0 5 }

/-- A write of another node's line has been applied there (R317, R321): its lane goes on with the old value, and takes the time that
the directory gives. -/
def takeWrite (s : State) (pa n id : Nat) (wrote : Bool) (a : FabAns) : State :=
  let lane := fun x : LaneAcc => if x.req == id then
    (if a.integ != 0 then { x with req := 0 } else { x with ans := some (BitVec.ofNat 64 (a.line.toNat % 2 ^ (8 * n))) }) else x
  let s1 : State := { s with blocks := s.blocks.map fun kb => (kb.1, { kb.2 with groups := kb.2.groups.map fun g =>
    { g with out := g.out.map fun p => { p with todo := p.todo.map lane } } }) }
  modMem s1 fun m =>
    if a.integ != 0 then { m with got := mput m.got (pa / 64) a.integ 5 }
    else putLine m pa (a.wts, if wrote then a.rts - 1 else a.rts)

/-- The answer to a request of this package (R317). -/
def takeAns (s : State) (a : FabAns) : State :=
  match s.fab.asks.find? fun q => q.1 == a.id with
  | none => s
  | some (_, pa, op) =>
    let s1 : State := { s with fab := { s.fab with asks := s.fab.asks.filter fun q => q.1 != a.id } }
    match op with
    | .load _ => modMem s1 fun m => takeLine m pa a
    | .atom n o v => takeWrite s1 pa n a.id (aopEval o n (BitVec.ofNat 64 (a.line.toNat % 2 ^ (8 * n))) v).isSome a
    | _ => takeWrite s1 pa 0 a.id true a

/-- A flit checked (R326 to R328): a bad code discards it and every later one until the sequence resumes at RCVD; one that has been
accepted before is discarded. Its slot is free again when it has been looked at; a packet acts with its first flit, which is
accepted once. One whose line waits is not taken, and comes again. -/
def execFlitReceive (port : Nat) (f : Flit) (good : Bool) (s : State) : Host.Outcome State Fault Refusal :=
  let p := portOf s port
  if !p.trained then .next s
  else match (if good && f.seq == p.rcvd then reqWaits s f else none) with
  | some l => .next (ask s l)
  | none =>
    let s := modPort s port fun p =>
      if f.rsv then { p with freedW := mput p.freedW f.world (mget p.freedW f.world 0 + 1) 0 } else { p with freed := p.freed + 1 }
    if !good then .next (modPort s port fun p => { p with gap := true })
    else if f.seq != p.rcvd then .next s
    else
      let s1 := modPort s port fun p => { p with rcvd := p.rcvd + 1, gap := false }
      match f.req with
      | some r => .next (arriveReq s1 r f.caps)
      | none => match f.ans with
        | some a => .next (takeAns s1 a)
        | none => .next s1

/-- Held flits sent again, those of worlds that have no room left out (R326, R328): the port, what it sends, and what it holds. -/
def replayHeld : Port → List Flit → Port × List Flit × List Flit
  | p, [] => (p, [], [])
  | p, f :: r =>
    if (f.seq - p.pRcvd).toNat < 2 ^ 31 then
      match drawReplay p f with
      | some (p1, f1) => let q := replayHeld p1 r; (q.1, f1 :: q.2.1, f1 :: q.2.2)
      | none => let q := replayHeld p r; (q.1, q.2.1, f :: q.2.2)
    else replayHeld p r

/-- The sender replays from RCVD (R326, R328): worlds that have no room wait, and hold no other world back. -/
def execFlitReplay (port : Nat) (s : State) : Host.Outcome State Fault Refusal :=
  let p := portOf s port
  let q := replayHeld p p.held
  .next (q.2.1.foldl (emitFlit · port) (modPort s port fun _ => { q.1 with held := q.2.2 }))

/-- A report sent (R327): FREED, RCVD, and FREEDw for the next eight worlds. -/
def execCreditReportSend (port : Nat) (s : State) : Host.Outcome State Fault Refusal :=
  let p := portOf s port
  let ws := (List.range 8).map fun i => (p.turn + i) % 64
  let data := bytesLE 4 p.freed.toNat ++ bytesLE 4 p.rcvd.toNat ++ ws.flatMap fun w => bytesLE 4 w ++ bytesLE 4 (mget p.freedW w 0).toNat
  .next (modPort (answer s 6 0 data) port fun p => { p with turn := (p.turn + 8) % 64 })

/-- A report received (R327): its totals replace the earlier ones, flits known received are let go, and those that have room
now are sent. -/
def execCreditReportReceive (port : Nat) (r : Report) (s : State) : Host.Outcome State Fault Refusal :=
  .next (pumpPort (modPort s port fun p =>
    { p with pFreed := r.freed, pRcvd := r.rcvd, pFreedW := r.freedW.foldl (fun m x => mput m x.1 x.2 0) p.pFreedW,
             held := p.held.filter fun f => (f.seq - r.rcvd).toNat < 2 ^ 31 }) port)

/-- The buffer and the reserves of this end, announced as the link trains (R326): 2,048 slots, and RSV of each world. -/
def announce (s : State) (port : Nat) : State :=
  answer s 18 0 (bytesLE 2 port ++ bytesLE 2 2048 ++ (List.range 64).flatMap fun w => bytesLE 1 (worldOf s w).frsv)

/-- A link trains (R326): each end announces its buffer and its reserves, and what waits is sent. -/
def execLinkTraining (port : Nat) (peerSlots : Nat) (peerRsv : List (Nat × Nat)) (s : State) : Host.Outcome State Fault Refusal :=
  .next (pumpPort (modPort (announce s port) port fun p =>
    { p with trained := true, peerSlots := peerSlots, peerRsv := peerRsv.foldl (fun m x => mput m x.1 x.2 0) [],
             rsv := (List.range 64).foldl (fun m w => mput m w (worldOf s w).frsv 0) [] }) port)

/-- A write of FNODE by world 0 (R316): the first one stands. -/
def execFnodeWrite (world : Nat) (v : BitVec 64) (s : State) : Host.Outcome State Fault Refusal :=
  if world != 0 || s.fab.nodeSet then .next s
  else .next { s with fab := { s.fab with node := v.setWidth 7, nodeSet := true } }

/-- A write of FRSV by world 0 (R316, R326): discarded where the reserves would exceed 1,024. -/
def execFrsvWrite (world target : Nat) (v : BitVec 64) (s : State) : Host.Outcome State Fault Refusal :=
  let n := bits v 0 7
  let others := (List.range 64).foldl (fun t w => if w == target then t else t + (worldOf s w).frsv) 0
  if world != 0 || 64 ≤ target || 1024 < others + n then .next s
  else .next (modWorld s target fun r => { r with frsv := n })

/-! ### Bias (R330, R331) -/

/-- A line lies in the pages of the flip. -/
def inFlip (f : Bflip) (pa : Nat) : Bool := f.page ≤ pa / 4096 && pa / 4096 < f.page + f.len.toNat

/-- The physical line of a stash line: that of its fill, or of a line all of whose bytes have been stored unfilled, its
translation's. -/
def stashPa (s : State) (b : Block) (r : Stash) (n : Nat) : Option Nat :=
  match mfind r.fill n with
  | some x => some x.pa
  | none => match walk s b.ctx (r.cap.addr.toNat + 64 * n) needW with
    | .ok pa _ _ _ _ _ _ _ _ => some (canonPa s.fab.node pa)
    | .fault _ _ _ _ => none
    | .hold _ _ => none

/-- The lines of a block's stash that lie in a flip: region and line, with the physical line. -/
def flipLines (s : State) (f : Bflip) (b : Block) : List (Nat × Nat × Nat) :=
  (b.stash.zip (List.range b.stash.length)).flatMap fun (r, i) => (List.range (r.len / 64)).filterMap fun n =>
    if (mfind r.fill n).isNone && (dirtyBytes r n).isEmpty then none
    else match stashPa s b r n with
      | some pa => if inFlip f pa then some (i, n, pa) else none
      | none => none

/-- A stash line of a flip written back to its physical line and dropped (R331). -/
def flipLine (k : Nat) (s : State) (q : Nat × Nat × Nat) : State :=
  match blockOf s k with
  | none => s
  | some b => match b.stash[q.1]? with
    | none => s
    | some r =>
      let s1 := if (dirtyBytes r q.2.1).isEmpty then s
        else (storeDirty s k q.1 q.2.1 b r none { pa := q.2.2, va := r.cap.addr.toNat + 64 * q.2.1, cache := false }).1
      modBlock s1 k fun b => { b with stash := modAt b.stash q.1 fun r => { r with fill := merase r.fill q.2.1 } }

/-- Copies of the flip's lines written back and dropped, for every context. -/
def dropFlipped (s : State) (f : Bflip) : State :=
  let s := s.blocks.foldl (fun s kb => (flipLines s f kb.2).foldl (flipLine kb.1) s) s
  modMem s fun m => { m with copies := m.copies.filter fun c => !inFlip f c.pa }

/-- A write of BFLIP with GO through world 0's host aperture (R331). -/
def execBiasFlip (world : Nat) (toHost : Bool) (page : Nat) (s : State) : Host.Outcome State Fault Refusal :=
  if world != 0 || s.mem.bflip.busy then .next s
  else
    let f : Bflip := { busy := true, host := toHost, page := page % 2 ^ 36, len := s.mem.bflip.len }
    -- to device bias, BISnpInv goes out for every line of the pages
    let s1 := if toHost then dropFlipped s f else answer s 11 0 (bytesLE 6 (f.page * 4096) ++ bytesLE 4 f.len.toNat)
    .next (modMem s1 fun m => { m with bflip := f })

/-- A write of BFLIP with GO = 0 (R331): while a flip is in progress it is discarded. -/
def writeBflip (s : State) (world : Nat) (toHost : Bool) (page : Nat) : State :=
  if world != 0 || s.mem.bflip.busy then s
  else modMem s fun m => { m with bflip := { m.bflip with host := toHost, page := page % 2 ^ 36 } }

/-- Every line of a flip is done (R331): one to device bias waits for every answer. -/
def flipOver (f : Bflip) : Bool := f.host || (List.range (64 * f.len.toNat)).all fun i => mget f.done (64 * f.page + i) false

/-- The last line of a flip is done: the bits change, and BUSY clears (R331). -/
def execBiasFlipComplete (s : State) : Host.Outcome State Fault Refusal :=
  let f := s.mem.bflip
  if !f.busy || !flipOver f then .next s
  else
    let pages := (List.range f.len.toNat).map (f.page + ·)
    .next (modMem s fun m =>
      { m with bias := pages.foldl (fun b p => mput b p f.host false) m.bias, bflip := { f with busy := false, done := [] },
               snooped := m.snooped.filter fun (l, _) => !inFlip f (64 * l), asked := m.asked.filter fun (l, _) => !inFlip f (64 * l) })

/-- The host answers the snoop of a line (R330, R331): a flip counts it, or the access that waits goes on. A line that nothing
has asked for has no answer. -/
def execBackInvalidateAnswer (line : Nat) (s : State) : Host.Outcome State Fault Refusal :=
  let f := s.mem.bflip
  if f.busy && !f.host && inFlip f (64 * line) then
    .next (modMem s fun m => { m with bflip := { f with done := mput f.done line true false } })
  else match mfind s.mem.asked line with
    | none => .next s
    | some k => .next (modMem s fun m => { m with asked := merase m.asked line, snooped := mput m.snooped line (max k (mget m.snooped line 0)) 0 })

/-! ### Host accesses (R242, R330, R342) -/

/-- The bytes that a host read of a line range returns (R242, R341): those of an opened line for the world's own function, as the
fences of the groups that wrote them have made them visible. -/
def hostBytes (s : State) (world pa len : Nat) : List Byte :=
  (linePieces pa len).flatMap fun q =>
    let d := viewLine s.mem (sealTag s world) q.1
    (List.range q.2).map fun i =>
      if (mget s.mem.hidden (q.1 + i) []).isEmpty then BitVec.ofNat 8 (lineNat d ((q.1 + i) % 64) 1) else hostByte s.mem (q.1 + i)

/-- A host access arrives at its home (R242): a store is applied at rts + 1 of each line, and tags of the granules it
touches are cleared; a line that does not open is answered as poisoned. Where every TLP of the world is refused, a read is
answered with Unsupported Request and a store is discarded (R336). -/
def execHostAccess (world : Nat) (pa : Nat) (wr : Option (List (BitVec 8))) (len : Nat) (s : State) : Host.Outcome State Fault Refusal :=
  let n := match wr with
    | some bs => bs.length
    | none => len
  if silenced s world then .next (if wr.isSome then s else answer s 8 world [])
  else if Config.hbmBytes < pa + n || ((linePieces pa n).any fun q => !stackReady s q.1) then .next s
  else
    match wr with
    | some bs =>
      let top := (linePieces pa n).foldl (fun t q => max t ((lineAt s.mem q.1).2 + 1)) s.mem.hostTop
      let ps : List (Spot × Nat) := (linePieces pa n).map fun q => ({ pa := q.1, va := 0, cache := false }, q.2)
      .next (modMem s fun m => { (storeLate (ringWho s world) m bs ps) with hostTop := top })
    | none =>
      match (linePieces pa n).find? fun q => integOf s.mem (sealTag s world) q.1 != 0 with
      | some q =>
        -- R343: the failure is recorded; a line reached by physical address has VA 0
        let f : FaultInfo := { lane := 0, va := 0, kind := 0, level := 0, need := needR, ipa := 0, host := false,
                               integ := integOf s.mem (sealTag s world) q.1, pa := q.1 / 64 * 64 }
        .next (answer (faultRecord s 0 world 0 f false 0 0) 7 world [])
      | none => .next (answer s 5 world (hostBytes s world pa n))

end Sys2Proof.Machine
end

