-- ==== Sys2Proof/Machine/Trust.lean ====
section
/-! DEFINITION. Worlds and the strongroom: TDISP states, IDE, SPDM, bounce keys, derivations, key slots, L2 ways (R266, R297,
R336 to R340, R344 to R347, R351, R352). -/
namespace Sys2Proof.Machine
open Sys2Proof

/-- A trust block changed. -/
def modTrust (s : State) (w : Nat) (f : Trust → Trust) : State := modWorld s w fun r => { r with t := f r.t }

/-! ### TDISP (R336, R337) -/

/-- A world locked or running, whose leaving tears it down. -/
def isLocked (r : World) : Bool := r.tdisp == .locked || r.tdisp == .run

/-- The contexts of a world. -/
def worldCtxs (s : State) (w : Nat) : List Nat := (s.ctxs.filter fun (_, x) => x.en && x.world == w).map (·.1)

/-- A context stopped as by a host stop, with nothing to save (R337 step 1). -/
def stopForGood (s : State) (c : Nat) : State :=
  modCtx (stopClock s c) c fun x => { x with stop := true, st := 4, cause := 3, held := [], steps := [], keptTok := [], loadAt := none }

/-- Step 1 of R337 up to the blocks: every context of the world stands. -/
def stopWorld (s : State) (w : Nat) : State := (worldCtxs s w).foldl stopForGood s

/-- A cancelled command of a world that is torn down stops with STATUS 0x02 while its pages are still locked (R337, R352), the steps of
a tile task stored where that can be done at once (R263); one whose parameter block waits for the host writes it later. -/
def endCmd (s : State) (y : EngCmd) : State :=
  if (blockHold s y).isSome then s
  else match taskBlock s y with
    | none => finishCmd s y 2 0 none
    | some (k, _) =>
      let t := endTask s k
      if (cmdOf t y.id).isSome then finishTask s y 2 0 else t

/-- The blocks of a world's contexts cancelled, and its engine commands with them; its tile tasks leave their cores too. -/
def cancelWorld (s : State) (w : Nat) : State :=
  let cs := worldCtxs s w
  let s := cs.foldl (fun s c => (ctxBlocks s c).foldl cancelBlock s) s
  let s : State := { s with eng := { s.eng with cmds := s.eng.cmds.map fun y =>
    if y.world == w then { y.cancel with stopped := false, who := none } else y } }
  let s := (s.eng.cmds.filter fun y => y.world == w).foldl endCmd s
  { s with blocks := s.blocks.filter fun (_, b) => !(cs.contains b.ctx && b.task.isSome) }

/-- Steps 3 and 4 of R337: page locks released, private ways dropped. -/
def dropWorld (s : State) (w : Nat) : State :=
  let cs := worldCtxs s w
  let s := modMem s fun m => { m with locks := m.locks.filter fun l => !cs.contains l.ctx, copies := m.copies.filter fun c => !cs.contains c.ctx }
  { s with eng := { s.eng with cmds := s.eng.cmds.map fun y => if y.world == w then { y with locked := [] } else y } }

/-- Steps 5 and 6 of R337: keys erased, the IDE stream disabled. -/
def eraseKeys (s : State) (w : Nat) : State :=
  modTrust s w fun t => { t with keys := [], dataKey := 0, macKey := 0, ideOn := false, ideActive := none, ide := [], lockSession := false }

/-- A world leaves RUN or CONFIG_LOCKED (R337): its steps in order, its windows with them (R288). Its seals carry reason 5. -/
def tearDown (s : State) (w : Nat) : State :=
  let s := stopWorld s w
  let s := voidSeals s (fun x => x.world == w) 5
  let s := cancelWorld s w
  let s := dropWorld s w
  let s := eraseKeys s w
  (worldCtxs s w).foldl closePeers s

/-- A world that is not world 0. -/
def isGuest (w : Nat) : Bool := 0 < w && w < Config.worlds

/-- A world enters ERROR (R336). -/
def enterError (s : State) (w : Nat) : State :=
  if !isGuest w then s
  else modWorld (if isLocked (worldOf s w) then tearDown s w else s) w fun r => { r with tdisp := .error }

/-- Work of the world may be placed again. -/
def wakeCurator (s : State) : State := { s with curator := { s.curator with idleAt := none } }

/-- A TDISP or IDE_KM message, or a BCKEY, for a world: it travels in the world's SPDM session (R344, R346). -/
def inSession (s : State) (w : Nat) : Bool := (worldOf s w).t.session

/-- LOCK_INTERFACE_REQUEST (R336): sealing keys are generated, the session that locks is kept, and no copy of the world's lines is
left in its ways. -/
def execLockInterfaceRequest (world : Nat) (s : State) : Host.Outcome State Fault Refusal :=
  if !isGuest world || !inSession s world || (worldOf s world).tdisp != .unlocked then .next s
  else
    let e := (worldOf s world).t.epoch + 1
    let s1 := modTrust s world fun t => { t with epoch := e, dataKey := worldKey world e, macKey := worldMacKey world e, lockSession := true }
    let cs := worldCtxs s world
    let s2 := modMem s1 fun m => { m with copies := m.copies.filter fun c => !cs.contains c.ctx }
    .next (modWorld s2 world fun r => { r with tdisp := .locked })

/-- START_INTERFACE_REQUEST (R336). -/
def execStartInterfaceRequest (world : Nat) (s : State) : Host.Outcome State Fault Refusal :=
  if !isGuest world || !inSession s world || (worldOf s world).tdisp != .locked then .next s
  else .next (wakeCurator (modWorld s world fun r => { r with tdisp := .run }))

/-- STOP_INTERFACE_REQUEST (R336, R337): back to CONFIG_UNLOCKED. -/
def execStopInterfaceRequest (world : Nat) (s : State) : Host.Outcome State Fault Refusal :=
  if !isGuest world || !inSession s world || (worldOf s world).tdisp == .unlocked then .next s
  else .next (modWorld (if isLocked (worldOf s world) then tearDown s world else s) world fun r => { r with tdisp := .unlocked })

/-- A write of CXCTL.EN = 0 by world 0 (R266, R336): a locked world goes to ERROR; the write itself is discarded unless the context
is idle or stopped. -/
def execContextDisable (world ctx : Nat) (s : State) : Host.Outcome State Fault Refusal :=
  let x := ctxOf s ctx
  if world != 0 || !x.en then .next s
  else
    let s1 := if isLocked (worldOf s x.world) then enterError s x.world else s
    .next (if x.st == 0 || x.st == 4 then disableCtx s1 ctx else s1)

/-- A write of S2ROOT by world 0 (R297, R336): a changed root moves a locked world to ERROR. -/
def execS2rootWrite (writer world : Nat) (v : BitVec 64) (s : State) : Host.Outcome State Fault Refusal :=
  if writer != 0 || Config.worlds ≤ world then .next s
  else
    let root := BitVec.ofNat 36 (bits v 12 36)
    let r := worldOf s world
    let s1 := if isLocked r && r.s2root != root then enterError s world else s
    .next (modWorld s1 world fun r => { r with s2en := v.getLsbD 63, s2root := root })

/-! ### IDE and SPDM (R344, R345, R351) -/

/-- A TLP of a world's function (R345): refused, passed, or failing its check. Answer 8 is an Unsupported Request. -/
def execTlpReceive (world : Nat) (ide intact : Bool) (s : State) : Host.Outcome State Fault Refusal :=
  let r := worldOf s world
  let refuse := answer s 8 world []
  if !isGuest world then .next s
  else if r.tdisp == .error then .next refuse
  else if ide && r.t.ideOn then (if intact then .next s else .next (enterError s world))
  else if ide || isLocked r then .next refuse
  else .next s

/-- KEY_PROG of a key set of the world's stream (R345). -/
def execIdeKeyProg (world keySet : Nat) (key : BitVec 256) (s : State) : Host.Outcome State Fault Refusal :=
  if !isGuest world || !inSession s world || 2 ≤ keySet then .next s
  else .next (modTrust s world fun t => { t with ide := minsert t.ide keySet key })

/-- K_SET_GO: the set becomes the stream's, and the other is erased (R345). -/
def execIdeKSetGo (world keySet : Nat) (s : State) : Host.Outcome State Fault Refusal :=
  if !isGuest world || !inSession s world || (mfind (worldOf s world).t.ide keySet).isNone then .next s
  else .next (modTrust s world fun t => { t with ide := t.ide.filter fun (k, _) => k == keySet, ideActive := some keySet, ideOn := true })

/-- The response code of an SPDM message. PRESUMED: the codes of SPDM 1.3. -/
def spdmCode (ok : Bool) : SpdmReq → Byte
  | .getVersion => 0x04
  | .getCapabilities => 0x61
  | .negotiateAlgorithms => 0x63
  | .getDigests => 0x01
  | .getCertificate _ => if ok then 0x02 else 0x7F
  | .challenge => 0x03
  | .getMeasurements _ => if ok then 0x60 else 0x7F
  | .keyExchange => if ok then 0x64 else 0x7F
  | .finish => if ok then 0x65 else 0x7F
  | .keyUpdate => if ok then 0x69 else 0x7F
  | .heartbeat => if ok then 0x68 else 0x7F
  | .endSession => if ok then 0x6C else 0x7F
  | .vendorDefined _ => if ok then 0x7E else 0x7F

/-- The indices that a measurement request names (R351). -/
def measured (index : BitVec 8) : List Nat :=
  if index == 0xFF then [0, 1, 2, 3, 4] else if 1 ≤ index.toNat && index.toNat ≤ 5 then [index.toNat - 1] else []

/-- A request that the responder can serve as things stand: the others it answers with an error. A world has one session at
most (R344). -/
def spdmOk (t : Trust) : SpdmReq → Bool
  | .getVersion => true
  | .getCapabilities => true
  | .negotiateAlgorithms => true
  | .getDigests => true
  | .getCertificate slot => slot == 0
  | .challenge => true
  | .getMeasurements i => !(measured i).isEmpty
  | .keyExchange => !t.session
  | .finish => t.shaking
  | .keyUpdate => t.session
  | .heartbeat => t.session
  | .endSession => t.session
  | .vendorDefined _ => t.session

/-- A measurement block (R351). PRESUMED: the DMTF layout. Value type 1 is mutable firmware, 2 hardware configuration. -/
def measureBlock (s : State) (i : Nat) : List Byte :=
  [BitVec.ofNat 8 (i + 1), 1] ++ bytesLE 2 51 ++ [if i == 4 then 2 else 1] ++ bytesLE 2 48 ++
    (bytesLE 48 (mget s.hol.mreg i 0).toNat).reverse

/-- The blocks that a request names, and the alias key's signature over them (R351). -/
def measureReply (s : State) (index : BitVec 8) : List Byte :=
  let body := (measured index).flatMap (measureBlock s)
  body ++ (bytesLE 96 (Config.aliasSign (mget s.hol.mreg 0 0) body).toNat).reverse

/-- GET_MEASUREMENTS (R351): answer 4. -/
def execGetMeasurements (index : BitVec 8) (s : State) : Host.Outcome State Fault Refusal :=
  .next (answer s 4 0 (if (measured index).isEmpty then [0x7F] else measureReply s index))

/-- What a served request changes: sessions, one for a world (R344). -/
def spdmSession (req : SpdmReq) (t : Trust) : Trust :=
  match req with
  | .keyExchange => { t with shaking := true }
  | .finish => { t with shaking := false, session := true }
  | .endSession => { t with session := false }
  | .getVersion => t
  | .getCapabilities => t
  | .negotiateAlgorithms => t
  | .getDigests => t
  | .getCertificate _ => t
  | .challenge => t
  | .getMeasurements _ => t
  | .keyUpdate => t
  | .heartbeat => t
  | .vendorDefined _ => t

/-- The algorithms that the responder has (R344): ECDSA P-384, TPM_ALG_SHA_384, then ECDHE on P-384 and AES-256-GCM. PRESUMED: their
bits in SPDM 1.3. -/
def spdmAlgorithms : List Byte :=
  bytesLE 4 0x80 ++ bytesLE 4 0x02 ++ [2, 0x20] ++ bytesLE 2 0x10 ++ [3, 0x20] ++ bytesLE 2 0x02

/-- The certificate chain of slot 0, which ends in the alias key (R344, R351). -/
def certChain (s : State) : List Byte := Config.certHead (mget s.hol.mreg 0 0) ++ Config.aliasPublic (mget s.hol.mreg 0 0)

/-- What the answer to a served request carries after its code. -/
def spdmBody (s : State) : SpdmReq → List Byte
  | .getMeasurements i => measureReply s i
  | .negotiateAlgorithms => spdmAlgorithms
  | .getDigests => (bytesLE 48 (Config.sha384 (certChain s)).toNat).reverse
  | .getCertificate _ => certChain s
  | .challenge =>
    let d := (bytesLE 48 (Config.sha384 (certChain s)).toNat).reverse
    d ++ (bytesLE 96 (Config.aliasSign (mget s.hol.mreg 0 0) d).toNat).reverse
  | .vendorDefined b => b
  | .getVersion => []
  | .getCapabilities => []
  | .keyExchange => []
  | .finish => []
  | .keyUpdate => []
  | .heartbeat => []
  | .endSession => []

/-- An SPDM request over DOE (R344): answer 3. The end of the session that locked a world moves it to ERROR (R336). -/
def execSpdmRequest (world : Nat) (req : SpdmReq) (s : State) : Host.Outcome State Fault Refusal :=
  let t := (worldOf s world).t
  let ok := spdmOk t req
  let s1 := answer s 3 world ([0x13, spdmCode ok req] ++ if ok then spdmBody s req else [])
  let s2 := if ok then modTrust s1 world (spdmSession req) else s1
  .next (if req == .endSession && ok && t.lockSession then enterError s2 world else s2)

/-- BCKEY (R346): a fresh key, counters back to 0, the channel open; the key goes to the host in answer 9. -/
def execBckey (world chan : Nat) (s : State) : Host.Outcome State Fault Refusal :=
  if Config.worlds ≤ world || 16 ≤ chan || !inSession s world || (worldOf s world).tdisp != .unlocked then .next s
  else
    let key := Config.freshKey (2 ^ 65 + s.nfree)
    let s1 := modTrust { s with nfree := s.nfree + 1 } world fun t => { t with bch := minsert t.bch chan { opened := true, inCtr := 0, outCtr := 0, key := key } }
    .next (answer s1 9 world (bytesLE 32 key.toNat))

/-! ### Derivations (R339) -/

/-- Whether a write of a register of a world's trust block is taken (R339). -/
def mayTrust (s : State) (writer world : Nat) : Bool :=
  world < Config.worlds && !silenced s writer && (writer == world || (writer == 0 && (worldOf s world).tdisp == .unlocked))

/-- A register that a derivation may name (R339). -/
inductive CapReg where
  | arena (q : Nat) | ring (q : Nat) | save (c : Nat) | evring (c : Nat) | fbuf (w : Nat) | intring (w : Nat)
  | rvmap (c : Nat) | rvarea (c i : Nat) | errring
deriving DecidableEq, Repr

/-- The register whose first byte lies at an offset of an aperture, or none (R252, R266, R297, R339, R356, R358). -/
def capRegAt (w aper off : Nat) : Option CapReg :=
  if aper == 0 then
    if Config.queues ≤ off / 64 then none
    else if off % 64 == 0x10 then some (.arena (off / 64)) else if off % 64 == 0x20 then some (.ring (off / 64)) else none
  else if aper == 1 then
    if Config.contexts ≤ off / 128 then none
    else if off % 128 == 0x40 then some (.save (off / 128)) else if off % 128 == 0x50 then some (.evring (off / 128)) else none
  else if aper == 2 then
    -- a world other than 0 sees its own block alone, at offset 0
    if off % 128 == 0x10 && off / 128 < (if w == 0 then Config.worlds else 1) then some (.fbuf (if w == 0 then off / 128 else w)) else none
  else if aper == 3 then
    if off % 256 == 0x30 && off / 256 < (if w == 0 then Config.worlds else 1) then some (.intring (if w == 0 then off / 256 else w)) else none
  else if aper == 4 then
    if Config.contexts ≤ off / 128 then none
    else if off % 128 == 0x20 then some (.rvmap (off / 128))
    else if 0x40 ≤ off % 128 && off % 16 == 0 then some (.rvarea (off / 128) ((off % 128 - 0x40) / 16))
    else none
  else if aper == 5 then (if w == 0 && off == 0x2000 then some .errring else none)
  else none

/-- A register of a world as another world reaches it: its own, or world 0 while the world is unlocked (R336, R338). -/
def ownedBy (s : State) (w v : Nat) : Bool := w == v || (w == 0 && (worldOf s v).tdisp == .unlocked)

/-- The destination accepts a write from the aperture of a world (R338). -/
def capRegOpen (s : State) (w : Nat) : CapReg → Bool
  | .arena q => ownedBy s w (mget s.curator.queues q {}).world
  | .ring q => ownedBy s w (mget s.curator.queues q {}).world
  | .save c => ownedBy s w (ctxOf s c).world
  | .evring c => ownedBy s w (ctxOf s c).world
  | .fbuf v => ownedBy s w v
  | .intring v => ownedBy s w v
  | .rvmap c => ownedBy s w (ctxOf s c).world
  | .rvarea c _ => ownedBy s w (ctxOf s c).world
  | .errring => true

/-- A derived capability stored in a register. -/
def putCapReg (s : State) (k : Cap) : CapReg → State
  | .arena q => modQueue s q fun x => { x with arena := k }
  | .ring q => modQueue s q fun x => { x with ring := k }
  | .save c => wakeCurator (modCtx s c fun x => { x with save := k })
  | .evring c => modCtx s c fun x => { x with evring := k }
  | .fbuf v => modWorld s v fun r => { r with fbuf := k }
  | .intring v => modTrust s v fun t => { t with intring := k }
  | .rvmap c => modRv s c fun r => { r with map := k }
  | .rvarea c i => modRv s c fun r => { r with areas := setAt r.areas i k }
  | .errring => { s with hol := { s.hol with errring := k } }

/-- CDCTL with CODE set and nothing pending. -/
def setCode (s : State) (w code : Nat) : State :=
  modTrust s w fun t => { t with cdctl := (t.cdctl &&& ~~~0x40000000FF000000) ||| BitVec.ofNat 64 (code * 2 ^ 24), cdWait := none }

/-- A bad field of a derivation (R339): of the type, the permissions or the destination. -/
def badField (w : Nat) (t : Trust) : Bool :=
  let key := t.cdctl.getLsbD 60
  let otype := bits t.cdctl 32 8
  let perm := bits t.cdctl 0 12
  let badType := if key then otype < 16 else !(otype == 0 || otype == 1 || otype == 3)
  let badPerm := if key then perm / 128 != 0 || perm % 32 != 0 else 0x200 ≤ perm
  let badDst := if t.cdctl.getLsbD 61 then t.cddst.toNat % 16 != 0
    else bits t.cddst 32 28 != 0 || (capRegAt w (bits t.cddst 60 4) (bits t.cddst 0 32)).isNone
  badType || badPerm || badDst

/-- The capability that the fields of a trust block ask for, or the CODE that refuses it (R123, R125, R339). -/
def derived (t : Trust) : Except Nat Cap :=
  let otype := BitVec.ofNat 8 (bits t.cdctl 32 8)
  let perm := BitVec.ofNat 12 (bits t.cdctl 0 12)
  if t.cdctl.getLsbD 60 then .ok { tag := true, otype := otype, perm := pKEY ||| perm }
  else if 2 ^ 57 < t.cdbase.toNat + t.cdlen.toNat then .error 2
  else match reachOf t.cdbase.toNat t.cdlen.toNat with
    | none => .error 2
    | some (e, lo, hi) =>
      if 2 ^ 57 < hi then .error 2
      else if t.cdaddr.toNat < lo || hi < t.cdaddr.toNat then .error 3
      else .ok (withReach { t.root with otype := otype, perm := t.root.perm &&& perm, addr := t.cdaddr } e lo hi)

/-- GO of CDCTL (R339): the fields checked, the capability made and stored. -/
def deriveGo (s : State) (w : Nat) : State :=
  let t := (worldOf s w).t
  if t.cdctl.getLsbD 62 then s
  else if badField w t then setCode s w 3
  else match derived t with
    | .error code => setCode s w code
    | .ok k =>
      if t.cdctl.getLsbD 61 then
        let x := ctxOf s (bits t.cdctl 40 12)
        if x.en && x.world == w then retryDerive (modTrust s w fun t => { t with cdWait := some (k, bits t.cdctl 40 12, t.cddst.toNat, 0) }) w else setCode s w 4
      else match capRegAt w (bits t.cddst 60 4) (bits t.cddst 0 32) with
        | none => setCode s w 3
        | some r => if capRegOpen s w r then setCode (putCapReg s k r) w 1 else setCode s w 4

/-- CDCTL's KEY bit as a GO sets it. -/
def withKey (s : State) (w : Nat) (key : Bool) : State :=
  modTrust s w fun t => { t with cdctl := if key then t.cdctl ||| 0x1000000000000000 else t.cdctl &&& ~~~0x1000000000000000 }

/-- A write of CDCTL.GO with KEY = 0 (R339). -/
def execCapabilityDerive (writer world : Nat) (s : State) : Host.Outcome State Fault Refusal :=
  if !mayTrust s writer world || (worldOf s world).t.cdctl.getLsbD 62 then .next s else .next (deriveGo (withKey s world false) world)

/-- A write of CDCTL.GO with KEY = 1 (R339). -/
def execTypeKeyDerive (writer world : Nat) (s : State) : Host.Outcome State Fault Refusal :=
  if !mayTrust s writer world || (worldOf s world).t.cdctl.getLsbD 62 then .next s else .next (deriveGo (withKey s world true) world)

/-! ### Key slots (R347) -/

/-- KEYCMD with CODE set. -/
def setKeyCode (s : State) (w code : Nat) : State :=
  modTrust s w fun t => { t with keycmd := (t.keycmd &&& ~~~0x40FF000000000000) ||| BitVec.ofNat 64 (code * 2 ^ 48) }

/-- The handle of a slot (R347). -/
def handleCap (w slot : Nat) (gen : BitVec 32) : Cap :=
  let a := gen.toNat * 2 ^ 16 + w * 2 ^ 8 + slot
  { tag := true, otype := 2, bf := BitVec.ofNat 19 a, addr := BitVec.ofNat 64 a }

/-- KEYCMD busy: the operation waits for a line of its destination, and is tried again (R330, R339). -/
def setKeyBusy (s : State) (w : Nat) : State := modTrust s w fun t => { t with keycmd := t.keycmd ||| 0x4000000000000000 }

/-- What a key operation writes, `off` bytes past KEYDST of the context that KEYCMD names, translated. -/
def keyPlaces (s : State) (w off n : Nat) : State × Got (List (Spot × Nat)) :=
  let t := (worldOf s w).t
  let c := bits t.keycmd 24 12
  let x := ctxOf s c
  if x.en && x.world == w then hwResolve s c needW (t.keydst.toNat + off) n else (s, .bad)

/-- A handle written at KEYDST. -/
def putHandle (s : State) (w : Nat) (ps : List (Spot × Nat)) (h : Cap) : State :=
  let s1 := storeLateOut s (ringWho s w) (bytesLE 16 (capBits h).toNat) ps
  match ps with
  | [] => s1
  | (p, _) :: _ => modMem s1 fun m => memPutCap m p.pa (fabCap p h)

/-- Bytes of a public key (R347). -/
def publicLen (alg : Nat) : Nat := if alg == 0 then 97 else 1952

/-- A key pair generated in a slot (R347). -/
def generateKey (s : State) (w alg : Nat) : State :=
  let t := (worldOf s w).t
  let slot := bits t.keycmd 36 4
  let old := mget t.keys slot {}
  if t.keydst.toNat % 64 != 0 then setKeyCode s w 3
  else if old.alg.isSome then setKeyCode s w 2
  else match keyPlaces s w 0 16 with
    | (s1, .bad) => setKeyCode s1 w 4
    | (s1, .waits) => setKeyBusy s1 w
    | (s1, .val ps) => match keyPlaces s1 w 64 (publicLen alg) with
      | (s2, .bad) => setKeyCode s2 w 4
      | (s2, .waits) => setKeyBusy s2 w
      | (s2, .val qs) =>
        let secret := Config.keySecret s2.nfree
        let new : KeySlot := { alg := some (BitVec.ofNat 8 alg), secret := secret, gen := old.gen + 1, seq := 0 }
        let s3 := modTrust { s2 with nfree := s2.nfree + 1 } w fun t => { t with keys := minsert t.keys slot new }
        let s4 := storeLateOut (putHandle s3 w ps (handleCap w slot new.gen)) (ringWho s3 w) ((List.range (publicLen alg)).map (Config.publicByte secret)) qs
        setKeyCode s4 w 1

/-- A slot revoked (R347, R352): its open seals void with reason 4, a commit of one completes with 0x09, the key is erased. -/
def revokeKey (s : State) (w : Nat) : State :=
  let t := (worldOf s w).t
  let slot := bits t.keycmd 36 4
  let old := mget t.keys slot {}
  if old.alg.isNone then setKeyCode s w 2
  else
    let mine := fun x : Seal => x.world == w && x.slot == slot && x.void.isNone
    let pbs := (s.eng.seals.filter mine).map fun x => (x.ctx, x.pblock)
    let commits := s.eng.cmds.filter fun c => c.kind == .sealCommit && pbs.contains (c.ctx, c.pblock.addr)
    let s1 := voidSeals s mine 4
    let s2 := commits.foldl (fun s c => finishCmd s c 9 0 none) s1
    setKeyCode (modTrust s2 w fun t => { t with keys := minsert t.keys slot { old with alg := none, secret := 0 } }) w 1

/-- A new handle of the slot's generation (R347). -/
def reissueKey (s : State) (w : Nat) : State :=
  let t := (worldOf s w).t
  let slot := bits t.keycmd 36 4
  let old := mget t.keys slot {}
  if t.keydst.toNat % 64 != 0 then setKeyCode s w 3
  else if old.alg.isNone then setKeyCode s w 2
  else match keyPlaces s w 0 16 with
    | (s1, .bad) => setKeyCode s1 w 4
    | (s1, .waits) => setKeyBusy s1 w
    | (s1, .val ps) => setKeyCode (putHandle s1 w ps (handleCap w slot old.gen)) w 1

/-- A key operation by its OP (R339, R347). -/
def keyGo (s : State) (w op : Nat) : State :=
  if op == 1 then generateKey s w 0 else if op == 2 then generateKey s w 1 else if op == 3 then revokeKey s w
  else if op == 4 then reissueKey s w else setKeyCode s w 3

/-- Key operations that have waited are tried again. -/
def retryKeys (s : State) : State :=
  (s.worlds.filter fun (_, r) => r.t.keycmd.getLsbD 62).foldl (fun s x => keyGo s x.1 (bits x.2.t.keycmd 40 8)) s

/-- KEYCMD with its OP field set, then GO: discarded while BUSY is set. -/
def keyOp (s : State) (writer w op : Nat) : State :=
  if !mayTrust s writer w || (worldOf s w).t.keycmd.getLsbD 62 then s
  else keyGo (modTrust s w fun t => { t with keycmd := (t.keycmd &&& ~~~0x0000FF0000000000) ||| BitVec.ofNat 64 (op * 2 ^ 40) }) w op

/-- KEYCMD OP 1 (R347). -/
def execKeyGenerateEcdsa (writer world : Nat) (s : State) : Host.Outcome State Fault Refusal := .next (keyOp s writer world 1)
/-- KEYCMD OP 2 (R347). -/
def execKeyGenerateMldsa (writer world : Nat) (s : State) : Host.Outcome State Fault Refusal := .next (keyOp s writer world 2)
/-- KEYCMD OP 3 (R347). -/
def execKeyRevoke (writer world : Nat) (s : State) : Host.Outcome State Fault Refusal := .next (keyOp s writer world 3)
/-- KEYCMD OP 4 (R347). -/
def execHandleReissue (writer world : Nat) (s : State) : Host.Outcome State Fault Refusal := .next (keyOp s writer world 4)

/-! ### L2 ways (R340) -/

/-- The number of ways that no world reserves: L2 has 24 of them. -/
def sharedWays (m : BitVec 24) : Nat := ((List.range 24).filter fun i => !m.getLsbD i).length

/-- A write of WTRUST.WAYS (R339, R340): each way that leaves a world or the shared ones changes owner empty, the copies that it holds
dropped. A store takes place at its line's home, sealed there where its world is protected (R341), so that no copy is dirty. -/
def execWaysChange (writer world : Nat) (ways : BitVec 24) (s : State) : Host.Outcome State Fault Refusal :=
  let others := otherWays s world
  if !mayTrust s writer world || ways &&& others != 0 || sharedWays (ways ||| others) < 4 then .next s
  else
    let moved := (worldOf s world).t.ways ^^^ ways
    .next (modTrust (modMem s fun m => { m with copies := m.copies.filter fun c => !moved.getLsbD c.way }) world fun t => { t with ways := ways })

end Sys2Proof.Machine
end

