-- ==== Sys2Proof/Machine/Errors.lean ====
section
/-! DEFINITION. Errors that end contexts, the scrub, and revocation (R353 to R362). -/
namespace Sys2Proof.Machine
open Sys2Proof

/-! ### Errors (R354 to R357) -/

/-- The contexts with a block on a core. -/
def coreCtxs (s : State) (core : Nat) : List Nat :=
  ((s.blocks.filter fun (_, b) => b.core == core && b.life != .retired && b.life != .saved).map fun (_, b) => b.ctx).eraseDups

/-- A context ended by a state error (R355), with its record in ERRRING: SEV 3. -/
def stateError (s : State) (unit index c pa : Nat) : State :=
  errRecord (endContext s c none false 0 0) unit index 3 (ctxOf s c).world c pa

/-- The contexts of some blocks ended by a state error of a core's arrays, one after another (R354). -/
def arrayError (s : State) (core : Nat) (cs : List Nat) : State := cs.eraseDups.foldl (fun s c => stateError s 4 core c 0) s

/-- A block uses an array of its core (R354): it has scratchpad, acquired banks, or queue channels. -/
def usesArray (b : Block) (which : Nat) : Bool :=
  if which == 0 then b.spad.size != 0 else if which == 1 then b.acq != 0 || b.task.isSome else which == 2 && b.v.q != 0

/-- A clean stash line is dropped, to be filled again (R354); one with a dirty byte is not clean. -/
def dropFill (b : Block) (at0 line : Nat) : Block :=
  { b with stash := b.stash.map fun r =>
      if r.at0 == at0 && !(r.dirty.any fun d => d.1 / 64 == line) then { r with fill := merase r.fill line } else r }

/-- A corrected or recovered error: a record of SEV 1, and in a core's arrays one more in its CERR (R356, R363). -/
def takeCorrected (s : State) (unit index pa : Nat) : State :=
  errMerge (if unit == 4 && index < Config.cores then modCore s index fun x => { x with cerr := satInc 0xFFFF x.cerr } else s) unit index pa

/-- An error in an array (R353, R354): corrected, dropped with its clean copy, or the end of the contexts whose state it
destroyed. Units that no record may name have none (R356). -/
def takeSoft (s : State) : SoftErr → State
  | .corrected unit index pa => if 1 ≤ unit && unit ≤ 9 then takeCorrected s unit index pa else s
  | .clean unit index pa =>
    if !(unit == 2 || unit == 3 || unit == 4) then s
    else takeCorrected (modMem s fun m => { m with copies := m.copies.filter fun c =>
      !(c.pa / 64 == pa / 64 && (unit == 3 || (unit == 4 && c.core == index))) }) unit index pa
  | .cleanStash blk at0 line =>
    match blockOf s blk with
    | none => s
    | some b => takeCorrected (putBlock s blk (dropFill b at0 line)) 4 b.core 0
  | .dirty unit index ctx pa => if (unit == 3 || unit == 4) && (ctxOf s ctx).en then stateError s unit index ctx pa else s
  | .array core which => arrayError s core ((s.blocks.filter fun (_, b) => b.core == core && (b.onCore || b.task.isSome) && usesArray b which).map fun (_, b) => b.ctx)
  | .regs blk gix =>
    match blockOf s blk, groupOf s blk gix with
    | some b, some _ => if b.onCore then stateError s 4 b.core b.ctx 0 else s
    | _, _ => s

/-- A control parity error in a core (R354): every context with a block there ends, and the core's reset begins. Where no
context ends, the error is one recovered by the reset. -/
def execControlParityError (core : Nat) (s : State) : Host.Outcome State Fault Refusal :=
  if Config.cores ≤ core then .next s
  else
    let cs := coreCtxs s core
    let s1 := if cs.isEmpty then errMerge s 5 core 0 else cs.foldl (fun s c => stateError s 5 core c 0) s
    .next (modCore s1 core fun x => { x with resetting := true, cerr := satInc 0xFFFF x.cerr })

/-- The reset of a core is over: it is ready again (R354). -/
def execCoreReset (core : Nat) (s : State) : Host.Outcome State Fault Refusal :=
  if (mget s.hol.cores core {}).resetting then .next (wakeCurator (modCore s core fun x => { x with resetting := false })) else .next s

/-- The scrub reads a sector (R354, R357): corrected, or found beyond correction. It changes no lease, tag or code. -/
def execPatrolScrub (sector : Nat) (corrected failed : Bool) (s : State) : Host.Outcome State Fault Refusal :=
  let pa := 64 * sector
  if Config.hbmBytes ≤ pa then .next s
  else if failed then
    .next (errRecord (modMem s fun m => { m with bad := mput m.bad sector true false }) 1 (hbmStack pa) 2 0 0 pa)
  else if corrected then .next (errMerge s 1 (hbmStack pa) pa)
  else .next s

/-! ### Clearing tags (R358 to R360) -/

/-- A capability as a sweep leaves it. -/
def sweepCap (marked : Nat → Bool) (c : Cap) : Cap := if revokedBy marked c then { c with tag := false } else c
/-- A file of capabilities swept. -/
def sweepMap (f : Cap → Cap) (m : SMap Cap) : SMap Cap := m.foldl (fun n q => mput n q.1 (f q.2) {}) []
/-- The capability registers swept. -/
def sweepRegs (f : Cap → Cap) (r : Regs) : Regs := { r with k := sweepMap f r.k, c := sweepMap f r.c }
/-- The pattern registers swept. -/
def sweepPats (f : Cap → Cap) (m : SMap Pat) : SMap Pat := m.map fun (i, p) => (i, { p with cap := f p.cap })

/-- The splits swept: a run that executes again takes the patterns back as they were bound when it began (R36, R360). -/
def sweepSplits (f : Cap → Cap) (ps : List Split) : List Split :=
  ps.map fun p => { p with run := p.run.map fun u => { u with pats := sweepPats f u.pats } }

/-- A capability on its way to memory. -/
def sweepOp (f : Cap → Cap) : AccOp → AccOp
  | .stc c => .stc (f c)
  | .ld => .ld
  | .st v => .st v
  | .ldc keep => .ldc keep
  | .atom op v => .atom op v
  | .ldfe clr => .ldfe clr
  | .stfe v => .stfe v
  | .red op v => .red op v

/-- A loaded value on its way to its register. -/
def sweepVal (f : Cap → Cap) : Val → Val
  | .cap c => .cap (f c)
  | .data v => .data v

/-- Lanes on their way to memory. -/
def sweepLanes (f : Cap → Cap) (ls : List LaneAcc) : List LaneAcc := ls.map fun a => { a with op := sweepOp f a.op }

/-- An outstanding word. -/
def sweepOut (f : Cap → Cap) (p : Pending) : Pending :=
  { p with buf := sweepLanes f p.buf, todo := sweepLanes f p.todo, flt := sweepLanes f p.flt, vals := p.vals.map fun (l, v) => (l, sweepVal f v) }

/-- What a pre-emption has saved of a group. -/
def sweepPre (f : Cap → Cap) (p : PreSave) : PreSave :=
  { p with r := sweepRegs f p.r, pat := sweepPats f p.pat, parked := p.parked.map (sweepOut f), splits := sweepSplits f p.splits }

/-- A group swept (R360). -/
def sweepGroup (f : Cap → Cap) (g : Group) : Group :=
  { g with r := sweepRegs f g.r, pat := sweepPats f g.pat, out := g.out.map (sweepOut f), pre := g.pre.map (sweepPre f),
           splits := sweepSplits f g.splits, tmode := g.tmode.map fun v => { v with splits := sweepSplits f v.splits },
           tx := g.tx.map fun (l, x) => (l, { x with writes := sweepLanes f x.writes }), sweepDue := none }

/-- The granules of a scratchpad swept (R360). -/
def sweepSpad (marked : Nat → Bool) (p : Spad) : Spad :=
  { p with tags := p.tags.filter fun (o, _) => !revokedBy marked (spCap p (16 * o)) }

/-- The capabilities of a file and of pattern registers. -/
def fileCaps (r : Regs) (pat : SMap Pat) : List Cap := (r.k ++ r.c).map (·.2) ++ pat.map (·.2.cap)

/-- The capability that a lane is to store. -/
def LaneAcc.caps (a : LaneAcc) : List Cap :=
  match a.op with
  | .stc c => [c]
  | .ld => []
  | .st _ => []
  | .ldc _ => []
  | .atom _ _ => []
  | .ldfe _ => []
  | .stfe _ => []
  | .red _ _ => []

/-- The capabilities of an outstanding word. -/
def Pending.caps (p : Pending) : List Cap := (p.buf ++ p.todo ++ p.flt).flatMap (·.caps) ++ p.vals.map (·.2.asCap)

/-- The capabilities that a sweep of a group, and of its block's scratchpad, may clear. -/
def groupCaps (b : Block) (g : Group) : List Cap :=
  fileCaps g.r g.pat ++ g.out.flatMap (·.caps) ++ g.tx.flatMap (fun x => x.2.writes.flatMap (·.caps)) ++
    (g.pre.toList.flatMap fun p => fileCaps p.r p.pat ++ p.parked.flatMap (·.caps)) ++ b.spad.tags.map fun x => spCap b.spad (16 * x.1)

/-- Tags among those. -/
def groupTags (b : Block) (g : Group) : Nat := ((groupCaps b g).filter (·.tag)).length

/-- A group of a block swept with the scratchpad of the block (R360), its outstanding accesses made first; done once the map's lines
can be read (R330). -/
def sweepOne (s0 : State) (k gix : Nat) : State × Bool :=
  let s := drainGroup s0 k gix
  match groupWith s k gix with
  | none => (s, true)
  | some (b, g) =>
    match checkMap s b.ctx (groupCaps b g) with
    | (s1, false) => (s1, false)
    | (s1, true) =>
      let marked := mapMarked s1 b.ctx
      let g1 := sweepGroup (sweepCap marked) g
      let b1 := { b.modGroup gix (fun _ => g1) with spad := sweepSpad marked b.spad }
      (addCleared (putBlock s1 k b1) b.ctx (groupTags b g - groupTags b1 g1), true)

/-- A group swept at a packet boundary, where it halts as for a trap: its splits first go back to the first packets of their runs
(R36, R360). -/
def sweepHalt (s : State) (k gix : Nat) : State := (sweepOne (modGroup (normRuns s k gix) k gix parkSplits) k gix).1

/-- Every group of a block that is still due. -/
def sweepDueGroups (s : State) (k : Nat) : State :=
  match blockOf s k with
  | none => s
  | some b => (List.range b.groups.length).foldl (fun s i =>
      if (groupOf s k i).any fun g => g.sweepDue.isSome then (sweepOne s k i).1 else s) s

/-- The frame slots in use of a context swept (R359, R362), and whether all of it could be done. -/
def sweepFrames (s : State) (c : Nat) : State × Bool :=
  (s.blocks.filter fun (_, b) => b.ctx == c && (b.life == .retired || b.life == .framing)).foldl (fun q kb =>
    let r := sweepSlot q.1 kb.2
    (r.1, q.2 && r.2)) (s, true)

/-! ### A sweep (R358, R359) -/

/-- The check of a GO: the ERR it sets, 0 when it passes (R358). -/
def sweepErr (r : Rv) (narea : Nat) : Nat :=
  if 4 < narea then 3
  else if !(r.map.tag && isUnsealed r.map && hasPerm r.map pLD) then 1
  else if (r.areas.take narea).any fun a => !(a.tag && isUnsealed a && hasPerm a (pLD ||| pST ||| pLDC)) then 2
  else 0

/-- Sweeps that may run at once: 8 for each Conservator that is up (R358, R373). -/
def sweepRoom (s : State) : Nat := (if s.hol.ready.getLsbD 58 then 8 else 0) + (if s.hol.ready.getLsbD 59 then 8 else 0)

/-- A queued sweep enters its register phase when a Conservator is free (R358 to R360). -/
def beginSweep (s : State) (c : Nat) : State :=
  if sweepRoom s ≤ (s.ctxs.filter fun (_, x) => x.rv.busy && x.rv.phase != 0).length then s
  else
    let s1 := modRv s c fun r => { r with phase := 1 }
    { s1 with blocks := s1.blocks.map fun (k, b) =>
        (k, if b.ctx == c && b.task.isNone then { b with groups := b.groups.map fun g => { g with sweepDue := some s.gt } } else b) }

/-- A write of RVCTL.GO (R358, R359). -/
def execRevocationSweepStart (writer ctx : Nat) (narea : BitVec 4) (s : State) : Host.Outcome State Fault Refusal :=
  let x := ctxOf s ctx
  if Config.contexts ≤ ctx || (writer != 0 && writer != x.world) || silenced s writer || x.rv.busy then .next s
  else
    let e := sweepErr x.rv narea.toNat
    let s1 := modRv s ctx fun r => { r with narea := narea, err := e }
    if e != 0 then .next s1
    else
      let ws := (s.eng.cmds.filter fun y => y.ctx == ctx && (y.got || y.submitted)).map (·.id)
      .next (beginSweep (modRv s1 ctx fun r => { r with busy := true, phase := 0, count := 0, waits := ws, area := 0, cur := 0 }) ctx)

/-- A group reaches a switch point, or it is in trap mode at a boundary: swept with no trap (R360, R362). -/
def execGroupRegisterSweep (blk gix : Nat) (s : State) : Host.Outcome State Fault Refusal :=
  match blockOf s blk, groupOf s blk gix with
  | some b, some g =>
    if g.sweepDue.isNone then .next s
    else if !b.onCore || g.splits.isEmpty || g.splits.any fun p => sweepHere b g p then .next (sweepOne s blk gix).1
    else if g.tmode.isSome && !g.inPacket then .next (sweepHalt s blk gix)
    else .next s
  | _, _ => .next s

/-- The register-sweep trap of a group (R204). -/
def sweepReq (p : Split) : TrapReq := { cause := 0x14, widx := p.word, resume := .next, split := p.no, pkt := p.pc }

/-- A group that has met no switch point for 6,400 ticks is swept at its boundary; the trap follows where it has a handler
(R360). -/
def execSweepSwitchWaitExpiry (blk gix : Nat) (s : State) : Host.Outcome State Fault Refusal :=
  match groupOf s blk gix with
  | none => .next s
  | some g =>
    let late := g.sweepDue.any fun t => t + 6400 ≤ s.gt
    if !late || g.pend.isSome || g.tmode.isSome || g.inPacket then .next s
    else if g.low.isNone || !g.tr.tvec.getLsbD 63 then .next (sweepHalt s blk gix)
    else match sweepOne (normRuns s blk gix) blk gix, g.low with
      | (s1, true), some p =>
        if g.halt == .no then .next (takeAtBoundary s1 blk gix (sweepReq p)) else .next (modGroup s1 blk gix (·.await (sweepReq p)))
      | (s1, _), _ => .next s1

/-- The first area from number i on that holds something. -/
def nextArea (r : Rv) (i : Nat) : Option (Nat × Cap) :=
  ((List.range r.narea.toNat).filter (i ≤ ·)).findSome? fun j =>
    let a := r.areas.getD j {}
    if capLen a == 0 then none else some (j, a)

/-- The memory phase goes on in an area, or the sweep is complete (R359). -/
def enterArea (s : State) (c i : Nat) : State :=
  match nextArea (ctxOf s c).rv i with
  | some (j, a) => modRv s c fun r => { r with phase := 2, area := j, cur := BitVec.ofNat 64 (capBase a) }
  | none =>
    let s1 := modRv s c fun r => { r with busy := false, phase := 0, ndone := r.ndone + 1, cleared := r.count, waits := [] }
    raiseIrq s1 (ctxOf s c).world 2

/-- Nothing of the context is left to sweep in the register phase, and its earlier commands have answered (R359). -/
def registersSwept (s : State) (c : Nat) : Bool :=
  !(s.blocks.any fun (_, b) => b.ctx == c && b.groups.any fun g => g.sweepDue.isSome) &&
  !(s.eng.cmds.any fun y => (ctxOf s c).rv.waits.contains y.id)

/-- A sweep goes on (R359, R360, R362): it leaves its queue; it sweeps the blocks that are off their cores and, with every
group swept, turns to memory; it checks one granule. -/
def execSweepGranuleCheck (ctx : Nat) (s : State) : Host.Outcome State Fault Refusal :=
  let r := (ctxOf s ctx).rv
  if !r.busy then .next s
  else if r.phase == 0 then .next (beginSweep s ctx)
  else if r.phase == 1 then
    let s1 := (s.blocks.filter fun (_, b) => b.ctx == ctx && !b.onCore).foldl (fun s kb => sweepDueGroups s kb.1) s
    if !registersSwept s1 ctx then .next s1
    else match sweepFrames s1 ctx with
      | (s2, true) => .next (enterArea s2 ctx 0)
      | (s2, false) => .next s2
  else
    let a := r.areas.getD r.area {}
    match sweepGranule s ctx r.cur.toNat with
    | (s1, false) => .next s1
    | (s1, true) =>
    if r.cur.toNat + 16 < capBase a + capLen a then .next (modRv s1 ctx fun r => { r with cur := r.cur + 16 })
    else .next (enterArea s1 ctx (r.area + 1))

end Sys2Proof.Machine
end

