-- ==== Sys2Proof/Machine/Power.lean ====
section
/-! DEFINITION. Repair, ageing, levels, energy accounts and bring-up (R350, R363 to R373). -/
namespace Sys2Proof.Machine
open Sys2Proof

/-! ### Repair (R363) -/

/-- No block is resident on a core. -/
def coreEmpty (s : State) (core : Nat) : Bool := (coreBlocks s core).isEmpty

/-- The repair record of a die. -/
def repairOf (s : State) (d : Nat) : Repair := mget s.hol.repair d {}
/-- The repair record of a die changed. -/
def modRepair (s : State) (d : Nat) (f : Repair → Repair) : State :=
  { s with hol := { s.hol with repair := mmod s.hol.repair d {} f } }

/-- The lowest free spare of a die. -/
def freeSpare (r : Repair) : Option Nat := (List.range 4).find? fun i => r.spares.getLsbD i

/-- A write of REPAIR.GO by world 0 (R363). A spare that fails its self-test is used up and nothing is mapped. -/
def execRepair (world die lcore : Nat) (selfTest : Bool) (s : State) : Host.Outcome State Fault Refusal :=
  let x := mget s.hol.cores lcore {}
  let code : Nat → State := fun n => modRepair s die fun r => { r with lcore := lcore % 256, code := n }
  if world != 0 || 8 ≤ die then .next s
  else if Config.cores ≤ lcore || lcore / 28 != die then .next (code 4)
  else if !coreEmpty s lcore || !x.drain then .next (code 2)
  else match freeSpare (repairOf s die) with
    | none => .next (code 3)
    | some n =>
      let s1 := modRepair s die fun r => { r with lcore := lcore % 256, spares := r.spares &&& ~~~(BitVec.ofNat 4 (2 ^ n)),
                                                  code := if selfTest then 1 else 3, table := if selfTest then minsert r.table lcore n else r.table }
      .next (if selfTest then modCore s1 lcore fun x => { x with spared := true } else s1)

/-- A write of CORECTL by world 0 (R363): OFFLINE only while the core is EMPTY. -/
def execCorectlWrite (world core : Nat) (v : BitVec 64) (s : State) : Host.Outcome State Fault Refusal :=
  if world != 0 || Config.cores ≤ core then .next s
  else
    let empty := coreEmpty s core
    .next (wakeCurator (modCore s core fun x => { x with drain := v.getLsbD 63, offline := if empty then v.getLsbD 61 else x.offline }))

/-! ### Ageing and timing errors (R364, R365) -/

/-- A write of REPLAN by world 0. -/
def execReplanRequest (world wing : Nat) (s : State) : Host.Outcome State Fault Refusal :=
  if world != 0 || Config.wings ≤ wing then .next s else .next (modWing s wing fun w => { w with replan := true })

/-- A wing that a bring-up has not made ready yet may be re-planned by it (R364, R372). -/
def bringingUp (s : State) (wing : Nat) : Bool := s.hol.booted && !s.hol.bootFail && !s.hol.wready.getLsbD wing

/-- A maintenance point of a wing other than bring-up (R364): empty for 100 µs, with a request or 24 hours since the last. -/
def maintenance (s : State) (w : Wing) : Bool :=
  (w.emptyAt.any fun t => t + 10000 ≤ s.gt) && (w.replan || w.planAt + 8640000000000 ≤ s.gt)

/-- A re-plan at a maintenance point (R364): every level of the wing whose slack stays below 20 ps lowers AGECAP by one. -/
def execWingReplan (wing : Nat) (bringUp : Bool) (slack : List (BitVec 8)) (s : State) : Host.Outcome State Fault Refusal :=
  let w := wingSt s wing
  if Config.wings ≤ wing || !(if bringUp then bringingUp s wing else maintenance s w) then .next s
  else
    let top := if bringUp then 7 else w.agecap
    let low := ((List.range (top + 1)).filter fun l => (slack.getD l 0).toNat < 20).length
    let cap := top - low
    let s1 := modWing s wing fun w => { w with replan := false, replans := satInc 0xFFFF w.replans, agecap := cap, margin := slack.getD cap 0,
                                               planAt := s.gt, planEnd := s.gt + 20000 }
    .next (evalLevel ((List.range low).foldl (fun s _ => errRecord s 8 wing 5 0 0 0) s1) wing)

/-- A timing error (R365): 12 cycles of the group whose issue group is replayed, and nothing sent twice; more than 64 in 1 ms lower
AGECAP by one and set REPLAN. -/
def execTimingErrorReplay (e : ReplayAt) (s : State) : Host.Outcome State Fault Refusal :=
  if Config.wings ≤ e.wing then .next s
  else
    let s1 := match blockOf s e.blk with
      | some b => if wingOf b.core == e.wing && b.onCore then modGroup s e.blk e.gix (·.hold 48) else s
      | none => s
    let ts := ((wingSt s1 e.wing).replays.filter fun t => s1.gt < t + 100000) ++ [s1.gt]
    if ts.length == 65 then .next (evalLevel (modWing s1 e.wing fun w => { w with replays := ts, agecap := w.agecap - 1, replan := true }) e.wing)
    else .next (modWing s1 e.wing fun w => { w with replays := ts })

/-! ### Levels and power (R366, R368) -/

/-- A wing changes its clock at a tick boundary (R366). -/
def execClockChange (wing : Nat) (s : State) : Host.Outcome State Fault Refusal :=
  let w := wingSt s wing
  if Config.wings ≤ wing || w.pl == w.plNext || w.sub != 0 then .next s else .next (modWing s wing fun w => { w with pl := w.plNext })

/-- The package's averaged power is weighed (R368): above WATTS PKCAP falls by one; once it has been below 95 % of it for 1 ms,
PKCAP rises by one, and the next 1 ms begins. -/
def execPkcapAdjust (watts : Nat) (s : State) : Host.Outcome State Fault Refusal :=
  let h := s.hol
  let since := h.lowAt.getD s.gt
  let h1 : Holdar :=
    if h.plim < watts then { h with pkcap := h.pkcap - 1, lowAt := none }
    else if 95 * h.plim ≤ 100 * watts then { h with lowAt := none }
    else if since + 100000 ≤ s.gt then { h with pkcap := min 7 (h.pkcap + 1), lowAt := some s.gt }
    else { h with lowAt := some since }
  .next (evalLevels { s with hol := h1 })

/-- Energy charged to a context and its world (R369). -/
def charge (s : State) (c n : Nat) : State :=
  let s1 := modCtx s c fun x => { x with ectx := x.ectx + BitVec.ofNat 64 n }
  modWorld s1 (ctxOf s c).world fun r => { r with econs := r.econs + BitVec.ofNat 64 n }

/-- The contexts resident in a wing. -/
def wingCtxs (s : State) (wing : Nat) : List Nat :=
  ((s.blocks.filter fun (_, b) => wingOf b.core == wing && b.life != .retired && b.life != .saved).map fun (_, b) => b.ctx).eraseDups

/-- The credit of a transfer in pJ (R371): 1 for an HBM toggle avoided, 3 for a fabric toggle, 500 for an HBM sector elided, 1200 for a
fabric flit. -/
def creditOf (t : Transfer) : Nat := t.hbmToggles + 3 * t.fabToggles + 500 * t.sectors + 1200 * t.flits

/-- A transfer charged to its world (R369), with its credit: what is less than 1 µJ is kept. -/
def chargeTransfer (s : State) (t : Transfer) : State :=
  modWorld s t.world fun r =>
    let pj := r.creditPj + creditOf t
    { r with econs := r.econs + BitVec.ofNat 64 t.energy, ecred := r.ecred + BitVec.ofNat 64 (pj / 1000000), creditPj := pj % 1000000 }

/-- The energy of a wing divided (R369): the active part by the cycles of each context, the idle part equally; transfers are
charged to their world. -/
def execEnergyAccounting (wing active idle : Nat) (busy : List (Nat × Nat)) (transfers : List Transfer) (s : State) :
    Host.Outcome State Fault Refusal :=
  let all := busy.foldl (fun n q => n + q.2) 0
  let s1 := busy.foldl (fun s q => charge s q.1 (active * q.2 / all)) s
  let cs := wingCtxs s wing
  let s2 := cs.foldl (fun s c => charge s c (idle / cs.length)) s1
  .next (transfers.foldl chargeTransfer s2)

/-- Filler issued (R370): it changes nothing but the accounts of the context whose work left. -/
def execFillerIssue (wing ctx energy : Nat) (s : State) : Host.Outcome State Fault Refusal :=
  if Config.wings ≤ wing then .next s
  else .next (modWorld (charge s ctx energy) (ctxOf s ctx).world fun r => { r with efill := r.efill + BitVec.ofNat 64 energy })

/-! ### Bring-up (R350, R372, R373) -/

/-- The bytes of a digest, most significant first. -/
def digestBytes (d : BitVec 384) : List Byte := (bytesLE 48 d.toNat).reverse

/-- The signature check of R350: the image's digest is signed with a key whose SHA-384 is fused. -/
def imageSigned (x : BootImage) : Bool := Config.sha384 x.key == Config.fusedKey && Config.ecdsaGood x.key (Config.sha384 x.bytes) x.sig

/-- The boot chain (R350): each image is measured; the first that fails its checks ends the chain. -/
def bootChain (minver : Nat) : Nat → List BootImage → SMap (BitVec 384) → SMap (BitVec 384) × Bool
  | _, [], m => (m, false)
  | i, x :: r, m =>
    let m1 := mput m i (Config.sha384 (digestBytes (mget m i 0) ++ digestBytes (Config.sha384 x.bytes))) 0
    if !imageSigned x || x.secver < minver then (m1, true) else bootChain minver (i + 1) r m1

/-- Power-on (R350, R363): everything is as at reset but what is fused and the repair table; the images are measured, and
after one that fails function 0 alone answers. -/
def execPowerOnBoot (images : List BootImage) (s : State) : Host.Outcome State Fault Refusal :=
  let (m, bad) := bootChain s.hol.minver 0 (images.take 5) []
  let cores := s.hol.cores.filterMap fun (c, x) => if x.spared then some (c, { ({} : CoreSt) with spared := true }) else none
  let h : Holdar := { minver := s.hol.minver, repair := s.hol.repair.map fun (d, r) => (d, { r with lcore := 0, code := 0 }), cores := cores, mreg := m, bootFail := bad, booted := true,
                      ready := if bad then 0x8000000000000000 else 0 }
  .next { State.reset with hol := h, inbox := s.inbox, answers := s.answers, nfree := s.nfree }

/-- The number that a SEV 4 record gives a unit: its READY bit, or its wing or port. -/
def unitIndex : ReadyUnit → Nat
  | .cfg => 63
  | .hlm => 62
  | .cur h => 60 + h
  | .cons h => 58 + h
  | .coll h => 56 + h
  | .host h => 32 + h
  | .hbm i => 16 + i
  | .cd i => i
  | .wing i => i
  | .port i => i

/-- A unit of the package. -/
def unitExists : ReadyUnit → Bool
  | .cfg => true
  | .hlm => true
  | .cur h => h < 2
  | .cons h => h < 2
  | .coll h => h < 2
  | .host h => h < 2
  | .hbm i => i < 16
  | .cd i => i < 8
  | .wing i => i < 32
  | .port i => i < 32

/-- What a unit's readiness waits for (R373): a wing for its die of four wings, the Curator for CFG. -/
def unitWaits (s : State) : ReadyUnit → Bool
  | .wing i => !s.hol.ready.getLsbD (i / 4)
  | .cur _ => !s.hol.ready.getLsbD 63
  | .cfg => false
  | .hlm => false
  | .cons _ => false
  | .coll _ => false
  | .host _ => false
  | .hbm _ => false
  | .cd _ => false
  | .port _ => false

/-- A unit's ready bit set. -/
def setReady (h : Holdar) (u : ReadyUnit) : Holdar :=
  let one : Holdar := { h with ready := h.ready ||| BitVec.ofNat 64 (2 ^ unitIndex u) }
  match u with
  | .wing i => { h with wready := h.wready ||| BitVec.ofNat 32 (2 ^ i) }
  | .port i => { h with pready := h.pready ||| BitVec.ofNat 32 (2 ^ i) }
  | .cfg => one
  | .hlm => one
  | .cur _ => one
  | .cons _ => one
  | .coll _ => one
  | .host _ => one
  | .hbm _ => one
  | .cd _ => one

/-- A unit has been tested, the boot chain over (R350, R372): it is ready, or a record of UNIT 9 says that it is not. -/
def execUnitReady (unit : ReadyUnit) (ok : Bool) (s : State) : Host.Outcome State Fault Refusal :=
  if !s.hol.booted || s.hol.bootFail || !unitExists unit || unitWaits s unit then .next s
  else if ok then .next (wakeCurator { s with hol := setReady s.hol unit })
  else .next (errRecord s 9 (unitIndex unit) 4 0 0 0)

end Sys2Proof.Machine
end

