-- ==== Sys2Proof/Machine/Registers.lean ====
section
/-! DEFINITION. Writes of the registers that have no row of their own (R252 to R254, R266, R267, R297, R316, R319, R322, R325,
R331, R338, R339, R341, R358, R367). -/
namespace Sys2Proof.Machine
open Sys2Proof

/-- A write of QCFG (R252). -/
def writeQcfg (s : State) (q : Nat) (v : BitVec 64) : State :=
  let n := bits v 0 5
  if n < 4 || 16 < n then s
  else wakeCurator (modQueue s q fun x => { x with en := v.getLsbD 63, world := bits v 57 6, pmax := bits v 54 3, log2n := n })

/-- A write of WCFG (R253): a WEIGHT of 0 stores 1. -/
def writeWcfg (s : State) (w : Nat) (v : BitVec 64) : State :=
  wakeCurator (modWorld s w fun r =>
    { r with weight := max 1 (bits v 56 8), maxp := bits v 53 3, capblk := bits v 37 16, wingset := BitVec.ofNat 32 (bits v 0 32) })

/-- A unit whose counts have come to EXPECT completes (R254). -/
def settleUnit (s : State) (u : Nat) : State :=
  let x := unitOf s u
  if !x.en || x.expect == 0 || x.done.toNat + x.cancd.toNat != x.expect.toNat then s
  else
    let s1 := modUnit s u fun y => { y with canc := false }
    let s2 := if x.irq then raiseIrq s1 x.world 0 else s1
    countUnit 4 s2 x.parent.toNat (x.cancd == 0)

/-- A write of UCFG (R254, R263): LEVEL 0 is refused at EN; only world 0 changes WORLD; 1 in bit 62 cancels. -/
def writeUcfg (s : State) (writer u : Nat) (v : BitVec 64) : State :=
  let level := bits v 60 2
  let x := unitOf s u
  if v.getLsbD 63 && level == 0 then s
  else
    let world := if writer == 0 then bits v 53 6 else x.world
    let s1 := modUnit s u fun x => { x with en := v.getLsbD 63, level := level, irq := v.getLsbD 59, world := world,
                                            parent := BitVec.ofNat 16 (bits v 32 16), expect := BitVec.ofNat 32 (bits v 0 32) }
    let s2 := if v.getLsbD 62 && v.getLsbD 63 then cancelUnit s1 u else s1
    if x.en && x.expect == BitVec.ofNat 32 (bits v 0 32) then s2 else settleUnit s2 u

/-- A write of a count of a unit. -/
def writeCount (s : State) (u : Nat) (f : UnitSt → UnitSt) : State :=
  let x := unitOf s u
  let s1 := modUnit s u f
  if unitOf s1 u == x then s1 else settleUnit s1 u

/-- A write of WCTL (R322): other fields only while EN is 0; EN opens and closes. -/
def writeWctl (s : State) (n : Nat) (v : BitVec 64) : State :=
  let w := mget s.fab.wins n {}
  if w.en then
    if v.getLsbD 63 then s else modWin (closeWindow (sendWindow s n false) n) n fun w => { w with en := false }
  else
    let s := modWin s n fun w => { w with world := bits v 55 6, ctx := bits v 43 12, node := bits v 36 7, rworld := bits v 30 6, rctx := bits v 18 12 }
    if v.getLsbD 63 then openWindow s n else s

/-- A write of CDCTL (R339): with GO it derives; while BUSY a GO is discarded. -/
def writeCdctl (s : State) (w : Nat) (v : BitVec 64) : State :=
  let busy := (worldOf s w).t.cdctl.getLsbD 62
  let s1 := modTrust s w fun t => { t with cdctl := (t.cdctl &&& 0x40000000FF000000) ||| (v &&& 0x300FFFFF00000FFF) }
  if v.getLsbD 63 then (if busy then s else deriveGo s1 w) else s1

/-- A write of KEYCMD (R339, R347). -/
def writeKeycmd (s : State) (w : Nat) (v : BitVec 64) : State :=
  if (worldOf s w).t.keycmd.getLsbD 62 then s else
  let s1 := modTrust s w fun t => { t with keycmd := (t.keycmd &&& 0x40FF000000000000) ||| (v &&& 0x0000FFFFFF000000) }
  if v.getLsbD 63 then keyGo s1 w (bits v 40 8) else s1

/-- The access table with one entry at some rights (R319): with no rights it is gone. -/
def writeAccess (s : State) (e : AccessEntry) : State :=
  let rest := s.fab.access.filter fun x => { x with rights := e.rights } != e
  { s with fab := { s.fab with access := if e.rights == 0 then rest else rest ++ [e] } }

/-- An EXPORT entry changed. -/
def modExport (s : State) (e : Nat) (f : Bool × BitVec 36 × BitVec 32 → Bool × BitVec 36 × BitVec 32) : State :=
  { s with fab := { s.fab with exports := mmod s.fab.exports e (false, 0, 0) f } }

/-- A PREG region changed (R341): its bounds are multiples of 2 MiB. -/
def modPreg (s : State) (i : Nat) (f : DWord × DWord × DWord → DWord × DWord × DWord) : State :=
  modMem s fun m => moveMacs m { m with pregs := mmod m.pregs i (0, 0, 0) f }

/-- World 0 enables or disables SR-IOV (R373): the virtual functions appear, and their worlds are enabled, their accounts at 0 (R369).
PRESUMED: bit 0 is VF Enable, as in the SR-IOV capability of PCI Express. -/
def writeSriov (s : State) (on : Bool) : State :=
  let s1 : State := { s with hol := { s.hol with sriov := on } }
  if on && !s.hol.sriov then
    { s1 with worlds := s1.worlds.map fun (w, r) => (w, if w == 0 then r else { r with econs := 0, efill := 0, ecred := 0, creditPj := 0 }) }
  else s1

/-- A write that a world may make. -/
def writeReg (s : State) (writer : Nat) (r : Reg) (v : BitVec 64) : State :=
  match r with
  | .qcfg q => writeQcfg s q v
  | .wcfg w => writeWcfg s w v
  | .wpre w => modWorld s w fun r => { r with budget := bits v 0 16 }
  | .wpwr w => modWorld s w fun r => { r with defpl := BitVec.ofNat 3 (bits v 4 3), maxpl := BitVec.ofNat 3 (bits v 0 3) }
  | .plim => { s with hol := { s.hol with plim := min 3000 (bits v 0 16) } }
  | .ucfg u => writeUcfg s writer u v
  | .udone u => writeCount s u fun x => { x with done := BitVec.ofNat 32 (bits v 0 32) }
  | .ucanc u => writeCount s u fun x => { x with cancd := BitVec.ofNat 32 (bits v 0 32) }
  | .cxworld c => if (ctxOf s c).en then s else modCtx s c fun x => { x with world := bits v 57 6 }
  | .cxstop c => if (ctxOf s c).st == 0 || (ctxOf s c).st == 4 then modCtx s c fun x => { x with stopped := v.toNat } else s
  | .cxslice c => modCtx s c fun x => { x with slice := BitVec.ofNat 32 (bits v 0 32) }
  | .cxs1 c => modCtx s c fun x => { x with s1 := v &&& 0x8000FFFFFFFFF000 }
  | .invaddr w => modWorld s w fun r => { r with invaddr := BitVec.ofNat 45 (bits v 12 45) }
  | .export0 e => modExport s e fun x => (v.getLsbD 63, BitVec.ofNat 36 (bits v 12 36), x.2.2)
  | .export1 e => modExport s e fun x => (x.1, x.2.1, BitVec.ofNat 32 (bits v 0 32))
  | .access tnode node world tworld lo len =>
    writeAccess s { tnode := tnode, node := node, world := world, tworld := tworld, lo := lo, len := len, rights := BitVec.ofNat 4 (bits v 0 4) }
  | .wctl n => writeWctl s n v
  | .wva n => if (mget s.fab.wins n {}).en then s else modWin s n fun w => { w with va := BitVec.ofNat 45 (bits v 12 45) }
  | .wlen n => if (mget s.fab.wins n {}).en then s else modWin s n fun w => { w with npages := BitVec.ofNat 32 (bits v 0 32) }
  | .xmtf c => modCtx s c fun x => { x with xmtf := v }
  | .xmpn c => modCtx s c fun x => { x with xmpn := v &&& 0xFFFFFFFF }
  | .bflen => modMem s fun m => { m with bflip := if m.bflip.busy then m.bflip else { m.bflip with len := BitVec.ofNat 32 (bits v 0 32) } }
  | .cdctl w => writeCdctl s w v
  | .cdbase w => modTrust s w fun t => { t with cdbase := v }
  | .cdlen w => modTrust s w fun t => { t with cdlen := v }
  | .cdaddr w => modTrust s w fun t => { t with cdaddr := v }
  | .cddst w => modTrust s w fun t => { t with cddst := v }
  | .keycmd w => writeKeycmd s w v
  | .keydst w => modTrust s w fun t => { t with keydst := v }
  | .pregBase i => modPreg s i fun x => (v &&& ~~~(0x1FFFFF : DWord), x.2.1, x.2.2)
  | .pregSize i => modPreg s i fun x => (x.1, v &&& ~~~(0x1FFFFF : DWord), x.2.2)
  | .pregMac i => modPreg s i fun x => (x.1, x.2.1, v)
  | .rvctl c => if (ctxOf s c).rv.busy then s else modRv s c fun r => { r with narea := BitVec.ofNat 4 (bits v 56 4) }
  | .rvbase c => modRv s c fun r => { r with base := v &&& 0x01FFFFFFFFFFF000 }
  | .repair d => modRepair s d fun r => { r with lcore := bits v 55 8 }
  | .sriov => writeSriov s (v.getLsbD 0)

/-- A world may write a register: it exists, and the writer is world 0 or the world that the register is tagged with where
the register is not world 0's alone (R252 to R254, R266, R297, R316, R322, R325, R331, R338, R339, R358, R367). -/
def mayWrite (s : State) (writer : Nat) : Reg → Bool
  | .qcfg q => writer == 0 && q < Config.queues
  | .wcfg w => writer == 0 && w < Config.worlds
  | .wpre w => writer == 0 && w < Config.worlds
  | .wpwr w => writer == 0 && w < Config.worlds
  | .plim => writer == 0
  | .ucfg u => u < Config.units && (writer == 0 || writer == (unitOf s u).world)
  | .udone u => u < Config.units && (writer == 0 || writer == (unitOf s u).world)
  | .ucanc u => u < Config.units && (writer == 0 || writer == (unitOf s u).world)
  | .cxworld c => writer == 0 && c < Config.contexts
  | .cxstop c => writer == 0 && c < Config.contexts
  | .cxslice c => writer == 0 && c < Config.contexts
  | .cxs1 c => c < Config.contexts && (writer == 0 || writer == (ctxOf s c).world)
  | .invaddr w => w < Config.worlds && (writer == 0 || writer == w)
  | .export0 e => writer == 0 && e < 64
  | .export1 e => writer == 0 && e < 64
  | .access _ _ _ _ _ _ => writer == 0
  | .wctl n => writer == 0 && n < 4096
  | .wva n => writer == 0 && n < 4096
  | .wlen n => writer == 0 && n < 4096
  | .xmtf c => writer == 0 && c < Config.contexts
  | .xmpn c => writer == 0 && c < Config.contexts
  | .bflen => writer == 0
  | .cdctl w => mayTrust s writer w
  | .cdbase w => mayTrust s writer w
  | .cdlen w => mayTrust s writer w
  | .cdaddr w => mayTrust s writer w
  | .cddst w => mayTrust s writer w
  | .keycmd w => mayTrust s writer w
  | .keydst w => mayTrust s writer w
  | .pregBase i => writer == 0 && i < 16
  | .pregSize i => writer == 0 && i < 16
  | .pregMac i => writer == 0 && i < 16
  | .rvctl c => c < Config.contexts && (writer == 0 || writer == (ctxOf s c).world)
  | .rvbase c => c < Config.contexts && (writer == 0 || writer == (ctxOf s c).world)
  -- a write of REPAIR.GO is an event of its own (R363)
  | .repair d => writer == 0 && d < 8
  | .sriov => writer == 0 && s.hol.ready.getLsbD 63

/-- A write to a register with no row of its own: discarded where the world may not write it. -/
def execRegisterWrite (writer : Nat) (r : Reg) (v : BitVec 64) (s : State) : Host.Outcome State Fault Refusal :=
  if silenced s writer then .next s else
  match r with
  | .qcfg q =>
    -- R338: another world's write is logged as it is discarded
    if mayWrite s writer r then .next (writeReg s writer r v)
    else .next (if q < Config.queues && writer != (queueOf s q).world then logWrite s writer (bytesLE 4 q ++ bytesLE 8 v.toNat) else s)
  | .rvctl c =>
    if v.getLsbD 63 then execRevocationSweepStart writer c (BitVec.ofNat 4 (bits v 56 4)) s
    else .next (if mayWrite s writer r then writeReg s writer r v else s)
  | _ => .next (if mayWrite s writer r then writeReg s writer r v else s)

/-! ### Reads of the registers (R252 to R254, R266, R267, R297, R316, R322, R325, R331, R332, R338, R339, R341, R356, R358, R363,
R364, R367, R369, R372) -/

/-- Fields of a register as a number: each value at its lowest bit. -/
def fields (fs : List (Nat × Nat)) : Nat := fs.foldl (fun n f => n + f.2 * 2 ^ f.1) 0
/-- A flag as a field's value. -/
def flag (b : Bool) : Nat := if b then 1 else 0
/-- A half of a capability register, the low one first. -/
def capHalf (c : Cap) (i : Nat) : Nat := (capBits c).toNat / 2 ^ (64 * i) % 2 ^ 64

/-- A word of a queue's block (R252). -/
def readQueue (x : Queue) (off : Nat) : Nat :=
  match off with
  | 0x00 => fields [(63, flag x.en), (57, x.world), (54, x.pmax), (0, x.log2n)]
  | 0x08 => x.head.toNat
  | 0x10 => capHalf x.arena 0
  | 0x18 => capHalf x.arena 1
  | 0x20 => capHalf x.ring 0
  | 0x28 => capHalf x.ring 1
  | 0x30 => x.tail.toNat
  | 0x38 => fields [(16, x.refused), (8, x.lasterr.toNat)]
  | _ => 0

/-- A word of a context's block (R266): CT runs while the context does. -/
def readCtx (s : State) (c off : Nat) : Nat :=
  let x := ctxOf s c
  let mine := s.blocks.filter fun (_, b) => b.ctx == c
  match off with
  | 0x00 => fields [(63, flag x.en), (57, x.world), (56, flag x.stop), (55, flag x.dbg), (51, x.st), (48, x.cause)]
  | 0x08 => ctOf s c
  | 0x10 => x.stopped
  | 0x18 => (BitVec.ofInt 64 x.base).toNat
  | 0x20 => x.slice.toNat
  | 0x28 => fields [(25, flag (mine.any fun (_, b) => b.shadow.isSome)), (16, x.aq.length), (0, (mine.filter fun (_, b) => b.life == .saved).length)]
  | 0x40 => capHalf x.save 0
  | 0x48 => capHalf x.save 1
  | 0x50 => capHalf x.evring 0
  | 0x58 => capHalf x.evring 1
  | _ => 0

/-- The requesters of a world that are parked now (R297): words, tile words, frame and save writes, commands, a derivation. -/
def parkedOf (s : State) (w : Nat) : Nat :=
  (s.blocks.filter fun (_, b) => b.world == w).foldl (fun n (_, b) =>
    n + (b.groups.foldl (fun m g => m + ((g.out ++ (g.pre.map (·.parked)).getD []).filter fun p => p.token != 0).length) 0) +
      (b.tiles.filter fun t => match t with
        | .tmma _ _ _ _ _ _ _ _ _ _ _ _ _ _ token => token != 0
        | _ => false).length + flag (b.wtok != 0)) 0 +
  (s.eng.cmds.filter fun x => x.world == w && x.token != 0).length + flag ((worldOf s w).t.cdWait.any fun q => q.2.2.2 != 0)

/-- A word of a world's translation block (R297). -/
def readTrans (s : State) (w off : Nat) : Nat :=
  let r := worldOf s w
  match off with
  | 0x00 => fields [(63, flag r.s2en), (12, r.s2root.toNat)]
  | 0x10 => capHalf r.fbuf 0
  | 0x18 => capHalf r.fbuf 1
  | 0x28 => r.invaddr.toNat * 4096
  | 0x30 => r.invctl.toNat
  | 0x38 => fields [(16, r.refused), (0, min 0xFFFF (parkedOf s w))]
  | _ => 0

/-- A word of a world's trust block (R339). -/
def readTrust (s : State) (w off : Nat) : Nat :=
  let r := worldOf s w
  match off with
  | 0x00 => r.t.cdctl.toNat
  | 0x08 => r.t.cdbase.toNat
  | 0x10 => r.t.cdlen.toNat
  | 0x18 => r.t.cdaddr.toNat
  | 0x20 => r.t.cddst.toNat
  | 0x28 => fields [(63, flag (isProtected r)), (0, r.t.ways.toNat)]
  | 0x30 => capHalf r.t.intring 0
  | 0x38 => capHalf r.t.intring 1
  | 0x40 => r.t.keycmd.toNat
  | 0x48 => r.t.keydst.toNat
  | 0x50 => r.t.intfail.toNat
  | _ => 0

/-- A word of a context's revocation block (R358). -/
def readRv (x : Rv) (off : Nat) : Nat :=
  match off with
  | 0x00 => fields [(62, flag x.busy), (60, x.phase), (56, x.narea.toNat), (52, x.err), (0, x.ndone.toNat)]
  | 0x08 => x.cur.toNat
  | 0x10 => x.base.toNat
  | 0x18 => fields [(32, x.cleared.toNat)]
  | 0x20 => capHalf x.map 0
  | 0x28 => capHalf x.map 1
  | _ => if 0x40 ≤ off && off < 0x80 then capHalf (x.areas.getD ((off - 0x40) / 16) {}) (off / 8 % 2) else 0

/-- A word of world 0's Holdar aperture (R356, R363, R364, R367, R369, R372). -/
def readHoldar (s : State) (off : Nat) : Nat :=
  let i := off % 0x800 / 8
  if off < 0x800 then
    let x := mget s.hol.cores i {}
    if Config.cores ≤ i then 0
    else fields [(63, flag x.drain), (62, flag (coreBlocks s i).isEmpty), (61, flag x.offline), (60, flag x.spared), (0, x.cerr)]
  else if off < 0x840 then
    let x := mget s.hol.repair i {}
    fields [(55, x.lcore), (48, x.spares.toNat), (40, x.code)]
  else if 0x1000 ≤ off && off < 0x1100 then
    let x := wingSt s ((off - 0x1000) / 8)
    fields [(63, flag x.replan), (32, x.replans), (16, min 0xFFFF (x.replays.filter fun t => s.gt < t + 100000).length), (8, x.margin.toNat), (0, x.agecap)]
  else if off == 0x2000 then capHalf s.hol.errring 0
  else if off == 0x2008 then capHalf s.hol.errring 1
  else if 0x3000 ≤ off && off < 0x3200 then
    let r := worldOf s ((off - 0x3000) / 8)
    fields [(4, r.defpl.toNat), (0, r.maxpl.toNat)]
  else if off == 0x3400 then s.hol.plim
  else if 0x4000 ≤ off && off < 0x4800 then
    let r := worldOf s ((off - 0x4000) / 32)
    match off % 32 with
    | 0x00 => r.econs.toNat
    | 0x08 => r.efill.toNat
    | 0x10 => r.ecred.toNat
    | _ => 0
  else if off == 0x5000 then s.hol.ready.toNat
  else if off == 0x5008 then s.hol.wready.toNat
  else if off == 0x5010 then s.hol.pready.toNat
  else if 0x8000 ≤ off && off < 0x10000 then (ctxOf s ((off - 0x8000) / 8)).ectx.toNat
  else 0

/-- A word of world 0's fabric aperture (R316, R322, R325). -/
def readFabric (s : State) (off : Nat) : Nat :=
  if off == 0 then s.fab.node.toNat
  else if 0x100 ≤ off && off < 0x300 then (worldOf s ((off - 0x100) / 8)).frsv
  else if 0x1000 ≤ off && off < 0x1400 then
    let x := mget s.fab.exports ((off - 0x1000) / 16) (false, 0, 0)
    if off % 16 == 0 then fields [(63, flag x.1), (12, x.2.1.toNat)] else x.2.2.toNat
  else if 0x10000 ≤ off && off < 0x30000 then
    let w := mget s.fab.wins ((off - 0x10000) / 32) {}
    match off % 32 with
    | 0x00 => fields [(63, flag w.en), (62, flag w.opened), (61, flag w.refused), (55, w.world), (43, w.ctx), (36, w.node), (30, w.rworld), (18, w.rctx)]
    | 0x08 => w.va.toNat * 4096
    | 0x10 => w.npages.toNat
    | _ => 0
  else if 0x30000 ≤ off && off < 0x40000 then
    let x := ctxOf s ((off - 0x30000) / 16)
    if off % 16 == 0 then x.xmtf.toNat else x.xmpn.toNat
  else 0

/-- A word of a host aperture (R331, R332): BFLIP for world 0, and bounce channels, world 0 seeing every world's after its own. -/
def readHost (s : State) (world off : Nat) : Nat :=
  let f := s.mem.bflip
  if world == 0 && off == 0 then fields [(62, flag f.busy), (61, flag f.host), (12, f.page)]
  else if world == 0 && off == 8 then f.len.toNat
  else if 0x40000 ≤ off then
    let c := (off - 0x40000) / 32
    let w := if world == 0 then c / 16 else world
    if (world != 0 && 16 ≤ c) || Config.worlds ≤ w then 0
    else
      let b := mget (worldOf s w).t.bch (c % 16) {}
      match off % 32 with
      | 0x00 => fields [(63, flag b.opened)]
      | 0x08 => b.inCtr
      | 0x10 => b.outCtr
      | _ => 0
  else 0

/-- A word of a unit's block (R254). -/
def readUnit (x : UnitSt) (off : Nat) : Nat :=
  match off with
  | 0x00 => fields [(63, flag x.en), (62, flag x.canc), (60, x.level), (59, flag x.irq), (53, x.world), (32, x.parent.toNat), (0, x.expect.toNat)]
  | 0x08 => x.done.toNat
  | 0x10 => x.cancd.toNat
  | _ => 0

/-- The word that a world's function reads at an offset of an aperture: 0 in a block that is not its own, and where nothing is
(R252, R266, R297, R338, R358). -/
def readReg (s : State) (world aper off : Nat) : Nat :=
  let mine : Nat → Nat → Nat := fun owner v => if world == 0 || world == owner then v else 0
  match aper with
  | 0 => if Config.queues ≤ off / 64 then 0 else mine (queueOf s (off / 64)).world (readQueue (queueOf s (off / 64)) (off % 64))
  | 1 => if Config.contexts ≤ off / 128 then 0 else mine (ctxOf s (off / 128)).world (readCtx s (off / 128) (off % 128))
  | 2 =>
    if 0x4000 ≤ off && off < 0xC000 then mine (ctxOf s ((off - 0x4000) / 8)).world (ctxOf s ((off - 0x4000) / 8)).s1.toNat
    else if world == 0 then (if off / 128 < Config.worlds then readTrans s (off / 128) (off % 128) else 0)
    else if off < 128 then readTrans s world off else 0
  | 3 =>
    if world == 0 && 0x4000 ≤ off && off < 0x4200 then
      let x := mget s.mem.pregs ((off - 0x4000) / 32) (0, 0, 0)
      match off % 32 with
      | 0x00 => x.1.toNat
      | 0x08 => x.2.1.toNat
      | 0x10 => x.2.2.toNat
      | _ => 0
    else if world == 0 then
      -- R343: of a protected world, INTFAIL alone
      (if Config.worlds ≤ off / 256 || (isProtected (worldOf s (off / 256)) && off % 256 != 0x50) then 0 else readTrust s (off / 256) (off % 256))
    else if off < 256 then readTrust s world off else 0
  | 4 => if Config.contexts ≤ off / 128 then 0 else mine (ctxOf s (off / 128)).world (readRv (ctxOf s (off / 128)).rv (off % 128))
  | 5 =>
    if world == 0 then readHoldar s off
    else match off with
      | 0x00 => (worldOf s world).econs.toNat
      | 0x08 => (worldOf s world).efill.toNat
      | 0x10 => (worldOf s world).ecred.toNat
      | _ => 0
  | 6 => if world == 0 then readFabric s off else 0
  | 7 => readHost s world off
  | 8 => if Config.units ≤ off / 32 then 0 else mine (unitOf s (off / 32)).world (readUnit (unitOf s (off / 32)) (off % 32))
  | 9 =>
    let r := worldOf s (off / 16)
    if world != 0 || Config.worlds ≤ off / 16 then 0
    else if off % 16 == 0 then fields [(56, r.weight), (53, r.maxp), (37, r.capblk), (0, r.wingset.toNat)]
    else r.budget
  | _ => 0

/-- A read by a world's function: the word in answer 19, or an Unsupported Request where every TLP is refused (R336). -/
def takeRead (s : State) (world aper off : Nat) : State :=
  if silenced s world then answer s 8 world [] else answer s 19 world (bytesLE 8 (readReg s world aper off))

end Sys2Proof.Machine
end

