-- ==== Sys2Proof/Machine/Events.lean ====
section
/-! DEFINITION. What happens on a core of itself: clusters assigned, runs left, traps entered, loads, stores and deliveries
completed, logical time moved on (R80, R202, R213, R214, R231, R236, R239). -/
namespace Sys2Proof.Machine
open Sys2Proof

/-! ### Who issues (R213, R214) -/

/-- A quarter gives its clusters to a split, which issues its next packet (R213). -/
def execClusterAssignment (core quarter : Nat) (s : State) : Host.Outcome State Fault Refusal :=
  if s.cur.isSome then .next s
  else match chooseSplit s core quarter with
    | some c => .next { s with cur := some { blk := c.blk, gix := c.gix, no := c.no } }
    | none => .next s

/-- A packet inside a run, not its first, has been held back 256 cycles: the split goes back to the run's first (R214). -/
def execLatchRunLeave (blk gix split : Nat) (s : State) : Host.Outcome State Fault Refusal :=
  match blockOf s blk, groupOf s blk gix with
  | some b, some g => match g.split split with
    | none => .next s
    | some p =>
      let inside := match p.run with
        | some u => p.pc != u.start
        | none => false
      if inside && insideRun s b p && 1024 ≤ p.held && mayIssue s b g then
        .next (modGroup s blk gix fun g =>
          let h := (if p.word == 0 then g.settleRun split (nextReads s b p) else g).restartRun split
          { h.modSplit split (fun q => { q with held := 0 }) with r := h.r.noLatches })
      else .next s
  | _, _ => .next s

/-! ### Traps (R202) -/

/-- The trap that a group is to take: one that a stop request finds is taken at the waiting word (R92). -/
def trapDue (s : State) (b : Block) (g : Group) : Option TrapReq :=
  if (ctxOf s b.ctx).st == 2 then g.waiting.find? g.mayTake else g.pendDue

/-- A trap that has been raised and could not be entered yet is entered (R202). -/
def execTrapEntry (blk gix : Nat) (s : State) : Host.Outcome State Fault Refusal :=
  match groupWith s blk gix with
  | none => .next s
  | some (b, g) => match trapDue s b g with
    | none => .next s
    | some q => if g.halt == .halted || g.halt == .saved then .next s else .next (takeAtBoundary s blk gix q)

/-! ### Completions (R80, R231, R239) -/

/-- A load whose every lane has its value. -/
def loadDone (p : Pending) : Bool := p.ctr == .ld && !p.probe && p.todo.isEmpty && p.flt.isEmpty && p.buf.isEmpty

/-- A load's values reach their destination, and counter 0 falls (R80). Capabilities wait for the map of an active sweep to be
read (R135, R330). -/
def execLoadCompletion (blk gix id : Nat) (s : State) : Host.Outcome State Fault Refusal :=
  let s1 := settleOut s blk gix
  match (groupOf s1 blk gix).bind fun g => g.out.find? fun p => p.id == id with
  | some p =>
    if !loadDone p then .next s1
    else match checkMap s1 (((blockOf s1 blk).map (·.ctx)).getD 0) (p.vals.map (·.2.asCap)) with
      | (s2, true) => .next (modGroup (deliver s2 blk gix p) blk gix (·.dropOut id))
      | (s2, false) => .next s2
  | none => .next s

/-- A store takes its place after those before it, and counter 1 falls; a delivery of `redm` is accepted by its unit (R80). -/
def execStorePlaceTaken (blk gix id : Nat) (s : State) : Host.Outcome State Fault Refusal :=
  match (groupOf s blk gix).bind fun g => g.out.find? fun p => p.id == id with
  | none => .next s
  | some p =>
    if p.redm then
      if p.todo.isEmpty && p.flt.isEmpty then .next (modGroup s blk gix (·.modOut id fun p => { p with accepted := true, ctr := .free })) else .next s
    else if p.ctr != .st then .next s
    else
      let s1 := placeStores s blk gix (id + 1)
      match (groupOf s1 blk gix).bind fun g => g.out.find? fun q => q.id == id with
      | some q => if storeOver s1 blk gix q then .next (modGroup s1 blk gix (·.dropOut id)) else .next s1
      | none => .next s1

/-- The deliveries of a `redm` are applied in lane order, after the group's earlier ones to the same words (R141, R239). -/
def execRedmDeliveryApply (blk gix id : Nat) (s : State) : Host.Outcome State Fault Refusal := .next (applyRedm s blk gix id)

/-! ### Logical time (R236) -/

/-- A group whose time has not risen for 256 resident cycles has 16 added to it (R236). -/
def execLeasePtsAdvance (blk gix : Nat) (s : State) : Host.Outcome State Fault Refusal :=
  match groupOf s blk gix with
  | some g => if 1024 ≤ g.ptsIdle then .next (modGroup s blk gix fun g => { g with pts := g.pts + 16, ptsIdle := 0 }) else .next s
  | none => .next s

end Sys2Proof.Machine
end

