-- ==== Sys2Proof/Machine/Matrix.lean ====
section
/-! DEFINITION. Per-lane small matrices: products, transposes, factorisations and solves (R142 to R150). -/
namespace Sys2Proof.Machine
open Sys2Proof

/-! ### One lane's arithmetic -/

/-- What one lane's word gathers: FX, and the first noted column (R142, R146). -/
structure MAcc where
  fx  : Bool := false
  col : Option Nat := none
deriving DecidableEq, Repr

/-- A rounded result, its FX gathered (R142). -/
def MAcc.take (t : MAcc) (r : FRes) : MAcc × Nat := ({ t with fx := t.fx || r.fx }, r.bits)
/-- round_rn(x y). -/
def MAcc.mul (t : MAcc) (x y : Nat) : MAcc × Nat := t.take (fmul f32 .rn false x y)
/-- round_rn(s + x y), one rounding. -/
def MAcc.fma (t : MAcc) (s x y : Nat) : MAcc × Nat := t.take (ffma f32 .rn false false s x y)
/-- The fused update of R142. -/
def MAcc.fnm (t : MAcc) (s x y : Nat) : MAcc × Nat := t.take (ffma f32 .rn false true s x y)
/-- A singular value noted at a column: the first is kept (R146). -/
def MAcc.note (t : MAcc) (j : Nat) : MAcc := { t with col := some (t.col.getD j) }

/-- A NaN (R48). -/
def isNan32 (x : Nat) : Bool := 0x7F800000 < x % 2 ^ 31
/-- |p| is below 2^-126 or p is NaN (R146). -/
def isSingular (x : Nat) : Bool := x / 2 ^ 23 % 256 == 0 || isNan32 x
/-- s is greater than 0 (R146). -/
def isPositive (x : Nat) : Bool := !isNan32 x && x < 2 ^ 31 && x != 0
/-- |x| is greater than |y|; false of a NaN (R148). -/
def absGt (x y : Nat) : Bool := !isNan32 x && !isNan32 y && y % 2 ^ 31 < x % 2 ^ 31

/-- The reciprocal of a diagonal element, or +0 with its column noted (R149). -/
def MAcc.diag (t : MAcc) (p i : Nat) : MAcc × Nat :=
  if isSingular p then (t.note i, 0) else t.take (frcpRn p)

/-- The update s = fnm(s, x k, y k) over a list of k, in order. -/
def fnmRow (x y : Nat → Nat) : List Nat → MAcc × Nat → MAcc × Nat
  | [], s => s
  | k :: r, s => fnmRow x y r (s.1.fnm s.2 (x k) (y k))

/-- The numbers from `lo` up to but not including `hi`. -/
def span (lo hi : Nat) : List Nat := (List.range (hi - lo)).map (· + lo)

/-- A value at a place of a list of elements. -/
def at' (u : List Nat) (i : Nat) : Nat := u.getD i 0

/-! ### The sequences -/

/-- One element of a product (R144): the sum over k ascending. -/
def dotRow (x y : Nat → Nat) (n : Nat) (t : MAcc) : MAcc × Nat :=
  (span 1 n).foldl (fun s k => s.1.fma s.2 (x k) (y k)) (t.mul (x 0) (y 0))

/-- The product of an m x k and a k x n matrix, row-major (R144). -/
def mulSeq (a b : Nat → Nat) (m k n : Nat) : MAcc × List Nat :=
  (List.range (m * n)).foldl (fun (s : MAcc × List Nat) q =>
    let r := dotRow (fun i => a (k * (q / n) + i)) (fun i => b (n * i + q % n)) k s.1
    (r.1, s.2 ++ [r.2])) ({}, [])

/-- One column of the Cholesky factor (R147): `u` holds L row-major. -/
def cholCol (a : Nat → Nat) (n j : Nat) (s : MAcc × List Nat) : MAcc × List Nat :=
  let row := fun i k => at' s.2 (n * i + k)
  let p := fnmRow (row j) (row j) (List.range j) (s.1, a (n * j + j))
  let (t, l, rc) : MAcc × Nat × Nat :=
    if isPositive p.2 then
      let q := p.1.take (fsqrt f32 .rn false p.2)
      let r := q.1.take (frcpRn q.2)
      (r.1, q.2, r.2)
    else (p.1.note j, 0, 0)
  (span (j + 1) n).foldl (fun s i =>
    let v := fnmRow (row i) (row j) (List.range j) (s.1, a (n * i + j))
    let x := v.1.mul v.2 rc
    (x.1, setAt s.2 (n * i + j) x.2)) (t, setAt s.2 (n * j + j) l)

/-- The Cholesky factor (R147). -/
def cholSeq (a : Nat → Nat) (n : Nat) : MAcc × List Nat :=
  (List.range n).foldl (fun s j => cholCol a n j s) ({}, List.replicate (n * n) 0)

/-- The row that holds the pivot of column j (R148): strictly greater moves it. -/
def pivotRow (u : List Nat) (n j : Nat) : Nat :=
  (span (j + 1) n).foldl (fun p i => if absGt (at' u (n * i + j)) (at' u (n * p + j)) then i else p) j

/-- Two rows of a matrix exchanged. -/
def swapRows (u : List Nat) (n i j : Nat) : List Nat :=
  (List.range (n * n)).map fun q =>
    if q / n == i then at' u (n * j + q % n) else if q / n == j then at' u (n * i + q % n) else at' u q

/-- One step of the LU factorisation: the matrix and the pivot word (R148). -/
def luCol (n j : Nat) (s : MAcc × List Nat × Nat) : MAcc × List Nat × Nat :=
  let p := pivotRow s.2.1 n j
  let u := swapRows s.2.1 n j p
  let d := s.1.diag (at' u (n * j + j)) j
  let r := (span (j + 1) n).foldl (fun (s : MAcc × List Nat) i =>
    let m := s.1.mul (at' s.2 (n * i + j)) d.2
    (span (j + 1) n).foldl (fun (s : MAcc × List Nat) k =>
      let x := s.1.fnm (at' s.2 (n * i + k)) m.2 (at' s.2 (n * j + k))
      (x.1, setAt s.2 (n * i + k) x.2)) (m.1, setAt s.2 (n * i + j) m.2)) (d.1, u)
  (r.1, r.2, s.2.2 + p * 8 ^ j)

/-- The LU factorisation, the pivot word last (R148). -/
def luSeq (a : Nat → Nat) (n : Nat) : MAcc × List Nat :=
  let r := (List.range n).foldl (fun s j => luCol n j s) ({}, (List.range (n * n)).map a, 0)
  (r.1, r.2.1 ++ [r.2.2])

/-- One unknown of a triangular solve: the earlier unknowns `ks`, their elements, and the diagonal (R149). -/
def solveOne (el x : Nat → Nat) (ks : List Nat) (b : Nat) (t : MAcc) (diag i : Nat) : MAcc × Nat :=
  let s := fnmRow el x ks (t, b)
  let d := s.1.diag diag i
  d.1.mul s.2 d.2

/-- The lower solve (R149): T by row and column, b by row. -/
def lowerSeq (T : Nat → Nat → Nat) (b : Nat → Nat) (n : Nat) (t : MAcc) : MAcc × List Nat :=
  (List.range n).foldl (fun (s : MAcc × List Nat) i =>
    let r := solveOne (T i) (at' s.2) (List.range i) (b i) s.1 (T i i) i
    (r.1, setAt s.2 i r.2)) (t, List.replicate n 0)

/-- The upper solve (R149). -/
def upperSeq (T : Nat → Nat → Nat) (b : Nat → Nat) (n : Nat) (t : MAcc) : MAcc × List Nat :=
  (List.range n).reverse.foldl (fun (s : MAcc × List Nat) i =>
    let r := solveOne (T i) (at' s.2) (span (i + 1) n) (b i) s.1 (T i i) i
    (r.1, setAt s.2 i r.2)) (t, List.replicate n 0)

/-- The unit lower solve of an LU factor (R150). -/
def unitLower (T : Nat → Nat → Nat) (b : Nat → Nat) (n : Nat) (t : MAcc) : MAcc × List Nat :=
  (List.range n).foldl (fun (s : MAcc × List Nat) i =>
    let r := fnmRow (T i) (at' s.2) (List.range i) (s.1, b i)
    (r.1, setAt s.2 i r.2)) (t, List.replicate n 0)

/-- The exchanges of a pivot word (R150): only fields between the step and n exchange. -/
def permute (pw n : Nat) (c : List Nat) : List Nat :=
  (List.range n).foldl (fun c j =>
    let p := pw / 8 ^ j % 8
    if j < p && p < n then setAt (setAt c j (at' c p)) p (at' c j) else c) c

/-! ### Words -/

/-- The flags of an outcome (R146). -/
def colCC (c : Option Nat) : CC :=
  match c with
  | none => { c := false, z := true, n := false, v := false }
  | some j => { c := j % 2 == 1, z := false, n := j / 2 % 2 == 1, v := j / 4 % 2 == 1 }

/-- Consecutive window registers of the word's lanes written, each from its lane's list. -/
def Regs.putMany (r : Regs) (P : Nat) (act : LaneMask) (d n : Nat) (out : Nat → List Nat) : Regs :=
  (List.range n).foldl (fun r i => r.putWinLanes P (d + i) act fun l => BitVec.ofNat 32 (at' (out l) i)) r

/-- An element of a word's operand at base `x`. -/
def Op.el (o : Op) (l x i : Nat) : Nat := (o.r.win o.b.v.p (x + i) l).toNat

/-- A small-matrix word (R142): `n` registers from `d`; with `cc` it writes the condition codes and SP (R146). -/
def matWord (i : Instr) (s : State) (d n : Nat) (cc : Bool) (f : Op → Nat → MAcc × List Nat) : Host.Outcome State Fault Refusal :=
  issueWord i s fun o =>
    let res : SMap (MAcc × List Nat) := o.lanes.map fun l => (l, f o l)
    let acc : Nat → MAcc := fun l => (mget res l ({}, [])).1
    o.modR fun r =>
      let r := (r.putMany o.b.v.p o.act d n fun l => (mget res l ({}, [])).2).setFX o.act fun l => (acc l).fx
      if cc then (r.putCC o.act fun l => colCC (acc l).col).setSP o.act fun l => (acc l).col.isSome else r

/-- A dimension of a shape field (R39). -/
def dim (x : BitVec 3) : Nat := x.toNat + 1

/-- `mmul` (R144). -/
def execMmul (d a b : BitVec 5) (m k n : BitVec 3) (s : State) : Host.Outcome State Fault Refusal :=
  matWord (.mmul d a b m k n) s (2 * d.toNat) (dim m * dim n) false fun o l =>
    mulSeq (o.el l (2 * a.toNat)) (o.el l (2 * b.toNat)) (dim m) (dim k) (dim n)

/-- `mtrans` (R145). -/
def execMtrans (d a : BitVec 6) (r l : BitVec 3) (s : State) : Host.Outcome State Fault Refusal :=
  matWord (.mtrans d a r l) s d.toNat (dim r * dim l) false fun o q =>
    ({}, (List.range (dim r * dim l)).map fun x => o.el q a.toNat (dim l * (x % dim r) + x / dim r))

/-- `mchol` (R147). -/
def execMchol (d a : BitVec 6) (r l : BitVec 3) (s : State) : Host.Outcome State Fault Refusal :=
  matWord (.mchol d a r l) s d.toNat (dim r * dim r) true fun o q => cholSeq (o.el q a.toNat) (dim r)

/-- `mlu` (R148). -/
def execMlu (d a : BitVec 6) (r l : BitVec 3) (s : State) : Host.Outcome State Fault Refusal :=
  matWord (.mlu d a r l) s d.toNat (dim r * dim r + 1) true fun o q => luSeq (o.el q a.toNat) (dim r)

/-- `mtrsl` (R149). -/
def execMtrsl (d a b : BitVec 6) (r l : BitVec 3) (s : State) : Host.Outcome State Fault Refusal :=
  matWord (.mtrsl d a b r l) s d.toNat (dim r) true fun o q =>
    lowerSeq (fun i j => o.el q a.toNat (dim r * i + j)) (o.el q b.toNat) (dim r) {}

/-- `mtrsu` (R149). -/
def execMtrsu (d a b : BitVec 6) (r l : BitVec 3) (s : State) : Host.Outcome State Fault Refusal :=
  matWord (.mtrsu d a b r l) s d.toNat (dim r) true fun o q =>
    upperSeq (fun i j => o.el q a.toNat (dim r * i + j)) (o.el q b.toNat) (dim r) {}

/-- `msolve.chol` (R150). -/
def execMsolveChol (d a b : BitVec 6) (r l : BitVec 3) (s : State) : Host.Outcome State Fault Refusal :=
  matWord (.msolveChol d a b r l) s d.toNat (dim r) true fun o q =>
    let y := lowerSeq (fun i j => o.el q a.toNat (dim r * i + j)) (o.el q b.toNat) (dim r) {}
    upperSeq (fun i j => o.el q a.toNat (dim r * j + i)) (at' y.2) (dim r) y.1

/-- `msolve.lu` (R150). -/
def execMsolveLu (d a b : BitVec 6) (r l : BitVec 3) (s : State) : Host.Outcome State Fault Refusal :=
  matWord (.msolveLu d a b r l) s d.toNat (dim r) true fun o q =>
    let T := fun i j => o.el q a.toNat (dim r * i + j)
    let c := permute (o.el q a.toNat (dim r * dim r)) (dim r) ((List.range (dim r)).map (o.el q b.toNat))
    let y := unitLower T (at' c) (dim r) {}
    upperSeq T (at' y.2) (dim r) y.1

end Sys2Proof.Machine
end

