-- ==== Sys2Proof/Machine/Scalar.lean ====
section
/-! DEFINITION. The scalar unit: arithmetic, comparisons, moves, status registers and lane reads (R68 to R71, R76, R88 to R91). -/
namespace Sys2Proof.Machine
open Sys2Proof

/-- A shift count: b[7:0], a count of 64 or more shifting everything out (R69). -/
def shiftCount (b : DWord) : Nat := bits b 0 8
/-- The high half of the signed product (R69). -/
def highSigned (a b : DWord) : DWord := (a.signExtend 128 * b.signExtend 128).extractLsb' 64 64
/-- The high half of the unsigned product (R69). -/
def highUnsigned (a b : DWord) : DWord := (a.setWidth 128 * b.setWidth 128).extractLsb' 64 64

/-- A scalar word that writes one scalar register (R69 to R71). -/
def scalarWord (i : Instr) (s : State) (d : BitVec 5) (f : Op → DWord) : Host.Outcome State Fault Refusal :=
  issueWord i s fun o => o.modR (·.putSc d (f o))

/-- The word `nop` (R24). -/
def execNop (s : State) : Host.Outcome State Fault Refusal := issueWord .nop s fun o => o.s

/-! ### Arithmetic (R69) -/

/-- The sum. -/
def aluSadd (a b : DWord) : DWord := a + b
/-- `sadd`. -/
def execSadd (d a : BitVec 5) (b : BitVec 5) (s : State) : Host.Outcome State Fault Refusal :=
  scalarWord (.sadd d a b) s d fun o => aluSadd (o.r.sc a) (o.r.sc b)

/-- `sadd` with an immediate. -/
def execSaddImm (d a : BitVec 5) (i : Imm 9) (s : State) : Host.Outcome State Fault Refusal :=
  scalarWord (.saddImm d a i) s d fun o => aluSadd (o.r.sc a) (immWide i)

/-- The difference. -/
def aluSsub (a b : DWord) : DWord := a - b
/-- `ssub`. -/
def execSsub (d a : BitVec 5) (b : BitVec 5) (s : State) : Host.Outcome State Fault Refusal :=
  scalarWord (.ssub d a b) s d fun o => aluSsub (o.r.sc a) (o.r.sc b)

/-- `ssub` with an immediate. -/
def execSsubImm (d a : BitVec 5) (i : Imm 9) (s : State) : Host.Outcome State Fault Refusal :=
  scalarWord (.ssubImm d a i) s d fun o => aluSsub (o.r.sc a) (immWide i)

/-- The and. -/
def aluSand (a b : DWord) : DWord := a &&& b
/-- `sand`. -/
def execSand (d a : BitVec 5) (b : BitVec 5) (s : State) : Host.Outcome State Fault Refusal :=
  scalarWord (.sand d a b) s d fun o => aluSand (o.r.sc a) (o.r.sc b)

/-- `sand` with an immediate. -/
def execSandImm (d a : BitVec 5) (i : Imm 9) (s : State) : Host.Outcome State Fault Refusal :=
  scalarWord (.sandImm d a i) s d fun o => aluSand (o.r.sc a) (immWide i)

/-- The or. -/
def aluSor (a b : DWord) : DWord := a ||| b
/-- `sor`. -/
def execSor (d a : BitVec 5) (b : BitVec 5) (s : State) : Host.Outcome State Fault Refusal :=
  scalarWord (.sor d a b) s d fun o => aluSor (o.r.sc a) (o.r.sc b)

/-- `sor` with an immediate. -/
def execSorImm (d a : BitVec 5) (i : Imm 9) (s : State) : Host.Outcome State Fault Refusal :=
  scalarWord (.sorImm d a i) s d fun o => aluSor (o.r.sc a) (immWide i)

/-- The exclusive or. -/
def aluSxor (a b : DWord) : DWord := a ^^^ b
/-- `sxor`. -/
def execSxor (d a : BitVec 5) (b : BitVec 5) (s : State) : Host.Outcome State Fault Refusal :=
  scalarWord (.sxor d a b) s d fun o => aluSxor (o.r.sc a) (o.r.sc b)

/-- `sxor` with an immediate. -/
def execSxorImm (d a : BitVec 5) (i : Imm 9) (s : State) : Host.Outcome State Fault Refusal :=
  scalarWord (.sxorImm d a i) s d fun o => aluSxor (o.r.sc a) (immWide i)

/-- The left shift. -/
def aluSshl (a b : DWord) : DWord := a <<< shiftCount b
/-- `sshl`. -/
def execSshl (d a : BitVec 5) (b : BitVec 5) (s : State) : Host.Outcome State Fault Refusal :=
  scalarWord (.sshl d a b) s d fun o => aluSshl (o.r.sc a) (o.r.sc b)

/-- `sshl` with an immediate. -/
def execSshlImm (d a : BitVec 5) (i : Imm 9) (s : State) : Host.Outcome State Fault Refusal :=
  scalarWord (.sshlImm d a i) s d fun o => aluSshl (o.r.sc a) (immWide i)

/-- The right shift, zeros in. -/
def aluSshr (a b : DWord) : DWord := a >>> shiftCount b
/-- `sshr`. -/
def execSshr (d a : BitVec 5) (b : BitVec 5) (s : State) : Host.Outcome State Fault Refusal :=
  scalarWord (.sshr d a b) s d fun o => aluSshr (o.r.sc a) (o.r.sc b)

/-- `sshr` with an immediate. -/
def execSshrImm (d a : BitVec 5) (i : Imm 9) (s : State) : Host.Outcome State Fault Refusal :=
  scalarWord (.sshrImm d a i) s d fun o => aluSshr (o.r.sc a) (immWide i)

/-- The right shift, sign bits in. -/
def aluSsra (a b : DWord) : DWord := a.sshiftRight (shiftCount b)
/-- `ssra`. -/
def execSsra (d a : BitVec 5) (b : BitVec 5) (s : State) : Host.Outcome State Fault Refusal :=
  scalarWord (.ssra d a b) s d fun o => aluSsra (o.r.sc a) (o.r.sc b)

/-- `ssra` with an immediate. -/
def execSsraImm (d a : BitVec 5) (i : Imm 9) (s : State) : Host.Outcome State Fault Refusal :=
  scalarWord (.ssraImm d a i) s d fun o => aluSsra (o.r.sc a) (immWide i)

/-- The low product. -/
def aluSmul (a b : DWord) : DWord := a * b
/-- `smul`. -/
def execSmul (d a : BitVec 5) (b : BitVec 5) (s : State) : Host.Outcome State Fault Refusal :=
  scalarWord (.smul d a b) s d fun o => aluSmul (o.r.sc a) (o.r.sc b)

/-- `smul` with an immediate. -/
def execSmulImm (d a : BitVec 5) (i : Imm 9) (s : State) : Host.Outcome State Fault Refusal :=
  scalarWord (.smulImm d a i) s d fun o => aluSmul (o.r.sc a) (immWide i)

/-- The high signed product. -/
def aluSmulhI64 (a b : DWord) : DWord := highSigned a b
/-- `smulhI64`. -/
def execSmulhI64 (d a : BitVec 5) (b : BitVec 5) (s : State) : Host.Outcome State Fault Refusal :=
  scalarWord (.smulhI64 d a b) s d fun o => aluSmulhI64 (o.r.sc a) (o.r.sc b)

/-- `smulhI64` with an immediate. -/
def execSmulhI64Imm (d a : BitVec 5) (i : Imm 9) (s : State) : Host.Outcome State Fault Refusal :=
  scalarWord (.smulhI64Imm d a i) s d fun o => aluSmulhI64 (o.r.sc a) (immWide i)

/-- The high unsigned product. -/
def aluSmulhU64 (a b : DWord) : DWord := highUnsigned a b
/-- `smulhU64`. -/
def execSmulhU64 (d a : BitVec 5) (b : BitVec 5) (s : State) : Host.Outcome State Fault Refusal :=
  scalarWord (.smulhU64 d a b) s d fun o => aluSmulhU64 (o.r.sc a) (o.r.sc b)

/-- `smulhU64` with an immediate. -/
def execSmulhU64Imm (d a : BitVec 5) (i : Imm 9) (s : State) : Host.Outcome State Fault Refusal :=
  scalarWord (.smulhU64Imm d a i) s d fun o => aluSmulhU64 (o.r.sc a) (immWide i)

/-- The signed minimum. -/
def aluSminI64 (a b : DWord) : DWord := if a.slt b then a else b
/-- `sminI64`. -/
def execSminI64 (d a : BitVec 5) (b : BitVec 5) (s : State) : Host.Outcome State Fault Refusal :=
  scalarWord (.sminI64 d a b) s d fun o => aluSminI64 (o.r.sc a) (o.r.sc b)

/-- `sminI64` with an immediate. -/
def execSminI64Imm (d a : BitVec 5) (i : Imm 9) (s : State) : Host.Outcome State Fault Refusal :=
  scalarWord (.sminI64Imm d a i) s d fun o => aluSminI64 (o.r.sc a) (immWide i)

/-- The unsigned minimum. -/
def aluSminU64 (a b : DWord) : DWord := if a.ult b then a else b
/-- `sminU64`. -/
def execSminU64 (d a : BitVec 5) (b : BitVec 5) (s : State) : Host.Outcome State Fault Refusal :=
  scalarWord (.sminU64 d a b) s d fun o => aluSminU64 (o.r.sc a) (o.r.sc b)

/-- `sminU64` with an immediate. -/
def execSminU64Imm (d a : BitVec 5) (i : Imm 9) (s : State) : Host.Outcome State Fault Refusal :=
  scalarWord (.sminU64Imm d a i) s d fun o => aluSminU64 (o.r.sc a) (immWide i)

/-- The signed maximum. -/
def aluSmaxI64 (a b : DWord) : DWord := if a.slt b then b else a
/-- `smaxI64`. -/
def execSmaxI64 (d a : BitVec 5) (b : BitVec 5) (s : State) : Host.Outcome State Fault Refusal :=
  scalarWord (.smaxI64 d a b) s d fun o => aluSmaxI64 (o.r.sc a) (o.r.sc b)

/-- `smaxI64` with an immediate. -/
def execSmaxI64Imm (d a : BitVec 5) (i : Imm 9) (s : State) : Host.Outcome State Fault Refusal :=
  scalarWord (.smaxI64Imm d a i) s d fun o => aluSmaxI64 (o.r.sc a) (immWide i)

/-- The unsigned maximum. -/
def aluSmaxU64 (a b : DWord) : DWord := if a.ult b then b else a
/-- `smaxU64`. -/
def execSmaxU64 (d a : BitVec 5) (b : BitVec 5) (s : State) : Host.Outcome State Fault Refusal :=
  scalarWord (.smaxU64 d a b) s d fun o => aluSmaxU64 (o.r.sc a) (o.r.sc b)

/-- `smaxU64` with an immediate. -/
def execSmaxU64Imm (d a : BitVec 5) (i : Imm 9) (s : State) : Host.Outcome State Fault Refusal :=
  scalarWord (.smaxU64Imm d a i) s d fun o => aluSmaxU64 (o.r.sc a) (immWide i)

/-! ### Comparisons (R70): 1 or 0 in sd -/

/-- The relation, as a value. -/
def relEq (a b : DWord) : DWord := if a == b then 1 else 0
/-- `scmp` by this relation. -/
def execScmpEq (d a : BitVec 5) (b : BitVec 5) (s : State) : Host.Outcome State Fault Refusal :=
  scalarWord (.scmpEq d a b) s d fun o => relEq (o.r.sc a) (o.r.sc b)

/-- `scmp` by this relation, against an immediate. -/
def execScmpEqImm (d a : BitVec 5) (i : Imm 9) (s : State) : Host.Outcome State Fault Refusal :=
  scalarWord (.scmpEqImm d a i) s d fun o => relEq (o.r.sc a) (immWide i)

/-- The relation, as a value. -/
def relNe (a b : DWord) : DWord := if a != b then 1 else 0
/-- `scmp` by this relation. -/
def execScmpNe (d a : BitVec 5) (b : BitVec 5) (s : State) : Host.Outcome State Fault Refusal :=
  scalarWord (.scmpNe d a b) s d fun o => relNe (o.r.sc a) (o.r.sc b)

/-- `scmp` by this relation, against an immediate. -/
def execScmpNeImm (d a : BitVec 5) (i : Imm 9) (s : State) : Host.Outcome State Fault Refusal :=
  scalarWord (.scmpNeImm d a i) s d fun o => relNe (o.r.sc a) (immWide i)

/-- The relation, as a value. -/
def relLtI64 (a b : DWord) : DWord := if a.slt b then 1 else 0
/-- `scmp` by this relation. -/
def execScmpLtI64 (d a : BitVec 5) (b : BitVec 5) (s : State) : Host.Outcome State Fault Refusal :=
  scalarWord (.scmpLtI64 d a b) s d fun o => relLtI64 (o.r.sc a) (o.r.sc b)

/-- `scmp` by this relation, against an immediate. -/
def execScmpLtI64Imm (d a : BitVec 5) (i : Imm 9) (s : State) : Host.Outcome State Fault Refusal :=
  scalarWord (.scmpLtI64Imm d a i) s d fun o => relLtI64 (o.r.sc a) (immWide i)

/-- The relation, as a value. -/
def relGeI64 (a b : DWord) : DWord := if !a.slt b then 1 else 0
/-- `scmp` by this relation. -/
def execScmpGeI64 (d a : BitVec 5) (b : BitVec 5) (s : State) : Host.Outcome State Fault Refusal :=
  scalarWord (.scmpGeI64 d a b) s d fun o => relGeI64 (o.r.sc a) (o.r.sc b)

/-- `scmp` by this relation, against an immediate. -/
def execScmpGeI64Imm (d a : BitVec 5) (i : Imm 9) (s : State) : Host.Outcome State Fault Refusal :=
  scalarWord (.scmpGeI64Imm d a i) s d fun o => relGeI64 (o.r.sc a) (immWide i)

/-- The relation, as a value. -/
def relLtU64 (a b : DWord) : DWord := if a.ult b then 1 else 0
/-- `scmp` by this relation. -/
def execScmpLtU64 (d a : BitVec 5) (b : BitVec 5) (s : State) : Host.Outcome State Fault Refusal :=
  scalarWord (.scmpLtU64 d a b) s d fun o => relLtU64 (o.r.sc a) (o.r.sc b)

/-- `scmp` by this relation, against an immediate. -/
def execScmpLtU64Imm (d a : BitVec 5) (i : Imm 9) (s : State) : Host.Outcome State Fault Refusal :=
  scalarWord (.scmpLtU64Imm d a i) s d fun o => relLtU64 (o.r.sc a) (immWide i)

/-- The relation, as a value. -/
def relGeU64 (a b : DWord) : DWord := if !a.ult b then 1 else 0
/-- `scmp` by this relation. -/
def execScmpGeU64 (d a : BitVec 5) (b : BitVec 5) (s : State) : Host.Outcome State Fault Refusal :=
  scalarWord (.scmpGeU64 d a b) s d fun o => relGeU64 (o.r.sc a) (o.r.sc b)

/-- `scmp` by this relation, against an immediate. -/
def execScmpGeU64Imm (d a : BitVec 5) (i : Imm 9) (s : State) : Host.Outcome State Fault Refusal :=
  scalarWord (.scmpGeU64Imm d a i) s d fun o => relGeU64 (o.r.sc a) (immWide i)

/-- `smovi` (R71). -/
def execSmovi (d : BitVec 5) (i : Imm 19) (s : State) : Host.Outcome State Fault Refusal :=
  scalarWord (.smovi d i) s d fun _ => immWide i

/-! ### Status registers (R88, R89) -/

/-- A counter as an 8-bit field (R89). -/
def count8 (g : Group) (c : BitVec 2) : BitVec 8 := BitVec.ofNat 8 (ctrSeen g c)

/-- The value of a status register (R89). -/
def statusValue (o : Op) (r : BitVec 6) : DWord :=
  let g := o.g
  if r == 0 then BitVec.ofNat 64 (g.splits.length * 2 ^ 12 + o.no * 2 ^ 8 + (if g.az then 1 else 0))
  else if r == 1 then o.r.fFX
  else if r == 2 then o.r.fSP
  else if r == 3 then (0 : BitVec 32) ++ count8 g 3 ++ count8 g 2 ++ count8 g 1 ++ count8 g 0
  else if r == 4 then BitVec.ofNat 64 (g.stack.length * 2 ^ 40 + g.lo * 2 ^ 20 + o.r.base)
  else if r == 8 then BitVec.ofNat 64 (g.cycQ / 4)
  else if r == 9 then BitVec.ofNat 64 (o.b.groups.length * 2 ^ 8 + o.gix)
  else if r == 10 then o.b.bix.setWidth 64
  else if r == 11 then BitVec.ofNat 64 (o.b.vix * 2 ^ 8 + o.b.width)
  else if r == 12 then BitVec.ofNat 64 o.b.core
  else 0

/-- The clearable bits of a status register cleared (R88): AZ, the FX or SP of the active lanes, or the whole of `cyc`. -/
def statusClear (r : BitVec 6) (act : LaneMask) (g : Group) : Group :=
  if r == 0 then { g with az := false }
  else if r == 1 then { g with r := { g.r with fFX := g.r.fFX &&& ~~~act } }
  else if r == 2 then { g with r := { g.r with fSP := g.r.fSP &&& ~~~act } }
  else if r == 8 then { g with cycQ := 0 }
  else g

/-- `sstat` (R88). -/
def execSstat (d : BitVec 5) (r : BitVec 6) (l : BitVec 1) (s : State) : Host.Outcome State Fault Refusal :=
  issueWord (.sstat d r l) s fun o =>
    o.mod fun g =>
      let g1 : Group := { g with r := g.r.putSc d (statusValue o r) }
      if l == 1 then statusClear r o.act g1 else g1

/-- `smask.rd` (R76). -/
def execSmaskRd (s' : BitVec 5) (s : State) : Host.Outcome State Fault Refusal :=
  issueWord (.smaskRd s') s fun o => o.modR (·.putSc s' o.act)

/-- `smask.wr` (R76): a result of 0 is discarded. -/
def execSmaskWr (s' : BitVec 5) (s : State) : Host.Outcome State Fault Refusal :=
  issueWord (.smaskWr s') s fun o =>
    let m := o.r.sc s' &&& o.sp.mem
    if m == 0 then o.s else o.modSp fun p => { p with act := m }

/-- `sflags` (R90). -/
def execSflags (d : BitVec 5) (f : BitVec 3) (s : State) : Host.Outcome State Fault Refusal :=
  issueWord (.sflags d f) s fun o => o.modR (·.putSc d (flagMask o.r f &&& o.act))

/-- `slane` (R91): the lane need not be active. -/
def execSlane (d : BitVec 5) (a : BitVec 6) (l : BitVec 6) (s : State) : Host.Outcome State Fault Refusal :=
  issueWord (.slane d a l) s fun o =>
    if o.W ≤ l.toNat then o.raise 0x01
    else o.modR (·.putSc d ((o.src .S a l.toNat).setWidth 64))

end Sys2Proof.Machine
end

