-- ==== Sys2Proof/Machine/Tx.lean ====
section
/-! DEFINITION. Lane transactions: opening, committing, aborting (R160 to R169). -/
namespace Sys2Proof.Machine
open Sys2Proof

/-- Every active lane of the word gets an abort code in d and its flags (R165). -/
def Op.codeAll (o : Op) (d : BitVec 6) (cause : Nat) : State :=
  o.modR fun r => o.lanes.foldl (fun r l => txCode r o.b.v.p o.r.base d l cause 0) r

/-- `txbeg` (R161). -/
def execTxbeg (d : BitVec 6) (s : State) : Host.Outcome State Fault Refusal :=
  issueWord (.txbeg d) s fun o =>
    if !(txOfSplit o.g o.no).isEmpty then o.abort o.s 7 0
    else match freeNumber o.g with
      | none =>
        { modGroup (o.codeAll d 11) o.k o.gix (·.modSplit o.no (·.goto (o.sp.pc + 1))) with jumped := true }
      | some n =>
        modGroup (o.codeAll d 0) o.k o.gix fun g =>
          { g with tx := o.lanes.foldl (fun m l => minsert m l
              { d := d, base := o.r.base, pkt := o.sp.pc, split := o.no, age := 0, rsv := n, live := false, reads := [], writes := [] }) g.tx }

/-- Two sets of lines meet. -/
def linesMeet (a b : List Nat) : Bool := a.any b.contains

/-- The lines of a read set. -/
def Tx.readLines (x : Tx) : List Nat := x.reads.map (·.1)

/-- A lane loses to a lower one that is still committing (R164). -/
def txConflict (h l : Tx) : Bool :=
  linesMeet h.writeLines (l.readLines ++ l.writeLines) || linesMeet h.readLines l.writeLines

/-- The lanes that stay after the conflicts are settled, lower lanes winning (R164). -/
def txWinners : List (Nat × Tx) → List (Nat × Tx) → List (Nat × Tx)
  | _, [] => []
  | kept, x :: r =>
    if kept.any fun h => txConflict h.2 x.2 then txWinners kept r else x :: txWinners (kept ++ [x]) r

/-- Every line of the read set still has the write time recorded (R164). -/
def txValid (m : MemSys) (x : Tx) : Bool := x.reads.all fun (_, pa, wts) => (lineAt m pa).1 == wts

/-- The least time of a commit: no earlier than the group, past the lease of every line written (R164, R234). -/
def txTime (m : MemSys) (t : Nat) (ls : List LaneAcc) : Nat :=
  ls.foldl (fun t a => match a.pa with
    | some (pa, _) => max t ((lineAt m pa).2 + 1)
    | none => t) t

/-- The read lines' leases carried to the commit (R164). -/
def txLeases (m : MemSys) (t : Nat) (x : Tx) : MemSys :=
  x.reads.foldl (fun m (_, pa, _) => let v := lineAt m pa; putLine m pa (v.1, max v.2 t)) m

/-- The surviving lanes commit together at one time (R164). -/
def txCommit (s : State) (k gix : Nat) (xs : List (Nat × Tx)) : State :=
  match blockOf s k with
  | none => s
  | some b => match b.groups[gix]? with
    | none => s
    | some g =>
      let ls := xs.flatMap fun x => x.2.writes
      let t := txTime s.mem (max g.pts g.relTop) ls
      let m := xs.foldl (fun m x => txLeases m t x.2) s.mem
      let (y, _, _) := applyLanes (whoOf s b) { m := m, b := b, gix := gix } ls
      let y := ls.foldl (fun y a => putLease y a (t, t)) y
      putBlock (sendLanes { s with mem := hideLanes s.mem y.m k gix 1 ls } (whoOf s b) s.mem t ls) k (y.b.modGroup gix fun g =>
        { g.raise t with tx := xs.foldl (fun m x => merase m x.1) g.tx })

/-- The split divided after `txend` (R166): the aborted lanes take the reserved number and go to the packet after
`txbeg`; the rest keep the split's number and go on. -/
def txDivide (g : Group) (no rsv : Nat) (aborted : LaneMask) (pc : BitVec 32) (next : BitVec 32 × Nat) (all : Bool) : Group :=
  if aborted == 0 then g
  else if all then g.modSplit no (·.sendBack pc)
  else
    let g1 : Group := g.modSplit no fun p =>
      { p with mem := p.act &&& ~~~aborted, act := p.act &&& ~~~aborted, pc := next.1, word := next.2 }
    { g1 with splits := g1.splits ++ [{ no := rsv, pc := pc, mem := aborted, act := aborted, fresh := true }] }

/-- `txend` (R164, R166): the outcome is decided once the loads that have issued have completed; its stores wait for the last
operand read of a `tmma.rel` (R240). The lanes that commit execute the rest of its packet (DESIGN CHOICE, log 136). -/
def execTxend (s : State) : Host.Outcome State Fault Refusal :=
  issueWord .txend s fun o =>
    let xs := o.g.tx.filter fun (l, x) => x.split == o.no && bit o.act l
    match xs with
    | [] => o.s
    | (_, x0) :: _ =>
      if o.g.out.any (·.rel) then stallAt o.s0 o.k o.gix o.no .settle else
      let s1 := placeStores (deliverAll o.s o.k o.gix) o.k o.gix o.g.nextId
      let won := txWinners [] xs
      let good := won.filter fun x => txValid s1.mem x.2
      let lost1 := (xs.filter fun x => !(won.any fun y => y.1 == x.1)).map (·.1)
      let lost2 := (won.filter fun x => !(good.any fun y => y.1 == x.1)).map (·.1)
      let lost := maskOf (lost1 ++ lost2)
      let s2 := txCommit s1 o.k o.gix good
      let s3 := modGroup s2 o.k o.gix fun g =>
        let g1 := abortLanes o.b.v.p (abortLanes o.b.v.p g lost1 1 0) lost2 2 0
        txDivide g1 o.no x0.rsv lost (x0.pkt + 1) o.sp.nxt (o.act &&& ~~~lost == 0)
      if lost == 0 then s3 else { s3 with jumped := true }

/-- `txabort` (R167). -/
def execTxabort (n : BitVec 8) (s : State) : Host.Outcome State Fault Refusal :=
  issueWord (.txabort n) s fun o =>
    if (o.g.tx.filter fun (l, x) => x.split == o.no && bit o.act l).isEmpty then o.s else o.abort o.s 5 n.toNat

/-- A transaction open for more than 65,536 resident cycles aborts, its split with it (R163). -/
def execTxDurationExpiry (blk gix lane : Nat) (s : State) : Host.Outcome State Fault Refusal :=
  match groupOf s blk gix with
  | none => .next s
  | some g => match mfind g.tx lane with
    | none => .next s
    | some x => if 262144 < x.age then .next (abortTx s blk gix x.split 12 0) else .next s

end Sys2Proof.Machine
end

