-- ==== Sys2Proof/Machine/VecInt.lean ====
section
/-! DEFINITION. Vector integer words: arithmetic, logic, shifts, moves, comparisons, predicates and cross-lane words
(R94 to R110). -/
namespace Sys2Proof.Machine
open Sys2Proof

/-- A source operand of a type's width. -/
def Op.opnd (o : Op) (t : IntTy) (x : BitVec 6) (l : Nat) : DWord :=
  if t.w == 64 then o.src64 x l else (o.src .V x l).setWidth 64

/-- The word with its flags written, where it carries `.cc` (R96). -/
def Op.flags (o : Op) (on : Bool) (f : Nat → CC) : Op := if on then { o with s := o.modR (·.putCC o.act f) } else o

/-- The word with a sticky exception flag set (R50). -/
def Op.fx (o : Op) (f : Nat → Bool) : Op := { o with s := o.modR (·.setFX o.act f) }

/-- A result of a type's width. -/
def Op.result (o : Op) (t : IntTy) (d : BitVec 6) (sup : BitVec 1) (f : Nat → DWord) : State :=
  if t.w == 64 then o.put64 .V d sup f else o.put .V d sup fun l => (f l).setWidth 32

/-- An element-wise word of two sources and d (R97). -/
def elemWord (i : Instr) (s : State) (t : IntTy) (sat : Bool) (d : BitVec 6) (sup : BitVec 1) (a b : Op → Nat → DWord)
    (op : Int → Int → Int → Int) : Host.Outcome State Fault Refusal :=
  issueWord i s fun o => o.result t d sup fun l => mapElems t sat op (a o l) (b o l) (o.opnd t d l)

/-- An addition or subtraction with flags (R96 to R98): `dif` subtracts, `cin` is the carry in, `keep` ANDs the old Z. -/
def addWord (i : Instr) (s : State) (t : IntTy) (sat cc dif keep : Bool) (d : BitVec 6) (sup : BitVec 1) (a b : Op → Nat → DWord)
    (cin : Op → Nat → Bool) : Host.Outcome State Fault Refusal :=
  issueWord i s fun o =>
    let n : Nat → Int := fun l => if dif then (if cin o l then 0 else -1) else (if cin o l then 1 else 0)
    let v : Nat → DWord := fun l =>
      mapElems t sat (fun x y _ => if dif then x - y + n l else x + y + n l) (a o l) (b o l) 0
    let c : Nat → CC := fun l => if dif then subCC t (a o l) (b o l) (cin o l) (v l) else addCC t (a o l) (b o l) (cin o l) (v l)
    let z : Nat → CC := fun l => if keep then { c l with z := (c l).z && (o.r.cc l).z } else c l
    (o.flags cc z).result t d sup v

/-- A register operand of a word. -/
def reg (t : IntTy) (x : BitVec 6) : Op → Nat → DWord := fun o l => o.opnd t x l

/-- An immediate operand of a type: every sub-element takes its low bits (R101). -/
def immOf {n : Nat} (t : IntTy) (i : Imm n) : Op → Nat → DWord := fun _ _ =>
  if t.w == 64 then immWide i
  else BitVec.ofNat 64 (packElems t.w ((List.range t.n).map fun _ => (immWord i).toNat % 2 ^ t.w))

/-- A bitwise word (R99). -/
def logicWord (i : Instr) (s : State) (y cc : BitVec 1) (d : BitVec 6) (sup : BitVec 1) (a b : Op → Nat → DWord)
    (op : DWord → DWord → DWord) : Host.Outcome State Fault Refusal :=
  issueWord i s fun o =>
    let t := tyOf (if y == 1 then 2 else 0)
    let v : Nat → DWord := fun l => op (a o l) (b o l)
    (o.flags (cc == 1) fun l => logicCC t (o.r.cc l) (v l)).result t d sup v

/-- The type of a bitwise word. -/
def tyB (y : BitVec 1) : IntTy := tyOf (if y == 1 then 2 else 0)

/-- A shift of each sub-element's bits by an amount (R100). -/
def shiftElems (t : IntTy) (op : Nat → Nat → Nat → Int) (a : DWord) (amount : Nat → Nat) : DWord :=
  BitVec.ofNat 64 (packElems t.w ((List.range t.n).map fun j => wrapTo t.w (op t.w (elemBits t a j) (amount j))))

/-- Left; 0 from the width on. -/
def opShl (w x n : Nat) : Int := if w ≤ n then 0 else ((x * 2 ^ n : Nat) : Int)
/-- Right with zeros in; 0 from the width on. -/
def opShr (w x n : Nat) : Int := if w ≤ n then 0 else ((x / 2 ^ n : Nat) : Int)
/-- Right with sign copies in; all copies from the width on. -/
def opSra (w x n : Nat) : Int := signed w x / (2 ^ min n w : Nat)

/-- A shift by register amounts (R100). -/
def shiftWord (i : Instr) (s : State) (t : IntTy) (d : BitVec 6) (sup : BitVec 1) (a b : BitVec 6) (op : Nat → Nat → Nat → Int) : Host.Outcome State Fault Refusal :=
  issueWord i s fun o => o.result t d sup fun l => shiftElems t op (o.opnd t a l) fun j => elemBits t (o.opnd t b l) j % 256

/-- A shift of d by an immediate amount (R101). -/
def shiftImm (i : Instr) (s : State) (t : IntTy) (d : BitVec 6) (sup : BitVec 1) (n : BitVec 11) (op : Nat → Nat → Nat → Int) : Host.Outcome State Fault Refusal :=
  issueWord i s fun o => o.result t d sup fun l => shiftElems t op (o.opnd t d l) fun _ => bits n 0 8

/-- `vadd` (R97). -/
def execVaddInt (d : BitVec 6) (sv : BitVec 1) (a b : BitVec 6) (g t : BitVec 1) (y : BitVec 3) (s : State) : Host.Outcome State Fault Refusal :=
  addWord (.vaddInt d sv a b g t y) s (tyOf y) (t == 1) (g == 1) false false d sv (reg (tyOf y) a) (reg (tyOf y) b) fun _ _ => false
/-- `vsub` (R97). -/
def execVsubInt (d : BitVec 6) (sv : BitVec 1) (a b : BitVec 6) (g t : BitVec 1) (y : BitVec 3) (s : State) : Host.Outcome State Fault Refusal :=
  addWord (.vsubInt d sv a b g t y) s (tyOf y) (t == 1) (g == 1) true false d sv (reg (tyOf y) a) (reg (tyOf y) b) fun _ _ => true
/-- `vmul` (R97). -/
def execVmulInt (d : BitVec 6) (sv : BitVec 1) (a b : BitVec 6) (t : BitVec 1) (y : BitVec 3) (s : State) : Host.Outcome State Fault Refusal :=
  elemWord (.vmulInt d sv a b t y) s (tyOf y) (t == 1) d sv (reg (tyOf y) a) (reg (tyOf y) b) fun p q _ => p * q
/-- `vmulh` (R97). -/
def execVmulh (d : BitVec 6) (sv : BitVec 1) (a b : BitVec 6) (y : BitVec 2) (s : State) : Host.Outcome State Fault Refusal :=
  elemWord (.vmulh d sv a b y) s (tyOf (y.setWidth 3)) false d sv (reg (tyOf (y.setWidth 3)) a) (reg (tyOf (y.setWidth 3)) b) fun p q _ => p * q / (2 ^ (tyOf (y.setWidth 3)).w : Nat)
/-- `vmad` (R97). -/
def execVmad (d : BitVec 6) (sv : BitVec 1) (a b : BitVec 6) (t : BitVec 1) (y : BitVec 3) (s : State) : Host.Outcome State Fault Refusal :=
  elemWord (.vmad d sv a b t y) s (tyOf y) (t == 1) d sv (reg (tyOf y) a) (reg (tyOf y) b) fun p q r => r + p * q
/-- `vmin` (R97). -/
def execVminInt (d : BitVec 6) (sv : BitVec 1) (a b : BitVec 6) (y : BitVec 3) (s : State) : Host.Outcome State Fault Refusal :=
  elemWord (.vminInt d sv a b y) s (tyOf y) false d sv (reg (tyOf y) a) (reg (tyOf y) b) fun p q _ => min p q
/-- `vmax` (R97). -/
def execVmaxInt (d : BitVec 6) (sv : BitVec 1) (a b : BitVec 6) (y : BitVec 3) (s : State) : Host.Outcome State Fault Refusal :=
  elemWord (.vmaxInt d sv a b y) s (tyOf y) false d sv (reg (tyOf y) a) (reg (tyOf y) b) fun p q _ => max p q
/-- `vabsd` (R97). -/
def execVabsd (d : BitVec 6) (sv : BitVec 1) (a b : BitVec 6) (y : BitVec 3) (s : State) : Host.Outcome State Fault Refusal :=
  elemWord (.vabsd d sv a b y) s (tyOf y) false d sv (reg (tyOf y) a) (reg (tyOf y) b) fun p q _ => ((p - q).natAbs : Int)
/-- `vand` (R99). -/
def execVand (d : BitVec 6) (sv : BitVec 1) (a b : BitVec 6) (g y : BitVec 1) (s : State) : Host.Outcome State Fault Refusal :=
  logicWord (.vand d sv a b g y) s y g d sv (reg (tyB y) a) (reg (tyB y) b) fun p q => p &&& q
/-- `vor` (R99). -/
def execVor (d : BitVec 6) (sv : BitVec 1) (a b : BitVec 6) (g y : BitVec 1) (s : State) : Host.Outcome State Fault Refusal :=
  logicWord (.vor d sv a b g y) s y g d sv (reg (tyB y) a) (reg (tyB y) b) fun p q => p ||| q
/-- `vxor` (R99). -/
def execVxor (d : BitVec 6) (sv : BitVec 1) (a b : BitVec 6) (g y : BitVec 1) (s : State) : Host.Outcome State Fault Refusal :=
  logicWord (.vxor d sv a b g y) s y g d sv (reg (tyB y) a) (reg (tyB y) b) fun p q => p ^^^ q
/-- `vandn` (R99). -/
def execVandn (d : BitVec 6) (sv : BitVec 1) (a b : BitVec 6) (g y : BitVec 1) (s : State) : Host.Outcome State Fault Refusal :=
  logicWord (.vandn d sv a b g y) s y g d sv (reg (tyB y) a) (reg (tyB y) b) fun p q => p &&& ~~~q
/-- `vshl` (R100). -/
def execVshl (d : BitVec 6) (sv : BitVec 1) (a b : BitVec 6) (y : BitVec 3) (s : State) : Host.Outcome State Fault Refusal :=
  shiftWord (.vshl d sv a b y) s (tyOf y) d sv a b opShl
/-- `vshr` (R100). -/
def execVshr (d : BitVec 6) (sv : BitVec 1) (a b : BitVec 6) (y : BitVec 3) (s : State) : Host.Outcome State Fault Refusal :=
  shiftWord (.vshr d sv a b y) s (tyOf y) d sv a b opShr
/-- `vsra` (R100). -/
def execVsra (d : BitVec 6) (sv : BitVec 1) (a b : BitVec 6) (y : BitVec 3) (s : State) : Host.Outcome State Fault Refusal :=
  shiftWord (.vsra d sv a b y) s (tyOf y) d sv a b opSra
/-- `vcmp` of integers (R106). -/
def execVcmpInt (a b : BitVec 6) (y : BitVec 3) (s : State) : Host.Outcome State Fault Refusal :=
  issueWord (.vcmpInt a b y) s fun o => o.modR (·.putCC o.act fun l => cmpCC (tyOf y) (o.opnd (tyOf y) a l) (o.opnd (tyOf y) b l))
/-- `vaddx` (R98). -/
def execVaddx (d : BitVec 6) (sv : BitVec 1) (a b : BitVec 6) (g : BitVec 1) (y : BitVec 2) (s : State) : Host.Outcome State Fault Refusal :=
  addWord (.vaddx d sv a b g y) s (tyOf (y.setWidth 3)) false (g == 1) false true d sv (reg (tyOf (y.setWidth 3)) a) (reg (tyOf (y.setWidth 3)) b)
    fun o l => (o.r.cc l).c
/-- `vsubx` (R98). -/
def execVsubx (d : BitVec 6) (sv : BitVec 1) (a b : BitVec 6) (g : BitVec 1) (y : BitVec 2) (s : State) : Host.Outcome State Fault Refusal :=
  addWord (.vsubx d sv a b g y) s (tyOf (y.setWidth 3)) false (g == 1) true true d sv (reg (tyOf (y.setWidth 3)) a) (reg (tyOf (y.setWidth 3)) b)
    fun o l => (o.r.cc l).c
/-- `vsel` by a flag test (R105). -/
def execVselFlag (d : BitVec 6) (sv : BitVec 1) (a b : BitVec 6) (e : BitVec 4) (s : State) : Host.Outcome State Fault Refusal :=
  issueWord (.vselFlag d sv a b e) s fun o => o.put .V d sv fun l => if flagTest o.r e l then o.src .V a l else o.src .V b l

/-- The bytes of `x` where the predicate has a 1, else those of `y` (R105, R107). -/
def mixBytes (p : BitVec 4) (x y : Word) : Word :=
  let m : Word := BitVec.ofNat 32 (packElems 8 ((List.range 4).map fun j => if p.getLsbD j then 255 else 0))
  (x &&& m) ||| (y &&& ~~~m)

/-- `vsel` by a predicate (R105). -/
def execVselPred (d : BitVec 6) (sv : BitVec 1) (a b : BitVec 6) (p : BitVec 3) (s : State) : Host.Outcome State Fault Refusal :=
  issueWord (.vselPred d sv a b p) s fun o => o.put .V d sv fun l => mixBytes (o.r.pred p l) (o.src .V a l) (o.src .V b l)

/-- The type of a masked word (R108). -/
def tyM (y : BitVec 2) : IntTy := if y == 0 then ⟨1, 32, true⟩ else if y == 1 then ⟨2, 16, true⟩ else ⟨4, 8, true⟩

/-- The predicate bits spread over the bytes of the selected sub-elements (R107). -/
def spread (y : BitVec 2) (p : BitVec 4) : BitVec 4 :=
  if y == 0 then (if p.getLsbD 0 then 15 else 0)
  else if y == 1 then (if p.getLsbD 0 then 3 else 0) ||| (if p.getLsbD 2 then 12 else 0)
  else p

/-- A masked word (R107, R108): sub-elements not selected keep d. -/
def maskedWord (i : Instr) (s : State) (y : BitVec 2) (d : BitVec 6) (sv : BitVec 1) (a : BitVec 6) (b : Option (BitVec 6)) (p : BitVec 3)
    (op : Int → Int → Int → Int) : Host.Outcome State Fault Refusal :=
  issueWord i s fun o => o.put .V d sv fun l =>
    let x : DWord := (o.src .V a l).setWidth 64
    let z : DWord := ((b.map fun c => o.src .V c l).getD 0).setWidth 64
    mixBytes (spread y (o.r.pred p l)) ((mapElems (tyM y) false op x z 0).setWidth 32) (o.src .V d l)

/-- Masked `vadd` (R108). -/
def execVaddMasked (d : BitVec 6) (sv : BitVec 1) (a b : BitVec 6) (p : BitVec 3) (y : BitVec 2) (s : State) : Host.Outcome State Fault Refusal :=
  maskedWord (.vaddMasked d sv a b p y) s y d sv a (some b) p fun x z _ => x + z
/-- Masked `vsub` (R108). -/
def execVsubMasked (d : BitVec 6) (sv : BitVec 1) (a b : BitVec 6) (p : BitVec 3) (y : BitVec 2) (s : State) : Host.Outcome State Fault Refusal :=
  maskedWord (.vsubMasked d sv a b p y) s y d sv a (some b) p fun x z _ => x - z
/-- Masked `vmov` (R108). -/
def execVmovMasked (d : BitVec 6) (sv : BitVec 1) (a : BitVec 6) (p : BitVec 3) (y : BitVec 2) (s : State) : Host.Outcome State Fault Refusal :=
  maskedWord (.vmovMasked d sv a p y) s y d sv a none p fun x _ _ => x

/-- `vadd` with an immediate (R101). -/
def execVaddImm (d : BitVec 6) (sv : BitVec 1) (i : Imm 11) (g t : BitVec 1) (y : BitVec 3) (s : State) : Host.Outcome State Fault Refusal :=
  addWord (.vaddImm d sv i g t y) s (tyOf y) (t == 1) (g == 1) false false d sv (reg (tyOf y) d) (immOf (tyOf y) i) fun _ _ => false
/-- `vand` with an immediate (R101). -/
def execVandImm (d : BitVec 6) (sv : BitVec 1) (i : Imm 11) (g y : BitVec 1) (s : State) : Host.Outcome State Fault Refusal :=
  logicWord (.vandImm d sv i g y) s y g d sv (reg (tyB y) d) (immOf (tyB y) i) fun p q => p &&& q
/-- `vor` with an immediate (R101). -/
def execVorImm (d : BitVec 6) (sv : BitVec 1) (i : Imm 11) (g y : BitVec 1) (s : State) : Host.Outcome State Fault Refusal :=
  logicWord (.vorImm d sv i g y) s y g d sv (reg (tyB y) d) (immOf (tyB y) i) fun p q => p ||| q
/-- `vshl` with an immediate (R101). -/
def execVshlImm (d : BitVec 6) (sv : BitVec 1) (i : BitVec 11) (y : BitVec 3) (s : State) : Host.Outcome State Fault Refusal :=
  shiftImm (.vshlImm d sv i y) s (tyOf y) d sv i opShl
/-- `vshr` with an immediate (R101). -/
def execVshrImm (d : BitVec 6) (sv : BitVec 1) (i : BitVec 11) (y : BitVec 3) (s : State) : Host.Outcome State Fault Refusal :=
  shiftImm (.vshrImm d sv i y) s (tyOf y) d sv i opShr
/-- `vsra` with an immediate (R101). -/
def execVsraImm (d : BitVec 6) (sv : BitVec 1) (i : BitVec 11) (y : BitVec 3) (s : State) : Host.Outcome State Fault Refusal :=
  shiftImm (.vsraImm d sv i y) s (tyOf y) d sv i opSra
/-- `vmovi` (R102): two extension words make the 64-bit form. -/
def execVmovi (d : BitVec 6) (sv : BitVec 1) (i : Imm 17) (s : State) : Host.Outcome State Fault Refusal :=
  issueWord (.vmovi d sv i) s fun o =>
    if extTwo i.ext then o.put64 .V d sv fun _ => immWide i else o.put .V d sv fun _ => immWord i

/-- `vfroms` (R104). -/
def execVfroms (d : BitVec 6) (sv : BitVec 1) (a : BitVec 5) (s : State) : Host.Outcome State Fault Refusal :=
  issueWord (.vfroms d sv a) s fun o => o.put .V d sv fun _ => (o.r.sc a).setWidth 32

/-! ### Cross-lane words (R110) -/

/-- A lane's element of a source, or 0 past the group. -/
def Op.laneOf (o : Op) (a : BitVec 6) (i : Nat) : Word := if i < o.W then o.src .V a i else 0

/-- `vperm`. -/
def execVperm (d : BitVec 6) (sv : BitVec 1) (a b : BitVec 6) (s : State) : Host.Outcome State Fault Refusal :=
  issueWord (.vperm d sv a b) s fun o => o.put .V d sv fun l => o.laneOf a (bits (o.src .V b l) 0 6)
/-- `vbcast`. -/
def execVbcast (d : BitVec 6) (sv : BitVec 1) (a b : BitVec 6) (s : State) : Host.Outcome State Fault Refusal :=
  issueWord (.vbcast d sv a b) s fun o =>
    let v := o.laneOf a (bits (o.src .V b (lowest o.act)) 0 6)
    o.put .V d sv fun _ => v
/-- The sum of a source over some lanes. -/
def Op.sum (o : Op) (a : BitVec 6) (ls : List Nat) : Word := ls.foldl (fun x l => x + o.src .V a l) 0
/-- `vscan.add.i32`. -/
def execVscanAddI32 (d : BitVec 6) (sv : BitVec 1) (a : BitVec 6) (s : State) : Host.Outcome State Fault Refusal :=
  issueWord (.vscanAddI32 d sv a) s fun o => o.put .V d sv fun l => o.sum a (o.lanes.filter (· ≤ l))
/-- `vred.add.i32`. -/
def execVredAddI32 (d : BitVec 6) (sv : BitVec 1) (a : BitVec 6) (s : State) : Host.Outcome State Fault Refusal :=
  issueWord (.vredAddI32 d sv a) s fun o =>
    let v := o.sum a o.lanes
    o.put .V d sv fun _ => v
/-- The extreme of a source over the active lanes. -/
def Op.extreme (o : Op) (a : BitVec 6) (better : Word → Word → Bool) : Word :=
  match o.lanes with
  | [] => 0
  | l :: r => r.foldl (fun x m => if better (o.src .V a m) x then o.src .V a m else x) (o.src .V a l)
/-- `vred.max.i32`. -/
def execVredMaxI32 (d : BitVec 6) (sv : BitVec 1) (a : BitVec 6) (s : State) : Host.Outcome State Fault Refusal :=
  issueWord (.vredMaxI32 d sv a) s fun o =>
    let v := o.extreme a fun x y => y.slt x
    o.put .V d sv fun _ => v
/-- `vred.min.i32`. -/
def execVredMinI32 (d : BitVec 6) (sv : BitVec 1) (a : BitVec 6) (s : State) : Host.Outcome State Fault Refusal :=
  issueWord (.vredMinI32 d sv a) s fun o =>
    let v := o.extreme a fun x y => x.slt y
    o.put .V d sv fun _ => v

/-! ### Predicates (R109) -/

/-- A predicate register written in the lanes of a mask. -/
def Regs.putPreds (r : Regs) (n : BitVec 3) (act : LaneMask) (f : Nat → BitVec 4) : Regs :=
  { r with p := (lanesOf act).foldl (fun p l => mput p (64 * n.toNat + l) (f l) 0) r.p }

/-- A byte test of `pcmp.b` (R40). -/
def byteTest (t : BitVec 4) (x y : Byte) : Bool :=
  if t == 0 then x == y else if t == 1 then x != y else if t == 2 then x.slt y else if t == 3 then !x.slt y
  else if t == 4 then x.ult y else !x.ult y

/-- The four byte tests of two words. -/
def byteTests (t : BitVec 4) (x y : Word) : BitVec 4 :=
  BitVec.ofNat 4 (packElems 1 ((List.range 4).map fun j =>
    if byteTest t (x.extractLsb' (8 * j) 8) (y.extractLsb' (8 * j) 8) then 1 else 0))

/-- `pcmp.b`. -/
def execPcmpB (d : BitVec 3) (a b : BitVec 6) (t : BitVec 4) (s : State) : Host.Outcome State Fault Refusal :=
  issueWord (.pcmpB d a b t) s fun o => o.modR (·.putPreds d o.act fun l => byteTests t (o.src .V a l) (o.src .V b l))
/-- `pand`. -/
def execPand (d a b : BitVec 3) (s : State) : Host.Outcome State Fault Refusal :=
  issueWord (.pand d a b) s fun o => o.modR (·.putPreds d o.act fun l => o.r.pred a l &&& o.r.pred b l)
/-- `por`. -/
def execPor (d a b : BitVec 3) (s : State) : Host.Outcome State Fault Refusal :=
  issueWord (.por d a b) s fun o => o.modR (·.putPreds d o.act fun l => o.r.pred a l ||| o.r.pred b l)
/-- `pxor`. -/
def execPxor (d a b : BitVec 3) (s : State) : Host.Outcome State Fault Refusal :=
  issueWord (.pxor d a b) s fun o => o.modR (·.putPreds d o.act fun l => o.r.pred a l ^^^ o.r.pred b l)
/-- `pnot`. -/
def execPnot (d a : BitVec 3) (s : State) : Host.Outcome State Fault Refusal :=
  issueWord (.pnot d a) s fun o => o.modR (·.putPreds d o.act fun l => ~~~(o.r.pred a l))
/-- `pfromcc`. -/
def execPfromcc (d : BitVec 3) (e : BitVec 4) (s : State) : Host.Outcome State Fault Refusal :=
  issueWord (.pfromcc d e) s fun o => o.modR (·.putPreds d o.act fun l => if flagTest o.r e l then 15 else 0)

end Sys2Proof.Machine
end

