-- ==== Sys2Proof/Machine/VecFloat.lean ====
section
/-! DEFINITION. Vector floating-point words and conversions (R48 to R56, R111 to R116). -/
namespace Sys2Proof.Machine
open Sys2Proof

/-- SUB of fpm: subnormals flushed (R51). -/
def Op.sub (o : Op) : Bool := bit o.r.fpm 4
/-- RS for a lane and an element number (R54). -/
def Op.rsMode (o : Op) (l e : Nat) : RMode :=
  .rs (rsHash (if bit o.r.fpm 5 then 0 else o.ct) (bits o.r.fpm 16 16) l e)
/-- The rounding mode of a RND field; RS only where the word takes it, else RN (R53). -/
def Op.mode (o : Op) (rnd : BitVec 3) (rsOk : Bool) (l e : Nat) : RMode :=
  let m := if rnd == 0 then bits o.r.fpm 0 3 else rnd.toNat
  if m == 2 then .rz else if m == 3 then .ru else if m == 4 then .rd
  else if m == 5 && rsOk then o.rsMode l e else .rn

/-- A float type of R38. -/
def fmtOf (y : BitVec 2) : FFmt := if y == 0 then f32 else if y == 1 then f16 else bf16
/-- A source's bits in a float type: 16-bit types are read from the low half (R46). -/
def Op.fsrc (o : Op) (y : BitVec 2) (x : BitVec 6) (l : Nat) : Nat :=
  if y == 0 then (o.src .V x l).toNat else (o.src .V x l).toNat % 65536

/-- Float results written with their FX (R50). -/
def Op.putF (o : Op) (d : BitVec 6) (sv : BitVec 1) (f : Nat → FRes) : State :=
  (o.fx fun l => (f l).fx).put .V d sv fun l => BitVec.ofNat 32 (f l).bits

/-- A float word of two sources and d (R111). -/
def floatWord (i : Instr) (s : State) (y : BitVec 2) (r : BitVec 3) (d : BitVec 6) (sv : BitVec 1) (a b : BitVec 6)
    (op : FFmt → RMode → Bool → Nat → Nat → Nat → FRes) : Host.Outcome State Fault Refusal :=
  issueWord i s fun o => o.putF d sv fun l =>
    op (fmtOf y) (o.mode r false l 0) o.sub (o.fsrc y a l) (o.fsrc y b l) (o.fsrc y d l)

/-- `vadd` of floats (R111). -/
def execVaddFloat (d : BitVec 6) (sv : BitVec 1) (a b : BitVec 6) (r : BitVec 3) (y : BitVec 2) (s : State) : Host.Outcome State Fault Refusal :=
  floatWord (.vaddFloat d sv a b r y) s y r d sv a b fun f m sub x y _ => fadd f m sub x y
/-- `vsub` of floats (R111). -/
def execVsubFloat (d : BitVec 6) (sv : BitVec 1) (a b : BitVec 6) (r : BitVec 3) (y : BitVec 2) (s : State) : Host.Outcome State Fault Refusal :=
  floatWord (.vsubFloat d sv a b r y) s y r d sv a b fun f m sub x y _ => fsub f m sub x y
/-- `vmul` of floats (R111). -/
def execVmulFloat (d : BitVec 6) (sv : BitVec 1) (a b : BitVec 6) (r : BitVec 3) (y : BitVec 2) (s : State) : Host.Outcome State Fault Refusal :=
  floatWord (.vmulFloat d sv a b r y) s y r d sv a b fun f m sub x y _ => fmul f m sub x y
/-- `vfma` of floats (R111). -/
def execVfma (d : BitVec 6) (sv : BitVec 1) (a b : BitVec 6) (r : BitVec 3) (y : BitVec 2) (s : State) : Host.Outcome State Fault Refusal :=
  floatWord (.vfma d sv a b r y) s y r d sv a b fun f m sub x y z => ffma f m sub false z x y
/-- `vfms` of floats (R111). -/
def execVfms (d : BitVec 6) (sv : BitVec 1) (a b : BitVec 6) (r : BitVec 3) (y : BitVec 2) (s : State) : Host.Outcome State Fault Refusal :=
  floatWord (.vfms d sv a b r y) s y r d sv a b fun f m sub x y z => ffma f m sub true z x y
/-- `vmin` of floats (R112). -/
def execVminFloat (d : BitVec 6) (sv : BitVec 1) (a b : BitVec 6) (y : BitVec 2) (s : State) : Host.Outcome State Fault Refusal :=
  issueWord (.vminFloat d sv a b y) s fun o => o.putF d sv fun l => fminmax (fmtOf y) o.sub false (o.fsrc y a l) (o.fsrc y b l)
/-- `vmax` of floats (R112). -/
def execVmaxFloat (d : BitVec 6) (sv : BitVec 1) (a b : BitVec 6) (y : BitVec 2) (s : State) : Host.Outcome State Fault Refusal :=
  issueWord (.vmaxFloat d sv a b y) s fun o => o.putF d sv fun l => fminmax (fmtOf y) o.sub true (o.fsrc y a l) (o.fsrc y b l)

/-- The flags of a float comparison (R113). -/
def fcmpCC (c : Option Ordering) : CC :=
  match c with
  | some .lt => { c := false, z := false, n := true, v := false }
  | some .eq => { c := true, z := true, n := false, v := false }
  | some .gt => { c := true, z := false, n := false, v := false }
  | none => { c := false, z := false, n := false, v := true }

/-- `vcmp` of floats (R113): only a signalling NaN sets FX. -/
def execVcmpFloat (a b : BitVec 6) (y : BitVec 2) (s : State) : Host.Outcome State Fault Refusal :=
  issueWord (.vcmpFloat a b y) s fun o =>
    let v : BitVec 6 → Nat → FVal := fun x l => fdecSub (fmtOf y) o.sub (o.fsrc y x l)
    (o.fx fun l => (v a l).isS || (v b l).isS).modR (·.putCC o.act fun l => fcmpCC (cmpVal (v a l) (v b l)))

/-- `vabs` and `vneg` (R114): exact; a NaN gives the canonical NaN. -/
def signFun (f : FFmt) (sub neg : Bool) (x : Nat) : FRes :=
  match fdecSub f sub x with
  | .nan s => ⟨f.nanBits, s⟩
  | v =>
    let n := v.isNeg
    ⟨(inBits f sub x) % f.signBit + (if neg && !n then f.signBit else 0), false⟩

/-- A `vfun` word (R114). -/
def funWord (i : Instr) (s : State) (d : BitVec 6) (sv : BitVec 1) (a : BitVec 6) (r : BitVec 3) (y : BitVec 2) (fn : Nat) : Host.Outcome State Fault Refusal :=
  issueWord i s fun o => o.putF d sv fun l =>
    if fn ≤ 1 then signFun (fmtOf y) o.sub (fn == 1) (o.fsrc y a l)
    else ffun (fmtOf y) (o.mode r false l 0) o.sub fn (o.fsrc y a l)

/-- `vabs`. -/
def execVabs (d : BitVec 6) (sv : BitVec 1) (a : BitVec 6) (r : BitVec 3) (y : BitVec 2) (s : State) : Host.Outcome State Fault Refusal :=
  funWord (.vabs d sv a r y) s d sv a r y 0
/-- `vneg`. -/
def execVneg (d : BitVec 6) (sv : BitVec 1) (a : BitVec 6) (r : BitVec 3) (y : BitVec 2) (s : State) : Host.Outcome State Fault Refusal :=
  funWord (.vneg d sv a r y) s d sv a r y 1
/-- `vsqrt`. -/
def execVsqrt (d : BitVec 6) (sv : BitVec 1) (a : BitVec 6) (r : BitVec 3) (y : BitVec 2) (s : State) : Host.Outcome State Fault Refusal :=
  funWord (.vsqrt d sv a r y) s d sv a r y 2
/-- `vrcp`. -/
def execVrcp (d : BitVec 6) (sv : BitVec 1) (a : BitVec 6) (r : BitVec 3) (y : BitVec 2) (s : State) : Host.Outcome State Fault Refusal :=
  funWord (.vrcp d sv a r y) s d sv a r y 3
/-- `vrsqrt`. -/
def execVrsqrt (d : BitVec 6) (sv : BitVec 1) (a : BitVec 6) (r : BitVec 3) (y : BitVec 2) (s : State) : Host.Outcome State Fault Refusal :=
  funWord (.vrsqrt d sv a r y) s d sv a r y 4
/-- `vexp2`. -/
def execVexp2 (d : BitVec 6) (sv : BitVec 1) (a : BitVec 6) (r : BitVec 3) (y : BitVec 2) (s : State) : Host.Outcome State Fault Refusal :=
  funWord (.vexp2 d sv a r y) s d sv a r y 5
/-- `vlog2`. -/
def execVlog2 (d : BitVec 6) (sv : BitVec 1) (a : BitVec 6) (r : BitVec 3) (y : BitVec 2) (s : State) : Host.Outcome State Fault Refusal :=
  funWord (.vlog2 d sv a r y) s d sv a r y 6
/-- `vsin`. -/
def execVsin (d : BitVec 6) (sv : BitVec 1) (a : BitVec 6) (r : BitVec 3) (y : BitVec 2) (s : State) : Host.Outcome State Fault Refusal :=
  funWord (.vsin d sv a r y) s d sv a r y 7
/-- `vcos`. -/
def execVcos (d : BitVec 6) (sv : BitVec 1) (a : BitVec 6) (r : BitVec 3) (y : BitVec 2) (s : State) : Host.Outcome State Fault Refusal :=
  funWord (.vcos d sv a r y) s d sv a r y 8
/-- `vtanh`. -/
def execVtanh (d : BitVec 6) (sv : BitVec 1) (a : BitVec 6) (r : BitVec 3) (y : BitVec 2) (s : State) : Host.Outcome State Fault Refusal :=
  funWord (.vtanh d sv a r y) s d sv a r y 9

/-- `vclass` (R115): the stored bits, fpm.SUB ignored. -/
def execVclass (d : BitVec 6) (sv : BitVec 1) (a : BitVec 6) (y : BitVec 2) (s : State) : Host.Outcome State Fault Refusal :=
  issueWord (.vclass d sv a y) s fun o => o.put .V d sv fun l => BitVec.ofNat 32 (fclass (fmtOf y) (o.fsrc y a l))

/-! ### Conversions (R116) -/

/-- The integer type of a conversion code: width and signedness. -/
def cvtInt (t : BitVec 4) : IntTy :=
  if t == 3 then ⟨1, 8, true⟩ else if t == 4 then ⟨1, 8, false⟩ else if t == 5 then ⟨1, 16, true⟩
  else if t == 6 then ⟨1, 16, false⟩ else if t == 7 then ⟨1, 32, true⟩ else if t == 8 then ⟨1, 32, false⟩
  else if t == 9 then ⟨1, 64, true⟩ else ⟨1, 64, false⟩

/-- An integer in its type: in range, wrapped or clamped, then extended to the lane value (R45, R116). -/
def intResult (t : IntTy) (sat : Bool) (e : Int) : DWord × Bool :=
  let lo : Int := if t.sgn then -(2 ^ (t.w - 1) : Nat) else 0
  let hi : Int := if t.sgn then (2 ^ (t.w - 1) : Nat) - 1 else (2 ^ t.w : Nat) - 1
  let out := e < lo || hi < e
  let w := if sat then satTo t e else wrapTo t.w e
  (BitVec.ofInt 64 (if t.sgn then signed t.w w else w), out)

/-- A dyadic rounded to an integer. -/
def roundInt (mode : RMode) (n : Bool) (m : Nat) (e : Int) : Int :=
  let k : Int := roundTo mode n m e 0
  if n then -k else k

/-- Float to integer (R116). -/
def floatToInt (f : FFmt) (sub sat : Bool) (mode : RMode) (t : IntTy) (x : Nat) : DWord × Bool :=
  match fdecSub f sub x with
  | .nan _ => (0, true)
  | .inf n =>
    if sat then ((intResult t true (if n then -(2 ^ 70 : Nat) else (2 ^ 70 : Nat))).1, true) else (0, true)
  | .fin n m e => intResult t sat (roundInt mode n m e)

/-- A rounded float with `.sat` (R60): infinities and overflow clamp to the largest finite value. -/
def satFloat (f : FFmt) (sat : Bool) (v : FVal) (r : FRes) : FRes :=
  let isInf := match v with
    | .inf _ => true
    | .nan _ => false
    | .fin _ _ _ => false
  if sat && (r.fx || isInf) && (r.bits % f.signBit == f.infBits || r.bits % f.signBit == f.infBits - 1) then
    ⟨r.bits / f.signBit * f.signBit + (f.infBits - 1), true⟩
  else r

/-- A value delivered to a float type (R53, R60). -/
def toFloat (f : FFmt) (sub sat : Bool) (mode : RMode) (v : FVal) : FRes :=
  flush f sub (satFloat f sat v (fput f mode v))

/-- One lane's conversion: the lane value and FX. Every value fits `.f32`, so `.sat` changes nothing there. -/
def convert (sat sub : Bool) (mode : RMode) (t u : BitVec 4) (x : DWord) : DWord × Bool :=
  if 3 ≤ t.toNat then
    if 3 ≤ u.toNat then intResult (cvtInt t) sat (elem (cvtInt u) x 0)
    else floatToInt (fmtOf (u.setWidth 2)) sub sat mode (cvtInt t) (x.toNat % (2 * (fmtOf (u.setWidth 2)).signBit))
  else
    let f := fmtOf (t.setWidth 2)
    let v : FVal :=
      if 3 ≤ u.toNat then let e := elem (cvtInt u) x 0; .fin (e < 0) e.natAbs 0
      else fdecSub (fmtOf (u.setWidth 2)) sub (x.toNat % (2 * (fmtOf (u.setWidth 2)).signBit))
    let r := toFloat f sub (sat && t != 0) mode v
    (BitVec.ofNat 64 r.bits, r.fx)

/-- A conversion word (R116): destination type `t`, source type `u`. -/
def cvtWord (i : Instr) (s : State) (sat : Bool) (d : BitVec 6) (sv : BitVec 1) (a : BitVec 6) (t u : BitVec 4) (r : BitVec 3) : Host.Outcome State Fault Refusal :=
  issueWord i s fun o =>
    let rsOk := u == 0 && (t == 1 || t == 2)
    let x : Nat → DWord := fun l => if cvt64 u then o.src64 a l else (o.src .V a l).setWidth 64
    let v : Nat → DWord × Bool := fun l => convert sat o.sub (o.mode r rsOk l 0) t u (x l)
    let o := o.fx fun l => (v l).2
    if cvt64 t then o.put64 .V d sv fun l => (v l).1 else o.put .V d sv fun l => (v l).1.setWidth 32

/-- `vcvt`. -/
def execVcvt (d : BitVec 6) (sv : BitVec 1) (a : BitVec 6) (t u : BitVec 4) (r : BitVec 3) (s : State) : Host.Outcome State Fault Refusal :=
  cvtWord (.vcvt d sv a t u r) s false d sv a t u r
/-- `vcvt.sat`. -/
def execVcvtSat (d : BitVec 6) (sv : BitVec 1) (a : BitVec 6) (t u : BitVec 4) (r : BitVec 3) (s : State) : Host.Outcome State Fault Refusal :=
  cvtWord (.vcvtSat d sv a t u r) s true d sv a t u r

/-! ### Block formats (R117 to R120) -/

/-- Element bits of a block format. -/
def elemBitsOf (u : BitVec 4) : Nat := if bf4 u then 4 else 8

/-- The code of one position put into a packed word (R119). -/
def putElem (w : Word) (k pos code : Nat) : Word :=
  let m : Word := BitVec.ofNat 32 ((2 ^ k - 1) * 2 ^ (k * pos))
  (w &&& ~~~m) ||| (BitVec.ofNat 32 (code * 2 ^ (k * pos)) &&& m)

/-- `vpackb` (R119). -/
def execVpackb (d : BitVec 6) (sv : BitVec 1) (a : BitVec 6) (u : BitVec 4) (r : BitVec 3) (t : BitVec 1) (n : BitVec 3) (s : State) : Host.Outcome State Fault Refusal :=
  issueWord (.vpackb d sv a u r t n) s fun o =>
    let e : Nat → FRes := fun l =>
      packElem u.toNat (t == 1) (o.mode r true l n.toNat) (fdecSub f32 o.sub (o.src .V a l).toNat) (o.src .V (d + 1) l).toNat
    (o.fx fun l => (e l).fx).put .V d sv fun l => putElem (o.src .V d l) (elemBitsOf u) n.toNat (e l).bits

/-- `vunpackb` (R120). -/
def execVunpackb (d : BitVec 6) (sv : BitVec 1) (a : BitVec 6) (u : BitVec 4) (r : BitVec 3) (n : BitVec 3) (s : State) : Host.Outcome State Fault Refusal :=
  issueWord (.vunpackb d sv a u r n) s fun o => o.putF d sv fun l =>
    let k := elemBitsOf u
    unpackElem u.toNat (o.mode r false l 0) o.sub (bits (o.src .V a l) (k * n.toNat) k) (o.src .V (a + 1) l).toNat

/-- `vscale` (R118). -/
def execVscale (d : BitVec 6) (sv : BitVec 1) (a b : BitVec 6) (u : BitVec 4) (s : State) : Host.Outcome State Fault Refusal :=
  issueWord (.vscale d sv a b u) s fun o =>
    let v : BitVec 6 → Nat → Nat := fun x l => scaleOf u.toNat (fdecSub f32 o.sub (o.src .V x l).toNat)
    o.put .V d sv fun l => BitVec.ofNat 32 (if u == 4 || u == 5 then v b l * 256 + v a l else v a l)

end Sys2Proof.Machine
end

