-- ==== Sys2Proof/Machine/Dispatch.lean ====
section
/-! DEFINITION. The meaning of every instruction: one arm per constructor. -/
namespace Sys2Proof.Machine
open Sys2Proof

/-- One instruction or event, by its own meaning. -/
def exec (i : Instr) (s : State) : Host.Outcome State Fault Refusal :=
  match i with
  | .nop => Sys2Proof.Machine.execNop s
  | .sadd d a b => Sys2Proof.Machine.execSadd d a b s
  | .ssub d a b => Sys2Proof.Machine.execSsub d a b s
  | .sand d a b => Sys2Proof.Machine.execSand d a b s
  | .sor d a b => Sys2Proof.Machine.execSor d a b s
  | .sxor d a b => Sys2Proof.Machine.execSxor d a b s
  | .sshl d a b => Sys2Proof.Machine.execSshl d a b s
  | .sshr d a b => Sys2Proof.Machine.execSshr d a b s
  | .ssra d a b => Sys2Proof.Machine.execSsra d a b s
  | .smul d a b => Sys2Proof.Machine.execSmul d a b s
  | .smulhI64 d a b => Sys2Proof.Machine.execSmulhI64 d a b s
  | .smulhU64 d a b => Sys2Proof.Machine.execSmulhU64 d a b s
  | .sminI64 d a b => Sys2Proof.Machine.execSminI64 d a b s
  | .sminU64 d a b => Sys2Proof.Machine.execSminU64 d a b s
  | .smaxI64 d a b => Sys2Proof.Machine.execSmaxI64 d a b s
  | .smaxU64 d a b => Sys2Proof.Machine.execSmaxU64 d a b s
  | .saddImm d a im => Sys2Proof.Machine.execSaddImm d a im s
  | .ssubImm d a im => Sys2Proof.Machine.execSsubImm d a im s
  | .sandImm d a im => Sys2Proof.Machine.execSandImm d a im s
  | .sorImm d a im => Sys2Proof.Machine.execSorImm d a im s
  | .sxorImm d a im => Sys2Proof.Machine.execSxorImm d a im s
  | .sshlImm d a im => Sys2Proof.Machine.execSshlImm d a im s
  | .sshrImm d a im => Sys2Proof.Machine.execSshrImm d a im s
  | .ssraImm d a im => Sys2Proof.Machine.execSsraImm d a im s
  | .smulImm d a im => Sys2Proof.Machine.execSmulImm d a im s
  | .smulhI64Imm d a im => Sys2Proof.Machine.execSmulhI64Imm d a im s
  | .smulhU64Imm d a im => Sys2Proof.Machine.execSmulhU64Imm d a im s
  | .sminI64Imm d a im => Sys2Proof.Machine.execSminI64Imm d a im s
  | .sminU64Imm d a im => Sys2Proof.Machine.execSminU64Imm d a im s
  | .smaxI64Imm d a im => Sys2Proof.Machine.execSmaxI64Imm d a im s
  | .smaxU64Imm d a im => Sys2Proof.Machine.execSmaxU64Imm d a im s
  | .scmpEq d a b => Sys2Proof.Machine.execScmpEq d a b s
  | .scmpNe d a b => Sys2Proof.Machine.execScmpNe d a b s
  | .scmpLtI64 d a b => Sys2Proof.Machine.execScmpLtI64 d a b s
  | .scmpGeI64 d a b => Sys2Proof.Machine.execScmpGeI64 d a b s
  | .scmpLtU64 d a b => Sys2Proof.Machine.execScmpLtU64 d a b s
  | .scmpGeU64 d a b => Sys2Proof.Machine.execScmpGeU64 d a b s
  | .scmpEqImm d a im => Sys2Proof.Machine.execScmpEqImm d a im s
  | .scmpNeImm d a im => Sys2Proof.Machine.execScmpNeImm d a im s
  | .scmpLtI64Imm d a im => Sys2Proof.Machine.execScmpLtI64Imm d a im s
  | .scmpGeI64Imm d a im => Sys2Proof.Machine.execScmpGeI64Imm d a im s
  | .scmpLtU64Imm d a im => Sys2Proof.Machine.execScmpLtU64Imm d a im s
  | .scmpGeU64Imm d a im => Sys2Proof.Machine.execScmpGeU64Imm d a im s
  | .smovi d im => Sys2Proof.Machine.execSmovi d im s
  | .br o => Sys2Proof.Machine.execBr o s
  | .brcEq0 a o => Sys2Proof.Machine.execBrcEq0 a o s
  | .brcNe0 a o => Sys2Proof.Machine.execBrcNe0 a o s
  | .brcLt0 a o => Sys2Proof.Machine.execBrcLt0 a o s
  | .brcGe0 a o => Sys2Proof.Machine.execBrcGe0 a o s
  | .brcZ o => Sys2Proof.Machine.execBrcZ o s
  | .brcNz o => Sys2Proof.Machine.execBrcNz o s
  | .brcC o => Sys2Proof.Machine.execBrcC o s
  | .brcNc o => Sys2Proof.Machine.execBrcNc o s
  | .call l o => Sys2Proof.Machine.execCall l o s
  | .ret => Sys2Proof.Machine.execRet s
  | .split a o => Sys2Proof.Machine.execSplit a o s
  | .merge => Sys2Proof.Machine.execMerge s
  | .waitc n l => Sys2Proof.Machine.execWaitc n l s
  | .bar n => Sys2Proof.Machine.execBar n s
  | .qbindPush q h => Sys2Proof.Machine.execQbindPush q h s
  | .qbindPop q h => Sys2Proof.Machine.execQbindPop q h s
  | .qbindUnbind q => Sys2Proof.Machine.execQbindUnbind q s
  | .sstat d r l => Sys2Proof.Machine.execSstat d r l s
  | .smaskRd sv => Sys2Proof.Machine.execSmaskRd sv s
  | .smaskWr sv => Sys2Proof.Machine.execSmaskWr sv s
  | .sflags d f => Sys2Proof.Machine.execSflags d f s
  | .slane d a l => Sys2Proof.Machine.execSlane d a l s
  | .vaddInt d sv a b g t y => Sys2Proof.Machine.execVaddInt d sv a b g t y s
  | .vsubInt d sv a b g t y => Sys2Proof.Machine.execVsubInt d sv a b g t y s
  | .vmulInt d sv a b t y => Sys2Proof.Machine.execVmulInt d sv a b t y s
  | .vmulh d sv a b y => Sys2Proof.Machine.execVmulh d sv a b y s
  | .vmad d sv a b t y => Sys2Proof.Machine.execVmad d sv a b t y s
  | .vminInt d sv a b y => Sys2Proof.Machine.execVminInt d sv a b y s
  | .vmaxInt d sv a b y => Sys2Proof.Machine.execVmaxInt d sv a b y s
  | .vabsd d sv a b y => Sys2Proof.Machine.execVabsd d sv a b y s
  | .vand d sv a b g y => Sys2Proof.Machine.execVand d sv a b g y s
  | .vor d sv a b g y => Sys2Proof.Machine.execVor d sv a b g y s
  | .vxor d sv a b g y => Sys2Proof.Machine.execVxor d sv a b g y s
  | .vandn d sv a b g y => Sys2Proof.Machine.execVandn d sv a b g y s
  | .vshl d sv a b y => Sys2Proof.Machine.execVshl d sv a b y s
  | .vshr d sv a b y => Sys2Proof.Machine.execVshr d sv a b y s
  | .vsra d sv a b y => Sys2Proof.Machine.execVsra d sv a b y s
  | .vcmpInt a b y => Sys2Proof.Machine.execVcmpInt a b y s
  | .vaddx d sv a b g y => Sys2Proof.Machine.execVaddx d sv a b g y s
  | .vsubx d sv a b g y => Sys2Proof.Machine.execVsubx d sv a b g y s
  | .vselFlag d sv a b e => Sys2Proof.Machine.execVselFlag d sv a b e s
  | .vselPred d sv a b p => Sys2Proof.Machine.execVselPred d sv a b p s
  | .vaddMasked d sv a b p y => Sys2Proof.Machine.execVaddMasked d sv a b p y s
  | .vsubMasked d sv a b p y => Sys2Proof.Machine.execVsubMasked d sv a b p y s
  | .vmovMasked d sv a p y => Sys2Proof.Machine.execVmovMasked d sv a p y s
  | .vaddImm d sv im g t y => Sys2Proof.Machine.execVaddImm d sv im g t y s
  | .vandImm d sv im g y => Sys2Proof.Machine.execVandImm d sv im g y s
  | .vorImm d sv im g y => Sys2Proof.Machine.execVorImm d sv im g y s
  | .vshlImm d sv im y => Sys2Proof.Machine.execVshlImm d sv im y s
  | .vshrImm d sv im y => Sys2Proof.Machine.execVshrImm d sv im y s
  | .vsraImm d sv im y => Sys2Proof.Machine.execVsraImm d sv im y s
  | .vmovi d sv im => Sys2Proof.Machine.execVmovi d sv im s
  | .vperm d sv a b => Sys2Proof.Machine.execVperm d sv a b s
  | .vbcast d sv a b => Sys2Proof.Machine.execVbcast d sv a b s
  | .vscanAddI32 d sv a => Sys2Proof.Machine.execVscanAddI32 d sv a s
  | .vredAddI32 d sv a => Sys2Proof.Machine.execVredAddI32 d sv a s
  | .vredMaxI32 d sv a => Sys2Proof.Machine.execVredMaxI32 d sv a s
  | .vredMinI32 d sv a => Sys2Proof.Machine.execVredMinI32 d sv a s
  | .vfroms d sv a => Sys2Proof.Machine.execVfroms d sv a s
  | .pcmpB d a b t => Sys2Proof.Machine.execPcmpB d a b t s
  | .pand d a b => Sys2Proof.Machine.execPand d a b s
  | .por d a b => Sys2Proof.Machine.execPor d a b s
  | .pxor d a b => Sys2Proof.Machine.execPxor d a b s
  | .pnot d a => Sys2Proof.Machine.execPnot d a s
  | .pfromcc d e => Sys2Proof.Machine.execPfromcc d e s
  | .vaddFloat d sv a b r y => Sys2Proof.Machine.execVaddFloat d sv a b r y s
  | .vsubFloat d sv a b r y => Sys2Proof.Machine.execVsubFloat d sv a b r y s
  | .vmulFloat d sv a b r y => Sys2Proof.Machine.execVmulFloat d sv a b r y s
  | .vfma d sv a b r y => Sys2Proof.Machine.execVfma d sv a b r y s
  | .vfms d sv a b r y => Sys2Proof.Machine.execVfms d sv a b r y s
  | .vminFloat d sv a b y => Sys2Proof.Machine.execVminFloat d sv a b y s
  | .vmaxFloat d sv a b y => Sys2Proof.Machine.execVmaxFloat d sv a b y s
  | .vcmpFloat a b y => Sys2Proof.Machine.execVcmpFloat a b y s
  | .vabs d sv a r y => Sys2Proof.Machine.execVabs d sv a r y s
  | .vneg d sv a r y => Sys2Proof.Machine.execVneg d sv a r y s
  | .vsqrt d sv a r y => Sys2Proof.Machine.execVsqrt d sv a r y s
  | .vrcp d sv a r y => Sys2Proof.Machine.execVrcp d sv a r y s
  | .vrsqrt d sv a r y => Sys2Proof.Machine.execVrsqrt d sv a r y s
  | .vexp2 d sv a r y => Sys2Proof.Machine.execVexp2 d sv a r y s
  | .vlog2 d sv a r y => Sys2Proof.Machine.execVlog2 d sv a r y s
  | .vsin d sv a r y => Sys2Proof.Machine.execVsin d sv a r y s
  | .vcos d sv a r y => Sys2Proof.Machine.execVcos d sv a r y s
  | .vtanh d sv a r y => Sys2Proof.Machine.execVtanh d sv a r y s
  | .vclass d sv a y => Sys2Proof.Machine.execVclass d sv a y s
  | .vcvt d sv a t u r => Sys2Proof.Machine.execVcvt d sv a t u r s
  | .vcvtSat d sv a t u r => Sys2Proof.Machine.execVcvtSat d sv a t u r s
  | .vpackb d sv a u r t n => Sys2Proof.Machine.execVpackb d sv a u r t n s
  | .vunpackb d sv a u r n => Sys2Proof.Machine.execVunpackb d sv a u r n s
  | .vscale d sv a b u => Sys2Proof.Machine.execVscale d sv a b u s
  | .mmul d a b m k n => Sys2Proof.Machine.execMmul d a b m k n s
  | .mtrans d a r l => Sys2Proof.Machine.execMtrans d a r l s
  | .mchol d a r l => Sys2Proof.Machine.execMchol d a r l s
  | .mlu d a r l => Sys2Proof.Machine.execMlu d a r l s
  | .mtrsl d a b r l => Sys2Proof.Machine.execMtrsl d a b r l s
  | .mtrsu d a b r l => Sys2Proof.Machine.execMtrsu d a b r l s
  | .msolveChol d a b r l => Sys2Proof.Machine.execMsolveChol d a b r l s
  | .msolveLu d a b r l => Sys2Proof.Machine.execMsolveLu d a b r l s
  | .cbnd d v a x => Sys2Proof.Machine.execCbnd d v a x s
  | .cbndX d v a x => Sys2Proof.Machine.execCbndX d v a x s
  | .coff d v a x => Sys2Proof.Machine.execCoff d v a x s
  | .cinc d v a x => Sys2Proof.Machine.execCinc d v a x s
  | .cperm d v a x => Sys2Proof.Machine.execCperm d v a x s
  | .cseal d v a b => Sys2Proof.Machine.execCseal d v a b s
  | .cunseal d v a b => Sys2Proof.Machine.execCunseal d v a b s
  | .cmov d v a w => Sys2Proof.Machine.execCmov d v a w s
  | .cuntag d v a x => Sys2Proof.Machine.execCuntag d v a x s
  | .cgetBase d v a => Sys2Proof.Machine.execCgetBase d v a s
  | .cgetTop d v a => Sys2Proof.Machine.execCgetTop d v a s
  | .cgetPos d v a => Sys2Proof.Machine.execCgetPos d v a s
  | .cgetRoom d v a => Sys2Proof.Machine.execCgetRoom d v a s
  | .cgetPerm d v a => Sys2Proof.Machine.execCgetPerm d v a s
  | .cgetType d v a => Sys2Proof.Machine.execCgetType d v a s
  | .cgetTag d v a => Sys2Proof.Machine.execCgetTag d v a s
  | .cgetAddr d v a => Sys2Proof.Machine.execCgetAddr d v a s
  | .cgetExp d v a => Sys2Proof.Machine.execCgetExp d v a s
  | .ldReg d sv v k x z m => Sys2Proof.Machine.execLdReg d sv v k x z m s
  | .ldImm d sv v k im z m => Sys2Proof.Machine.execLdImm d sv v k im z m s
  | .stReg d v k x z m => Sys2Proof.Machine.execStReg d v k x z m s
  | .stImm d v k im z m => Sys2Proof.Machine.execStImm d v k im z m s
  | .ldc d e v k x => Sys2Proof.Machine.execLdc d e v k x s
  | .stc d e v k x => Sys2Proof.Machine.execStc d e v k x s
  | .ldfe d sv v k x z => Sys2Proof.Machine.execLdfe d sv v k x z s
  | .ldfeClr d sv v k x z => Sys2Proof.Machine.execLdfeClr d sv v k x z s
  | .stfe d v k x z => Sys2Proof.Machine.execStfe d v k x z s
  | .smap a b k => Sys2Proof.Machine.execSmap a b k s
  | .sflush a b => Sys2Proof.Machine.execSflush a b s
  | .patset p k a b => Sys2Proof.Machine.execPatset p k a b s
  | .redmAdd a v k x y => Sys2Proof.Machine.execRedmAdd a v k x y s
  | .redmMax a v k x y => Sys2Proof.Machine.execRedmMax a v k x y s
  | .redmMin a v k x y => Sys2Proof.Machine.execRedmMin a v k x y s
  | .amadd32 d sv v k b e => Sys2Proof.Machine.execAmadd32 d sv v k b e s
  | .amand32 d sv v k b e => Sys2Proof.Machine.execAmand32 d sv v k b e s
  | .amor32 d sv v k b e => Sys2Proof.Machine.execAmor32 d sv v k b e s
  | .amxor32 d sv v k b e => Sys2Proof.Machine.execAmxor32 d sv v k b e s
  | .ammaxI32 d sv v k b e => Sys2Proof.Machine.execAmmaxI32 d sv v k b e s
  | .ammaxU32 d sv v k b e => Sys2Proof.Machine.execAmmaxU32 d sv v k b e s
  | .amminI32 d sv v k b e => Sys2Proof.Machine.execAmminI32 d sv v k b e s
  | .amminU32 d sv v k b e => Sys2Proof.Machine.execAmminU32 d sv v k b e s
  | .amadd64 d sv v k b e => Sys2Proof.Machine.execAmadd64 d sv v k b e s
  | .amand64 d sv v k b e => Sys2Proof.Machine.execAmand64 d sv v k b e s
  | .amor64 d sv v k b e => Sys2Proof.Machine.execAmor64 d sv v k b e s
  | .amxor64 d sv v k b e => Sys2Proof.Machine.execAmxor64 d sv v k b e s
  | .ammaxI64 d sv v k b e => Sys2Proof.Machine.execAmmaxI64 d sv v k b e s
  | .ammaxU64 d sv v k b e => Sys2Proof.Machine.execAmmaxU64 d sv v k b e s
  | .amminI64 d sv v k b e => Sys2Proof.Machine.execAmminI64 d sv v k b e s
  | .amminU64 d sv v k b e => Sys2Proof.Machine.execAmminU64 d sv v k b e s
  | .amswap32 d sv v k b e => Sys2Proof.Machine.execAmswap32 d sv v k b e s
  | .amcas32 d sv v k b e => Sys2Proof.Machine.execAmcas32 d sv v k b e s
  | .amswap64 d sv v k b e => Sys2Proof.Machine.execAmswap64 d sv v k b e s
  | .amcas64 d sv v k b e => Sys2Proof.Machine.execAmcas64 d sv v k b e s
  | .amaddF32 d sv v k b e => Sys2Proof.Machine.execAmaddF32 d sv v k b e s
  | .txbeg d => Sys2Proof.Machine.execTxbeg d s
  | .txend => Sys2Proof.Machine.execTxend s
  | .txabort n => Sys2Proof.Machine.execTxabort n s
  | .tacq d n => Sys2Proof.Machine.execTacq d n s
  | .trel a n => Sys2Proof.Machine.execTrel a n s
  | .tclaim a b => Sys2Proof.Machine.execTclaim a b s
  | .tmma a b d e q l z => Sys2Proof.Machine.execTmma a b d e q l z s
  | .tdrain d sv a => Sys2Proof.Machine.execTdrain d sv a s
  | .tzero a n => Sys2Proof.Machine.execTzero a n s
  | .ecopy k d e q l => Sys2Proof.Machine.execEcopy k d e q l s
  | .ered k d e q l => Sys2Proof.Machine.execEred k d e q l s
  | .ecoll k d e q l => Sys2Proof.Machine.execEcoll k d e q l s
  | .esealOpen k d e q l => Sys2Proof.Machine.execEsealOpen k d e q l s
  | .esealCommit k d e q l => Sys2Proof.Machine.execEsealCommit k d e q l s
  | .post k a => Sys2Proof.Machine.execPost k a s
  | .done => Sys2Proof.Machine.execDone s
  | .cancel k a => Sys2Proof.Machine.execCancel k a s
  | .ctread sv => Sys2Proof.Machine.execCtread sv s
  | .ctarm sv => Sys2Proof.Machine.execCtarm sv s
  | .ctwait sv => Sys2Proof.Machine.execCtwait sv s
  | .ctwaitPeer sv k => Sys2Proof.Machine.execCtwaitPeer sv k s
  | .trap n => Sys2Proof.Machine.execTrap n s
  | .rett => Sys2Proof.Machine.execRett s
  | .fence e t => Sys2Proof.Machine.execFence e t s
  | .setpl a => Sys2Proof.Machine.execSetpl a s
  | .modeRead sv r => Sys2Proof.Machine.execModeRead sv r s
  | .modeWrite sv r => Sys2Proof.Machine.execModeWrite sv r s
  | .clusterAssignment core quarter => Sys2Proof.Machine.execClusterAssignment core quarter s
  | .latchRunLeave blk gix split => Sys2Proof.Machine.execLatchRunLeave blk gix split s
  | .trapEntry blk gix => Sys2Proof.Machine.execTrapEntry blk gix s
  | .barrierComplete blk bar => Sys2Proof.Machine.execBarrierComplete blk bar s
  | .loadCompletion blk gix id => Sys2Proof.Machine.execLoadCompletion blk gix id s
  | .storePlaceTaken blk gix id => Sys2Proof.Machine.execStorePlaceTaken blk gix id s
  | .stashWriteback blk region line => Sys2Proof.Machine.execStashWriteback blk region line s
  | .txDurationExpiry blk gix lane => Sys2Proof.Machine.execTxDurationExpiry blk gix lane s
  | .leasePtsAdvance blk gix => Sys2Proof.Machine.execLeasePtsAdvance blk gix s
  | .redmDeliveryApply blk gix id => Sys2Proof.Machine.execRedmDeliveryApply blk gix id s
  | .tmmaStep blk => Sys2Proof.Machine.execTmmaStep blk s
  | .tzeroPerform blk => Sys2Proof.Machine.execTzeroPerform blk s
  | .tdrainPerform blk => Sys2Proof.Machine.execTdrainPerform blk s
  | .trelPerform blk => Sys2Proof.Machine.execTrelPerform blk s
  | .engineSubmission id => Sys2Proof.Machine.execEngineSubmission id s
  | .ecopyChunk id => Sys2Proof.Machine.execEcopyChunk id s
  | .eredReduce id => Sys2Proof.Machine.execEredReduce id s
  | .ecollRun id => Sys2Proof.Machine.execEcollRun id s
  | .sealOpenPerform id => Sys2Proof.Machine.execSealOpenPerform id s
  | .sealCommitPerform id => Sys2Proof.Machine.execSealCommitPerform id s
  | .qnotifyWrite world q tail => Sys2Proof.Machine.execQnotifyWrite world q tail s
  | .queueEntryAdmit q => Sys2Proof.Machine.execQueueEntryAdmit q s
  | .cardRunComplete card => Sys2Proof.Machine.execCardRunComplete card s
  | .curatorPass => Sys2Proof.Machine.execCuratorPass s
  | .classAgeing card => Sys2Proof.Machine.execClassAgeing card s
  | .makeRoomTimeout => Sys2Proof.Machine.execMakeRoomTimeout s
  | .carveOutChange core => Sys2Proof.Machine.execCarveOutChange core s
  | .blockCompletion blk => Sys2Proof.Machine.execBlockCompletion blk s
  | .unitCancel world unit => Sys2Proof.Machine.execUnitCancel world unit s
  | .variantSwitch blk => Sys2Proof.Machine.execVariantSwitch blk s
  | .switchWaitTimeout blk gix => Sys2Proof.Machine.execSwitchWaitTimeout blk gix s
  | .blockRetire blk => Sys2Proof.Machine.execBlockRetire blk s
  | .contextEnable world ctx owner => Sys2Proof.Machine.execContextEnable world ctx owner s
  | .contextDisable world ctx => Sys2Proof.Machine.execContextDisable world ctx s
  | .hostStopRequest world ctx => Sys2Proof.Machine.execHostStopRequest world ctx s
  | .debugStopRequest world ctx => Sys2Proof.Machine.execDebugStopRequest world ctx s
  | .stopRelease world ctx => Sys2Proof.Machine.execStopRelease world ctx s
  | .debugStep world ctx => Sys2Proof.Machine.execDebugStep world ctx s
  | .cxctWrite world ctx v => Sys2Proof.Machine.execCxctWrite world ctx v s
  | .hostNotification world ctx => Sys2Proof.Machine.execHostNotification world ctx s
  | .sliceExpiry ctx => Sys2Proof.Machine.execSliceExpiry ctx s
  | .freezeInstant ctx => Sys2Proof.Machine.execFreezeInstant ctx s
  | .handlerBudgetExpiry blk gix => Sys2Proof.Machine.execHandlerBudgetExpiry blk gix s
  | .saveComplete ctx => Sys2Proof.Machine.execSaveComplete ctx s
  | .resumeInstant ctx => Sys2Proof.Machine.execResumeInstant ctx s
  | .resumeLoadTimeout ctx => Sys2Proof.Machine.execResumeLoadTimeout ctx s
  | .arrivalDelivery ctx => Sys2Proof.Machine.execArrivalDelivery ctx s
  | .alarmFire blk gix => Sys2Proof.Machine.execAlarmFire blk gix s
  | .ctwaitDeadline blk gix split => Sys2Proof.Machine.execCtwaitDeadline blk gix split s
  | .windowOpen world win => Sys2Proof.Machine.execWindowOpen world win s
  | .windowOpenAnswer win accepted pause => Sys2Proof.Machine.execWindowOpenAnswer win accepted pause s
  | .windowClose win => Sys2Proof.Machine.execWindowClose win s
  | .doorbellMessage node world ctx data fromWorld fromNode fromCtx => Sys2Proof.Machine.execDoorbellMessage node world ctx data fromWorld fromNode fromCtx s
  | .messageRetry id accepted => Sys2Proof.Machine.execMessageRetry id accepted s
  | .fabricRequestCheck port node world tworld pa len need => Sys2Proof.Machine.execFabricRequestCheck port node world tworld pa len need s
  | .flitReceive port f good => Sys2Proof.Machine.execFlitReceive port f good s
  | .flitReplay port => Sys2Proof.Machine.execFlitReplay port s
  | .creditReportSend port => Sys2Proof.Machine.execCreditReportSend port s
  | .creditReportReceive port r => Sys2Proof.Machine.execCreditReportReceive port r s
  | .linkTraining port peerSlots peerRsv => Sys2Proof.Machine.execLinkTraining port peerSlots peerRsv s
  | .fnodeWrite world v => Sys2Proof.Machine.execFnodeWrite world v s
  | .frsvWrite world target v => Sys2Proof.Machine.execFrsvWrite world target v s
  | .biasFlip world toHost page => Sys2Proof.Machine.execBiasFlip world toHost page s
  | .biasFlipComplete => Sys2Proof.Machine.execBiasFlipComplete s
  | .backInvalidateAnswer line => Sys2Proof.Machine.execBackInvalidateAnswer line s
  | .hostAccess world pa wr len => Sys2Proof.Machine.execHostAccess world pa wr len s
  | .tlpReceive world ide intact => Sys2Proof.Machine.execTlpReceive world ide intact s
  | .ideKeyProg world keySet key => Sys2Proof.Machine.execIdeKeyProg world keySet key s
  | .ideKSetGo world keySet => Sys2Proof.Machine.execIdeKSetGo world keySet s
  | .lockInterfaceRequest world => Sys2Proof.Machine.execLockInterfaceRequest world s
  | .startInterfaceRequest world => Sys2Proof.Machine.execStartInterfaceRequest world s
  | .stopInterfaceRequest world => Sys2Proof.Machine.execStopInterfaceRequest world s
  | .spdmRequest world req => Sys2Proof.Machine.execSpdmRequest world req s
  | .getMeasurements index => Sys2Proof.Machine.execGetMeasurements index s
  | .bckey world chan => Sys2Proof.Machine.execBckey world chan s
  | .capabilityDerive writer world => Sys2Proof.Machine.execCapabilityDerive writer world s
  | .typeKeyDerive writer world => Sys2Proof.Machine.execTypeKeyDerive writer world s
  | .keyGenerateEcdsa writer world => Sys2Proof.Machine.execKeyGenerateEcdsa writer world s
  | .keyGenerateMldsa writer world => Sys2Proof.Machine.execKeyGenerateMldsa writer world s
  | .keyRevoke writer world => Sys2Proof.Machine.execKeyRevoke writer world s
  | .handleReissue writer world => Sys2Proof.Machine.execHandleReissue writer world s
  | .waysChange writer world ways => Sys2Proof.Machine.execWaysChange writer world ways s
  | .s2rootWrite writer world v => Sys2Proof.Machine.execS2rootWrite writer world v s
  | .pageWalk blk gix id => Sys2Proof.Machine.execPageWalk blk gix id s
  | .ringRecordRetry id => Sys2Proof.Machine.execRingRecordRetry id s
  | .fresumeWrite writer world token => Sys2Proof.Machine.execFresumeWrite writer world token s
  | .invalidationStart writer world v => Sys2Proof.Machine.execInvalidationStart writer world v s
  | .invalidationComplete world => Sys2Proof.Machine.execInvalidationComplete world s
  | .coreReset core => Sys2Proof.Machine.execCoreReset core s
  | .patrolScrub sector corrected failed => Sys2Proof.Machine.execPatrolScrub sector corrected failed s
  | .revocationSweepStart writer ctx narea => Sys2Proof.Machine.execRevocationSweepStart writer ctx narea s
  | .groupRegisterSweep blk gix => Sys2Proof.Machine.execGroupRegisterSweep blk gix s
  | .sweepSwitchWaitExpiry blk gix => Sys2Proof.Machine.execSweepSwitchWaitExpiry blk gix s
  | .sweepGranuleCheck ctx => Sys2Proof.Machine.execSweepGranuleCheck ctx s
  | .repair world die lcore selfTest => Sys2Proof.Machine.execRepair world die lcore selfTest s
  | .corectlWrite world core v => Sys2Proof.Machine.execCorectlWrite world core v s
  | .replanRequest world wing => Sys2Proof.Machine.execReplanRequest world wing s
  | .wingReplan wing bringUp slack => Sys2Proof.Machine.execWingReplan wing bringUp slack s
  | .timingErrorReplay err => Sys2Proof.Machine.execTimingErrorReplay err s
  | .clockChange wing => Sys2Proof.Machine.execClockChange wing s
  | .pkcapAdjust watts => Sys2Proof.Machine.execPkcapAdjust watts s
  | .energyAccounting wing active idle busy transfers => Sys2Proof.Machine.execEnergyAccounting wing active idle busy transfers s
  | .fillerIssue wing ctx energy => Sys2Proof.Machine.execFillerIssue wing ctx energy s
  | .powerOnBoot images => Sys2Proof.Machine.execPowerOnBoot images s
  | .unitReady unit ok => Sys2Proof.Machine.execUnitReady unit ok s
  | .registerWrite writer r v => Sys2Proof.Machine.execRegisterWrite writer r v s
  | .trapModeBudgetExpiry blk gix => Sys2Proof.Machine.execTrapModeBudgetExpiry blk gix s
  | .controlParityError core => Sys2Proof.Machine.execControlParityError core s

end Sys2Proof.Machine
end

