-- ==== Sys2Proof/Machine/Packet.lean ====
section
/-! DEFINITION. A packet issued by its split: fetch, the checks before any effect, its issue groups in order, and what
follows at the boundary (R21, R23, R24, R33 to R36, R92, R93, R225, R300). -/
namespace Sys2Proof.Machine
open Sys2Proof

/-- The outcome type of this machine. -/
abbrev Out := Host.Outcome State Fault Refusal

/-- The state between two words of a packet, its one-step marks cleared. -/
def clearMarks (s : State) : State := { s with raised := none, stalled := false, jumped := false }

/-- A split that arrives at a switch point with the request set (R225): it waits, or the switch is not taken there. -/
def arriveSwitch (s : State) (c : Cursor) (x : SwitchPt) : State :=
  let s := modGroup s c.blk c.gix fun g => g.modSplit c.no fun p => { p with wait := .switchPt x.n (g.cycQ / 4) }
  match blockOf s c.blk with
  | none => s
  | some b =>
    if !((b.groups[c.gix]?).map (·.switchable)).getD false then passSwitch s c.blk
    else if allAtSwitch b x.n && !switchTaken b x then passSwitch s c.blk
    else s

/-- A split made ready to execute one word: its index, and where the split goes on after it. -/
def enterWord (s : State) (c : Cursor) (pc : BitVec 32) (x : Slot) (rest : List Slot) : State :=
  let nxt := match rest with
    | [] => (pc + 1, 0)
    | y :: _ => (pc, y.idx)
  modGroup s c.blk c.gix fun g => g.modSplit c.no fun p => { p with word := x.idx, nxt := nxt, wait := .none }

/-- The snapshot that the second word of an issue group reads (R23). -/
def snapshot (s : State) (c : Cursor) : Option OldView :=
  match groupOf s c.blk c.gix with
  | none => none
  | some g => some { r := g.r, act := ((g.split c.no).map (·.act)).getD 0, qb := g.qb, pat := g.pat,
                     ctrs := (List.range 4).map fun n => ctrCount g (ctrOf (BitVec.ofNat 2 n)), upto := g.nextId }

/-- The snapshot set or dropped. -/
def setOld (s : State) (c : Cursor) (o : Option OldView) : State := modGroup s c.blk c.gix fun g => { g with old := o }

/-- How far an issue group got. -/
inductive Ran where
  | on (s : State)
  /-- A word sent the split elsewhere or made it wait at itself. -/
  | left (s : State)
  | raised (q : TrapReq)
  | stalled (s : State)
  | stop (o : Out)

/-- A word that only a run's last packet may hold has executed (R35): it is not issued again with the run (R36, R159). -/
def noteDone (s : State) (c : Cursor) (x : Slot) : State :=
  if lastOnly x.ins then modGroup s c.blk c.gix fun g => g.modSplit c.no fun p => { p with did := x.idx :: p.did } else s

/-- The words of one issue group, the next group following (R23). A word chained to one that aborts its lanes' transactions has no
effect (DESIGN CHOICE, log 137). -/
def runGroup (c : Cursor) (pc : BitVec 32) (old : Option OldView) : List Slot → List Slot → State → Ran
  | [], _, s => .on s
  | x :: r, after, s =>
    match exec x.ins (enterWord s c pc x (r ++ after)) with
    | .next t =>
      match t.raised with
      | some q => .raised q
      | none =>
        if t.stalled then .stalled t
        else if t.jumped then .left { setOld t c none with jumped := false }
        else runGroup c pc old r after (setOld (noteDone t c x) c (if r.isEmpty then none else old))
    | o => .stop o

/-- What a stalled issue group waits for: where a word of it waits for channels, all that its words pop and push. -/
def groupWait (ss : List Slot) : Wait → Wait
  | .chan _ _ => .chan (ss.flatMap fun x => popCodes x.ins) (ss.flatMap fun x => pushCodes x.ins)
  | w => w

/-- What a block's accesses have asked for of the host or of other nodes, beyond an earlier state, asked for in that state. -/
def reAsk (at0 t : State) (b : Block) : State :=
  let s := t.mem.asked.foldl (fun s x => ask s (.hold (64 * x.1) (.snoop x.2))) at0
  (t.fab.asks.filter fun q => at0.fab.nextAsk ≤ q.1).foldl (fun s q => ask s (.hold q.2.1 (.line b.world (coreTop s (whoOf s b))))) s

/-- A stalled issue group undone: its split stands at its first word with the wait; what the words still need to be translated
goes on being looked for, and what they wait for of the host or of other nodes has been asked (R92, R317, R330). -/
def undoStall (c : Cursor) (at0 t : State) (ss : List Slot) : State :=
  match groupOf at0 c.blk c.gix, groupOf t c.blk c.gix with
  | some g0, some g1 =>
    let b := (blockOf t c.blk).getD {}
    let new := (g1.out.filter fun p => g0.nextId ≤ p.id && !p.todo.isEmpty).map fun p => if p.probe then p else p.asProbe b
    let w := ((g1.split c.no).map (·.wait)).getD .none
    modGroup (reAsk at0 t b) c.blk c.gix fun g =>
      let g2 : Group := { g with out := g.out ++ new, nextId := max g.nextId g1.nextId, old := none }
      g2.modSplit c.no fun p => { p with word := ((ss.head?.map (·.idx)).getD 0), wait := groupWait ss w }
  | _, _ => at0

/-- An issue group takes its cycle, or what is left of it (R23, R213). -/
def issued (s : State) (c : Cursor) : State :=
  let q := ((blockOf s c.blk).map fun b => (wingSt s (wingOf b.core)).phase).getD 0
  modGroup s c.blk c.gix (·.hold (4 - q))

/-- An issue group issues (R33, R212 to R214): its split's counts begin again, and latches on its clusters are lost. -/
def startIssue (s : State) (c : Cursor) : State :=
  match groupWith s c.blk c.gix with
  | none => s
  | some (b, g) => modGroup (loseLatches s c.blk c.gix c.no b g) c.blk c.gix fun g =>
    { (g.modSplit c.no fun p => { p with rdy := 0, held := 0, iss := g.nextIss }) with last := c.no, nextIss := g.nextIss + 1 }

/-- One issue group of a packet, those of `r` after it (R23). -/
def issueGroup (c : Cursor) (pc : BitVec 32) (g : List Slot) (r : List (List Slot)) (s : State) : Ran :=
  match runGroup c pc (snapshot s c) g r.flatten (startIssue s c) with
  | .on t => .on (issued t c)
  | .left t => .left (issued t c)
  | o => o

/-- A trap that a later issue group of a packet raises before any effect of the packet, if they followed one another with nothing
in between (R93, R204). -/
def trapAhead (c : Cursor) (pc : BitVec 32) : List (List Slot) → State → Option TrapReq
  | [], _ => none
  | g :: r, s => match issueGroup c pc g r s with
    | .raised q => some q
    | .on t => trapAhead c pc r t
    | .left _ => none
    | .stalled _ => none
    | .stop _ => none

/-- The words still to execute: no trailing padding, from the split's word on. -/
def slotsLeft (p : Split) (ss : List Slot) : List Slot :=
  (ss.take (ss.length - paddingCount ss)).filter fun x => p.word ≤ x.idx

/-- What a packet's begin keeps of `Split.skip`: nothing from a run that is over (R36). -/
def skipAfter (p : Split) (ss : List Slot) : List (Nat × Nat) :=
  if p.word != 0 || p.run.isNone || readsLatch ss then p.skip else []

/-- The transactions that a split has opened in an earlier packet cover this one (R161). -/
def Group.openTx (g : Group) (no : Nat) : Group :=
  { g with tx := g.tx.map fun (l, x) => (l, if x.split == no then { x with live := true } else x) }

/-- A packet begun, or gone on with at a later word: its run, no wait (R33, R34), the transactions that cover it (R161). -/
def beginPacket (s : State) (c : Cursor) (p : Split) (ss : List Slot) : State :=
  modGroup s c.blk c.gix fun g =>
    let g1 : Group := g.modSplit c.no fun q =>
      { q with run := runAfter g p ss, wait := .none, fresh := false, did := if p.word == 0 then [] else q.did, skip := skipAfter p ss }
    if p.word == 0 then g1.openTx c.no else g1

/-- The end of a packet whose split goes on in order. -/
def nextPacket (s : State) (c : Cursor) (pc : BitVec 32) : State :=
  modGroup s c.blk c.gix fun g => g.modSplit c.no fun p => { p with pc := pc + 1, word := 0 }

/-- The boundary after a packet: a trap that waits for it is taken (R132). -/
def endPacket (s : State) (c : Cursor) : State :=
  let s := modGroup s c.blk c.gix fun g => g.modSplit c.no fun p =>
    { p with passed := if p.wait == .none then none else p.passed, held := 0 }
  match (groupOf s c.blk c.gix).bind (·.pendDue) with
  | some q => takeAtBoundary s c.blk c.gix q
  | none => s

/-- No split issues now. -/
def afterIssue (s : State) : State := { s with cur := none }

/-- The split has not issued: where it could try again at once, it does so in the next cycle. -/
def heldBack (s : State) (c : Cursor) : State :=
  match issuerOf s with
  | some (_, b, g, p) => if splitReady s b g p then issued s c else s
  | none => s

/-- A trap before any effect of its packet, of a packet whose words before this one have executed at an earlier wait: they
are not executed again (R92, R204). -/
def laterTrap (p : Split) (q : TrapReq) : TrapReq :=
  if q.resume == .offending && p.word != 0 then { q with resume := .at p.pc p.word } else q

/-- The split stands at the word with which its packet goes on. -/
def standAt (s : State) (c : Cursor) (idx : Nat) : State :=
  modGroup s c.blk c.gix fun g => g.modSplit c.no fun p => { p with word := idx }

/-- What follows an issue group that completes in order: the split stands at the next one, or at the next packet. -/
def goOn (t : State) (c : Cursor) (pc : BitVec 32) : List Slot → State
  | [] => endPacket (nextPacket t c pc) c
  | x :: _ => standAt t c x.idx

/-- The next issue group of a ready split's packet, fetched and checked (R23): the clusters are given out anew after it (R213). -/
def runSlots (s : State) (c : Cursor) (p : Split) (ss : List Slot) : Out :=
  let s0 := beginPacket s c p ss
  let trap := fun q => Host.Outcome.next (afterIssue (clearMarks (takeAtBoundary (issued s0 c) c.blk c.gix (laterTrap p q))))
  match groupsOf (slotsLeft p ss) with
  | [] => .next (afterIssue (goOn s0 c p.pc []))
  | g :: r => match issueGroup c p.pc g r s0 with
    | .on t => match trapAhead c p.pc r t with
      | some q => trap q
      | none => .next (afterIssue (goOn t c p.pc r.flatten))
    | .left t => .next (afterIssue (endPacket t c))
    | .raised q => trap q
    | .stalled t => .next (afterIssue (heldBack (clearMarks (undoStall c s t g)) c))
    | .stop o => o

/-- A wait whose condition holds has ended: the split goes on after its word (R81, R199, R243). -/
def wake (s : State) (c : Cursor) : State :=
  match (groupOf s c.blk c.gix).bind fun g => (g.split c.no).map fun p : Split => p.wait with
  | some (.waitc _ _) => modGroup s c.blk c.gix (·.modSplit c.no (·.pass))
  | some (.fence e t upto flushed) =>
    match fenceStep s c.blk c.gix c.no e t upto flushed with
    | (s1, true) => modGroup s1 c.blk c.gix (·.modSplit c.no (·.pass))
    | (s1, false) => s1
  | _ => s

/-- A packet that goes on with a run whose latches are lost: the run executes again from its first packet (R36). -/
def regains (p : Split) (ss : List Slot) : Bool :=
  p.word == 0 && readsLatch ss && (p.run.map fun u => u.lost && !u.full).getD false

/-- A split whose packet breaks a run (R33 to R35): a split that has formed is in none, and what is known now of the packet
decides where it resumes. -/
def Split.broken (p : Split) : Split := { p with run := if p.fresh then none else p.run.map fun u => { u with lost := false } }

/-- The packet that the chosen split issues, with every check before it (R25, R33 to R35, R43, R44, R225, R300). -/
def fetchAndRun (s : State) (c : Cursor) : Out :=
  match issuerOf s with
  | none => .next { s with cur := none }
  | some (_, b, g, p) =>
    let quit : State → Out := fun t => .next (afterIssue (heldBack t c))
    match fetchPacket s b g.tmode.isSome c.no p.pc with
      | .trap q => .next (afterIssue (takeAtBoundary (issued s c) c.blk c.gix (laterTrap p q)))
      | .stall vas => quit (addProbes (modGroup s c.blk c.gix fun g => g.modSplit c.no fun p => { p with wait := .confirm }) c.blk c.gix needX 0
          (vas.map fun va => { lane := 0, spad := false, va := BitVec.ofNat 64 va, n := 1, fmt := 15, op := .ld }))
      | .ok ss =>
        if regains p ss then quit (modGroup s c.blk c.gix (·.regainRun c.no))
        else match runBreak p ss with
        | some n => .next <| afterIssue (takeAtBoundary (modGroup (issued s c) c.blk c.gix fun g => g.modSplit c.no (·.broken)) c.blk c.gix
            { cause := 0x01, widx := n, split := c.no, pkt := p.pc })
        | none =>
          if unconfirmed g && p.word == 0 && ss.any fun x => waitsConfirm x.ins || namesQueue x.ins then
            quit (modGroup s c.blk c.gix fun g => g.modSplit c.no fun p => { p with wait := .confirm })
          else match (if b.swReq && p.word == 0 && p.passed != some p.pc then switchAt b p.pc else none) with
            | some x => quit (arriveSwitch s c x)
            | none => runSlots s c p ss

/-- The chosen split issues if it is ready (R212), once its group's window is whole (R206). -/
def runPacket (s : State) (c : Cursor) : Out :=
  match issuerOf s with
  | none => .next { s with cur := none }
  | some (_, b, g, p) =>
    if !splitReady s b g p then .next { s with cur := none }
    else
      let t := fillOn (wake s c) c.blk c.gix
      match groupOf t c.blk c.gix with
      | none => .next (afterIssue t)
      | some h => match h.pendDue with
        | some q => .next (afterIssue (takeAtBoundary t c.blk c.gix q))
        | none => if h.missing != 0 then .next (afterIssue (heldBack t c))
          else if ((h.split c.no).map (waitMayEnd b h t.gt)).getD false then fetchAndRun t c else .next (afterIssue t)

end Sys2Proof.Machine
end

