-- ==== Sys2Proof/Machine/Progress.lean ====
section
/-! DEFINITION. Which events of the machine come next of themselves (R8, R80, R213, R258), and one step of the whole machine. -/
namespace Sys2Proof.Machine
open Sys2Proof

/-- The meaning of an event of R8, its operands given: what `exec` does with it. -/
abbrev Act := State → Out

/-- The groups of every block, with their numbers. -/
def allGroups (s : State) : List (Nat × Nat × Block × Group) :=
  s.blocks.flatMap fun (k, b) => (b.groups.zip (List.range b.groups.length)).map fun gi => (k, gi.2, b, gi.1)

/-- Traps to enter, alarms and deadlines of a group (R196, R197, R202). -/
def timeEvents (s : State) : Nat × Nat × Block × Group → List Act
  | (k, i, b, g) =>
    (if (trapDue s b g).isSome then [execTrapEntry k i] else []) ++ (if alarmDue s b g then [execAlarmFire k i] else []) ++
    (g.splits.filter (deadlineDue s b g)).map fun p => execCtwaitDeadline k i p.no

/-- Completions of one outstanding word (R80, R239, R300). -/
def wordEvents (k i : Nat) (p : Pending) : List Act :=
  (if p.ctr == .ld && !p.probe then [execLoadCompletion k i p.id] else []) ++
  (if p.ctr == .st && !p.probe then [execStorePlaceTaken k i p.id] else []) ++
  (if p.redm then [execRedmDeliveryApply k i p.id] else []) ++
  (if p.todo.isEmpty then [] else [execPageWalk k i p.id])

/-- Outstanding words of a group, oldest first. -/
def outEvents : Nat × Nat × Block × Group → List Act
  | (k, i, _, g) => g.out.flatMap (wordEvents k i)

/-- What the clock of a group brings: sweeps, budgets, timeouts (R163, R214, R225, R236, R273, R276, R360). -/
def groupEvents : Nat × Nat × Block × Group → List Act
  | (k, i, _, g) =>
    (if g.sweepDue.isSome then [execGroupRegisterSweep k i, execSweepSwitchWaitExpiry k i] else []) ++
    (if g.tmode.isSome then [execTrapModeBudgetExpiry k i] else []) ++
    (if g.halt == .handler 0 then [execHandlerBudgetExpiry k i] else []) ++
    (g.splits.filter fun p => 1024 ≤ p.held && p.run.isSome).map (fun p => execLatchRunLeave k i p.no) ++
    [execSwitchWaitTimeout k i] ++ (g.tx.filter fun (_, x) => 262144 < x.age).map (fun (l, _) => execTxDurationExpiry k i l) ++
    (if 1024 ≤ g.ptsIdle then [execLeasePtsAdvance k i] else [])

/-- The tile word at the head of a block's queue (R177). -/
def tileEvent (k : Nat) (b : Block) : List Act :=
  match b.tiles with
  | [] => []
  | .tmma _ _ _ _ _ _ _ _ _ _ _ _ _ _ _ :: _ => [execTmmaStep k]
  | .tzero _ _ _ _ :: _ => [execTzeroPerform k]
  | .fresh _ _ :: _ => [execTzeroPerform k]
  | .tdrain _ _ _ _ _ :: _ => [execTdrainPerform k]
  | .trel _ _ :: _ => [execTrelPerform k]

/-- Barriers that a block's splits wait at. -/
def barEvents (k : Nat) (b : Block) : List Act :=
  let ns : List Nat := (b.groups.flatMap fun g => (g.splits ++ (g.tmode.map (·.splits)).getD []).filterMap fun p => match p.wait with
    | .bar n => some n.toNat
    | _ => none).eraseDups
  ns.map fun n => execBarrierComplete k n

/-- What a block may do of itself (R83, R177, R193, R227). -/
def blockEvents (kb : Nat × Block) : List Act :=
  barEvents kb.1 kb.2 ++ tileEvent kb.1 kb.2 ++ [execVariantSwitch kb.1, execBlockRetire kb.1, execBlockCompletion kb.1]

/-- The next event of an engine command (R185 to R190). -/
def cmdEvents (x : EngCmd) : List Act :=
  if !x.submitted then [execEngineSubmission x.id]
  else match x.kind with
    | .copy => [execEcopyChunk x.id]
    | .red => [execEredReduce x.id]
    | .coll => [execEcollRun x.id]
    | .sealOpen => [execSealOpenPerform x.id]
    | .sealCommit => [execSealCommitPerform x.id]
    | .tile => []

/-- What a context may do of itself (R272 to R284, R359). -/
def ctxEvents (cx : Nat × Ctx) : List Act :=
  let c := cx.1
  [execArrivalDelivery c, execSliceExpiry c, execFreezeInstant c, execSaveComplete c, execResumeInstant c, execResumeLoadTimeout c] ++
  (if cx.2.rv.busy then [execSweepGranuleCheck c] else [])

/-- What the Curator may do of itself (R252, R256, R258, R261). -/
def curatorEvents (s : State) : List Act :=
  (s.curator.queues.filter fun (_, q) => q.en && q.head != q.tail).map (fun (q, _) => execQueueEntryAdmit q) ++
  s.curator.runs.flatMap (fun (c, _) => [execCardRunComplete c, execClassAgeing c]) ++ [execMakeRoomTimeout] ++
  (if s.curator.runs.isEmpty && s.blocks.all (fun (_, b) => b.onCore) then [] else [execCuratorPass])

/-- The ticks of a refused record's back-off (R305): cycles of its core's clock, or of an engine's, eight to a tick. -/
def backOff (s : State) (r : RingRec) : Nat :=
  match r.wing with
  | some w => ceilDiv (4 * r.delay) (tickQ (wingSt s w).pl)
  | none => ceilDiv r.delay 8

/-- Windows, messages and refused records whose time has come (R305, R322, R323), invalidations, flips, clocks. -/
def outerEvents (s : State) : List Act :=
  (s.fab.wins.filter fun (_, w) => w.en && !w.opened && !w.refused && w.node == s.fab.node.toNat).map
    (fun (n, _) => execWindowOpenAnswer n true none) ++
  (s.fab.msgs.filter fun m => m.since + m.delay ≤ s.gt && !m.sent).map
    (fun m => execMessageRetry m.id false) ++
  (s.rings.filter fun r => r.since + backOff s r ≤ s.gt).map (fun r => execRingRecordRetry r.id) ++
  (s.worlds.filter fun (_, r) => r.invctl.getLsbD 62).map (fun (w, _) => execInvalidationComplete w) ++
  (if s.mem.bflip.busy then [execBiasFlipComplete] else []) ++
  ((List.range 32).filter fun w => (wingSt s w).pl != (wingSt s w).plNext).map (fun w => execClockChange w)

/-- Cores that hold blocks, and the quarters that may issue. -/
def issueEvents (s : State) : List Act :=
  let cores := (s.blocks.filterMap fun (_, b) => if b.onCore && b.task.isNone then some b.core else none).eraseDups
  (s.hol.cores.filter fun (_, x) => x.carve != 1 || x.carveTo.isSome).map (fun (c, _) => execCarveOutChange c) ++
  cores.flatMap fun c => (List.range 4).map fun q => execClusterAssignment c q

/-- The events that may come next of themselves, in the order in which they are tried. -/
def dueEvents (s : State) : List Act :=
  let gs := allGroups s
  gs.flatMap (timeEvents s) ++ gs.flatMap outEvents ++ s.blocks.flatMap blockEvents ++ s.eng.cmds.flatMap cmdEvents ++
  gs.flatMap groupEvents ++ s.ctxs.flatMap ctxEvents ++ curatorEvents s ++ outerEvents s ++ issueEvents s

/-- The state after the first of some events that changes it. -/
def firstEffect (s : State) : List Act → Option State
  | [] => none
  | f :: r => match f s with
    | .next t => if t = s then firstEffect s r else some t
    | _ => firstEffect s r

/-- Void records that could not be written are tried again. -/
def retryVoids (s : State) : State := if s.eng.seals.any fun x => x.void.isSome then flushVoids s else s

/-- Save areas whose lines the host had to answer for are taken over (R290). -/
def retryRestores (s : State) : State := (s.ctxs.filter fun (c, x) => !x.stop && toRestore s c).foldl (fun s x => restoreMoved s x.1) s

/-- Derivations that wait with no fault are tried again (R339), as are void records (R349) and save areas (R290); records of
corrected errors are written (R356). -/
def chores (s : State) : State :=
  retryKeys <| retryRestores <| retryVoids <| flushMerges ((s.worlds.filter fun (_, r) => (r.t.cdWait.map (·.2.2.2)) == some 0).foldl (fun s x => retryDerive s x.1) s)

/-- A context whose debug step has splits left to execute (R289). -/
def stepping (s : State) : Option (Nat × Nat × Nat × Nat) :=
  s.ctxs.findSome? fun (c, x) => match x.steps with
    | [] => none
    | q :: _ => if x.st == 5 then some (c, q.1, q.2.1, q.2.2) else none

/-- The issue groups that are left of a split's packet, one after another (R289). -/
def runWhole (c : Cursor) : Nat → State → Out
  | 0, s => .next s
  | n + 1, s => match runPacket { s with cur := some c } c with
    | .next t => if ((groupOf t c.blk c.gix).bind (·.split c.no)).any fun p => p.word != 0 && p.wait == .none then runWhole c n t else .next t
    | o => o

/-- The next split of a debug step executes its packet; its group is halted again after it (R289). -/
def debugPacket (s : State) (c k i n : Nat) : Out :=
  let s1 := modGroup (modCtx s c fun x => { x with steps := x.steps.drop 1 }) k i fun g => { g with halt := .stepping }
  match runWhole { blk := k, gix := i, no := n } 3 s1 with
  | .next t => .next (modGroup t k i fun g => { g with halt := .halted })
  | o => o

/-- Quarter cycles until the next clusters of a wing are free for a ready split, if that is in the present tick. -/
def nextFree (s : State) (wing : Nat) : Option Nat :=
  let ds := (allGroups s).filterMap fun (_, _, b, g) =>
    if b.onCore && wingOf b.core == wing && g.splits.any (splitReady s b g) then some (clusterBusy s b g) else none
  (ds.filter fun d => d != 0 && (wingSt s wing).sub + d < tickQ (wingSt s wing).pl).min?

/-- Time moves to the next cycle in which a split may issue, in the first wing that has one, or to the next tick. -/
def passTime (s : State) : State :=
  match ((s.blocks.map fun kb => wingOf kb.2.core).eraseDups).findSome? fun w => (nextFree s w).map fun d => (w, d) with
  | some (w, d) => spend s w d
  | none => chores (tickAll (deliverHalting s) 1)

/-- With no outside input and nobody issuing: a debug step, the next event that is due, or time that passes. -/
def idle (s : State) : Out :=
  match stepping s with
  | some (c, k, i, n) => debugPacket s c k i n
  | none => match firstEffect s (dueEvents s) with
    | some t => .next t
    | none => .next (passTime s)

/-- One step: an outside input, else the issuing split's packet, else what comes of itself. -/
def advance (s : State) : Out :=
  match s.inbox with
  | .op i :: r => exec i { s with inbox := r }
  | .ticks n :: r => .next (tickAll (deliverHalting { s with inbox := r }) n)
  | .notice w resume num t :: r => .next (takeNotice { s with inbox := r } w resume num t)
  | .join cmd rank j :: r => .next (takeJoin { s with inbox := r } cmd rank j)
  | .read world aper off :: r => .next (takeRead { s with inbox := r } world aper off)
  | .bflip world toHost page :: r => .next (writeBflip { s with inbox := r } world toHost page)
  | .soft e :: r => .next (takeSoft { s with inbox := r } e)
  | [] =>
    match s.cur with
    | some c => runPacket s c
    | none => idle s

end Sys2Proof.Machine
end

