-- ==== Sys2Proof/Laws/PerInstr.lean ====
section
/-! SUPPORT. The family Encoding: what the encoder writes of an instruction, the decoder reads back, constructor by
constructor. -/
namespace Sys2Proof.Laws
open Sys2Proof Sys2Proof.Machine

/-- A field of a word given by its number. -/
theorem fld_of {w : Word} {N lo k : Nat} (hw : w = BitVec.ofNat 32 N) (x : BitVec k) (h : N % 2 ^ 32 / 2 ^ lo % 2 ^ k = x.toNat) :
    fld w lo k = x := by
  subst hw
  apply BitVec.eq_of_toNat_eq
  simpa [fld] using h

/-- A field of a word that is not a value. -/
theorem fld_ne {w : Word} {N lo k v : Nat} (hw : w = BitVec.ofNat 32 N) (h : N % 2 ^ 32 / 2 ^ lo % 2 ^ k ≠ v % 2 ^ k) :
    (fld w lo k == BitVec.ofNat k v) = false := by
  subst hw
  rw [beq_eq_false_iff_ne]
  intro e
  apply h
  simpa [fld] using congrArg BitVec.toNat e

theorem row_ok {ok : Bool} {i : Instr} {n : Except DecodeError Instr} (h : ok = true) : row ok i n = .ok i := by simp [row, h]
theorem row_no {ok : Bool} {i : Instr} {n : Except DecodeError Instr} (h : ok = false) : row ok i n = n := by simp [row, h]

/-- The bytes of a word read back as the word. -/
theorem wordsOf_bytesOf (w : Word) (r : List Byte) : wordsOf (bytesOf w ++ r) = w :: wordsOf r := by
  have e : ∀ lo, fld w lo 8 = w.extractLsb' lo 8 := fun lo => by
    apply BitVec.eq_of_toNat_eq; simp [fld, Nat.shiftRight_eq_div_pow]
  have h : fld w 24 8 ++ fld w 16 8 ++ fld w 8 8 ++ fld w 0 8 = w := by
    rw [e, e, e, e]
    apply BitVec.eq_of_getLsbD_eq
    intro i hi
    simp only [BitVec.getLsbD_append, BitVec.getLsbD_extractLsb']
    by_cases h1 : i < 8
    · simp [h1]
    · by_cases h2 : i < 16
      · simp [h1, show i - 8 < 8 by omega, show 8 + (i - 8) = i by omega]
      · by_cases h3 : i < 24
        · simp [h1, show ¬ i - 8 < 8 by omega, show i - 8 - 8 < 8 by omega, show 16 + (i - 8 - 8) = i by omega]
        · simp [h1, show ¬ i - 8 < 8 by omega, show ¬ i - 8 - 8 < 8 by omega, show i - 8 - 8 - 8 < 8 by omega, show 24 + (i - 8 - 8 - 8) = i by omega]
  simp only [bytesOf, List.cons_append, List.nil_append, wordsOf]
  rw [h]

/-- Words laid out as bytes are read back. -/
theorem wordsOf_flatMap (ws : List Word) : wordsOf (ws.flatMap bytesOf) = ws := by
  induction ws with
  | nil => rfl
  | cons w r ih => rw [List.flatMap_cons, wordsOf_bytesOf, ih]

/-- An extension word gives its payload. -/
theorem extPayload_extWord (p : BitVec 24) : extPayload? (extWord p) = some p := by
  have := p.isLt
  have h1 : fld (extWord p) 24 8 = 0x7E#8 := fld_of rfl _ (by simp; omega)
  have h2 : fld (extWord p) 0 24 = p := fld_of rfl _ (by omega)
  simp [extPayload?, h1, h2]

/-- The extension words of an extensible host are taken with it. -/
theorem takeExt_extWords {m : Nat} (x : Ext) (h : x = .none ∨ extMajor m = true) : takeExt m (extWords x) = (x, []) := by
  cases x with
  | none => unfold takeExt extWords; split <;> rfl
  | one p =>
    have hm : extMajor m = true := by simpa using h
    simp [takeExt, extWords, hm, extPayload_extWord]
  | two p q =>
    have hm : extMajor m = true := by simpa using h
    simp [takeExt, extWords, hm, extPayload_extWord]

/-- The chain bit above the other bits of a host word. -/
theorem fld_top (c : BitVec 1) {N : Nat} (h : N < 2 ^ 31) : fld (BitVec.ofNat 32 (c.toNat * 2 ^ 31 + N)) 31 1 = c :=
  fld_of rfl c (by have := c.isLt; omega)

/-- One host and what is taken with it. -/
theorem decodeWords_cons {w : Word} {r rest : List Word} {x : Ext} {i : Instr} (ht : takeExt (fld w 24 7).toNat r = (x, rest))
    (hh : decodeHost w x = .ok i) : decodeWords (w :: r) = .ok (fld w 31 1, i, rest) := by
  simp only [decodeWords, ht, hh]

/-- A host whose rows give an instruction decodes to it when its operands are well formed. -/
theorem decodeHost_of {w : Word} {x : Ext} {i : Instr} {m : Nat} (hm : (fld w 24 7).toNat = m)
    (hx : x = .none ∨ extMajor m = true) (hr : decodeRaw w x = .ok i) (hw : i.wf = true) : decodeHost w x = .ok i := by
  unfold decodeHost
  rw [hr]
  rcases hx with hx | hx
  · simp [hx, hw]
  · simp [hm, hx, hw]

/-- The bytes of words, a host and its extensions first, decode as they do. -/
theorem decode_words {ws : List Word} {w : Word} {x : Ext} {i : Instr} {m : Nat} (he : ws = w :: extWords x)
    (hm : (fld w 24 7).toNat = m) (hx : x = .none ∨ extMajor m = true) (hh : decodeHost w x = .ok i) :
    decode (ws.flatMap bytesOf) = .ok (fld w 31 1, i, []) := by
  rw [decode, wordsOf_flatMap, he, decodeWords_cons (by rw [hm]; exact takeExt_extWords x hx) hh]

/-- A host word that reads as its instruction, with its extensions, decodes to it. -/
theorem decode_of {i : Instr} {c : BitVec 1} {m : Nat} (hm : (fld (encodeHost c i) 24 7).toNat = m)
    (hx : extOf i = .none ∨ extMajor m = true) (hr : decodeRaw (encodeHost c i) (extOf i) = .ok i) (hw : i.wf = true)
    (hc : fld (encodeHost c i) 31 1 = c) : decode ((encode c i).flatMap bytesOf) = .ok (c, i, []) := by
  have h := decode_words (ws := encode c i) rfl hm hx (decodeHost_of hm hx hr hw)
  rw [hc] at h
  exact h

theorem raw01 {w : Word} {x : Ext} (h : (fld w 24 7).toNat = 0x01) : decodeRaw w x = dec01 w := by simp only [decodeRaw, h, Nat.reduceBEq, cond_false, cond_true]
theorem raw02 {w : Word} {x : Ext} (h : (fld w 24 7).toNat = 0x02) : decodeRaw w x = dec02 w := by simp only [decodeRaw, h, Nat.reduceBEq, cond_false, cond_true]
theorem raw03 {w : Word} {x : Ext} (h : (fld w 24 7).toNat = 0x03) : decodeRaw w x = dec03 w x := by simp only [decodeRaw, h, Nat.reduceBEq, cond_false, cond_true]
theorem raw04 {w : Word} {x : Ext} (h : (fld w 24 7).toNat = 0x04) : decodeRaw w x = dec04 w := by simp only [decodeRaw, h, Nat.reduceBEq, cond_false, cond_true]
theorem raw05 {w : Word} {x : Ext} (h : (fld w 24 7).toNat = 0x05) : decodeRaw w x = dec05 w x := by simp only [decodeRaw, h, Nat.reduceBEq, cond_false, cond_true]
theorem raw06 {w : Word} {x : Ext} (h : (fld w 24 7).toNat = 0x06) : decodeRaw w x = dec06 w x := by simp only [decodeRaw, h, Nat.reduceBEq, cond_false, cond_true]
theorem raw07 {w : Word} {x : Ext} (h : (fld w 24 7).toNat = 0x07) : decodeRaw w x = dec07 w := by simp only [decodeRaw, h, Nat.reduceBEq, cond_false, cond_true]
theorem raw08 {w : Word} {x : Ext} (h : (fld w 24 7).toNat = 0x08) : decodeRaw w x = dec08 w := by simp only [decodeRaw, h, Nat.reduceBEq, cond_false, cond_true]
theorem raw09 {w : Word} {x : Ext} (h : (fld w 24 7).toNat = 0x09) : decodeRaw w x = dec09 w := by simp only [decodeRaw, h, Nat.reduceBEq, cond_false, cond_true]
theorem raw0A {w : Word} {x : Ext} (h : (fld w 24 7).toNat = 0x0A) : decodeRaw w x = dec0A w := by simp only [decodeRaw, h, Nat.reduceBEq, cond_false, cond_true]
theorem raw0B {w : Word} {x : Ext} (h : (fld w 24 7).toNat = 0x0B) : decodeRaw w x = dec0B w := by simp only [decodeRaw, h, Nat.reduceBEq, cond_false, cond_true]
theorem raw0C {w : Word} {x : Ext} (h : (fld w 24 7).toNat = 0x0C) : decodeRaw w x = dec0C w := by simp only [decodeRaw, h, Nat.reduceBEq, cond_false, cond_true]
theorem raw0D {w : Word} {x : Ext} (h : (fld w 24 7).toNat = 0x0D) : decodeRaw w x = dec0D w := by simp only [decodeRaw, h, Nat.reduceBEq, cond_false, cond_true]
theorem raw0E {w : Word} {x : Ext} (h : (fld w 24 7).toNat = 0x0E) : decodeRaw w x = dec0E w := by simp only [decodeRaw, h, Nat.reduceBEq, cond_false, cond_true]
theorem raw0F {w : Word} {x : Ext} (h : (fld w 24 7).toNat = 0x0F) : decodeRaw w x = dec0F w := by simp only [decodeRaw, h, Nat.reduceBEq, cond_false, cond_true]
theorem raw10 {w : Word} {x : Ext} (h : (fld w 24 7).toNat = 0x10) : decodeRaw w x = dec10 w := by simp only [decodeRaw, h, Nat.reduceBEq, cond_false, cond_true]
theorem raw11 {w : Word} {x : Ext} (h : (fld w 24 7).toNat = 0x11) : decodeRaw w x = dec11 w := by simp only [decodeRaw, h, Nat.reduceBEq, cond_false, cond_true]
theorem raw12 {w : Word} {x : Ext} (h : (fld w 24 7).toNat = 0x12) : decodeRaw w x = dec12 w := by simp only [decodeRaw, h, Nat.reduceBEq, cond_false, cond_true]
theorem raw13 {w : Word} {x : Ext} (h : (fld w 24 7).toNat = 0x13) : decodeRaw w x = dec13 w := by simp only [decodeRaw, h, Nat.reduceBEq, cond_false, cond_true]
theorem raw18 {w : Word} {x : Ext} (h : (fld w 24 7).toNat = 0x18) : decodeRaw w x = dec18 w := by simp only [decodeRaw, h, Nat.reduceBEq, cond_false, cond_true]
theorem raw19 {w : Word} {x : Ext} (h : (fld w 24 7).toNat = 0x19) : decodeRaw w x = dec19 w := by simp only [decodeRaw, h, Nat.reduceBEq, cond_false, cond_true]
theorem raw1A {w : Word} {x : Ext} (h : (fld w 24 7).toNat = 0x1A) : decodeRaw w x = dec1A w := by simp only [decodeRaw, h, Nat.reduceBEq, cond_false, cond_true]
theorem raw1B {w : Word} {x : Ext} (h : (fld w 24 7).toNat = 0x1B) : decodeRaw w x = dec1B w := by simp only [decodeRaw, h, Nat.reduceBEq, cond_false, cond_true]
theorem raw1C {w : Word} {x : Ext} (h : (fld w 24 7).toNat = 0x1C) : decodeRaw w x = dec1C w := by simp only [decodeRaw, h, Nat.reduceBEq, cond_false, cond_true]
theorem raw1D {w : Word} {x : Ext} (h : (fld w 24 7).toNat = 0x1D) : decodeRaw w x = dec1D w := by simp only [decodeRaw, h, Nat.reduceBEq, cond_false, cond_true]
theorem raw1E {w : Word} {x : Ext} (h : (fld w 24 7).toNat = 0x1E) : decodeRaw w x = dec1E w := by simp only [decodeRaw, h, Nat.reduceBEq, cond_false, cond_true]
theorem raw1F {w : Word} {x : Ext} (h : (fld w 24 7).toNat = 0x1F) : decodeRaw w x = dec1F w := by simp only [decodeRaw, h, Nat.reduceBEq, cond_false, cond_true]
theorem raw20 {w : Word} {x : Ext} (h : (fld w 24 7).toNat = 0x20) : decodeRaw w x = dec20 w := by simp only [decodeRaw, h, Nat.reduceBEq, cond_false, cond_true]
theorem raw21 {w : Word} {x : Ext} (h : (fld w 24 7).toNat = 0x21) : decodeRaw w x = dec21 w := by simp only [decodeRaw, h, Nat.reduceBEq, cond_false, cond_true]
theorem raw22 {w : Word} {x : Ext} (h : (fld w 24 7).toNat = 0x22) : decodeRaw w x = dec22 w := by simp only [decodeRaw, h, Nat.reduceBEq, cond_false, cond_true]
theorem raw23 {w : Word} {x : Ext} (h : (fld w 24 7).toNat = 0x23) : decodeRaw w x = dec23 w := by simp only [decodeRaw, h, Nat.reduceBEq, cond_false, cond_true]
theorem raw24 {w : Word} {x : Ext} (h : (fld w 24 7).toNat = 0x24) : decodeRaw w x = dec24 w := by simp only [decodeRaw, h, Nat.reduceBEq, cond_false, cond_true]
theorem raw25 {w : Word} {x : Ext} (h : (fld w 24 7).toNat = 0x25) : decodeRaw w x = dec25 w := by simp only [decodeRaw, h, Nat.reduceBEq, cond_false, cond_true]
theorem raw26 {w : Word} {x : Ext} (h : (fld w 24 7).toNat = 0x26) : decodeRaw w x = dec26 w := by simp only [decodeRaw, h, Nat.reduceBEq, cond_false, cond_true]
theorem raw27 {w : Word} {x : Ext} (h : (fld w 24 7).toNat = 0x27) : decodeRaw w x = dec27 w := by simp only [decodeRaw, h, Nat.reduceBEq, cond_false, cond_true]
theorem raw28 {w : Word} {x : Ext} (h : (fld w 24 7).toNat = 0x28) : decodeRaw w x = dec28 w := by simp only [decodeRaw, h, Nat.reduceBEq, cond_false, cond_true]
theorem raw29 {w : Word} {x : Ext} (h : (fld w 24 7).toNat = 0x29) : decodeRaw w x = dec29 w := by simp only [decodeRaw, h, Nat.reduceBEq, cond_false, cond_true]
theorem raw2A {w : Word} {x : Ext} (h : (fld w 24 7).toNat = 0x2A) : decodeRaw w x = dec2A w := by simp only [decodeRaw, h, Nat.reduceBEq, cond_false, cond_true]
theorem raw2B {w : Word} {x : Ext} (h : (fld w 24 7).toNat = 0x2B) : decodeRaw w x = dec2B w := by simp only [decodeRaw, h, Nat.reduceBEq, cond_false, cond_true]
theorem raw2C {w : Word} {x : Ext} (h : (fld w 24 7).toNat = 0x2C) : decodeRaw w x = dec2C w := by simp only [decodeRaw, h, Nat.reduceBEq, cond_false, cond_true]
theorem raw2D {w : Word} {x : Ext} (h : (fld w 24 7).toNat = 0x2D) : decodeRaw w x = dec2D w := by simp only [decodeRaw, h, Nat.reduceBEq, cond_false, cond_true]
theorem raw2E {w : Word} {x : Ext} (h : (fld w 24 7).toNat = 0x2E) : decodeRaw w x = dec2E w x := by simp only [decodeRaw, h, Nat.reduceBEq, cond_false, cond_true]
theorem raw2F {w : Word} {x : Ext} (h : (fld w 24 7).toNat = 0x2F) : decodeRaw w x = dec2F w x := by simp only [decodeRaw, h, Nat.reduceBEq, cond_false, cond_true]
theorem raw30 {w : Word} {x : Ext} (h : (fld w 24 7).toNat = 0x30) : decodeRaw w x = dec30 w x := by simp only [decodeRaw, h, Nat.reduceBEq, cond_false, cond_true]
theorem raw31 {w : Word} {x : Ext} (h : (fld w 24 7).toNat = 0x31) : decodeRaw w x = dec31 w := by simp only [decodeRaw, h, Nat.reduceBEq, cond_false, cond_true]
theorem raw32 {w : Word} {x : Ext} (h : (fld w 24 7).toNat = 0x32) : decodeRaw w x = dec32 w := by simp only [decodeRaw, h, Nat.reduceBEq, cond_false, cond_true]
theorem raw33 {w : Word} {x : Ext} (h : (fld w 24 7).toNat = 0x33) : decodeRaw w x = dec33 w := by simp only [decodeRaw, h, Nat.reduceBEq, cond_false, cond_true]
theorem raw34 {w : Word} {x : Ext} (h : (fld w 24 7).toNat = 0x34) : decodeRaw w x = dec34 w x := by simp only [decodeRaw, h, Nat.reduceBEq, cond_false, cond_true]
theorem raw35 {w : Word} {x : Ext} (h : (fld w 24 7).toNat = 0x35) : decodeRaw w x = dec35 w := by simp only [decodeRaw, h, Nat.reduceBEq, cond_false, cond_true]
theorem raw36 {w : Word} {x : Ext} (h : (fld w 24 7).toNat = 0x36) : decodeRaw w x = dec36 w := by simp only [decodeRaw, h, Nat.reduceBEq, cond_false, cond_true]
theorem raw37 {w : Word} {x : Ext} (h : (fld w 24 7).toNat = 0x37) : decodeRaw w x = dec37 w := by simp only [decodeRaw, h, Nat.reduceBEq, cond_false, cond_true]
theorem raw38 {w : Word} {x : Ext} (h : (fld w 24 7).toNat = 0x38) : decodeRaw w x = dec38 w := by simp only [decodeRaw, h, Nat.reduceBEq, cond_false, cond_true]
theorem raw39 {w : Word} {x : Ext} (h : (fld w 24 7).toNat = 0x39) : decodeRaw w x = dec39 w := by simp only [decodeRaw, h, Nat.reduceBEq, cond_false, cond_true]
theorem raw3A {w : Word} {x : Ext} (h : (fld w 24 7).toNat = 0x3A) : decodeRaw w x = dec3A w := by simp only [decodeRaw, h, Nat.reduceBEq, cond_false, cond_true]
theorem raw3B {w : Word} {x : Ext} (h : (fld w 24 7).toNat = 0x3B) : decodeRaw w x = dec3B w := by simp only [decodeRaw, h, Nat.reduceBEq, cond_false, cond_true]
theorem raw3C {w : Word} {x : Ext} (h : (fld w 24 7).toNat = 0x3C) : decodeRaw w x = dec3C w := by simp only [decodeRaw, h, Nat.reduceBEq, cond_false, cond_true]
theorem raw3D {w : Word} {x : Ext} (h : (fld w 24 7).toNat = 0x3D) : decodeRaw w x = dec3D w := by simp only [decodeRaw, h, Nat.reduceBEq, cond_false, cond_true]
theorem raw3E {w : Word} {x : Ext} (h : (fld w 24 7).toNat = 0x3E) : decodeRaw w x = dec3E w := by simp only [decodeRaw, h, Nat.reduceBEq, cond_false, cond_true]
theorem raw3F {w : Word} {x : Ext} (h : (fld w 24 7).toNat = 0x3F) : decodeRaw w x = dec3F w := by simp only [decodeRaw, h, Nat.reduceBEq, cond_false, cond_true]
theorem raw40 {w : Word} {x : Ext} (h : (fld w 24 7).toNat = 0x40) : decodeRaw w x = dec40 w := by simp only [decodeRaw, h, Nat.reduceBEq, cond_false, cond_true]
theorem raw41 {w : Word} {x : Ext} (h : (fld w 24 7).toNat = 0x41) : decodeRaw w x = dec41 w := by simp only [decodeRaw, h, Nat.reduceBEq, cond_false, cond_true]
theorem raw42 {w : Word} {x : Ext} (h : (fld w 24 7).toNat = 0x42) : decodeRaw w x = dec42 w := by simp only [decodeRaw, h, Nat.reduceBEq, cond_false, cond_true]
theorem raw43 {w : Word} {x : Ext} (h : (fld w 24 7).toNat = 0x43) : decodeRaw w x = dec43 w := by simp only [decodeRaw, h, Nat.reduceBEq, cond_false, cond_true]
theorem raw44 {w : Word} {x : Ext} (h : (fld w 24 7).toNat = 0x44) : decodeRaw w x = dec44 w := by simp only [decodeRaw, h, Nat.reduceBEq, cond_false, cond_true]
theorem raw45 {w : Word} {x : Ext} (h : (fld w 24 7).toNat = 0x45) : decodeRaw w x = dec45 w := by simp only [decodeRaw, h, Nat.reduceBEq, cond_false, cond_true]
theorem raw46 {w : Word} {x : Ext} (h : (fld w 24 7).toNat = 0x46) : decodeRaw w x = dec46 w := by simp only [decodeRaw, h, Nat.reduceBEq, cond_false, cond_true]
theorem raw58 {w : Word} {x : Ext} (h : (fld w 24 7).toNat = 0x58) : decodeRaw w x = dec58 w := by simp only [decodeRaw, h, Nat.reduceBEq, cond_false, cond_true]
theorem raw59 {w : Word} {x : Ext} (h : (fld w 24 7).toNat = 0x59) : decodeRaw w x = dec59 w := by simp only [decodeRaw, h, Nat.reduceBEq, cond_false, cond_true]
theorem raw5A {w : Word} {x : Ext} (h : (fld w 24 7).toNat = 0x5A) : decodeRaw w x = dec5A w := by simp only [decodeRaw, h, Nat.reduceBEq, cond_false, cond_true]
theorem raw5B {w : Word} {x : Ext} (h : (fld w 24 7).toNat = 0x5B) : decodeRaw w x = dec5B w := by simp only [decodeRaw, h, Nat.reduceBEq, cond_false, cond_true]
theorem raw5C {w : Word} {x : Ext} (h : (fld w 24 7).toNat = 0x5C) : decodeRaw w x = dec5C w := by simp only [decodeRaw, h, Nat.reduceBEq, cond_false, cond_true]
theorem raw5D {w : Word} {x : Ext} (h : (fld w 24 7).toNat = 0x5D) : decodeRaw w x = dec5D w := by simp only [decodeRaw, h, Nat.reduceBEq, cond_false, cond_true]
theorem raw5E {w : Word} {x : Ext} (h : (fld w 24 7).toNat = 0x5E) : decodeRaw w x = dec5E w := by simp only [decodeRaw, h, Nat.reduceBEq, cond_false, cond_true]
theorem raw5F {w : Word} {x : Ext} (h : (fld w 24 7).toNat = 0x5F) : decodeRaw w x = dec5F w := by simp only [decodeRaw, h, Nat.reduceBEq, cond_false, cond_true]
theorem raw60 {w : Word} {x : Ext} (h : (fld w 24 7).toNat = 0x60) : decodeRaw w x = dec60 w := by simp only [decodeRaw, h, Nat.reduceBEq, cond_false, cond_true]
theorem raw61 {w : Word} {x : Ext} (h : (fld w 24 7).toNat = 0x61) : decodeRaw w x = dec61 w := by simp only [decodeRaw, h, Nat.reduceBEq, cond_false, cond_true]
theorem raw62 {w : Word} {x : Ext} (h : (fld w 24 7).toNat = 0x62) : decodeRaw w x = dec62 w := by simp only [decodeRaw, h, Nat.reduceBEq, cond_false, cond_true]
theorem raw63 {w : Word} {x : Ext} (h : (fld w 24 7).toNat = 0x63) : decodeRaw w x = dec63 w x := by simp only [decodeRaw, h, Nat.reduceBEq, cond_false, cond_true]
theorem raw64 {w : Word} {x : Ext} (h : (fld w 24 7).toNat = 0x64) : decodeRaw w x = dec64 w := by simp only [decodeRaw, h, Nat.reduceBEq, cond_false, cond_true]
theorem raw65 {w : Word} {x : Ext} (h : (fld w 24 7).toNat = 0x65) : decodeRaw w x = dec65 w x := by simp only [decodeRaw, h, Nat.reduceBEq, cond_false, cond_true]
theorem raw66 {w : Word} {x : Ext} (h : (fld w 24 7).toNat = 0x66) : decodeRaw w x = dec66 w := by simp only [decodeRaw, h, Nat.reduceBEq, cond_false, cond_true]
theorem raw67 {w : Word} {x : Ext} (h : (fld w 24 7).toNat = 0x67) : decodeRaw w x = dec67 w := by simp only [decodeRaw, h, Nat.reduceBEq, cond_false, cond_true]
theorem raw68 {w : Word} {x : Ext} (h : (fld w 24 7).toNat = 0x68) : decodeRaw w x = dec68 w := by simp only [decodeRaw, h, Nat.reduceBEq, cond_false, cond_true]
theorem raw69 {w : Word} {x : Ext} (h : (fld w 24 7).toNat = 0x69) : decodeRaw w x = dec69 w := by simp only [decodeRaw, h, Nat.reduceBEq, cond_false, cond_true]
theorem raw6A {w : Word} {x : Ext} (h : (fld w 24 7).toNat = 0x6A) : decodeRaw w x = dec6A w := by simp only [decodeRaw, h, Nat.reduceBEq, cond_false, cond_true]
theorem raw6C {w : Word} {x : Ext} (h : (fld w 24 7).toNat = 0x6C) : decodeRaw w x = dec6C w := by simp only [decodeRaw, h, Nat.reduceBEq, cond_false, cond_true]
theorem raw6D {w : Word} {x : Ext} (h : (fld w 24 7).toNat = 0x6D) : decodeRaw w x = dec6D w := by simp only [decodeRaw, h, Nat.reduceBEq, cond_false, cond_true]
theorem raw6E {w : Word} {x : Ext} (h : (fld w 24 7).toNat = 0x6E) : decodeRaw w x = dec6E w := by simp only [decodeRaw, h, Nat.reduceBEq, cond_false, cond_true]
theorem raw6F {w : Word} {x : Ext} (h : (fld w 24 7).toNat = 0x6F) : decodeRaw w x = dec6F w := by simp only [decodeRaw, h, Nat.reduceBEq, cond_false, cond_true]
theorem raw70 {w : Word} {x : Ext} (h : (fld w 24 7).toNat = 0x70) : decodeRaw w x = dec70 w := by simp only [decodeRaw, h, Nat.reduceBEq, cond_false, cond_true]
theorem raw71 {w : Word} {x : Ext} (h : (fld w 24 7).toNat = 0x71) : decodeRaw w x = dec71 w := by simp only [decodeRaw, h, Nat.reduceBEq, cond_false, cond_true]
theorem raw72 {w : Word} {x : Ext} (h : (fld w 24 7).toNat = 0x72) : decodeRaw w x = dec72 w := by simp only [decodeRaw, h, Nat.reduceBEq, cond_false, cond_true]
theorem raw73 {w : Word} {x : Ext} (h : (fld w 24 7).toNat = 0x73) : decodeRaw w x = dec73 w := by simp only [decodeRaw, h, Nat.reduceBEq, cond_false, cond_true]
theorem raw74 {w : Word} {x : Ext} (h : (fld w 24 7).toNat = 0x74) : decodeRaw w x = dec74 w := by simp only [decodeRaw, h, Nat.reduceBEq, cond_false, cond_true]
theorem raw75 {w : Word} {x : Ext} (h : (fld w 24 7).toNat = 0x75) : decodeRaw w x = dec75 w := by simp only [decodeRaw, h, Nat.reduceBEq, cond_false, cond_true]
theorem raw76 {w : Word} {x : Ext} (h : (fld w 24 7).toNat = 0x76) : decodeRaw w x = dec76 w := by simp only [decodeRaw, h, Nat.reduceBEq, cond_false, cond_true]
theorem raw77 {w : Word} {x : Ext} (h : (fld w 24 7).toNat = 0x77) : decodeRaw w x = dec77 w := by simp only [decodeRaw, h, Nat.reduceBEq, cond_false, cond_true]
theorem raw78 {w : Word} {x : Ext} (h : (fld w 24 7).toNat = 0x78) : decodeRaw w x = dec78 w := by simp only [decodeRaw, h, Nat.reduceBEq, cond_false, cond_true]
theorem raw79 {w : Word} {x : Ext} (h : (fld w 24 7).toNat = 0x79) : decodeRaw w x = dec79 w := by simp only [decodeRaw, h, Nat.reduceBEq, cond_false, cond_true]
theorem raw7A {w : Word} {x : Ext} (h : (fld w 24 7).toNat = 0x7A) : decodeRaw w x = dec7A w := by simp only [decodeRaw, h, Nat.reduceBEq, cond_false, cond_true]
theorem raw7C {w : Word} {x : Ext} (h : (fld w 24 7).toNat = 0x7C) : decodeRaw w x = dec7C w := by simp only [decodeRaw, h, Nat.reduceBEq, cond_false, cond_true]
theorem raw7D {w : Word} {x : Ext} (h : (fld w 24 7).toNat = 0x7D) : decodeRaw w x = dec7D w := by simp only [decodeRaw, h, Nat.reduceBEq, cond_false, cond_true]

/-- The family: a well-formed instruction of the opcode table is read back from what its encoder writes. -/
def Encoding.Statement (i : Instr) : Prop :=
  isEvent i = false → i.wf = true → ∀ c, decode ((encode c i).flatMap bytesOf) = .ok (c, i, [])

theorem Encoding.nop : Encoding.Statement (.nop) := by
  intro _ hW c
  have := BitVec.isLt c
  have hE : encodeHost c (.nop) = BitVec.ofNat 32 (c.toNat * 2 ^ 31 + 0x01000000) := rfl
  have hM : (fld (encodeHost c (.nop)) 24 7).toNat = 0x01 := by rw [fld_of hE 0x01#7 (by simp only [BitVec.toNat_ofNat]; omega)]; rfl
  refine decode_of hM (.inl rfl) ?_ hW (fld_of hE _ (by omega))
  rw [raw01 hM]
  generalize encodeHost c (.nop) = W at *
  have g0_24 : fld W 0 24 = 0#24 := fld_of hE _ (by simp only [BitVec.toNat_ofNat]; omega)
  rw [dec01, row_ok (by simp [g0_24])]
theorem Encoding.sadd (d : BitVec 5) (a : BitVec 5) (b : BitVec 5) : Encoding.Statement (.sadd d a b) := by
  intro _ hW c
  have := BitVec.isLt c; have := BitVec.isLt d; have := BitVec.isLt a; have := BitVec.isLt b
  have hE : encodeHost c (.sadd d a b) = BitVec.ofNat 32 (c.toNat * 2 ^ 31 + (d.toNat * 2 ^ 19 + (a.toNat * 2 ^ 14 + (b.toNat * 2 ^ 9 + 0x02000000)))) := rfl
  have hM : (fld (encodeHost c (.sadd d a b)) 24 7).toNat = 0x02 := by rw [fld_of hE 0x02#7 (by simp only [BitVec.toNat_ofNat]; omega)]; rfl
  refine decode_of hM (.inl rfl) ?_ hW (fld_of hE _ (by omega))
  rw [raw02 hM]
  generalize encodeHost c (.sadd d a b) = W at *
  have f0 : fld W 19 5 = d := fld_of hE _ (by omega)
  have f1 : fld W 14 5 = a := fld_of hE _ (by omega)
  have f2 : fld W 9 5 = b := fld_of hE _ (by omega)
  have g0_9 : fld W 0 9 = 0#9 := fld_of hE _ (by simp only [BitVec.toNat_ofNat]; omega)
  rw [dec02, row_ok (by simp [g0_9]), f0, f1, f2]
theorem Encoding.ssub (d : BitVec 5) (a : BitVec 5) (b : BitVec 5) : Encoding.Statement (.ssub d a b) := by
  intro _ hW c
  have := BitVec.isLt c; have := BitVec.isLt d; have := BitVec.isLt a; have := BitVec.isLt b
  have hE : encodeHost c (.ssub d a b) = BitVec.ofNat 32 (c.toNat * 2 ^ 31 + (d.toNat * 2 ^ 19 + (a.toNat * 2 ^ 14 + (b.toNat * 2 ^ 9 + 0x02000001)))) := rfl
  have hM : (fld (encodeHost c (.ssub d a b)) 24 7).toNat = 0x02 := by rw [fld_of hE 0x02#7 (by simp only [BitVec.toNat_ofNat]; omega)]; rfl
  refine decode_of hM (.inl rfl) ?_ hW (fld_of hE _ (by omega))
  rw [raw02 hM]
  generalize encodeHost c (.ssub d a b) = W at *
  have f0 : fld W 19 5 = d := fld_of hE _ (by omega)
  have f1 : fld W 14 5 = a := fld_of hE _ (by omega)
  have f2 : fld W 9 5 = b := fld_of hE _ (by omega)
  have g0_9 : fld W 0 9 = 1#9 := fld_of hE _ (by simp only [BitVec.toNat_ofNat]; omega)
  rw [dec02, row_no (by simp [g0_9]), row_ok (by simp [g0_9]), f0, f1, f2]
theorem Encoding.sand (d : BitVec 5) (a : BitVec 5) (b : BitVec 5) : Encoding.Statement (.sand d a b) := by
  intro _ hW c
  have := BitVec.isLt c; have := BitVec.isLt d; have := BitVec.isLt a; have := BitVec.isLt b
  have hE : encodeHost c (.sand d a b) = BitVec.ofNat 32 (c.toNat * 2 ^ 31 + (d.toNat * 2 ^ 19 + (a.toNat * 2 ^ 14 + (b.toNat * 2 ^ 9 + 0x02000002)))) := rfl
  have hM : (fld (encodeHost c (.sand d a b)) 24 7).toNat = 0x02 := by rw [fld_of hE 0x02#7 (by simp only [BitVec.toNat_ofNat]; omega)]; rfl
  refine decode_of hM (.inl rfl) ?_ hW (fld_of hE _ (by omega))
  rw [raw02 hM]
  generalize encodeHost c (.sand d a b) = W at *
  have f0 : fld W 19 5 = d := fld_of hE _ (by omega)
  have f1 : fld W 14 5 = a := fld_of hE _ (by omega)
  have f2 : fld W 9 5 = b := fld_of hE _ (by omega)
  have g0_9 : fld W 0 9 = 2#9 := fld_of hE _ (by simp only [BitVec.toNat_ofNat]; omega)
  rw [dec02, row_no (by simp [g0_9]), row_no (by simp [g0_9]), row_ok (by simp [g0_9]), f0, f1, f2]
theorem Encoding.sor (d : BitVec 5) (a : BitVec 5) (b : BitVec 5) : Encoding.Statement (.sor d a b) := by
  intro _ hW c
  have := BitVec.isLt c; have := BitVec.isLt d; have := BitVec.isLt a; have := BitVec.isLt b
  have hE : encodeHost c (.sor d a b) = BitVec.ofNat 32 (c.toNat * 2 ^ 31 + (d.toNat * 2 ^ 19 + (a.toNat * 2 ^ 14 + (b.toNat * 2 ^ 9 + 0x02000003)))) := rfl
  have hM : (fld (encodeHost c (.sor d a b)) 24 7).toNat = 0x02 := by rw [fld_of hE 0x02#7 (by simp only [BitVec.toNat_ofNat]; omega)]; rfl
  refine decode_of hM (.inl rfl) ?_ hW (fld_of hE _ (by omega))
  rw [raw02 hM]
  generalize encodeHost c (.sor d a b) = W at *
  have f0 : fld W 19 5 = d := fld_of hE _ (by omega)
  have f1 : fld W 14 5 = a := fld_of hE _ (by omega)
  have f2 : fld W 9 5 = b := fld_of hE _ (by omega)
  have g0_9 : fld W 0 9 = 3#9 := fld_of hE _ (by simp only [BitVec.toNat_ofNat]; omega)
  rw [dec02, row_no (by simp [g0_9]), row_no (by simp [g0_9]), row_no (by simp [g0_9]), row_ok (by simp [g0_9]), f0, f1, f2]
theorem Encoding.sxor (d : BitVec 5) (a : BitVec 5) (b : BitVec 5) : Encoding.Statement (.sxor d a b) := by
  intro _ hW c
  have := BitVec.isLt c; have := BitVec.isLt d; have := BitVec.isLt a; have := BitVec.isLt b
  have hE : encodeHost c (.sxor d a b) = BitVec.ofNat 32 (c.toNat * 2 ^ 31 + (d.toNat * 2 ^ 19 + (a.toNat * 2 ^ 14 + (b.toNat * 2 ^ 9 + 0x02000004)))) := rfl
  have hM : (fld (encodeHost c (.sxor d a b)) 24 7).toNat = 0x02 := by rw [fld_of hE 0x02#7 (by simp only [BitVec.toNat_ofNat]; omega)]; rfl
  refine decode_of hM (.inl rfl) ?_ hW (fld_of hE _ (by omega))
  rw [raw02 hM]
  generalize encodeHost c (.sxor d a b) = W at *
  have f0 : fld W 19 5 = d := fld_of hE _ (by omega)
  have f1 : fld W 14 5 = a := fld_of hE _ (by omega)
  have f2 : fld W 9 5 = b := fld_of hE _ (by omega)
  have g0_9 : fld W 0 9 = 4#9 := fld_of hE _ (by simp only [BitVec.toNat_ofNat]; omega)
  rw [dec02, row_no (by simp [g0_9]), row_no (by simp [g0_9]), row_no (by simp [g0_9]), row_no (by simp [g0_9]), row_ok (by simp [g0_9]), f0, f1, f2]
theorem Encoding.sshl (d : BitVec 5) (a : BitVec 5) (b : BitVec 5) : Encoding.Statement (.sshl d a b) := by
  intro _ hW c
  have := BitVec.isLt c; have := BitVec.isLt d; have := BitVec.isLt a; have := BitVec.isLt b
  have hE : encodeHost c (.sshl d a b) = BitVec.ofNat 32 (c.toNat * 2 ^ 31 + (d.toNat * 2 ^ 19 + (a.toNat * 2 ^ 14 + (b.toNat * 2 ^ 9 + 0x02000005)))) := rfl
  have hM : (fld (encodeHost c (.sshl d a b)) 24 7).toNat = 0x02 := by rw [fld_of hE 0x02#7 (by simp only [BitVec.toNat_ofNat]; omega)]; rfl
  refine decode_of hM (.inl rfl) ?_ hW (fld_of hE _ (by omega))
  rw [raw02 hM]
  generalize encodeHost c (.sshl d a b) = W at *
  have f0 : fld W 19 5 = d := fld_of hE _ (by omega)
  have f1 : fld W 14 5 = a := fld_of hE _ (by omega)
  have f2 : fld W 9 5 = b := fld_of hE _ (by omega)
  have g0_9 : fld W 0 9 = 5#9 := fld_of hE _ (by simp only [BitVec.toNat_ofNat]; omega)
  rw [dec02, row_no (by simp [g0_9]), row_no (by simp [g0_9]), row_no (by simp [g0_9]), row_no (by simp [g0_9]), row_no (by simp [g0_9]), row_ok (by simp [g0_9]), f0, f1, f2]
theorem Encoding.sshr (d : BitVec 5) (a : BitVec 5) (b : BitVec 5) : Encoding.Statement (.sshr d a b) := by
  intro _ hW c
  have := BitVec.isLt c; have := BitVec.isLt d; have := BitVec.isLt a; have := BitVec.isLt b
  have hE : encodeHost c (.sshr d a b) = BitVec.ofNat 32 (c.toNat * 2 ^ 31 + (d.toNat * 2 ^ 19 + (a.toNat * 2 ^ 14 + (b.toNat * 2 ^ 9 + 0x02000006)))) := rfl
  have hM : (fld (encodeHost c (.sshr d a b)) 24 7).toNat = 0x02 := by rw [fld_of hE 0x02#7 (by simp only [BitVec.toNat_ofNat]; omega)]; rfl
  refine decode_of hM (.inl rfl) ?_ hW (fld_of hE _ (by omega))
  rw [raw02 hM]
  generalize encodeHost c (.sshr d a b) = W at *
  have f0 : fld W 19 5 = d := fld_of hE _ (by omega)
  have f1 : fld W 14 5 = a := fld_of hE _ (by omega)
  have f2 : fld W 9 5 = b := fld_of hE _ (by omega)
  have g0_9 : fld W 0 9 = 6#9 := fld_of hE _ (by simp only [BitVec.toNat_ofNat]; omega)
  rw [dec02, row_no (by simp [g0_9]), row_no (by simp [g0_9]), row_no (by simp [g0_9]), row_no (by simp [g0_9]), row_no (by simp [g0_9]), row_no (by simp [g0_9]), row_ok (by simp [g0_9]), f0, f1, f2]
theorem Encoding.ssra (d : BitVec 5) (a : BitVec 5) (b : BitVec 5) : Encoding.Statement (.ssra d a b) := by
  intro _ hW c
  have := BitVec.isLt c; have := BitVec.isLt d; have := BitVec.isLt a; have := BitVec.isLt b
  have hE : encodeHost c (.ssra d a b) = BitVec.ofNat 32 (c.toNat * 2 ^ 31 + (d.toNat * 2 ^ 19 + (a.toNat * 2 ^ 14 + (b.toNat * 2 ^ 9 + 0x02000007)))) := rfl
  have hM : (fld (encodeHost c (.ssra d a b)) 24 7).toNat = 0x02 := by rw [fld_of hE 0x02#7 (by simp only [BitVec.toNat_ofNat]; omega)]; rfl
  refine decode_of hM (.inl rfl) ?_ hW (fld_of hE _ (by omega))
  rw [raw02 hM]
  generalize encodeHost c (.ssra d a b) = W at *
  have f0 : fld W 19 5 = d := fld_of hE _ (by omega)
  have f1 : fld W 14 5 = a := fld_of hE _ (by omega)
  have f2 : fld W 9 5 = b := fld_of hE _ (by omega)
  have g0_9 : fld W 0 9 = 7#9 := fld_of hE _ (by simp only [BitVec.toNat_ofNat]; omega)
  rw [dec02, row_no (by simp [g0_9]), row_no (by simp [g0_9]), row_no (by simp [g0_9]), row_no (by simp [g0_9]), row_no (by simp [g0_9]), row_no (by simp [g0_9]), row_no (by simp [g0_9]), row_ok (by simp [g0_9]), f0, f1, f2]
theorem Encoding.smul (d : BitVec 5) (a : BitVec 5) (b : BitVec 5) : Encoding.Statement (.smul d a b) := by
  intro _ hW c
  have := BitVec.isLt c; have := BitVec.isLt d; have := BitVec.isLt a; have := BitVec.isLt b
  have hE : encodeHost c (.smul d a b) = BitVec.ofNat 32 (c.toNat * 2 ^ 31 + (d.toNat * 2 ^ 19 + (a.toNat * 2 ^ 14 + (b.toNat * 2 ^ 9 + 0x02000008)))) := rfl
  have hM : (fld (encodeHost c (.smul d a b)) 24 7).toNat = 0x02 := by rw [fld_of hE 0x02#7 (by simp only [BitVec.toNat_ofNat]; omega)]; rfl
  refine decode_of hM (.inl rfl) ?_ hW (fld_of hE _ (by omega))
  rw [raw02 hM]
  generalize encodeHost c (.smul d a b) = W at *
  have f0 : fld W 19 5 = d := fld_of hE _ (by omega)
  have f1 : fld W 14 5 = a := fld_of hE _ (by omega)
  have f2 : fld W 9 5 = b := fld_of hE _ (by omega)
  have g0_9 : fld W 0 9 = 8#9 := fld_of hE _ (by simp only [BitVec.toNat_ofNat]; omega)
  rw [dec02, row_no (by simp [g0_9]), row_no (by simp [g0_9]), row_no (by simp [g0_9]), row_no (by simp [g0_9]), row_no (by simp [g0_9]), row_no (by simp [g0_9]), row_no (by simp [g0_9]), row_no (by simp [g0_9]), row_ok (by simp [g0_9]), f0, f1, f2]
theorem Encoding.smulhI64 (d : BitVec 5) (a : BitVec 5) (b : BitVec 5) : Encoding.Statement (.smulhI64 d a b) := by
  intro _ hW c
  have := BitVec.isLt c; have := BitVec.isLt d; have := BitVec.isLt a; have := BitVec.isLt b
  have hE : encodeHost c (.smulhI64 d a b) = BitVec.ofNat 32 (c.toNat * 2 ^ 31 + (d.toNat * 2 ^ 19 + (a.toNat * 2 ^ 14 + (b.toNat * 2 ^ 9 + 0x02000009)))) := rfl
  have hM : (fld (encodeHost c (.smulhI64 d a b)) 24 7).toNat = 0x02 := by rw [fld_of hE 0x02#7 (by simp only [BitVec.toNat_ofNat]; omega)]; rfl
  refine decode_of hM (.inl rfl) ?_ hW (fld_of hE _ (by omega))
  rw [raw02 hM]
  generalize encodeHost c (.smulhI64 d a b) = W at *
  have f0 : fld W 19 5 = d := fld_of hE _ (by omega)
  have f1 : fld W 14 5 = a := fld_of hE _ (by omega)
  have f2 : fld W 9 5 = b := fld_of hE _ (by omega)
  have g0_9 : fld W 0 9 = 9#9 := fld_of hE _ (by simp only [BitVec.toNat_ofNat]; omega)
  rw [dec02, row_no (by simp [g0_9]), row_no (by simp [g0_9]), row_no (by simp [g0_9]), row_no (by simp [g0_9]), row_no (by simp [g0_9]), row_no (by simp [g0_9]), row_no (by simp [g0_9]), row_no (by simp [g0_9]), row_no (by simp [g0_9]), row_ok (by simp [g0_9]), f0, f1, f2]
theorem Encoding.smulhU64 (d : BitVec 5) (a : BitVec 5) (b : BitVec 5) : Encoding.Statement (.smulhU64 d a b) := by
  intro _ hW c
  have := BitVec.isLt c; have := BitVec.isLt d; have := BitVec.isLt a; have := BitVec.isLt b
  have hE : encodeHost c (.smulhU64 d a b) = BitVec.ofNat 32 (c.toNat * 2 ^ 31 + (d.toNat * 2 ^ 19 + (a.toNat * 2 ^ 14 + (b.toNat * 2 ^ 9 + 0x0200000A)))) := rfl
  have hM : (fld (encodeHost c (.smulhU64 d a b)) 24 7).toNat = 0x02 := by rw [fld_of hE 0x02#7 (by simp only [BitVec.toNat_ofNat]; omega)]; rfl
  refine decode_of hM (.inl rfl) ?_ hW (fld_of hE _ (by omega))
  rw [raw02 hM]
  generalize encodeHost c (.smulhU64 d a b) = W at *
  have f0 : fld W 19 5 = d := fld_of hE _ (by omega)
  have f1 : fld W 14 5 = a := fld_of hE _ (by omega)
  have f2 : fld W 9 5 = b := fld_of hE _ (by omega)
  have g0_9 : fld W 0 9 = 10#9 := fld_of hE _ (by simp only [BitVec.toNat_ofNat]; omega)
  rw [dec02, row_no (by simp [g0_9]), row_no (by simp [g0_9]), row_no (by simp [g0_9]), row_no (by simp [g0_9]), row_no (by simp [g0_9]), row_no (by simp [g0_9]), row_no (by simp [g0_9]), row_no (by simp [g0_9]), row_no (by simp [g0_9]), row_no (by simp [g0_9]), row_ok (by simp [g0_9]), f0, f1, f2]
theorem Encoding.sminI64 (d : BitVec 5) (a : BitVec 5) (b : BitVec 5) : Encoding.Statement (.sminI64 d a b) := by
  intro _ hW c
  have := BitVec.isLt c; have := BitVec.isLt d; have := BitVec.isLt a; have := BitVec.isLt b
  have hE : encodeHost c (.sminI64 d a b) = BitVec.ofNat 32 (c.toNat * 2 ^ 31 + (d.toNat * 2 ^ 19 + (a.toNat * 2 ^ 14 + (b.toNat * 2 ^ 9 + 0x0200000B)))) := rfl
  have hM : (fld (encodeHost c (.sminI64 d a b)) 24 7).toNat = 0x02 := by rw [fld_of hE 0x02#7 (by simp only [BitVec.toNat_ofNat]; omega)]; rfl
  refine decode_of hM (.inl rfl) ?_ hW (fld_of hE _ (by omega))
  rw [raw02 hM]
  generalize encodeHost c (.sminI64 d a b) = W at *
  have f0 : fld W 19 5 = d := fld_of hE _ (by omega)
  have f1 : fld W 14 5 = a := fld_of hE _ (by omega)
  have f2 : fld W 9 5 = b := fld_of hE _ (by omega)
  have g0_9 : fld W 0 9 = 11#9 := fld_of hE _ (by simp only [BitVec.toNat_ofNat]; omega)
  rw [dec02, row_no (by simp [g0_9]), row_no (by simp [g0_9]), row_no (by simp [g0_9]), row_no (by simp [g0_9]), row_no (by simp [g0_9]), row_no (by simp [g0_9]), row_no (by simp [g0_9]), row_no (by simp [g0_9]), row_no (by simp [g0_9]), row_no (by simp [g0_9]), row_no (by simp [g0_9]), row_ok (by simp [g0_9]), f0, f1, f2]
theorem Encoding.sminU64 (d : BitVec 5) (a : BitVec 5) (b : BitVec 5) : Encoding.Statement (.sminU64 d a b) := by
  intro _ hW c
  have := BitVec.isLt c; have := BitVec.isLt d; have := BitVec.isLt a; have := BitVec.isLt b
  have hE : encodeHost c (.sminU64 d a b) = BitVec.ofNat 32 (c.toNat * 2 ^ 31 + (d.toNat * 2 ^ 19 + (a.toNat * 2 ^ 14 + (b.toNat * 2 ^ 9 + 0x0200000C)))) := rfl
  have hM : (fld (encodeHost c (.sminU64 d a b)) 24 7).toNat = 0x02 := by rw [fld_of hE 0x02#7 (by simp only [BitVec.toNat_ofNat]; omega)]; rfl
  refine decode_of hM (.inl rfl) ?_ hW (fld_of hE _ (by omega))
  rw [raw02 hM]
  generalize encodeHost c (.sminU64 d a b) = W at *
  have f0 : fld W 19 5 = d := fld_of hE _ (by omega)
  have f1 : fld W 14 5 = a := fld_of hE _ (by omega)
  have f2 : fld W 9 5 = b := fld_of hE _ (by omega)
  have g0_9 : fld W 0 9 = 12#9 := fld_of hE _ (by simp only [BitVec.toNat_ofNat]; omega)
  rw [dec02, row_no (by simp [g0_9]), row_no (by simp [g0_9]), row_no (by simp [g0_9]), row_no (by simp [g0_9]), row_no (by simp [g0_9]), row_no (by simp [g0_9]), row_no (by simp [g0_9]), row_no (by simp [g0_9]), row_no (by simp [g0_9]), row_no (by simp [g0_9]), row_no (by simp [g0_9]), row_no (by simp [g0_9]), row_ok (by simp [g0_9]), f0, f1, f2]
theorem Encoding.smaxI64 (d : BitVec 5) (a : BitVec 5) (b : BitVec 5) : Encoding.Statement (.smaxI64 d a b) := by
  intro _ hW c
  have := BitVec.isLt c; have := BitVec.isLt d; have := BitVec.isLt a; have := BitVec.isLt b
  have hE : encodeHost c (.smaxI64 d a b) = BitVec.ofNat 32 (c.toNat * 2 ^ 31 + (d.toNat * 2 ^ 19 + (a.toNat * 2 ^ 14 + (b.toNat * 2 ^ 9 + 0x0200000D)))) := rfl
  have hM : (fld (encodeHost c (.smaxI64 d a b)) 24 7).toNat = 0x02 := by rw [fld_of hE 0x02#7 (by simp only [BitVec.toNat_ofNat]; omega)]; rfl
  refine decode_of hM (.inl rfl) ?_ hW (fld_of hE _ (by omega))
  rw [raw02 hM]
  generalize encodeHost c (.smaxI64 d a b) = W at *
  have f0 : fld W 19 5 = d := fld_of hE _ (by omega)
  have f1 : fld W 14 5 = a := fld_of hE _ (by omega)
  have f2 : fld W 9 5 = b := fld_of hE _ (by omega)
  have g0_9 : fld W 0 9 = 13#9 := fld_of hE _ (by simp only [BitVec.toNat_ofNat]; omega)
  rw [dec02, row_no (by simp [g0_9]), row_no (by simp [g0_9]), row_no (by simp [g0_9]), row_no (by simp [g0_9]), row_no (by simp [g0_9]), row_no (by simp [g0_9]), row_no (by simp [g0_9]), row_no (by simp [g0_9]), row_no (by simp [g0_9]), row_no (by simp [g0_9]), row_no (by simp [g0_9]), row_no (by simp [g0_9]), row_no (by simp [g0_9]), row_ok (by simp [g0_9]), f0, f1, f2]
theorem Encoding.smaxU64 (d : BitVec 5) (a : BitVec 5) (b : BitVec 5) : Encoding.Statement (.smaxU64 d a b) := by
  intro _ hW c
  have := BitVec.isLt c; have := BitVec.isLt d; have := BitVec.isLt a; have := BitVec.isLt b
  have hE : encodeHost c (.smaxU64 d a b) = BitVec.ofNat 32 (c.toNat * 2 ^ 31 + (d.toNat * 2 ^ 19 + (a.toNat * 2 ^ 14 + (b.toNat * 2 ^ 9 + 0x0200000E)))) := rfl
  have hM : (fld (encodeHost c (.smaxU64 d a b)) 24 7).toNat = 0x02 := by rw [fld_of hE 0x02#7 (by simp only [BitVec.toNat_ofNat]; omega)]; rfl
  refine decode_of hM (.inl rfl) ?_ hW (fld_of hE _ (by omega))
  rw [raw02 hM]
  generalize encodeHost c (.smaxU64 d a b) = W at *
  have f0 : fld W 19 5 = d := fld_of hE _ (by omega)
  have f1 : fld W 14 5 = a := fld_of hE _ (by omega)
  have f2 : fld W 9 5 = b := fld_of hE _ (by omega)
  have g0_9 : fld W 0 9 = 14#9 := fld_of hE _ (by simp only [BitVec.toNat_ofNat]; omega)
  rw [dec02, row_no (by simp [g0_9]), row_no (by simp [g0_9]), row_no (by simp [g0_9]), row_no (by simp [g0_9]), row_no (by simp [g0_9]), row_no (by simp [g0_9]), row_no (by simp [g0_9]), row_no (by simp [g0_9]), row_no (by simp [g0_9]), row_no (by simp [g0_9]), row_no (by simp [g0_9]), row_no (by simp [g0_9]), row_no (by simp [g0_9]), row_no (by simp [g0_9]), row_ok (by simp [g0_9]), f0, f1, f2]
theorem Encoding.saddImm (d : BitVec 5) (a : BitVec 5) (i : Imm 9) : Encoding.Statement (.saddImm d a i) := by
  obtain ⟨i, X⟩ := i
  intro _ hW c
  have := BitVec.isLt c; have := BitVec.isLt d; have := BitVec.isLt a; have := BitVec.isLt i
  have hE : encodeHost c (.saddImm d a ⟨i, X⟩) = BitVec.ofNat 32 (c.toNat * 2 ^ 31 + (d.toNat * 2 ^ 19 + (a.toNat * 2 ^ 14 + (i.toNat * 2 ^ 5 + 0x03000000)))) := rfl
  have hM : (fld (encodeHost c (.saddImm d a ⟨i, X⟩)) 24 7).toNat = 0x03 := by rw [fld_of hE 0x03#7 (by simp only [BitVec.toNat_ofNat]; omega)]; rfl
  refine decode_of hM (.inr rfl) ?_ hW (fld_of hE _ (by omega))
  show decodeRaw _ X = _
  rw [raw03 hM]
  generalize encodeHost c (.saddImm d a ⟨i, X⟩) = W at *
  have f0 : fld W 19 5 = d := fld_of hE _ (by omega)
  have f1 : fld W 14 5 = a := fld_of hE _ (by omega)
  have f2 : fld W 5 9 = i := fld_of hE _ (by omega)
  have g0_5 : fld W 0 5 = 0#5 := fld_of hE _ (by simp only [BitVec.toNat_ofNat]; omega)
  rw [dec03, row_ok (by simp [g0_5]), f0, f1, f2]
theorem Encoding.ssubImm (d : BitVec 5) (a : BitVec 5) (i : Imm 9) : Encoding.Statement (.ssubImm d a i) := by
  obtain ⟨i, X⟩ := i
  intro _ hW c
  have := BitVec.isLt c; have := BitVec.isLt d; have := BitVec.isLt a; have := BitVec.isLt i
  have hE : encodeHost c (.ssubImm d a ⟨i, X⟩) = BitVec.ofNat 32 (c.toNat * 2 ^ 31 + (d.toNat * 2 ^ 19 + (a.toNat * 2 ^ 14 + (i.toNat * 2 ^ 5 + 0x03000001)))) := rfl
  have hM : (fld (encodeHost c (.ssubImm d a ⟨i, X⟩)) 24 7).toNat = 0x03 := by rw [fld_of hE 0x03#7 (by simp only [BitVec.toNat_ofNat]; omega)]; rfl
  refine decode_of hM (.inr rfl) ?_ hW (fld_of hE _ (by omega))
  show decodeRaw _ X = _
  rw [raw03 hM]
  generalize encodeHost c (.ssubImm d a ⟨i, X⟩) = W at *
  have f0 : fld W 19 5 = d := fld_of hE _ (by omega)
  have f1 : fld W 14 5 = a := fld_of hE _ (by omega)
  have f2 : fld W 5 9 = i := fld_of hE _ (by omega)
  have g0_5 : fld W 0 5 = 1#5 := fld_of hE _ (by simp only [BitVec.toNat_ofNat]; omega)
  rw [dec03, row_no (by simp [g0_5]), row_ok (by simp [g0_5]), f0, f1, f2]
theorem Encoding.sandImm (d : BitVec 5) (a : BitVec 5) (i : Imm 9) : Encoding.Statement (.sandImm d a i) := by
  obtain ⟨i, X⟩ := i
  intro _ hW c
  have := BitVec.isLt c; have := BitVec.isLt d; have := BitVec.isLt a; have := BitVec.isLt i
  have hE : encodeHost c (.sandImm d a ⟨i, X⟩) = BitVec.ofNat 32 (c.toNat * 2 ^ 31 + (d.toNat * 2 ^ 19 + (a.toNat * 2 ^ 14 + (i.toNat * 2 ^ 5 + 0x03000002)))) := rfl
  have hM : (fld (encodeHost c (.sandImm d a ⟨i, X⟩)) 24 7).toNat = 0x03 := by rw [fld_of hE 0x03#7 (by simp only [BitVec.toNat_ofNat]; omega)]; rfl
  refine decode_of hM (.inr rfl) ?_ hW (fld_of hE _ (by omega))
  show decodeRaw _ X = _
  rw [raw03 hM]
  generalize encodeHost c (.sandImm d a ⟨i, X⟩) = W at *
  have f0 : fld W 19 5 = d := fld_of hE _ (by omega)
  have f1 : fld W 14 5 = a := fld_of hE _ (by omega)
  have f2 : fld W 5 9 = i := fld_of hE _ (by omega)
  have g0_5 : fld W 0 5 = 2#5 := fld_of hE _ (by simp only [BitVec.toNat_ofNat]; omega)
  rw [dec03, row_no (by simp [g0_5]), row_no (by simp [g0_5]), row_ok (by simp [g0_5]), f0, f1, f2]
theorem Encoding.sorImm (d : BitVec 5) (a : BitVec 5) (i : Imm 9) : Encoding.Statement (.sorImm d a i) := by
  obtain ⟨i, X⟩ := i
  intro _ hW c
  have := BitVec.isLt c; have := BitVec.isLt d; have := BitVec.isLt a; have := BitVec.isLt i
  have hE : encodeHost c (.sorImm d a ⟨i, X⟩) = BitVec.ofNat 32 (c.toNat * 2 ^ 31 + (d.toNat * 2 ^ 19 + (a.toNat * 2 ^ 14 + (i.toNat * 2 ^ 5 + 0x03000003)))) := rfl
  have hM : (fld (encodeHost c (.sorImm d a ⟨i, X⟩)) 24 7).toNat = 0x03 := by rw [fld_of hE 0x03#7 (by simp only [BitVec.toNat_ofNat]; omega)]; rfl
  refine decode_of hM (.inr rfl) ?_ hW (fld_of hE _ (by omega))
  show decodeRaw _ X = _
  rw [raw03 hM]
  generalize encodeHost c (.sorImm d a ⟨i, X⟩) = W at *
  have f0 : fld W 19 5 = d := fld_of hE _ (by omega)
  have f1 : fld W 14 5 = a := fld_of hE _ (by omega)
  have f2 : fld W 5 9 = i := fld_of hE _ (by omega)
  have g0_5 : fld W 0 5 = 3#5 := fld_of hE _ (by simp only [BitVec.toNat_ofNat]; omega)
  rw [dec03, row_no (by simp [g0_5]), row_no (by simp [g0_5]), row_no (by simp [g0_5]), row_ok (by simp [g0_5]), f0, f1, f2]
theorem Encoding.sxorImm (d : BitVec 5) (a : BitVec 5) (i : Imm 9) : Encoding.Statement (.sxorImm d a i) := by
  obtain ⟨i, X⟩ := i
  intro _ hW c
  have := BitVec.isLt c; have := BitVec.isLt d; have := BitVec.isLt a; have := BitVec.isLt i
  have hE : encodeHost c (.sxorImm d a ⟨i, X⟩) = BitVec.ofNat 32 (c.toNat * 2 ^ 31 + (d.toNat * 2 ^ 19 + (a.toNat * 2 ^ 14 + (i.toNat * 2 ^ 5 + 0x03000004)))) := rfl
  have hM : (fld (encodeHost c (.sxorImm d a ⟨i, X⟩)) 24 7).toNat = 0x03 := by rw [fld_of hE 0x03#7 (by simp only [BitVec.toNat_ofNat]; omega)]; rfl
  refine decode_of hM (.inr rfl) ?_ hW (fld_of hE _ (by omega))
  show decodeRaw _ X = _
  rw [raw03 hM]
  generalize encodeHost c (.sxorImm d a ⟨i, X⟩) = W at *
  have f0 : fld W 19 5 = d := fld_of hE _ (by omega)
  have f1 : fld W 14 5 = a := fld_of hE _ (by omega)
  have f2 : fld W 5 9 = i := fld_of hE _ (by omega)
  have g0_5 : fld W 0 5 = 4#5 := fld_of hE _ (by simp only [BitVec.toNat_ofNat]; omega)
  rw [dec03, row_no (by simp [g0_5]), row_no (by simp [g0_5]), row_no (by simp [g0_5]), row_no (by simp [g0_5]), row_ok (by simp [g0_5]), f0, f1, f2]
theorem Encoding.sshlImm (d : BitVec 5) (a : BitVec 5) (i : Imm 9) : Encoding.Statement (.sshlImm d a i) := by
  obtain ⟨i, X⟩ := i
  intro _ hW c
  have := BitVec.isLt c; have := BitVec.isLt d; have := BitVec.isLt a; have := BitVec.isLt i
  have hE : encodeHost c (.sshlImm d a ⟨i, X⟩) = BitVec.ofNat 32 (c.toNat * 2 ^ 31 + (d.toNat * 2 ^ 19 + (a.toNat * 2 ^ 14 + (i.toNat * 2 ^ 5 + 0x03000005)))) := rfl
  have hM : (fld (encodeHost c (.sshlImm d a ⟨i, X⟩)) 24 7).toNat = 0x03 := by rw [fld_of hE 0x03#7 (by simp only [BitVec.toNat_ofNat]; omega)]; rfl
  refine decode_of hM (.inr rfl) ?_ hW (fld_of hE _ (by omega))
  show decodeRaw _ X = _
  rw [raw03 hM]
  generalize encodeHost c (.sshlImm d a ⟨i, X⟩) = W at *
  have f0 : fld W 19 5 = d := fld_of hE _ (by omega)
  have f1 : fld W 14 5 = a := fld_of hE _ (by omega)
  have f2 : fld W 5 9 = i := fld_of hE _ (by omega)
  have g0_5 : fld W 0 5 = 5#5 := fld_of hE _ (by simp only [BitVec.toNat_ofNat]; omega)
  rw [dec03, row_no (by simp [g0_5]), row_no (by simp [g0_5]), row_no (by simp [g0_5]), row_no (by simp [g0_5]), row_no (by simp [g0_5]), row_ok (by simp [g0_5]), f0, f1, f2]
theorem Encoding.sshrImm (d : BitVec 5) (a : BitVec 5) (i : Imm 9) : Encoding.Statement (.sshrImm d a i) := by
  obtain ⟨i, X⟩ := i
  intro _ hW c
  have := BitVec.isLt c; have := BitVec.isLt d; have := BitVec.isLt a; have := BitVec.isLt i
  have hE : encodeHost c (.sshrImm d a ⟨i, X⟩) = BitVec.ofNat 32 (c.toNat * 2 ^ 31 + (d.toNat * 2 ^ 19 + (a.toNat * 2 ^ 14 + (i.toNat * 2 ^ 5 + 0x03000006)))) := rfl
  have hM : (fld (encodeHost c (.sshrImm d a ⟨i, X⟩)) 24 7).toNat = 0x03 := by rw [fld_of hE 0x03#7 (by simp only [BitVec.toNat_ofNat]; omega)]; rfl
  refine decode_of hM (.inr rfl) ?_ hW (fld_of hE _ (by omega))
  show decodeRaw _ X = _
  rw [raw03 hM]
  generalize encodeHost c (.sshrImm d a ⟨i, X⟩) = W at *
  have f0 : fld W 19 5 = d := fld_of hE _ (by omega)
  have f1 : fld W 14 5 = a := fld_of hE _ (by omega)
  have f2 : fld W 5 9 = i := fld_of hE _ (by omega)
  have g0_5 : fld W 0 5 = 6#5 := fld_of hE _ (by simp only [BitVec.toNat_ofNat]; omega)
  rw [dec03, row_no (by simp [g0_5]), row_no (by simp [g0_5]), row_no (by simp [g0_5]), row_no (by simp [g0_5]), row_no (by simp [g0_5]), row_no (by simp [g0_5]), row_ok (by simp [g0_5]), f0, f1, f2]
theorem Encoding.ssraImm (d : BitVec 5) (a : BitVec 5) (i : Imm 9) : Encoding.Statement (.ssraImm d a i) := by
  obtain ⟨i, X⟩ := i
  intro _ hW c
  have := BitVec.isLt c; have := BitVec.isLt d; have := BitVec.isLt a; have := BitVec.isLt i
  have hE : encodeHost c (.ssraImm d a ⟨i, X⟩) = BitVec.ofNat 32 (c.toNat * 2 ^ 31 + (d.toNat * 2 ^ 19 + (a.toNat * 2 ^ 14 + (i.toNat * 2 ^ 5 + 0x03000007)))) := rfl
  have hM : (fld (encodeHost c (.ssraImm d a ⟨i, X⟩)) 24 7).toNat = 0x03 := by rw [fld_of hE 0x03#7 (by simp only [BitVec.toNat_ofNat]; omega)]; rfl
  refine decode_of hM (.inr rfl) ?_ hW (fld_of hE _ (by omega))
  show decodeRaw _ X = _
  rw [raw03 hM]
  generalize encodeHost c (.ssraImm d a ⟨i, X⟩) = W at *
  have f0 : fld W 19 5 = d := fld_of hE _ (by omega)
  have f1 : fld W 14 5 = a := fld_of hE _ (by omega)
  have f2 : fld W 5 9 = i := fld_of hE _ (by omega)
  have g0_5 : fld W 0 5 = 7#5 := fld_of hE _ (by simp only [BitVec.toNat_ofNat]; omega)
  rw [dec03, row_no (by simp [g0_5]), row_no (by simp [g0_5]), row_no (by simp [g0_5]), row_no (by simp [g0_5]), row_no (by simp [g0_5]), row_no (by simp [g0_5]), row_no (by simp [g0_5]), row_ok (by simp [g0_5]), f0, f1, f2]
theorem Encoding.smulImm (d : BitVec 5) (a : BitVec 5) (i : Imm 9) : Encoding.Statement (.smulImm d a i) := by
  obtain ⟨i, X⟩ := i
  intro _ hW c
  have := BitVec.isLt c; have := BitVec.isLt d; have := BitVec.isLt a; have := BitVec.isLt i
  have hE : encodeHost c (.smulImm d a ⟨i, X⟩) = BitVec.ofNat 32 (c.toNat * 2 ^ 31 + (d.toNat * 2 ^ 19 + (a.toNat * 2 ^ 14 + (i.toNat * 2 ^ 5 + 0x03000008)))) := rfl
  have hM : (fld (encodeHost c (.smulImm d a ⟨i, X⟩)) 24 7).toNat = 0x03 := by rw [fld_of hE 0x03#7 (by simp only [BitVec.toNat_ofNat]; omega)]; rfl
  refine decode_of hM (.inr rfl) ?_ hW (fld_of hE _ (by omega))
  show decodeRaw _ X = _
  rw [raw03 hM]
  generalize encodeHost c (.smulImm d a ⟨i, X⟩) = W at *
  have f0 : fld W 19 5 = d := fld_of hE _ (by omega)
  have f1 : fld W 14 5 = a := fld_of hE _ (by omega)
  have f2 : fld W 5 9 = i := fld_of hE _ (by omega)
  have g0_5 : fld W 0 5 = 8#5 := fld_of hE _ (by simp only [BitVec.toNat_ofNat]; omega)
  rw [dec03, row_no (by simp [g0_5]), row_no (by simp [g0_5]), row_no (by simp [g0_5]), row_no (by simp [g0_5]), row_no (by simp [g0_5]), row_no (by simp [g0_5]), row_no (by simp [g0_5]), row_no (by simp [g0_5]), row_ok (by simp [g0_5]), f0, f1, f2]
theorem Encoding.smulhI64Imm (d : BitVec 5) (a : BitVec 5) (i : Imm 9) : Encoding.Statement (.smulhI64Imm d a i) := by
  obtain ⟨i, X⟩ := i
  intro _ hW c
  have := BitVec.isLt c; have := BitVec.isLt d; have := BitVec.isLt a; have := BitVec.isLt i
  have hE : encodeHost c (.smulhI64Imm d a ⟨i, X⟩) = BitVec.ofNat 32 (c.toNat * 2 ^ 31 + (d.toNat * 2 ^ 19 + (a.toNat * 2 ^ 14 + (i.toNat * 2 ^ 5 + 0x03000009)))) := rfl
  have hM : (fld (encodeHost c (.smulhI64Imm d a ⟨i, X⟩)) 24 7).toNat = 0x03 := by rw [fld_of hE 0x03#7 (by simp only [BitVec.toNat_ofNat]; omega)]; rfl
  refine decode_of hM (.inr rfl) ?_ hW (fld_of hE _ (by omega))
  show decodeRaw _ X = _
  rw [raw03 hM]
  generalize encodeHost c (.smulhI64Imm d a ⟨i, X⟩) = W at *
  have f0 : fld W 19 5 = d := fld_of hE _ (by omega)
  have f1 : fld W 14 5 = a := fld_of hE _ (by omega)
  have f2 : fld W 5 9 = i := fld_of hE _ (by omega)
  have g0_5 : fld W 0 5 = 9#5 := fld_of hE _ (by simp only [BitVec.toNat_ofNat]; omega)
  rw [dec03, row_no (by simp [g0_5]), row_no (by simp [g0_5]), row_no (by simp [g0_5]), row_no (by simp [g0_5]), row_no (by simp [g0_5]), row_no (by simp [g0_5]), row_no (by simp [g0_5]), row_no (by simp [g0_5]), row_no (by simp [g0_5]), row_ok (by simp [g0_5]), f0, f1, f2]
theorem Encoding.smulhU64Imm (d : BitVec 5) (a : BitVec 5) (i : Imm 9) : Encoding.Statement (.smulhU64Imm d a i) := by
  obtain ⟨i, X⟩ := i
  intro _ hW c
  have := BitVec.isLt c; have := BitVec.isLt d; have := BitVec.isLt a; have := BitVec.isLt i
  have hE : encodeHost c (.smulhU64Imm d a ⟨i, X⟩) = BitVec.ofNat 32 (c.toNat * 2 ^ 31 + (d.toNat * 2 ^ 19 + (a.toNat * 2 ^ 14 + (i.toNat * 2 ^ 5 + 0x0300000A)))) := rfl
  have hM : (fld (encodeHost c (.smulhU64Imm d a ⟨i, X⟩)) 24 7).toNat = 0x03 := by rw [fld_of hE 0x03#7 (by simp only [BitVec.toNat_ofNat]; omega)]; rfl
  refine decode_of hM (.inr rfl) ?_ hW (fld_of hE _ (by omega))
  show decodeRaw _ X = _
  rw [raw03 hM]
  generalize encodeHost c (.smulhU64Imm d a ⟨i, X⟩) = W at *
  have f0 : fld W 19 5 = d := fld_of hE _ (by omega)
  have f1 : fld W 14 5 = a := fld_of hE _ (by omega)
  have f2 : fld W 5 9 = i := fld_of hE _ (by omega)
  have g0_5 : fld W 0 5 = 10#5 := fld_of hE _ (by simp only [BitVec.toNat_ofNat]; omega)
  rw [dec03, row_no (by simp [g0_5]), row_no (by simp [g0_5]), row_no (by simp [g0_5]), row_no (by simp [g0_5]), row_no (by simp [g0_5]), row_no (by simp [g0_5]), row_no (by simp [g0_5]), row_no (by simp [g0_5]), row_no (by simp [g0_5]), row_no (by simp [g0_5]), row_ok (by simp [g0_5]), f0, f1, f2]
theorem Encoding.sminI64Imm (d : BitVec 5) (a : BitVec 5) (i : Imm 9) : Encoding.Statement (.sminI64Imm d a i) := by
  obtain ⟨i, X⟩ := i
  intro _ hW c
  have := BitVec.isLt c; have := BitVec.isLt d; have := BitVec.isLt a; have := BitVec.isLt i
  have hE : encodeHost c (.sminI64Imm d a ⟨i, X⟩) = BitVec.ofNat 32 (c.toNat * 2 ^ 31 + (d.toNat * 2 ^ 19 + (a.toNat * 2 ^ 14 + (i.toNat * 2 ^ 5 + 0x0300000B)))) := rfl
  have hM : (fld (encodeHost c (.sminI64Imm d a ⟨i, X⟩)) 24 7).toNat = 0x03 := by rw [fld_of hE 0x03#7 (by simp only [BitVec.toNat_ofNat]; omega)]; rfl
  refine decode_of hM (.inr rfl) ?_ hW (fld_of hE _ (by omega))
  show decodeRaw _ X = _
  rw [raw03 hM]
  generalize encodeHost c (.sminI64Imm d a ⟨i, X⟩) = W at *
  have f0 : fld W 19 5 = d := fld_of hE _ (by omega)
  have f1 : fld W 14 5 = a := fld_of hE _ (by omega)
  have f2 : fld W 5 9 = i := fld_of hE _ (by omega)
  have g0_5 : fld W 0 5 = 11#5 := fld_of hE _ (by simp only [BitVec.toNat_ofNat]; omega)
  rw [dec03, row_no (by simp [g0_5]), row_no (by simp [g0_5]), row_no (by simp [g0_5]), row_no (by simp [g0_5]), row_no (by simp [g0_5]), row_no (by simp [g0_5]), row_no (by simp [g0_5]), row_no (by simp [g0_5]), row_no (by simp [g0_5]), row_no (by simp [g0_5]), row_no (by simp [g0_5]), row_ok (by simp [g0_5]), f0, f1, f2]
theorem Encoding.sminU64Imm (d : BitVec 5) (a : BitVec 5) (i : Imm 9) : Encoding.Statement (.sminU64Imm d a i) := by
  obtain ⟨i, X⟩ := i
  intro _ hW c
  have := BitVec.isLt c; have := BitVec.isLt d; have := BitVec.isLt a; have := BitVec.isLt i
  have hE : encodeHost c (.sminU64Imm d a ⟨i, X⟩) = BitVec.ofNat 32 (c.toNat * 2 ^ 31 + (d.toNat * 2 ^ 19 + (a.toNat * 2 ^ 14 + (i.toNat * 2 ^ 5 + 0x0300000C)))) := rfl
  have hM : (fld (encodeHost c (.sminU64Imm d a ⟨i, X⟩)) 24 7).toNat = 0x03 := by rw [fld_of hE 0x03#7 (by simp only [BitVec.toNat_ofNat]; omega)]; rfl
  refine decode_of hM (.inr rfl) ?_ hW (fld_of hE _ (by omega))
  show decodeRaw _ X = _
  rw [raw03 hM]
  generalize encodeHost c (.sminU64Imm d a ⟨i, X⟩) = W at *
  have f0 : fld W 19 5 = d := fld_of hE _ (by omega)
  have f1 : fld W 14 5 = a := fld_of hE _ (by omega)
  have f2 : fld W 5 9 = i := fld_of hE _ (by omega)
  have g0_5 : fld W 0 5 = 12#5 := fld_of hE _ (by simp only [BitVec.toNat_ofNat]; omega)
  rw [dec03, row_no (by simp [g0_5]), row_no (by simp [g0_5]), row_no (by simp [g0_5]), row_no (by simp [g0_5]), row_no (by simp [g0_5]), row_no (by simp [g0_5]), row_no (by simp [g0_5]), row_no (by simp [g0_5]), row_no (by simp [g0_5]), row_no (by simp [g0_5]), row_no (by simp [g0_5]), row_no (by simp [g0_5]), row_ok (by simp [g0_5]), f0, f1, f2]
theorem Encoding.smaxI64Imm (d : BitVec 5) (a : BitVec 5) (i : Imm 9) : Encoding.Statement (.smaxI64Imm d a i) := by
  obtain ⟨i, X⟩ := i
  intro _ hW c
  have := BitVec.isLt c; have := BitVec.isLt d; have := BitVec.isLt a; have := BitVec.isLt i
  have hE : encodeHost c (.smaxI64Imm d a ⟨i, X⟩) = BitVec.ofNat 32 (c.toNat * 2 ^ 31 + (d.toNat * 2 ^ 19 + (a.toNat * 2 ^ 14 + (i.toNat * 2 ^ 5 + 0x0300000D)))) := rfl
  have hM : (fld (encodeHost c (.smaxI64Imm d a ⟨i, X⟩)) 24 7).toNat = 0x03 := by rw [fld_of hE 0x03#7 (by simp only [BitVec.toNat_ofNat]; omega)]; rfl
  refine decode_of hM (.inr rfl) ?_ hW (fld_of hE _ (by omega))
  show decodeRaw _ X = _
  rw [raw03 hM]
  generalize encodeHost c (.smaxI64Imm d a ⟨i, X⟩) = W at *
  have f0 : fld W 19 5 = d := fld_of hE _ (by omega)
  have f1 : fld W 14 5 = a := fld_of hE _ (by omega)
  have f2 : fld W 5 9 = i := fld_of hE _ (by omega)
  have g0_5 : fld W 0 5 = 13#5 := fld_of hE _ (by simp only [BitVec.toNat_ofNat]; omega)
  rw [dec03, row_no (by simp [g0_5]), row_no (by simp [g0_5]), row_no (by simp [g0_5]), row_no (by simp [g0_5]), row_no (by simp [g0_5]), row_no (by simp [g0_5]), row_no (by simp [g0_5]), row_no (by simp [g0_5]), row_no (by simp [g0_5]), row_no (by simp [g0_5]), row_no (by simp [g0_5]), row_no (by simp [g0_5]), row_no (by simp [g0_5]), row_ok (by simp [g0_5]), f0, f1, f2]
theorem Encoding.smaxU64Imm (d : BitVec 5) (a : BitVec 5) (i : Imm 9) : Encoding.Statement (.smaxU64Imm d a i) := by
  obtain ⟨i, X⟩ := i
  intro _ hW c
  have := BitVec.isLt c; have := BitVec.isLt d; have := BitVec.isLt a; have := BitVec.isLt i
  have hE : encodeHost c (.smaxU64Imm d a ⟨i, X⟩) = BitVec.ofNat 32 (c.toNat * 2 ^ 31 + (d.toNat * 2 ^ 19 + (a.toNat * 2 ^ 14 + (i.toNat * 2 ^ 5 + 0x0300000E)))) := rfl
  have hM : (fld (encodeHost c (.smaxU64Imm d a ⟨i, X⟩)) 24 7).toNat = 0x03 := by rw [fld_of hE 0x03#7 (by simp only [BitVec.toNat_ofNat]; omega)]; rfl
  refine decode_of hM (.inr rfl) ?_ hW (fld_of hE _ (by omega))
  show decodeRaw _ X = _
  rw [raw03 hM]
  generalize encodeHost c (.smaxU64Imm d a ⟨i, X⟩) = W at *
  have f0 : fld W 19 5 = d := fld_of hE _ (by omega)
  have f1 : fld W 14 5 = a := fld_of hE _ (by omega)
  have f2 : fld W 5 9 = i := fld_of hE _ (by omega)
  have g0_5 : fld W 0 5 = 14#5 := fld_of hE _ (by simp only [BitVec.toNat_ofNat]; omega)
  rw [dec03, row_no (by simp [g0_5]), row_no (by simp [g0_5]), row_no (by simp [g0_5]), row_no (by simp [g0_5]), row_no (by simp [g0_5]), row_no (by simp [g0_5]), row_no (by simp [g0_5]), row_no (by simp [g0_5]), row_no (by simp [g0_5]), row_no (by simp [g0_5]), row_no (by simp [g0_5]), row_no (by simp [g0_5]), row_no (by simp [g0_5]), row_no (by simp [g0_5]), row_ok (by simp [g0_5]), f0, f1, f2]
theorem Encoding.scmpEq (d : BitVec 5) (a : BitVec 5) (b : BitVec 5) : Encoding.Statement (.scmpEq d a b) := by
  intro _ hW c
  have := BitVec.isLt c; have := BitVec.isLt d; have := BitVec.isLt a; have := BitVec.isLt b
  have hE : encodeHost c (.scmpEq d a b) = BitVec.ofNat 32 (c.toNat * 2 ^ 31 + (d.toNat * 2 ^ 19 + (a.toNat * 2 ^ 14 + (b.toNat * 2 ^ 9 + 0x04000000)))) := rfl
  have hM : (fld (encodeHost c (.scmpEq d a b)) 24 7).toNat = 0x04 := by rw [fld_of hE 0x04#7 (by simp only [BitVec.toNat_ofNat]; omega)]; rfl
  refine decode_of hM (.inl rfl) ?_ hW (fld_of hE _ (by omega))
  rw [raw04 hM]
  generalize encodeHost c (.scmpEq d a b) = W at *
  have f0 : fld W 19 5 = d := fld_of hE _ (by omega)
  have f1 : fld W 14 5 = a := fld_of hE _ (by omega)
  have f2 : fld W 9 5 = b := fld_of hE _ (by omega)
  have g0_9 : fld W 0 9 = 0#9 := fld_of hE _ (by simp only [BitVec.toNat_ofNat]; omega)
  rw [dec04, row_ok (by simp [g0_9]), f0, f1, f2]
theorem Encoding.scmpNe (d : BitVec 5) (a : BitVec 5) (b : BitVec 5) : Encoding.Statement (.scmpNe d a b) := by
  intro _ hW c
  have := BitVec.isLt c; have := BitVec.isLt d; have := BitVec.isLt a; have := BitVec.isLt b
  have hE : encodeHost c (.scmpNe d a b) = BitVec.ofNat 32 (c.toNat * 2 ^ 31 + (d.toNat * 2 ^ 19 + (a.toNat * 2 ^ 14 + (b.toNat * 2 ^ 9 + 0x04000001)))) := rfl
  have hM : (fld (encodeHost c (.scmpNe d a b)) 24 7).toNat = 0x04 := by rw [fld_of hE 0x04#7 (by simp only [BitVec.toNat_ofNat]; omega)]; rfl
  refine decode_of hM (.inl rfl) ?_ hW (fld_of hE _ (by omega))
  rw [raw04 hM]
  generalize encodeHost c (.scmpNe d a b) = W at *
  have f0 : fld W 19 5 = d := fld_of hE _ (by omega)
  have f1 : fld W 14 5 = a := fld_of hE _ (by omega)
  have f2 : fld W 9 5 = b := fld_of hE _ (by omega)
  have g0_9 : fld W 0 9 = 1#9 := fld_of hE _ (by simp only [BitVec.toNat_ofNat]; omega)
  rw [dec04, row_no (by simp [g0_9]), row_ok (by simp [g0_9]), f0, f1, f2]
theorem Encoding.scmpLtI64 (d : BitVec 5) (a : BitVec 5) (b : BitVec 5) : Encoding.Statement (.scmpLtI64 d a b) := by
  intro _ hW c
  have := BitVec.isLt c; have := BitVec.isLt d; have := BitVec.isLt a; have := BitVec.isLt b
  have hE : encodeHost c (.scmpLtI64 d a b) = BitVec.ofNat 32 (c.toNat * 2 ^ 31 + (d.toNat * 2 ^ 19 + (a.toNat * 2 ^ 14 + (b.toNat * 2 ^ 9 + 0x04000002)))) := rfl
  have hM : (fld (encodeHost c (.scmpLtI64 d a b)) 24 7).toNat = 0x04 := by rw [fld_of hE 0x04#7 (by simp only [BitVec.toNat_ofNat]; omega)]; rfl
  refine decode_of hM (.inl rfl) ?_ hW (fld_of hE _ (by omega))
  rw [raw04 hM]
  generalize encodeHost c (.scmpLtI64 d a b) = W at *
  have f0 : fld W 19 5 = d := fld_of hE _ (by omega)
  have f1 : fld W 14 5 = a := fld_of hE _ (by omega)
  have f2 : fld W 9 5 = b := fld_of hE _ (by omega)
  have g0_9 : fld W 0 9 = 2#9 := fld_of hE _ (by simp only [BitVec.toNat_ofNat]; omega)
  rw [dec04, row_no (by simp [g0_9]), row_no (by simp [g0_9]), row_ok (by simp [g0_9]), f0, f1, f2]
theorem Encoding.scmpGeI64 (d : BitVec 5) (a : BitVec 5) (b : BitVec 5) : Encoding.Statement (.scmpGeI64 d a b) := by
  intro _ hW c
  have := BitVec.isLt c; have := BitVec.isLt d; have := BitVec.isLt a; have := BitVec.isLt b
  have hE : encodeHost c (.scmpGeI64 d a b) = BitVec.ofNat 32 (c.toNat * 2 ^ 31 + (d.toNat * 2 ^ 19 + (a.toNat * 2 ^ 14 + (b.toNat * 2 ^ 9 + 0x04000003)))) := rfl
  have hM : (fld (encodeHost c (.scmpGeI64 d a b)) 24 7).toNat = 0x04 := by rw [fld_of hE 0x04#7 (by simp only [BitVec.toNat_ofNat]; omega)]; rfl
  refine decode_of hM (.inl rfl) ?_ hW (fld_of hE _ (by omega))
  rw [raw04 hM]
  generalize encodeHost c (.scmpGeI64 d a b) = W at *
  have f0 : fld W 19 5 = d := fld_of hE _ (by omega)
  have f1 : fld W 14 5 = a := fld_of hE _ (by omega)
  have f2 : fld W 9 5 = b := fld_of hE _ (by omega)
  have g0_9 : fld W 0 9 = 3#9 := fld_of hE _ (by simp only [BitVec.toNat_ofNat]; omega)
  rw [dec04, row_no (by simp [g0_9]), row_no (by simp [g0_9]), row_no (by simp [g0_9]), row_ok (by simp [g0_9]), f0, f1, f2]
theorem Encoding.scmpLtU64 (d : BitVec 5) (a : BitVec 5) (b : BitVec 5) : Encoding.Statement (.scmpLtU64 d a b) := by
  intro _ hW c
  have := BitVec.isLt c; have := BitVec.isLt d; have := BitVec.isLt a; have := BitVec.isLt b
  have hE : encodeHost c (.scmpLtU64 d a b) = BitVec.ofNat 32 (c.toNat * 2 ^ 31 + (d.toNat * 2 ^ 19 + (a.toNat * 2 ^ 14 + (b.toNat * 2 ^ 9 + 0x04000004)))) := rfl
  have hM : (fld (encodeHost c (.scmpLtU64 d a b)) 24 7).toNat = 0x04 := by rw [fld_of hE 0x04#7 (by simp only [BitVec.toNat_ofNat]; omega)]; rfl
  refine decode_of hM (.inl rfl) ?_ hW (fld_of hE _ (by omega))
  rw [raw04 hM]
  generalize encodeHost c (.scmpLtU64 d a b) = W at *
  have f0 : fld W 19 5 = d := fld_of hE _ (by omega)
  have f1 : fld W 14 5 = a := fld_of hE _ (by omega)
  have f2 : fld W 9 5 = b := fld_of hE _ (by omega)
  have g0_9 : fld W 0 9 = 4#9 := fld_of hE _ (by simp only [BitVec.toNat_ofNat]; omega)
  rw [dec04, row_no (by simp [g0_9]), row_no (by simp [g0_9]), row_no (by simp [g0_9]), row_no (by simp [g0_9]), row_ok (by simp [g0_9]), f0, f1, f2]
theorem Encoding.scmpGeU64 (d : BitVec 5) (a : BitVec 5) (b : BitVec 5) : Encoding.Statement (.scmpGeU64 d a b) := by
  intro _ hW c
  have := BitVec.isLt c; have := BitVec.isLt d; have := BitVec.isLt a; have := BitVec.isLt b
  have hE : encodeHost c (.scmpGeU64 d a b) = BitVec.ofNat 32 (c.toNat * 2 ^ 31 + (d.toNat * 2 ^ 19 + (a.toNat * 2 ^ 14 + (b.toNat * 2 ^ 9 + 0x04000005)))) := rfl
  have hM : (fld (encodeHost c (.scmpGeU64 d a b)) 24 7).toNat = 0x04 := by rw [fld_of hE 0x04#7 (by simp only [BitVec.toNat_ofNat]; omega)]; rfl
  refine decode_of hM (.inl rfl) ?_ hW (fld_of hE _ (by omega))
  rw [raw04 hM]
  generalize encodeHost c (.scmpGeU64 d a b) = W at *
  have f0 : fld W 19 5 = d := fld_of hE _ (by omega)
  have f1 : fld W 14 5 = a := fld_of hE _ (by omega)
  have f2 : fld W 9 5 = b := fld_of hE _ (by omega)
  have g0_9 : fld W 0 9 = 5#9 := fld_of hE _ (by simp only [BitVec.toNat_ofNat]; omega)
  rw [dec04, row_no (by simp [g0_9]), row_no (by simp [g0_9]), row_no (by simp [g0_9]), row_no (by simp [g0_9]), row_no (by simp [g0_9]), row_ok (by simp [g0_9]), f0, f1, f2]
theorem Encoding.scmpEqImm (d : BitVec 5) (a : BitVec 5) (i : Imm 9) : Encoding.Statement (.scmpEqImm d a i) := by
  obtain ⟨i, X⟩ := i
  intro _ hW c
  have := BitVec.isLt c; have := BitVec.isLt d; have := BitVec.isLt a; have := BitVec.isLt i
  have hE : encodeHost c (.scmpEqImm d a ⟨i, X⟩) = BitVec.ofNat 32 (c.toNat * 2 ^ 31 + (d.toNat * 2 ^ 19 + (a.toNat * 2 ^ 14 + (i.toNat * 2 ^ 5 + 0x05000000)))) := rfl
  have hM : (fld (encodeHost c (.scmpEqImm d a ⟨i, X⟩)) 24 7).toNat = 0x05 := by rw [fld_of hE 0x05#7 (by simp only [BitVec.toNat_ofNat]; omega)]; rfl
  refine decode_of hM (.inr rfl) ?_ hW (fld_of hE _ (by omega))
  show decodeRaw _ X = _
  rw [raw05 hM]
  generalize encodeHost c (.scmpEqImm d a ⟨i, X⟩) = W at *
  have f0 : fld W 19 5 = d := fld_of hE _ (by omega)
  have f1 : fld W 14 5 = a := fld_of hE _ (by omega)
  have f2 : fld W 5 9 = i := fld_of hE _ (by omega)
  have g0_5 : fld W 0 5 = 0#5 := fld_of hE _ (by simp only [BitVec.toNat_ofNat]; omega)
  rw [dec05, row_ok (by simp [g0_5]), f0, f1, f2]
theorem Encoding.scmpNeImm (d : BitVec 5) (a : BitVec 5) (i : Imm 9) : Encoding.Statement (.scmpNeImm d a i) := by
  obtain ⟨i, X⟩ := i
  intro _ hW c
  have := BitVec.isLt c; have := BitVec.isLt d; have := BitVec.isLt a; have := BitVec.isLt i
  have hE : encodeHost c (.scmpNeImm d a ⟨i, X⟩) = BitVec.ofNat 32 (c.toNat * 2 ^ 31 + (d.toNat * 2 ^ 19 + (a.toNat * 2 ^ 14 + (i.toNat * 2 ^ 5 + 0x05000001)))) := rfl
  have hM : (fld (encodeHost c (.scmpNeImm d a ⟨i, X⟩)) 24 7).toNat = 0x05 := by rw [fld_of hE 0x05#7 (by simp only [BitVec.toNat_ofNat]; omega)]; rfl
  refine decode_of hM (.inr rfl) ?_ hW (fld_of hE _ (by omega))
  show decodeRaw _ X = _
  rw [raw05 hM]
  generalize encodeHost c (.scmpNeImm d a ⟨i, X⟩) = W at *
  have f0 : fld W 19 5 = d := fld_of hE _ (by omega)
  have f1 : fld W 14 5 = a := fld_of hE _ (by omega)
  have f2 : fld W 5 9 = i := fld_of hE _ (by omega)
  have g0_5 : fld W 0 5 = 1#5 := fld_of hE _ (by simp only [BitVec.toNat_ofNat]; omega)
  rw [dec05, row_no (by simp [g0_5]), row_ok (by simp [g0_5]), f0, f1, f2]
theorem Encoding.scmpLtI64Imm (d : BitVec 5) (a : BitVec 5) (i : Imm 9) : Encoding.Statement (.scmpLtI64Imm d a i) := by
  obtain ⟨i, X⟩ := i
  intro _ hW c
  have := BitVec.isLt c; have := BitVec.isLt d; have := BitVec.isLt a; have := BitVec.isLt i
  have hE : encodeHost c (.scmpLtI64Imm d a ⟨i, X⟩) = BitVec.ofNat 32 (c.toNat * 2 ^ 31 + (d.toNat * 2 ^ 19 + (a.toNat * 2 ^ 14 + (i.toNat * 2 ^ 5 + 0x05000002)))) := rfl
  have hM : (fld (encodeHost c (.scmpLtI64Imm d a ⟨i, X⟩)) 24 7).toNat = 0x05 := by rw [fld_of hE 0x05#7 (by simp only [BitVec.toNat_ofNat]; omega)]; rfl
  refine decode_of hM (.inr rfl) ?_ hW (fld_of hE _ (by omega))
  show decodeRaw _ X = _
  rw [raw05 hM]
  generalize encodeHost c (.scmpLtI64Imm d a ⟨i, X⟩) = W at *
  have f0 : fld W 19 5 = d := fld_of hE _ (by omega)
  have f1 : fld W 14 5 = a := fld_of hE _ (by omega)
  have f2 : fld W 5 9 = i := fld_of hE _ (by omega)
  have g0_5 : fld W 0 5 = 2#5 := fld_of hE _ (by simp only [BitVec.toNat_ofNat]; omega)
  rw [dec05, row_no (by simp [g0_5]), row_no (by simp [g0_5]), row_ok (by simp [g0_5]), f0, f1, f2]
theorem Encoding.scmpGeI64Imm (d : BitVec 5) (a : BitVec 5) (i : Imm 9) : Encoding.Statement (.scmpGeI64Imm d a i) := by
  obtain ⟨i, X⟩ := i
  intro _ hW c
  have := BitVec.isLt c; have := BitVec.isLt d; have := BitVec.isLt a; have := BitVec.isLt i
  have hE : encodeHost c (.scmpGeI64Imm d a ⟨i, X⟩) = BitVec.ofNat 32 (c.toNat * 2 ^ 31 + (d.toNat * 2 ^ 19 + (a.toNat * 2 ^ 14 + (i.toNat * 2 ^ 5 + 0x05000003)))) := rfl
  have hM : (fld (encodeHost c (.scmpGeI64Imm d a ⟨i, X⟩)) 24 7).toNat = 0x05 := by rw [fld_of hE 0x05#7 (by simp only [BitVec.toNat_ofNat]; omega)]; rfl
  refine decode_of hM (.inr rfl) ?_ hW (fld_of hE _ (by omega))
  show decodeRaw _ X = _
  rw [raw05 hM]
  generalize encodeHost c (.scmpGeI64Imm d a ⟨i, X⟩) = W at *
  have f0 : fld W 19 5 = d := fld_of hE _ (by omega)
  have f1 : fld W 14 5 = a := fld_of hE _ (by omega)
  have f2 : fld W 5 9 = i := fld_of hE _ (by omega)
  have g0_5 : fld W 0 5 = 3#5 := fld_of hE _ (by simp only [BitVec.toNat_ofNat]; omega)
  rw [dec05, row_no (by simp [g0_5]), row_no (by simp [g0_5]), row_no (by simp [g0_5]), row_ok (by simp [g0_5]), f0, f1, f2]
theorem Encoding.scmpLtU64Imm (d : BitVec 5) (a : BitVec 5) (i : Imm 9) : Encoding.Statement (.scmpLtU64Imm d a i) := by
  obtain ⟨i, X⟩ := i
  intro _ hW c
  have := BitVec.isLt c; have := BitVec.isLt d; have := BitVec.isLt a; have := BitVec.isLt i
  have hE : encodeHost c (.scmpLtU64Imm d a ⟨i, X⟩) = BitVec.ofNat 32 (c.toNat * 2 ^ 31 + (d.toNat * 2 ^ 19 + (a.toNat * 2 ^ 14 + (i.toNat * 2 ^ 5 + 0x05000004)))) := rfl
  have hM : (fld (encodeHost c (.scmpLtU64Imm d a ⟨i, X⟩)) 24 7).toNat = 0x05 := by rw [fld_of hE 0x05#7 (by simp only [BitVec.toNat_ofNat]; omega)]; rfl
  refine decode_of hM (.inr rfl) ?_ hW (fld_of hE _ (by omega))
  show decodeRaw _ X = _
  rw [raw05 hM]
  generalize encodeHost c (.scmpLtU64Imm d a ⟨i, X⟩) = W at *
  have f0 : fld W 19 5 = d := fld_of hE _ (by omega)
  have f1 : fld W 14 5 = a := fld_of hE _ (by omega)
  have f2 : fld W 5 9 = i := fld_of hE _ (by omega)
  have g0_5 : fld W 0 5 = 4#5 := fld_of hE _ (by simp only [BitVec.toNat_ofNat]; omega)
  rw [dec05, row_no (by simp [g0_5]), row_no (by simp [g0_5]), row_no (by simp [g0_5]), row_no (by simp [g0_5]), row_ok (by simp [g0_5]), f0, f1, f2]
theorem Encoding.scmpGeU64Imm (d : BitVec 5) (a : BitVec 5) (i : Imm 9) : Encoding.Statement (.scmpGeU64Imm d a i) := by
  obtain ⟨i, X⟩ := i
  intro _ hW c
  have := BitVec.isLt c; have := BitVec.isLt d; have := BitVec.isLt a; have := BitVec.isLt i
  have hE : encodeHost c (.scmpGeU64Imm d a ⟨i, X⟩) = BitVec.ofNat 32 (c.toNat * 2 ^ 31 + (d.toNat * 2 ^ 19 + (a.toNat * 2 ^ 14 + (i.toNat * 2 ^ 5 + 0x05000005)))) := rfl
  have hM : (fld (encodeHost c (.scmpGeU64Imm d a ⟨i, X⟩)) 24 7).toNat = 0x05 := by rw [fld_of hE 0x05#7 (by simp only [BitVec.toNat_ofNat]; omega)]; rfl
  refine decode_of hM (.inr rfl) ?_ hW (fld_of hE _ (by omega))
  show decodeRaw _ X = _
  rw [raw05 hM]
  generalize encodeHost c (.scmpGeU64Imm d a ⟨i, X⟩) = W at *
  have f0 : fld W 19 5 = d := fld_of hE _ (by omega)
  have f1 : fld W 14 5 = a := fld_of hE _ (by omega)
  have f2 : fld W 5 9 = i := fld_of hE _ (by omega)
  have g0_5 : fld W 0 5 = 5#5 := fld_of hE _ (by simp only [BitVec.toNat_ofNat]; omega)
  rw [dec05, row_no (by simp [g0_5]), row_no (by simp [g0_5]), row_no (by simp [g0_5]), row_no (by simp [g0_5]), row_no (by simp [g0_5]), row_ok (by simp [g0_5]), f0, f1, f2]
theorem Encoding.smovi (d : BitVec 5) (i : Imm 19) : Encoding.Statement (.smovi d i) := by
  obtain ⟨i, X⟩ := i
  intro _ hW c
  have := BitVec.isLt c; have := BitVec.isLt d; have := BitVec.isLt i
  have hE : encodeHost c (.smovi d ⟨i, X⟩) = BitVec.ofNat 32 (c.toNat * 2 ^ 31 + (d.toNat * 2 ^ 19 + (i.toNat * 2 ^ 0 + 0x06000000))) := rfl
  have hM : (fld (encodeHost c (.smovi d ⟨i, X⟩)) 24 7).toNat = 0x06 := by rw [fld_of hE 0x06#7 (by simp only [BitVec.toNat_ofNat]; omega)]; rfl
  refine decode_of hM (.inr rfl) ?_ hW (fld_of hE _ (by omega))
  show decodeRaw _ X = _
  rw [raw06 hM]
  generalize encodeHost c (.smovi d ⟨i, X⟩) = W at *
  have f0 : fld W 19 5 = d := fld_of hE _ (by omega)
  have f1 : fld W 0 19 = i := fld_of hE _ (by omega)
  rw [dec06, row_ok (by simp []), f0, f1]
theorem Encoding.br (o : BitVec 24) : Encoding.Statement (.br o) := by
  intro _ hW c
  have := BitVec.isLt c; have := BitVec.isLt o
  have hE : encodeHost c (.br o) = BitVec.ofNat 32 (c.toNat * 2 ^ 31 + (o.toNat * 2 ^ 0 + 0x07000000)) := rfl
  have hM : (fld (encodeHost c (.br o)) 24 7).toNat = 0x07 := by rw [fld_of hE 0x07#7 (by simp only [BitVec.toNat_ofNat]; omega)]; rfl
  refine decode_of hM (.inl rfl) ?_ hW (fld_of hE _ (by omega))
  rw [raw07 hM]
  generalize encodeHost c (.br o) = W at *
  have f0 : fld W 0 24 = o := fld_of hE _ (by omega)
  rw [dec07, row_ok (by simp []), f0]
theorem Encoding.brcEq0 (a : BitVec 5) (o : BitVec 16) : Encoding.Statement (.brcEq0 a o) := by
  intro _ hW c
  have := BitVec.isLt c; have := BitVec.isLt a; have := BitVec.isLt o
  have hE : encodeHost c (.brcEq0 a o) = BitVec.ofNat 32 (c.toNat * 2 ^ 31 + (a.toNat * 2 ^ 16 + (o.toNat * 2 ^ 0 + 0x08000000))) := rfl
  have hM : (fld (encodeHost c (.brcEq0 a o)) 24 7).toNat = 0x08 := by rw [fld_of hE 0x08#7 (by simp only [BitVec.toNat_ofNat]; omega)]; rfl
  refine decode_of hM (.inl rfl) ?_ hW (fld_of hE _ (by omega))
  rw [raw08 hM]
  generalize encodeHost c (.brcEq0 a o) = W at *
  have f0 : fld W 16 5 = a := fld_of hE _ (by omega)
  have f1 : fld W 0 16 = o := fld_of hE _ (by omega)
  have g21_3 : fld W 21 3 = 0#3 := fld_of hE _ (by simp only [BitVec.toNat_ofNat]; omega)
  rw [dec08, row_ok (by simp [g21_3]), f0, f1]
theorem Encoding.brcNe0 (a : BitVec 5) (o : BitVec 16) : Encoding.Statement (.brcNe0 a o) := by
  intro _ hW c
  have := BitVec.isLt c; have := BitVec.isLt a; have := BitVec.isLt o
  have hE : encodeHost c (.brcNe0 a o) = BitVec.ofNat 32 (c.toNat * 2 ^ 31 + (a.toNat * 2 ^ 16 + (o.toNat * 2 ^ 0 + 0x08200000))) := rfl
  have hM : (fld (encodeHost c (.brcNe0 a o)) 24 7).toNat = 0x08 := by rw [fld_of hE 0x08#7 (by simp only [BitVec.toNat_ofNat]; omega)]; rfl
  refine decode_of hM (.inl rfl) ?_ hW (fld_of hE _ (by omega))
  rw [raw08 hM]
  generalize encodeHost c (.brcNe0 a o) = W at *
  have f0 : fld W 16 5 = a := fld_of hE _ (by omega)
  have f1 : fld W 0 16 = o := fld_of hE _ (by omega)
  have g21_3 : fld W 21 3 = 1#3 := fld_of hE _ (by simp only [BitVec.toNat_ofNat]; omega)
  rw [dec08, row_no (by simp [g21_3]), row_ok (by simp [g21_3]), f0, f1]
theorem Encoding.brcLt0 (a : BitVec 5) (o : BitVec 16) : Encoding.Statement (.brcLt0 a o) := by
  intro _ hW c
  have := BitVec.isLt c; have := BitVec.isLt a; have := BitVec.isLt o
  have hE : encodeHost c (.brcLt0 a o) = BitVec.ofNat 32 (c.toNat * 2 ^ 31 + (a.toNat * 2 ^ 16 + (o.toNat * 2 ^ 0 + 0x08400000))) := rfl
  have hM : (fld (encodeHost c (.brcLt0 a o)) 24 7).toNat = 0x08 := by rw [fld_of hE 0x08#7 (by simp only [BitVec.toNat_ofNat]; omega)]; rfl
  refine decode_of hM (.inl rfl) ?_ hW (fld_of hE _ (by omega))
  rw [raw08 hM]
  generalize encodeHost c (.brcLt0 a o) = W at *
  have f0 : fld W 16 5 = a := fld_of hE _ (by omega)
  have f1 : fld W 0 16 = o := fld_of hE _ (by omega)
  have g21_3 : fld W 21 3 = 2#3 := fld_of hE _ (by simp only [BitVec.toNat_ofNat]; omega)
  rw [dec08, row_no (by simp [g21_3]), row_no (by simp [g21_3]), row_ok (by simp [g21_3]), f0, f1]
theorem Encoding.brcGe0 (a : BitVec 5) (o : BitVec 16) : Encoding.Statement (.brcGe0 a o) := by
  intro _ hW c
  have := BitVec.isLt c; have := BitVec.isLt a; have := BitVec.isLt o
  have hE : encodeHost c (.brcGe0 a o) = BitVec.ofNat 32 (c.toNat * 2 ^ 31 + (a.toNat * 2 ^ 16 + (o.toNat * 2 ^ 0 + 0x08600000))) := rfl
  have hM : (fld (encodeHost c (.brcGe0 a o)) 24 7).toNat = 0x08 := by rw [fld_of hE 0x08#7 (by simp only [BitVec.toNat_ofNat]; omega)]; rfl
  refine decode_of hM (.inl rfl) ?_ hW (fld_of hE _ (by omega))
  rw [raw08 hM]
  generalize encodeHost c (.brcGe0 a o) = W at *
  have f0 : fld W 16 5 = a := fld_of hE _ (by omega)
  have f1 : fld W 0 16 = o := fld_of hE _ (by omega)
  have g21_3 : fld W 21 3 = 3#3 := fld_of hE _ (by simp only [BitVec.toNat_ofNat]; omega)
  rw [dec08, row_no (by simp [g21_3]), row_no (by simp [g21_3]), row_no (by simp [g21_3]), row_ok (by simp [g21_3]), f0, f1]
theorem Encoding.brcZ (o : BitVec 16) : Encoding.Statement (.brcZ o) := by
  intro _ hW c
  have := BitVec.isLt c; have := BitVec.isLt o
  have hE : encodeHost c (.brcZ o) = BitVec.ofNat 32 (c.toNat * 2 ^ 31 + (o.toNat * 2 ^ 0 + 0x08800000)) := rfl
  have hM : (fld (encodeHost c (.brcZ o)) 24 7).toNat = 0x08 := by rw [fld_of hE 0x08#7 (by simp only [BitVec.toNat_ofNat]; omega)]; rfl
  refine decode_of hM (.inl rfl) ?_ hW (fld_of hE _ (by omega))
  rw [raw08 hM]
  generalize encodeHost c (.brcZ o) = W at *
  have f0 : fld W 0 16 = o := fld_of hE _ (by omega)
  have g21_3 : fld W 21 3 = 4#3 := fld_of hE _ (by simp only [BitVec.toNat_ofNat]; omega)
  have g16_8 : fld W 16 8 = 128#8 := fld_of hE _ (by simp only [BitVec.toNat_ofNat]; omega)
  rw [dec08, row_no (by simp [g21_3]), row_no (by simp [g21_3]), row_no (by simp [g21_3]), row_no (by simp [g21_3]), row_ok (by simp [g16_8]), f0]
theorem Encoding.brcNz (o : BitVec 16) : Encoding.Statement (.brcNz o) := by
  intro _ hW c
  have := BitVec.isLt c; have := BitVec.isLt o
  have hE : encodeHost c (.brcNz o) = BitVec.ofNat 32 (c.toNat * 2 ^ 31 + (o.toNat * 2 ^ 0 + 0x08A00000)) := rfl
  have hM : (fld (encodeHost c (.brcNz o)) 24 7).toNat = 0x08 := by rw [fld_of hE 0x08#7 (by simp only [BitVec.toNat_ofNat]; omega)]; rfl
  refine decode_of hM (.inl rfl) ?_ hW (fld_of hE _ (by omega))
  rw [raw08 hM]
  generalize encodeHost c (.brcNz o) = W at *
  have f0 : fld W 0 16 = o := fld_of hE _ (by omega)
  have g21_3 : fld W 21 3 = 5#3 := fld_of hE _ (by simp only [BitVec.toNat_ofNat]; omega)
  have g16_8 : fld W 16 8 = 160#8 := fld_of hE _ (by simp only [BitVec.toNat_ofNat]; omega)
  rw [dec08, row_no (by simp [g21_3]), row_no (by simp [g21_3]), row_no (by simp [g21_3]), row_no (by simp [g21_3]), row_no (by simp [g16_8]), row_ok (by simp [g16_8]), f0]
theorem Encoding.brcC (o : BitVec 16) : Encoding.Statement (.brcC o) := by
  intro _ hW c
  have := BitVec.isLt c; have := BitVec.isLt o
  have hE : encodeHost c (.brcC o) = BitVec.ofNat 32 (c.toNat * 2 ^ 31 + (o.toNat * 2 ^ 0 + 0x08C00000)) := rfl
  have hM : (fld (encodeHost c (.brcC o)) 24 7).toNat = 0x08 := by rw [fld_of hE 0x08#7 (by simp only [BitVec.toNat_ofNat]; omega)]; rfl
  refine decode_of hM (.inl rfl) ?_ hW (fld_of hE _ (by omega))
  rw [raw08 hM]
  generalize encodeHost c (.brcC o) = W at *
  have f0 : fld W 0 16 = o := fld_of hE _ (by omega)
  have g21_3 : fld W 21 3 = 6#3 := fld_of hE _ (by simp only [BitVec.toNat_ofNat]; omega)
  have g16_8 : fld W 16 8 = 192#8 := fld_of hE _ (by simp only [BitVec.toNat_ofNat]; omega)
  rw [dec08, row_no (by simp [g21_3]), row_no (by simp [g21_3]), row_no (by simp [g21_3]), row_no (by simp [g21_3]), row_no (by simp [g16_8]), row_no (by simp [g16_8]), row_ok (by simp [g16_8]), f0]
theorem Encoding.brcNc (o : BitVec 16) : Encoding.Statement (.brcNc o) := by
  intro _ hW c
  have := BitVec.isLt c; have := BitVec.isLt o
  have hE : encodeHost c (.brcNc o) = BitVec.ofNat 32 (c.toNat * 2 ^ 31 + (o.toNat * 2 ^ 0 + 0x08E00000)) := rfl
  have hM : (fld (encodeHost c (.brcNc o)) 24 7).toNat = 0x08 := by rw [fld_of hE 0x08#7 (by simp only [BitVec.toNat_ofNat]; omega)]; rfl
  refine decode_of hM (.inl rfl) ?_ hW (fld_of hE _ (by omega))
  rw [raw08 hM]
  generalize encodeHost c (.brcNc o) = W at *
  have f0 : fld W 0 16 = o := fld_of hE _ (by omega)
  have g21_3 : fld W 21 3 = 7#3 := fld_of hE _ (by simp only [BitVec.toNat_ofNat]; omega)
  have g16_8 : fld W 16 8 = 224#8 := fld_of hE _ (by simp only [BitVec.toNat_ofNat]; omega)
  rw [dec08, row_no (by simp [g21_3]), row_no (by simp [g21_3]), row_no (by simp [g21_3]), row_no (by simp [g21_3]), row_no (by simp [g16_8]), row_no (by simp [g16_8]), row_no (by simp [g16_8]), row_ok (by simp [g16_8]), f0]
theorem Encoding.call (l : BitVec 3) (o : BitVec 21) : Encoding.Statement (.call l o) := by
  intro _ hW c
  have := BitVec.isLt c; have := BitVec.isLt l; have := BitVec.isLt o
  have hE : encodeHost c (.call l o) = BitVec.ofNat 32 (c.toNat * 2 ^ 31 + (l.toNat * 2 ^ 21 + (o.toNat * 2 ^ 0 + 0x09000000))) := rfl
  have hM : (fld (encodeHost c (.call l o)) 24 7).toNat = 0x09 := by rw [fld_of hE 0x09#7 (by simp only [BitVec.toNat_ofNat]; omega)]; rfl
  refine decode_of hM (.inl rfl) ?_ hW (fld_of hE _ (by omega))
  rw [raw09 hM]
  generalize encodeHost c (.call l o) = W at *
  have f0 : fld W 21 3 = l := fld_of hE _ (by omega)
  have f1 : fld W 0 21 = o := fld_of hE _ (by omega)
  rw [dec09, row_ok (by simp []), f0, f1]
theorem Encoding.ret : Encoding.Statement (.ret) := by
  intro _ hW c
  have := BitVec.isLt c
  have hE : encodeHost c (.ret) = BitVec.ofNat 32 (c.toNat * 2 ^ 31 + 0x0A000000) := rfl
  have hM : (fld (encodeHost c (.ret)) 24 7).toNat = 0x0A := by rw [fld_of hE 0x0A#7 (by simp only [BitVec.toNat_ofNat]; omega)]; rfl
  refine decode_of hM (.inl rfl) ?_ hW (fld_of hE _ (by omega))
  rw [raw0A hM]
  generalize encodeHost c (.ret) = W at *
  have g0_24 : fld W 0 24 = 0#24 := fld_of hE _ (by simp only [BitVec.toNat_ofNat]; omega)
  rw [dec0A, row_ok (by simp [g0_24])]
theorem Encoding.split (a : BitVec 6) (o : BitVec 18) : Encoding.Statement (.split a o) := by
  intro _ hW c
  have := BitVec.isLt c; have := BitVec.isLt a; have := BitVec.isLt o
  have hE : encodeHost c (.split a o) = BitVec.ofNat 32 (c.toNat * 2 ^ 31 + (a.toNat * 2 ^ 18 + (o.toNat * 2 ^ 0 + 0x0B000000))) := rfl
  have hM : (fld (encodeHost c (.split a o)) 24 7).toNat = 0x0B := by rw [fld_of hE 0x0B#7 (by simp only [BitVec.toNat_ofNat]; omega)]; rfl
  refine decode_of hM (.inl rfl) ?_ hW (fld_of hE _ (by omega))
  rw [raw0B hM]
  generalize encodeHost c (.split a o) = W at *
  have f0 : fld W 18 6 = a := fld_of hE _ (by omega)
  have f1 : fld W 0 18 = o := fld_of hE _ (by omega)
  rw [dec0B, row_ok (by simp []), f0, f1]
theorem Encoding.merge : Encoding.Statement (.merge) := by
  intro _ hW c
  have := BitVec.isLt c
  have hE : encodeHost c (.merge) = BitVec.ofNat 32 (c.toNat * 2 ^ 31 + 0x0C000000) := rfl
  have hM : (fld (encodeHost c (.merge)) 24 7).toNat = 0x0C := by rw [fld_of hE 0x0C#7 (by simp only [BitVec.toNat_ofNat]; omega)]; rfl
  refine decode_of hM (.inl rfl) ?_ hW (fld_of hE _ (by omega))
  rw [raw0C hM]
  generalize encodeHost c (.merge) = W at *
  have g0_24 : fld W 0 24 = 0#24 := fld_of hE _ (by simp only [BitVec.toNat_ofNat]; omega)
  rw [dec0C, row_ok (by simp [g0_24])]
theorem Encoding.waitc (n : BitVec 2) (l : BitVec 6) : Encoding.Statement (.waitc n l) := by
  intro _ hW c
  have := BitVec.isLt c; have := BitVec.isLt n; have := BitVec.isLt l
  have hE : encodeHost c (.waitc n l) = BitVec.ofNat 32 (c.toNat * 2 ^ 31 + (n.toNat * 2 ^ 22 + (l.toNat * 2 ^ 16 + 0x0D000000))) := rfl
  have hM : (fld (encodeHost c (.waitc n l)) 24 7).toNat = 0x0D := by rw [fld_of hE 0x0D#7 (by simp only [BitVec.toNat_ofNat]; omega)]; rfl
  refine decode_of hM (.inl rfl) ?_ hW (fld_of hE _ (by omega))
  rw [raw0D hM]
  generalize encodeHost c (.waitc n l) = W at *
  have f0 : fld W 22 2 = n := fld_of hE _ (by omega)
  have f1 : fld W 16 6 = l := fld_of hE _ (by omega)
  have g0_16 : fld W 0 16 = 0#16 := fld_of hE _ (by simp only [BitVec.toNat_ofNat]; omega)
  rw [dec0D, row_ok (by simp [g0_16]), f0, f1]
theorem Encoding.bar (n : BitVec 4) : Encoding.Statement (.bar n) := by
  intro _ hW c
  have := BitVec.isLt c; have := BitVec.isLt n
  have hE : encodeHost c (.bar n) = BitVec.ofNat 32 (c.toNat * 2 ^ 31 + (n.toNat * 2 ^ 20 + 0x0E000000)) := rfl
  have hM : (fld (encodeHost c (.bar n)) 24 7).toNat = 0x0E := by rw [fld_of hE 0x0E#7 (by simp only [BitVec.toNat_ofNat]; omega)]; rfl
  refine decode_of hM (.inl rfl) ?_ hW (fld_of hE _ (by omega))
  rw [raw0E hM]
  generalize encodeHost c (.bar n) = W at *
  have f0 : fld W 20 4 = n := fld_of hE _ (by omega)
  have g0_20 : fld W 0 20 = 0#20 := fld_of hE _ (by simp only [BitVec.toNat_ofNat]; omega)
  rw [dec0E, row_ok (by simp [g0_20]), f0]
theorem Encoding.qbindPush (q : BitVec 2) (h : BitVec 4) : Encoding.Statement (.qbindPush q h) := by
  intro _ hW c
  have := BitVec.isLt c; have := BitVec.isLt q; have := BitVec.isLt h
  have hE : encodeHost c (.qbindPush q h) = BitVec.ofNat 32 (c.toNat * 2 ^ 31 + (q.toNat * 2 ^ 22 + (h.toNat * 2 ^ 18 + 0x0F000000))) := rfl
  have hM : (fld (encodeHost c (.qbindPush q h)) 24 7).toNat = 0x0F := by rw [fld_of hE 0x0F#7 (by simp only [BitVec.toNat_ofNat]; omega)]; rfl
  refine decode_of hM (.inl rfl) ?_ hW (fld_of hE _ (by omega))
  rw [raw0F hM]
  generalize encodeHost c (.qbindPush q h) = W at *
  have f0 : fld W 22 2 = q := fld_of hE _ (by omega)
  have f1 : fld W 18 4 = h := fld_of hE _ (by omega)
  have g0_18 : fld W 0 18 = 0#18 := fld_of hE _ (by simp only [BitVec.toNat_ofNat]; omega)
  rw [dec0F, row_ok (by simp [g0_18]), f0, f1]
theorem Encoding.qbindPop (q : BitVec 2) (h : BitVec 4) : Encoding.Statement (.qbindPop q h) := by
  intro _ hW c
  have := BitVec.isLt c; have := BitVec.isLt q; have := BitVec.isLt h
  have hE : encodeHost c (.qbindPop q h) = BitVec.ofNat 32 (c.toNat * 2 ^ 31 + (q.toNat * 2 ^ 22 + (h.toNat * 2 ^ 18 + 0x0F010000))) := rfl
  have hM : (fld (encodeHost c (.qbindPop q h)) 24 7).toNat = 0x0F := by rw [fld_of hE 0x0F#7 (by simp only [BitVec.toNat_ofNat]; omega)]; rfl
  refine decode_of hM (.inl rfl) ?_ hW (fld_of hE _ (by omega))
  rw [raw0F hM]
  generalize encodeHost c (.qbindPop q h) = W at *
  have f0 : fld W 22 2 = q := fld_of hE _ (by omega)
  have f1 : fld W 18 4 = h := fld_of hE _ (by omega)
  have g0_18 : fld W 0 18 = 65536#18 := fld_of hE _ (by simp only [BitVec.toNat_ofNat]; omega)
  rw [dec0F, row_no (by simp [g0_18]), row_ok (by simp [g0_18]), f0, f1]
theorem Encoding.qbindUnbind (q : BitVec 2) : Encoding.Statement (.qbindUnbind q) := by
  intro _ hW c
  have := BitVec.isLt c; have := BitVec.isLt q
  have hE : encodeHost c (.qbindUnbind q) = BitVec.ofNat 32 (c.toNat * 2 ^ 31 + (q.toNat * 2 ^ 22 + 0x0F020000)) := rfl
  have hM : (fld (encodeHost c (.qbindUnbind q)) 24 7).toNat = 0x0F := by rw [fld_of hE 0x0F#7 (by simp only [BitVec.toNat_ofNat]; omega)]; rfl
  refine decode_of hM (.inl rfl) ?_ hW (fld_of hE _ (by omega))
  rw [raw0F hM]
  generalize encodeHost c (.qbindUnbind q) = W at *
  have f0 : fld W 22 2 = q := fld_of hE _ (by omega)
  have g0_18 : fld W 0 18 = 131072#18 := fld_of hE _ (by simp only [BitVec.toNat_ofNat]; omega)
  have g0_22 : fld W 0 22 = 131072#22 := fld_of hE _ (by simp only [BitVec.toNat_ofNat]; omega)
  rw [dec0F, row_no (by simp [g0_18]), row_no (by simp [g0_18]), row_ok (by simp [g0_22]), f0]
theorem Encoding.sstat (d : BitVec 5) (r : BitVec 6) (l : BitVec 1) : Encoding.Statement (.sstat d r l) := by
  intro _ hW c
  have := BitVec.isLt c; have := BitVec.isLt d; have := BitVec.isLt r; have := BitVec.isLt l
  have hE : encodeHost c (.sstat d r l) = BitVec.ofNat 32 (c.toNat * 2 ^ 31 + (d.toNat * 2 ^ 19 + (r.toNat * 2 ^ 13 + (l.toNat * 2 ^ 12 + 0x10000000)))) := rfl
  have hM : (fld (encodeHost c (.sstat d r l)) 24 7).toNat = 0x10 := by rw [fld_of hE 0x10#7 (by simp only [BitVec.toNat_ofNat]; omega)]; rfl
  refine decode_of hM (.inl rfl) ?_ hW (fld_of hE _ (by omega))
  rw [raw10 hM]
  generalize encodeHost c (.sstat d r l) = W at *
  have f0 : fld W 19 5 = d := fld_of hE _ (by omega)
  have f1 : fld W 13 6 = r := fld_of hE _ (by omega)
  have f2 : fld W 12 1 = l := fld_of hE _ (by omega)
  have g0_12 : fld W 0 12 = 0#12 := fld_of hE _ (by simp only [BitVec.toNat_ofNat]; omega)
  rw [dec10, row_ok (by simp [g0_12]), f0, f1, f2]
theorem Encoding.smaskRd (s : BitVec 5) : Encoding.Statement (.smaskRd s) := by
  intro _ hW c
  have := BitVec.isLt c; have := BitVec.isLt s
  have hE : encodeHost c (.smaskRd s) = BitVec.ofNat 32 (c.toNat * 2 ^ 31 + (s.toNat * 2 ^ 19 + 0x11000000)) := rfl
  have hM : (fld (encodeHost c (.smaskRd s)) 24 7).toNat = 0x11 := by rw [fld_of hE 0x11#7 (by simp only [BitVec.toNat_ofNat]; omega)]; rfl
  refine decode_of hM (.inl rfl) ?_ hW (fld_of hE _ (by omega))
  rw [raw11 hM]
  generalize encodeHost c (.smaskRd s) = W at *
  have f0 : fld W 19 5 = s := fld_of hE _ (by omega)
  have g0_19 : fld W 0 19 = 0#19 := fld_of hE _ (by simp only [BitVec.toNat_ofNat]; omega)
  rw [dec11, row_ok (by simp [g0_19]), f0]
theorem Encoding.smaskWr (s : BitVec 5) : Encoding.Statement (.smaskWr s) := by
  intro _ hW c
  have := BitVec.isLt c; have := BitVec.isLt s
  have hE : encodeHost c (.smaskWr s) = BitVec.ofNat 32 (c.toNat * 2 ^ 31 + (s.toNat * 2 ^ 19 + 0x11040000)) := rfl
  have hM : (fld (encodeHost c (.smaskWr s)) 24 7).toNat = 0x11 := by rw [fld_of hE 0x11#7 (by simp only [BitVec.toNat_ofNat]; omega)]; rfl
  refine decode_of hM (.inl rfl) ?_ hW (fld_of hE _ (by omega))
  rw [raw11 hM]
  generalize encodeHost c (.smaskWr s) = W at *
  have f0 : fld W 19 5 = s := fld_of hE _ (by omega)
  have g0_19 : fld W 0 19 = 262144#19 := fld_of hE _ (by simp only [BitVec.toNat_ofNat]; omega)
  rw [dec11, row_no (by simp [g0_19]), row_ok (by simp [g0_19]), f0]
theorem Encoding.sflags (d : BitVec 5) (f : BitVec 3) : Encoding.Statement (.sflags d f) := by
  intro _ hW c
  have := BitVec.isLt c; have := BitVec.isLt d; have := BitVec.isLt f
  have hE : encodeHost c (.sflags d f) = BitVec.ofNat 32 (c.toNat * 2 ^ 31 + (d.toNat * 2 ^ 19 + (f.toNat * 2 ^ 16 + 0x12000000))) := rfl
  have hM : (fld (encodeHost c (.sflags d f)) 24 7).toNat = 0x12 := by rw [fld_of hE 0x12#7 (by simp only [BitVec.toNat_ofNat]; omega)]; rfl
  refine decode_of hM (.inl rfl) ?_ hW (fld_of hE _ (by omega))
  rw [raw12 hM]
  generalize encodeHost c (.sflags d f) = W at *
  have f0 : fld W 19 5 = d := fld_of hE _ (by omega)
  have f1 : fld W 16 3 = f := fld_of hE _ (by omega)
  have g0_16 : fld W 0 16 = 0#16 := fld_of hE _ (by simp only [BitVec.toNat_ofNat]; omega)
  rw [dec12, row_ok (by simp [g0_16]), f0, f1]
theorem Encoding.slane (d : BitVec 5) (a : BitVec 6) (l : BitVec 6) : Encoding.Statement (.slane d a l) := by
  intro _ hW c
  have := BitVec.isLt c; have := BitVec.isLt d; have := BitVec.isLt a; have := BitVec.isLt l
  have hE : encodeHost c (.slane d a l) = BitVec.ofNat 32 (c.toNat * 2 ^ 31 + (d.toNat * 2 ^ 19 + (a.toNat * 2 ^ 13 + (l.toNat * 2 ^ 7 + 0x13000000)))) := rfl
  have hM : (fld (encodeHost c (.slane d a l)) 24 7).toNat = 0x13 := by rw [fld_of hE 0x13#7 (by simp only [BitVec.toNat_ofNat]; omega)]; rfl
  refine decode_of hM (.inl rfl) ?_ hW (fld_of hE _ (by omega))
  rw [raw13 hM]
  generalize encodeHost c (.slane d a l) = W at *
  have f0 : fld W 19 5 = d := fld_of hE _ (by omega)
  have f1 : fld W 13 6 = a := fld_of hE _ (by omega)
  have f2 : fld W 7 6 = l := fld_of hE _ (by omega)
  have g0_7 : fld W 0 7 = 0#7 := fld_of hE _ (by simp only [BitVec.toNat_ofNat]; omega)
  rw [dec13, row_ok (by simp [g0_7]), f0, f1, f2]
theorem Encoding.vaddInt (d : BitVec 6) (s : BitVec 1) (a : BitVec 6) (b : BitVec 6) (g : BitVec 1) (t : BitVec 1) (y : BitVec 3) : Encoding.Statement (.vaddInt d s a b g t y) := by
  intro _ hW c
  have := BitVec.isLt c; have := BitVec.isLt d; have := BitVec.isLt s; have := BitVec.isLt a; have := BitVec.isLt b; have := BitVec.isLt g; have := BitVec.isLt t; have := BitVec.isLt y
  have hE : encodeHost c (.vaddInt d s a b g t y) = BitVec.ofNat 32 (c.toNat * 2 ^ 31 + (d.toNat * 2 ^ 18 + (s.toNat * 2 ^ 17 + (a.toNat * 2 ^ 11 + (b.toNat * 2 ^ 5 + (g.toNat * 2 ^ 4 + (t.toNat * 2 ^ 3 + (y.toNat * 2 ^ 0 + 0x18000000)))))))) := rfl
  have hM : (fld (encodeHost c (.vaddInt d s a b g t y)) 24 7).toNat = 0x18 := by rw [fld_of hE 0x18#7 (by simp only [BitVec.toNat_ofNat]; omega)]; rfl
  refine decode_of hM (.inl rfl) ?_ hW (fld_of hE _ (by omega))
  rw [raw18 hM]
  generalize encodeHost c (.vaddInt d s a b g t y) = W at *
  have f0 : fld W 18 6 = d := fld_of hE _ (by omega)
  have f1 : fld W 17 1 = s := fld_of hE _ (by omega)
  have f2 : fld W 11 6 = a := fld_of hE _ (by omega)
  have f3 : fld W 5 6 = b := fld_of hE _ (by omega)
  have f4 : fld W 4 1 = g := fld_of hE _ (by omega)
  have f5 : fld W 3 1 = t := fld_of hE _ (by omega)
  have f6 : fld W 0 3 = y := fld_of hE _ (by omega)
  rw [dec18, row_ok (by simp []), f0, f1, f2, f3, f4, f5, f6]
theorem Encoding.vsubInt (d : BitVec 6) (s : BitVec 1) (a : BitVec 6) (b : BitVec 6) (g : BitVec 1) (t : BitVec 1) (y : BitVec 3) : Encoding.Statement (.vsubInt d s a b g t y) := by
  intro _ hW c
  have := BitVec.isLt c; have := BitVec.isLt d; have := BitVec.isLt s; have := BitVec.isLt a; have := BitVec.isLt b; have := BitVec.isLt g; have := BitVec.isLt t; have := BitVec.isLt y
  have hE : encodeHost c (.vsubInt d s a b g t y) = BitVec.ofNat 32 (c.toNat * 2 ^ 31 + (d.toNat * 2 ^ 18 + (s.toNat * 2 ^ 17 + (a.toNat * 2 ^ 11 + (b.toNat * 2 ^ 5 + (g.toNat * 2 ^ 4 + (t.toNat * 2 ^ 3 + (y.toNat * 2 ^ 0 + 0x19000000)))))))) := rfl
  have hM : (fld (encodeHost c (.vsubInt d s a b g t y)) 24 7).toNat = 0x19 := by rw [fld_of hE 0x19#7 (by simp only [BitVec.toNat_ofNat]; omega)]; rfl
  refine decode_of hM (.inl rfl) ?_ hW (fld_of hE _ (by omega))
  rw [raw19 hM]
  generalize encodeHost c (.vsubInt d s a b g t y) = W at *
  have f0 : fld W 18 6 = d := fld_of hE _ (by omega)
  have f1 : fld W 17 1 = s := fld_of hE _ (by omega)
  have f2 : fld W 11 6 = a := fld_of hE _ (by omega)
  have f3 : fld W 5 6 = b := fld_of hE _ (by omega)
  have f4 : fld W 4 1 = g := fld_of hE _ (by omega)
  have f5 : fld W 3 1 = t := fld_of hE _ (by omega)
  have f6 : fld W 0 3 = y := fld_of hE _ (by omega)
  rw [dec19, row_ok (by simp []), f0, f1, f2, f3, f4, f5, f6]
theorem Encoding.vmulInt (d : BitVec 6) (s : BitVec 1) (a : BitVec 6) (b : BitVec 6) (t : BitVec 1) (y : BitVec 3) : Encoding.Statement (.vmulInt d s a b t y) := by
  intro _ hW c
  have := BitVec.isLt c; have := BitVec.isLt d; have := BitVec.isLt s; have := BitVec.isLt a; have := BitVec.isLt b; have := BitVec.isLt t; have := BitVec.isLt y
  have hE : encodeHost c (.vmulInt d s a b t y) = BitVec.ofNat 32 (c.toNat * 2 ^ 31 + (d.toNat * 2 ^ 18 + (s.toNat * 2 ^ 17 + (a.toNat * 2 ^ 11 + (b.toNat * 2 ^ 5 + (t.toNat * 2 ^ 3 + (y.toNat * 2 ^ 0 + 0x1A000000))))))) := rfl
  have hM : (fld (encodeHost c (.vmulInt d s a b t y)) 24 7).toNat = 0x1A := by rw [fld_of hE 0x1A#7 (by simp only [BitVec.toNat_ofNat]; omega)]; rfl
  refine decode_of hM (.inl rfl) ?_ hW (fld_of hE _ (by omega))
  rw [raw1A hM]
  generalize encodeHost c (.vmulInt d s a b t y) = W at *
  have f0 : fld W 18 6 = d := fld_of hE _ (by omega)
  have f1 : fld W 17 1 = s := fld_of hE _ (by omega)
  have f2 : fld W 11 6 = a := fld_of hE _ (by omega)
  have f3 : fld W 5 6 = b := fld_of hE _ (by omega)
  have f4 : fld W 3 1 = t := fld_of hE _ (by omega)
  have f5 : fld W 0 3 = y := fld_of hE _ (by omega)
  have g4_1 : fld W 4 1 = 0#1 := fld_of hE _ (by simp only [BitVec.toNat_ofNat]; omega)
  rw [dec1A, row_ok (by simp [g4_1]), f0, f1, f2, f3, f4, f5]
theorem Encoding.vmulh (d : BitVec 6) (s : BitVec 1) (a : BitVec 6) (b : BitVec 6) (y : BitVec 2) : Encoding.Statement (.vmulh d s a b y) := by
  intro _ hW c
  have := BitVec.isLt c; have := BitVec.isLt d; have := BitVec.isLt s; have := BitVec.isLt a; have := BitVec.isLt b; have := BitVec.isLt y
  have hE : encodeHost c (.vmulh d s a b y) = BitVec.ofNat 32 (c.toNat * 2 ^ 31 + (d.toNat * 2 ^ 18 + (s.toNat * 2 ^ 17 + (a.toNat * 2 ^ 11 + (b.toNat * 2 ^ 5 + (y.toNat * 2 ^ 0 + 0x1B000000)))))) := rfl
  have hM : (fld (encodeHost c (.vmulh d s a b y)) 24 7).toNat = 0x1B := by rw [fld_of hE 0x1B#7 (by simp only [BitVec.toNat_ofNat]; omega)]; rfl
  refine decode_of hM (.inl rfl) ?_ hW (fld_of hE _ (by omega))
  rw [raw1B hM]
  generalize encodeHost c (.vmulh d s a b y) = W at *
  have f0 : fld W 18 6 = d := fld_of hE _ (by omega)
  have f1 : fld W 17 1 = s := fld_of hE _ (by omega)
  have f2 : fld W 11 6 = a := fld_of hE _ (by omega)
  have f3 : fld W 5 6 = b := fld_of hE _ (by omega)
  have f4 : fld W 0 2 = y := fld_of hE _ (by omega)
  have g2_3 : fld W 2 3 = 0#3 := fld_of hE _ (by simp only [BitVec.toNat_ofNat]; omega)
  rw [dec1B, row_ok (by simp [g2_3]), f0, f1, f2, f3, f4]
theorem Encoding.vmad (d : BitVec 6) (s : BitVec 1) (a : BitVec 6) (b : BitVec 6) (t : BitVec 1) (y : BitVec 3) : Encoding.Statement (.vmad d s a b t y) := by
  intro _ hW c
  have := BitVec.isLt c; have := BitVec.isLt d; have := BitVec.isLt s; have := BitVec.isLt a; have := BitVec.isLt b; have := BitVec.isLt t; have := BitVec.isLt y
  have hE : encodeHost c (.vmad d s a b t y) = BitVec.ofNat 32 (c.toNat * 2 ^ 31 + (d.toNat * 2 ^ 18 + (s.toNat * 2 ^ 17 + (a.toNat * 2 ^ 11 + (b.toNat * 2 ^ 5 + (t.toNat * 2 ^ 3 + (y.toNat * 2 ^ 0 + 0x1C000000))))))) := rfl
  have hM : (fld (encodeHost c (.vmad d s a b t y)) 24 7).toNat = 0x1C := by rw [fld_of hE 0x1C#7 (by simp only [BitVec.toNat_ofNat]; omega)]; rfl
  refine decode_of hM (.inl rfl) ?_ hW (fld_of hE _ (by omega))
  rw [raw1C hM]
  generalize encodeHost c (.vmad d s a b t y) = W at *
  have f0 : fld W 18 6 = d := fld_of hE _ (by omega)
  have f1 : fld W 17 1 = s := fld_of hE _ (by omega)
  have f2 : fld W 11 6 = a := fld_of hE _ (by omega)
  have f3 : fld W 5 6 = b := fld_of hE _ (by omega)
  have f4 : fld W 3 1 = t := fld_of hE _ (by omega)
  have f5 : fld W 0 3 = y := fld_of hE _ (by omega)
  have g4_1 : fld W 4 1 = 0#1 := fld_of hE _ (by simp only [BitVec.toNat_ofNat]; omega)
  rw [dec1C, row_ok (by simp [g4_1]), f0, f1, f2, f3, f4, f5]
theorem Encoding.vminInt (d : BitVec 6) (s : BitVec 1) (a : BitVec 6) (b : BitVec 6) (y : BitVec 3) : Encoding.Statement (.vminInt d s a b y) := by
  intro _ hW c
  have := BitVec.isLt c; have := BitVec.isLt d; have := BitVec.isLt s; have := BitVec.isLt a; have := BitVec.isLt b; have := BitVec.isLt y
  have hE : encodeHost c (.vminInt d s a b y) = BitVec.ofNat 32 (c.toNat * 2 ^ 31 + (d.toNat * 2 ^ 18 + (s.toNat * 2 ^ 17 + (a.toNat * 2 ^ 11 + (b.toNat * 2 ^ 5 + (y.toNat * 2 ^ 0 + 0x1D000000)))))) := rfl
  have hM : (fld (encodeHost c (.vminInt d s a b y)) 24 7).toNat = 0x1D := by rw [fld_of hE 0x1D#7 (by simp only [BitVec.toNat_ofNat]; omega)]; rfl
  refine decode_of hM (.inl rfl) ?_ hW (fld_of hE _ (by omega))
  rw [raw1D hM]
  generalize encodeHost c (.vminInt d s a b y) = W at *
  have f0 : fld W 18 6 = d := fld_of hE _ (by omega)
  have f1 : fld W 17 1 = s := fld_of hE _ (by omega)
  have f2 : fld W 11 6 = a := fld_of hE _ (by omega)
  have f3 : fld W 5 6 = b := fld_of hE _ (by omega)
  have f4 : fld W 0 3 = y := fld_of hE _ (by omega)
  have g3_2 : fld W 3 2 = 0#2 := fld_of hE _ (by simp only [BitVec.toNat_ofNat]; omega)
  rw [dec1D, row_ok (by simp [g3_2]), f0, f1, f2, f3, f4]
theorem Encoding.vmaxInt (d : BitVec 6) (s : BitVec 1) (a : BitVec 6) (b : BitVec 6) (y : BitVec 3) : Encoding.Statement (.vmaxInt d s a b y) := by
  intro _ hW c
  have := BitVec.isLt c; have := BitVec.isLt d; have := BitVec.isLt s; have := BitVec.isLt a; have := BitVec.isLt b; have := BitVec.isLt y
  have hE : encodeHost c (.vmaxInt d s a b y) = BitVec.ofNat 32 (c.toNat * 2 ^ 31 + (d.toNat * 2 ^ 18 + (s.toNat * 2 ^ 17 + (a.toNat * 2 ^ 11 + (b.toNat * 2 ^ 5 + (y.toNat * 2 ^ 0 + 0x1E000000)))))) := rfl
  have hM : (fld (encodeHost c (.vmaxInt d s a b y)) 24 7).toNat = 0x1E := by rw [fld_of hE 0x1E#7 (by simp only [BitVec.toNat_ofNat]; omega)]; rfl
  refine decode_of hM (.inl rfl) ?_ hW (fld_of hE _ (by omega))
  rw [raw1E hM]
  generalize encodeHost c (.vmaxInt d s a b y) = W at *
  have f0 : fld W 18 6 = d := fld_of hE _ (by omega)
  have f1 : fld W 17 1 = s := fld_of hE _ (by omega)
  have f2 : fld W 11 6 = a := fld_of hE _ (by omega)
  have f3 : fld W 5 6 = b := fld_of hE _ (by omega)
  have f4 : fld W 0 3 = y := fld_of hE _ (by omega)
  have g3_2 : fld W 3 2 = 0#2 := fld_of hE _ (by simp only [BitVec.toNat_ofNat]; omega)
  rw [dec1E, row_ok (by simp [g3_2]), f0, f1, f2, f3, f4]
theorem Encoding.vabsd (d : BitVec 6) (s : BitVec 1) (a : BitVec 6) (b : BitVec 6) (y : BitVec 3) : Encoding.Statement (.vabsd d s a b y) := by
  intro _ hW c
  have := BitVec.isLt c; have := BitVec.isLt d; have := BitVec.isLt s; have := BitVec.isLt a; have := BitVec.isLt b; have := BitVec.isLt y
  have hE : encodeHost c (.vabsd d s a b y) = BitVec.ofNat 32 (c.toNat * 2 ^ 31 + (d.toNat * 2 ^ 18 + (s.toNat * 2 ^ 17 + (a.toNat * 2 ^ 11 + (b.toNat * 2 ^ 5 + (y.toNat * 2 ^ 0 + 0x1F000000)))))) := rfl
  have hM : (fld (encodeHost c (.vabsd d s a b y)) 24 7).toNat = 0x1F := by rw [fld_of hE 0x1F#7 (by simp only [BitVec.toNat_ofNat]; omega)]; rfl
  refine decode_of hM (.inl rfl) ?_ hW (fld_of hE _ (by omega))
  rw [raw1F hM]
  generalize encodeHost c (.vabsd d s a b y) = W at *
  have f0 : fld W 18 6 = d := fld_of hE _ (by omega)
  have f1 : fld W 17 1 = s := fld_of hE _ (by omega)
  have f2 : fld W 11 6 = a := fld_of hE _ (by omega)
  have f3 : fld W 5 6 = b := fld_of hE _ (by omega)
  have f4 : fld W 0 3 = y := fld_of hE _ (by omega)
  have g3_2 : fld W 3 2 = 0#2 := fld_of hE _ (by simp only [BitVec.toNat_ofNat]; omega)
  rw [dec1F, row_ok (by simp [g3_2]), f0, f1, f2, f3, f4]
theorem Encoding.vand (d : BitVec 6) (s : BitVec 1) (a : BitVec 6) (b : BitVec 6) (g : BitVec 1) (y : BitVec 1) : Encoding.Statement (.vand d s a b g y) := by
  intro _ hW c
  have := BitVec.isLt c; have := BitVec.isLt d; have := BitVec.isLt s; have := BitVec.isLt a; have := BitVec.isLt b; have := BitVec.isLt g; have := BitVec.isLt y
  have hE : encodeHost c (.vand d s a b g y) = BitVec.ofNat 32 (c.toNat * 2 ^ 31 + (d.toNat * 2 ^ 18 + (s.toNat * 2 ^ 17 + (a.toNat * 2 ^ 11 + (b.toNat * 2 ^ 5 + (g.toNat * 2 ^ 4 + (y.toNat * 2 ^ 1 + 0x20000000))))))) := rfl
  have hM : (fld (encodeHost c (.vand d s a b g y)) 24 7).toNat = 0x20 := by rw [fld_of hE 0x20#7 (by simp only [BitVec.toNat_ofNat]; omega)]; rfl
  refine decode_of hM (.inl rfl) ?_ hW (fld_of hE _ (by omega))
  rw [raw20 hM]
  generalize encodeHost c (.vand d s a b g y) = W at *
  have f0 : fld W 18 6 = d := fld_of hE _ (by omega)
  have f1 : fld W 17 1 = s := fld_of hE _ (by omega)
  have f2 : fld W 11 6 = a := fld_of hE _ (by omega)
  have f3 : fld W 5 6 = b := fld_of hE _ (by omega)
  have f4 : fld W 4 1 = g := fld_of hE _ (by omega)
  have f5 : fld W 1 1 = y := fld_of hE _ (by omega)
  have g0_1 : fld W 0 1 = 0#1 := fld_of hE _ (by simp only [BitVec.toNat_ofNat]; omega)
  have g2_2 : fld W 2 2 = 0#2 := fld_of hE _ (by simp only [BitVec.toNat_ofNat]; omega)
  rw [dec20, row_ok (by simp [g0_1, g2_2]), f0, f1, f2, f3, f4, f5]
theorem Encoding.vor (d : BitVec 6) (s : BitVec 1) (a : BitVec 6) (b : BitVec 6) (g : BitVec 1) (y : BitVec 1) : Encoding.Statement (.vor d s a b g y) := by
  intro _ hW c
  have := BitVec.isLt c; have := BitVec.isLt d; have := BitVec.isLt s; have := BitVec.isLt a; have := BitVec.isLt b; have := BitVec.isLt g; have := BitVec.isLt y
  have hE : encodeHost c (.vor d s a b g y) = BitVec.ofNat 32 (c.toNat * 2 ^ 31 + (d.toNat * 2 ^ 18 + (s.toNat * 2 ^ 17 + (a.toNat * 2 ^ 11 + (b.toNat * 2 ^ 5 + (g.toNat * 2 ^ 4 + (y.toNat * 2 ^ 1 + 0x21000000))))))) := rfl
  have hM : (fld (encodeHost c (.vor d s a b g y)) 24 7).toNat = 0x21 := by rw [fld_of hE 0x21#7 (by simp only [BitVec.toNat_ofNat]; omega)]; rfl
  refine decode_of hM (.inl rfl) ?_ hW (fld_of hE _ (by omega))
  rw [raw21 hM]
  generalize encodeHost c (.vor d s a b g y) = W at *
  have f0 : fld W 18 6 = d := fld_of hE _ (by omega)
  have f1 : fld W 17 1 = s := fld_of hE _ (by omega)
  have f2 : fld W 11 6 = a := fld_of hE _ (by omega)
  have f3 : fld W 5 6 = b := fld_of hE _ (by omega)
  have f4 : fld W 4 1 = g := fld_of hE _ (by omega)
  have f5 : fld W 1 1 = y := fld_of hE _ (by omega)
  have g0_1 : fld W 0 1 = 0#1 := fld_of hE _ (by simp only [BitVec.toNat_ofNat]; omega)
  have g2_2 : fld W 2 2 = 0#2 := fld_of hE _ (by simp only [BitVec.toNat_ofNat]; omega)
  rw [dec21, row_ok (by simp [g0_1, g2_2]), f0, f1, f2, f3, f4, f5]
theorem Encoding.vxor (d : BitVec 6) (s : BitVec 1) (a : BitVec 6) (b : BitVec 6) (g : BitVec 1) (y : BitVec 1) : Encoding.Statement (.vxor d s a b g y) := by
  intro _ hW c
  have := BitVec.isLt c; have := BitVec.isLt d; have := BitVec.isLt s; have := BitVec.isLt a; have := BitVec.isLt b; have := BitVec.isLt g; have := BitVec.isLt y
  have hE : encodeHost c (.vxor d s a b g y) = BitVec.ofNat 32 (c.toNat * 2 ^ 31 + (d.toNat * 2 ^ 18 + (s.toNat * 2 ^ 17 + (a.toNat * 2 ^ 11 + (b.toNat * 2 ^ 5 + (g.toNat * 2 ^ 4 + (y.toNat * 2 ^ 1 + 0x22000000))))))) := rfl
  have hM : (fld (encodeHost c (.vxor d s a b g y)) 24 7).toNat = 0x22 := by rw [fld_of hE 0x22#7 (by simp only [BitVec.toNat_ofNat]; omega)]; rfl
  refine decode_of hM (.inl rfl) ?_ hW (fld_of hE _ (by omega))
  rw [raw22 hM]
  generalize encodeHost c (.vxor d s a b g y) = W at *
  have f0 : fld W 18 6 = d := fld_of hE _ (by omega)
  have f1 : fld W 17 1 = s := fld_of hE _ (by omega)
  have f2 : fld W 11 6 = a := fld_of hE _ (by omega)
  have f3 : fld W 5 6 = b := fld_of hE _ (by omega)
  have f4 : fld W 4 1 = g := fld_of hE _ (by omega)
  have f5 : fld W 1 1 = y := fld_of hE _ (by omega)
  have g0_1 : fld W 0 1 = 0#1 := fld_of hE _ (by simp only [BitVec.toNat_ofNat]; omega)
  have g2_2 : fld W 2 2 = 0#2 := fld_of hE _ (by simp only [BitVec.toNat_ofNat]; omega)
  rw [dec22, row_ok (by simp [g0_1, g2_2]), f0, f1, f2, f3, f4, f5]
theorem Encoding.vandn (d : BitVec 6) (s : BitVec 1) (a : BitVec 6) (b : BitVec 6) (g : BitVec 1) (y : BitVec 1) : Encoding.Statement (.vandn d s a b g y) := by
  intro _ hW c
  have := BitVec.isLt c; have := BitVec.isLt d; have := BitVec.isLt s; have := BitVec.isLt a; have := BitVec.isLt b; have := BitVec.isLt g; have := BitVec.isLt y
  have hE : encodeHost c (.vandn d s a b g y) = BitVec.ofNat 32 (c.toNat * 2 ^ 31 + (d.toNat * 2 ^ 18 + (s.toNat * 2 ^ 17 + (a.toNat * 2 ^ 11 + (b.toNat * 2 ^ 5 + (g.toNat * 2 ^ 4 + (y.toNat * 2 ^ 1 + 0x23000000))))))) := rfl
  have hM : (fld (encodeHost c (.vandn d s a b g y)) 24 7).toNat = 0x23 := by rw [fld_of hE 0x23#7 (by simp only [BitVec.toNat_ofNat]; omega)]; rfl
  refine decode_of hM (.inl rfl) ?_ hW (fld_of hE _ (by omega))
  rw [raw23 hM]
  generalize encodeHost c (.vandn d s a b g y) = W at *
  have f0 : fld W 18 6 = d := fld_of hE _ (by omega)
  have f1 : fld W 17 1 = s := fld_of hE _ (by omega)
  have f2 : fld W 11 6 = a := fld_of hE _ (by omega)
  have f3 : fld W 5 6 = b := fld_of hE _ (by omega)
  have f4 : fld W 4 1 = g := fld_of hE _ (by omega)
  have f5 : fld W 1 1 = y := fld_of hE _ (by omega)
  have g0_1 : fld W 0 1 = 0#1 := fld_of hE _ (by simp only [BitVec.toNat_ofNat]; omega)
  have g2_2 : fld W 2 2 = 0#2 := fld_of hE _ (by simp only [BitVec.toNat_ofNat]; omega)
  rw [dec23, row_ok (by simp [g0_1, g2_2]), f0, f1, f2, f3, f4, f5]
theorem Encoding.vshl (d : BitVec 6) (s : BitVec 1) (a : BitVec 6) (b : BitVec 6) (y : BitVec 3) : Encoding.Statement (.vshl d s a b y) := by
  intro _ hW c
  have := BitVec.isLt c; have := BitVec.isLt d; have := BitVec.isLt s; have := BitVec.isLt a; have := BitVec.isLt b; have := BitVec.isLt y
  have hE : encodeHost c (.vshl d s a b y) = BitVec.ofNat 32 (c.toNat * 2 ^ 31 + (d.toNat * 2 ^ 18 + (s.toNat * 2 ^ 17 + (a.toNat * 2 ^ 11 + (b.toNat * 2 ^ 5 + (y.toNat * 2 ^ 0 + 0x24000000)))))) := rfl
  have hM : (fld (encodeHost c (.vshl d s a b y)) 24 7).toNat = 0x24 := by rw [fld_of hE 0x24#7 (by simp only [BitVec.toNat_ofNat]; omega)]; rfl
  refine decode_of hM (.inl rfl) ?_ hW (fld_of hE _ (by omega))
  rw [raw24 hM]
  generalize encodeHost c (.vshl d s a b y) = W at *
  have f0 : fld W 18 6 = d := fld_of hE _ (by omega)
  have f1 : fld W 17 1 = s := fld_of hE _ (by omega)
  have f2 : fld W 11 6 = a := fld_of hE _ (by omega)
  have f3 : fld W 5 6 = b := fld_of hE _ (by omega)
  have f4 : fld W 0 3 = y := fld_of hE _ (by omega)
  have g3_2 : fld W 3 2 = 0#2 := fld_of hE _ (by simp only [BitVec.toNat_ofNat]; omega)
  rw [dec24, row_ok (by simp [g3_2]), f0, f1, f2, f3, f4]
theorem Encoding.vshr (d : BitVec 6) (s : BitVec 1) (a : BitVec 6) (b : BitVec 6) (y : BitVec 3) : Encoding.Statement (.vshr d s a b y) := by
  intro _ hW c
  have := BitVec.isLt c; have := BitVec.isLt d; have := BitVec.isLt s; have := BitVec.isLt a; have := BitVec.isLt b; have := BitVec.isLt y
  have hE : encodeHost c (.vshr d s a b y) = BitVec.ofNat 32 (c.toNat * 2 ^ 31 + (d.toNat * 2 ^ 18 + (s.toNat * 2 ^ 17 + (a.toNat * 2 ^ 11 + (b.toNat * 2 ^ 5 + (y.toNat * 2 ^ 0 + 0x25000000)))))) := rfl
  have hM : (fld (encodeHost c (.vshr d s a b y)) 24 7).toNat = 0x25 := by rw [fld_of hE 0x25#7 (by simp only [BitVec.toNat_ofNat]; omega)]; rfl
  refine decode_of hM (.inl rfl) ?_ hW (fld_of hE _ (by omega))
  rw [raw25 hM]
  generalize encodeHost c (.vshr d s a b y) = W at *
  have f0 : fld W 18 6 = d := fld_of hE _ (by omega)
  have f1 : fld W 17 1 = s := fld_of hE _ (by omega)
  have f2 : fld W 11 6 = a := fld_of hE _ (by omega)
  have f3 : fld W 5 6 = b := fld_of hE _ (by omega)
  have f4 : fld W 0 3 = y := fld_of hE _ (by omega)
  have g3_2 : fld W 3 2 = 0#2 := fld_of hE _ (by simp only [BitVec.toNat_ofNat]; omega)
  rw [dec25, row_ok (by simp [g3_2]), f0, f1, f2, f3, f4]
theorem Encoding.vsra (d : BitVec 6) (s : BitVec 1) (a : BitVec 6) (b : BitVec 6) (y : BitVec 3) : Encoding.Statement (.vsra d s a b y) := by
  intro _ hW c
  have := BitVec.isLt c; have := BitVec.isLt d; have := BitVec.isLt s; have := BitVec.isLt a; have := BitVec.isLt b; have := BitVec.isLt y
  have hE : encodeHost c (.vsra d s a b y) = BitVec.ofNat 32 (c.toNat * 2 ^ 31 + (d.toNat * 2 ^ 18 + (s.toNat * 2 ^ 17 + (a.toNat * 2 ^ 11 + (b.toNat * 2 ^ 5 + (y.toNat * 2 ^ 0 + 0x26000000)))))) := rfl
  have hM : (fld (encodeHost c (.vsra d s a b y)) 24 7).toNat = 0x26 := by rw [fld_of hE 0x26#7 (by simp only [BitVec.toNat_ofNat]; omega)]; rfl
  refine decode_of hM (.inl rfl) ?_ hW (fld_of hE _ (by omega))
  rw [raw26 hM]
  generalize encodeHost c (.vsra d s a b y) = W at *
  have f0 : fld W 18 6 = d := fld_of hE _ (by omega)
  have f1 : fld W 17 1 = s := fld_of hE _ (by omega)
  have f2 : fld W 11 6 = a := fld_of hE _ (by omega)
  have f3 : fld W 5 6 = b := fld_of hE _ (by omega)
  have f4 : fld W 0 3 = y := fld_of hE _ (by omega)
  have g3_2 : fld W 3 2 = 0#2 := fld_of hE _ (by simp only [BitVec.toNat_ofNat]; omega)
  rw [dec26, row_ok (by simp [g3_2]), f0, f1, f2, f3, f4]
theorem Encoding.vcmpInt (a : BitVec 6) (b : BitVec 6) (y : BitVec 3) : Encoding.Statement (.vcmpInt a b y) := by
  intro _ hW c
  have := BitVec.isLt c; have := BitVec.isLt a; have := BitVec.isLt b; have := BitVec.isLt y
  have hE : encodeHost c (.vcmpInt a b y) = BitVec.ofNat 32 (c.toNat * 2 ^ 31 + (a.toNat * 2 ^ 11 + (b.toNat * 2 ^ 5 + (y.toNat * 2 ^ 0 + 0x27000000)))) := rfl
  have hM : (fld (encodeHost c (.vcmpInt a b y)) 24 7).toNat = 0x27 := by rw [fld_of hE 0x27#7 (by simp only [BitVec.toNat_ofNat]; omega)]; rfl
  refine decode_of hM (.inl rfl) ?_ hW (fld_of hE _ (by omega))
  rw [raw27 hM]
  generalize encodeHost c (.vcmpInt a b y) = W at *
  have f0 : fld W 11 6 = a := fld_of hE _ (by omega)
  have f1 : fld W 5 6 = b := fld_of hE _ (by omega)
  have f2 : fld W 0 3 = y := fld_of hE _ (by omega)
  have g3_2 : fld W 3 2 = 0#2 := fld_of hE _ (by simp only [BitVec.toNat_ofNat]; omega)
  have g17_7 : fld W 17 7 = 0#7 := fld_of hE _ (by simp only [BitVec.toNat_ofNat]; omega)
  rw [dec27, row_ok (by simp [g3_2, g17_7]), f0, f1, f2]
theorem Encoding.vaddx (d : BitVec 6) (s : BitVec 1) (a : BitVec 6) (b : BitVec 6) (g : BitVec 1) (y : BitVec 2) : Encoding.Statement (.vaddx d s a b g y) := by
  intro _ hW c
  have := BitVec.isLt c; have := BitVec.isLt d; have := BitVec.isLt s; have := BitVec.isLt a; have := BitVec.isLt b; have := BitVec.isLt g; have := BitVec.isLt y
  have hE : encodeHost c (.vaddx d s a b g y) = BitVec.ofNat 32 (c.toNat * 2 ^ 31 + (d.toNat * 2 ^ 18 + (s.toNat * 2 ^ 17 + (a.toNat * 2 ^ 11 + (b.toNat * 2 ^ 5 + (g.toNat * 2 ^ 4 + (y.toNat * 2 ^ 0 + 0x28000000))))))) := rfl
  have hM : (fld (encodeHost c (.vaddx d s a b g y)) 24 7).toNat = 0x28 := by rw [fld_of hE 0x28#7 (by simp only [BitVec.toNat_ofNat]; omega)]; rfl
  refine decode_of hM (.inl rfl) ?_ hW (fld_of hE _ (by omega))
  rw [raw28 hM]
  generalize encodeHost c (.vaddx d s a b g y) = W at *
  have f0 : fld W 18 6 = d := fld_of hE _ (by omega)
  have f1 : fld W 17 1 = s := fld_of hE _ (by omega)
  have f2 : fld W 11 6 = a := fld_of hE _ (by omega)
  have f3 : fld W 5 6 = b := fld_of hE _ (by omega)
  have f4 : fld W 4 1 = g := fld_of hE _ (by omega)
  have f5 : fld W 0 2 = y := fld_of hE _ (by omega)
  have g2_2 : fld W 2 2 = 0#2 := fld_of hE _ (by simp only [BitVec.toNat_ofNat]; omega)
  rw [dec28, row_ok (by simp [g2_2]), f0, f1, f2, f3, f4, f5]
theorem Encoding.vsubx (d : BitVec 6) (s : BitVec 1) (a : BitVec 6) (b : BitVec 6) (g : BitVec 1) (y : BitVec 2) : Encoding.Statement (.vsubx d s a b g y) := by
  intro _ hW c
  have := BitVec.isLt c; have := BitVec.isLt d; have := BitVec.isLt s; have := BitVec.isLt a; have := BitVec.isLt b; have := BitVec.isLt g; have := BitVec.isLt y
  have hE : encodeHost c (.vsubx d s a b g y) = BitVec.ofNat 32 (c.toNat * 2 ^ 31 + (d.toNat * 2 ^ 18 + (s.toNat * 2 ^ 17 + (a.toNat * 2 ^ 11 + (b.toNat * 2 ^ 5 + (g.toNat * 2 ^ 4 + (y.toNat * 2 ^ 0 + 0x29000000))))))) := rfl
  have hM : (fld (encodeHost c (.vsubx d s a b g y)) 24 7).toNat = 0x29 := by rw [fld_of hE 0x29#7 (by simp only [BitVec.toNat_ofNat]; omega)]; rfl
  refine decode_of hM (.inl rfl) ?_ hW (fld_of hE _ (by omega))
  rw [raw29 hM]
  generalize encodeHost c (.vsubx d s a b g y) = W at *
  have f0 : fld W 18 6 = d := fld_of hE _ (by omega)
  have f1 : fld W 17 1 = s := fld_of hE _ (by omega)
  have f2 : fld W 11 6 = a := fld_of hE _ (by omega)
  have f3 : fld W 5 6 = b := fld_of hE _ (by omega)
  have f4 : fld W 4 1 = g := fld_of hE _ (by omega)
  have f5 : fld W 0 2 = y := fld_of hE _ (by omega)
  have g2_2 : fld W 2 2 = 0#2 := fld_of hE _ (by simp only [BitVec.toNat_ofNat]; omega)
  rw [dec29, row_ok (by simp [g2_2]), f0, f1, f2, f3, f4, f5]
theorem Encoding.vselFlag (d : BitVec 6) (s : BitVec 1) (a : BitVec 6) (b : BitVec 6) (e : BitVec 4) : Encoding.Statement (.vselFlag d s a b e) := by
  intro _ hW c
  have := BitVec.isLt c; have := BitVec.isLt d; have := BitVec.isLt s; have := BitVec.isLt a; have := BitVec.isLt b; have := BitVec.isLt e
  have hE : encodeHost c (.vselFlag d s a b e) = BitVec.ofNat 32 (c.toNat * 2 ^ 31 + (d.toNat * 2 ^ 18 + (s.toNat * 2 ^ 17 + (a.toNat * 2 ^ 11 + (b.toNat * 2 ^ 5 + (e.toNat * 2 ^ 0 + 0x2A000000)))))) := rfl
  have hM : (fld (encodeHost c (.vselFlag d s a b e)) 24 7).toNat = 0x2A := by rw [fld_of hE 0x2A#7 (by simp only [BitVec.toNat_ofNat]; omega)]; rfl
  refine decode_of hM (.inl rfl) ?_ hW (fld_of hE _ (by omega))
  rw [raw2A hM]
  generalize encodeHost c (.vselFlag d s a b e) = W at *
  have f0 : fld W 18 6 = d := fld_of hE _ (by omega)
  have f1 : fld W 17 1 = s := fld_of hE _ (by omega)
  have f2 : fld W 11 6 = a := fld_of hE _ (by omega)
  have f3 : fld W 5 6 = b := fld_of hE _ (by omega)
  have f4 : fld W 0 4 = e := fld_of hE _ (by omega)
  have g4_1 : fld W 4 1 = 0#1 := fld_of hE _ (by simp only [BitVec.toNat_ofNat]; omega)
  rw [dec2A, row_ok (by simp [g4_1]), f0, f1, f2, f3, f4]
theorem Encoding.vselPred (d : BitVec 6) (s : BitVec 1) (a : BitVec 6) (b : BitVec 6) (p : BitVec 3) : Encoding.Statement (.vselPred d s a b p) := by
  intro _ hW c
  have := BitVec.isLt c; have := BitVec.isLt d; have := BitVec.isLt s; have := BitVec.isLt a; have := BitVec.isLt b; have := BitVec.isLt p
  have hE : encodeHost c (.vselPred d s a b p) = BitVec.ofNat 32 (c.toNat * 2 ^ 31 + (d.toNat * 2 ^ 18 + (s.toNat * 2 ^ 17 + (a.toNat * 2 ^ 11 + (b.toNat * 2 ^ 5 + (p.toNat * 2 ^ 0 + 0x2A000010)))))) := rfl
  have hM : (fld (encodeHost c (.vselPred d s a b p)) 24 7).toNat = 0x2A := by rw [fld_of hE 0x2A#7 (by simp only [BitVec.toNat_ofNat]; omega)]; rfl
  refine decode_of hM (.inl rfl) ?_ hW (fld_of hE _ (by omega))
  rw [raw2A hM]
  generalize encodeHost c (.vselPred d s a b p) = W at *
  have f0 : fld W 18 6 = d := fld_of hE _ (by omega)
  have f1 : fld W 17 1 = s := fld_of hE _ (by omega)
  have f2 : fld W 11 6 = a := fld_of hE _ (by omega)
  have f3 : fld W 5 6 = b := fld_of hE _ (by omega)
  have f4 : fld W 0 3 = p := fld_of hE _ (by omega)
  have g4_1 : fld W 4 1 = 1#1 := fld_of hE _ (by simp only [BitVec.toNat_ofNat]; omega)
  have g3_2 : fld W 3 2 = 2#2 := fld_of hE _ (by simp only [BitVec.toNat_ofNat]; omega)
  rw [dec2A, row_no (by simp [g4_1]), row_ok (by simp [g3_2]), f0, f1, f2, f3, f4]
theorem Encoding.vaddMasked (d : BitVec 6) (s : BitVec 1) (a : BitVec 6) (b : BitVec 6) (p : BitVec 3) (y : BitVec 2) : Encoding.Statement (.vaddMasked d s a b p y) := by
  intro _ hW c
  have := BitVec.isLt c; have := BitVec.isLt d; have := BitVec.isLt s; have := BitVec.isLt a; have := BitVec.isLt b; have := BitVec.isLt p; have := BitVec.isLt y
  have hE : encodeHost c (.vaddMasked d s a b p y) = BitVec.ofNat 32 (c.toNat * 2 ^ 31 + (d.toNat * 2 ^ 18 + (s.toNat * 2 ^ 17 + (a.toNat * 2 ^ 11 + (b.toNat * 2 ^ 5 + (p.toNat * 2 ^ 2 + (y.toNat * 2 ^ 0 + 0x2B000000))))))) := rfl
  have hM : (fld (encodeHost c (.vaddMasked d s a b p y)) 24 7).toNat = 0x2B := by rw [fld_of hE 0x2B#7 (by simp only [BitVec.toNat_ofNat]; omega)]; rfl
  refine decode_of hM (.inl rfl) ?_ hW (fld_of hE _ (by omega))
  rw [raw2B hM]
  generalize encodeHost c (.vaddMasked d s a b p y) = W at *
  have f0 : fld W 18 6 = d := fld_of hE _ (by omega)
  have f1 : fld W 17 1 = s := fld_of hE _ (by omega)
  have f2 : fld W 11 6 = a := fld_of hE _ (by omega)
  have f3 : fld W 5 6 = b := fld_of hE _ (by omega)
  have f4 : fld W 2 3 = p := fld_of hE _ (by omega)
  have f5 : fld W 0 2 = y := fld_of hE _ (by omega)
  rw [dec2B, row_ok (by simp []), f0, f1, f2, f3, f4, f5]
theorem Encoding.vsubMasked (d : BitVec 6) (s : BitVec 1) (a : BitVec 6) (b : BitVec 6) (p : BitVec 3) (y : BitVec 2) : Encoding.Statement (.vsubMasked d s a b p y) := by
  intro _ hW c
  have := BitVec.isLt c; have := BitVec.isLt d; have := BitVec.isLt s; have := BitVec.isLt a; have := BitVec.isLt b; have := BitVec.isLt p; have := BitVec.isLt y
  have hE : encodeHost c (.vsubMasked d s a b p y) = BitVec.ofNat 32 (c.toNat * 2 ^ 31 + (d.toNat * 2 ^ 18 + (s.toNat * 2 ^ 17 + (a.toNat * 2 ^ 11 + (b.toNat * 2 ^ 5 + (p.toNat * 2 ^ 2 + (y.toNat * 2 ^ 0 + 0x2C000000))))))) := rfl
  have hM : (fld (encodeHost c (.vsubMasked d s a b p y)) 24 7).toNat = 0x2C := by rw [fld_of hE 0x2C#7 (by simp only [BitVec.toNat_ofNat]; omega)]; rfl
  refine decode_of hM (.inl rfl) ?_ hW (fld_of hE _ (by omega))
  rw [raw2C hM]
  generalize encodeHost c (.vsubMasked d s a b p y) = W at *
  have f0 : fld W 18 6 = d := fld_of hE _ (by omega)
  have f1 : fld W 17 1 = s := fld_of hE _ (by omega)
  have f2 : fld W 11 6 = a := fld_of hE _ (by omega)
  have f3 : fld W 5 6 = b := fld_of hE _ (by omega)
  have f4 : fld W 2 3 = p := fld_of hE _ (by omega)
  have f5 : fld W 0 2 = y := fld_of hE _ (by omega)
  rw [dec2C, row_ok (by simp []), f0, f1, f2, f3, f4, f5]
theorem Encoding.vmovMasked (d : BitVec 6) (s : BitVec 1) (a : BitVec 6) (p : BitVec 3) (y : BitVec 2) : Encoding.Statement (.vmovMasked d s a p y) := by
  intro _ hW c
  have := BitVec.isLt c; have := BitVec.isLt d; have := BitVec.isLt s; have := BitVec.isLt a; have := BitVec.isLt p; have := BitVec.isLt y
  have hE : encodeHost c (.vmovMasked d s a p y) = BitVec.ofNat 32 (c.toNat * 2 ^ 31 + (d.toNat * 2 ^ 18 + (s.toNat * 2 ^ 17 + (a.toNat * 2 ^ 11 + (p.toNat * 2 ^ 2 + (y.toNat * 2 ^ 0 + 0x2D000000)))))) := rfl
  have hM : (fld (encodeHost c (.vmovMasked d s a p y)) 24 7).toNat = 0x2D := by rw [fld_of hE 0x2D#7 (by simp only [BitVec.toNat_ofNat]; omega)]; rfl
  refine decode_of hM (.inl rfl) ?_ hW (fld_of hE _ (by omega))
  rw [raw2D hM]
  generalize encodeHost c (.vmovMasked d s a p y) = W at *
  have f0 : fld W 18 6 = d := fld_of hE _ (by omega)
  have f1 : fld W 17 1 = s := fld_of hE _ (by omega)
  have f2 : fld W 11 6 = a := fld_of hE _ (by omega)
  have f3 : fld W 2 3 = p := fld_of hE _ (by omega)
  have f4 : fld W 0 2 = y := fld_of hE _ (by omega)
  have g5_6 : fld W 5 6 = 0#6 := fld_of hE _ (by simp only [BitVec.toNat_ofNat]; omega)
  rw [dec2D, row_ok (by simp [g5_6]), f0, f1, f2, f3, f4]
theorem Encoding.vaddImm (d : BitVec 6) (s : BitVec 1) (i : Imm 11) (g : BitVec 1) (t : BitVec 1) (y : BitVec 3) : Encoding.Statement (.vaddImm d s i g t y) := by
  obtain ⟨i, X⟩ := i
  intro _ hW c
  have := BitVec.isLt c; have := BitVec.isLt d; have := BitVec.isLt s; have := BitVec.isLt i; have := BitVec.isLt g; have := BitVec.isLt t; have := BitVec.isLt y
  have hE : encodeHost c (.vaddImm d s ⟨i, X⟩ g t y) = BitVec.ofNat 32 (c.toNat * 2 ^ 31 + (d.toNat * 2 ^ 18 + (s.toNat * 2 ^ 17 + (i.toNat * 2 ^ 6 + (g.toNat * 2 ^ 4 + (t.toNat * 2 ^ 3 + (y.toNat * 2 ^ 0 + 0x2E000000))))))) := rfl
  have hM : (fld (encodeHost c (.vaddImm d s ⟨i, X⟩ g t y)) 24 7).toNat = 0x2E := by rw [fld_of hE 0x2E#7 (by simp only [BitVec.toNat_ofNat]; omega)]; rfl
  refine decode_of hM (.inr rfl) ?_ hW (fld_of hE _ (by omega))
  show decodeRaw _ X = _
  rw [raw2E hM]
  generalize encodeHost c (.vaddImm d s ⟨i, X⟩ g t y) = W at *
  have f0 : fld W 18 6 = d := fld_of hE _ (by omega)
  have f1 : fld W 17 1 = s := fld_of hE _ (by omega)
  have f2 : fld W 6 11 = i := fld_of hE _ (by omega)
  have f3 : fld W 4 1 = g := fld_of hE _ (by omega)
  have f4 : fld W 3 1 = t := fld_of hE _ (by omega)
  have f5 : fld W 0 3 = y := fld_of hE _ (by omega)
  have g5_1 : fld W 5 1 = 0#1 := fld_of hE _ (by simp only [BitVec.toNat_ofNat]; omega)
  rw [dec2E, row_ok (by simp [g5_1]), f0, f1, f2, f3, f4, f5]
theorem Encoding.vandImm (d : BitVec 6) (s : BitVec 1) (i : Imm 11) (g : BitVec 1) (y : BitVec 1) : Encoding.Statement (.vandImm d s i g y) := by
  obtain ⟨i, X⟩ := i
  intro _ hW c
  have := BitVec.isLt c; have := BitVec.isLt d; have := BitVec.isLt s; have := BitVec.isLt i; have := BitVec.isLt g; have := BitVec.isLt y
  have hE : encodeHost c (.vandImm d s ⟨i, X⟩ g y) = BitVec.ofNat 32 (c.toNat * 2 ^ 31 + (d.toNat * 2 ^ 18 + (s.toNat * 2 ^ 17 + (i.toNat * 2 ^ 6 + (g.toNat * 2 ^ 4 + (y.toNat * 2 ^ 1 + 0x2F000000)))))) := rfl
  have hM : (fld (encodeHost c (.vandImm d s ⟨i, X⟩ g y)) 24 7).toNat = 0x2F := by rw [fld_of hE 0x2F#7 (by simp only [BitVec.toNat_ofNat]; omega)]; rfl
  refine decode_of hM (.inr rfl) ?_ hW (fld_of hE _ (by omega))
  show decodeRaw _ X = _
  rw [raw2F hM]
  generalize encodeHost c (.vandImm d s ⟨i, X⟩ g y) = W at *
  have f0 : fld W 18 6 = d := fld_of hE _ (by omega)
  have f1 : fld W 17 1 = s := fld_of hE _ (by omega)
  have f2 : fld W 6 11 = i := fld_of hE _ (by omega)
  have f3 : fld W 4 1 = g := fld_of hE _ (by omega)
  have f4 : fld W 1 1 = y := fld_of hE _ (by omega)
  have g0_1 : fld W 0 1 = 0#1 := fld_of hE _ (by simp only [BitVec.toNat_ofNat]; omega)
  have g2_2 : fld W 2 2 = 0#2 := fld_of hE _ (by simp only [BitVec.toNat_ofNat]; omega)
  have g5_1 : fld W 5 1 = 0#1 := fld_of hE _ (by simp only [BitVec.toNat_ofNat]; omega)
  rw [dec2F, row_ok (by simp [g0_1, g2_2, g5_1]), f0, f1, f2, f3, f4]
theorem Encoding.vorImm (d : BitVec 6) (s : BitVec 1) (i : Imm 11) (g : BitVec 1) (y : BitVec 1) : Encoding.Statement (.vorImm d s i g y) := by
  obtain ⟨i, X⟩ := i
  intro _ hW c
  have := BitVec.isLt c; have := BitVec.isLt d; have := BitVec.isLt s; have := BitVec.isLt i; have := BitVec.isLt g; have := BitVec.isLt y
  have hE : encodeHost c (.vorImm d s ⟨i, X⟩ g y) = BitVec.ofNat 32 (c.toNat * 2 ^ 31 + (d.toNat * 2 ^ 18 + (s.toNat * 2 ^ 17 + (i.toNat * 2 ^ 6 + (g.toNat * 2 ^ 4 + (y.toNat * 2 ^ 1 + 0x30000000)))))) := rfl
  have hM : (fld (encodeHost c (.vorImm d s ⟨i, X⟩ g y)) 24 7).toNat = 0x30 := by rw [fld_of hE 0x30#7 (by simp only [BitVec.toNat_ofNat]; omega)]; rfl
  refine decode_of hM (.inr rfl) ?_ hW (fld_of hE _ (by omega))
  show decodeRaw _ X = _
  rw [raw30 hM]
  generalize encodeHost c (.vorImm d s ⟨i, X⟩ g y) = W at *
  have f0 : fld W 18 6 = d := fld_of hE _ (by omega)
  have f1 : fld W 17 1 = s := fld_of hE _ (by omega)
  have f2 : fld W 6 11 = i := fld_of hE _ (by omega)
  have f3 : fld W 4 1 = g := fld_of hE _ (by omega)
  have f4 : fld W 1 1 = y := fld_of hE _ (by omega)
  have g0_1 : fld W 0 1 = 0#1 := fld_of hE _ (by simp only [BitVec.toNat_ofNat]; omega)
  have g2_2 : fld W 2 2 = 0#2 := fld_of hE _ (by simp only [BitVec.toNat_ofNat]; omega)
  have g5_1 : fld W 5 1 = 0#1 := fld_of hE _ (by simp only [BitVec.toNat_ofNat]; omega)
  rw [dec30, row_ok (by simp [g0_1, g2_2, g5_1]), f0, f1, f2, f3, f4]
theorem Encoding.vshlImm (d : BitVec 6) (s : BitVec 1) (i : BitVec 11) (y : BitVec 3) : Encoding.Statement (.vshlImm d s i y) := by
  intro _ hW c
  have := BitVec.isLt c; have := BitVec.isLt d; have := BitVec.isLt s; have := BitVec.isLt i; have := BitVec.isLt y
  have hE : encodeHost c (.vshlImm d s i y) = BitVec.ofNat 32 (c.toNat * 2 ^ 31 + (d.toNat * 2 ^ 18 + (s.toNat * 2 ^ 17 + (i.toNat * 2 ^ 6 + (y.toNat * 2 ^ 0 + 0x31000000))))) := rfl
  have hM : (fld (encodeHost c (.vshlImm d s i y)) 24 7).toNat = 0x31 := by rw [fld_of hE 0x31#7 (by simp only [BitVec.toNat_ofNat]; omega)]; rfl
  refine decode_of hM (.inl rfl) ?_ hW (fld_of hE _ (by omega))
  rw [raw31 hM]
  generalize encodeHost c (.vshlImm d s i y) = W at *
  have f0 : fld W 18 6 = d := fld_of hE _ (by omega)
  have f1 : fld W 17 1 = s := fld_of hE _ (by omega)
  have f2 : fld W 6 11 = i := fld_of hE _ (by omega)
  have f3 : fld W 0 3 = y := fld_of hE _ (by omega)
  have g3_3 : fld W 3 3 = 0#3 := fld_of hE _ (by simp only [BitVec.toNat_ofNat]; omega)
  rw [dec31, row_ok (by simp [g3_3]), f0, f1, f2, f3]
theorem Encoding.vshrImm (d : BitVec 6) (s : BitVec 1) (i : BitVec 11) (y : BitVec 3) : Encoding.Statement (.vshrImm d s i y) := by
  intro _ hW c
  have := BitVec.isLt c; have := BitVec.isLt d; have := BitVec.isLt s; have := BitVec.isLt i; have := BitVec.isLt y
  have hE : encodeHost c (.vshrImm d s i y) = BitVec.ofNat 32 (c.toNat * 2 ^ 31 + (d.toNat * 2 ^ 18 + (s.toNat * 2 ^ 17 + (i.toNat * 2 ^ 6 + (y.toNat * 2 ^ 0 + 0x32000000))))) := rfl
  have hM : (fld (encodeHost c (.vshrImm d s i y)) 24 7).toNat = 0x32 := by rw [fld_of hE 0x32#7 (by simp only [BitVec.toNat_ofNat]; omega)]; rfl
  refine decode_of hM (.inl rfl) ?_ hW (fld_of hE _ (by omega))
  rw [raw32 hM]
  generalize encodeHost c (.vshrImm d s i y) = W at *
  have f0 : fld W 18 6 = d := fld_of hE _ (by omega)
  have f1 : fld W 17 1 = s := fld_of hE _ (by omega)
  have f2 : fld W 6 11 = i := fld_of hE _ (by omega)
  have f3 : fld W 0 3 = y := fld_of hE _ (by omega)
  have g3_3 : fld W 3 3 = 0#3 := fld_of hE _ (by simp only [BitVec.toNat_ofNat]; omega)
  rw [dec32, row_ok (by simp [g3_3]), f0, f1, f2, f3]
theorem Encoding.vsraImm (d : BitVec 6) (s : BitVec 1) (i : BitVec 11) (y : BitVec 3) : Encoding.Statement (.vsraImm d s i y) := by
  intro _ hW c
  have := BitVec.isLt c; have := BitVec.isLt d; have := BitVec.isLt s; have := BitVec.isLt i; have := BitVec.isLt y
  have hE : encodeHost c (.vsraImm d s i y) = BitVec.ofNat 32 (c.toNat * 2 ^ 31 + (d.toNat * 2 ^ 18 + (s.toNat * 2 ^ 17 + (i.toNat * 2 ^ 6 + (y.toNat * 2 ^ 0 + 0x33000000))))) := rfl
  have hM : (fld (encodeHost c (.vsraImm d s i y)) 24 7).toNat = 0x33 := by rw [fld_of hE 0x33#7 (by simp only [BitVec.toNat_ofNat]; omega)]; rfl
  refine decode_of hM (.inl rfl) ?_ hW (fld_of hE _ (by omega))
  rw [raw33 hM]
  generalize encodeHost c (.vsraImm d s i y) = W at *
  have f0 : fld W 18 6 = d := fld_of hE _ (by omega)
  have f1 : fld W 17 1 = s := fld_of hE _ (by omega)
  have f2 : fld W 6 11 = i := fld_of hE _ (by omega)
  have f3 : fld W 0 3 = y := fld_of hE _ (by omega)
  have g3_3 : fld W 3 3 = 0#3 := fld_of hE _ (by simp only [BitVec.toNat_ofNat]; omega)
  rw [dec33, row_ok (by simp [g3_3]), f0, f1, f2, f3]
theorem Encoding.vmovi (d : BitVec 6) (s : BitVec 1) (i : Imm 17) : Encoding.Statement (.vmovi d s i) := by
  obtain ⟨i, X⟩ := i
  intro _ hW c
  have := BitVec.isLt c; have := BitVec.isLt d; have := BitVec.isLt s; have := BitVec.isLt i
  have hE : encodeHost c (.vmovi d s ⟨i, X⟩) = BitVec.ofNat 32 (c.toNat * 2 ^ 31 + (d.toNat * 2 ^ 18 + (s.toNat * 2 ^ 17 + (i.toNat * 2 ^ 0 + 0x34000000)))) := rfl
  have hM : (fld (encodeHost c (.vmovi d s ⟨i, X⟩)) 24 7).toNat = 0x34 := by rw [fld_of hE 0x34#7 (by simp only [BitVec.toNat_ofNat]; omega)]; rfl
  refine decode_of hM (.inr rfl) ?_ hW (fld_of hE _ (by omega))
  show decodeRaw _ X = _
  rw [raw34 hM]
  generalize encodeHost c (.vmovi d s ⟨i, X⟩) = W at *
  have f0 : fld W 18 6 = d := fld_of hE _ (by omega)
  have f1 : fld W 17 1 = s := fld_of hE _ (by omega)
  have f2 : fld W 0 17 = i := fld_of hE _ (by omega)
  rw [dec34, row_ok (by simp []), f0, f1, f2]
theorem Encoding.vperm (d : BitVec 6) (s : BitVec 1) (a : BitVec 6) (b : BitVec 6) : Encoding.Statement (.vperm d s a b) := by
  intro _ hW c
  have := BitVec.isLt c; have := BitVec.isLt d; have := BitVec.isLt s; have := BitVec.isLt a; have := BitVec.isLt b
  have hE : encodeHost c (.vperm d s a b) = BitVec.ofNat 32 (c.toNat * 2 ^ 31 + (d.toNat * 2 ^ 18 + (s.toNat * 2 ^ 17 + (a.toNat * 2 ^ 11 + (b.toNat * 2 ^ 5 + 0x35000000))))) := rfl
  have hM : (fld (encodeHost c (.vperm d s a b)) 24 7).toNat = 0x35 := by rw [fld_of hE 0x35#7 (by simp only [BitVec.toNat_ofNat]; omega)]; rfl
  refine decode_of hM (.inl rfl) ?_ hW (fld_of hE _ (by omega))
  rw [raw35 hM]
  generalize encodeHost c (.vperm d s a b) = W at *
  have f0 : fld W 18 6 = d := fld_of hE _ (by omega)
  have f1 : fld W 17 1 = s := fld_of hE _ (by omega)
  have f2 : fld W 11 6 = a := fld_of hE _ (by omega)
  have f3 : fld W 5 6 = b := fld_of hE _ (by omega)
  have g0_5 : fld W 0 5 = 0#5 := fld_of hE _ (by simp only [BitVec.toNat_ofNat]; omega)
  rw [dec35, row_ok (by simp [g0_5]), f0, f1, f2, f3]
theorem Encoding.vbcast (d : BitVec 6) (s : BitVec 1) (a : BitVec 6) (b : BitVec 6) : Encoding.Statement (.vbcast d s a b) := by
  intro _ hW c
  have := BitVec.isLt c; have := BitVec.isLt d; have := BitVec.isLt s; have := BitVec.isLt a; have := BitVec.isLt b
  have hE : encodeHost c (.vbcast d s a b) = BitVec.ofNat 32 (c.toNat * 2 ^ 31 + (d.toNat * 2 ^ 18 + (s.toNat * 2 ^ 17 + (a.toNat * 2 ^ 11 + (b.toNat * 2 ^ 5 + 0x35000001))))) := rfl
  have hM : (fld (encodeHost c (.vbcast d s a b)) 24 7).toNat = 0x35 := by rw [fld_of hE 0x35#7 (by simp only [BitVec.toNat_ofNat]; omega)]; rfl
  refine decode_of hM (.inl rfl) ?_ hW (fld_of hE _ (by omega))
  rw [raw35 hM]
  generalize encodeHost c (.vbcast d s a b) = W at *
  have f0 : fld W 18 6 = d := fld_of hE _ (by omega)
  have f1 : fld W 17 1 = s := fld_of hE _ (by omega)
  have f2 : fld W 11 6 = a := fld_of hE _ (by omega)
  have f3 : fld W 5 6 = b := fld_of hE _ (by omega)
  have g0_5 : fld W 0 5 = 1#5 := fld_of hE _ (by simp only [BitVec.toNat_ofNat]; omega)
  rw [dec35, row_no (by simp [g0_5]), row_ok (by simp [g0_5]), f0, f1, f2, f3]
theorem Encoding.vscanAddI32 (d : BitVec 6) (s : BitVec 1) (a : BitVec 6) : Encoding.Statement (.vscanAddI32 d s a) := by
  intro _ hW c
  have := BitVec.isLt c; have := BitVec.isLt d; have := BitVec.isLt s; have := BitVec.isLt a
  have hE : encodeHost c (.vscanAddI32 d s a) = BitVec.ofNat 32 (c.toNat * 2 ^ 31 + (d.toNat * 2 ^ 18 + (s.toNat * 2 ^ 17 + (a.toNat * 2 ^ 11 + 0x35000002)))) := rfl
  have hM : (fld (encodeHost c (.vscanAddI32 d s a)) 24 7).toNat = 0x35 := by rw [fld_of hE 0x35#7 (by simp only [BitVec.toNat_ofNat]; omega)]; rfl
  refine decode_of hM (.inl rfl) ?_ hW (fld_of hE _ (by omega))
  rw [raw35 hM]
  generalize encodeHost c (.vscanAddI32 d s a) = W at *
  have f0 : fld W 18 6 = d := fld_of hE _ (by omega)
  have f1 : fld W 17 1 = s := fld_of hE _ (by omega)
  have f2 : fld W 11 6 = a := fld_of hE _ (by omega)
  have g0_5 : fld W 0 5 = 2#5 := fld_of hE _ (by simp only [BitVec.toNat_ofNat]; omega)
  have g0_11 : fld W 0 11 = 2#11 := fld_of hE _ (by simp only [BitVec.toNat_ofNat]; omega)
  rw [dec35, row_no (by simp [g0_5]), row_no (by simp [g0_5]), row_ok (by simp [g0_11]), f0, f1, f2]
theorem Encoding.vredAddI32 (d : BitVec 6) (s : BitVec 1) (a : BitVec 6) : Encoding.Statement (.vredAddI32 d s a) := by
  intro _ hW c
  have := BitVec.isLt c; have := BitVec.isLt d; have := BitVec.isLt s; have := BitVec.isLt a
  have hE : encodeHost c (.vredAddI32 d s a) = BitVec.ofNat 32 (c.toNat * 2 ^ 31 + (d.toNat * 2 ^ 18 + (s.toNat * 2 ^ 17 + (a.toNat * 2 ^ 11 + 0x35000003)))) := rfl
  have hM : (fld (encodeHost c (.vredAddI32 d s a)) 24 7).toNat = 0x35 := by rw [fld_of hE 0x35#7 (by simp only [BitVec.toNat_ofNat]; omega)]; rfl
  refine decode_of hM (.inl rfl) ?_ hW (fld_of hE _ (by omega))
  rw [raw35 hM]
  generalize encodeHost c (.vredAddI32 d s a) = W at *
  have f0 : fld W 18 6 = d := fld_of hE _ (by omega)
  have f1 : fld W 17 1 = s := fld_of hE _ (by omega)
  have f2 : fld W 11 6 = a := fld_of hE _ (by omega)
  have g0_5 : fld W 0 5 = 3#5 := fld_of hE _ (by simp only [BitVec.toNat_ofNat]; omega)
  have g0_11 : fld W 0 11 = 3#11 := fld_of hE _ (by simp only [BitVec.toNat_ofNat]; omega)
  rw [dec35, row_no (by simp [g0_5]), row_no (by simp [g0_5]), row_no (by simp [g0_11]), row_ok (by simp [g0_11]), f0, f1, f2]
theorem Encoding.vredMaxI32 (d : BitVec 6) (s : BitVec 1) (a : BitVec 6) : Encoding.Statement (.vredMaxI32 d s a) := by
  intro _ hW c
  have := BitVec.isLt c; have := BitVec.isLt d; have := BitVec.isLt s; have := BitVec.isLt a
  have hE : encodeHost c (.vredMaxI32 d s a) = BitVec.ofNat 32 (c.toNat * 2 ^ 31 + (d.toNat * 2 ^ 18 + (s.toNat * 2 ^ 17 + (a.toNat * 2 ^ 11 + 0x35000004)))) := rfl
  have hM : (fld (encodeHost c (.vredMaxI32 d s a)) 24 7).toNat = 0x35 := by rw [fld_of hE 0x35#7 (by simp only [BitVec.toNat_ofNat]; omega)]; rfl
  refine decode_of hM (.inl rfl) ?_ hW (fld_of hE _ (by omega))
  rw [raw35 hM]
  generalize encodeHost c (.vredMaxI32 d s a) = W at *
  have f0 : fld W 18 6 = d := fld_of hE _ (by omega)
  have f1 : fld W 17 1 = s := fld_of hE _ (by omega)
  have f2 : fld W 11 6 = a := fld_of hE _ (by omega)
  have g0_5 : fld W 0 5 = 4#5 := fld_of hE _ (by simp only [BitVec.toNat_ofNat]; omega)
  have g0_11 : fld W 0 11 = 4#11 := fld_of hE _ (by simp only [BitVec.toNat_ofNat]; omega)
  rw [dec35, row_no (by simp [g0_5]), row_no (by simp [g0_5]), row_no (by simp [g0_11]), row_no (by simp [g0_11]), row_ok (by simp [g0_11]), f0, f1, f2]
theorem Encoding.vredMinI32 (d : BitVec 6) (s : BitVec 1) (a : BitVec 6) : Encoding.Statement (.vredMinI32 d s a) := by
  intro _ hW c
  have := BitVec.isLt c; have := BitVec.isLt d; have := BitVec.isLt s; have := BitVec.isLt a
  have hE : encodeHost c (.vredMinI32 d s a) = BitVec.ofNat 32 (c.toNat * 2 ^ 31 + (d.toNat * 2 ^ 18 + (s.toNat * 2 ^ 17 + (a.toNat * 2 ^ 11 + 0x35000005)))) := rfl
  have hM : (fld (encodeHost c (.vredMinI32 d s a)) 24 7).toNat = 0x35 := by rw [fld_of hE 0x35#7 (by simp only [BitVec.toNat_ofNat]; omega)]; rfl
  refine decode_of hM (.inl rfl) ?_ hW (fld_of hE _ (by omega))
  rw [raw35 hM]
  generalize encodeHost c (.vredMinI32 d s a) = W at *
  have f0 : fld W 18 6 = d := fld_of hE _ (by omega)
  have f1 : fld W 17 1 = s := fld_of hE _ (by omega)
  have f2 : fld W 11 6 = a := fld_of hE _ (by omega)
  have g0_5 : fld W 0 5 = 5#5 := fld_of hE _ (by simp only [BitVec.toNat_ofNat]; omega)
  have g0_11 : fld W 0 11 = 5#11 := fld_of hE _ (by simp only [BitVec.toNat_ofNat]; omega)
  rw [dec35, row_no (by simp [g0_5]), row_no (by simp [g0_5]), row_no (by simp [g0_11]), row_no (by simp [g0_11]), row_no (by simp [g0_11]), row_ok (by simp [g0_11]), f0, f1, f2]
theorem Encoding.vfroms (d : BitVec 6) (s : BitVec 1) (a : BitVec 5) : Encoding.Statement (.vfroms d s a) := by
  intro _ hW c
  have := BitVec.isLt c; have := BitVec.isLt d; have := BitVec.isLt s; have := BitVec.isLt a
  have hE : encodeHost c (.vfroms d s a) = BitVec.ofNat 32 (c.toNat * 2 ^ 31 + (d.toNat * 2 ^ 18 + (s.toNat * 2 ^ 17 + (a.toNat * 2 ^ 12 + 0x36000000)))) := rfl
  have hM : (fld (encodeHost c (.vfroms d s a)) 24 7).toNat = 0x36 := by rw [fld_of hE 0x36#7 (by simp only [BitVec.toNat_ofNat]; omega)]; rfl
  refine decode_of hM (.inl rfl) ?_ hW (fld_of hE _ (by omega))
  rw [raw36 hM]
  generalize encodeHost c (.vfroms d s a) = W at *
  have f0 : fld W 18 6 = d := fld_of hE _ (by omega)
  have f1 : fld W 17 1 = s := fld_of hE _ (by omega)
  have f2 : fld W 12 5 = a := fld_of hE _ (by omega)
  have g0_12 : fld W 0 12 = 0#12 := fld_of hE _ (by simp only [BitVec.toNat_ofNat]; omega)
  rw [dec36, row_ok (by simp [g0_12]), f0, f1, f2]
theorem Encoding.pcmpB (d : BitVec 3) (a : BitVec 6) (b : BitVec 6) (t : BitVec 4) : Encoding.Statement (.pcmpB d a b t) := by
  intro _ hW c
  have := BitVec.isLt c; have := BitVec.isLt d; have := BitVec.isLt a; have := BitVec.isLt b; have := BitVec.isLt t
  have hE : encodeHost c (.pcmpB d a b t) = BitVec.ofNat 32 (c.toNat * 2 ^ 31 + (d.toNat * 2 ^ 21 + (a.toNat * 2 ^ 15 + (b.toNat * 2 ^ 9 + (t.toNat * 2 ^ 5 + 0x37000000))))) := rfl
  have hM : (fld (encodeHost c (.pcmpB d a b t)) 24 7).toNat = 0x37 := by rw [fld_of hE 0x37#7 (by simp only [BitVec.toNat_ofNat]; omega)]; rfl
  refine decode_of hM (.inl rfl) ?_ hW (fld_of hE _ (by omega))
  rw [raw37 hM]
  generalize encodeHost c (.pcmpB d a b t) = W at *
  have f0 : fld W 21 3 = d := fld_of hE _ (by omega)
  have f1 : fld W 15 6 = a := fld_of hE _ (by omega)
  have f2 : fld W 9 6 = b := fld_of hE _ (by omega)
  have f3 : fld W 5 4 = t := fld_of hE _ (by omega)
  have g0_5 : fld W 0 5 = 0#5 := fld_of hE _ (by simp only [BitVec.toNat_ofNat]; omega)
  rw [dec37, row_ok (by simp [g0_5]), f0, f1, f2, f3]
theorem Encoding.pand (d : BitVec 3) (a : BitVec 3) (b : BitVec 3) : Encoding.Statement (.pand d a b) := by
  intro _ hW c
  have := BitVec.isLt c; have := BitVec.isLt d; have := BitVec.isLt a; have := BitVec.isLt b
  have hE : encodeHost c (.pand d a b) = BitVec.ofNat 32 (c.toNat * 2 ^ 31 + (d.toNat * 2 ^ 21 + (a.toNat * 2 ^ 18 + (b.toNat * 2 ^ 12 + 0x37000001)))) := rfl
  have hM : (fld (encodeHost c (.pand d a b)) 24 7).toNat = 0x37 := by rw [fld_of hE 0x37#7 (by simp only [BitVec.toNat_ofNat]; omega)]; rfl
  refine decode_of hM (.inl rfl) ?_ hW (fld_of hE _ (by omega))
  rw [raw37 hM]
  generalize encodeHost c (.pand d a b) = W at *
  have f0 : fld W 21 3 = d := fld_of hE _ (by omega)
  have f1 : fld W 18 3 = a := fld_of hE _ (by omega)
  have f2 : fld W 12 3 = b := fld_of hE _ (by omega)
  have g0_5 : fld W 0 5 = 1#5 := fld_of hE _ (by simp only [BitVec.toNat_ofNat]; omega)
  have g0_12 : fld W 0 12 = 1#12 := fld_of hE _ (by simp only [BitVec.toNat_ofNat]; omega)
  have g15_3 : fld W 15 3 = 0#3 := fld_of hE _ (by simp only [BitVec.toNat_ofNat]; omega)
  rw [dec37, row_no (by simp [g0_5]), row_ok (by simp [g0_12, g15_3]), f0, f1, f2]
theorem Encoding.por (d : BitVec 3) (a : BitVec 3) (b : BitVec 3) : Encoding.Statement (.por d a b) := by
  intro _ hW c
  have := BitVec.isLt c; have := BitVec.isLt d; have := BitVec.isLt a; have := BitVec.isLt b
  have hE : encodeHost c (.por d a b) = BitVec.ofNat 32 (c.toNat * 2 ^ 31 + (d.toNat * 2 ^ 21 + (a.toNat * 2 ^ 18 + (b.toNat * 2 ^ 12 + 0x37000002)))) := rfl
  have hM : (fld (encodeHost c (.por d a b)) 24 7).toNat = 0x37 := by rw [fld_of hE 0x37#7 (by simp only [BitVec.toNat_ofNat]; omega)]; rfl
  refine decode_of hM (.inl rfl) ?_ hW (fld_of hE _ (by omega))
  rw [raw37 hM]
  generalize encodeHost c (.por d a b) = W at *
  have f0 : fld W 21 3 = d := fld_of hE _ (by omega)
  have f1 : fld W 18 3 = a := fld_of hE _ (by omega)
  have f2 : fld W 12 3 = b := fld_of hE _ (by omega)
  have g0_5 : fld W 0 5 = 2#5 := fld_of hE _ (by simp only [BitVec.toNat_ofNat]; omega)
  have g0_12 : fld W 0 12 = 2#12 := fld_of hE _ (by simp only [BitVec.toNat_ofNat]; omega)
  have g15_3 : fld W 15 3 = 0#3 := fld_of hE _ (by simp only [BitVec.toNat_ofNat]; omega)
  rw [dec37, row_no (by simp [g0_5]), row_no (by simp [g0_12]), row_ok (by simp [g0_12, g15_3]), f0, f1, f2]
theorem Encoding.pxor (d : BitVec 3) (a : BitVec 3) (b : BitVec 3) : Encoding.Statement (.pxor d a b) := by
  intro _ hW c
  have := BitVec.isLt c; have := BitVec.isLt d; have := BitVec.isLt a; have := BitVec.isLt b
  have hE : encodeHost c (.pxor d a b) = BitVec.ofNat 32 (c.toNat * 2 ^ 31 + (d.toNat * 2 ^ 21 + (a.toNat * 2 ^ 18 + (b.toNat * 2 ^ 12 + 0x37000003)))) := rfl
  have hM : (fld (encodeHost c (.pxor d a b)) 24 7).toNat = 0x37 := by rw [fld_of hE 0x37#7 (by simp only [BitVec.toNat_ofNat]; omega)]; rfl
  refine decode_of hM (.inl rfl) ?_ hW (fld_of hE _ (by omega))
  rw [raw37 hM]
  generalize encodeHost c (.pxor d a b) = W at *
  have f0 : fld W 21 3 = d := fld_of hE _ (by omega)
  have f1 : fld W 18 3 = a := fld_of hE _ (by omega)
  have f2 : fld W 12 3 = b := fld_of hE _ (by omega)
  have g0_5 : fld W 0 5 = 3#5 := fld_of hE _ (by simp only [BitVec.toNat_ofNat]; omega)
  have g0_12 : fld W 0 12 = 3#12 := fld_of hE _ (by simp only [BitVec.toNat_ofNat]; omega)
  have g15_3 : fld W 15 3 = 0#3 := fld_of hE _ (by simp only [BitVec.toNat_ofNat]; omega)
  rw [dec37, row_no (by simp [g0_5]), row_no (by simp [g0_12]), row_no (by simp [g0_12]), row_ok (by simp [g0_12, g15_3]), f0, f1, f2]
theorem Encoding.pnot (d : BitVec 3) (a : BitVec 3) : Encoding.Statement (.pnot d a) := by
  intro _ hW c
  have := BitVec.isLt c; have := BitVec.isLt d; have := BitVec.isLt a
  have hE : encodeHost c (.pnot d a) = BitVec.ofNat 32 (c.toNat * 2 ^ 31 + (d.toNat * 2 ^ 21 + (a.toNat * 2 ^ 18 + 0x37000004))) := rfl
  have hM : (fld (encodeHost c (.pnot d a)) 24 7).toNat = 0x37 := by rw [fld_of hE 0x37#7 (by simp only [BitVec.toNat_ofNat]; omega)]; rfl
  refine decode_of hM (.inl rfl) ?_ hW (fld_of hE _ (by omega))
  rw [raw37 hM]
  generalize encodeHost c (.pnot d a) = W at *
  have f0 : fld W 21 3 = d := fld_of hE _ (by omega)
  have f1 : fld W 18 3 = a := fld_of hE _ (by omega)
  have g0_5 : fld W 0 5 = 4#5 := fld_of hE _ (by simp only [BitVec.toNat_ofNat]; omega)
  have g0_12 : fld W 0 12 = 4#12 := fld_of hE _ (by simp only [BitVec.toNat_ofNat]; omega)
  have g0_18 : fld W 0 18 = 4#18 := fld_of hE _ (by simp only [BitVec.toNat_ofNat]; omega)
  rw [dec37, row_no (by simp [g0_5]), row_no (by simp [g0_12]), row_no (by simp [g0_12]), row_no (by simp [g0_12]), row_ok (by simp [g0_18]), f0, f1]
theorem Encoding.pfromcc (d : BitVec 3) (e : BitVec 4) : Encoding.Statement (.pfromcc d e) := by
  intro _ hW c
  have := BitVec.isLt c; have := BitVec.isLt d; have := BitVec.isLt e
  have hE : encodeHost c (.pfromcc d e) = BitVec.ofNat 32 (c.toNat * 2 ^ 31 + (d.toNat * 2 ^ 21 + (e.toNat * 2 ^ 5 + 0x37000005))) := rfl
  have hM : (fld (encodeHost c (.pfromcc d e)) 24 7).toNat = 0x37 := by rw [fld_of hE 0x37#7 (by simp only [BitVec.toNat_ofNat]; omega)]; rfl
  refine decode_of hM (.inl rfl) ?_ hW (fld_of hE _ (by omega))
  rw [raw37 hM]
  generalize encodeHost c (.pfromcc d e) = W at *
  have f0 : fld W 21 3 = d := fld_of hE _ (by omega)
  have f1 : fld W 5 4 = e := fld_of hE _ (by omega)
  have g0_5 : fld W 0 5 = 5#5 := fld_of hE _ (by simp only [BitVec.toNat_ofNat]; omega)
  have g9_12 : fld W 9 12 = 0#12 := fld_of hE _ (by simp only [BitVec.toNat_ofNat]; omega)
  have p0_12_1 : (fld W 0 12 == 1#12) = false := fld_ne hE (by omega)
  have p0_12_2 : (fld W 0 12 == 2#12) = false := fld_ne hE (by omega)
  have p0_12_3 : (fld W 0 12 == 3#12) = false := fld_ne hE (by omega)
  have p0_18_4 : (fld W 0 18 == 4#18) = false := fld_ne hE (by omega)
  rw [dec37, row_no (by simp [g0_5]), row_no (by simp [p0_12_1]), row_no (by simp [p0_12_2]), row_no (by simp [p0_12_3]), row_no (by simp [p0_18_4]), row_ok (by simp [g0_5, g9_12]), f0, f1]
theorem Encoding.vaddFloat (d : BitVec 6) (s : BitVec 1) (a : BitVec 6) (b : BitVec 6) (r : BitVec 3) (y : BitVec 2) : Encoding.Statement (.vaddFloat d s a b r y) := by
  intro _ hW c
  have := BitVec.isLt c; have := BitVec.isLt d; have := BitVec.isLt s; have := BitVec.isLt a; have := BitVec.isLt b; have := BitVec.isLt r; have := BitVec.isLt y
  have hE : encodeHost c (.vaddFloat d s a b r y) = BitVec.ofNat 32 (c.toNat * 2 ^ 31 + (d.toNat * 2 ^ 18 + (s.toNat * 2 ^ 17 + (a.toNat * 2 ^ 11 + (b.toNat * 2 ^ 5 + (r.toNat * 2 ^ 2 + (y.toNat * 2 ^ 0 + 0x38000000))))))) := rfl
  have hM : (fld (encodeHost c (.vaddFloat d s a b r y)) 24 7).toNat = 0x38 := by rw [fld_of hE 0x38#7 (by simp only [BitVec.toNat_ofNat]; omega)]; rfl
  refine decode_of hM (.inl rfl) ?_ hW (fld_of hE _ (by omega))
  rw [raw38 hM]
  generalize encodeHost c (.vaddFloat d s a b r y) = W at *
  have f0 : fld W 18 6 = d := fld_of hE _ (by omega)
  have f1 : fld W 17 1 = s := fld_of hE _ (by omega)
  have f2 : fld W 11 6 = a := fld_of hE _ (by omega)
  have f3 : fld W 5 6 = b := fld_of hE _ (by omega)
  have f4 : fld W 2 3 = r := fld_of hE _ (by omega)
  have f5 : fld W 0 2 = y := fld_of hE _ (by omega)
  rw [dec38, row_ok (by simp []), f0, f1, f2, f3, f4, f5]
theorem Encoding.vsubFloat (d : BitVec 6) (s : BitVec 1) (a : BitVec 6) (b : BitVec 6) (r : BitVec 3) (y : BitVec 2) : Encoding.Statement (.vsubFloat d s a b r y) := by
  intro _ hW c
  have := BitVec.isLt c; have := BitVec.isLt d; have := BitVec.isLt s; have := BitVec.isLt a; have := BitVec.isLt b; have := BitVec.isLt r; have := BitVec.isLt y
  have hE : encodeHost c (.vsubFloat d s a b r y) = BitVec.ofNat 32 (c.toNat * 2 ^ 31 + (d.toNat * 2 ^ 18 + (s.toNat * 2 ^ 17 + (a.toNat * 2 ^ 11 + (b.toNat * 2 ^ 5 + (r.toNat * 2 ^ 2 + (y.toNat * 2 ^ 0 + 0x39000000))))))) := rfl
  have hM : (fld (encodeHost c (.vsubFloat d s a b r y)) 24 7).toNat = 0x39 := by rw [fld_of hE 0x39#7 (by simp only [BitVec.toNat_ofNat]; omega)]; rfl
  refine decode_of hM (.inl rfl) ?_ hW (fld_of hE _ (by omega))
  rw [raw39 hM]
  generalize encodeHost c (.vsubFloat d s a b r y) = W at *
  have f0 : fld W 18 6 = d := fld_of hE _ (by omega)
  have f1 : fld W 17 1 = s := fld_of hE _ (by omega)
  have f2 : fld W 11 6 = a := fld_of hE _ (by omega)
  have f3 : fld W 5 6 = b := fld_of hE _ (by omega)
  have f4 : fld W 2 3 = r := fld_of hE _ (by omega)
  have f5 : fld W 0 2 = y := fld_of hE _ (by omega)
  rw [dec39, row_ok (by simp []), f0, f1, f2, f3, f4, f5]
theorem Encoding.vmulFloat (d : BitVec 6) (s : BitVec 1) (a : BitVec 6) (b : BitVec 6) (r : BitVec 3) (y : BitVec 2) : Encoding.Statement (.vmulFloat d s a b r y) := by
  intro _ hW c
  have := BitVec.isLt c; have := BitVec.isLt d; have := BitVec.isLt s; have := BitVec.isLt a; have := BitVec.isLt b; have := BitVec.isLt r; have := BitVec.isLt y
  have hE : encodeHost c (.vmulFloat d s a b r y) = BitVec.ofNat 32 (c.toNat * 2 ^ 31 + (d.toNat * 2 ^ 18 + (s.toNat * 2 ^ 17 + (a.toNat * 2 ^ 11 + (b.toNat * 2 ^ 5 + (r.toNat * 2 ^ 2 + (y.toNat * 2 ^ 0 + 0x3A000000))))))) := rfl
  have hM : (fld (encodeHost c (.vmulFloat d s a b r y)) 24 7).toNat = 0x3A := by rw [fld_of hE 0x3A#7 (by simp only [BitVec.toNat_ofNat]; omega)]; rfl
  refine decode_of hM (.inl rfl) ?_ hW (fld_of hE _ (by omega))
  rw [raw3A hM]
  generalize encodeHost c (.vmulFloat d s a b r y) = W at *
  have f0 : fld W 18 6 = d := fld_of hE _ (by omega)
  have f1 : fld W 17 1 = s := fld_of hE _ (by omega)
  have f2 : fld W 11 6 = a := fld_of hE _ (by omega)
  have f3 : fld W 5 6 = b := fld_of hE _ (by omega)
  have f4 : fld W 2 3 = r := fld_of hE _ (by omega)
  have f5 : fld W 0 2 = y := fld_of hE _ (by omega)
  rw [dec3A, row_ok (by simp []), f0, f1, f2, f3, f4, f5]
theorem Encoding.vfma (d : BitVec 6) (s : BitVec 1) (a : BitVec 6) (b : BitVec 6) (r : BitVec 3) (y : BitVec 2) : Encoding.Statement (.vfma d s a b r y) := by
  intro _ hW c
  have := BitVec.isLt c; have := BitVec.isLt d; have := BitVec.isLt s; have := BitVec.isLt a; have := BitVec.isLt b; have := BitVec.isLt r; have := BitVec.isLt y
  have hE : encodeHost c (.vfma d s a b r y) = BitVec.ofNat 32 (c.toNat * 2 ^ 31 + (d.toNat * 2 ^ 18 + (s.toNat * 2 ^ 17 + (a.toNat * 2 ^ 11 + (b.toNat * 2 ^ 5 + (r.toNat * 2 ^ 2 + (y.toNat * 2 ^ 0 + 0x3B000000))))))) := rfl
  have hM : (fld (encodeHost c (.vfma d s a b r y)) 24 7).toNat = 0x3B := by rw [fld_of hE 0x3B#7 (by simp only [BitVec.toNat_ofNat]; omega)]; rfl
  refine decode_of hM (.inl rfl) ?_ hW (fld_of hE _ (by omega))
  rw [raw3B hM]
  generalize encodeHost c (.vfma d s a b r y) = W at *
  have f0 : fld W 18 6 = d := fld_of hE _ (by omega)
  have f1 : fld W 17 1 = s := fld_of hE _ (by omega)
  have f2 : fld W 11 6 = a := fld_of hE _ (by omega)
  have f3 : fld W 5 6 = b := fld_of hE _ (by omega)
  have f4 : fld W 2 3 = r := fld_of hE _ (by omega)
  have f5 : fld W 0 2 = y := fld_of hE _ (by omega)
  rw [dec3B, row_ok (by simp []), f0, f1, f2, f3, f4, f5]
theorem Encoding.vfms (d : BitVec 6) (s : BitVec 1) (a : BitVec 6) (b : BitVec 6) (r : BitVec 3) (y : BitVec 2) : Encoding.Statement (.vfms d s a b r y) := by
  intro _ hW c
  have := BitVec.isLt c; have := BitVec.isLt d; have := BitVec.isLt s; have := BitVec.isLt a; have := BitVec.isLt b; have := BitVec.isLt r; have := BitVec.isLt y
  have hE : encodeHost c (.vfms d s a b r y) = BitVec.ofNat 32 (c.toNat * 2 ^ 31 + (d.toNat * 2 ^ 18 + (s.toNat * 2 ^ 17 + (a.toNat * 2 ^ 11 + (b.toNat * 2 ^ 5 + (r.toNat * 2 ^ 2 + (y.toNat * 2 ^ 0 + 0x3C000000))))))) := rfl
  have hM : (fld (encodeHost c (.vfms d s a b r y)) 24 7).toNat = 0x3C := by rw [fld_of hE 0x3C#7 (by simp only [BitVec.toNat_ofNat]; omega)]; rfl
  refine decode_of hM (.inl rfl) ?_ hW (fld_of hE _ (by omega))
  rw [raw3C hM]
  generalize encodeHost c (.vfms d s a b r y) = W at *
  have f0 : fld W 18 6 = d := fld_of hE _ (by omega)
  have f1 : fld W 17 1 = s := fld_of hE _ (by omega)
  have f2 : fld W 11 6 = a := fld_of hE _ (by omega)
  have f3 : fld W 5 6 = b := fld_of hE _ (by omega)
  have f4 : fld W 2 3 = r := fld_of hE _ (by omega)
  have f5 : fld W 0 2 = y := fld_of hE _ (by omega)
  rw [dec3C, row_ok (by simp []), f0, f1, f2, f3, f4, f5]
theorem Encoding.vminFloat (d : BitVec 6) (s : BitVec 1) (a : BitVec 6) (b : BitVec 6) (y : BitVec 2) : Encoding.Statement (.vminFloat d s a b y) := by
  intro _ hW c
  have := BitVec.isLt c; have := BitVec.isLt d; have := BitVec.isLt s; have := BitVec.isLt a; have := BitVec.isLt b; have := BitVec.isLt y
  have hE : encodeHost c (.vminFloat d s a b y) = BitVec.ofNat 32 (c.toNat * 2 ^ 31 + (d.toNat * 2 ^ 18 + (s.toNat * 2 ^ 17 + (a.toNat * 2 ^ 11 + (b.toNat * 2 ^ 5 + (y.toNat * 2 ^ 0 + 0x3D000000)))))) := rfl
  have hM : (fld (encodeHost c (.vminFloat d s a b y)) 24 7).toNat = 0x3D := by rw [fld_of hE 0x3D#7 (by simp only [BitVec.toNat_ofNat]; omega)]; rfl
  refine decode_of hM (.inl rfl) ?_ hW (fld_of hE _ (by omega))
  rw [raw3D hM]
  generalize encodeHost c (.vminFloat d s a b y) = W at *
  have f0 : fld W 18 6 = d := fld_of hE _ (by omega)
  have f1 : fld W 17 1 = s := fld_of hE _ (by omega)
  have f2 : fld W 11 6 = a := fld_of hE _ (by omega)
  have f3 : fld W 5 6 = b := fld_of hE _ (by omega)
  have f4 : fld W 0 2 = y := fld_of hE _ (by omega)
  have g2_3 : fld W 2 3 = 0#3 := fld_of hE _ (by simp only [BitVec.toNat_ofNat]; omega)
  rw [dec3D, row_ok (by simp [g2_3]), f0, f1, f2, f3, f4]
theorem Encoding.vmaxFloat (d : BitVec 6) (s : BitVec 1) (a : BitVec 6) (b : BitVec 6) (y : BitVec 2) : Encoding.Statement (.vmaxFloat d s a b y) := by
  intro _ hW c
  have := BitVec.isLt c; have := BitVec.isLt d; have := BitVec.isLt s; have := BitVec.isLt a; have := BitVec.isLt b; have := BitVec.isLt y
  have hE : encodeHost c (.vmaxFloat d s a b y) = BitVec.ofNat 32 (c.toNat * 2 ^ 31 + (d.toNat * 2 ^ 18 + (s.toNat * 2 ^ 17 + (a.toNat * 2 ^ 11 + (b.toNat * 2 ^ 5 + (y.toNat * 2 ^ 0 + 0x3E000000)))))) := rfl
  have hM : (fld (encodeHost c (.vmaxFloat d s a b y)) 24 7).toNat = 0x3E := by rw [fld_of hE 0x3E#7 (by simp only [BitVec.toNat_ofNat]; omega)]; rfl
  refine decode_of hM (.inl rfl) ?_ hW (fld_of hE _ (by omega))
  rw [raw3E hM]
  generalize encodeHost c (.vmaxFloat d s a b y) = W at *
  have f0 : fld W 18 6 = d := fld_of hE _ (by omega)
  have f1 : fld W 17 1 = s := fld_of hE _ (by omega)
  have f2 : fld W 11 6 = a := fld_of hE _ (by omega)
  have f3 : fld W 5 6 = b := fld_of hE _ (by omega)
  have f4 : fld W 0 2 = y := fld_of hE _ (by omega)
  have g2_3 : fld W 2 3 = 0#3 := fld_of hE _ (by simp only [BitVec.toNat_ofNat]; omega)
  rw [dec3E, row_ok (by simp [g2_3]), f0, f1, f2, f3, f4]
theorem Encoding.vcmpFloat (a : BitVec 6) (b : BitVec 6) (y : BitVec 2) : Encoding.Statement (.vcmpFloat a b y) := by
  intro _ hW c
  have := BitVec.isLt c; have := BitVec.isLt a; have := BitVec.isLt b; have := BitVec.isLt y
  have hE : encodeHost c (.vcmpFloat a b y) = BitVec.ofNat 32 (c.toNat * 2 ^ 31 + (a.toNat * 2 ^ 11 + (b.toNat * 2 ^ 5 + (y.toNat * 2 ^ 0 + 0x3F000000)))) := rfl
  have hM : (fld (encodeHost c (.vcmpFloat a b y)) 24 7).toNat = 0x3F := by rw [fld_of hE 0x3F#7 (by simp only [BitVec.toNat_ofNat]; omega)]; rfl
  refine decode_of hM (.inl rfl) ?_ hW (fld_of hE _ (by omega))
  rw [raw3F hM]
  generalize encodeHost c (.vcmpFloat a b y) = W at *
  have f0 : fld W 11 6 = a := fld_of hE _ (by omega)
  have f1 : fld W 5 6 = b := fld_of hE _ (by omega)
  have f2 : fld W 0 2 = y := fld_of hE _ (by omega)
  have g2_3 : fld W 2 3 = 0#3 := fld_of hE _ (by simp only [BitVec.toNat_ofNat]; omega)
  have g17_7 : fld W 17 7 = 0#7 := fld_of hE _ (by simp only [BitVec.toNat_ofNat]; omega)
  rw [dec3F, row_ok (by simp [g2_3, g17_7]), f0, f1, f2]
theorem Encoding.vabs (d : BitVec 6) (s : BitVec 1) (a : BitVec 6) (r : BitVec 3) (y : BitVec 2) : Encoding.Statement (.vabs d s a r y) := by
  intro _ hW c
  have := BitVec.isLt c; have := BitVec.isLt d; have := BitVec.isLt s; have := BitVec.isLt a; have := BitVec.isLt r; have := BitVec.isLt y
  have hE : encodeHost c (.vabs d s a r y) = BitVec.ofNat 32 (c.toNat * 2 ^ 31 + (d.toNat * 2 ^ 18 + (s.toNat * 2 ^ 17 + (a.toNat * 2 ^ 11 + (r.toNat * 2 ^ 2 + (y.toNat * 2 ^ 0 + 0x40000000)))))) := rfl
  have hM : (fld (encodeHost c (.vabs d s a r y)) 24 7).toNat = 0x40 := by rw [fld_of hE 0x40#7 (by simp only [BitVec.toNat_ofNat]; omega)]; rfl
  refine decode_of hM (.inl rfl) ?_ hW (fld_of hE _ (by omega))
  rw [raw40 hM]
  generalize encodeHost c (.vabs d s a r y) = W at *
  have f0 : fld W 18 6 = d := fld_of hE _ (by omega)
  have f1 : fld W 17 1 = s := fld_of hE _ (by omega)
  have f2 : fld W 11 6 = a := fld_of hE _ (by omega)
  have f3 : fld W 2 3 = r := fld_of hE _ (by omega)
  have f4 : fld W 0 2 = y := fld_of hE _ (by omega)
  have g5_6 : fld W 5 6 = 0#6 := fld_of hE _ (by simp only [BitVec.toNat_ofNat]; omega)
  rw [dec40, row_ok (by simp [g5_6]), f0, f1, f2, f3, f4]
theorem Encoding.vneg (d : BitVec 6) (s : BitVec 1) (a : BitVec 6) (r : BitVec 3) (y : BitVec 2) : Encoding.Statement (.vneg d s a r y) := by
  intro _ hW c
  have := BitVec.isLt c; have := BitVec.isLt d; have := BitVec.isLt s; have := BitVec.isLt a; have := BitVec.isLt r; have := BitVec.isLt y
  have hE : encodeHost c (.vneg d s a r y) = BitVec.ofNat 32 (c.toNat * 2 ^ 31 + (d.toNat * 2 ^ 18 + (s.toNat * 2 ^ 17 + (a.toNat * 2 ^ 11 + (r.toNat * 2 ^ 2 + (y.toNat * 2 ^ 0 + 0x40000020)))))) := rfl
  have hM : (fld (encodeHost c (.vneg d s a r y)) 24 7).toNat = 0x40 := by rw [fld_of hE 0x40#7 (by simp only [BitVec.toNat_ofNat]; omega)]; rfl
  refine decode_of hM (.inl rfl) ?_ hW (fld_of hE _ (by omega))
  rw [raw40 hM]
  generalize encodeHost c (.vneg d s a r y) = W at *
  have f0 : fld W 18 6 = d := fld_of hE _ (by omega)
  have f1 : fld W 17 1 = s := fld_of hE _ (by omega)
  have f2 : fld W 11 6 = a := fld_of hE _ (by omega)
  have f3 : fld W 2 3 = r := fld_of hE _ (by omega)
  have f4 : fld W 0 2 = y := fld_of hE _ (by omega)
  have g5_6 : fld W 5 6 = 1#6 := fld_of hE _ (by simp only [BitVec.toNat_ofNat]; omega)
  rw [dec40, row_no (by simp [g5_6]), row_ok (by simp [g5_6]), f0, f1, f2, f3, f4]
theorem Encoding.vsqrt (d : BitVec 6) (s : BitVec 1) (a : BitVec 6) (r : BitVec 3) (y : BitVec 2) : Encoding.Statement (.vsqrt d s a r y) := by
  intro _ hW c
  have := BitVec.isLt c; have := BitVec.isLt d; have := BitVec.isLt s; have := BitVec.isLt a; have := BitVec.isLt r; have := BitVec.isLt y
  have hE : encodeHost c (.vsqrt d s a r y) = BitVec.ofNat 32 (c.toNat * 2 ^ 31 + (d.toNat * 2 ^ 18 + (s.toNat * 2 ^ 17 + (a.toNat * 2 ^ 11 + (r.toNat * 2 ^ 2 + (y.toNat * 2 ^ 0 + 0x40000040)))))) := rfl
  have hM : (fld (encodeHost c (.vsqrt d s a r y)) 24 7).toNat = 0x40 := by rw [fld_of hE 0x40#7 (by simp only [BitVec.toNat_ofNat]; omega)]; rfl
  refine decode_of hM (.inl rfl) ?_ hW (fld_of hE _ (by omega))
  rw [raw40 hM]
  generalize encodeHost c (.vsqrt d s a r y) = W at *
  have f0 : fld W 18 6 = d := fld_of hE _ (by omega)
  have f1 : fld W 17 1 = s := fld_of hE _ (by omega)
  have f2 : fld W 11 6 = a := fld_of hE _ (by omega)
  have f3 : fld W 2 3 = r := fld_of hE _ (by omega)
  have f4 : fld W 0 2 = y := fld_of hE _ (by omega)
  have g5_6 : fld W 5 6 = 2#6 := fld_of hE _ (by simp only [BitVec.toNat_ofNat]; omega)
  rw [dec40, row_no (by simp [g5_6]), row_no (by simp [g5_6]), row_ok (by simp [g5_6]), f0, f1, f2, f3, f4]
theorem Encoding.vrcp (d : BitVec 6) (s : BitVec 1) (a : BitVec 6) (r : BitVec 3) (y : BitVec 2) : Encoding.Statement (.vrcp d s a r y) := by
  intro _ hW c
  have := BitVec.isLt c; have := BitVec.isLt d; have := BitVec.isLt s; have := BitVec.isLt a; have := BitVec.isLt r; have := BitVec.isLt y
  have hE : encodeHost c (.vrcp d s a r y) = BitVec.ofNat 32 (c.toNat * 2 ^ 31 + (d.toNat * 2 ^ 18 + (s.toNat * 2 ^ 17 + (a.toNat * 2 ^ 11 + (r.toNat * 2 ^ 2 + (y.toNat * 2 ^ 0 + 0x40000060)))))) := rfl
  have hM : (fld (encodeHost c (.vrcp d s a r y)) 24 7).toNat = 0x40 := by rw [fld_of hE 0x40#7 (by simp only [BitVec.toNat_ofNat]; omega)]; rfl
  refine decode_of hM (.inl rfl) ?_ hW (fld_of hE _ (by omega))
  rw [raw40 hM]
  generalize encodeHost c (.vrcp d s a r y) = W at *
  have f0 : fld W 18 6 = d := fld_of hE _ (by omega)
  have f1 : fld W 17 1 = s := fld_of hE _ (by omega)
  have f2 : fld W 11 6 = a := fld_of hE _ (by omega)
  have f3 : fld W 2 3 = r := fld_of hE _ (by omega)
  have f4 : fld W 0 2 = y := fld_of hE _ (by omega)
  have g5_6 : fld W 5 6 = 3#6 := fld_of hE _ (by simp only [BitVec.toNat_ofNat]; omega)
  rw [dec40, row_no (by simp [g5_6]), row_no (by simp [g5_6]), row_no (by simp [g5_6]), row_ok (by simp [g5_6]), f0, f1, f2, f3, f4]
theorem Encoding.vrsqrt (d : BitVec 6) (s : BitVec 1) (a : BitVec 6) (r : BitVec 3) (y : BitVec 2) : Encoding.Statement (.vrsqrt d s a r y) := by
  intro _ hW c
  have := BitVec.isLt c; have := BitVec.isLt d; have := BitVec.isLt s; have := BitVec.isLt a; have := BitVec.isLt r; have := BitVec.isLt y
  have hE : encodeHost c (.vrsqrt d s a r y) = BitVec.ofNat 32 (c.toNat * 2 ^ 31 + (d.toNat * 2 ^ 18 + (s.toNat * 2 ^ 17 + (a.toNat * 2 ^ 11 + (r.toNat * 2 ^ 2 + (y.toNat * 2 ^ 0 + 0x40000080)))))) := rfl
  have hM : (fld (encodeHost c (.vrsqrt d s a r y)) 24 7).toNat = 0x40 := by rw [fld_of hE 0x40#7 (by simp only [BitVec.toNat_ofNat]; omega)]; rfl
  refine decode_of hM (.inl rfl) ?_ hW (fld_of hE _ (by omega))
  rw [raw40 hM]
  generalize encodeHost c (.vrsqrt d s a r y) = W at *
  have f0 : fld W 18 6 = d := fld_of hE _ (by omega)
  have f1 : fld W 17 1 = s := fld_of hE _ (by omega)
  have f2 : fld W 11 6 = a := fld_of hE _ (by omega)
  have f3 : fld W 2 3 = r := fld_of hE _ (by omega)
  have f4 : fld W 0 2 = y := fld_of hE _ (by omega)
  have g5_6 : fld W 5 6 = 4#6 := fld_of hE _ (by simp only [BitVec.toNat_ofNat]; omega)
  rw [dec40, row_no (by simp [g5_6]), row_no (by simp [g5_6]), row_no (by simp [g5_6]), row_no (by simp [g5_6]), row_ok (by simp [g5_6]), f0, f1, f2, f3, f4]
theorem Encoding.vexp2 (d : BitVec 6) (s : BitVec 1) (a : BitVec 6) (r : BitVec 3) (y : BitVec 2) : Encoding.Statement (.vexp2 d s a r y) := by
  intro _ hW c
  have := BitVec.isLt c; have := BitVec.isLt d; have := BitVec.isLt s; have := BitVec.isLt a; have := BitVec.isLt r; have := BitVec.isLt y
  have hE : encodeHost c (.vexp2 d s a r y) = BitVec.ofNat 32 (c.toNat * 2 ^ 31 + (d.toNat * 2 ^ 18 + (s.toNat * 2 ^ 17 + (a.toNat * 2 ^ 11 + (r.toNat * 2 ^ 2 + (y.toNat * 2 ^ 0 + 0x400000A0)))))) := rfl
  have hM : (fld (encodeHost c (.vexp2 d s a r y)) 24 7).toNat = 0x40 := by rw [fld_of hE 0x40#7 (by simp only [BitVec.toNat_ofNat]; omega)]; rfl
  refine decode_of hM (.inl rfl) ?_ hW (fld_of hE _ (by omega))
  rw [raw40 hM]
  generalize encodeHost c (.vexp2 d s a r y) = W at *
  have f0 : fld W 18 6 = d := fld_of hE _ (by omega)
  have f1 : fld W 17 1 = s := fld_of hE _ (by omega)
  have f2 : fld W 11 6 = a := fld_of hE _ (by omega)
  have f3 : fld W 2 3 = r := fld_of hE _ (by omega)
  have f4 : fld W 0 2 = y := fld_of hE _ (by omega)
  have g5_6 : fld W 5 6 = 5#6 := fld_of hE _ (by simp only [BitVec.toNat_ofNat]; omega)
  rw [dec40, row_no (by simp [g5_6]), row_no (by simp [g5_6]), row_no (by simp [g5_6]), row_no (by simp [g5_6]), row_no (by simp [g5_6]), row_ok (by simp [g5_6]), f0, f1, f2, f3, f4]
theorem Encoding.vlog2 (d : BitVec 6) (s : BitVec 1) (a : BitVec 6) (r : BitVec 3) (y : BitVec 2) : Encoding.Statement (.vlog2 d s a r y) := by
  intro _ hW c
  have := BitVec.isLt c; have := BitVec.isLt d; have := BitVec.isLt s; have := BitVec.isLt a; have := BitVec.isLt r; have := BitVec.isLt y
  have hE : encodeHost c (.vlog2 d s a r y) = BitVec.ofNat 32 (c.toNat * 2 ^ 31 + (d.toNat * 2 ^ 18 + (s.toNat * 2 ^ 17 + (a.toNat * 2 ^ 11 + (r.toNat * 2 ^ 2 + (y.toNat * 2 ^ 0 + 0x400000C0)))))) := rfl
  have hM : (fld (encodeHost c (.vlog2 d s a r y)) 24 7).toNat = 0x40 := by rw [fld_of hE 0x40#7 (by simp only [BitVec.toNat_ofNat]; omega)]; rfl
  refine decode_of hM (.inl rfl) ?_ hW (fld_of hE _ (by omega))
  rw [raw40 hM]
  generalize encodeHost c (.vlog2 d s a r y) = W at *
  have f0 : fld W 18 6 = d := fld_of hE _ (by omega)
  have f1 : fld W 17 1 = s := fld_of hE _ (by omega)
  have f2 : fld W 11 6 = a := fld_of hE _ (by omega)
  have f3 : fld W 2 3 = r := fld_of hE _ (by omega)
  have f4 : fld W 0 2 = y := fld_of hE _ (by omega)
  have g5_6 : fld W 5 6 = 6#6 := fld_of hE _ (by simp only [BitVec.toNat_ofNat]; omega)
  rw [dec40, row_no (by simp [g5_6]), row_no (by simp [g5_6]), row_no (by simp [g5_6]), row_no (by simp [g5_6]), row_no (by simp [g5_6]), row_no (by simp [g5_6]), row_ok (by simp [g5_6]), f0, f1, f2, f3, f4]
theorem Encoding.vsin (d : BitVec 6) (s : BitVec 1) (a : BitVec 6) (r : BitVec 3) (y : BitVec 2) : Encoding.Statement (.vsin d s a r y) := by
  intro _ hW c
  have := BitVec.isLt c; have := BitVec.isLt d; have := BitVec.isLt s; have := BitVec.isLt a; have := BitVec.isLt r; have := BitVec.isLt y
  have hE : encodeHost c (.vsin d s a r y) = BitVec.ofNat 32 (c.toNat * 2 ^ 31 + (d.toNat * 2 ^ 18 + (s.toNat * 2 ^ 17 + (a.toNat * 2 ^ 11 + (r.toNat * 2 ^ 2 + (y.toNat * 2 ^ 0 + 0x400000E0)))))) := rfl
  have hM : (fld (encodeHost c (.vsin d s a r y)) 24 7).toNat = 0x40 := by rw [fld_of hE 0x40#7 (by simp only [BitVec.toNat_ofNat]; omega)]; rfl
  refine decode_of hM (.inl rfl) ?_ hW (fld_of hE _ (by omega))
  rw [raw40 hM]
  generalize encodeHost c (.vsin d s a r y) = W at *
  have f0 : fld W 18 6 = d := fld_of hE _ (by omega)
  have f1 : fld W 17 1 = s := fld_of hE _ (by omega)
  have f2 : fld W 11 6 = a := fld_of hE _ (by omega)
  have f3 : fld W 2 3 = r := fld_of hE _ (by omega)
  have f4 : fld W 0 2 = y := fld_of hE _ (by omega)
  have g5_6 : fld W 5 6 = 7#6 := fld_of hE _ (by simp only [BitVec.toNat_ofNat]; omega)
  rw [dec40, row_no (by simp [g5_6]), row_no (by simp [g5_6]), row_no (by simp [g5_6]), row_no (by simp [g5_6]), row_no (by simp [g5_6]), row_no (by simp [g5_6]), row_no (by simp [g5_6]), row_ok (by simp [g5_6]), f0, f1, f2, f3, f4]
theorem Encoding.vcos (d : BitVec 6) (s : BitVec 1) (a : BitVec 6) (r : BitVec 3) (y : BitVec 2) : Encoding.Statement (.vcos d s a r y) := by
  intro _ hW c
  have := BitVec.isLt c; have := BitVec.isLt d; have := BitVec.isLt s; have := BitVec.isLt a; have := BitVec.isLt r; have := BitVec.isLt y
  have hE : encodeHost c (.vcos d s a r y) = BitVec.ofNat 32 (c.toNat * 2 ^ 31 + (d.toNat * 2 ^ 18 + (s.toNat * 2 ^ 17 + (a.toNat * 2 ^ 11 + (r.toNat * 2 ^ 2 + (y.toNat * 2 ^ 0 + 0x40000100)))))) := rfl
  have hM : (fld (encodeHost c (.vcos d s a r y)) 24 7).toNat = 0x40 := by rw [fld_of hE 0x40#7 (by simp only [BitVec.toNat_ofNat]; omega)]; rfl
  refine decode_of hM (.inl rfl) ?_ hW (fld_of hE _ (by omega))
  rw [raw40 hM]
  generalize encodeHost c (.vcos d s a r y) = W at *
  have f0 : fld W 18 6 = d := fld_of hE _ (by omega)
  have f1 : fld W 17 1 = s := fld_of hE _ (by omega)
  have f2 : fld W 11 6 = a := fld_of hE _ (by omega)
  have f3 : fld W 2 3 = r := fld_of hE _ (by omega)
  have f4 : fld W 0 2 = y := fld_of hE _ (by omega)
  have g5_6 : fld W 5 6 = 8#6 := fld_of hE _ (by simp only [BitVec.toNat_ofNat]; omega)
  rw [dec40, row_no (by simp [g5_6]), row_no (by simp [g5_6]), row_no (by simp [g5_6]), row_no (by simp [g5_6]), row_no (by simp [g5_6]), row_no (by simp [g5_6]), row_no (by simp [g5_6]), row_no (by simp [g5_6]), row_ok (by simp [g5_6]), f0, f1, f2, f3, f4]
theorem Encoding.vtanh (d : BitVec 6) (s : BitVec 1) (a : BitVec 6) (r : BitVec 3) (y : BitVec 2) : Encoding.Statement (.vtanh d s a r y) := by
  intro _ hW c
  have := BitVec.isLt c; have := BitVec.isLt d; have := BitVec.isLt s; have := BitVec.isLt a; have := BitVec.isLt r; have := BitVec.isLt y
  have hE : encodeHost c (.vtanh d s a r y) = BitVec.ofNat 32 (c.toNat * 2 ^ 31 + (d.toNat * 2 ^ 18 + (s.toNat * 2 ^ 17 + (a.toNat * 2 ^ 11 + (r.toNat * 2 ^ 2 + (y.toNat * 2 ^ 0 + 0x40000120)))))) := rfl
  have hM : (fld (encodeHost c (.vtanh d s a r y)) 24 7).toNat = 0x40 := by rw [fld_of hE 0x40#7 (by simp only [BitVec.toNat_ofNat]; omega)]; rfl
  refine decode_of hM (.inl rfl) ?_ hW (fld_of hE _ (by omega))
  rw [raw40 hM]
  generalize encodeHost c (.vtanh d s a r y) = W at *
  have f0 : fld W 18 6 = d := fld_of hE _ (by omega)
  have f1 : fld W 17 1 = s := fld_of hE _ (by omega)
  have f2 : fld W 11 6 = a := fld_of hE _ (by omega)
  have f3 : fld W 2 3 = r := fld_of hE _ (by omega)
  have f4 : fld W 0 2 = y := fld_of hE _ (by omega)
  have g5_6 : fld W 5 6 = 9#6 := fld_of hE _ (by simp only [BitVec.toNat_ofNat]; omega)
  rw [dec40, row_no (by simp [g5_6]), row_no (by simp [g5_6]), row_no (by simp [g5_6]), row_no (by simp [g5_6]), row_no (by simp [g5_6]), row_no (by simp [g5_6]), row_no (by simp [g5_6]), row_no (by simp [g5_6]), row_no (by simp [g5_6]), row_ok (by simp [g5_6]), f0, f1, f2, f3, f4]
theorem Encoding.vclass (d : BitVec 6) (s : BitVec 1) (a : BitVec 6) (y : BitVec 2) : Encoding.Statement (.vclass d s a y) := by
  intro _ hW c
  have := BitVec.isLt c; have := BitVec.isLt d; have := BitVec.isLt s; have := BitVec.isLt a; have := BitVec.isLt y
  have hE : encodeHost c (.vclass d s a y) = BitVec.ofNat 32 (c.toNat * 2 ^ 31 + (d.toNat * 2 ^ 18 + (s.toNat * 2 ^ 17 + (a.toNat * 2 ^ 11 + (y.toNat * 2 ^ 0 + 0x41000000))))) := rfl
  have hM : (fld (encodeHost c (.vclass d s a y)) 24 7).toNat = 0x41 := by rw [fld_of hE 0x41#7 (by simp only [BitVec.toNat_ofNat]; omega)]; rfl
  refine decode_of hM (.inl rfl) ?_ hW (fld_of hE _ (by omega))
  rw [raw41 hM]
  generalize encodeHost c (.vclass d s a y) = W at *
  have f0 : fld W 18 6 = d := fld_of hE _ (by omega)
  have f1 : fld W 17 1 = s := fld_of hE _ (by omega)
  have f2 : fld W 11 6 = a := fld_of hE _ (by omega)
  have f3 : fld W 0 2 = y := fld_of hE _ (by omega)
  have g2_9 : fld W 2 9 = 0#9 := fld_of hE _ (by simp only [BitVec.toNat_ofNat]; omega)
  rw [dec41, row_ok (by simp [g2_9]), f0, f1, f2, f3]
theorem Encoding.vcvt (d : BitVec 6) (s : BitVec 1) (a : BitVec 6) (t : BitVec 4) (u : BitVec 4) (r : BitVec 3) : Encoding.Statement (.vcvt d s a t u r) := by
  intro _ hW c
  have := BitVec.isLt c; have := BitVec.isLt d; have := BitVec.isLt s; have := BitVec.isLt a; have := BitVec.isLt t; have := BitVec.isLt u; have := BitVec.isLt r
  have hE : encodeHost c (.vcvt d s a t u r) = BitVec.ofNat 32 (c.toNat * 2 ^ 31 + (d.toNat * 2 ^ 18 + (s.toNat * 2 ^ 17 + (a.toNat * 2 ^ 11 + (t.toNat * 2 ^ 7 + (u.toNat * 2 ^ 3 + (r.toNat * 2 ^ 0 + 0x42000000))))))) := rfl
  have hM : (fld (encodeHost c (.vcvt d s a t u r)) 24 7).toNat = 0x42 := by rw [fld_of hE 0x42#7 (by simp only [BitVec.toNat_ofNat]; omega)]; rfl
  refine decode_of hM (.inl rfl) ?_ hW (fld_of hE _ (by omega))
  rw [raw42 hM]
  generalize encodeHost c (.vcvt d s a t u r) = W at *
  have f0 : fld W 18 6 = d := fld_of hE _ (by omega)
  have f1 : fld W 17 1 = s := fld_of hE _ (by omega)
  have f2 : fld W 11 6 = a := fld_of hE _ (by omega)
  have f3 : fld W 7 4 = t := fld_of hE _ (by omega)
  have f4 : fld W 3 4 = u := fld_of hE _ (by omega)
  have f5 : fld W 0 3 = r := fld_of hE _ (by omega)
  rw [dec42, row_ok (by simp []), f0, f1, f2, f3, f4, f5]
theorem Encoding.vcvtSat (d : BitVec 6) (s : BitVec 1) (a : BitVec 6) (t : BitVec 4) (u : BitVec 4) (r : BitVec 3) : Encoding.Statement (.vcvtSat d s a t u r) := by
  intro _ hW c
  have := BitVec.isLt c; have := BitVec.isLt d; have := BitVec.isLt s; have := BitVec.isLt a; have := BitVec.isLt t; have := BitVec.isLt u; have := BitVec.isLt r
  have hE : encodeHost c (.vcvtSat d s a t u r) = BitVec.ofNat 32 (c.toNat * 2 ^ 31 + (d.toNat * 2 ^ 18 + (s.toNat * 2 ^ 17 + (a.toNat * 2 ^ 11 + (t.toNat * 2 ^ 7 + (u.toNat * 2 ^ 3 + (r.toNat * 2 ^ 0 + 0x43000000))))))) := rfl
  have hM : (fld (encodeHost c (.vcvtSat d s a t u r)) 24 7).toNat = 0x43 := by rw [fld_of hE 0x43#7 (by simp only [BitVec.toNat_ofNat]; omega)]; rfl
  refine decode_of hM (.inl rfl) ?_ hW (fld_of hE _ (by omega))
  rw [raw43 hM]
  generalize encodeHost c (.vcvtSat d s a t u r) = W at *
  have f0 : fld W 18 6 = d := fld_of hE _ (by omega)
  have f1 : fld W 17 1 = s := fld_of hE _ (by omega)
  have f2 : fld W 11 6 = a := fld_of hE _ (by omega)
  have f3 : fld W 7 4 = t := fld_of hE _ (by omega)
  have f4 : fld W 3 4 = u := fld_of hE _ (by omega)
  have f5 : fld W 0 3 = r := fld_of hE _ (by omega)
  rw [dec43, row_ok (by simp []), f0, f1, f2, f3, f4, f5]
theorem Encoding.vpackb (d : BitVec 6) (s : BitVec 1) (a : BitVec 6) (u : BitVec 4) (r : BitVec 3) (t : BitVec 1) (n : BitVec 3) : Encoding.Statement (.vpackb d s a u r t n) := by
  intro _ hW c
  have := BitVec.isLt c; have := BitVec.isLt d; have := BitVec.isLt s; have := BitVec.isLt a; have := BitVec.isLt u; have := BitVec.isLt r; have := BitVec.isLt t; have := BitVec.isLt n
  have hE : encodeHost c (.vpackb d s a u r t n) = BitVec.ofNat 32 (c.toNat * 2 ^ 31 + (d.toNat * 2 ^ 18 + (s.toNat * 2 ^ 17 + (a.toNat * 2 ^ 11 + (u.toNat * 2 ^ 7 + (r.toNat * 2 ^ 4 + (t.toNat * 2 ^ 3 + (n.toNat * 2 ^ 0 + 0x44000000)))))))) := rfl
  have hM : (fld (encodeHost c (.vpackb d s a u r t n)) 24 7).toNat = 0x44 := by rw [fld_of hE 0x44#7 (by simp only [BitVec.toNat_ofNat]; omega)]; rfl
  refine decode_of hM (.inl rfl) ?_ hW (fld_of hE _ (by omega))
  rw [raw44 hM]
  generalize encodeHost c (.vpackb d s a u r t n) = W at *
  have f0 : fld W 18 6 = d := fld_of hE _ (by omega)
  have f1 : fld W 17 1 = s := fld_of hE _ (by omega)
  have f2 : fld W 11 6 = a := fld_of hE _ (by omega)
  have f3 : fld W 7 4 = u := fld_of hE _ (by omega)
  have f4 : fld W 4 3 = r := fld_of hE _ (by omega)
  have f5 : fld W 3 1 = t := fld_of hE _ (by omega)
  have f6 : fld W 0 3 = n := fld_of hE _ (by omega)
  rw [dec44, row_ok (by simp []), f0, f1, f2, f3, f4, f5, f6]
theorem Encoding.vunpackb (d : BitVec 6) (s : BitVec 1) (a : BitVec 6) (u : BitVec 4) (r : BitVec 3) (n : BitVec 3) : Encoding.Statement (.vunpackb d s a u r n) := by
  intro _ hW c
  have := BitVec.isLt c; have := BitVec.isLt d; have := BitVec.isLt s; have := BitVec.isLt a; have := BitVec.isLt u; have := BitVec.isLt r; have := BitVec.isLt n
  have hE : encodeHost c (.vunpackb d s a u r n) = BitVec.ofNat 32 (c.toNat * 2 ^ 31 + (d.toNat * 2 ^ 18 + (s.toNat * 2 ^ 17 + (a.toNat * 2 ^ 11 + (u.toNat * 2 ^ 7 + (r.toNat * 2 ^ 4 + (n.toNat * 2 ^ 0 + 0x45000000))))))) := rfl
  have hM : (fld (encodeHost c (.vunpackb d s a u r n)) 24 7).toNat = 0x45 := by rw [fld_of hE 0x45#7 (by simp only [BitVec.toNat_ofNat]; omega)]; rfl
  refine decode_of hM (.inl rfl) ?_ hW (fld_of hE _ (by omega))
  rw [raw45 hM]
  generalize encodeHost c (.vunpackb d s a u r n) = W at *
  have f0 : fld W 18 6 = d := fld_of hE _ (by omega)
  have f1 : fld W 17 1 = s := fld_of hE _ (by omega)
  have f2 : fld W 11 6 = a := fld_of hE _ (by omega)
  have f3 : fld W 7 4 = u := fld_of hE _ (by omega)
  have f4 : fld W 4 3 = r := fld_of hE _ (by omega)
  have f5 : fld W 0 3 = n := fld_of hE _ (by omega)
  have g3_1 : fld W 3 1 = 0#1 := fld_of hE _ (by simp only [BitVec.toNat_ofNat]; omega)
  rw [dec45, row_ok (by simp [g3_1]), f0, f1, f2, f3, f4, f5]
theorem Encoding.vscale (d : BitVec 6) (s : BitVec 1) (a : BitVec 6) (b : BitVec 6) (u : BitVec 4) : Encoding.Statement (.vscale d s a b u) := by
  intro _ hW c
  have := BitVec.isLt c; have := BitVec.isLt d; have := BitVec.isLt s; have := BitVec.isLt a; have := BitVec.isLt b; have := BitVec.isLt u
  have hE : encodeHost c (.vscale d s a b u) = BitVec.ofNat 32 (c.toNat * 2 ^ 31 + (d.toNat * 2 ^ 18 + (s.toNat * 2 ^ 17 + (a.toNat * 2 ^ 11 + (b.toNat * 2 ^ 5 + (u.toNat * 2 ^ 0 + 0x46000000)))))) := rfl
  have hM : (fld (encodeHost c (.vscale d s a b u)) 24 7).toNat = 0x46 := by rw [fld_of hE 0x46#7 (by simp only [BitVec.toNat_ofNat]; omega)]; rfl
  refine decode_of hM (.inl rfl) ?_ hW (fld_of hE _ (by omega))
  rw [raw46 hM]
  generalize encodeHost c (.vscale d s a b u) = W at *
  have f0 : fld W 18 6 = d := fld_of hE _ (by omega)
  have f1 : fld W 17 1 = s := fld_of hE _ (by omega)
  have f2 : fld W 11 6 = a := fld_of hE _ (by omega)
  have f3 : fld W 5 6 = b := fld_of hE _ (by omega)
  have f4 : fld W 0 4 = u := fld_of hE _ (by omega)
  have g4_1 : fld W 4 1 = 0#1 := fld_of hE _ (by simp only [BitVec.toNat_ofNat]; omega)
  rw [dec46, row_ok (by simp [g4_1]), f0, f1, f2, f3, f4]
theorem Encoding.mmul (d : BitVec 5) (a : BitVec 5) (b : BitVec 5) (m : BitVec 3) (k : BitVec 3) (n : BitVec 3) : Encoding.Statement (.mmul d a b m k n) := by
  intro _ hW c
  have := BitVec.isLt c; have := BitVec.isLt d; have := BitVec.isLt a; have := BitVec.isLt b; have := BitVec.isLt m; have := BitVec.isLt k; have := BitVec.isLt n
  have hE : encodeHost c (.mmul d a b m k n) = BitVec.ofNat 32 (c.toNat * 2 ^ 31 + (d.toNat * 2 ^ 19 + (a.toNat * 2 ^ 14 + (b.toNat * 2 ^ 9 + (m.toNat * 2 ^ 6 + (k.toNat * 2 ^ 3 + (n.toNat * 2 ^ 0 + 0x58000000))))))) := rfl
  have hM : (fld (encodeHost c (.mmul d a b m k n)) 24 7).toNat = 0x58 := by rw [fld_of hE 0x58#7 (by simp only [BitVec.toNat_ofNat]; omega)]; rfl
  refine decode_of hM (.inl rfl) ?_ hW (fld_of hE _ (by omega))
  rw [raw58 hM]
  generalize encodeHost c (.mmul d a b m k n) = W at *
  have f0 : fld W 19 5 = d := fld_of hE _ (by omega)
  have f1 : fld W 14 5 = a := fld_of hE _ (by omega)
  have f2 : fld W 9 5 = b := fld_of hE _ (by omega)
  have f3 : fld W 6 3 = m := fld_of hE _ (by omega)
  have f4 : fld W 3 3 = k := fld_of hE _ (by omega)
  have f5 : fld W 0 3 = n := fld_of hE _ (by omega)
  rw [dec58, row_ok (by simp []), f0, f1, f2, f3, f4, f5]
theorem Encoding.mtrans (d : BitVec 6) (a : BitVec 6) (r : BitVec 3) (l : BitVec 3) : Encoding.Statement (.mtrans d a r l) := by
  intro _ hW c
  have := BitVec.isLt c; have := BitVec.isLt d; have := BitVec.isLt a; have := BitVec.isLt r; have := BitVec.isLt l
  have hE : encodeHost c (.mtrans d a r l) = BitVec.ofNat 32 (c.toNat * 2 ^ 31 + (d.toNat * 2 ^ 18 + (a.toNat * 2 ^ 12 + (r.toNat * 2 ^ 3 + (l.toNat * 2 ^ 0 + 0x59000000))))) := rfl
  have hM : (fld (encodeHost c (.mtrans d a r l)) 24 7).toNat = 0x59 := by rw [fld_of hE 0x59#7 (by simp only [BitVec.toNat_ofNat]; omega)]; rfl
  refine decode_of hM (.inl rfl) ?_ hW (fld_of hE _ (by omega))
  rw [raw59 hM]
  generalize encodeHost c (.mtrans d a r l) = W at *
  have f0 : fld W 18 6 = d := fld_of hE _ (by omega)
  have f1 : fld W 12 6 = a := fld_of hE _ (by omega)
  have f2 : fld W 3 3 = r := fld_of hE _ (by omega)
  have f3 : fld W 0 3 = l := fld_of hE _ (by omega)
  have g6_6 : fld W 6 6 = 0#6 := fld_of hE _ (by simp only [BitVec.toNat_ofNat]; omega)
  rw [dec59, row_ok (by simp [g6_6]), f0, f1, f2, f3]
theorem Encoding.mchol (d : BitVec 6) (a : BitVec 6) (r : BitVec 3) (l : BitVec 3) : Encoding.Statement (.mchol d a r l) := by
  intro _ hW c
  have := BitVec.isLt c; have := BitVec.isLt d; have := BitVec.isLt a; have := BitVec.isLt r; have := BitVec.isLt l
  have hE : encodeHost c (.mchol d a r l) = BitVec.ofNat 32 (c.toNat * 2 ^ 31 + (d.toNat * 2 ^ 18 + (a.toNat * 2 ^ 12 + (r.toNat * 2 ^ 3 + (l.toNat * 2 ^ 0 + 0x5A000000))))) := rfl
  have hM : (fld (encodeHost c (.mchol d a r l)) 24 7).toNat = 0x5A := by rw [fld_of hE 0x5A#7 (by simp only [BitVec.toNat_ofNat]; omega)]; rfl
  refine decode_of hM (.inl rfl) ?_ hW (fld_of hE _ (by omega))
  rw [raw5A hM]
  generalize encodeHost c (.mchol d a r l) = W at *
  have f0 : fld W 18 6 = d := fld_of hE _ (by omega)
  have f1 : fld W 12 6 = a := fld_of hE _ (by omega)
  have f2 : fld W 3 3 = r := fld_of hE _ (by omega)
  have f3 : fld W 0 3 = l := fld_of hE _ (by omega)
  have g6_6 : fld W 6 6 = 0#6 := fld_of hE _ (by simp only [BitVec.toNat_ofNat]; omega)
  rw [dec5A, row_ok (by simp [g6_6]), f0, f1, f2, f3]
theorem Encoding.mlu (d : BitVec 6) (a : BitVec 6) (r : BitVec 3) (l : BitVec 3) : Encoding.Statement (.mlu d a r l) := by
  intro _ hW c
  have := BitVec.isLt c; have := BitVec.isLt d; have := BitVec.isLt a; have := BitVec.isLt r; have := BitVec.isLt l
  have hE : encodeHost c (.mlu d a r l) = BitVec.ofNat 32 (c.toNat * 2 ^ 31 + (d.toNat * 2 ^ 18 + (a.toNat * 2 ^ 12 + (r.toNat * 2 ^ 3 + (l.toNat * 2 ^ 0 + 0x5B000000))))) := rfl
  have hM : (fld (encodeHost c (.mlu d a r l)) 24 7).toNat = 0x5B := by rw [fld_of hE 0x5B#7 (by simp only [BitVec.toNat_ofNat]; omega)]; rfl
  refine decode_of hM (.inl rfl) ?_ hW (fld_of hE _ (by omega))
  rw [raw5B hM]
  generalize encodeHost c (.mlu d a r l) = W at *
  have f0 : fld W 18 6 = d := fld_of hE _ (by omega)
  have f1 : fld W 12 6 = a := fld_of hE _ (by omega)
  have f2 : fld W 3 3 = r := fld_of hE _ (by omega)
  have f3 : fld W 0 3 = l := fld_of hE _ (by omega)
  have g6_6 : fld W 6 6 = 0#6 := fld_of hE _ (by simp only [BitVec.toNat_ofNat]; omega)
  rw [dec5B, row_ok (by simp [g6_6]), f0, f1, f2, f3]
theorem Encoding.mtrsl (d : BitVec 6) (a : BitVec 6) (b : BitVec 6) (r : BitVec 3) (l : BitVec 3) : Encoding.Statement (.mtrsl d a b r l) := by
  intro _ hW c
  have := BitVec.isLt c; have := BitVec.isLt d; have := BitVec.isLt a; have := BitVec.isLt b; have := BitVec.isLt r; have := BitVec.isLt l
  have hE : encodeHost c (.mtrsl d a b r l) = BitVec.ofNat 32 (c.toNat * 2 ^ 31 + (d.toNat * 2 ^ 18 + (a.toNat * 2 ^ 12 + (b.toNat * 2 ^ 6 + (r.toNat * 2 ^ 3 + (l.toNat * 2 ^ 0 + 0x5C000000)))))) := rfl
  have hM : (fld (encodeHost c (.mtrsl d a b r l)) 24 7).toNat = 0x5C := by rw [fld_of hE 0x5C#7 (by simp only [BitVec.toNat_ofNat]; omega)]; rfl
  refine decode_of hM (.inl rfl) ?_ hW (fld_of hE _ (by omega))
  rw [raw5C hM]
  generalize encodeHost c (.mtrsl d a b r l) = W at *
  have f0 : fld W 18 6 = d := fld_of hE _ (by omega)
  have f1 : fld W 12 6 = a := fld_of hE _ (by omega)
  have f2 : fld W 6 6 = b := fld_of hE _ (by omega)
  have f3 : fld W 3 3 = r := fld_of hE _ (by omega)
  have f4 : fld W 0 3 = l := fld_of hE _ (by omega)
  rw [dec5C, row_ok (by simp []), f0, f1, f2, f3, f4]
theorem Encoding.mtrsu (d : BitVec 6) (a : BitVec 6) (b : BitVec 6) (r : BitVec 3) (l : BitVec 3) : Encoding.Statement (.mtrsu d a b r l) := by
  intro _ hW c
  have := BitVec.isLt c; have := BitVec.isLt d; have := BitVec.isLt a; have := BitVec.isLt b; have := BitVec.isLt r; have := BitVec.isLt l
  have hE : encodeHost c (.mtrsu d a b r l) = BitVec.ofNat 32 (c.toNat * 2 ^ 31 + (d.toNat * 2 ^ 18 + (a.toNat * 2 ^ 12 + (b.toNat * 2 ^ 6 + (r.toNat * 2 ^ 3 + (l.toNat * 2 ^ 0 + 0x5D000000)))))) := rfl
  have hM : (fld (encodeHost c (.mtrsu d a b r l)) 24 7).toNat = 0x5D := by rw [fld_of hE 0x5D#7 (by simp only [BitVec.toNat_ofNat]; omega)]; rfl
  refine decode_of hM (.inl rfl) ?_ hW (fld_of hE _ (by omega))
  rw [raw5D hM]
  generalize encodeHost c (.mtrsu d a b r l) = W at *
  have f0 : fld W 18 6 = d := fld_of hE _ (by omega)
  have f1 : fld W 12 6 = a := fld_of hE _ (by omega)
  have f2 : fld W 6 6 = b := fld_of hE _ (by omega)
  have f3 : fld W 3 3 = r := fld_of hE _ (by omega)
  have f4 : fld W 0 3 = l := fld_of hE _ (by omega)
  rw [dec5D, row_ok (by simp []), f0, f1, f2, f3, f4]
theorem Encoding.msolveChol (d : BitVec 6) (a : BitVec 6) (b : BitVec 6) (r : BitVec 3) (l : BitVec 3) : Encoding.Statement (.msolveChol d a b r l) := by
  intro _ hW c
  have := BitVec.isLt c; have := BitVec.isLt d; have := BitVec.isLt a; have := BitVec.isLt b; have := BitVec.isLt r; have := BitVec.isLt l
  have hE : encodeHost c (.msolveChol d a b r l) = BitVec.ofNat 32 (c.toNat * 2 ^ 31 + (d.toNat * 2 ^ 18 + (a.toNat * 2 ^ 12 + (b.toNat * 2 ^ 6 + (r.toNat * 2 ^ 3 + (l.toNat * 2 ^ 0 + 0x5E000000)))))) := rfl
  have hM : (fld (encodeHost c (.msolveChol d a b r l)) 24 7).toNat = 0x5E := by rw [fld_of hE 0x5E#7 (by simp only [BitVec.toNat_ofNat]; omega)]; rfl
  refine decode_of hM (.inl rfl) ?_ hW (fld_of hE _ (by omega))
  rw [raw5E hM]
  generalize encodeHost c (.msolveChol d a b r l) = W at *
  have f0 : fld W 18 6 = d := fld_of hE _ (by omega)
  have f1 : fld W 12 6 = a := fld_of hE _ (by omega)
  have f2 : fld W 6 6 = b := fld_of hE _ (by omega)
  have f3 : fld W 3 3 = r := fld_of hE _ (by omega)
  have f4 : fld W 0 3 = l := fld_of hE _ (by omega)
  rw [dec5E, row_ok (by simp []), f0, f1, f2, f3, f4]
theorem Encoding.msolveLu (d : BitVec 6) (a : BitVec 6) (b : BitVec 6) (r : BitVec 3) (l : BitVec 3) : Encoding.Statement (.msolveLu d a b r l) := by
  intro _ hW c
  have := BitVec.isLt c; have := BitVec.isLt d; have := BitVec.isLt a; have := BitVec.isLt b; have := BitVec.isLt r; have := BitVec.isLt l
  have hE : encodeHost c (.msolveLu d a b r l) = BitVec.ofNat 32 (c.toNat * 2 ^ 31 + (d.toNat * 2 ^ 18 + (a.toNat * 2 ^ 12 + (b.toNat * 2 ^ 6 + (r.toNat * 2 ^ 3 + (l.toNat * 2 ^ 0 + 0x5F000000)))))) := rfl
  have hM : (fld (encodeHost c (.msolveLu d a b r l)) 24 7).toNat = 0x5F := by rw [fld_of hE 0x5F#7 (by simp only [BitVec.toNat_ofNat]; omega)]; rfl
  refine decode_of hM (.inl rfl) ?_ hW (fld_of hE _ (by omega))
  rw [raw5F hM]
  generalize encodeHost c (.msolveLu d a b r l) = W at *
  have f0 : fld W 18 6 = d := fld_of hE _ (by omega)
  have f1 : fld W 12 6 = a := fld_of hE _ (by omega)
  have f2 : fld W 6 6 = b := fld_of hE _ (by omega)
  have f3 : fld W 3 3 = r := fld_of hE _ (by omega)
  have f4 : fld W 0 3 = l := fld_of hE _ (by omega)
  rw [dec5F, row_ok (by simp []), f0, f1, f2, f3, f4]
theorem Encoding.cbnd (d : BitVec 4) (v : BitVec 1) (a : BitVec 4) (x : BitVec 6) : Encoding.Statement (.cbnd d v a x) := by
  intro _ hW c
  have := BitVec.isLt c; have := BitVec.isLt d; have := BitVec.isLt v; have := BitVec.isLt a; have := BitVec.isLt x
  have hE : encodeHost c (.cbnd d v a x) = BitVec.ofNat 32 (c.toNat * 2 ^ 31 + (d.toNat * 2 ^ 20 + (v.toNat * 2 ^ 19 + (a.toNat * 2 ^ 15 + (x.toNat * 2 ^ 9 + 0x60000000))))) := rfl
  have hM : (fld (encodeHost c (.cbnd d v a x)) 24 7).toNat = 0x60 := by rw [fld_of hE 0x60#7 (by simp only [BitVec.toNat_ofNat]; omega)]; rfl
  refine decode_of hM (.inl rfl) ?_ hW (fld_of hE _ (by omega))
  rw [raw60 hM]
  generalize encodeHost c (.cbnd d v a x) = W at *
  have f0 : fld W 20 4 = d := fld_of hE _ (by omega)
  have f1 : fld W 19 1 = v := fld_of hE _ (by omega)
  have f2 : fld W 15 4 = a := fld_of hE _ (by omega)
  have f3 : fld W 9 6 = x := fld_of hE _ (by omega)
  have g0_9 : fld W 0 9 = 0#9 := fld_of hE _ (by simp only [BitVec.toNat_ofNat]; omega)
  rw [dec60, row_ok (by simp [g0_9]), f0, f1, f2, f3]
theorem Encoding.cbndX (d : BitVec 4) (v : BitVec 1) (a : BitVec 4) (x : BitVec 6) : Encoding.Statement (.cbndX d v a x) := by
  intro _ hW c
  have := BitVec.isLt c; have := BitVec.isLt d; have := BitVec.isLt v; have := BitVec.isLt a; have := BitVec.isLt x
  have hE : encodeHost c (.cbndX d v a x) = BitVec.ofNat 32 (c.toNat * 2 ^ 31 + (d.toNat * 2 ^ 20 + (v.toNat * 2 ^ 19 + (a.toNat * 2 ^ 15 + (x.toNat * 2 ^ 9 + 0x60000001))))) := rfl
  have hM : (fld (encodeHost c (.cbndX d v a x)) 24 7).toNat = 0x60 := by rw [fld_of hE 0x60#7 (by simp only [BitVec.toNat_ofNat]; omega)]; rfl
  refine decode_of hM (.inl rfl) ?_ hW (fld_of hE _ (by omega))
  rw [raw60 hM]
  generalize encodeHost c (.cbndX d v a x) = W at *
  have f0 : fld W 20 4 = d := fld_of hE _ (by omega)
  have f1 : fld W 19 1 = v := fld_of hE _ (by omega)
  have f2 : fld W 15 4 = a := fld_of hE _ (by omega)
  have f3 : fld W 9 6 = x := fld_of hE _ (by omega)
  have g0_9 : fld W 0 9 = 1#9 := fld_of hE _ (by simp only [BitVec.toNat_ofNat]; omega)
  rw [dec60, row_no (by simp [g0_9]), row_ok (by simp [g0_9]), f0, f1, f2, f3]
theorem Encoding.coff (d : BitVec 4) (v : BitVec 1) (a : BitVec 4) (x : BitVec 6) : Encoding.Statement (.coff d v a x) := by
  intro _ hW c
  have := BitVec.isLt c; have := BitVec.isLt d; have := BitVec.isLt v; have := BitVec.isLt a; have := BitVec.isLt x
  have hE : encodeHost c (.coff d v a x) = BitVec.ofNat 32 (c.toNat * 2 ^ 31 + (d.toNat * 2 ^ 20 + (v.toNat * 2 ^ 19 + (a.toNat * 2 ^ 15 + (x.toNat * 2 ^ 9 + 0x60000002))))) := rfl
  have hM : (fld (encodeHost c (.coff d v a x)) 24 7).toNat = 0x60 := by rw [fld_of hE 0x60#7 (by simp only [BitVec.toNat_ofNat]; omega)]; rfl
  refine decode_of hM (.inl rfl) ?_ hW (fld_of hE _ (by omega))
  rw [raw60 hM]
  generalize encodeHost c (.coff d v a x) = W at *
  have f0 : fld W 20 4 = d := fld_of hE _ (by omega)
  have f1 : fld W 19 1 = v := fld_of hE _ (by omega)
  have f2 : fld W 15 4 = a := fld_of hE _ (by omega)
  have f3 : fld W 9 6 = x := fld_of hE _ (by omega)
  have g0_9 : fld W 0 9 = 2#9 := fld_of hE _ (by simp only [BitVec.toNat_ofNat]; omega)
  rw [dec60, row_no (by simp [g0_9]), row_no (by simp [g0_9]), row_ok (by simp [g0_9]), f0, f1, f2, f3]
theorem Encoding.cinc (d : BitVec 4) (v : BitVec 1) (a : BitVec 4) (x : BitVec 6) : Encoding.Statement (.cinc d v a x) := by
  intro _ hW c
  have := BitVec.isLt c; have := BitVec.isLt d; have := BitVec.isLt v; have := BitVec.isLt a; have := BitVec.isLt x
  have hE : encodeHost c (.cinc d v a x) = BitVec.ofNat 32 (c.toNat * 2 ^ 31 + (d.toNat * 2 ^ 20 + (v.toNat * 2 ^ 19 + (a.toNat * 2 ^ 15 + (x.toNat * 2 ^ 9 + 0x60000003))))) := rfl
  have hM : (fld (encodeHost c (.cinc d v a x)) 24 7).toNat = 0x60 := by rw [fld_of hE 0x60#7 (by simp only [BitVec.toNat_ofNat]; omega)]; rfl
  refine decode_of hM (.inl rfl) ?_ hW (fld_of hE _ (by omega))
  rw [raw60 hM]
  generalize encodeHost c (.cinc d v a x) = W at *
  have f0 : fld W 20 4 = d := fld_of hE _ (by omega)
  have f1 : fld W 19 1 = v := fld_of hE _ (by omega)
  have f2 : fld W 15 4 = a := fld_of hE _ (by omega)
  have f3 : fld W 9 6 = x := fld_of hE _ (by omega)
  have g0_9 : fld W 0 9 = 3#9 := fld_of hE _ (by simp only [BitVec.toNat_ofNat]; omega)
  rw [dec60, row_no (by simp [g0_9]), row_no (by simp [g0_9]), row_no (by simp [g0_9]), row_ok (by simp [g0_9]), f0, f1, f2, f3]
theorem Encoding.cperm (d : BitVec 4) (v : BitVec 1) (a : BitVec 4) (x : BitVec 6) : Encoding.Statement (.cperm d v a x) := by
  intro _ hW c
  have := BitVec.isLt c; have := BitVec.isLt d; have := BitVec.isLt v; have := BitVec.isLt a; have := BitVec.isLt x
  have hE : encodeHost c (.cperm d v a x) = BitVec.ofNat 32 (c.toNat * 2 ^ 31 + (d.toNat * 2 ^ 20 + (v.toNat * 2 ^ 19 + (a.toNat * 2 ^ 15 + (x.toNat * 2 ^ 9 + 0x60000004))))) := rfl
  have hM : (fld (encodeHost c (.cperm d v a x)) 24 7).toNat = 0x60 := by rw [fld_of hE 0x60#7 (by simp only [BitVec.toNat_ofNat]; omega)]; rfl
  refine decode_of hM (.inl rfl) ?_ hW (fld_of hE _ (by omega))
  rw [raw60 hM]
  generalize encodeHost c (.cperm d v a x) = W at *
  have f0 : fld W 20 4 = d := fld_of hE _ (by omega)
  have f1 : fld W 19 1 = v := fld_of hE _ (by omega)
  have f2 : fld W 15 4 = a := fld_of hE _ (by omega)
  have f3 : fld W 9 6 = x := fld_of hE _ (by omega)
  have g0_9 : fld W 0 9 = 4#9 := fld_of hE _ (by simp only [BitVec.toNat_ofNat]; omega)
  rw [dec60, row_no (by simp [g0_9]), row_no (by simp [g0_9]), row_no (by simp [g0_9]), row_no (by simp [g0_9]), row_ok (by simp [g0_9]), f0, f1, f2, f3]
theorem Encoding.cseal (d : BitVec 4) (v : BitVec 1) (a : BitVec 4) (b : BitVec 4) : Encoding.Statement (.cseal d v a b) := by
  intro _ hW c
  have := BitVec.isLt c; have := BitVec.isLt d; have := BitVec.isLt v; have := BitVec.isLt a; have := BitVec.isLt b
  have hE : encodeHost c (.cseal d v a b) = BitVec.ofNat 32 (c.toNat * 2 ^ 31 + (d.toNat * 2 ^ 20 + (v.toNat * 2 ^ 19 + (a.toNat * 2 ^ 15 + (b.toNat * 2 ^ 5 + 0x60000005))))) := rfl
  have hM : (fld (encodeHost c (.cseal d v a b)) 24 7).toNat = 0x60 := by rw [fld_of hE 0x60#7 (by simp only [BitVec.toNat_ofNat]; omega)]; rfl
  refine decode_of hM (.inl rfl) ?_ hW (fld_of hE _ (by omega))
  rw [raw60 hM]
  generalize encodeHost c (.cseal d v a b) = W at *
  have f0 : fld W 20 4 = d := fld_of hE _ (by omega)
  have f1 : fld W 19 1 = v := fld_of hE _ (by omega)
  have f2 : fld W 15 4 = a := fld_of hE _ (by omega)
  have f3 : fld W 5 4 = b := fld_of hE _ (by omega)
  have g0_5 : fld W 0 5 = 5#5 := fld_of hE _ (by simp only [BitVec.toNat_ofNat]; omega)
  have g9_6 : fld W 9 6 = 0#6 := fld_of hE _ (by simp only [BitVec.toNat_ofNat]; omega)
  have p0_9_0 : (fld W 0 9 == 0#9) = false := fld_ne hE (by omega)
  have p0_9_1 : (fld W 0 9 == 1#9) = false := fld_ne hE (by omega)
  have p0_9_2 : (fld W 0 9 == 2#9) = false := fld_ne hE (by omega)
  have p0_9_3 : (fld W 0 9 == 3#9) = false := fld_ne hE (by omega)
  have p0_9_4 : (fld W 0 9 == 4#9) = false := fld_ne hE (by omega)
  rw [dec60, row_no (by simp [p0_9_0]), row_no (by simp [p0_9_1]), row_no (by simp [p0_9_2]), row_no (by simp [p0_9_3]), row_no (by simp [p0_9_4]), row_ok (by simp [g0_5, g9_6]), f0, f1, f2, f3]
theorem Encoding.cunseal (d : BitVec 4) (v : BitVec 1) (a : BitVec 4) (b : BitVec 4) : Encoding.Statement (.cunseal d v a b) := by
  intro _ hW c
  have := BitVec.isLt c; have := BitVec.isLt d; have := BitVec.isLt v; have := BitVec.isLt a; have := BitVec.isLt b
  have hE : encodeHost c (.cunseal d v a b) = BitVec.ofNat 32 (c.toNat * 2 ^ 31 + (d.toNat * 2 ^ 20 + (v.toNat * 2 ^ 19 + (a.toNat * 2 ^ 15 + (b.toNat * 2 ^ 5 + 0x60000006))))) := rfl
  have hM : (fld (encodeHost c (.cunseal d v a b)) 24 7).toNat = 0x60 := by rw [fld_of hE 0x60#7 (by simp only [BitVec.toNat_ofNat]; omega)]; rfl
  refine decode_of hM (.inl rfl) ?_ hW (fld_of hE _ (by omega))
  rw [raw60 hM]
  generalize encodeHost c (.cunseal d v a b) = W at *
  have f0 : fld W 20 4 = d := fld_of hE _ (by omega)
  have f1 : fld W 19 1 = v := fld_of hE _ (by omega)
  have f2 : fld W 15 4 = a := fld_of hE _ (by omega)
  have f3 : fld W 5 4 = b := fld_of hE _ (by omega)
  have g0_5 : fld W 0 5 = 6#5 := fld_of hE _ (by simp only [BitVec.toNat_ofNat]; omega)
  have g9_6 : fld W 9 6 = 0#6 := fld_of hE _ (by simp only [BitVec.toNat_ofNat]; omega)
  have p0_9_0 : (fld W 0 9 == 0#9) = false := fld_ne hE (by omega)
  have p0_9_1 : (fld W 0 9 == 1#9) = false := fld_ne hE (by omega)
  have p0_9_2 : (fld W 0 9 == 2#9) = false := fld_ne hE (by omega)
  have p0_9_3 : (fld W 0 9 == 3#9) = false := fld_ne hE (by omega)
  have p0_9_4 : (fld W 0 9 == 4#9) = false := fld_ne hE (by omega)
  rw [dec60, row_no (by simp [p0_9_0]), row_no (by simp [p0_9_1]), row_no (by simp [p0_9_2]), row_no (by simp [p0_9_3]), row_no (by simp [p0_9_4]), row_no (by simp [g0_5]), row_ok (by simp [g0_5, g9_6]), f0, f1, f2, f3]
theorem Encoding.cmov (d : BitVec 4) (v : BitVec 1) (a : BitVec 4) (w : BitVec 2) : Encoding.Statement (.cmov d v a w) := by
  intro _ hW c
  have := BitVec.isLt c; have := BitVec.isLt d; have := BitVec.isLt v; have := BitVec.isLt a; have := BitVec.isLt w
  have hE : encodeHost c (.cmov d v a w) = BitVec.ofNat 32 (c.toNat * 2 ^ 31 + (d.toNat * 2 ^ 20 + (v.toNat * 2 ^ 19 + (a.toNat * 2 ^ 15 + (w.toNat * 2 ^ 9 + 0x60000007))))) := rfl
  have hM : (fld (encodeHost c (.cmov d v a w)) 24 7).toNat = 0x60 := by rw [fld_of hE 0x60#7 (by simp only [BitVec.toNat_ofNat]; omega)]; rfl
  refine decode_of hM (.inl rfl) ?_ hW (fld_of hE _ (by omega))
  rw [raw60 hM]
  generalize encodeHost c (.cmov d v a w) = W at *
  have f0 : fld W 20 4 = d := fld_of hE _ (by omega)
  have f1 : fld W 19 1 = v := fld_of hE _ (by omega)
  have f2 : fld W 15 4 = a := fld_of hE _ (by omega)
  have f3 : fld W 9 2 = w := fld_of hE _ (by omega)
  have g0_9 : fld W 0 9 = 7#9 := fld_of hE _ (by simp only [BitVec.toNat_ofNat]; omega)
  have g0_5 : fld W 0 5 = 7#5 := fld_of hE _ (by simp only [BitVec.toNat_ofNat]; omega)
  have g11_4 : fld W 11 4 = 0#4 := fld_of hE _ (by simp only [BitVec.toNat_ofNat]; omega)
  rw [dec60, row_no (by simp [g0_9]), row_no (by simp [g0_9]), row_no (by simp [g0_9]), row_no (by simp [g0_9]), row_no (by simp [g0_9]), row_no (by simp [g0_5]), row_no (by simp [g0_5]), row_ok (by simp [g0_9, g11_4]), f0, f1, f2, f3]
theorem Encoding.cuntag (d : BitVec 4) (v : BitVec 1) (a : BitVec 4) (x : BitVec 6) : Encoding.Statement (.cuntag d v a x) := by
  intro _ hW c
  have := BitVec.isLt c; have := BitVec.isLt d; have := BitVec.isLt v; have := BitVec.isLt a; have := BitVec.isLt x
  have hE : encodeHost c (.cuntag d v a x) = BitVec.ofNat 32 (c.toNat * 2 ^ 31 + (d.toNat * 2 ^ 20 + (v.toNat * 2 ^ 19 + (a.toNat * 2 ^ 15 + (x.toNat * 2 ^ 9 + 0x60000008))))) := rfl
  have hM : (fld (encodeHost c (.cuntag d v a x)) 24 7).toNat = 0x60 := by rw [fld_of hE 0x60#7 (by simp only [BitVec.toNat_ofNat]; omega)]; rfl
  refine decode_of hM (.inl rfl) ?_ hW (fld_of hE _ (by omega))
  rw [raw60 hM]
  generalize encodeHost c (.cuntag d v a x) = W at *
  have f0 : fld W 20 4 = d := fld_of hE _ (by omega)
  have f1 : fld W 19 1 = v := fld_of hE _ (by omega)
  have f2 : fld W 15 4 = a := fld_of hE _ (by omega)
  have f3 : fld W 9 6 = x := fld_of hE _ (by omega)
  have g0_9 : fld W 0 9 = 8#9 := fld_of hE _ (by simp only [BitVec.toNat_ofNat]; omega)
  have g0_5 : fld W 0 5 = 8#5 := fld_of hE _ (by simp only [BitVec.toNat_ofNat]; omega)
  rw [dec60, row_no (by simp [g0_9]), row_no (by simp [g0_9]), row_no (by simp [g0_9]), row_no (by simp [g0_9]), row_no (by simp [g0_9]), row_no (by simp [g0_5]), row_no (by simp [g0_5]), row_no (by simp [g0_9]), row_ok (by simp [g0_9]), f0, f1, f2, f3]
theorem Encoding.cgetBase (d : BitVec 6) (v : BitVec 1) (a : BitVec 4) : Encoding.Statement (.cgetBase d v a) := by
  intro _ hW c
  have := BitVec.isLt c; have := BitVec.isLt d; have := BitVec.isLt v; have := BitVec.isLt a
  have hE : encodeHost c (.cgetBase d v a) = BitVec.ofNat 32 (c.toNat * 2 ^ 31 + (d.toNat * 2 ^ 18 + (v.toNat * 2 ^ 17 + (a.toNat * 2 ^ 13 + 0x61000000)))) := rfl
  have hM : (fld (encodeHost c (.cgetBase d v a)) 24 7).toNat = 0x61 := by rw [fld_of hE 0x61#7 (by simp only [BitVec.toNat_ofNat]; omega)]; rfl
  refine decode_of hM (.inl rfl) ?_ hW (fld_of hE _ (by omega))
  rw [raw61 hM]
  generalize encodeHost c (.cgetBase d v a) = W at *
  have f0 : fld W 18 6 = d := fld_of hE _ (by omega)
  have f1 : fld W 17 1 = v := fld_of hE _ (by omega)
  have f2 : fld W 13 4 = a := fld_of hE _ (by omega)
  have g0_13 : fld W 0 13 = 0#13 := fld_of hE _ (by simp only [BitVec.toNat_ofNat]; omega)
  rw [dec61, row_ok (by simp [g0_13]), f0, f1, f2]
theorem Encoding.cgetTop (d : BitVec 6) (v : BitVec 1) (a : BitVec 4) : Encoding.Statement (.cgetTop d v a) := by
  intro _ hW c
  have := BitVec.isLt c; have := BitVec.isLt d; have := BitVec.isLt v; have := BitVec.isLt a
  have hE : encodeHost c (.cgetTop d v a) = BitVec.ofNat 32 (c.toNat * 2 ^ 31 + (d.toNat * 2 ^ 18 + (v.toNat * 2 ^ 17 + (a.toNat * 2 ^ 13 + 0x61000001)))) := rfl
  have hM : (fld (encodeHost c (.cgetTop d v a)) 24 7).toNat = 0x61 := by rw [fld_of hE 0x61#7 (by simp only [BitVec.toNat_ofNat]; omega)]; rfl
  refine decode_of hM (.inl rfl) ?_ hW (fld_of hE _ (by omega))
  rw [raw61 hM]
  generalize encodeHost c (.cgetTop d v a) = W at *
  have f0 : fld W 18 6 = d := fld_of hE _ (by omega)
  have f1 : fld W 17 1 = v := fld_of hE _ (by omega)
  have f2 : fld W 13 4 = a := fld_of hE _ (by omega)
  have g0_13 : fld W 0 13 = 1#13 := fld_of hE _ (by simp only [BitVec.toNat_ofNat]; omega)
  rw [dec61, row_no (by simp [g0_13]), row_ok (by simp [g0_13]), f0, f1, f2]
theorem Encoding.cgetPos (d : BitVec 6) (v : BitVec 1) (a : BitVec 4) : Encoding.Statement (.cgetPos d v a) := by
  intro _ hW c
  have := BitVec.isLt c; have := BitVec.isLt d; have := BitVec.isLt v; have := BitVec.isLt a
  have hE : encodeHost c (.cgetPos d v a) = BitVec.ofNat 32 (c.toNat * 2 ^ 31 + (d.toNat * 2 ^ 18 + (v.toNat * 2 ^ 17 + (a.toNat * 2 ^ 13 + 0x61000002)))) := rfl
  have hM : (fld (encodeHost c (.cgetPos d v a)) 24 7).toNat = 0x61 := by rw [fld_of hE 0x61#7 (by simp only [BitVec.toNat_ofNat]; omega)]; rfl
  refine decode_of hM (.inl rfl) ?_ hW (fld_of hE _ (by omega))
  rw [raw61 hM]
  generalize encodeHost c (.cgetPos d v a) = W at *
  have f0 : fld W 18 6 = d := fld_of hE _ (by omega)
  have f1 : fld W 17 1 = v := fld_of hE _ (by omega)
  have f2 : fld W 13 4 = a := fld_of hE _ (by omega)
  have g0_13 : fld W 0 13 = 2#13 := fld_of hE _ (by simp only [BitVec.toNat_ofNat]; omega)
  rw [dec61, row_no (by simp [g0_13]), row_no (by simp [g0_13]), row_ok (by simp [g0_13]), f0, f1, f2]
theorem Encoding.cgetRoom (d : BitVec 6) (v : BitVec 1) (a : BitVec 4) : Encoding.Statement (.cgetRoom d v a) := by
  intro _ hW c
  have := BitVec.isLt c; have := BitVec.isLt d; have := BitVec.isLt v; have := BitVec.isLt a
  have hE : encodeHost c (.cgetRoom d v a) = BitVec.ofNat 32 (c.toNat * 2 ^ 31 + (d.toNat * 2 ^ 18 + (v.toNat * 2 ^ 17 + (a.toNat * 2 ^ 13 + 0x61000003)))) := rfl
  have hM : (fld (encodeHost c (.cgetRoom d v a)) 24 7).toNat = 0x61 := by rw [fld_of hE 0x61#7 (by simp only [BitVec.toNat_ofNat]; omega)]; rfl
  refine decode_of hM (.inl rfl) ?_ hW (fld_of hE _ (by omega))
  rw [raw61 hM]
  generalize encodeHost c (.cgetRoom d v a) = W at *
  have f0 : fld W 18 6 = d := fld_of hE _ (by omega)
  have f1 : fld W 17 1 = v := fld_of hE _ (by omega)
  have f2 : fld W 13 4 = a := fld_of hE _ (by omega)
  have g0_13 : fld W 0 13 = 3#13 := fld_of hE _ (by simp only [BitVec.toNat_ofNat]; omega)
  rw [dec61, row_no (by simp [g0_13]), row_no (by simp [g0_13]), row_no (by simp [g0_13]), row_ok (by simp [g0_13]), f0, f1, f2]
theorem Encoding.cgetPerm (d : BitVec 6) (v : BitVec 1) (a : BitVec 4) : Encoding.Statement (.cgetPerm d v a) := by
  intro _ hW c
  have := BitVec.isLt c; have := BitVec.isLt d; have := BitVec.isLt v; have := BitVec.isLt a
  have hE : encodeHost c (.cgetPerm d v a) = BitVec.ofNat 32 (c.toNat * 2 ^ 31 + (d.toNat * 2 ^ 18 + (v.toNat * 2 ^ 17 + (a.toNat * 2 ^ 13 + 0x61000004)))) := rfl
  have hM : (fld (encodeHost c (.cgetPerm d v a)) 24 7).toNat = 0x61 := by rw [fld_of hE 0x61#7 (by simp only [BitVec.toNat_ofNat]; omega)]; rfl
  refine decode_of hM (.inl rfl) ?_ hW (fld_of hE _ (by omega))
  rw [raw61 hM]
  generalize encodeHost c (.cgetPerm d v a) = W at *
  have f0 : fld W 18 6 = d := fld_of hE _ (by omega)
  have f1 : fld W 17 1 = v := fld_of hE _ (by omega)
  have f2 : fld W 13 4 = a := fld_of hE _ (by omega)
  have g0_13 : fld W 0 13 = 4#13 := fld_of hE _ (by simp only [BitVec.toNat_ofNat]; omega)
  rw [dec61, row_no (by simp [g0_13]), row_no (by simp [g0_13]), row_no (by simp [g0_13]), row_no (by simp [g0_13]), row_ok (by simp [g0_13]), f0, f1, f2]
theorem Encoding.cgetType (d : BitVec 6) (v : BitVec 1) (a : BitVec 4) : Encoding.Statement (.cgetType d v a) := by
  intro _ hW c
  have := BitVec.isLt c; have := BitVec.isLt d; have := BitVec.isLt v; have := BitVec.isLt a
  have hE : encodeHost c (.cgetType d v a) = BitVec.ofNat 32 (c.toNat * 2 ^ 31 + (d.toNat * 2 ^ 18 + (v.toNat * 2 ^ 17 + (a.toNat * 2 ^ 13 + 0x61000005)))) := rfl
  have hM : (fld (encodeHost c (.cgetType d v a)) 24 7).toNat = 0x61 := by rw [fld_of hE 0x61#7 (by simp only [BitVec.toNat_ofNat]; omega)]; rfl
  refine decode_of hM (.inl rfl) ?_ hW (fld_of hE _ (by omega))
  rw [raw61 hM]
  generalize encodeHost c (.cgetType d v a) = W at *
  have f0 : fld W 18 6 = d := fld_of hE _ (by omega)
  have f1 : fld W 17 1 = v := fld_of hE _ (by omega)
  have f2 : fld W 13 4 = a := fld_of hE _ (by omega)
  have g0_13 : fld W 0 13 = 5#13 := fld_of hE _ (by simp only [BitVec.toNat_ofNat]; omega)
  rw [dec61, row_no (by simp [g0_13]), row_no (by simp [g0_13]), row_no (by simp [g0_13]), row_no (by simp [g0_13]), row_no (by simp [g0_13]), row_ok (by simp [g0_13]), f0, f1, f2]
theorem Encoding.cgetTag (d : BitVec 6) (v : BitVec 1) (a : BitVec 4) : Encoding.Statement (.cgetTag d v a) := by
  intro _ hW c
  have := BitVec.isLt c; have := BitVec.isLt d; have := BitVec.isLt v; have := BitVec.isLt a
  have hE : encodeHost c (.cgetTag d v a) = BitVec.ofNat 32 (c.toNat * 2 ^ 31 + (d.toNat * 2 ^ 18 + (v.toNat * 2 ^ 17 + (a.toNat * 2 ^ 13 + 0x61000006)))) := rfl
  have hM : (fld (encodeHost c (.cgetTag d v a)) 24 7).toNat = 0x61 := by rw [fld_of hE 0x61#7 (by simp only [BitVec.toNat_ofNat]; omega)]; rfl
  refine decode_of hM (.inl rfl) ?_ hW (fld_of hE _ (by omega))
  rw [raw61 hM]
  generalize encodeHost c (.cgetTag d v a) = W at *
  have f0 : fld W 18 6 = d := fld_of hE _ (by omega)
  have f1 : fld W 17 1 = v := fld_of hE _ (by omega)
  have f2 : fld W 13 4 = a := fld_of hE _ (by omega)
  have g0_13 : fld W 0 13 = 6#13 := fld_of hE _ (by simp only [BitVec.toNat_ofNat]; omega)
  rw [dec61, row_no (by simp [g0_13]), row_no (by simp [g0_13]), row_no (by simp [g0_13]), row_no (by simp [g0_13]), row_no (by simp [g0_13]), row_no (by simp [g0_13]), row_ok (by simp [g0_13]), f0, f1, f2]
theorem Encoding.cgetAddr (d : BitVec 6) (v : BitVec 1) (a : BitVec 4) : Encoding.Statement (.cgetAddr d v a) := by
  intro _ hW c
  have := BitVec.isLt c; have := BitVec.isLt d; have := BitVec.isLt v; have := BitVec.isLt a
  have hE : encodeHost c (.cgetAddr d v a) = BitVec.ofNat 32 (c.toNat * 2 ^ 31 + (d.toNat * 2 ^ 18 + (v.toNat * 2 ^ 17 + (a.toNat * 2 ^ 13 + 0x61000007)))) := rfl
  have hM : (fld (encodeHost c (.cgetAddr d v a)) 24 7).toNat = 0x61 := by rw [fld_of hE 0x61#7 (by simp only [BitVec.toNat_ofNat]; omega)]; rfl
  refine decode_of hM (.inl rfl) ?_ hW (fld_of hE _ (by omega))
  rw [raw61 hM]
  generalize encodeHost c (.cgetAddr d v a) = W at *
  have f0 : fld W 18 6 = d := fld_of hE _ (by omega)
  have f1 : fld W 17 1 = v := fld_of hE _ (by omega)
  have f2 : fld W 13 4 = a := fld_of hE _ (by omega)
  have g0_13 : fld W 0 13 = 7#13 := fld_of hE _ (by simp only [BitVec.toNat_ofNat]; omega)
  rw [dec61, row_no (by simp [g0_13]), row_no (by simp [g0_13]), row_no (by simp [g0_13]), row_no (by simp [g0_13]), row_no (by simp [g0_13]), row_no (by simp [g0_13]), row_no (by simp [g0_13]), row_ok (by simp [g0_13]), f0, f1, f2]
theorem Encoding.cgetExp (d : BitVec 6) (v : BitVec 1) (a : BitVec 4) : Encoding.Statement (.cgetExp d v a) := by
  intro _ hW c
  have := BitVec.isLt c; have := BitVec.isLt d; have := BitVec.isLt v; have := BitVec.isLt a
  have hE : encodeHost c (.cgetExp d v a) = BitVec.ofNat 32 (c.toNat * 2 ^ 31 + (d.toNat * 2 ^ 18 + (v.toNat * 2 ^ 17 + (a.toNat * 2 ^ 13 + 0x61000008)))) := rfl
  have hM : (fld (encodeHost c (.cgetExp d v a)) 24 7).toNat = 0x61 := by rw [fld_of hE 0x61#7 (by simp only [BitVec.toNat_ofNat]; omega)]; rfl
  refine decode_of hM (.inl rfl) ?_ hW (fld_of hE _ (by omega))
  rw [raw61 hM]
  generalize encodeHost c (.cgetExp d v a) = W at *
  have f0 : fld W 18 6 = d := fld_of hE _ (by omega)
  have f1 : fld W 17 1 = v := fld_of hE _ (by omega)
  have f2 : fld W 13 4 = a := fld_of hE _ (by omega)
  have g0_13 : fld W 0 13 = 8#13 := fld_of hE _ (by simp only [BitVec.toNat_ofNat]; omega)
  rw [dec61, row_no (by simp [g0_13]), row_no (by simp [g0_13]), row_no (by simp [g0_13]), row_no (by simp [g0_13]), row_no (by simp [g0_13]), row_no (by simp [g0_13]), row_no (by simp [g0_13]), row_no (by simp [g0_13]), row_ok (by simp [g0_13]), f0, f1, f2]
theorem Encoding.ldReg (d : BitVec 6) (s : BitVec 1) (v : BitVec 1) (k : BitVec 4) (x : BitVec 6) (z : BitVec 2) (m : BitVec 4) : Encoding.Statement (.ldReg d s v k x z m) := by
  intro _ hW c
  have := BitVec.isLt c; have := BitVec.isLt d; have := BitVec.isLt s; have := BitVec.isLt v; have := BitVec.isLt k; have := BitVec.isLt x; have := BitVec.isLt z; have := BitVec.isLt m
  have hE : encodeHost c (.ldReg d s v k x z m) = BitVec.ofNat 32 (c.toNat * 2 ^ 31 + (d.toNat * 2 ^ 18 + (s.toNat * 2 ^ 17 + (v.toNat * 2 ^ 16 + (k.toNat * 2 ^ 12 + (x.toNat * 2 ^ 6 + (z.toNat * 2 ^ 4 + (m.toNat * 2 ^ 0 + 0x62000000)))))))) := rfl
  have hM : (fld (encodeHost c (.ldReg d s v k x z m)) 24 7).toNat = 0x62 := by rw [fld_of hE 0x62#7 (by simp only [BitVec.toNat_ofNat]; omega)]; rfl
  refine decode_of hM (.inl rfl) ?_ hW (fld_of hE _ (by omega))
  rw [raw62 hM]
  generalize encodeHost c (.ldReg d s v k x z m) = W at *
  have f0 : fld W 18 6 = d := fld_of hE _ (by omega)
  have f1 : fld W 17 1 = s := fld_of hE _ (by omega)
  have f2 : fld W 16 1 = v := fld_of hE _ (by omega)
  have f3 : fld W 12 4 = k := fld_of hE _ (by omega)
  have f4 : fld W 6 6 = x := fld_of hE _ (by omega)
  have f5 : fld W 4 2 = z := fld_of hE _ (by omega)
  have f6 : fld W 0 4 = m := fld_of hE _ (by omega)
  rw [dec62, row_ok (by simp []), f0, f1, f2, f3, f4, f5, f6]
theorem Encoding.ldImm (d : BitVec 6) (s : BitVec 1) (v : BitVec 1) (k : BitVec 4) (i : Imm 6) (z : BitVec 2) (m : BitVec 4) : Encoding.Statement (.ldImm d s v k i z m) := by
  obtain ⟨i, X⟩ := i
  intro _ hW c
  have := BitVec.isLt c; have := BitVec.isLt d; have := BitVec.isLt s; have := BitVec.isLt v; have := BitVec.isLt k; have := BitVec.isLt i; have := BitVec.isLt z; have := BitVec.isLt m
  have hE : encodeHost c (.ldImm d s v k ⟨i, X⟩ z m) = BitVec.ofNat 32 (c.toNat * 2 ^ 31 + (d.toNat * 2 ^ 18 + (s.toNat * 2 ^ 17 + (v.toNat * 2 ^ 16 + (k.toNat * 2 ^ 12 + (i.toNat * 2 ^ 6 + (z.toNat * 2 ^ 4 + (m.toNat * 2 ^ 0 + 0x63000000)))))))) := rfl
  have hM : (fld (encodeHost c (.ldImm d s v k ⟨i, X⟩ z m)) 24 7).toNat = 0x63 := by rw [fld_of hE 0x63#7 (by simp only [BitVec.toNat_ofNat]; omega)]; rfl
  refine decode_of hM (.inr rfl) ?_ hW (fld_of hE _ (by omega))
  show decodeRaw _ X = _
  rw [raw63 hM]
  generalize encodeHost c (.ldImm d s v k ⟨i, X⟩ z m) = W at *
  have f0 : fld W 18 6 = d := fld_of hE _ (by omega)
  have f1 : fld W 17 1 = s := fld_of hE _ (by omega)
  have f2 : fld W 16 1 = v := fld_of hE _ (by omega)
  have f3 : fld W 12 4 = k := fld_of hE _ (by omega)
  have f4 : fld W 6 6 = i := fld_of hE _ (by omega)
  have f5 : fld W 4 2 = z := fld_of hE _ (by omega)
  have f6 : fld W 0 4 = m := fld_of hE _ (by omega)
  rw [dec63, row_ok (by simp []), f0, f1, f2, f3, f4, f5, f6]
theorem Encoding.stReg (d : BitVec 6) (v : BitVec 1) (k : BitVec 4) (x : BitVec 6) (z : BitVec 2) (m : BitVec 4) : Encoding.Statement (.stReg d v k x z m) := by
  intro _ hW c
  have := BitVec.isLt c; have := BitVec.isLt d; have := BitVec.isLt v; have := BitVec.isLt k; have := BitVec.isLt x; have := BitVec.isLt z; have := BitVec.isLt m
  have hE : encodeHost c (.stReg d v k x z m) = BitVec.ofNat 32 (c.toNat * 2 ^ 31 + (d.toNat * 2 ^ 18 + (v.toNat * 2 ^ 16 + (k.toNat * 2 ^ 12 + (x.toNat * 2 ^ 6 + (z.toNat * 2 ^ 4 + (m.toNat * 2 ^ 0 + 0x64000000))))))) := rfl
  have hM : (fld (encodeHost c (.stReg d v k x z m)) 24 7).toNat = 0x64 := by rw [fld_of hE 0x64#7 (by simp only [BitVec.toNat_ofNat]; omega)]; rfl
  refine decode_of hM (.inl rfl) ?_ hW (fld_of hE _ (by omega))
  rw [raw64 hM]
  generalize encodeHost c (.stReg d v k x z m) = W at *
  have f0 : fld W 18 6 = d := fld_of hE _ (by omega)
  have f1 : fld W 16 1 = v := fld_of hE _ (by omega)
  have f2 : fld W 12 4 = k := fld_of hE _ (by omega)
  have f3 : fld W 6 6 = x := fld_of hE _ (by omega)
  have f4 : fld W 4 2 = z := fld_of hE _ (by omega)
  have f5 : fld W 0 4 = m := fld_of hE _ (by omega)
  have g17_1 : fld W 17 1 = 0#1 := fld_of hE _ (by simp only [BitVec.toNat_ofNat]; omega)
  rw [dec64, row_ok (by simp [g17_1]), f0, f1, f2, f3, f4, f5]
theorem Encoding.stImm (d : BitVec 6) (v : BitVec 1) (k : BitVec 4) (i : Imm 6) (z : BitVec 2) (m : BitVec 4) : Encoding.Statement (.stImm d v k i z m) := by
  obtain ⟨i, X⟩ := i
  intro _ hW c
  have := BitVec.isLt c; have := BitVec.isLt d; have := BitVec.isLt v; have := BitVec.isLt k; have := BitVec.isLt i; have := BitVec.isLt z; have := BitVec.isLt m
  have hE : encodeHost c (.stImm d v k ⟨i, X⟩ z m) = BitVec.ofNat 32 (c.toNat * 2 ^ 31 + (d.toNat * 2 ^ 18 + (v.toNat * 2 ^ 16 + (k.toNat * 2 ^ 12 + (i.toNat * 2 ^ 6 + (z.toNat * 2 ^ 4 + (m.toNat * 2 ^ 0 + 0x65000000))))))) := rfl
  have hM : (fld (encodeHost c (.stImm d v k ⟨i, X⟩ z m)) 24 7).toNat = 0x65 := by rw [fld_of hE 0x65#7 (by simp only [BitVec.toNat_ofNat]; omega)]; rfl
  refine decode_of hM (.inr rfl) ?_ hW (fld_of hE _ (by omega))
  show decodeRaw _ X = _
  rw [raw65 hM]
  generalize encodeHost c (.stImm d v k ⟨i, X⟩ z m) = W at *
  have f0 : fld W 18 6 = d := fld_of hE _ (by omega)
  have f1 : fld W 16 1 = v := fld_of hE _ (by omega)
  have f2 : fld W 12 4 = k := fld_of hE _ (by omega)
  have f3 : fld W 6 6 = i := fld_of hE _ (by omega)
  have f4 : fld W 4 2 = z := fld_of hE _ (by omega)
  have f5 : fld W 0 4 = m := fld_of hE _ (by omega)
  have g17_1 : fld W 17 1 = 0#1 := fld_of hE _ (by simp only [BitVec.toNat_ofNat]; omega)
  rw [dec65, row_ok (by simp [g17_1]), f0, f1, f2, f3, f4, f5]
theorem Encoding.ldc (d : BitVec 4) (e : BitVec 1) (v : BitVec 1) (k : BitVec 4) (x : BitVec 6) : Encoding.Statement (.ldc d e v k x) := by
  intro _ hW c
  have := BitVec.isLt c; have := BitVec.isLt d; have := BitVec.isLt e; have := BitVec.isLt v; have := BitVec.isLt k; have := BitVec.isLt x
  have hE : encodeHost c (.ldc d e v k x) = BitVec.ofNat 32 (c.toNat * 2 ^ 31 + (d.toNat * 2 ^ 20 + (e.toNat * 2 ^ 19 + (v.toNat * 2 ^ 16 + (k.toNat * 2 ^ 12 + (x.toNat * 2 ^ 6 + 0x66000000)))))) := rfl
  have hM : (fld (encodeHost c (.ldc d e v k x)) 24 7).toNat = 0x66 := by rw [fld_of hE 0x66#7 (by simp only [BitVec.toNat_ofNat]; omega)]; rfl
  refine decode_of hM (.inl rfl) ?_ hW (fld_of hE _ (by omega))
  rw [raw66 hM]
  generalize encodeHost c (.ldc d e v k x) = W at *
  have f0 : fld W 20 4 = d := fld_of hE _ (by omega)
  have f1 : fld W 19 1 = e := fld_of hE _ (by omega)
  have f2 : fld W 16 1 = v := fld_of hE _ (by omega)
  have f3 : fld W 12 4 = k := fld_of hE _ (by omega)
  have f4 : fld W 6 6 = x := fld_of hE _ (by omega)
  have g0_6 : fld W 0 6 = 0#6 := fld_of hE _ (by simp only [BitVec.toNat_ofNat]; omega)
  have g17_2 : fld W 17 2 = 0#2 := fld_of hE _ (by simp only [BitVec.toNat_ofNat]; omega)
  rw [dec66, row_ok (by simp [g0_6, g17_2]), f0, f1, f2, f3, f4]
theorem Encoding.stc (d : BitVec 4) (e : BitVec 1) (v : BitVec 1) (k : BitVec 4) (x : BitVec 6) : Encoding.Statement (.stc d e v k x) := by
  intro _ hW c
  have := BitVec.isLt c; have := BitVec.isLt d; have := BitVec.isLt e; have := BitVec.isLt v; have := BitVec.isLt k; have := BitVec.isLt x
  have hE : encodeHost c (.stc d e v k x) = BitVec.ofNat 32 (c.toNat * 2 ^ 31 + (d.toNat * 2 ^ 20 + (e.toNat * 2 ^ 19 + (v.toNat * 2 ^ 16 + (k.toNat * 2 ^ 12 + (x.toNat * 2 ^ 6 + 0x66040000)))))) := rfl
  have hM : (fld (encodeHost c (.stc d e v k x)) 24 7).toNat = 0x66 := by rw [fld_of hE 0x66#7 (by simp only [BitVec.toNat_ofNat]; omega)]; rfl
  refine decode_of hM (.inl rfl) ?_ hW (fld_of hE _ (by omega))
  rw [raw66 hM]
  generalize encodeHost c (.stc d e v k x) = W at *
  have f0 : fld W 20 4 = d := fld_of hE _ (by omega)
  have f1 : fld W 19 1 = e := fld_of hE _ (by omega)
  have f2 : fld W 16 1 = v := fld_of hE _ (by omega)
  have f3 : fld W 12 4 = k := fld_of hE _ (by omega)
  have f4 : fld W 6 6 = x := fld_of hE _ (by omega)
  have g17_2 : fld W 17 2 = 2#2 := fld_of hE _ (by simp only [BitVec.toNat_ofNat]; omega)
  have g0_6 : fld W 0 6 = 0#6 := fld_of hE _ (by simp only [BitVec.toNat_ofNat]; omega)
  rw [dec66, row_no (by simp [g17_2]), row_ok (by simp [g0_6, g17_2]), f0, f1, f2, f3, f4]
theorem Encoding.ldfe (d : BitVec 6) (s : BitVec 1) (v : BitVec 1) (k : BitVec 4) (x : BitVec 6) (z : BitVec 1) : Encoding.Statement (.ldfe d s v k x z) := by
  intro _ hW c
  have := BitVec.isLt c; have := BitVec.isLt d; have := BitVec.isLt s; have := BitVec.isLt v; have := BitVec.isLt k; have := BitVec.isLt x; have := BitVec.isLt z
  have hE : encodeHost c (.ldfe d s v k x z) = BitVec.ofNat 32 (c.toNat * 2 ^ 31 + (d.toNat * 2 ^ 18 + (s.toNat * 2 ^ 17 + (v.toNat * 2 ^ 16 + (k.toNat * 2 ^ 12 + (x.toNat * 2 ^ 6 + (z.toNat * 2 ^ 4 + 0x67000000))))))) := rfl
  have hM : (fld (encodeHost c (.ldfe d s v k x z)) 24 7).toNat = 0x67 := by rw [fld_of hE 0x67#7 (by simp only [BitVec.toNat_ofNat]; omega)]; rfl
  refine decode_of hM (.inl rfl) ?_ hW (fld_of hE _ (by omega))
  rw [raw67 hM]
  generalize encodeHost c (.ldfe d s v k x z) = W at *
  have f0 : fld W 18 6 = d := fld_of hE _ (by omega)
  have f1 : fld W 17 1 = s := fld_of hE _ (by omega)
  have f2 : fld W 16 1 = v := fld_of hE _ (by omega)
  have f3 : fld W 12 4 = k := fld_of hE _ (by omega)
  have f4 : fld W 6 6 = x := fld_of hE _ (by omega)
  have f5 : fld W 4 1 = z := fld_of hE _ (by omega)
  have g0_4 : fld W 0 4 = 0#4 := fld_of hE _ (by simp only [BitVec.toNat_ofNat]; omega)
  have g5_1 : fld W 5 1 = 0#1 := fld_of hE _ (by simp only [BitVec.toNat_ofNat]; omega)
  rw [dec67, row_ok (by simp [g0_4, g5_1]), f0, f1, f2, f3, f4, f5]
theorem Encoding.ldfeClr (d : BitVec 6) (s : BitVec 1) (v : BitVec 1) (k : BitVec 4) (x : BitVec 6) (z : BitVec 1) : Encoding.Statement (.ldfeClr d s v k x z) := by
  intro _ hW c
  have := BitVec.isLt c; have := BitVec.isLt d; have := BitVec.isLt s; have := BitVec.isLt v; have := BitVec.isLt k; have := BitVec.isLt x; have := BitVec.isLt z
  have hE : encodeHost c (.ldfeClr d s v k x z) = BitVec.ofNat 32 (c.toNat * 2 ^ 31 + (d.toNat * 2 ^ 18 + (s.toNat * 2 ^ 17 + (v.toNat * 2 ^ 16 + (k.toNat * 2 ^ 12 + (x.toNat * 2 ^ 6 + (z.toNat * 2 ^ 4 + 0x67000004))))))) := rfl
  have hM : (fld (encodeHost c (.ldfeClr d s v k x z)) 24 7).toNat = 0x67 := by rw [fld_of hE 0x67#7 (by simp only [BitVec.toNat_ofNat]; omega)]; rfl
  refine decode_of hM (.inl rfl) ?_ hW (fld_of hE _ (by omega))
  rw [raw67 hM]
  generalize encodeHost c (.ldfeClr d s v k x z) = W at *
  have f0 : fld W 18 6 = d := fld_of hE _ (by omega)
  have f1 : fld W 17 1 = s := fld_of hE _ (by omega)
  have f2 : fld W 16 1 = v := fld_of hE _ (by omega)
  have f3 : fld W 12 4 = k := fld_of hE _ (by omega)
  have f4 : fld W 6 6 = x := fld_of hE _ (by omega)
  have f5 : fld W 4 1 = z := fld_of hE _ (by omega)
  have g0_4 : fld W 0 4 = 4#4 := fld_of hE _ (by simp only [BitVec.toNat_ofNat]; omega)
  have g5_1 : fld W 5 1 = 0#1 := fld_of hE _ (by simp only [BitVec.toNat_ofNat]; omega)
  rw [dec67, row_no (by simp [g0_4]), row_ok (by simp [g0_4, g5_1]), f0, f1, f2, f3, f4, f5]
theorem Encoding.stfe (d : BitVec 6) (v : BitVec 1) (k : BitVec 4) (x : BitVec 6) (z : BitVec 1) : Encoding.Statement (.stfe d v k x z) := by
  intro _ hW c
  have := BitVec.isLt c; have := BitVec.isLt d; have := BitVec.isLt v; have := BitVec.isLt k; have := BitVec.isLt x; have := BitVec.isLt z
  have hE : encodeHost c (.stfe d v k x z) = BitVec.ofNat 32 (c.toNat * 2 ^ 31 + (d.toNat * 2 ^ 18 + (v.toNat * 2 ^ 16 + (k.toNat * 2 ^ 12 + (x.toNat * 2 ^ 6 + (z.toNat * 2 ^ 4 + 0x67000008)))))) := rfl
  have hM : (fld (encodeHost c (.stfe d v k x z)) 24 7).toNat = 0x67 := by rw [fld_of hE 0x67#7 (by simp only [BitVec.toNat_ofNat]; omega)]; rfl
  refine decode_of hM (.inl rfl) ?_ hW (fld_of hE _ (by omega))
  rw [raw67 hM]
  generalize encodeHost c (.stfe d v k x z) = W at *
  have f0 : fld W 18 6 = d := fld_of hE _ (by omega)
  have f1 : fld W 16 1 = v := fld_of hE _ (by omega)
  have f2 : fld W 12 4 = k := fld_of hE _ (by omega)
  have f3 : fld W 6 6 = x := fld_of hE _ (by omega)
  have f4 : fld W 4 1 = z := fld_of hE _ (by omega)
  have g0_4 : fld W 0 4 = 8#4 := fld_of hE _ (by simp only [BitVec.toNat_ofNat]; omega)
  have g5_1 : fld W 5 1 = 0#1 := fld_of hE _ (by simp only [BitVec.toNat_ofNat]; omega)
  have g17_1 : fld W 17 1 = 0#1 := fld_of hE _ (by simp only [BitVec.toNat_ofNat]; omega)
  rw [dec67, row_no (by simp [g0_4]), row_no (by simp [g0_4]), row_ok (by simp [g0_4, g5_1, g17_1]), f0, f1, f2, f3, f4]
theorem Encoding.smap (a : BitVec 5) (b : BitVec 5) (k : BitVec 4) : Encoding.Statement (.smap a b k) := by
  intro _ hW c
  have := BitVec.isLt c; have := BitVec.isLt a; have := BitVec.isLt b; have := BitVec.isLt k
  have hE : encodeHost c (.smap a b k) = BitVec.ofNat 32 (c.toNat * 2 ^ 31 + (a.toNat * 2 ^ 19 + (b.toNat * 2 ^ 14 + (k.toNat * 2 ^ 10 + 0x68000000)))) := rfl
  have hM : (fld (encodeHost c (.smap a b k)) 24 7).toNat = 0x68 := by rw [fld_of hE 0x68#7 (by simp only [BitVec.toNat_ofNat]; omega)]; rfl
  refine decode_of hM (.inl rfl) ?_ hW (fld_of hE _ (by omega))
  rw [raw68 hM]
  generalize encodeHost c (.smap a b k) = W at *
  have f0 : fld W 19 5 = a := fld_of hE _ (by omega)
  have f1 : fld W 14 5 = b := fld_of hE _ (by omega)
  have f2 : fld W 10 4 = k := fld_of hE _ (by omega)
  have g0_10 : fld W 0 10 = 0#10 := fld_of hE _ (by simp only [BitVec.toNat_ofNat]; omega)
  rw [dec68, row_ok (by simp [g0_10]), f0, f1, f2]
theorem Encoding.sflush (a : BitVec 5) (b : BitVec 5) : Encoding.Statement (.sflush a b) := by
  intro _ hW c
  have := BitVec.isLt c; have := BitVec.isLt a; have := BitVec.isLt b
  have hE : encodeHost c (.sflush a b) = BitVec.ofNat 32 (c.toNat * 2 ^ 31 + (a.toNat * 2 ^ 19 + (b.toNat * 2 ^ 14 + 0x68000001))) := rfl
  have hM : (fld (encodeHost c (.sflush a b)) 24 7).toNat = 0x68 := by rw [fld_of hE 0x68#7 (by simp only [BitVec.toNat_ofNat]; omega)]; rfl
  refine decode_of hM (.inl rfl) ?_ hW (fld_of hE _ (by omega))
  rw [raw68 hM]
  generalize encodeHost c (.sflush a b) = W at *
  have f0 : fld W 19 5 = a := fld_of hE _ (by omega)
  have f1 : fld W 14 5 = b := fld_of hE _ (by omega)
  have g0_10 : fld W 0 10 = 1#10 := fld_of hE _ (by simp only [BitVec.toNat_ofNat]; omega)
  have g0_14 : fld W 0 14 = 1#14 := fld_of hE _ (by simp only [BitVec.toNat_ofNat]; omega)
  rw [dec68, row_no (by simp [g0_10]), row_ok (by simp [g0_14]), f0, f1]
theorem Encoding.patset (p : BitVec 2) (k : BitVec 4) (a : BitVec 5) (b : BitVec 5) : Encoding.Statement (.patset p k a b) := by
  intro _ hW c
  have := BitVec.isLt c; have := BitVec.isLt p; have := BitVec.isLt k; have := BitVec.isLt a; have := BitVec.isLt b
  have hE : encodeHost c (.patset p k a b) = BitVec.ofNat 32 (c.toNat * 2 ^ 31 + (p.toNat * 2 ^ 22 + (k.toNat * 2 ^ 18 + (a.toNat * 2 ^ 13 + (b.toNat * 2 ^ 8 + 0x69000000))))) := rfl
  have hM : (fld (encodeHost c (.patset p k a b)) 24 7).toNat = 0x69 := by rw [fld_of hE 0x69#7 (by simp only [BitVec.toNat_ofNat]; omega)]; rfl
  refine decode_of hM (.inl rfl) ?_ hW (fld_of hE _ (by omega))
  rw [raw69 hM]
  generalize encodeHost c (.patset p k a b) = W at *
  have f0 : fld W 22 2 = p := fld_of hE _ (by omega)
  have f1 : fld W 18 4 = k := fld_of hE _ (by omega)
  have f2 : fld W 13 5 = a := fld_of hE _ (by omega)
  have f3 : fld W 8 5 = b := fld_of hE _ (by omega)
  have g0_8 : fld W 0 8 = 0#8 := fld_of hE _ (by simp only [BitVec.toNat_ofNat]; omega)
  rw [dec69, row_ok (by simp [g0_8]), f0, f1, f2, f3]
theorem Encoding.redmAdd (a : BitVec 6) (v : BitVec 1) (k : BitVec 4) (x : BitVec 6) (y : BitVec 2) : Encoding.Statement (.redmAdd a v k x y) := by
  intro _ hW c
  have := BitVec.isLt c; have := BitVec.isLt a; have := BitVec.isLt v; have := BitVec.isLt k; have := BitVec.isLt x; have := BitVec.isLt y
  have hE : encodeHost c (.redmAdd a v k x y) = BitVec.ofNat 32 (c.toNat * 2 ^ 31 + (a.toNat * 2 ^ 18 + (v.toNat * 2 ^ 16 + (k.toNat * 2 ^ 12 + (x.toNat * 2 ^ 6 + (y.toNat * 2 ^ 2 + 0x6A000000)))))) := rfl
  have hM : (fld (encodeHost c (.redmAdd a v k x y)) 24 7).toNat = 0x6A := by rw [fld_of hE 0x6A#7 (by simp only [BitVec.toNat_ofNat]; omega)]; rfl
  refine decode_of hM (.inl rfl) ?_ hW (fld_of hE _ (by omega))
  rw [raw6A hM]
  generalize encodeHost c (.redmAdd a v k x y) = W at *
  have f0 : fld W 18 6 = a := fld_of hE _ (by omega)
  have f1 : fld W 16 1 = v := fld_of hE _ (by omega)
  have f2 : fld W 12 4 = k := fld_of hE _ (by omega)
  have f3 : fld W 6 6 = x := fld_of hE _ (by omega)
  have f4 : fld W 2 2 = y := fld_of hE _ (by omega)
  have g0_2 : fld W 0 2 = 0#2 := fld_of hE _ (by simp only [BitVec.toNat_ofNat]; omega)
  have g4_2 : fld W 4 2 = 0#2 := fld_of hE _ (by simp only [BitVec.toNat_ofNat]; omega)
  have g17_1 : fld W 17 1 = 0#1 := fld_of hE _ (by simp only [BitVec.toNat_ofNat]; omega)
  rw [dec6A, row_ok (by simp [g0_2, g4_2, g17_1]), f0, f1, f2, f3, f4]
theorem Encoding.redmMax (a : BitVec 6) (v : BitVec 1) (k : BitVec 4) (x : BitVec 6) (y : BitVec 2) : Encoding.Statement (.redmMax a v k x y) := by
  intro _ hW c
  have := BitVec.isLt c; have := BitVec.isLt a; have := BitVec.isLt v; have := BitVec.isLt k; have := BitVec.isLt x; have := BitVec.isLt y
  have hE : encodeHost c (.redmMax a v k x y) = BitVec.ofNat 32 (c.toNat * 2 ^ 31 + (a.toNat * 2 ^ 18 + (v.toNat * 2 ^ 16 + (k.toNat * 2 ^ 12 + (x.toNat * 2 ^ 6 + (y.toNat * 2 ^ 2 + 0x6A000010)))))) := rfl
  have hM : (fld (encodeHost c (.redmMax a v k x y)) 24 7).toNat = 0x6A := by rw [fld_of hE 0x6A#7 (by simp only [BitVec.toNat_ofNat]; omega)]; rfl
  refine decode_of hM (.inl rfl) ?_ hW (fld_of hE _ (by omega))
  rw [raw6A hM]
  generalize encodeHost c (.redmMax a v k x y) = W at *
  have f0 : fld W 18 6 = a := fld_of hE _ (by omega)
  have f1 : fld W 16 1 = v := fld_of hE _ (by omega)
  have f2 : fld W 12 4 = k := fld_of hE _ (by omega)
  have f3 : fld W 6 6 = x := fld_of hE _ (by omega)
  have f4 : fld W 2 2 = y := fld_of hE _ (by omega)
  have g4_2 : fld W 4 2 = 1#2 := fld_of hE _ (by simp only [BitVec.toNat_ofNat]; omega)
  have g0_2 : fld W 0 2 = 0#2 := fld_of hE _ (by simp only [BitVec.toNat_ofNat]; omega)
  have g17_1 : fld W 17 1 = 0#1 := fld_of hE _ (by simp only [BitVec.toNat_ofNat]; omega)
  rw [dec6A, row_no (by simp [g4_2]), row_ok (by simp [g0_2, g4_2, g17_1]), f0, f1, f2, f3, f4]
theorem Encoding.redmMin (a : BitVec 6) (v : BitVec 1) (k : BitVec 4) (x : BitVec 6) (y : BitVec 2) : Encoding.Statement (.redmMin a v k x y) := by
  intro _ hW c
  have := BitVec.isLt c; have := BitVec.isLt a; have := BitVec.isLt v; have := BitVec.isLt k; have := BitVec.isLt x; have := BitVec.isLt y
  have hE : encodeHost c (.redmMin a v k x y) = BitVec.ofNat 32 (c.toNat * 2 ^ 31 + (a.toNat * 2 ^ 18 + (v.toNat * 2 ^ 16 + (k.toNat * 2 ^ 12 + (x.toNat * 2 ^ 6 + (y.toNat * 2 ^ 2 + 0x6A000020)))))) := rfl
  have hM : (fld (encodeHost c (.redmMin a v k x y)) 24 7).toNat = 0x6A := by rw [fld_of hE 0x6A#7 (by simp only [BitVec.toNat_ofNat]; omega)]; rfl
  refine decode_of hM (.inl rfl) ?_ hW (fld_of hE _ (by omega))
  rw [raw6A hM]
  generalize encodeHost c (.redmMin a v k x y) = W at *
  have f0 : fld W 18 6 = a := fld_of hE _ (by omega)
  have f1 : fld W 16 1 = v := fld_of hE _ (by omega)
  have f2 : fld W 12 4 = k := fld_of hE _ (by omega)
  have f3 : fld W 6 6 = x := fld_of hE _ (by omega)
  have f4 : fld W 2 2 = y := fld_of hE _ (by omega)
  have g4_2 : fld W 4 2 = 2#2 := fld_of hE _ (by simp only [BitVec.toNat_ofNat]; omega)
  have g0_2 : fld W 0 2 = 0#2 := fld_of hE _ (by simp only [BitVec.toNat_ofNat]; omega)
  have g17_1 : fld W 17 1 = 0#1 := fld_of hE _ (by simp only [BitVec.toNat_ofNat]; omega)
  rw [dec6A, row_no (by simp [g4_2]), row_no (by simp [g4_2]), row_ok (by simp [g0_2, g4_2, g17_1]), f0, f1, f2, f3, f4]
theorem Encoding.amadd32 (d : BitVec 6) (s : BitVec 1) (v : BitVec 1) (k : BitVec 4) (b : BitVec 6) (e : BitVec 3) : Encoding.Statement (.amadd32 d s v k b e) := by
  intro _ hW c
  have := BitVec.isLt c; have := BitVec.isLt d; have := BitVec.isLt s; have := BitVec.isLt v; have := BitVec.isLt k; have := BitVec.isLt b; have := BitVec.isLt e
  have hE : encodeHost c (.amadd32 d s v k b e) = BitVec.ofNat 32 (c.toNat * 2 ^ 31 + (d.toNat * 2 ^ 18 + (s.toNat * 2 ^ 17 + (v.toNat * 2 ^ 16 + (k.toNat * 2 ^ 12 + (b.toNat * 2 ^ 6 + (e.toNat * 2 ^ 0 + 0x6C000000))))))) := rfl
  have hM : (fld (encodeHost c (.amadd32 d s v k b e)) 24 7).toNat = 0x6C := by rw [fld_of hE 0x6C#7 (by simp only [BitVec.toNat_ofNat]; omega)]; rfl
  refine decode_of hM (.inl rfl) ?_ hW (fld_of hE _ (by omega))
  rw [raw6C hM]
  generalize encodeHost c (.amadd32 d s v k b e) = W at *
  have f0 : fld W 18 6 = d := fld_of hE _ (by omega)
  have f1 : fld W 17 1 = s := fld_of hE _ (by omega)
  have f2 : fld W 16 1 = v := fld_of hE _ (by omega)
  have f3 : fld W 12 4 = k := fld_of hE _ (by omega)
  have f4 : fld W 6 6 = b := fld_of hE _ (by omega)
  have f5 : fld W 0 3 = e := fld_of hE _ (by omega)
  have g3_3 : fld W 3 3 = 0#3 := fld_of hE _ (by simp only [BitVec.toNat_ofNat]; omega)
  rw [dec6C, row_ok (by simp [g3_3]), f0, f1, f2, f3, f4, f5]
theorem Encoding.amand32 (d : BitVec 6) (s : BitVec 1) (v : BitVec 1) (k : BitVec 4) (b : BitVec 6) (e : BitVec 3) : Encoding.Statement (.amand32 d s v k b e) := by
  intro _ hW c
  have := BitVec.isLt c; have := BitVec.isLt d; have := BitVec.isLt s; have := BitVec.isLt v; have := BitVec.isLt k; have := BitVec.isLt b; have := BitVec.isLt e
  have hE : encodeHost c (.amand32 d s v k b e) = BitVec.ofNat 32 (c.toNat * 2 ^ 31 + (d.toNat * 2 ^ 18 + (s.toNat * 2 ^ 17 + (v.toNat * 2 ^ 16 + (k.toNat * 2 ^ 12 + (b.toNat * 2 ^ 6 + (e.toNat * 2 ^ 0 + 0x6C000008))))))) := rfl
  have hM : (fld (encodeHost c (.amand32 d s v k b e)) 24 7).toNat = 0x6C := by rw [fld_of hE 0x6C#7 (by simp only [BitVec.toNat_ofNat]; omega)]; rfl
  refine decode_of hM (.inl rfl) ?_ hW (fld_of hE _ (by omega))
  rw [raw6C hM]
  generalize encodeHost c (.amand32 d s v k b e) = W at *
  have f0 : fld W 18 6 = d := fld_of hE _ (by omega)
  have f1 : fld W 17 1 = s := fld_of hE _ (by omega)
  have f2 : fld W 16 1 = v := fld_of hE _ (by omega)
  have f3 : fld W 12 4 = k := fld_of hE _ (by omega)
  have f4 : fld W 6 6 = b := fld_of hE _ (by omega)
  have f5 : fld W 0 3 = e := fld_of hE _ (by omega)
  have g3_3 : fld W 3 3 = 1#3 := fld_of hE _ (by simp only [BitVec.toNat_ofNat]; omega)
  rw [dec6C, row_no (by simp [g3_3]), row_ok (by simp [g3_3]), f0, f1, f2, f3, f4, f5]
theorem Encoding.amor32 (d : BitVec 6) (s : BitVec 1) (v : BitVec 1) (k : BitVec 4) (b : BitVec 6) (e : BitVec 3) : Encoding.Statement (.amor32 d s v k b e) := by
  intro _ hW c
  have := BitVec.isLt c; have := BitVec.isLt d; have := BitVec.isLt s; have := BitVec.isLt v; have := BitVec.isLt k; have := BitVec.isLt b; have := BitVec.isLt e
  have hE : encodeHost c (.amor32 d s v k b e) = BitVec.ofNat 32 (c.toNat * 2 ^ 31 + (d.toNat * 2 ^ 18 + (s.toNat * 2 ^ 17 + (v.toNat * 2 ^ 16 + (k.toNat * 2 ^ 12 + (b.toNat * 2 ^ 6 + (e.toNat * 2 ^ 0 + 0x6C000010))))))) := rfl
  have hM : (fld (encodeHost c (.amor32 d s v k b e)) 24 7).toNat = 0x6C := by rw [fld_of hE 0x6C#7 (by simp only [BitVec.toNat_ofNat]; omega)]; rfl
  refine decode_of hM (.inl rfl) ?_ hW (fld_of hE _ (by omega))
  rw [raw6C hM]
  generalize encodeHost c (.amor32 d s v k b e) = W at *
  have f0 : fld W 18 6 = d := fld_of hE _ (by omega)
  have f1 : fld W 17 1 = s := fld_of hE _ (by omega)
  have f2 : fld W 16 1 = v := fld_of hE _ (by omega)
  have f3 : fld W 12 4 = k := fld_of hE _ (by omega)
  have f4 : fld W 6 6 = b := fld_of hE _ (by omega)
  have f5 : fld W 0 3 = e := fld_of hE _ (by omega)
  have g3_3 : fld W 3 3 = 2#3 := fld_of hE _ (by simp only [BitVec.toNat_ofNat]; omega)
  rw [dec6C, row_no (by simp [g3_3]), row_no (by simp [g3_3]), row_ok (by simp [g3_3]), f0, f1, f2, f3, f4, f5]
theorem Encoding.amxor32 (d : BitVec 6) (s : BitVec 1) (v : BitVec 1) (k : BitVec 4) (b : BitVec 6) (e : BitVec 3) : Encoding.Statement (.amxor32 d s v k b e) := by
  intro _ hW c
  have := BitVec.isLt c; have := BitVec.isLt d; have := BitVec.isLt s; have := BitVec.isLt v; have := BitVec.isLt k; have := BitVec.isLt b; have := BitVec.isLt e
  have hE : encodeHost c (.amxor32 d s v k b e) = BitVec.ofNat 32 (c.toNat * 2 ^ 31 + (d.toNat * 2 ^ 18 + (s.toNat * 2 ^ 17 + (v.toNat * 2 ^ 16 + (k.toNat * 2 ^ 12 + (b.toNat * 2 ^ 6 + (e.toNat * 2 ^ 0 + 0x6C000018))))))) := rfl
  have hM : (fld (encodeHost c (.amxor32 d s v k b e)) 24 7).toNat = 0x6C := by rw [fld_of hE 0x6C#7 (by simp only [BitVec.toNat_ofNat]; omega)]; rfl
  refine decode_of hM (.inl rfl) ?_ hW (fld_of hE _ (by omega))
  rw [raw6C hM]
  generalize encodeHost c (.amxor32 d s v k b e) = W at *
  have f0 : fld W 18 6 = d := fld_of hE _ (by omega)
  have f1 : fld W 17 1 = s := fld_of hE _ (by omega)
  have f2 : fld W 16 1 = v := fld_of hE _ (by omega)
  have f3 : fld W 12 4 = k := fld_of hE _ (by omega)
  have f4 : fld W 6 6 = b := fld_of hE _ (by omega)
  have f5 : fld W 0 3 = e := fld_of hE _ (by omega)
  have g3_3 : fld W 3 3 = 3#3 := fld_of hE _ (by simp only [BitVec.toNat_ofNat]; omega)
  rw [dec6C, row_no (by simp [g3_3]), row_no (by simp [g3_3]), row_no (by simp [g3_3]), row_ok (by simp [g3_3]), f0, f1, f2, f3, f4, f5]
theorem Encoding.ammaxI32 (d : BitVec 6) (s : BitVec 1) (v : BitVec 1) (k : BitVec 4) (b : BitVec 6) (e : BitVec 3) : Encoding.Statement (.ammaxI32 d s v k b e) := by
  intro _ hW c
  have := BitVec.isLt c; have := BitVec.isLt d; have := BitVec.isLt s; have := BitVec.isLt v; have := BitVec.isLt k; have := BitVec.isLt b; have := BitVec.isLt e
  have hE : encodeHost c (.ammaxI32 d s v k b e) = BitVec.ofNat 32 (c.toNat * 2 ^ 31 + (d.toNat * 2 ^ 18 + (s.toNat * 2 ^ 17 + (v.toNat * 2 ^ 16 + (k.toNat * 2 ^ 12 + (b.toNat * 2 ^ 6 + (e.toNat * 2 ^ 0 + 0x6C000020))))))) := rfl
  have hM : (fld (encodeHost c (.ammaxI32 d s v k b e)) 24 7).toNat = 0x6C := by rw [fld_of hE 0x6C#7 (by simp only [BitVec.toNat_ofNat]; omega)]; rfl
  refine decode_of hM (.inl rfl) ?_ hW (fld_of hE _ (by omega))
  rw [raw6C hM]
  generalize encodeHost c (.ammaxI32 d s v k b e) = W at *
  have f0 : fld W 18 6 = d := fld_of hE _ (by omega)
  have f1 : fld W 17 1 = s := fld_of hE _ (by omega)
  have f2 : fld W 16 1 = v := fld_of hE _ (by omega)
  have f3 : fld W 12 4 = k := fld_of hE _ (by omega)
  have f4 : fld W 6 6 = b := fld_of hE _ (by omega)
  have f5 : fld W 0 3 = e := fld_of hE _ (by omega)
  have g3_3 : fld W 3 3 = 4#3 := fld_of hE _ (by simp only [BitVec.toNat_ofNat]; omega)
  rw [dec6C, row_no (by simp [g3_3]), row_no (by simp [g3_3]), row_no (by simp [g3_3]), row_no (by simp [g3_3]), row_ok (by simp [g3_3]), f0, f1, f2, f3, f4, f5]
theorem Encoding.ammaxU32 (d : BitVec 6) (s : BitVec 1) (v : BitVec 1) (k : BitVec 4) (b : BitVec 6) (e : BitVec 3) : Encoding.Statement (.ammaxU32 d s v k b e) := by
  intro _ hW c
  have := BitVec.isLt c; have := BitVec.isLt d; have := BitVec.isLt s; have := BitVec.isLt v; have := BitVec.isLt k; have := BitVec.isLt b; have := BitVec.isLt e
  have hE : encodeHost c (.ammaxU32 d s v k b e) = BitVec.ofNat 32 (c.toNat * 2 ^ 31 + (d.toNat * 2 ^ 18 + (s.toNat * 2 ^ 17 + (v.toNat * 2 ^ 16 + (k.toNat * 2 ^ 12 + (b.toNat * 2 ^ 6 + (e.toNat * 2 ^ 0 + 0x6C000028))))))) := rfl
  have hM : (fld (encodeHost c (.ammaxU32 d s v k b e)) 24 7).toNat = 0x6C := by rw [fld_of hE 0x6C#7 (by simp only [BitVec.toNat_ofNat]; omega)]; rfl
  refine decode_of hM (.inl rfl) ?_ hW (fld_of hE _ (by omega))
  rw [raw6C hM]
  generalize encodeHost c (.ammaxU32 d s v k b e) = W at *
  have f0 : fld W 18 6 = d := fld_of hE _ (by omega)
  have f1 : fld W 17 1 = s := fld_of hE _ (by omega)
  have f2 : fld W 16 1 = v := fld_of hE _ (by omega)
  have f3 : fld W 12 4 = k := fld_of hE _ (by omega)
  have f4 : fld W 6 6 = b := fld_of hE _ (by omega)
  have f5 : fld W 0 3 = e := fld_of hE _ (by omega)
  have g3_3 : fld W 3 3 = 5#3 := fld_of hE _ (by simp only [BitVec.toNat_ofNat]; omega)
  rw [dec6C, row_no (by simp [g3_3]), row_no (by simp [g3_3]), row_no (by simp [g3_3]), row_no (by simp [g3_3]), row_no (by simp [g3_3]), row_ok (by simp [g3_3]), f0, f1, f2, f3, f4, f5]
theorem Encoding.amminI32 (d : BitVec 6) (s : BitVec 1) (v : BitVec 1) (k : BitVec 4) (b : BitVec 6) (e : BitVec 3) : Encoding.Statement (.amminI32 d s v k b e) := by
  intro _ hW c
  have := BitVec.isLt c; have := BitVec.isLt d; have := BitVec.isLt s; have := BitVec.isLt v; have := BitVec.isLt k; have := BitVec.isLt b; have := BitVec.isLt e
  have hE : encodeHost c (.amminI32 d s v k b e) = BitVec.ofNat 32 (c.toNat * 2 ^ 31 + (d.toNat * 2 ^ 18 + (s.toNat * 2 ^ 17 + (v.toNat * 2 ^ 16 + (k.toNat * 2 ^ 12 + (b.toNat * 2 ^ 6 + (e.toNat * 2 ^ 0 + 0x6C000030))))))) := rfl
  have hM : (fld (encodeHost c (.amminI32 d s v k b e)) 24 7).toNat = 0x6C := by rw [fld_of hE 0x6C#7 (by simp only [BitVec.toNat_ofNat]; omega)]; rfl
  refine decode_of hM (.inl rfl) ?_ hW (fld_of hE _ (by omega))
  rw [raw6C hM]
  generalize encodeHost c (.amminI32 d s v k b e) = W at *
  have f0 : fld W 18 6 = d := fld_of hE _ (by omega)
  have f1 : fld W 17 1 = s := fld_of hE _ (by omega)
  have f2 : fld W 16 1 = v := fld_of hE _ (by omega)
  have f3 : fld W 12 4 = k := fld_of hE _ (by omega)
  have f4 : fld W 6 6 = b := fld_of hE _ (by omega)
  have f5 : fld W 0 3 = e := fld_of hE _ (by omega)
  have g3_3 : fld W 3 3 = 6#3 := fld_of hE _ (by simp only [BitVec.toNat_ofNat]; omega)
  rw [dec6C, row_no (by simp [g3_3]), row_no (by simp [g3_3]), row_no (by simp [g3_3]), row_no (by simp [g3_3]), row_no (by simp [g3_3]), row_no (by simp [g3_3]), row_ok (by simp [g3_3]), f0, f1, f2, f3, f4, f5]
theorem Encoding.amminU32 (d : BitVec 6) (s : BitVec 1) (v : BitVec 1) (k : BitVec 4) (b : BitVec 6) (e : BitVec 3) : Encoding.Statement (.amminU32 d s v k b e) := by
  intro _ hW c
  have := BitVec.isLt c; have := BitVec.isLt d; have := BitVec.isLt s; have := BitVec.isLt v; have := BitVec.isLt k; have := BitVec.isLt b; have := BitVec.isLt e
  have hE : encodeHost c (.amminU32 d s v k b e) = BitVec.ofNat 32 (c.toNat * 2 ^ 31 + (d.toNat * 2 ^ 18 + (s.toNat * 2 ^ 17 + (v.toNat * 2 ^ 16 + (k.toNat * 2 ^ 12 + (b.toNat * 2 ^ 6 + (e.toNat * 2 ^ 0 + 0x6C000038))))))) := rfl
  have hM : (fld (encodeHost c (.amminU32 d s v k b e)) 24 7).toNat = 0x6C := by rw [fld_of hE 0x6C#7 (by simp only [BitVec.toNat_ofNat]; omega)]; rfl
  refine decode_of hM (.inl rfl) ?_ hW (fld_of hE _ (by omega))
  rw [raw6C hM]
  generalize encodeHost c (.amminU32 d s v k b e) = W at *
  have f0 : fld W 18 6 = d := fld_of hE _ (by omega)
  have f1 : fld W 17 1 = s := fld_of hE _ (by omega)
  have f2 : fld W 16 1 = v := fld_of hE _ (by omega)
  have f3 : fld W 12 4 = k := fld_of hE _ (by omega)
  have f4 : fld W 6 6 = b := fld_of hE _ (by omega)
  have f5 : fld W 0 3 = e := fld_of hE _ (by omega)
  have g3_3 : fld W 3 3 = 7#3 := fld_of hE _ (by simp only [BitVec.toNat_ofNat]; omega)
  rw [dec6C, row_no (by simp [g3_3]), row_no (by simp [g3_3]), row_no (by simp [g3_3]), row_no (by simp [g3_3]), row_no (by simp [g3_3]), row_no (by simp [g3_3]), row_no (by simp [g3_3]), row_ok (by simp [g3_3]), f0, f1, f2, f3, f4, f5]
theorem Encoding.amadd64 (d : BitVec 6) (s : BitVec 1) (v : BitVec 1) (k : BitVec 4) (b : BitVec 6) (e : BitVec 3) : Encoding.Statement (.amadd64 d s v k b e) := by
  intro _ hW c
  have := BitVec.isLt c; have := BitVec.isLt d; have := BitVec.isLt s; have := BitVec.isLt v; have := BitVec.isLt k; have := BitVec.isLt b; have := BitVec.isLt e
  have hE : encodeHost c (.amadd64 d s v k b e) = BitVec.ofNat 32 (c.toNat * 2 ^ 31 + (d.toNat * 2 ^ 18 + (s.toNat * 2 ^ 17 + (v.toNat * 2 ^ 16 + (k.toNat * 2 ^ 12 + (b.toNat * 2 ^ 6 + (e.toNat * 2 ^ 0 + 0x6D000000))))))) := rfl
  have hM : (fld (encodeHost c (.amadd64 d s v k b e)) 24 7).toNat = 0x6D := by rw [fld_of hE 0x6D#7 (by simp only [BitVec.toNat_ofNat]; omega)]; rfl
  refine decode_of hM (.inl rfl) ?_ hW (fld_of hE _ (by omega))
  rw [raw6D hM]
  generalize encodeHost c (.amadd64 d s v k b e) = W at *
  have f0 : fld W 18 6 = d := fld_of hE _ (by omega)
  have f1 : fld W 17 1 = s := fld_of hE _ (by omega)
  have f2 : fld W 16 1 = v := fld_of hE _ (by omega)
  have f3 : fld W 12 4 = k := fld_of hE _ (by omega)
  have f4 : fld W 6 6 = b := fld_of hE _ (by omega)
  have f5 : fld W 0 3 = e := fld_of hE _ (by omega)
  have g3_3 : fld W 3 3 = 0#3 := fld_of hE _ (by simp only [BitVec.toNat_ofNat]; omega)
  rw [dec6D, row_ok (by simp [g3_3]), f0, f1, f2, f3, f4, f5]
theorem Encoding.amand64 (d : BitVec 6) (s : BitVec 1) (v : BitVec 1) (k : BitVec 4) (b : BitVec 6) (e : BitVec 3) : Encoding.Statement (.amand64 d s v k b e) := by
  intro _ hW c
  have := BitVec.isLt c; have := BitVec.isLt d; have := BitVec.isLt s; have := BitVec.isLt v; have := BitVec.isLt k; have := BitVec.isLt b; have := BitVec.isLt e
  have hE : encodeHost c (.amand64 d s v k b e) = BitVec.ofNat 32 (c.toNat * 2 ^ 31 + (d.toNat * 2 ^ 18 + (s.toNat * 2 ^ 17 + (v.toNat * 2 ^ 16 + (k.toNat * 2 ^ 12 + (b.toNat * 2 ^ 6 + (e.toNat * 2 ^ 0 + 0x6D000008))))))) := rfl
  have hM : (fld (encodeHost c (.amand64 d s v k b e)) 24 7).toNat = 0x6D := by rw [fld_of hE 0x6D#7 (by simp only [BitVec.toNat_ofNat]; omega)]; rfl
  refine decode_of hM (.inl rfl) ?_ hW (fld_of hE _ (by omega))
  rw [raw6D hM]
  generalize encodeHost c (.amand64 d s v k b e) = W at *
  have f0 : fld W 18 6 = d := fld_of hE _ (by omega)
  have f1 : fld W 17 1 = s := fld_of hE _ (by omega)
  have f2 : fld W 16 1 = v := fld_of hE _ (by omega)
  have f3 : fld W 12 4 = k := fld_of hE _ (by omega)
  have f4 : fld W 6 6 = b := fld_of hE _ (by omega)
  have f5 : fld W 0 3 = e := fld_of hE _ (by omega)
  have g3_3 : fld W 3 3 = 1#3 := fld_of hE _ (by simp only [BitVec.toNat_ofNat]; omega)
  rw [dec6D, row_no (by simp [g3_3]), row_ok (by simp [g3_3]), f0, f1, f2, f3, f4, f5]
theorem Encoding.amor64 (d : BitVec 6) (s : BitVec 1) (v : BitVec 1) (k : BitVec 4) (b : BitVec 6) (e : BitVec 3) : Encoding.Statement (.amor64 d s v k b e) := by
  intro _ hW c
  have := BitVec.isLt c; have := BitVec.isLt d; have := BitVec.isLt s; have := BitVec.isLt v; have := BitVec.isLt k; have := BitVec.isLt b; have := BitVec.isLt e
  have hE : encodeHost c (.amor64 d s v k b e) = BitVec.ofNat 32 (c.toNat * 2 ^ 31 + (d.toNat * 2 ^ 18 + (s.toNat * 2 ^ 17 + (v.toNat * 2 ^ 16 + (k.toNat * 2 ^ 12 + (b.toNat * 2 ^ 6 + (e.toNat * 2 ^ 0 + 0x6D000010))))))) := rfl
  have hM : (fld (encodeHost c (.amor64 d s v k b e)) 24 7).toNat = 0x6D := by rw [fld_of hE 0x6D#7 (by simp only [BitVec.toNat_ofNat]; omega)]; rfl
  refine decode_of hM (.inl rfl) ?_ hW (fld_of hE _ (by omega))
  rw [raw6D hM]
  generalize encodeHost c (.amor64 d s v k b e) = W at *
  have f0 : fld W 18 6 = d := fld_of hE _ (by omega)
  have f1 : fld W 17 1 = s := fld_of hE _ (by omega)
  have f2 : fld W 16 1 = v := fld_of hE _ (by omega)
  have f3 : fld W 12 4 = k := fld_of hE _ (by omega)
  have f4 : fld W 6 6 = b := fld_of hE _ (by omega)
  have f5 : fld W 0 3 = e := fld_of hE _ (by omega)
  have g3_3 : fld W 3 3 = 2#3 := fld_of hE _ (by simp only [BitVec.toNat_ofNat]; omega)
  rw [dec6D, row_no (by simp [g3_3]), row_no (by simp [g3_3]), row_ok (by simp [g3_3]), f0, f1, f2, f3, f4, f5]
theorem Encoding.amxor64 (d : BitVec 6) (s : BitVec 1) (v : BitVec 1) (k : BitVec 4) (b : BitVec 6) (e : BitVec 3) : Encoding.Statement (.amxor64 d s v k b e) := by
  intro _ hW c
  have := BitVec.isLt c; have := BitVec.isLt d; have := BitVec.isLt s; have := BitVec.isLt v; have := BitVec.isLt k; have := BitVec.isLt b; have := BitVec.isLt e
  have hE : encodeHost c (.amxor64 d s v k b e) = BitVec.ofNat 32 (c.toNat * 2 ^ 31 + (d.toNat * 2 ^ 18 + (s.toNat * 2 ^ 17 + (v.toNat * 2 ^ 16 + (k.toNat * 2 ^ 12 + (b.toNat * 2 ^ 6 + (e.toNat * 2 ^ 0 + 0x6D000018))))))) := rfl
  have hM : (fld (encodeHost c (.amxor64 d s v k b e)) 24 7).toNat = 0x6D := by rw [fld_of hE 0x6D#7 (by simp only [BitVec.toNat_ofNat]; omega)]; rfl
  refine decode_of hM (.inl rfl) ?_ hW (fld_of hE _ (by omega))
  rw [raw6D hM]
  generalize encodeHost c (.amxor64 d s v k b e) = W at *
  have f0 : fld W 18 6 = d := fld_of hE _ (by omega)
  have f1 : fld W 17 1 = s := fld_of hE _ (by omega)
  have f2 : fld W 16 1 = v := fld_of hE _ (by omega)
  have f3 : fld W 12 4 = k := fld_of hE _ (by omega)
  have f4 : fld W 6 6 = b := fld_of hE _ (by omega)
  have f5 : fld W 0 3 = e := fld_of hE _ (by omega)
  have g3_3 : fld W 3 3 = 3#3 := fld_of hE _ (by simp only [BitVec.toNat_ofNat]; omega)
  rw [dec6D, row_no (by simp [g3_3]), row_no (by simp [g3_3]), row_no (by simp [g3_3]), row_ok (by simp [g3_3]), f0, f1, f2, f3, f4, f5]
theorem Encoding.ammaxI64 (d : BitVec 6) (s : BitVec 1) (v : BitVec 1) (k : BitVec 4) (b : BitVec 6) (e : BitVec 3) : Encoding.Statement (.ammaxI64 d s v k b e) := by
  intro _ hW c
  have := BitVec.isLt c; have := BitVec.isLt d; have := BitVec.isLt s; have := BitVec.isLt v; have := BitVec.isLt k; have := BitVec.isLt b; have := BitVec.isLt e
  have hE : encodeHost c (.ammaxI64 d s v k b e) = BitVec.ofNat 32 (c.toNat * 2 ^ 31 + (d.toNat * 2 ^ 18 + (s.toNat * 2 ^ 17 + (v.toNat * 2 ^ 16 + (k.toNat * 2 ^ 12 + (b.toNat * 2 ^ 6 + (e.toNat * 2 ^ 0 + 0x6D000020))))))) := rfl
  have hM : (fld (encodeHost c (.ammaxI64 d s v k b e)) 24 7).toNat = 0x6D := by rw [fld_of hE 0x6D#7 (by simp only [BitVec.toNat_ofNat]; omega)]; rfl
  refine decode_of hM (.inl rfl) ?_ hW (fld_of hE _ (by omega))
  rw [raw6D hM]
  generalize encodeHost c (.ammaxI64 d s v k b e) = W at *
  have f0 : fld W 18 6 = d := fld_of hE _ (by omega)
  have f1 : fld W 17 1 = s := fld_of hE _ (by omega)
  have f2 : fld W 16 1 = v := fld_of hE _ (by omega)
  have f3 : fld W 12 4 = k := fld_of hE _ (by omega)
  have f4 : fld W 6 6 = b := fld_of hE _ (by omega)
  have f5 : fld W 0 3 = e := fld_of hE _ (by omega)
  have g3_3 : fld W 3 3 = 4#3 := fld_of hE _ (by simp only [BitVec.toNat_ofNat]; omega)
  rw [dec6D, row_no (by simp [g3_3]), row_no (by simp [g3_3]), row_no (by simp [g3_3]), row_no (by simp [g3_3]), row_ok (by simp [g3_3]), f0, f1, f2, f3, f4, f5]
theorem Encoding.ammaxU64 (d : BitVec 6) (s : BitVec 1) (v : BitVec 1) (k : BitVec 4) (b : BitVec 6) (e : BitVec 3) : Encoding.Statement (.ammaxU64 d s v k b e) := by
  intro _ hW c
  have := BitVec.isLt c; have := BitVec.isLt d; have := BitVec.isLt s; have := BitVec.isLt v; have := BitVec.isLt k; have := BitVec.isLt b; have := BitVec.isLt e
  have hE : encodeHost c (.ammaxU64 d s v k b e) = BitVec.ofNat 32 (c.toNat * 2 ^ 31 + (d.toNat * 2 ^ 18 + (s.toNat * 2 ^ 17 + (v.toNat * 2 ^ 16 + (k.toNat * 2 ^ 12 + (b.toNat * 2 ^ 6 + (e.toNat * 2 ^ 0 + 0x6D000028))))))) := rfl
  have hM : (fld (encodeHost c (.ammaxU64 d s v k b e)) 24 7).toNat = 0x6D := by rw [fld_of hE 0x6D#7 (by simp only [BitVec.toNat_ofNat]; omega)]; rfl
  refine decode_of hM (.inl rfl) ?_ hW (fld_of hE _ (by omega))
  rw [raw6D hM]
  generalize encodeHost c (.ammaxU64 d s v k b e) = W at *
  have f0 : fld W 18 6 = d := fld_of hE _ (by omega)
  have f1 : fld W 17 1 = s := fld_of hE _ (by omega)
  have f2 : fld W 16 1 = v := fld_of hE _ (by omega)
  have f3 : fld W 12 4 = k := fld_of hE _ (by omega)
  have f4 : fld W 6 6 = b := fld_of hE _ (by omega)
  have f5 : fld W 0 3 = e := fld_of hE _ (by omega)
  have g3_3 : fld W 3 3 = 5#3 := fld_of hE _ (by simp only [BitVec.toNat_ofNat]; omega)
  rw [dec6D, row_no (by simp [g3_3]), row_no (by simp [g3_3]), row_no (by simp [g3_3]), row_no (by simp [g3_3]), row_no (by simp [g3_3]), row_ok (by simp [g3_3]), f0, f1, f2, f3, f4, f5]
theorem Encoding.amminI64 (d : BitVec 6) (s : BitVec 1) (v : BitVec 1) (k : BitVec 4) (b : BitVec 6) (e : BitVec 3) : Encoding.Statement (.amminI64 d s v k b e) := by
  intro _ hW c
  have := BitVec.isLt c; have := BitVec.isLt d; have := BitVec.isLt s; have := BitVec.isLt v; have := BitVec.isLt k; have := BitVec.isLt b; have := BitVec.isLt e
  have hE : encodeHost c (.amminI64 d s v k b e) = BitVec.ofNat 32 (c.toNat * 2 ^ 31 + (d.toNat * 2 ^ 18 + (s.toNat * 2 ^ 17 + (v.toNat * 2 ^ 16 + (k.toNat * 2 ^ 12 + (b.toNat * 2 ^ 6 + (e.toNat * 2 ^ 0 + 0x6D000030))))))) := rfl
  have hM : (fld (encodeHost c (.amminI64 d s v k b e)) 24 7).toNat = 0x6D := by rw [fld_of hE 0x6D#7 (by simp only [BitVec.toNat_ofNat]; omega)]; rfl
  refine decode_of hM (.inl rfl) ?_ hW (fld_of hE _ (by omega))
  rw [raw6D hM]
  generalize encodeHost c (.amminI64 d s v k b e) = W at *
  have f0 : fld W 18 6 = d := fld_of hE _ (by omega)
  have f1 : fld W 17 1 = s := fld_of hE _ (by omega)
  have f2 : fld W 16 1 = v := fld_of hE _ (by omega)
  have f3 : fld W 12 4 = k := fld_of hE _ (by omega)
  have f4 : fld W 6 6 = b := fld_of hE _ (by omega)
  have f5 : fld W 0 3 = e := fld_of hE _ (by omega)
  have g3_3 : fld W 3 3 = 6#3 := fld_of hE _ (by simp only [BitVec.toNat_ofNat]; omega)
  rw [dec6D, row_no (by simp [g3_3]), row_no (by simp [g3_3]), row_no (by simp [g3_3]), row_no (by simp [g3_3]), row_no (by simp [g3_3]), row_no (by simp [g3_3]), row_ok (by simp [g3_3]), f0, f1, f2, f3, f4, f5]
theorem Encoding.amminU64 (d : BitVec 6) (s : BitVec 1) (v : BitVec 1) (k : BitVec 4) (b : BitVec 6) (e : BitVec 3) : Encoding.Statement (.amminU64 d s v k b e) := by
  intro _ hW c
  have := BitVec.isLt c; have := BitVec.isLt d; have := BitVec.isLt s; have := BitVec.isLt v; have := BitVec.isLt k; have := BitVec.isLt b; have := BitVec.isLt e
  have hE : encodeHost c (.amminU64 d s v k b e) = BitVec.ofNat 32 (c.toNat * 2 ^ 31 + (d.toNat * 2 ^ 18 + (s.toNat * 2 ^ 17 + (v.toNat * 2 ^ 16 + (k.toNat * 2 ^ 12 + (b.toNat * 2 ^ 6 + (e.toNat * 2 ^ 0 + 0x6D000038))))))) := rfl
  have hM : (fld (encodeHost c (.amminU64 d s v k b e)) 24 7).toNat = 0x6D := by rw [fld_of hE 0x6D#7 (by simp only [BitVec.toNat_ofNat]; omega)]; rfl
  refine decode_of hM (.inl rfl) ?_ hW (fld_of hE _ (by omega))
  rw [raw6D hM]
  generalize encodeHost c (.amminU64 d s v k b e) = W at *
  have f0 : fld W 18 6 = d := fld_of hE _ (by omega)
  have f1 : fld W 17 1 = s := fld_of hE _ (by omega)
  have f2 : fld W 16 1 = v := fld_of hE _ (by omega)
  have f3 : fld W 12 4 = k := fld_of hE _ (by omega)
  have f4 : fld W 6 6 = b := fld_of hE _ (by omega)
  have f5 : fld W 0 3 = e := fld_of hE _ (by omega)
  have g3_3 : fld W 3 3 = 7#3 := fld_of hE _ (by simp only [BitVec.toNat_ofNat]; omega)
  rw [dec6D, row_no (by simp [g3_3]), row_no (by simp [g3_3]), row_no (by simp [g3_3]), row_no (by simp [g3_3]), row_no (by simp [g3_3]), row_no (by simp [g3_3]), row_no (by simp [g3_3]), row_ok (by simp [g3_3]), f0, f1, f2, f3, f4, f5]
theorem Encoding.amswap32 (d : BitVec 6) (s : BitVec 1) (v : BitVec 1) (k : BitVec 4) (b : BitVec 6) (e : BitVec 3) : Encoding.Statement (.amswap32 d s v k b e) := by
  intro _ hW c
  have := BitVec.isLt c; have := BitVec.isLt d; have := BitVec.isLt s; have := BitVec.isLt v; have := BitVec.isLt k; have := BitVec.isLt b; have := BitVec.isLt e
  have hE : encodeHost c (.amswap32 d s v k b e) = BitVec.ofNat 32 (c.toNat * 2 ^ 31 + (d.toNat * 2 ^ 18 + (s.toNat * 2 ^ 17 + (v.toNat * 2 ^ 16 + (k.toNat * 2 ^ 12 + (b.toNat * 2 ^ 6 + (e.toNat * 2 ^ 0 + 0x6E000000))))))) := rfl
  have hM : (fld (encodeHost c (.amswap32 d s v k b e)) 24 7).toNat = 0x6E := by rw [fld_of hE 0x6E#7 (by simp only [BitVec.toNat_ofNat]; omega)]; rfl
  refine decode_of hM (.inl rfl) ?_ hW (fld_of hE _ (by omega))
  rw [raw6E hM]
  generalize encodeHost c (.amswap32 d s v k b e) = W at *
  have f0 : fld W 18 6 = d := fld_of hE _ (by omega)
  have f1 : fld W 17 1 = s := fld_of hE _ (by omega)
  have f2 : fld W 16 1 = v := fld_of hE _ (by omega)
  have f3 : fld W 12 4 = k := fld_of hE _ (by omega)
  have f4 : fld W 6 6 = b := fld_of hE _ (by omega)
  have f5 : fld W 0 3 = e := fld_of hE _ (by omega)
  have g3_3 : fld W 3 3 = 0#3 := fld_of hE _ (by simp only [BitVec.toNat_ofNat]; omega)
  rw [dec6E, row_ok (by simp [g3_3]), f0, f1, f2, f3, f4, f5]
theorem Encoding.amcas32 (d : BitVec 6) (s : BitVec 1) (v : BitVec 1) (k : BitVec 4) (b : BitVec 6) (e : BitVec 3) : Encoding.Statement (.amcas32 d s v k b e) := by
  intro _ hW c
  have := BitVec.isLt c; have := BitVec.isLt d; have := BitVec.isLt s; have := BitVec.isLt v; have := BitVec.isLt k; have := BitVec.isLt b; have := BitVec.isLt e
  have hE : encodeHost c (.amcas32 d s v k b e) = BitVec.ofNat 32 (c.toNat * 2 ^ 31 + (d.toNat * 2 ^ 18 + (s.toNat * 2 ^ 17 + (v.toNat * 2 ^ 16 + (k.toNat * 2 ^ 12 + (b.toNat * 2 ^ 6 + (e.toNat * 2 ^ 0 + 0x6E000008))))))) := rfl
  have hM : (fld (encodeHost c (.amcas32 d s v k b e)) 24 7).toNat = 0x6E := by rw [fld_of hE 0x6E#7 (by simp only [BitVec.toNat_ofNat]; omega)]; rfl
  refine decode_of hM (.inl rfl) ?_ hW (fld_of hE _ (by omega))
  rw [raw6E hM]
  generalize encodeHost c (.amcas32 d s v k b e) = W at *
  have f0 : fld W 18 6 = d := fld_of hE _ (by omega)
  have f1 : fld W 17 1 = s := fld_of hE _ (by omega)
  have f2 : fld W 16 1 = v := fld_of hE _ (by omega)
  have f3 : fld W 12 4 = k := fld_of hE _ (by omega)
  have f4 : fld W 6 6 = b := fld_of hE _ (by omega)
  have f5 : fld W 0 3 = e := fld_of hE _ (by omega)
  have g3_3 : fld W 3 3 = 1#3 := fld_of hE _ (by simp only [BitVec.toNat_ofNat]; omega)
  rw [dec6E, row_no (by simp [g3_3]), row_ok (by simp [g3_3]), f0, f1, f2, f3, f4, f5]
theorem Encoding.amswap64 (d : BitVec 6) (s : BitVec 1) (v : BitVec 1) (k : BitVec 4) (b : BitVec 6) (e : BitVec 3) : Encoding.Statement (.amswap64 d s v k b e) := by
  intro _ hW c
  have := BitVec.isLt c; have := BitVec.isLt d; have := BitVec.isLt s; have := BitVec.isLt v; have := BitVec.isLt k; have := BitVec.isLt b; have := BitVec.isLt e
  have hE : encodeHost c (.amswap64 d s v k b e) = BitVec.ofNat 32 (c.toNat * 2 ^ 31 + (d.toNat * 2 ^ 18 + (s.toNat * 2 ^ 17 + (v.toNat * 2 ^ 16 + (k.toNat * 2 ^ 12 + (b.toNat * 2 ^ 6 + (e.toNat * 2 ^ 0 + 0x6E000010))))))) := rfl
  have hM : (fld (encodeHost c (.amswap64 d s v k b e)) 24 7).toNat = 0x6E := by rw [fld_of hE 0x6E#7 (by simp only [BitVec.toNat_ofNat]; omega)]; rfl
  refine decode_of hM (.inl rfl) ?_ hW (fld_of hE _ (by omega))
  rw [raw6E hM]
  generalize encodeHost c (.amswap64 d s v k b e) = W at *
  have f0 : fld W 18 6 = d := fld_of hE _ (by omega)
  have f1 : fld W 17 1 = s := fld_of hE _ (by omega)
  have f2 : fld W 16 1 = v := fld_of hE _ (by omega)
  have f3 : fld W 12 4 = k := fld_of hE _ (by omega)
  have f4 : fld W 6 6 = b := fld_of hE _ (by omega)
  have f5 : fld W 0 3 = e := fld_of hE _ (by omega)
  have g3_3 : fld W 3 3 = 2#3 := fld_of hE _ (by simp only [BitVec.toNat_ofNat]; omega)
  rw [dec6E, row_no (by simp [g3_3]), row_no (by simp [g3_3]), row_ok (by simp [g3_3]), f0, f1, f2, f3, f4, f5]
theorem Encoding.amcas64 (d : BitVec 6) (s : BitVec 1) (v : BitVec 1) (k : BitVec 4) (b : BitVec 6) (e : BitVec 3) : Encoding.Statement (.amcas64 d s v k b e) := by
  intro _ hW c
  have := BitVec.isLt c; have := BitVec.isLt d; have := BitVec.isLt s; have := BitVec.isLt v; have := BitVec.isLt k; have := BitVec.isLt b; have := BitVec.isLt e
  have hE : encodeHost c (.amcas64 d s v k b e) = BitVec.ofNat 32 (c.toNat * 2 ^ 31 + (d.toNat * 2 ^ 18 + (s.toNat * 2 ^ 17 + (v.toNat * 2 ^ 16 + (k.toNat * 2 ^ 12 + (b.toNat * 2 ^ 6 + (e.toNat * 2 ^ 0 + 0x6E000018))))))) := rfl
  have hM : (fld (encodeHost c (.amcas64 d s v k b e)) 24 7).toNat = 0x6E := by rw [fld_of hE 0x6E#7 (by simp only [BitVec.toNat_ofNat]; omega)]; rfl
  refine decode_of hM (.inl rfl) ?_ hW (fld_of hE _ (by omega))
  rw [raw6E hM]
  generalize encodeHost c (.amcas64 d s v k b e) = W at *
  have f0 : fld W 18 6 = d := fld_of hE _ (by omega)
  have f1 : fld W 17 1 = s := fld_of hE _ (by omega)
  have f2 : fld W 16 1 = v := fld_of hE _ (by omega)
  have f3 : fld W 12 4 = k := fld_of hE _ (by omega)
  have f4 : fld W 6 6 = b := fld_of hE _ (by omega)
  have f5 : fld W 0 3 = e := fld_of hE _ (by omega)
  have g3_3 : fld W 3 3 = 3#3 := fld_of hE _ (by simp only [BitVec.toNat_ofNat]; omega)
  rw [dec6E, row_no (by simp [g3_3]), row_no (by simp [g3_3]), row_no (by simp [g3_3]), row_ok (by simp [g3_3]), f0, f1, f2, f3, f4, f5]
theorem Encoding.amaddF32 (d : BitVec 6) (s : BitVec 1) (v : BitVec 1) (k : BitVec 4) (b : BitVec 6) (e : BitVec 3) : Encoding.Statement (.amaddF32 d s v k b e) := by
  intro _ hW c
  have := BitVec.isLt c; have := BitVec.isLt d; have := BitVec.isLt s; have := BitVec.isLt v; have := BitVec.isLt k; have := BitVec.isLt b; have := BitVec.isLt e
  have hE : encodeHost c (.amaddF32 d s v k b e) = BitVec.ofNat 32 (c.toNat * 2 ^ 31 + (d.toNat * 2 ^ 18 + (s.toNat * 2 ^ 17 + (v.toNat * 2 ^ 16 + (k.toNat * 2 ^ 12 + (b.toNat * 2 ^ 6 + (e.toNat * 2 ^ 0 + 0x6E000020))))))) := rfl
  have hM : (fld (encodeHost c (.amaddF32 d s v k b e)) 24 7).toNat = 0x6E := by rw [fld_of hE 0x6E#7 (by simp only [BitVec.toNat_ofNat]; omega)]; rfl
  refine decode_of hM (.inl rfl) ?_ hW (fld_of hE _ (by omega))
  rw [raw6E hM]
  generalize encodeHost c (.amaddF32 d s v k b e) = W at *
  have f0 : fld W 18 6 = d := fld_of hE _ (by omega)
  have f1 : fld W 17 1 = s := fld_of hE _ (by omega)
  have f2 : fld W 16 1 = v := fld_of hE _ (by omega)
  have f3 : fld W 12 4 = k := fld_of hE _ (by omega)
  have f4 : fld W 6 6 = b := fld_of hE _ (by omega)
  have f5 : fld W 0 3 = e := fld_of hE _ (by omega)
  have g3_3 : fld W 3 3 = 4#3 := fld_of hE _ (by simp only [BitVec.toNat_ofNat]; omega)
  rw [dec6E, row_no (by simp [g3_3]), row_no (by simp [g3_3]), row_no (by simp [g3_3]), row_no (by simp [g3_3]), row_ok (by simp [g3_3]), f0, f1, f2, f3, f4, f5]
theorem Encoding.txbeg (d : BitVec 6) : Encoding.Statement (.txbeg d) := by
  intro _ hW c
  have := BitVec.isLt c; have := BitVec.isLt d
  have hE : encodeHost c (.txbeg d) = BitVec.ofNat 32 (c.toNat * 2 ^ 31 + (d.toNat * 2 ^ 18 + 0x6F000000)) := rfl
  have hM : (fld (encodeHost c (.txbeg d)) 24 7).toNat = 0x6F := by rw [fld_of hE 0x6F#7 (by simp only [BitVec.toNat_ofNat]; omega)]; rfl
  refine decode_of hM (.inl rfl) ?_ hW (fld_of hE _ (by omega))
  rw [raw6F hM]
  generalize encodeHost c (.txbeg d) = W at *
  have f0 : fld W 18 6 = d := fld_of hE _ (by omega)
  have g0_18 : fld W 0 18 = 0#18 := fld_of hE _ (by simp only [BitVec.toNat_ofNat]; omega)
  rw [dec6F, row_ok (by simp [g0_18]), f0]
theorem Encoding.txend : Encoding.Statement (.txend) := by
  intro _ hW c
  have := BitVec.isLt c
  have hE : encodeHost c (.txend) = BitVec.ofNat 32 (c.toNat * 2 ^ 31 + 0x70000000) := rfl
  have hM : (fld (encodeHost c (.txend)) 24 7).toNat = 0x70 := by rw [fld_of hE 0x70#7 (by simp only [BitVec.toNat_ofNat]; omega)]; rfl
  refine decode_of hM (.inl rfl) ?_ hW (fld_of hE _ (by omega))
  rw [raw70 hM]
  generalize encodeHost c (.txend) = W at *
  have g0_24 : fld W 0 24 = 0#24 := fld_of hE _ (by simp only [BitVec.toNat_ofNat]; omega)
  rw [dec70, row_ok (by simp [g0_24])]
theorem Encoding.txabort (n : BitVec 8) : Encoding.Statement (.txabort n) := by
  intro _ hW c
  have := BitVec.isLt c; have := BitVec.isLt n
  have hE : encodeHost c (.txabort n) = BitVec.ofNat 32 (c.toNat * 2 ^ 31 + (n.toNat * 2 ^ 16 + 0x71000000)) := rfl
  have hM : (fld (encodeHost c (.txabort n)) 24 7).toNat = 0x71 := by rw [fld_of hE 0x71#7 (by simp only [BitVec.toNat_ofNat]; omega)]; rfl
  refine decode_of hM (.inl rfl) ?_ hW (fld_of hE _ (by omega))
  rw [raw71 hM]
  generalize encodeHost c (.txabort n) = W at *
  have f0 : fld W 16 8 = n := fld_of hE _ (by omega)
  have g0_16 : fld W 0 16 = 0#16 := fld_of hE _ (by simp only [BitVec.toNat_ofNat]; omega)
  rw [dec71, row_ok (by simp [g0_16]), f0]
theorem Encoding.tacq (d : BitVec 5) (n : BitVec 6) : Encoding.Statement (.tacq d n) := by
  intro _ hW c
  have := BitVec.isLt c; have := BitVec.isLt d; have := BitVec.isLt n
  have hE : encodeHost c (.tacq d n) = BitVec.ofNat 32 (c.toNat * 2 ^ 31 + (d.toNat * 2 ^ 19 + (n.toNat * 2 ^ 13 + 0x72000000))) := rfl
  have hM : (fld (encodeHost c (.tacq d n)) 24 7).toNat = 0x72 := by rw [fld_of hE 0x72#7 (by simp only [BitVec.toNat_ofNat]; omega)]; rfl
  refine decode_of hM (.inl rfl) ?_ hW (fld_of hE _ (by omega))
  rw [raw72 hM]
  generalize encodeHost c (.tacq d n) = W at *
  have f0 : fld W 19 5 = d := fld_of hE _ (by omega)
  have f1 : fld W 13 6 = n := fld_of hE _ (by omega)
  have g0_13 : fld W 0 13 = 0#13 := fld_of hE _ (by simp only [BitVec.toNat_ofNat]; omega)
  rw [dec72, row_ok (by simp [g0_13]), f0, f1]
theorem Encoding.trel (a : BitVec 5) (n : BitVec 6) : Encoding.Statement (.trel a n) := by
  intro _ hW c
  have := BitVec.isLt c; have := BitVec.isLt a; have := BitVec.isLt n
  have hE : encodeHost c (.trel a n) = BitVec.ofNat 32 (c.toNat * 2 ^ 31 + (a.toNat * 2 ^ 19 + (n.toNat * 2 ^ 13 + 0x73000000))) := rfl
  have hM : (fld (encodeHost c (.trel a n)) 24 7).toNat = 0x73 := by rw [fld_of hE 0x73#7 (by simp only [BitVec.toNat_ofNat]; omega)]; rfl
  refine decode_of hM (.inl rfl) ?_ hW (fld_of hE _ (by omega))
  rw [raw73 hM]
  generalize encodeHost c (.trel a n) = W at *
  have f0 : fld W 19 5 = a := fld_of hE _ (by omega)
  have f1 : fld W 13 6 = n := fld_of hE _ (by omega)
  have g0_13 : fld W 0 13 = 0#13 := fld_of hE _ (by simp only [BitVec.toNat_ofNat]; omega)
  rw [dec73, row_ok (by simp [g0_13]), f0, f1]
theorem Encoding.tclaim (a : BitVec 5) (b : BitVec 5) : Encoding.Statement (.tclaim a b) := by
  intro _ hW c
  have := BitVec.isLt c; have := BitVec.isLt a; have := BitVec.isLt b
  have hE : encodeHost c (.tclaim a b) = BitVec.ofNat 32 (c.toNat * 2 ^ 31 + (a.toNat * 2 ^ 19 + (b.toNat * 2 ^ 14 + 0x74000000))) := rfl
  have hM : (fld (encodeHost c (.tclaim a b)) 24 7).toNat = 0x74 := by rw [fld_of hE 0x74#7 (by simp only [BitVec.toNat_ofNat]; omega)]; rfl
  refine decode_of hM (.inl rfl) ?_ hW (fld_of hE _ (by omega))
  rw [raw74 hM]
  generalize encodeHost c (.tclaim a b) = W at *
  have f0 : fld W 19 5 = a := fld_of hE _ (by omega)
  have f1 : fld W 14 5 = b := fld_of hE _ (by omega)
  have g0_14 : fld W 0 14 = 0#14 := fld_of hE _ (by simp only [BitVec.toNat_ofNat]; omega)
  rw [dec74, row_ok (by simp [g0_14]), f0, f1]
theorem Encoding.tmma (a : BitVec 4) (b : BitVec 4) (d : BitVec 5) (e : BitVec 3) (q : BitVec 1) (l : BitVec 1) (z : BitVec 1) : Encoding.Statement (.tmma a b d e q l z) := by
  intro _ hW c
  have := BitVec.isLt c; have := BitVec.isLt a; have := BitVec.isLt b; have := BitVec.isLt d; have := BitVec.isLt e; have := BitVec.isLt q; have := BitVec.isLt l; have := BitVec.isLt z
  have hE : encodeHost c (.tmma a b d e q l z) = BitVec.ofNat 32 (c.toNat * 2 ^ 31 + (a.toNat * 2 ^ 20 + (b.toNat * 2 ^ 16 + (d.toNat * 2 ^ 11 + (e.toNat * 2 ^ 8 + (q.toNat * 2 ^ 7 + (l.toNat * 2 ^ 6 + (z.toNat * 2 ^ 0 + 0x75000000)))))))) := rfl
  have hM : (fld (encodeHost c (.tmma a b d e q l z)) 24 7).toNat = 0x75 := by rw [fld_of hE 0x75#7 (by simp only [BitVec.toNat_ofNat]; omega)]; rfl
  refine decode_of hM (.inl rfl) ?_ hW (fld_of hE _ (by omega))
  rw [raw75 hM]
  generalize encodeHost c (.tmma a b d e q l z) = W at *
  have f0 : fld W 20 4 = a := fld_of hE _ (by omega)
  have f1 : fld W 16 4 = b := fld_of hE _ (by omega)
  have f2 : fld W 11 5 = d := fld_of hE _ (by omega)
  have f3 : fld W 8 3 = e := fld_of hE _ (by omega)
  have f4 : fld W 7 1 = q := fld_of hE _ (by omega)
  have f5 : fld W 6 1 = l := fld_of hE _ (by omega)
  have f6 : fld W 0 1 = z := fld_of hE _ (by omega)
  have g1_5 : fld W 1 5 = 0#5 := fld_of hE _ (by simp only [BitVec.toNat_ofNat]; omega)
  rw [dec75, row_ok (by simp [g1_5]), f0, f1, f2, f3, f4, f5, f6]
theorem Encoding.tdrain (d : BitVec 6) (s : BitVec 1) (a : BitVec 5) : Encoding.Statement (.tdrain d s a) := by
  intro _ hW c
  have := BitVec.isLt c; have := BitVec.isLt d; have := BitVec.isLt s; have := BitVec.isLt a
  have hE : encodeHost c (.tdrain d s a) = BitVec.ofNat 32 (c.toNat * 2 ^ 31 + (d.toNat * 2 ^ 18 + (s.toNat * 2 ^ 17 + (a.toNat * 2 ^ 12 + 0x76000000)))) := rfl
  have hM : (fld (encodeHost c (.tdrain d s a)) 24 7).toNat = 0x76 := by rw [fld_of hE 0x76#7 (by simp only [BitVec.toNat_ofNat]; omega)]; rfl
  refine decode_of hM (.inl rfl) ?_ hW (fld_of hE _ (by omega))
  rw [raw76 hM]
  generalize encodeHost c (.tdrain d s a) = W at *
  have f0 : fld W 18 6 = d := fld_of hE _ (by omega)
  have f1 : fld W 17 1 = s := fld_of hE _ (by omega)
  have f2 : fld W 12 5 = a := fld_of hE _ (by omega)
  have g0_12 : fld W 0 12 = 0#12 := fld_of hE _ (by simp only [BitVec.toNat_ofNat]; omega)
  rw [dec76, row_ok (by simp [g0_12]), f0, f1, f2]
theorem Encoding.tzero (a : BitVec 5) (n : BitVec 6) : Encoding.Statement (.tzero a n) := by
  intro _ hW c
  have := BitVec.isLt c; have := BitVec.isLt a; have := BitVec.isLt n
  have hE : encodeHost c (.tzero a n) = BitVec.ofNat 32 (c.toNat * 2 ^ 31 + (a.toNat * 2 ^ 19 + (n.toNat * 2 ^ 13 + 0x77000000))) := rfl
  have hM : (fld (encodeHost c (.tzero a n)) 24 7).toNat = 0x77 := by rw [fld_of hE 0x77#7 (by simp only [BitVec.toNat_ofNat]; omega)]; rfl
  refine decode_of hM (.inl rfl) ?_ hW (fld_of hE _ (by omega))
  rw [raw77 hM]
  generalize encodeHost c (.tzero a n) = W at *
  have f0 : fld W 19 5 = a := fld_of hE _ (by omega)
  have f1 : fld W 13 6 = n := fld_of hE _ (by omega)
  have g0_13 : fld W 0 13 = 0#13 := fld_of hE _ (by simp only [BitVec.toNat_ofNat]; omega)
  rw [dec77, row_ok (by simp [g0_13]), f0, f1]
theorem Encoding.ecopy (k : BitVec 4) (d : BitVec 5) (e : BitVec 3) (q : BitVec 1) (l : BitVec 1) : Encoding.Statement (.ecopy k d e q l) := by
  intro _ hW c
  have := BitVec.isLt c; have := BitVec.isLt k; have := BitVec.isLt d; have := BitVec.isLt e; have := BitVec.isLt q; have := BitVec.isLt l
  have hE : encodeHost c (.ecopy k d e q l) = BitVec.ofNat 32 (c.toNat * 2 ^ 31 + (k.toNat * 2 ^ 20 + (d.toNat * 2 ^ 15 + (e.toNat * 2 ^ 12 + (q.toNat * 2 ^ 11 + (l.toNat * 2 ^ 10 + 0x78000000)))))) := rfl
  have hM : (fld (encodeHost c (.ecopy k d e q l)) 24 7).toNat = 0x78 := by rw [fld_of hE 0x78#7 (by simp only [BitVec.toNat_ofNat]; omega)]; rfl
  refine decode_of hM (.inl rfl) ?_ hW (fld_of hE _ (by omega))
  rw [raw78 hM]
  generalize encodeHost c (.ecopy k d e q l) = W at *
  have f0 : fld W 20 4 = k := fld_of hE _ (by omega)
  have f1 : fld W 15 5 = d := fld_of hE _ (by omega)
  have f2 : fld W 12 3 = e := fld_of hE _ (by omega)
  have f3 : fld W 11 1 = q := fld_of hE _ (by omega)
  have f4 : fld W 10 1 = l := fld_of hE _ (by omega)
  have g0_10 : fld W 0 10 = 0#10 := fld_of hE _ (by simp only [BitVec.toNat_ofNat]; omega)
  rw [dec78, row_ok (by simp [g0_10]), f0, f1, f2, f3, f4]
theorem Encoding.ered (k : BitVec 4) (d : BitVec 5) (e : BitVec 3) (q : BitVec 1) (l : BitVec 1) : Encoding.Statement (.ered k d e q l) := by
  intro _ hW c
  have := BitVec.isLt c; have := BitVec.isLt k; have := BitVec.isLt d; have := BitVec.isLt e; have := BitVec.isLt q; have := BitVec.isLt l
  have hE : encodeHost c (.ered k d e q l) = BitVec.ofNat 32 (c.toNat * 2 ^ 31 + (k.toNat * 2 ^ 20 + (d.toNat * 2 ^ 15 + (e.toNat * 2 ^ 12 + (q.toNat * 2 ^ 11 + (l.toNat * 2 ^ 10 + 0x78000001)))))) := rfl
  have hM : (fld (encodeHost c (.ered k d e q l)) 24 7).toNat = 0x78 := by rw [fld_of hE 0x78#7 (by simp only [BitVec.toNat_ofNat]; omega)]; rfl
  refine decode_of hM (.inl rfl) ?_ hW (fld_of hE _ (by omega))
  rw [raw78 hM]
  generalize encodeHost c (.ered k d e q l) = W at *
  have f0 : fld W 20 4 = k := fld_of hE _ (by omega)
  have f1 : fld W 15 5 = d := fld_of hE _ (by omega)
  have f2 : fld W 12 3 = e := fld_of hE _ (by omega)
  have f3 : fld W 11 1 = q := fld_of hE _ (by omega)
  have f4 : fld W 10 1 = l := fld_of hE _ (by omega)
  have g0_10 : fld W 0 10 = 1#10 := fld_of hE _ (by simp only [BitVec.toNat_ofNat]; omega)
  rw [dec78, row_no (by simp [g0_10]), row_ok (by simp [g0_10]), f0, f1, f2, f3, f4]
theorem Encoding.ecoll (k : BitVec 4) (d : BitVec 5) (e : BitVec 3) (q : BitVec 1) (l : BitVec 1) : Encoding.Statement (.ecoll k d e q l) := by
  intro _ hW c
  have := BitVec.isLt c; have := BitVec.isLt k; have := BitVec.isLt d; have := BitVec.isLt e; have := BitVec.isLt q; have := BitVec.isLt l
  have hE : encodeHost c (.ecoll k d e q l) = BitVec.ofNat 32 (c.toNat * 2 ^ 31 + (k.toNat * 2 ^ 20 + (d.toNat * 2 ^ 15 + (e.toNat * 2 ^ 12 + (q.toNat * 2 ^ 11 + (l.toNat * 2 ^ 10 + 0x78000002)))))) := rfl
  have hM : (fld (encodeHost c (.ecoll k d e q l)) 24 7).toNat = 0x78 := by rw [fld_of hE 0x78#7 (by simp only [BitVec.toNat_ofNat]; omega)]; rfl
  refine decode_of hM (.inl rfl) ?_ hW (fld_of hE _ (by omega))
  rw [raw78 hM]
  generalize encodeHost c (.ecoll k d e q l) = W at *
  have f0 : fld W 20 4 = k := fld_of hE _ (by omega)
  have f1 : fld W 15 5 = d := fld_of hE _ (by omega)
  have f2 : fld W 12 3 = e := fld_of hE _ (by omega)
  have f3 : fld W 11 1 = q := fld_of hE _ (by omega)
  have f4 : fld W 10 1 = l := fld_of hE _ (by omega)
  have g0_10 : fld W 0 10 = 2#10 := fld_of hE _ (by simp only [BitVec.toNat_ofNat]; omega)
  rw [dec78, row_no (by simp [g0_10]), row_no (by simp [g0_10]), row_ok (by simp [g0_10]), f0, f1, f2, f3, f4]
theorem Encoding.esealOpen (k : BitVec 4) (d : BitVec 5) (e : BitVec 3) (q : BitVec 1) (l : BitVec 1) : Encoding.Statement (.esealOpen k d e q l) := by
  intro _ hW c
  have := BitVec.isLt c; have := BitVec.isLt k; have := BitVec.isLt d; have := BitVec.isLt e; have := BitVec.isLt q; have := BitVec.isLt l
  have hE : encodeHost c (.esealOpen k d e q l) = BitVec.ofNat 32 (c.toNat * 2 ^ 31 + (k.toNat * 2 ^ 20 + (d.toNat * 2 ^ 15 + (e.toNat * 2 ^ 12 + (q.toNat * 2 ^ 11 + (l.toNat * 2 ^ 10 + 0x78000003)))))) := rfl
  have hM : (fld (encodeHost c (.esealOpen k d e q l)) 24 7).toNat = 0x78 := by rw [fld_of hE 0x78#7 (by simp only [BitVec.toNat_ofNat]; omega)]; rfl
  refine decode_of hM (.inl rfl) ?_ hW (fld_of hE _ (by omega))
  rw [raw78 hM]
  generalize encodeHost c (.esealOpen k d e q l) = W at *
  have f0 : fld W 20 4 = k := fld_of hE _ (by omega)
  have f1 : fld W 15 5 = d := fld_of hE _ (by omega)
  have f2 : fld W 12 3 = e := fld_of hE _ (by omega)
  have f3 : fld W 11 1 = q := fld_of hE _ (by omega)
  have f4 : fld W 10 1 = l := fld_of hE _ (by omega)
  have g0_10 : fld W 0 10 = 3#10 := fld_of hE _ (by simp only [BitVec.toNat_ofNat]; omega)
  rw [dec78, row_no (by simp [g0_10]), row_no (by simp [g0_10]), row_no (by simp [g0_10]), row_ok (by simp [g0_10]), f0, f1, f2, f3, f4]
theorem Encoding.esealCommit (k : BitVec 4) (d : BitVec 5) (e : BitVec 3) (q : BitVec 1) (l : BitVec 1) : Encoding.Statement (.esealCommit k d e q l) := by
  intro _ hW c
  have := BitVec.isLt c; have := BitVec.isLt k; have := BitVec.isLt d; have := BitVec.isLt e; have := BitVec.isLt q; have := BitVec.isLt l
  have hE : encodeHost c (.esealCommit k d e q l) = BitVec.ofNat 32 (c.toNat * 2 ^ 31 + (k.toNat * 2 ^ 20 + (d.toNat * 2 ^ 15 + (e.toNat * 2 ^ 12 + (q.toNat * 2 ^ 11 + (l.toNat * 2 ^ 10 + 0x78000004)))))) := rfl
  have hM : (fld (encodeHost c (.esealCommit k d e q l)) 24 7).toNat = 0x78 := by rw [fld_of hE 0x78#7 (by simp only [BitVec.toNat_ofNat]; omega)]; rfl
  refine decode_of hM (.inl rfl) ?_ hW (fld_of hE _ (by omega))
  rw [raw78 hM]
  generalize encodeHost c (.esealCommit k d e q l) = W at *
  have f0 : fld W 20 4 = k := fld_of hE _ (by omega)
  have f1 : fld W 15 5 = d := fld_of hE _ (by omega)
  have f2 : fld W 12 3 = e := fld_of hE _ (by omega)
  have f3 : fld W 11 1 = q := fld_of hE _ (by omega)
  have f4 : fld W 10 1 = l := fld_of hE _ (by omega)
  have g0_10 : fld W 0 10 = 4#10 := fld_of hE _ (by simp only [BitVec.toNat_ofNat]; omega)
  rw [dec78, row_no (by simp [g0_10]), row_no (by simp [g0_10]), row_no (by simp [g0_10]), row_no (by simp [g0_10]), row_ok (by simp [g0_10]), f0, f1, f2, f3, f4]
theorem Encoding.post (k : BitVec 4) (a : BitVec 5) : Encoding.Statement (.post k a) := by
  intro _ hW c
  have := BitVec.isLt c; have := BitVec.isLt k; have := BitVec.isLt a
  have hE : encodeHost c (.post k a) = BitVec.ofNat 32 (c.toNat * 2 ^ 31 + (k.toNat * 2 ^ 20 + (a.toNat * 2 ^ 15 + 0x79000000))) := rfl
  have hM : (fld (encodeHost c (.post k a)) 24 7).toNat = 0x79 := by rw [fld_of hE 0x79#7 (by simp only [BitVec.toNat_ofNat]; omega)]; rfl
  refine decode_of hM (.inl rfl) ?_ hW (fld_of hE _ (by omega))
  rw [raw79 hM]
  generalize encodeHost c (.post k a) = W at *
  have f0 : fld W 20 4 = k := fld_of hE _ (by omega)
  have f1 : fld W 15 5 = a := fld_of hE _ (by omega)
  have g0_15 : fld W 0 15 = 0#15 := fld_of hE _ (by simp only [BitVec.toNat_ofNat]; omega)
  rw [dec79, row_ok (by simp [g0_15]), f0, f1]
theorem Encoding.done : Encoding.Statement (.done) := by
  intro _ hW c
  have := BitVec.isLt c
  have hE : encodeHost c (.done) = BitVec.ofNat 32 (c.toNat * 2 ^ 31 + 0x79000001) := rfl
  have hM : (fld (encodeHost c (.done)) 24 7).toNat = 0x79 := by rw [fld_of hE 0x79#7 (by simp only [BitVec.toNat_ofNat]; omega)]; rfl
  refine decode_of hM (.inl rfl) ?_ hW (fld_of hE _ (by omega))
  rw [raw79 hM]
  generalize encodeHost c (.done) = W at *
  have g0_15 : fld W 0 15 = 1#15 := fld_of hE _ (by simp only [BitVec.toNat_ofNat]; omega)
  have g0_24 : fld W 0 24 = 1#24 := fld_of hE _ (by simp only [BitVec.toNat_ofNat]; omega)
  rw [dec79, row_no (by simp [g0_15]), row_ok (by simp [g0_24])]
theorem Encoding.cancel (k : BitVec 4) (a : BitVec 5) : Encoding.Statement (.cancel k a) := by
  intro _ hW c
  have := BitVec.isLt c; have := BitVec.isLt k; have := BitVec.isLt a
  have hE : encodeHost c (.cancel k a) = BitVec.ofNat 32 (c.toNat * 2 ^ 31 + (k.toNat * 2 ^ 20 + (a.toNat * 2 ^ 15 + 0x79000002))) := rfl
  have hM : (fld (encodeHost c (.cancel k a)) 24 7).toNat = 0x79 := by rw [fld_of hE 0x79#7 (by simp only [BitVec.toNat_ofNat]; omega)]; rfl
  refine decode_of hM (.inl rfl) ?_ hW (fld_of hE _ (by omega))
  rw [raw79 hM]
  generalize encodeHost c (.cancel k a) = W at *
  have f0 : fld W 20 4 = k := fld_of hE _ (by omega)
  have f1 : fld W 15 5 = a := fld_of hE _ (by omega)
  have g0_15 : fld W 0 15 = 2#15 := fld_of hE _ (by simp only [BitVec.toNat_ofNat]; omega)
  have p0_24_1 : (fld W 0 24 == 1#24) = false := fld_ne hE (by omega)
  rw [dec79, row_no (by simp [g0_15]), row_no (by simp [p0_24_1]), row_ok (by simp [g0_15]), f0, f1]
theorem Encoding.ctread (s : BitVec 5) : Encoding.Statement (.ctread s) := by
  intro _ hW c
  have := BitVec.isLt c; have := BitVec.isLt s
  have hE : encodeHost c (.ctread s) = BitVec.ofNat 32 (c.toNat * 2 ^ 31 + (s.toNat * 2 ^ 19 + 0x7A000000)) := rfl
  have hM : (fld (encodeHost c (.ctread s)) 24 7).toNat = 0x7A := by rw [fld_of hE 0x7A#7 (by simp only [BitVec.toNat_ofNat]; omega)]; rfl
  refine decode_of hM (.inl rfl) ?_ hW (fld_of hE _ (by omega))
  rw [raw7A hM]
  generalize encodeHost c (.ctread s) = W at *
  have f0 : fld W 19 5 = s := fld_of hE _ (by omega)
  have g0_19 : fld W 0 19 = 0#19 := fld_of hE _ (by simp only [BitVec.toNat_ofNat]; omega)
  rw [dec7A, row_ok (by simp [g0_19]), f0]
theorem Encoding.ctarm (s : BitVec 5) : Encoding.Statement (.ctarm s) := by
  intro _ hW c
  have := BitVec.isLt c; have := BitVec.isLt s
  have hE : encodeHost c (.ctarm s) = BitVec.ofNat 32 (c.toNat * 2 ^ 31 + (s.toNat * 2 ^ 19 + 0x7A000001)) := rfl
  have hM : (fld (encodeHost c (.ctarm s)) 24 7).toNat = 0x7A := by rw [fld_of hE 0x7A#7 (by simp only [BitVec.toNat_ofNat]; omega)]; rfl
  refine decode_of hM (.inl rfl) ?_ hW (fld_of hE _ (by omega))
  rw [raw7A hM]
  generalize encodeHost c (.ctarm s) = W at *
  have f0 : fld W 19 5 = s := fld_of hE _ (by omega)
  have g0_19 : fld W 0 19 = 1#19 := fld_of hE _ (by simp only [BitVec.toNat_ofNat]; omega)
  rw [dec7A, row_no (by simp [g0_19]), row_ok (by simp [g0_19]), f0]
theorem Encoding.ctwait (s : BitVec 5) : Encoding.Statement (.ctwait s) := by
  intro _ hW c
  have := BitVec.isLt c; have := BitVec.isLt s
  have hE : encodeHost c (.ctwait s) = BitVec.ofNat 32 (c.toNat * 2 ^ 31 + (s.toNat * 2 ^ 19 + 0x7A000002)) := rfl
  have hM : (fld (encodeHost c (.ctwait s)) 24 7).toNat = 0x7A := by rw [fld_of hE 0x7A#7 (by simp only [BitVec.toNat_ofNat]; omega)]; rfl
  refine decode_of hM (.inl rfl) ?_ hW (fld_of hE _ (by omega))
  rw [raw7A hM]
  generalize encodeHost c (.ctwait s) = W at *
  have f0 : fld W 19 5 = s := fld_of hE _ (by omega)
  have g0_19 : fld W 0 19 = 2#19 := fld_of hE _ (by simp only [BitVec.toNat_ofNat]; omega)
  rw [dec7A, row_no (by simp [g0_19]), row_no (by simp [g0_19]), row_ok (by simp [g0_19]), f0]
theorem Encoding.ctwaitPeer (s : BitVec 5) (k : BitVec 4) : Encoding.Statement (.ctwaitPeer s k) := by
  intro _ hW c
  have := BitVec.isLt c; have := BitVec.isLt s; have := BitVec.isLt k
  have hE : encodeHost c (.ctwaitPeer s k) = BitVec.ofNat 32 (c.toNat * 2 ^ 31 + (s.toNat * 2 ^ 19 + (k.toNat * 2 ^ 14 + 0x7A040002))) := rfl
  have hM : (fld (encodeHost c (.ctwaitPeer s k)) 24 7).toNat = 0x7A := by rw [fld_of hE 0x7A#7 (by simp only [BitVec.toNat_ofNat]; omega)]; rfl
  refine decode_of hM (.inl rfl) ?_ hW (fld_of hE _ (by omega))
  rw [raw7A hM]
  generalize encodeHost c (.ctwaitPeer s k) = W at *
  have f0 : fld W 19 5 = s := fld_of hE _ (by omega)
  have f1 : fld W 14 4 = k := fld_of hE _ (by omega)
  have g0_14 : fld W 0 14 = 2#14 := fld_of hE _ (by simp only [BitVec.toNat_ofNat]; omega)
  have g18_1 : fld W 18 1 = 1#1 := fld_of hE _ (by simp only [BitVec.toNat_ofNat]; omega)
  have p0_19_0 : (fld W 0 19 == 0#19) = false := fld_ne hE (by omega)
  have p0_19_1 : (fld W 0 19 == 1#19) = false := fld_ne hE (by omega)
  have p0_19_2 : (fld W 0 19 == 2#19) = false := fld_ne hE (by omega)
  rw [dec7A, row_no (by simp [p0_19_0]), row_no (by simp [p0_19_1]), row_no (by simp [p0_19_2]), row_ok (by simp [g0_14, g18_1]), f0, f1]
theorem Encoding.trap (n : BitVec 16) : Encoding.Statement (.trap n) := by
  intro _ hW c
  have := BitVec.isLt c; have := BitVec.isLt n
  have hE : encodeHost c (.trap n) = BitVec.ofNat 32 (c.toNat * 2 ^ 31 + (n.toNat * 2 ^ 8 + 0x7C000000)) := rfl
  have hM : (fld (encodeHost c (.trap n)) 24 7).toNat = 0x7C := by rw [fld_of hE 0x7C#7 (by simp only [BitVec.toNat_ofNat]; omega)]; rfl
  refine decode_of hM (.inl rfl) ?_ hW (fld_of hE _ (by omega))
  rw [raw7C hM]
  generalize encodeHost c (.trap n) = W at *
  have f0 : fld W 8 16 = n := fld_of hE _ (by omega)
  have g0_8 : fld W 0 8 = 0#8 := fld_of hE _ (by simp only [BitVec.toNat_ofNat]; omega)
  rw [dec7C, row_ok (by simp [g0_8]), f0]
theorem Encoding.rett : Encoding.Statement (.rett) := by
  intro _ hW c
  have := BitVec.isLt c
  have hE : encodeHost c (.rett) = BitVec.ofNat 32 (c.toNat * 2 ^ 31 + 0x7C000001) := rfl
  have hM : (fld (encodeHost c (.rett)) 24 7).toNat = 0x7C := by rw [fld_of hE 0x7C#7 (by simp only [BitVec.toNat_ofNat]; omega)]; rfl
  refine decode_of hM (.inl rfl) ?_ hW (fld_of hE _ (by omega))
  rw [raw7C hM]
  generalize encodeHost c (.rett) = W at *
  have g0_8 : fld W 0 8 = 1#8 := fld_of hE _ (by simp only [BitVec.toNat_ofNat]; omega)
  have g0_24 : fld W 0 24 = 1#24 := fld_of hE _ (by simp only [BitVec.toNat_ofNat]; omega)
  rw [dec7C, row_no (by simp [g0_8]), row_ok (by simp [g0_24])]
theorem Encoding.fence (e : BitVec 3) (t : BitVec 4) : Encoding.Statement (.fence e t) := by
  intro _ hW c
  have := BitVec.isLt c; have := BitVec.isLt e; have := BitVec.isLt t
  have hE : encodeHost c (.fence e t) = BitVec.ofNat 32 (c.toNat * 2 ^ 31 + (e.toNat * 2 ^ 21 + (t.toNat * 2 ^ 17 + 0x7C000002))) := rfl
  have hM : (fld (encodeHost c (.fence e t)) 24 7).toNat = 0x7C := by rw [fld_of hE 0x7C#7 (by simp only [BitVec.toNat_ofNat]; omega)]; rfl
  refine decode_of hM (.inl rfl) ?_ hW (fld_of hE _ (by omega))
  rw [raw7C hM]
  generalize encodeHost c (.fence e t) = W at *
  have f0 : fld W 21 3 = e := fld_of hE _ (by omega)
  have f1 : fld W 17 4 = t := fld_of hE _ (by omega)
  have g0_8 : fld W 0 8 = 2#8 := fld_of hE _ (by simp only [BitVec.toNat_ofNat]; omega)
  have g0_17 : fld W 0 17 = 2#17 := fld_of hE _ (by simp only [BitVec.toNat_ofNat]; omega)
  have p0_24_1 : (fld W 0 24 == 1#24) = false := fld_ne hE (by omega)
  rw [dec7C, row_no (by simp [g0_8]), row_no (by simp [p0_24_1]), row_ok (by simp [g0_17]), f0, f1]
theorem Encoding.setpl (a : BitVec 5) : Encoding.Statement (.setpl a) := by
  intro _ hW c
  have := BitVec.isLt c; have := BitVec.isLt a
  have hE : encodeHost c (.setpl a) = BitVec.ofNat 32 (c.toNat * 2 ^ 31 + (a.toNat * 2 ^ 19 + 0x7C000003)) := rfl
  have hM : (fld (encodeHost c (.setpl a)) 24 7).toNat = 0x7C := by rw [fld_of hE 0x7C#7 (by simp only [BitVec.toNat_ofNat]; omega)]; rfl
  refine decode_of hM (.inl rfl) ?_ hW (fld_of hE _ (by omega))
  rw [raw7C hM]
  generalize encodeHost c (.setpl a) = W at *
  have f0 : fld W 19 5 = a := fld_of hE _ (by omega)
  have g0_8 : fld W 0 8 = 3#8 := fld_of hE _ (by simp only [BitVec.toNat_ofNat]; omega)
  have g0_17 : fld W 0 17 = 3#17 := fld_of hE _ (by simp only [BitVec.toNat_ofNat]; omega)
  have g0_19 : fld W 0 19 = 3#19 := fld_of hE _ (by simp only [BitVec.toNat_ofNat]; omega)
  have p0_24_1 : (fld W 0 24 == 1#24) = false := fld_ne hE (by omega)
  rw [dec7C, row_no (by simp [g0_8]), row_no (by simp [p0_24_1]), row_no (by simp [g0_17]), row_ok (by simp [g0_19]), f0]
theorem Encoding.modeRead (s : BitVec 5) (r : BitVec 6) : Encoding.Statement (.modeRead s r) := by
  intro _ hW c
  have := BitVec.isLt c; have := BitVec.isLt s; have := BitVec.isLt r
  have hE : encodeHost c (.modeRead s r) = BitVec.ofNat 32 (c.toNat * 2 ^ 31 + (s.toNat * 2 ^ 19 + (r.toNat * 2 ^ 13 + 0x7D000000))) := rfl
  have hM : (fld (encodeHost c (.modeRead s r)) 24 7).toNat = 0x7D := by rw [fld_of hE 0x7D#7 (by simp only [BitVec.toNat_ofNat]; omega)]; rfl
  refine decode_of hM (.inl rfl) ?_ hW (fld_of hE _ (by omega))
  rw [raw7D hM]
  generalize encodeHost c (.modeRead s r) = W at *
  have f0 : fld W 19 5 = s := fld_of hE _ (by omega)
  have f1 : fld W 13 6 = r := fld_of hE _ (by omega)
  have g0_13 : fld W 0 13 = 0#13 := fld_of hE _ (by simp only [BitVec.toNat_ofNat]; omega)
  rw [dec7D, row_ok (by simp [g0_13]), f0, f1]
theorem Encoding.modeWrite (s : BitVec 5) (r : BitVec 6) : Encoding.Statement (.modeWrite s r) := by
  intro _ hW c
  have := BitVec.isLt c; have := BitVec.isLt s; have := BitVec.isLt r
  have hE : encodeHost c (.modeWrite s r) = BitVec.ofNat 32 (c.toNat * 2 ^ 31 + (s.toNat * 2 ^ 19 + (r.toNat * 2 ^ 13 + 0x7D001000))) := rfl
  have hM : (fld (encodeHost c (.modeWrite s r)) 24 7).toNat = 0x7D := by rw [fld_of hE 0x7D#7 (by simp only [BitVec.toNat_ofNat]; omega)]; rfl
  refine decode_of hM (.inl rfl) ?_ hW (fld_of hE _ (by omega))
  rw [raw7D hM]
  generalize encodeHost c (.modeWrite s r) = W at *
  have f0 : fld W 19 5 = s := fld_of hE _ (by omega)
  have f1 : fld W 13 6 = r := fld_of hE _ (by omega)
  have g0_13 : fld W 0 13 = 4096#13 := fld_of hE _ (by simp only [BitVec.toNat_ofNat]; omega)
  rw [dec7D, row_no (by simp [g0_13]), row_ok (by simp [g0_13]), f0, f1]
theorem Encoding.clusterAssignment (core quarter : Nat) : Encoding.Statement (.clusterAssignment core quarter) := nofun
theorem Encoding.latchRunLeave (blk gix split : Nat) : Encoding.Statement (.latchRunLeave blk gix split) := nofun
theorem Encoding.trapEntry (blk gix : Nat) : Encoding.Statement (.trapEntry blk gix) := nofun
theorem Encoding.barrierComplete (blk bar : Nat) : Encoding.Statement (.barrierComplete blk bar) := nofun
theorem Encoding.loadCompletion (blk gix id : Nat) : Encoding.Statement (.loadCompletion blk gix id) := nofun
theorem Encoding.storePlaceTaken (blk gix id : Nat) : Encoding.Statement (.storePlaceTaken blk gix id) := nofun
theorem Encoding.stashWriteback (blk region line : Nat) : Encoding.Statement (.stashWriteback blk region line) := nofun
theorem Encoding.txDurationExpiry (blk gix lane : Nat) : Encoding.Statement (.txDurationExpiry blk gix lane) := nofun
theorem Encoding.leasePtsAdvance (blk gix : Nat) : Encoding.Statement (.leasePtsAdvance blk gix) := nofun
theorem Encoding.redmDeliveryApply (blk gix id : Nat) : Encoding.Statement (.redmDeliveryApply blk gix id) := nofun
theorem Encoding.tmmaStep (blk : Nat) : Encoding.Statement (.tmmaStep blk) := nofun
theorem Encoding.tzeroPerform (blk : Nat) : Encoding.Statement (.tzeroPerform blk) := nofun
theorem Encoding.tdrainPerform (blk : Nat) : Encoding.Statement (.tdrainPerform blk) := nofun
theorem Encoding.trelPerform (blk : Nat) : Encoding.Statement (.trelPerform blk) := nofun
theorem Encoding.engineSubmission (id : Nat) : Encoding.Statement (.engineSubmission id) := nofun
theorem Encoding.ecopyChunk (id : Nat) : Encoding.Statement (.ecopyChunk id) := nofun
theorem Encoding.eredReduce (id : Nat) : Encoding.Statement (.eredReduce id) := nofun
theorem Encoding.ecollRun (id : Nat) : Encoding.Statement (.ecollRun id) := nofun
theorem Encoding.sealOpenPerform (id : Nat) : Encoding.Statement (.sealOpenPerform id) := nofun
theorem Encoding.sealCommitPerform (id : Nat) : Encoding.Statement (.sealCommitPerform id) := nofun
theorem Encoding.qnotifyWrite (world q : Nat) (tail : BitVec 32) : Encoding.Statement (.qnotifyWrite world q tail) := nofun
theorem Encoding.queueEntryAdmit (q : Nat) : Encoding.Statement (.queueEntryAdmit q) := nofun
theorem Encoding.cardRunComplete (card : Nat) : Encoding.Statement (.cardRunComplete card) := nofun
theorem Encoding.curatorPass : Encoding.Statement (.curatorPass) := nofun
theorem Encoding.classAgeing (card : Nat) : Encoding.Statement (.classAgeing card) := nofun
theorem Encoding.makeRoomTimeout : Encoding.Statement (.makeRoomTimeout) := nofun
theorem Encoding.carveOutChange (core : Nat) : Encoding.Statement (.carveOutChange core) := nofun
theorem Encoding.blockCompletion (blk : Nat) : Encoding.Statement (.blockCompletion blk) := nofun
theorem Encoding.unitCancel (world unit : Nat) : Encoding.Statement (.unitCancel world unit) := nofun
theorem Encoding.variantSwitch (blk : Nat) : Encoding.Statement (.variantSwitch blk) := nofun
theorem Encoding.switchWaitTimeout (blk gix : Nat) : Encoding.Statement (.switchWaitTimeout blk gix) := nofun
theorem Encoding.blockRetire (blk : Nat) : Encoding.Statement (.blockRetire blk) := nofun
theorem Encoding.contextEnable (world ctx owner : Nat) : Encoding.Statement (.contextEnable world ctx owner) := nofun
theorem Encoding.contextDisable (world ctx : Nat) : Encoding.Statement (.contextDisable world ctx) := nofun
theorem Encoding.hostStopRequest (world ctx : Nat) : Encoding.Statement (.hostStopRequest world ctx) := nofun
theorem Encoding.debugStopRequest (world ctx : Nat) : Encoding.Statement (.debugStopRequest world ctx) := nofun
theorem Encoding.stopRelease (world ctx : Nat) : Encoding.Statement (.stopRelease world ctx) := nofun
theorem Encoding.debugStep (world ctx : Nat) : Encoding.Statement (.debugStep world ctx) := nofun
theorem Encoding.cxctWrite (world ctx : Nat) (v : BitVec 64) : Encoding.Statement (.cxctWrite world ctx v) := nofun
theorem Encoding.hostNotification (world ctx : Nat) : Encoding.Statement (.hostNotification world ctx) := nofun
theorem Encoding.sliceExpiry (ctx : Nat) : Encoding.Statement (.sliceExpiry ctx) := nofun
theorem Encoding.freezeInstant (ctx : Nat) : Encoding.Statement (.freezeInstant ctx) := nofun
theorem Encoding.handlerBudgetExpiry (blk gix : Nat) : Encoding.Statement (.handlerBudgetExpiry blk gix) := nofun
theorem Encoding.saveComplete (ctx : Nat) : Encoding.Statement (.saveComplete ctx) := nofun
theorem Encoding.resumeInstant (ctx : Nat) : Encoding.Statement (.resumeInstant ctx) := nofun
theorem Encoding.resumeLoadTimeout (ctx : Nat) : Encoding.Statement (.resumeLoadTimeout ctx) := nofun
theorem Encoding.arrivalDelivery (ctx : Nat) : Encoding.Statement (.arrivalDelivery ctx) := nofun
theorem Encoding.alarmFire (blk gix : Nat) : Encoding.Statement (.alarmFire blk gix) := nofun
theorem Encoding.ctwaitDeadline (blk gix split : Nat) : Encoding.Statement (.ctwaitDeadline blk gix split) := nofun
theorem Encoding.windowOpen (world win : Nat) : Encoding.Statement (.windowOpen world win) := nofun
theorem Encoding.windowOpenAnswer (win : Nat) (accepted : Bool) (pause : Option (BitVec 32)) : Encoding.Statement (.windowOpenAnswer win accepted pause) := nofun
theorem Encoding.windowClose (win : Nat) : Encoding.Statement (.windowClose win) := nofun
theorem Encoding.doorbellMessage (node world ctx : Nat) (data : BitVec 32) (fromWorld fromNode fromCtx : Nat) : Encoding.Statement (.doorbellMessage node world ctx data fromWorld fromNode fromCtx) := nofun
theorem Encoding.messageRetry (id : Nat) (accepted : Bool) : Encoding.Statement (.messageRetry id accepted) := nofun
theorem Encoding.fabricRequestCheck (port : Nat) (node world tworld : Nat) (pa len : Nat) (need : BitVec 4) : Encoding.Statement (.fabricRequestCheck port node world tworld pa len need) := nofun
theorem Encoding.flitReceive (port : Nat) (f : Flit) (good : Bool) : Encoding.Statement (.flitReceive port f good) := nofun
theorem Encoding.flitReplay (port : Nat) : Encoding.Statement (.flitReplay port) := nofun
theorem Encoding.creditReportSend (port : Nat) : Encoding.Statement (.creditReportSend port) := nofun
theorem Encoding.creditReportReceive (port : Nat) (r : Report) : Encoding.Statement (.creditReportReceive port r) := nofun
theorem Encoding.linkTraining (port : Nat) (peerSlots : Nat) (peerRsv : List (Nat × Nat)) : Encoding.Statement (.linkTraining port peerSlots peerRsv) := nofun
theorem Encoding.fnodeWrite (world : Nat) (v : BitVec 64) : Encoding.Statement (.fnodeWrite world v) := nofun
theorem Encoding.frsvWrite (world target : Nat) (v : BitVec 64) : Encoding.Statement (.frsvWrite world target v) := nofun
theorem Encoding.biasFlip (world : Nat) (toHost : Bool) (page : Nat) : Encoding.Statement (.biasFlip world toHost page) := nofun
theorem Encoding.biasFlipComplete : Encoding.Statement (.biasFlipComplete) := nofun
theorem Encoding.backInvalidateAnswer (line : Nat) : Encoding.Statement (.backInvalidateAnswer line) := nofun
theorem Encoding.hostAccess (world : Nat) (pa : Nat) (wr : Option (List (BitVec 8))) (len : Nat) : Encoding.Statement (.hostAccess world pa wr len) := nofun
theorem Encoding.tlpReceive (world : Nat) (ide : Bool) (intact : Bool) : Encoding.Statement (.tlpReceive world ide intact) := nofun
theorem Encoding.ideKeyProg (world keySet : Nat) (key : BitVec 256) : Encoding.Statement (.ideKeyProg world keySet key) := nofun
theorem Encoding.ideKSetGo (world keySet : Nat) : Encoding.Statement (.ideKSetGo world keySet) := nofun
theorem Encoding.lockInterfaceRequest (world : Nat) : Encoding.Statement (.lockInterfaceRequest world) := nofun
theorem Encoding.startInterfaceRequest (world : Nat) : Encoding.Statement (.startInterfaceRequest world) := nofun
theorem Encoding.stopInterfaceRequest (world : Nat) : Encoding.Statement (.stopInterfaceRequest world) := nofun
theorem Encoding.spdmRequest (world : Nat) (req : SpdmReq) : Encoding.Statement (.spdmRequest world req) := nofun
theorem Encoding.getMeasurements (index : BitVec 8) : Encoding.Statement (.getMeasurements index) := nofun
theorem Encoding.bckey (world chan : Nat) : Encoding.Statement (.bckey world chan) := nofun
theorem Encoding.capabilityDerive (writer world : Nat) : Encoding.Statement (.capabilityDerive writer world) := nofun
theorem Encoding.typeKeyDerive (writer world : Nat) : Encoding.Statement (.typeKeyDerive writer world) := nofun
theorem Encoding.keyGenerateEcdsa (writer world : Nat) : Encoding.Statement (.keyGenerateEcdsa writer world) := nofun
theorem Encoding.keyGenerateMldsa (writer world : Nat) : Encoding.Statement (.keyGenerateMldsa writer world) := nofun
theorem Encoding.keyRevoke (writer world : Nat) : Encoding.Statement (.keyRevoke writer world) := nofun
theorem Encoding.handleReissue (writer world : Nat) : Encoding.Statement (.handleReissue writer world) := nofun
theorem Encoding.waysChange (writer world : Nat) (ways : BitVec 24) : Encoding.Statement (.waysChange writer world ways) := nofun
theorem Encoding.s2rootWrite (writer world : Nat) (v : BitVec 64) : Encoding.Statement (.s2rootWrite writer world v) := nofun
theorem Encoding.pageWalk (blk gix id : Nat) : Encoding.Statement (.pageWalk blk gix id) := nofun
theorem Encoding.ringRecordRetry (id : Nat) : Encoding.Statement (.ringRecordRetry id) := nofun
theorem Encoding.fresumeWrite (writer world : Nat) (token : BitVec 32) : Encoding.Statement (.fresumeWrite writer world token) := nofun
theorem Encoding.invalidationStart (writer world : Nat) (v : BitVec 64) : Encoding.Statement (.invalidationStart writer world v) := nofun
theorem Encoding.invalidationComplete (world : Nat) : Encoding.Statement (.invalidationComplete world) := nofun
theorem Encoding.coreReset (core : Nat) : Encoding.Statement (.coreReset core) := nofun
theorem Encoding.patrolScrub (sector : Nat) (corrected : Bool) (failed : Bool) : Encoding.Statement (.patrolScrub sector corrected failed) := nofun
theorem Encoding.revocationSweepStart (writer ctx : Nat) (narea : BitVec 4) : Encoding.Statement (.revocationSweepStart writer ctx narea) := nofun
theorem Encoding.groupRegisterSweep (blk gix : Nat) : Encoding.Statement (.groupRegisterSweep blk gix) := nofun
theorem Encoding.sweepSwitchWaitExpiry (blk gix : Nat) : Encoding.Statement (.sweepSwitchWaitExpiry blk gix) := nofun
theorem Encoding.sweepGranuleCheck (ctx : Nat) : Encoding.Statement (.sweepGranuleCheck ctx) := nofun
theorem Encoding.repair (world die lcore : Nat) (selfTest : Bool) : Encoding.Statement (.repair world die lcore selfTest) := nofun
theorem Encoding.corectlWrite (world core : Nat) (v : BitVec 64) : Encoding.Statement (.corectlWrite world core v) := nofun
theorem Encoding.replanRequest (world wing : Nat) : Encoding.Statement (.replanRequest world wing) := nofun
theorem Encoding.wingReplan (wing : Nat) (bringUp : Bool) (slack : List (BitVec 8)) : Encoding.Statement (.wingReplan wing bringUp slack) := nofun
theorem Encoding.timingErrorReplay (err : ReplayAt) : Encoding.Statement (.timingErrorReplay err) := nofun
theorem Encoding.clockChange (wing : Nat) : Encoding.Statement (.clockChange wing) := nofun
theorem Encoding.pkcapAdjust (watts : Nat) : Encoding.Statement (.pkcapAdjust watts) := nofun
theorem Encoding.energyAccounting (wing : Nat) (active idle : Nat) (busy : List (Nat × Nat)) (transfers : List Transfer) : Encoding.Statement (.energyAccounting wing active idle busy transfers) := nofun
theorem Encoding.fillerIssue (wing ctx : Nat) (energy : Nat) : Encoding.Statement (.fillerIssue wing ctx energy) := nofun
theorem Encoding.powerOnBoot (images : List BootImage) : Encoding.Statement (.powerOnBoot images) := nofun
theorem Encoding.unitReady (unit : ReadyUnit) (ok : Bool) : Encoding.Statement (.unitReady unit ok) := nofun
theorem Encoding.registerWrite (writer : Nat) (r : Reg) (v : BitVec 64) : Encoding.Statement (.registerWrite writer r v) := nofun
theorem Encoding.trapModeBudgetExpiry (blk gix : Nat) : Encoding.Statement (.trapModeBudgetExpiry blk gix) := nofun
theorem Encoding.controlParityError (core : Nat) : Encoding.Statement (.controlParityError core) := nofun

end Sys2Proof.Laws
end

