-- ==== Sys2Proof/Safety.lean ====
section
/-! DEFINITION. What counts as a safe step and a safe state, and the words in which the statements speak of a step. -/
namespace Sys2Proof
open Sys2Proof.Machine

/-- The outcome is a next state that satisfies a property. -/
def Nexts (o : Host.Outcome State Fault Refusal) (p : State → Prop) : Prop := ∃ t, o = .next t ∧ p t

/-- Memory is in its canonical form. -/
def memoryCanonical (s : State) : Prop := s.mem.wf = true

/-- Whenever a word begins, with operands `o` (nothing traps, stalls or bars it first), it executes with the effect `f`. -/
def WordDoes (i : Instr) (f : Op → State) : Prop := ∀ s o, wordOp i s = some o → exec i s = .next (f o)

/-- The same for the operands that meet a condition. -/
def WordDoesWhen (i : Instr) (p : Op → Prop) (f : Op → State) : Prop :=
  ∀ s o, wordOp i s = some o → p o → exec i s = .next (f o)

/-- The effect that writes one scalar register of the issuing group and nothing else. -/
def setScalar (d : BitVec 5) (v : Op → DWord) : Op → State := fun o => o.modR fun r => r.putSc d (v o)

/-! ### Elements of a lane value, in exact integers (R45, R96, R97) -/

/-- Sub-element j, read by the type's signedness. -/
def elemInt (t : IntTy) (v : DWord) (j : Nat) : Int :=
  let x := BitVec.ofNat t.w (v.toNat / 2 ^ (t.w * j))
  if t.sgn then x.toInt else x.toNat

/-- The bits written for an exact value: clamped to the type with `.sat`, then its low w bits. -/
def fitBits (t : IntTy) (sat : Bool) (e : Int) : Nat :=
  let lo : Int := if t.sgn then -2 ^ (t.w - 1) else 0
  let hi : Int := if t.sgn then 2 ^ (t.w - 1) - 1 else 2 ^ t.w - 1
  ((if sat then max lo (min hi e) else e) % 2 ^ t.w).toNat

/-- The flags of x + y + cin, or of x - y - (1 - cin) where `dif`, for the top element, with the lane value written (R96). -/
def sumFlags (t : IntTy) (dif : Bool) (a b : DWord) (cin : Bool) (written : DWord) : CC :=
  let u : IntTy := { t with sgn := false }
  let i : IntTy := { t with sgn := true }
  let top := t.n - 1
  let k : Int := if cin then 1 else 0
  let e : Int := if dif then elemInt i a top - elemInt i b top - (1 - k) else elemInt i a top + elemInt i b top + k
  { c := if dif then elemInt u b top + (1 - k) ≤ elemInt u a top else 2 ^ t.w ≤ elemInt u a top + elemInt u b top + k
    z := written.toNat % 2 ^ (t.w * t.n) = 0
    n := written.getLsbD (t.w * t.n - 1)
    v := e < -2 ^ (t.w - 1) ∨ 2 ^ (t.w - 1) - 1 < e }

/-- Whenever the word begins, it writes a value whose every sub-element has the bits given, and with `cc` the flags given of what it writes. -/
def ElemsDo (i : Instr) (t : IntTy) (cc : Bool) (d : BitVec 6) (sv : BitVec 1) (e : Op → Nat → Nat → Nat)
    (f : Op → Nat → DWord → CC) : Prop :=
  ∀ s o, wordOp i s = some o → ∃ v : Nat → DWord, exec i s = .next ((o.flags cc fun l => f o l (v l)).result t d sv v) ∧
    ∀ l j, j < t.n → elemBits t (v l) j = e o l j

/-- Whenever the word begins, it writes a 32-bit value with a property in each lane, and nothing else. -/
def LanesDo (i : Instr) (p : Pipe) (d : BitVec 6) (sv : BitVec 1) (q : Op → Nat → Word → Prop) : Prop :=
  ∀ s o, wordOp i s = some o → ∃ v : Nat → Word, exec i s = .next (o.put p d sv v) ∧ ∀ l, q o l (v l)

/-- The signed value of an immediate: the host's own field, or its payload or pair of payloads (R26). -/
def immInt {n : Nat} (i : Imm n) : Int :=
  match i.ext with
  | .none => i.short.toInt
  | .one p => p.toInt
  | .two p q => (q ++ p).toInt

/-- A flag test of a lane (R38): z, c, n, v, sp and their complements. -/
def flagHolds (r : Regs) (e : BitVec 4) (l : Nat) : Bool :=
  (match e.toNat / 2 with
    | 0 => r.fZ
    | 1 => r.fC
    | 2 => r.fN
    | 3 => r.fV
    | _ => r.fSP).getLsbD l != (e.toNat % 2 == 1)

/-- Byte j of a word. -/
def byteAt (x : Word) (j : Nat) : BitVec 8 := x.extractLsb' (8 * j) 8

/-- The effect of a small-matrix word (R142, R146): `n` registers from `d`, each lane's from its own list, FX where the lane met it, and with `cc`
the condition codes and SP of the column noted. -/
def matEffect (d n : Nat) (cc : Bool) (f : Op → Nat → MAcc × List Nat) : Op → State := fun o =>
  let res : SMap (MAcc × List Nat) := o.lanes.map fun l => (l, f o l)
  let lane : Nat → MAcc × List Nat := fun l => mget res l ({}, [])
  o.modR fun r =>
    let q := (r.putMany o.b.v.p o.act d n fun l => (lane l).2).setFX o.act fun l => (lane l).1.fx
    if cc then (q.putCC o.act fun l => colCC (lane l).1.col).setSP o.act fun l => (lane l).1.col.isSome else q

/-- The effect of a derivation: of the group's k registers with V = 0, of each active lane's c registers with V = 1 (R128). -/
def capEffect (d : BitVec 4) (v : BitVec 1) (ks : Op → Cap) (cs : Op → Nat → Cap) : Op → State := fun o =>
  o.modR fun r => if v = 1 then r.putCs d o.act (cs o) else r.putK d (ks o)

/-- Every byte of memory reads in `t` as in `s`. -/
def sameMemory (s t : State) : Prop := ∀ a, memByte t.mem a = memByte s.mem a

/-- A line's bytes are what a party with a seal tag meets there and writes over: no earlier content of the line has been put back sealed for
it, and for a party without a seal the stored bits are the bytes. -/
def plainTo (m : MemSys) (tag : Option (Nat × Nat)) (pa : Nat) : Bool :=
  match tag with
  | some t => (openPast m t pa).isNone
  | none => plainLine m pa

/-- The effect of a tile word with room in counter 3 (R172, R177): an outstanding word of that counter, and its entry at the sequencer. -/
def tileQueued (p : Pending) (t : Op → Nat → TileOp) : Op → State := fun o =>
  modBlock (modGroup o.s o.k o.gix fun g => { g with nextId := g.nextId + 1, out := g.out ++
    [{ p with id := g.nextId, inTrap := g.tmode.isSome, ctr := .mat, pkt := o.sp.pc, split := o.no, wix := o.sp.word }] }) o.k fun b => { b with tiles := b.tiles ++ [t o o.g.nextId] }

/-- No group of a context has an alarm that is due (R196). -/
def noAlarmDue (s : State) (c : Nat) : Prop := ∀ k b, blockOf s k = some b → b.ctx = c → ∀ g ∈ b.groups, alarmDue s b g = false

/-- No merged record of corrected errors has been kept for its 1 ms, to be written now (R356). -/
def noMergeDue (s : State) : Prop := ∀ m ∈ s.hol.merges, s.gt < m.at0 + 100000

/-- A packet that is one word and padding (R24), with nothing that comes before its effect: its split is chosen, ready and waits for nothing, its
window is whole, no trap waits, and no latch rule, unconfirmed access or switch point stands in the way. -/
def aloneInPacket (s : State) (c : Cursor) (b : Block) (g : Group) (p : Split) (ss : List Slot) (i : Instr) (k : Bool) : Prop :=
  s.inbox = [] ∧ s.cur = some c ∧ issuerOf s = some (c, b, g, p) ∧ splitReady s b g p = true ∧ p.wait = .none ∧ p.word = 0 ∧
  fetchPacket s b g.tmode.isSome c.no p.pc = .ok ss ∧ slotsLeft p ss = [⟨0, k, i⟩] ∧ regains p ss = false ∧ runBreak p ss = none ∧ g.missing = 0 ∧
  (unconfirmed g = true → ss.all (fun x => !(waitsConfirm x.ins || namesQueue x.ins)) = true) ∧ b.swReq = false

end Sys2Proof
end

