-- ==== Sys2Proof/Certificates/Slice0/Obligations.lean ====
section
/-! DEFINITION. The statements for the provers: what the spec's rules say of the machine and of every operation and event. A statement of several
parts is the conjunction of its parts, each a definition under `Claims`. -/

section
open Sys2Proof Sys2Proof.Machine

/-! ### Encodings and packets -/

/-- R24, R73, R81, R83, R85, R88, R98, R100, R108, R109, R114, R116, R128, R130, R131, R134, R136, R137, R139, R141, R149, R172 to R176, R184,
R192 to R195, R199, R205, R206: the words that the spec writes out decode to the instructions it gives them to. -/
def Obligations.SpecWordsDecode : Prop :=
  decodeTableWord 32 0x01000000 = some .nop ∧
  decodeTableWord 32 0x0824FFFD = some (.brcNe0 4 0xFFFD) ∧
  decodeTableWord 32 0x0D000000 = some (.waitc 0 0) ∧
  decodeTableWord 32 0x0E100000 = some (.bar 1) ∧
  decodeTableWord 32 0x0F4C0000 = some (.qbindPush 1 3) ∧
  decodeTableWord 32 0x10283000 = some (.sstat 5 1 1) ∧
  decodeTableWord 32 0x18100050 = some (.vaddInt 4 0 0 2 1 0 0) ∧
  decodeTableWord 32 0x28140870 = some (.vaddx 5 0 1 3 1 0) ∧
  decodeTableWord 32 0x261820A4 = some (.vsra 6 0 4 5 4) ∧
  decodeTableWord 32 0x2B0C20AA = some (.vaddMasked 3 0 4 5 2 2) ∧
  decodeTableWord 32 0x37420A80 = some (.pcmpB 2 4 5 4) ∧
  decodeTableWord 32 0x40101840 = some (.vsqrt 4 0 3 0 0) ∧
  decodeTableWord 32 0x43101982 = some (.vcvtSat 4 0 3 3 0 2) ∧
  decodeTableWord 32 0x60310803 = some (.cinc 3 0 2 4) ∧
  decodeTableWord 32 0x61186001 = some (.cgetTop 6 0 3) ∧
  decodeTableWord 32 0x6208304F = some (.ldReg 2 0 0 3 1 0 15) ∧
  decodeTableWord 32 0x66382140 = some (.ldc 3 1 0 2 5) ∧
  decodeTableWord 32 0x671010C4 = some (.ldfeClr 4 0 0 1 3 0) ∧
  decodeTableWord 32 0x68425400 = some (.smap 8 9 5) ∧
  decodeTableWord 32 0x6910C700 = some (.patset 0 4 6 7) ∧
  decodeTableWord 32 0x6A1C2140 = some (.redmAdd 7 0 2 5 0) ∧
  decodeTableWord 32 0x5CA0092D = some (.mtrsl 40 0 36 5 5) ∧
  decodeTableWord 32 0x7320A000 = some (.trel 4 5) ∧
  decodeTableWord 32 0x74298000 = some (.tclaim 5 6) ∧
  decodeTableWord 32 0x76289000 = some (.tdrain 10 0 9) ∧
  decodeTableWord 32 0x7823CC00 = some (.ecopy 2 7 4 1 1) ∧
  decodeTableWord 32 0x79320000 = some (.post 3 4) ∧
  decodeTableWord 32 0x79000001 = some .done ∧
  decodeTableWord 32 0x7A280000 = some (.ctread 5) ∧
  decodeTableWord 32 0x7A348002 = some (.ctwaitPeer 6 2) ∧
  decodeTableWord 32 0x7C880002 = some (.fence 4 4) ∧
  decodeTableWord 32 0x7C123400 = some (.trap 0x1234) ∧
  decodeTableWord 32 0x7C000001 = some .rett

/-- R21 to R29, R38 to R42: for every well-formed word of the opcode table, with every operand at every value its encoding admits
and either chain bit, decoding the encoded bytes gives it back and leaves nothing. -/
def Obligations.DecodeOfEncode : Prop := ∀ i, Sys2Proof.Laws.Encoding.Statement i

/-- R21 to R29: no two well-formed words, chain bits included, share an encoding. -/
def Claims.EncodingUnambiguous : Prop :=
  ∀ (c c' : BitVec 1) (i j : Instr), isEvent i = false → isEvent j = false → i.wf = true → j.wf = true →
    encode c i = encode c' j → c = c' ∧ i = j

/-- R40: major 0x00, major 0x7F and every major that the opcode map does not assign are refused by name, whatever the other bits. -/
def Claims.UnassignedMajorsRefused : Prop :=
  ∀ (w : Word) (r : List Word),
    (bits w 24 7 = 0x00 → decodeWords (w :: r) = .error .zeroMajor) ∧
    (bits w 24 7 = 0x7F → decodeWords (w :: r) = .error .reservedMajor) ∧
    (0x14 ≤ bits w 24 7 ∧ bits w 24 7 ≤ 0x17 ∨ 0x47 ≤ bits w 24 7 ∧ bits w 24 7 ≤ 0x57 ∨ bits w 24 7 = 0x6B ∨ bits w 24 7 = 0x7B →
      decodeWords (w :: r) = .error (.unassignedMajor (bits w 24 7)))

/-- R23 to R25: a packet that decodes has a last word with chain bit 0, holds one to three instruction words in rising order, never
two words of one pipe in an issue group, and nothing but `nop` after a control-transfer word. -/
def Obligations.PacketShape : Prop :=
  ∀ (w0 w1 w2 : Word) (ss : List Slot), decodePacket [w0, w1, w2] = .ok ss →
    w2.getLsbD 31 = false ∧ 1 ≤ ss.length ∧ ss.length ≤ 3 ∧ ss.Pairwise (fun x y => x.idx < y.idx) ∧
    (∀ x ∈ ss, x.ins.wf = true ∧ x.idx ≤ 2) ∧
    (∀ g ∈ groupsOf ss, g.Pairwise fun x y => pipeOf x.ins ≠ pipeOf y.ins) ∧
    ss.Pairwise (fun x y => isControl x.ins = true → y.ins = .nop)

/-! ### Steps -/

/-- R21, R43, R44: a fetch whose 12 bytes lie inside the code and are translated decodes exactly those bytes, in the order in which they
stand; bytes that do not decode are the illegal-instruction trap of that packet, at the lowest word at fault, among which count an `slane`
of a lane outside the group (R40) and, outside trap mode, a write of `trpc` or `trmask` (R201). -/
def Obligations.FetchDecodesBytes : Prop :=
  ∀ s b tm no (pc : BitVec 32) (q : Spot), capCheck b.image pEXEC (BitVec.ofNat 64 (b.code.toNat + 12 * pc.toNat)) 12 4 0 = .none →
    (b.code.toNat + 12 * pc.toNat) % 64 + 12 ≤ 64 →
    lookVa s (whoOf s b) (b.code.toNat + 12 * pc.toNat) 12 needX true = .ok q →
    let bs := bytesLE 12 (lineNat (viewLine s.mem (whoOf s b).tag q.pa) (q.pa % 64) 12)
    let bad := fun n => fetchPacket s b tm no pc = .trap { cause := 0x01, widx := n, split := no, pkt := pc, resume := .at pc 0 }
    match decodePacket (wordsOf bs), illegalHere b.width tm (wordsOf bs) 0 with
    | .ok ss, none => fetchPacket s b tm no pc = .ok ss
    | .ok _, some i => bad i
    | .error n, none => bad n
    | .error n, some i => bad (min n i)

/-- R21, R23: a step at a packet of one word is the execution of that word by the split that stands there, readied for it and its packet
begun; where the word completes in order the split then stands at the next packet, one issue cycle later. -/
def Obligations.StepRunsDecodedWord : Prop :=
  ∀ s c b g p ss i k, aloneInPacket s c b g p ss i k →
    let s0 := beginPacket s c p ss
    let at' := enterWord (startIssue s0 c) c p.pc ⟨0, k, i⟩ []
    (∀ t, exec i at' = .next t → t.raised = none → t.stalled = false → t.jumped = false →
      step s = .next (afterIssue (endPacket (nextPacket (issued (setOld (noteDone t c ⟨0, k, i⟩) c none) c) c p.pc) c))) ∧
    (∀ t, exec i at' = .next t → t.raised = none → t.stalled = false → t.jumped = true →
      step s = .next (afterIssue (endPacket (issued { setOld t c none with jumped := false } c) c))) ∧
    (∀ t q, exec i at' = .next t → t.raised = some q →
      step s = .next (afterIssue (clearMarks (takeAtBoundary (issued s0 c) c.blk c.gix q)))) ∧
    (∀ t, exec i at' = .next t → t.raised = none → t.stalled = true →
      step s = .next (afterIssue (heldBack (clearMarks (undoStall c s t [⟨0, k, i⟩])) c)))

/-- An outside input is the next step (the model's own queue of stimuli, assumption log entry 3): an operation or event is executed as it stands. -/
def Claims.StepTakesInput : Prop :=
  ∀ (i : Instr) (r : List Stimulus) (s : State), step { s with inbox := .op i :: r } = exec i { s with inbox := r }

/-- The model's own order of outside inputs (assumption log entry 3), with none of them waiting and no split chosen: the step is the first due event that
changes the state, and where none does, time passes. -/
def Claims.StepIdleOrder : Prop :=
  ∀ s, s.inbox = [] → s.cur = none → stepping s = none →
    (∀ t, firstEffect s (dueEvents s) = some t → step s = .next t) ∧
    (firstEffect s (dueEvents s) = none → step s = .next (passTime s))

end

/-- Encodings are unambiguous and unassigned majors are refused. -/
def Obligations.EncodingUnambiguousAndReserved : Prop :=
  Claims.EncodingUnambiguous ∧ Claims.UnassignedMajorsRefused

/-- Outside inputs come first, then due events, then time (the model's order). -/
def Obligations.StepOrder : Prop :=
  Claims.StepTakesInput ∧ Claims.StepIdleOrder

section
open Sys2Proof Sys2Proof.Machine

/-! ### Words in common -/

/-- R23, R36: a legal word outside a transaction that names no queue and no pattern, and that has not executed in its run already, begins at once, in the lanes of its split's active
mask. It reads the registers as they stood before its issue group where it is a later word of one (`old`), and as they stand otherwise;
nothing but the counter of free values (the model's own) has changed before its effect. -/
def Claims.WordBegins : Prop :=
  ∀ i s c b g p, issuerOf s = some (c, b, g, p) → i.wf = true → p.skip.contains p.runPlace = false → liveTx g c.no = [] →
    (∀ x ∈ srcCodes i ++ dstCodes i, isQueue x = false ∧ isPat x = false) →
    ∃ o, wordOp i s = some o ∧ o.s0 = s ∧ o.s = { s with nfree := s.nfree + 1 } ∧ o.k = c.blk ∧ o.gix = c.gix ∧ o.no = c.no ∧
      o.b = b ∧ o.g = g ∧ o.sp = p ∧ o.r = (g.old.map (·.r)).getD g.r ∧ o.act = (g.old.map (·.act)).getD p.act ∧
      o.W = b.width ∧ o.lanes = (List.range 64).filter fun l => o.act.getLsbD l

/-- R43, R85, R86, R162: a word that is illegal raises cause 0x01, and one that names a queue code with no binding in its direction
raises cause 0x09; both before any effect. A word not allowed inside a transaction aborts it with cause 6. A word that is parked or has executed
already in a run that executes again is passed over. -/
def Claims.WordChecks : Prop :=
  ∀ i s c b g p, isEvent i = false → issuerOf s = some (c, b, g, p) →
    (i.wf = false → Nexts (exec i s) fun t => t.raised = some { cause := 0x01, widx := p.word, split := c.no, pkt := p.pc }) ∧
    (i.wf = true → p.skip.contains p.runPlace = false → txBars g c.no i = false → badQueue ((g.old.map (·.qb)).getD g.qb) i = true →
      Nexts (exec i s) fun t => t.raised = some { cause := 0x09, widx := p.word, split := c.no, pkt := p.pc }) ∧
    (i.wf = true → p.skip.contains p.runPlace = false → txBars g c.no i = true →
      exec i s = .next { abortTx s c.blk c.gix c.no 6 0 with jumped := true }) ∧
    (i.wf = true → p.skip.contains p.runPlace = true → exec i s = .next
      (modGroup s c.blk c.gix (·.modSplit c.no fun q => { q with skip := q.skip.filter (· != p.runPlace) })))

/-- The model's one fault (its own, assumption log entry 1): a word that no split issues. The machine never executes one. -/
def Claims.WordNeedsIssuer : Prop := ∀ i s, isEvent i = false → issuerOf s = none → exec i s = .fault .noIssuer

/-- R86: a pop takes the oldest entry of its channel and leaves the others; the popping group's time rises to the entry's. -/
def Claims.PopTakesOldest : Prop :=
  ∀ s k gix qb x c b v t r, boundTo qb x false = some c → blockOf s k = some b → (mget b.chans c {}).ents = (v, t) :: r →
    (popCode s k gix qb x).2 = v ∧
    ∃ b', blockOf (popCode s k gix qb x).1 k = some b' ∧ (mget b'.chans c {}).ents = r ∧
      (∀ c', c' ≠ c → mget b'.chans c' {} = mget b.chans c' {}) ∧
      b'.groups.length = b.groups.length ∧ ∀ g, b.groups[gix]? = some g → b'.groups[gix]? = some (g.raise t)

/-! ### Registers -/

/-- R29: s0 reads as zero and a write to it is discarded; a write of any other scalar register is read back from it alone. -/
def Obligations.ScalarZeroRegister : Prop :=
  ∀ (r : Regs) (v : DWord) (n m : BitVec 5),
    r.sc 0 = 0 ∧ r.putSc 0 v = r ∧ (n ≠ 0 → (r.putSc n v).sc n = v) ∧ (m ≠ n → (r.putSc n v).sc m = r.sc m)

/-- R27, R28, R32: a result reaches a window register in the lanes of the mask only; every other register and every other lane reads as
before, in any window base of a partition of P registers. -/
def Claims.WindowRegisterWrite : Prop :=
  ∀ (r : Regs) (P d n l : Nat) (act : LaneMask) (f : Nat → Word), l < 64 → 48 ≤ P → d < 48 → n < 48 →
    (r.putWinLanes P d act f).win P n l = if n = d ∧ act.getLsbD l = true then f l else r.win P n l

/-- R30: a result is pushed into the latches of its own pipe alone: b0 holds it, b(n+1) what bn held, and the old b7 is gone. -/
def Claims.LatchPush : Prop :=
  ∀ (r : Regs) (p q : Pipe) (v : SMap Word) (n : Nat), r.bV.length ≤ 8 → r.bM.length ≤ 8 → r.bX.length ≤ 8 → p ≠ .S →
    ((r.pushLatch p v).latches p)[0]? = some v ∧
    (n < 7 → ((r.pushLatch p v).latches p)[n + 1]? = (r.latches p)[n]?) ∧ ((r.pushLatch p v).latches p).length ≤ 8 ∧
    (q ≠ p → (r.pushLatch p v).latches q = r.latches q)

/-- R23, R32: what a word with a 32-bit or 64-bit result changes. Its registers change in the issuing group alone: no other block, group,
memory byte, context, world, engine or special register, and of its own group no flag, scalar, capability, predicate register, split,
counter, binding, pattern or trap register. -/
def Obligations.ResultFrame : Prop :=
  ∀ (o : Op) (p : Pipe) (d : BitVec 6) (sup : BitVec 1) (f : Nat → Word) (f' : Nat → DWord) (t : State),
    (t = o.put64 p d sup f' ∨ (t = o.put p d sup f ∧ (d.toNat < 48 ∨ d = 54 ∨ sup = 1))) →
    t.mem = o.s.mem ∧ t.ctxs = o.s.ctxs ∧ t.worlds = o.s.worlds ∧ t.eng = o.s.eng ∧ t.curator = o.s.curator ∧ t.fab = o.s.fab ∧ t.hol = o.s.hol ∧
    t.gt = o.s.gt ∧ t.cur = o.s.cur ∧ (∀ k, k ≠ o.k → blockOf t k = blockOf o.s k) ∧
    (∀ b, blockOf o.s o.k = some b → ∃ b', blockOf t o.k = some b' ∧ b' = { b with groups := b'.groups } ∧
      b'.groups.length = b.groups.length ∧ (∀ j, j ≠ o.gix → b'.groups[j]? = b.groups[j]?) ∧
      ∀ g, b.groups[o.gix]? = some g → ∃ g', b'.groups[o.gix]? = some g' ∧ g' = { g with r := g'.r } ∧
        g'.r = { g.r with w := g'.r.w, bV := g'.r.bV, bM := g'.r.bM, bX := g'.r.bX })

/-! ### The scalar unit -/

/-- R69: the register forms, each two 64-bit operands to one
64-bit result: sums, differences and products modulo 2^64, shifts by the low eight bits of the amount, high halves, minima and maxima. -/
def Claims.ScalarRegisterForm : Prop :=
  ∀ d a b : BitVec 5,
    WordDoes (.sadd d a b) (setScalar d fun o => .ofInt 64 ((o.r.sc a).toInt + (o.r.sc b).toInt)) ∧
    WordDoes (.ssub d a b) (setScalar d fun o => .ofInt 64 ((o.r.sc a).toInt - (o.r.sc b).toInt)) ∧
    WordDoes (.sand d a b) (setScalar d fun o => o.r.sc a &&& o.r.sc b) ∧
    WordDoes (.sor d a b) (setScalar d fun o => o.r.sc a ||| o.r.sc b) ∧
    WordDoes (.sxor d a b) (setScalar d fun o => o.r.sc a ^^^ o.r.sc b) ∧
    WordDoes (.sshl d a b) (setScalar d fun o => .ofNat 64 ((o.r.sc a).toNat * 2 ^ ((o.r.sc b).toNat % 256))) ∧
    WordDoes (.sshr d a b) (setScalar d fun o => .ofNat 64 ((o.r.sc a).toNat / 2 ^ ((o.r.sc b).toNat % 256))) ∧
    WordDoes (.ssra d a b) (setScalar d fun o => .ofInt 64 ((o.r.sc a).toInt / 2 ^ ((o.r.sc b).toNat % 256))) ∧
    WordDoes (.smul d a b) (setScalar d fun o => .ofInt 64 ((o.r.sc a).toInt * (o.r.sc b).toInt)) ∧
    WordDoes (.smulhI64 d a b) (setScalar d fun o => .ofInt 64 ((o.r.sc a).toInt * (o.r.sc b).toInt / 2 ^ 64)) ∧
    WordDoes (.smulhU64 d a b) (setScalar d fun o => .ofNat 64 ((o.r.sc a).toNat * (o.r.sc b).toNat / 2 ^ 64)) ∧
    WordDoes (.sminI64 d a b) (setScalar d fun o => .ofInt 64 (min (o.r.sc a).toInt (o.r.sc b).toInt)) ∧
    WordDoes (.sminU64 d a b) (setScalar d fun o => .ofNat 64 (min (o.r.sc a).toNat (o.r.sc b).toNat)) ∧
    WordDoes (.smaxI64 d a b) (setScalar d fun o => .ofInt 64 (max (o.r.sc a).toInt (o.r.sc b).toInt)) ∧
    WordDoes (.smaxU64 d a b) (setScalar d fun o => .ofNat 64 (max (o.r.sc a).toNat (o.r.sc b).toNat))

/-- R69, R26: the immediate forms: the second operand is the host's own field, or the payload or payload pair of its extension words,
sign-extended. -/
def Claims.ScalarImmediateForm : Prop :=
  ∀ (d a : BitVec 5) (i : Imm 9),
    let y := immInt i
    let n := (y % 256).toNat
    WordDoes (.saddImm d a i) (setScalar d fun o => .ofInt 64 ((o.r.sc a).toInt + y)) ∧
    WordDoes (.ssubImm d a i) (setScalar d fun o => .ofInt 64 ((o.r.sc a).toInt - y)) ∧
    WordDoes (.sandImm d a i) (setScalar d fun o => o.r.sc a &&& .ofInt 64 y) ∧
    WordDoes (.sorImm d a i) (setScalar d fun o => o.r.sc a ||| .ofInt 64 y) ∧
    WordDoes (.sxorImm d a i) (setScalar d fun o => o.r.sc a ^^^ .ofInt 64 y) ∧
    WordDoes (.sshlImm d a i) (setScalar d fun o => .ofNat 64 ((o.r.sc a).toNat * 2 ^ n)) ∧
    WordDoes (.sshrImm d a i) (setScalar d fun o => .ofNat 64 ((o.r.sc a).toNat / 2 ^ n)) ∧
    WordDoes (.ssraImm d a i) (setScalar d fun o => .ofInt 64 ((o.r.sc a).toInt / 2 ^ n)) ∧
    WordDoes (.smulImm d a i) (setScalar d fun o => .ofInt 64 ((o.r.sc a).toInt * y)) ∧
    WordDoes (.smulhI64Imm d a i) (setScalar d fun o => .ofInt 64 ((o.r.sc a).toInt * y / 2 ^ 64)) ∧
    WordDoes (.smulhU64Imm d a i) (setScalar d fun o => .ofNat 64 ((o.r.sc a).toNat * (BitVec.ofInt 64 y).toNat / 2 ^ 64)) ∧
    WordDoes (.sminI64Imm d a i) (setScalar d fun o => .ofInt 64 (min (o.r.sc a).toInt y)) ∧
    WordDoes (.sminU64Imm d a i) (setScalar d fun o => .ofNat 64 (min (o.r.sc a).toNat (BitVec.ofInt 64 y).toNat)) ∧
    WordDoes (.smaxI64Imm d a i) (setScalar d fun o => .ofInt 64 (max (o.r.sc a).toInt y)) ∧
    WordDoes (.smaxU64Imm d a i) (setScalar d fun o => .ofNat 64 (max (o.r.sc a).toNat (BitVec.ofInt 64 y).toNat))

/-- R70, R71, R26: comparisons write 1 or 0, `smovi` its immediate, sign-extended. -/
def Claims.ScalarCompare : Prop :=
  ∀ (d a b : BitVec 5) (i : Imm 9) (j : Imm 19),
    let y := immInt i
    let z := immInt j
    let u := (BitVec.ofInt 64 y).toNat
    WordDoes (.scmpEq d a b) (setScalar d fun o => if o.r.sc a = o.r.sc b then 1 else 0) ∧
    WordDoes (.scmpNe d a b) (setScalar d fun o => if o.r.sc a = o.r.sc b then 0 else 1) ∧
    WordDoes (.scmpLtI64 d a b) (setScalar d fun o => if (o.r.sc a).toInt < (o.r.sc b).toInt then 1 else 0) ∧
    WordDoes (.scmpGeI64 d a b) (setScalar d fun o => if (o.r.sc a).toInt < (o.r.sc b).toInt then 0 else 1) ∧
    WordDoes (.scmpLtU64 d a b) (setScalar d fun o => if (o.r.sc a).toNat < (o.r.sc b).toNat then 1 else 0) ∧
    WordDoes (.scmpGeU64 d a b) (setScalar d fun o => if (o.r.sc a).toNat < (o.r.sc b).toNat then 0 else 1) ∧
    WordDoes (.scmpEqImm d a i) (setScalar d fun o => if (o.r.sc a).toInt = y then 1 else 0) ∧
    WordDoes (.scmpNeImm d a i) (setScalar d fun o => if (o.r.sc a).toInt = y then 0 else 1) ∧
    WordDoes (.scmpLtI64Imm d a i) (setScalar d fun o => if (o.r.sc a).toInt < y then 1 else 0) ∧
    WordDoes (.scmpGeI64Imm d a i) (setScalar d fun o => if (o.r.sc a).toInt < y then 0 else 1) ∧
    WordDoes (.scmpLtU64Imm d a i) (setScalar d fun o => if (o.r.sc a).toNat < u then 1 else 0) ∧
    WordDoes (.scmpGeU64Imm d a i) (setScalar d fun o => if (o.r.sc a).toNat < u then 0 else 1) ∧
    WordDoes (.smovi d j) (setScalar d fun _ => .ofInt 64 z)

/-- R24, R76, R88, R90, R91: `nop` has no effect; the active mask read and written through a scalar register, a mask of no member lane
being discarded; a lane flag of the active lanes; one lane's value, its lane active or not, a lane outside the group being illegal;
status registers with the bits that `.clr` clears: all of them as they stand, those that an earlier word of the issue group has set
among them (the model's choice, assumption log entry 95). -/
def Claims.StatusWords : Prop :=
  ∀ (d : BitVec 5) (r : BitVec 6) (a l : BitVec 6) (f : BitVec 3),
    WordDoes .nop (fun o => o.s) ∧
    WordDoes (.smaskRd d) (setScalar d fun o => o.act) ∧
    WordDoesWhen (.smaskWr d) (fun o => o.r.sc d &&& o.sp.mem ≠ 0) (fun o => o.modSp fun p => { p with act := o.r.sc d &&& o.sp.mem }) ∧
    WordDoesWhen (.smaskWr d) (fun o => o.r.sc d &&& o.sp.mem = 0) (fun o => o.s) ∧
    WordDoes (.sflags d f) (setScalar d fun o => o.act &&&
      (match f.toNat with | 0 => o.r.fC | 1 => o.r.fZ | 2 => o.r.fN | 3 => o.r.fV | 4 => o.r.fSP | _ => o.r.fFX)) ∧
    WordDoesWhen (.slane d a l) (fun o => l.toNat < o.W) (setScalar d fun o => .ofNat 64 (o.src .S a l.toNat).toNat) ∧
    WordDoesWhen (.slane d a l) (fun o => o.W ≤ l.toNat) (fun o => o.raise 0x01) ∧
    WordDoes (.sstat d r 0) (setScalar d fun o => statusValue o r) ∧
    WordDoes (.sstat d 0 1) (fun o => o.mod fun g => { g with r := g.r.putSc d (statusValue o 0), az := false }) ∧
    WordDoes (.sstat d 1 1) (fun o => o.modR fun q => { q.putSc d (statusValue o 1) with fFX := q.fFX &&& ~~~o.act }) ∧
    WordDoes (.sstat d 2 1) (fun o => o.modR fun q => { q.putSc d (statusValue o 2) with fSP := q.fSP &&& ~~~o.act }) ∧
    WordDoes (.sstat d 8 1) (fun o => o.mod fun g => { g with r := g.r.putSc d (statusValue o 8), cycQ := 0 })

/-- R89, R23: the fields of the status registers; the second word of an issue group reads the counters as they stood before the first. -/
def Claims.StatusFields : Prop :=
  ∀ o : Op, o.g.splits.length ≤ 4 → o.no < 4 → (∀ c, ctrCount o.g c ≤ 63) → o.g.stack.length ≤ 64 → o.g.lo < 2 ^ 20 → o.r.base < 2 ^ 20 →
    o.b.groups.length ≤ 16 → o.gix < 16 → o.b.vix < 4 → o.b.width ≤ 64 → o.b.core < 224 → o.g.cycQ < 2 ^ 64 →
    (statusValue o 0).toNat = o.g.splits.length * 2 ^ 12 + o.no * 2 ^ 8 + (if o.g.az then 1 else 0) ∧
    statusValue o 1 = o.r.fFX ∧ statusValue o 2 = o.r.fSP ∧
    (o.g.old = none → bits (statusValue o 3) 0 8 = ctrCount o.g .ld ∧ bits (statusValue o 3) 8 8 = ctrCount o.g .st ∧
      bits (statusValue o 3) 16 8 = ctrCount o.g .eng ∧ bits (statusValue o 3) 24 8 = ctrCount o.g .mat) ∧
    (∀ v, o.g.old = some v → ∀ n, n < 4 → v.ctrs.getD n 0 ≤ 63 → bits (statusValue o 3) (8 * n) 8 = v.ctrs.getD n 0) ∧
    bits (statusValue o 3) 32 32 = 0 ∧
    bits (statusValue o 4) 0 20 = o.r.base ∧ bits (statusValue o 4) 20 20 = o.g.lo ∧ bits (statusValue o 4) 40 8 = o.g.stack.length ∧
    (statusValue o 8).toNat = o.g.cycQ / 4 ∧
    (statusValue o 9).toNat = o.b.groups.length * 2 ^ 8 + o.gix ∧ (statusValue o 10).toNat = o.b.bix.toNat ∧
    (statusValue o 11).toNat = o.b.vix * 2 ^ 8 + o.b.width ∧ (statusValue o 12).toNat = o.b.core

/-! ### Control -/

/-- R72, R73: branches. A branch on a flag is taken where every active lane agrees, and falls through otherwise. -/
def Claims.Branches : Prop :=
  ∀ (a : BitVec 5) (f : BitVec 24) (n : BitVec 16),
    let dest : Op → BitVec 32 := fun o => .ofInt 32 ((o.sp.pc.toNat : Int) + n.toInt)
    let on : (Op → Bool) → Op → State := fun c o => if c o then o.jump (dest o) else o.s
    WordDoes (.br f) (fun o => o.jump (.ofInt 32 ((o.sp.pc.toNat : Int) + f.toInt))) ∧
    WordDoes (.brcEq0 a n) (on fun o => (o.r.sc a).toInt = 0) ∧
    WordDoes (.brcNe0 a n) (on fun o => (o.r.sc a).toInt ≠ 0) ∧
    WordDoes (.brcLt0 a n) (on fun o => (o.r.sc a).toInt < 0) ∧
    WordDoes (.brcGe0 a n) (on fun o => 0 ≤ (o.r.sc a).toInt) ∧
    WordDoes (.brcZ n) (on fun o => o.lanes.all fun l => o.r.fZ.getLsbD l) ∧
    WordDoes (.brcNz n) (on fun o => o.lanes.all fun l => !o.r.fZ.getLsbD l) ∧
    WordDoes (.brcC n) (on fun o => o.lanes.all fun l => o.r.fC.getLsbD l) ∧
    WordDoes (.brcNc n) (on fun o => o.lanes.all fun l => !o.r.fC.getLsbD l)

/-- R72, R73, R77: a split sent to a packet stands at its first word and waits for nothing; the group's other splits stand where they stood,
and nothing but that split has changed. -/
def Claims.JumpMovesSplit : Prop :=
  ∀ (o : Op) (pc : BitVec 32) (b : Block) (g : Group) (p : Split), blockOf o.s o.k = some b → b.groups[o.gix]? = some g →
    g.split o.no = some p →
    ∃ g', groupOf (o.jump pc) o.k o.gix = some g' ∧ g' = { g with splits := g'.splits } ∧
      g'.split o.no = some { p with pc := pc, word := 0, wait := .none } ∧ (∀ n, n ≠ o.no → g'.split n = g.split n) ∧
      (o.jump pc).mem = o.s.mem ∧ ∀ k, k ≠ o.k → blockOf (o.jump pc) k = blockOf o.s k

/-- R77, R79: a call pushes (this packet + 1, slide), slides the window up and goes to its target; a return pops the newest record, slides
it down and goes on at the record's packet. More than one split, a full or empty stack and a spill outside its capability trap before any
effect; an untranslated spill or fill parks the group at the word. A spill waits until the group's earlier stores have taken their places
and no `tmma.rel` holds any, a fill until its earlier accesses are performed (R231, R240). -/
def Claims.CallAndReturn : Prop :=
  ∀ (n : BitVec 3) (f : BitVec 21),
    let held : Op → Bool := fun o => spillWaits o.g o.b.v.p (o.g.r.base + 8 * n.toNat)
    let behind : Op → Nat → Bool := fun o m => fillWaits (o.g.windowTo (o.g.r.base - m))
    WordDoesWhen (.call n f) (fun o => o.g.splits.length ≤ 1 ∧ o.g.stack.length < 64 ∧ held o = true) (fun o => stallAt o.s0 o.k o.gix o.no .settle) ∧
    (∀ pc m rest, WordDoesWhen .ret (fun o => o.g.splits.length ≤ 1 ∧ o.g.stack = (pc, m) :: rest ∧ behind o m = true)
      (fun o => stallAt o.s0 o.k o.gix o.no .settle)) ∧
    (∀ u, WordDoesWhen (.call n f) (fun o => o.g.splits.length ≤ 1 ∧ o.g.stack.length < 64 ∧ held o = false ∧ slideUp o.s o.k o.gix (o.g.r.base + 8 * n.toNat) = .ok u)
      (fun o => { modGroup (modGroup u o.k o.gix fun g => { g with stack := (o.sp.pc + 1, 8 * n.toNat) :: g.stack }) o.k o.gix
        (·.modSplit o.no (·.goto (.ofInt 32 ((o.sp.pc.toNat : Int) + f.toInt)))) with jumped := true })) ∧
    WordDoesWhen (.call n f) (fun o => 1 < o.g.splits.length) (fun o => o.raise 0x04) ∧
    WordDoesWhen (.call n f) (fun o => o.g.splits.length ≤ 1 ∧ 64 ≤ o.g.stack.length) (fun o => o.raise 0x05) ∧
    WordDoesWhen (.call n f) (fun o => o.g.splits.length ≤ 1 ∧ o.g.stack.length < 64 ∧ held o = false ∧ slideUp o.s o.k o.gix (o.g.r.base + 8 * n.toNat) = .capFault)
      (fun o => o.raise 0x07) ∧
    (∀ u va k, WordDoesWhen (.call n f) (fun o => o.g.splits.length ≤ 1 ∧ o.g.stack.length < 64 ∧ held o = false ∧ slideUp o.s o.k o.gix (o.g.r.base + 8 * n.toNat) = .stop u va k)
      (fun o => parkSlide o va needW k)) ∧
    (∀ u pc m rest, WordDoesWhen .ret (fun o => o.g.splits.length ≤ 1 ∧ o.g.stack = (pc, m) :: rest ∧ behind o m = false ∧ slideDown o.s o.k o.gix (o.g.r.base - m) = .ok u)
      (fun o => { modGroup (modGroup u o.k o.gix fun g => { g with stack := rest }) o.k o.gix (·.modSplit o.no (·.goto pc)) with jumped := true })) ∧
    WordDoesWhen .ret (fun o => 1 < o.g.splits.length) (fun o => o.raise 0x04) ∧
    WordDoesWhen .ret (fun o => o.g.splits.length ≤ 1 ∧ o.g.stack = []) (fun o => o.raise 0x06) ∧
    (∀ pc m rest, WordDoesWhen .ret (fun o => o.g.splits.length ≤ 1 ∧ o.g.stack = (pc, m) :: rest ∧ behind o m = false ∧ slideDown o.s o.k o.gix (o.g.r.base - m) = .capFault)
      (fun o => o.raise 0x07)) ∧
    (∀ u va k pc m rest, WordDoesWhen .ret (fun o => o.g.splits.length ≤ 1 ∧ o.g.stack = (pc, m) :: rest ∧ behind o m = false ∧ slideDown o.s o.k o.gix (o.g.r.base - m) = .stop u va k)
      (fun o => parkSlide o va needR k))

/-- R78: register j of frame F in lane l lies at byte 4Wj + 4l of the frame, little-endian; a frame filled from those bytes is the frame
spilled. -/
def Claims.SpillLayout : Prop :=
  ∀ (r q : Regs) (P W F j l : Nat), 8 ≤ P → W ≤ 64 → j < 8 → l < W →
    ((frameBytes r P W F).drop (4 * W * j + 4 * l)).take 4 = bytesLE 4 (mget r.w (64 * ((8 * F + j) % P) + l) 0).toNat ∧
    (frameBytes r P W F).length = 32 * W ∧
    mget (unframe q P W F (frameBytes r P W F)).w (64 * ((8 * F + j) % P) + l) 0 = mget r.w (64 * ((8 * F + j) % P) + l) 0

/-- R78: a call whose window still fits the partition, with no store waiting for its place, spills nothing and moves the base. -/
def Claims.CallWithoutSpill : Prop :=
  ∀ s k gix b g nb, blockOf s k = some b → b.groups[gix]? = some g → g.out = [] → (nb + 47) / 8 ≤ g.hi → g.hi + 1 ≤ g.lo + b.v.p / 8 →
    slideUp s k gix nb = .ok (modGroup s k gix fun g => { g with hi := g.hi, r := { g.r with base := nb } })

/-- R74: `split`. With `taken` the active lanes where the source is not 0: none taken falls through; all taken branches; otherwise the untaken
lanes keep the number and go on, and the taken lanes form a split of the lowest free number at the target, each lane set being both membership
and active mask; open transactions of the taken lanes go with them, under a reserve of their own (R161; that it is the next free number is the
model's choice, assumption log entry 100). Where no such number is free the word traps before any effect. -/
def Claims.SplitDivides : Prop :=
  ∀ (a : BitVec 6) (f : BitVec 18),
    let taken : Op → LaneMask := fun o => laneMask o.act fun l => o.src .S a l ≠ 0
    let act : Op → LaneMask := fun o => (o.g.old.map (·.act)).getD o.sp.act
    let dest : Op → BitVec 32 := fun o => .ofInt 32 ((o.sp.pc.toNat : Int) + f.toInt)
    let carries : Op → Bool := fun o => (txOfSplit o.g o.no).any fun l => (taken o).getLsbD l
    WordDoesWhen (.split a f) (fun o => taken o = 0) (fun o => o.s) ∧
    WordDoesWhen (.split a f) (fun o => taken o ≠ 0 ∧ act o &&& ~~~taken o = 0) (fun o => o.jump (dest o)) ∧
    WordDoesWhen (.split a f) (fun o => taken o ≠ 0 ∧ act o &&& ~~~taken o ≠ 0 ∧ (freeNumbers o.g).length < (if carries o then 2 else 1))
      (fun o => o.raise 0x03) ∧
    ∀ n m, WordDoesWhen (.split a f) (fun o => taken o ≠ 0 ∧ act o &&& ~~~taken o ≠ 0 ∧ (freeNumbers o.g)[0]? = some n ∧
        (freeNumbers o.g)[if carries o then 1 else 0]? = some m)
      (fun o => o.mod fun g => { g with
        tx := g.tx.map fun x => (x.1, if (taken o).getLsbD x.1 then { x.2 with split := n, rsv := m } else x.2),
        splits := (g.splits.map fun p =>
          if p.no = o.no then { p with mem := act o &&& ~~~taken o, act := act o &&& ~~~taken o } else p) ++
        [{ no := n, pc := dest o, mem := taken o, act := taken o, fresh := true }] })

/-- R74, R161: the number of a new split is the lowest from 0 to 3 that no split has and no transaction holds. -/
def Claims.LowestFreeNumber : Prop :=
  ∀ g n, freeNumber g = some n ↔ n ≤ 3 ∧ (∀ p ∈ g.splits, p.no ≠ n) ∧ (∀ x ∈ g.tx, x.2.rsv ≠ n) ∧
    ∀ m, m < n → (∃ p ∈ g.splits, p.no = m) ∨ ∃ x ∈ g.tx, x.2.rsv = m

/-- R75: once every live split waits at a `merge`, those of one packet combine: one split per packet, at the packet after it, with the union of
their memberships and of their active masks and the lowest of their numbers. -/
def Claims.MergesCombine : Prop :=
  ∀ g, g.splits ≠ [] → (∀ p ∈ g.splits, p.wait = .merge) →
    let ps := (resolveMerges g).splits
    (∀ p ∈ ps, p.wait = .none ∧ p.word = 0) ∧ ps.Pairwise (fun p q => p.pc ≠ q.pc) ∧
    (∀ q ∈ g.splits, ∃ p ∈ ps, p.pc = q.pc + 1) ∧
    ∀ p ∈ ps, (∃ q ∈ g.splits, q.pc + 1 = p.pc ∧ p.no = q.no) ∧ (∀ q ∈ g.splits, q.pc + 1 = p.pc → p.no ≤ q.no) ∧
      ∀ l, (p.mem.getLsbD l = true ↔ ∃ q ∈ g.splits, q.pc + 1 = p.pc ∧ q.mem.getLsbD l = true) ∧
        (p.act.getLsbD l = true ↔ ∃ q ∈ g.splits, q.pc + 1 = p.pc ∧ q.act.getLsbD l = true)

/-- R75, R81, R83, R85: `merge` is a `nop` for one split and a wait for more; `waitc` stops the split until its counter is at or below the limit, the
second word of an issue group seeing the counter as it stood before the first (R23); `bar` waits; `qbind` binds a code to a channel the block has, and traps on another. -/
def Claims.WaitsAndBindings : Prop :=
  ∀ (c : BitVec 2) (n : BitVec 6) (m : BitVec 4) (q : BitVec 2) (h : BitVec 4),
    let count : Op → Nat := fun o => match o.g.old with
      | some v => v.ctrs.getD c.toNat 0
      | none => ctrCount o.g (match c.toNat with | 0 => .ld | 1 => .st | 2 => .eng | _ => .mat)
    WordDoesWhen .merge (fun o => o.g.splits.length ≤ 1) (fun o => o.s) ∧
    WordDoesWhen .merge (fun o => 1 < o.g.splits.length) (fun o => settleGroup (o.wait .merge) o.k o.gix) ∧
    WordDoesWhen (.waitc c n) (fun o => count o ≤ n.toNat) (fun o => o.s) ∧
    WordDoesWhen (.waitc c n) (fun o => n.toNat < count o) (fun o => o.wait (.waitc c n)) ∧
    WordDoes (.bar m) (fun o => settleGroup (o.wait (.bar m)) o.k o.gix) ∧
    WordDoesWhen (.qbindPush q h) (fun o => h.toNat < o.b.v.q) (fun o => o.mod fun g => { g with qb := minsert g.qb q.toNat ⟨true, h.toNat⟩ }) ∧
    WordDoesWhen (.qbindPop q h) (fun o => h.toNat < o.b.v.q) (fun o => o.mod fun g => { g with qb := minsert g.qb q.toNat ⟨false, h.toNat⟩ }) ∧
    WordDoesWhen (.qbindPush q h) (fun o => o.b.v.q ≤ h.toNat) (fun o => o.raise 0x09) ∧
    WordDoesWhen (.qbindPop q h) (fun o => o.b.v.q ≤ h.toNat) (fun o => o.raise 0x09) ∧
    WordDoes (.qbindUnbind q) (fun o => o.mod fun g => { g with qb := merase g.qb q.toNat })

/-- R83, R237: barrier n of a block all of whose live groups have arrived and have nothing outstanding completes: every split that waited at it
goes on after its `bar`, and every live group's time has risen to all of theirs. -/
def Claims.BarrierCompletes : Prop :=
  ∀ s blk bar b, blockOf s blk = some b → bar < 16 → (∀ g ∈ b.groups, g.out = [] ∧ g.tmode = none ∧
      (g.splits = [] ∨ ∀ p ∈ g.splits, p.wait = .bar (.ofNat 4 bar))) → (∃ g ∈ b.groups, g.splits ≠ []) →
    Nexts (exec (.barrierComplete blk bar) s) fun t => ∃ b', blockOf t blk = some b' ∧ b'.groups.length = b.groups.length ∧
      ∀ (i : Nat) (g : Group), b.groups[i]? = some g → g.splits ≠ [] → ∃ g' : Group, b'.groups[i]? = some g' ∧
        g'.splits = (g.splits.map fun p => { p with pc := p.nxt.1, word := p.nxt.2, wait := .none }) ∧
        (∀ h ∈ b.groups, h.splits ≠ [] → h.pts ≤ g'.pts) ∧ g'.r = g.r

end

/-- When a word begins, when it traps, and the one fault. -/
def Obligations.WordBeginsOrTraps : Prop :=
  Claims.WordBegins ∧ Claims.WordChecks ∧ Claims.WordNeedsIssuer

/-- Window registers, latches and pops. -/
def Obligations.RegistersLatchesAndQueues : Prop :=
  Claims.WindowRegisterWrite ∧ Claims.LatchPush ∧ Claims.PopTakesOldest

/-- Scalar arithmetic, register and immediate forms. -/
def Obligations.ScalarArithmetic : Prop :=
  Claims.ScalarRegisterForm ∧ Claims.ScalarImmediateForm

/-- Branches and jumps. -/
def Obligations.BranchesAndJumps : Prop :=
  Claims.Branches ∧ Claims.JumpMovesSplit

/-- Calls, returns and the spilled window. -/
def Obligations.CallsAndReturns : Prop :=
  Claims.CallAndReturn ∧ Claims.SpillLayout ∧ Claims.CallWithoutSpill

/-- Splits divide and merge. -/
def Obligations.SplitsAndMerges : Prop :=
  Claims.SplitDivides ∧ Claims.LowestFreeNumber ∧ Claims.MergesCombine

/-- Waits, queue bindings and barriers. -/
def Obligations.WaitsAndBarriers : Prop :=
  Claims.WaitsAndBindings ∧ Claims.BarrierCompletes

section
open Sys2Proof Sys2Proof.Machine

/-! ### The vector unit: integers -/

/-- R96: flags are written in the lanes of a mask only; every other lane's flags, and every other register, are as before. -/
def Claims.FlagWrites : Prop :=
  ∀ (r : Regs) (act : LaneMask) (f : Nat → CC) (l : Nat), l < 64 →
    (r.putCC act f).cc l = (if act.getLsbD l then f l else r.cc l) ∧
    r.putCC act f = { r with fC := (r.putCC act f).fC, fZ := (r.putCC act f).fZ, fN := (r.putCC act f).fN, fV := (r.putCC act f).fV }

/-- R97, R96, R45: the integer arithmetic words, sub-element by sub-element, every type, `.sat` and `.cc`. -/
def Claims.VectorArithmetic : Prop :=
  ∀ (d a b : BitVec 6) (sv g u : BitVec 1) (y : BitVec 3) (z : BitVec 2),
    let t := tyOf y
    let h := tyOf (z.setWidth 3)
    let e : IntTy → BitVec 6 → Op → Nat → Nat → Int := fun t x o l j => elemInt t (o.opnd t x l) j
    let no : Op → Nat → DWord → CC := fun o l _ => o.r.cc l
    ElemsDo (.vaddInt d sv a b g u y) t (g == 1) d sv (fun o l j => fitBits t (u == 1) (e t a o l j + e t b o l j))
      (fun o l => sumFlags t false (o.opnd t a l) (o.opnd t b l) false) ∧
    ElemsDo (.vsubInt d sv a b g u y) t (g == 1) d sv (fun o l j => fitBits t (u == 1) (e t a o l j - e t b o l j))
      (fun o l => sumFlags t true (o.opnd t a l) (o.opnd t b l) true) ∧
    ElemsDo (.vmulInt d sv a b u y) t false d sv (fun o l j => fitBits t (u == 1) (e t a o l j * e t b o l j)) no ∧
    ElemsDo (.vmulh d sv a b z) h false d sv (fun o l j => fitBits h false (e h a o l j * e h b o l j / 2 ^ h.w)) no ∧
    ElemsDo (.vmad d sv a b u y) t false d sv (fun o l j => fitBits t (u == 1) (e t d o l j + e t a o l j * e t b o l j)) no ∧
    ElemsDo (.vminInt d sv a b y) t false d sv (fun o l j => fitBits t false (min (e t a o l j) (e t b o l j))) no ∧
    ElemsDo (.vmaxInt d sv a b y) t false d sv (fun o l j => fitBits t false (max (e t a o l j) (e t b o l j))) no ∧
    ElemsDo (.vabsd d sv a b y) t false d sv (fun o l j => (e t a o l j - e t b o l j).natAbs) no

/-- R98, R96: additions and subtractions chained through the lane's C; with `.cc` the new Z is the AND of the old Z and the zero test. -/
def Claims.VectorChained : Prop :=
  ∀ (d a b : BitVec 6) (sv g : BitVec 1) (z : BitVec 2),
    let t := tyOf (z.setWidth 3)
    let c : Op → Nat → Int := fun o l => if o.r.fC.getLsbD l then 1 else 0
    let keep : Op → Nat → CC → CC := fun o l f => { f with z := f.z && o.r.fZ.getLsbD l }
    ElemsDo (.vaddx d sv a b g z) t (g == 1) d sv
      (fun o l j => fitBits t false (elemInt t (o.opnd t a l) j + elemInt t (o.opnd t b l) j + c o l))
      (fun o l v => keep o l (sumFlags t false (o.opnd t a l) (o.opnd t b l) (o.r.fC.getLsbD l) v)) ∧
    ElemsDo (.vsubx d sv a b g z) t (g == 1) d sv
      (fun o l j => fitBits t false (elemInt t (o.opnd t a l) j - elemInt t (o.opnd t b l) j - (1 - c o l)))
      (fun o l v => keep o l (sumFlags t true (o.opnd t a l) (o.opnd t b l) (o.r.fC.getLsbD l) v))

/-- R99, R100, R96: bitwise words, which with `.cc` write Z and N and leave C and V, and shifts by register amounts. -/
def Claims.VectorLogicAndShifts : Prop :=
  ∀ (d a b : BitVec 6) (sv g w : BitVec 1) (y : BitVec 3),
    let t := tyOf y
    let n : IntTy := if w = 1 then ⟨1, 64, true⟩ else ⟨1, 32, true⟩
    let cc : Op → Nat → DWord → CC := fun o l v =>
      { o.r.cc l with z := v.toNat % 2 ^ n.w = 0, n := v.getLsbD (n.w - 1) }
    let log : (Bool → Bool → Bool) → Instr → Prop := fun f i => ∀ s o, wordOp i s = some o → ∃ v : Nat → DWord,
      exec i s = .next ((o.flags (g == 1) fun l => cc o l (v l)).result n d sv v) ∧
      ∀ l k, k < n.w → (v l).getLsbD k = f ((o.opnd n a l).getLsbD k) ((o.opnd n b l).getLsbD k)
    let by' : Op → Nat → Nat → Nat := fun o l j => elemBits t (o.opnd t b l) j % 256
    let no : Op → Nat → DWord → CC := fun o l _ => o.r.cc l
    log and (.vand d sv a b g w) ∧ log or (.vor d sv a b g w) ∧ log xor (.vxor d sv a b g w) ∧
    log (fun p q => p && !q) (.vandn d sv a b g w) ∧
    ElemsDo (.vshl d sv a b y) t false d sv (fun o l j => elemBits t (o.opnd t a l) j * 2 ^ by' o l j % 2 ^ t.w) no ∧
    ElemsDo (.vshr d sv a b y) t false d sv (fun o l j => elemBits t (o.opnd t a l) j / 2 ^ by' o l j) no ∧
    ElemsDo (.vsra d sv a b y) t false d sv
      (fun o l j => ((BitVec.ofNat t.w (elemBits t (o.opnd t a l) j)).toInt / 2 ^ by' o l j % 2 ^ t.w).toNat) no

/-- R101, R102, R104, R26: immediate forms, d their first source, every sub-element taking the low bits of the immediate; shifts by the
immediate's low eight bits; constants; a scalar register's low half. -/
def Claims.VectorImmediates : Prop :=
  ∀ (d : BitVec 6) (sv g u w : BitVec 1) (y : BitVec 3) (i : Imm 11) (m : Imm 17) (q : BitVec 11) (x : BitVec 5),
    let t := tyOf y
    let n : IntTy := if w = 1 then ⟨1, 64, true⟩ else ⟨1, 32, true⟩
    let k : Nat := q.toNat % 256
    let no : Op → Nat → DWord → CC := fun o l _ => o.r.cc l
    let cc : Op → Nat → DWord → CC := fun o l v => { o.r.cc l with z := v.toNat % 2 ^ n.w = 0, n := v.getLsbD (n.w - 1) }
    let im : DWord := .ofInt 64 (immInt i)
    let el : Op → Nat → Nat → Int := fun o l j => elemInt t (o.opnd t d l) j
    let each : DWord := if t.w = 64 then im else .ofNat 64 ((List.range t.n).map fun j => im.toNat % 2 ^ t.w * 2 ^ (t.w * j)).sum
    ElemsDo (.vaddImm d sv i g u y) t (g == 1) d sv (fun o l j => fitBits t (u == 1) (el o l j + elemInt t each j))
      (fun o l => sumFlags t false (o.opnd t d l) each false) ∧
    (∀ s o, wordOp (.vandImm d sv i g w) s = some o → ∃ v : Nat → DWord,
      exec (.vandImm d sv i g w) s = .next ((o.flags (g == 1) fun l => cc o l (v l)).result n d sv v) ∧
      ∀ l k, k < n.w → (v l).getLsbD k = ((o.opnd n d l).getLsbD k && im.getLsbD k)) ∧
    (∀ s o, wordOp (.vorImm d sv i g w) s = some o → ∃ v : Nat → DWord,
      exec (.vorImm d sv i g w) s = .next ((o.flags (g == 1) fun l => cc o l (v l)).result n d sv v) ∧
      ∀ l k, k < n.w → (v l).getLsbD k = ((o.opnd n d l).getLsbD k || im.getLsbD k)) ∧
    ElemsDo (.vshlImm d sv q y) t false d sv (fun o l j => elemBits t (o.opnd t d l) j * 2 ^ k % 2 ^ t.w) no ∧
    ElemsDo (.vshrImm d sv q y) t false d sv (fun o l j => elemBits t (o.opnd t d l) j / 2 ^ k) no ∧
    ElemsDo (.vsraImm d sv q y) t false d sv
      (fun o l j => ((BitVec.ofNat t.w (elemBits t (o.opnd t d l) j)).toInt / 2 ^ k % 2 ^ t.w).toNat) no ∧
    (∀ p r, m.ext = .two p r → WordDoes (.vmovi d sv m) fun o => o.put64 .V d sv fun _ => .ofInt 64 (immInt m)) ∧
    ((∀ p r, m.ext ≠ .two p r) → WordDoes (.vmovi d sv m) fun o => o.put .V d sv fun _ => .ofInt 32 (immInt m)) ∧
    WordDoes (.vfroms d sv x) fun o => o.put .V d sv fun _ => .ofNat 32 (o.r.sc x).toNat

/-- R105 to R108, R38: choices by a flag test, lane by lane, or by a predicate, byte by byte; masked additions, subtractions and moves, which keep d's
sub-element where the predicate's bit is 0; an integer comparison writes Z where every sub-element is equal, N where every one is less, C where none
is less, and V 0. -/
def Claims.VectorSelectAndCompare : Prop :=
  ∀ (d a b : BitVec 6) (sv : BitVec 1) (e : BitVec 4) (p : BitVec 3) (y : BitVec 3) (m : BitVec 2), m.toNat ≤ 2 →
    let t := tyOf y
    let k : IntTy := if m = 0 then ⟨1, 32, true⟩ else if m = 1 then ⟨2, 16, true⟩ else ⟨4, 8, true⟩
    let on : Op → Nat → Nat → Bool := fun o l j => (o.r.pred p l).getLsbD (j * (k.w / 8))
    let x : BitVec 6 → Op → Nat → DWord := fun c o l => .ofNat 64 (o.src .V c l).toNat
    let masked : Instr → (Op → Nat → Nat → Int) → Prop := fun i f => LanesDo i .V d sv fun o l v => ∀ j, j < k.n →
      elemBits k (.ofNat 64 v.toNat) j = if on o l j then fitBits k false (f o l j) else elemBits k (x d o l) j
    let lt : Op → Nat → Nat → Bool := fun o l j => elemInt t (o.opnd t a l) j < elemInt t (o.opnd t b l) j
    let eq : Op → Nat → Nat → Bool := fun o l j => elemInt t (o.opnd t a l) j = elemInt t (o.opnd t b l) j
    LanesDo (.vselFlag d sv a b e) .V d sv (fun o l v => v = if flagHolds o.r e l then o.src .V a l else o.src .V b l) ∧
    LanesDo (.vselPred d sv a b p) .V d sv (fun o l v => ∀ j, j < 4 →
      byteAt v j = if (o.r.pred p l).getLsbD j then byteAt (o.src .V a l) j else byteAt (o.src .V b l) j) ∧
    masked (.vaddMasked d sv a b p m) (fun o l j => elemInt k (x a o l) j + elemInt k (x b o l) j) ∧
    masked (.vsubMasked d sv a b p m) (fun o l j => elemInt k (x a o l) j - elemInt k (x b o l) j) ∧
    masked (.vmovMasked d sv a p m) (fun o l j => elemInt k (x a o l) j) ∧
    WordDoes (.vcmpInt a b y) fun o => o.modR (·.putCC o.act fun l =>
      { z := (List.range t.n).all (eq o l), n := (List.range t.n).all (lt o l), c := (List.range t.n).all (fun j => !lt o l j), v := false })

/-- R110, R67: words across lanes. -/
def Claims.CrossLane : Prop :=
  ∀ (d a b : BitVec 6) (sv : BitVec 1),
    let from' : Op → Nat → Word := fun o i => if i < o.W then o.src .V a i else 0
    WordDoes (.vperm d sv a b) (fun o => o.put .V d sv fun l => from' o ((o.src .V b l).toNat % 64)) ∧
    WordDoes (.vbcast d sv a b) (fun o => o.put .V d sv fun _ => from' o ((o.src .V b (o.lanes.headD 0)).toNat % 64)) ∧
    WordDoes (.vscanAddI32 d sv a) (fun o => o.put .V d sv fun l =>
      .ofNat 32 ((o.lanes.filter fun m => m ≤ l).map fun m => (o.src .V a m).toNat).sum) ∧
    WordDoes (.vredAddI32 d sv a) (fun o => o.put .V d sv fun _ => .ofNat 32 (o.lanes.map fun m => (o.src .V a m).toNat).sum) ∧
    LanesDo (.vredMaxI32 d sv a) .V d sv (fun o _ v => o.lanes ≠ [] →
      (∃ m ∈ o.lanes, v = o.src .V a m) ∧ ∀ m ∈ o.lanes, (o.src .V a m).toInt ≤ v.toInt) ∧
    LanesDo (.vredMinI32 d sv a) .V d sv (fun o _ v => o.lanes ≠ [] →
      (∃ m ∈ o.lanes, v = o.src .V a m) ∧ ∀ m ∈ o.lanes, v.toInt ≤ (o.src .V a m).toInt)

/-- R109, R38, R40: predicate words write four bits per active lane of pd and nothing else. -/
def Claims.PredicateWords : Prop :=
  ∀ (d p q : BitVec 3) (a b : BitVec 6) (t e : BitVec 4),
    let put : (Op → Nat → BitVec 4) → Op → State := fun f o => o.modR (·.putPreds d o.act (f o))
    let test : BitVec 8 → BitVec 8 → Bool := fun x y => match t.toNat with
      | 0 => x = y | 1 => x ≠ y | 2 => x.toInt < y.toInt | 3 => y.toInt ≤ x.toInt | 4 => x.toNat < y.toNat | _ => y.toNat ≤ x.toNat
    (∀ (r : Regs) (act : LaneMask) (f : Nat → BitVec 4) (n : BitVec 3) (l : Nat), l < 64 →
      (r.putPreds d act f).pred n l = (if n = d ∧ act.getLsbD l = true then f l else r.pred n l) ∧
      r.putPreds d act f = { r with p := (r.putPreds d act f).p }) ∧
    (∀ s o, wordOp (.pcmpB d a b t) s = some o → ∃ f : Nat → BitVec 4, exec (.pcmpB d a b t) s = .next (put (fun _ => f) o) ∧
      ∀ l j, j < 4 → (f l).getLsbD j = test (byteAt (o.src .V a l) j) (byteAt (o.src .V b l) j)) ∧
    WordDoes (.pand d p q) (put fun o l => o.r.pred p l &&& o.r.pred q l) ∧
    WordDoes (.por d p q) (put fun o l => o.r.pred p l ||| o.r.pred q l) ∧
    WordDoes (.pxor d p q) (put fun o l => o.r.pred p l ^^^ o.r.pred q l) ∧
    WordDoes (.pnot d p) (put fun o l => ~~~o.r.pred p l) ∧
    WordDoes (.pfromcc d e) (put fun o l => if flagHolds o.r e l then 15 else 0)

end

/-- Scalar comparisons, flags and status registers. -/
def Obligations.ScalarCompareAndStatus : Prop :=
  Claims.ScalarCompare ∧ Claims.FlagWrites ∧ Claims.StatusWords ∧ Claims.StatusFields

/-- Vector integer arithmetic and immediates. -/
def Obligations.VectorIntegers : Prop :=
  Claims.VectorArithmetic ∧ Claims.VectorImmediates

/-- Chained sums, logic and shifts. -/
def Obligations.VectorChainsLogicShifts : Prop :=
  Claims.VectorChained ∧ Claims.VectorLogicAndShifts

/-- Selections, comparisons, cross-lane words and predicates. -/
def Obligations.VectorSelectsAndLanes : Prop :=
  Claims.VectorSelectAndCompare ∧ Claims.CrossLane ∧ Claims.PredicateWords

section
open Sys2Proof Sys2Proof.Machine

/-! ### The vector unit: floating point -/

/-- R111 to R113, R50 to R52, R55: arithmetic in each lane by the mode in force at issue, one rounding, FX sticky; minimum, maximum and
comparison; 16-bit types read from the low half and written with a zero high half. -/
def Claims.FloatArithmetic : Prop :=
  ∀ (d a b : BitVec 6) (sv : BitVec 1) (r : BitVec 3) (y : BitVec 2),
    let f := fmtOf y
    let x : BitVec 6 → Op → Nat → FVal := fun c o l => fdecSub f o.sub (o.fsrc y c l)
    let m : Op → Nat → RMode := fun o l => o.mode r false l 0
    WordDoes (.vaddFloat d sv a b r y) (fun o => o.putF d sv fun l => fin1 f (m o l) o.sub (addVal (m o l) (x a o l) (x b o l))) ∧
    WordDoes (.vsubFloat d sv a b r y) (fun o => o.putF d sv fun l => fin1 f (m o l) o.sub (addVal (m o l) (x a o l) (x b o l).neg)) ∧
    WordDoes (.vmulFloat d sv a b r y) (fun o => o.putF d sv fun l => fin1 f (m o l) o.sub (mulVal (x a o l) (x b o l))) ∧
    WordDoes (.vfma d sv a b r y) (fun o => o.putF d sv fun l =>
      let p := mulVal (x a o l) (x b o l)
      let t := addVal (m o l) (x d o l) p.1
      fin1 f (m o l) o.sub (t.1, p.2 || t.2)) ∧
    WordDoes (.vfms d sv a b r y) (fun o => o.putF d sv fun l =>
      let p := mulVal (x a o l) (x b o l)
      let t := addVal (m o l) (x d o l) p.1.neg
      fin1 f (m o l) o.sub (t.1, p.2 || t.2)) ∧
    WordDoes (.vminFloat d sv a b y) (fun o => o.putF d sv fun l => fminmax f o.sub false (o.fsrc y a l) (o.fsrc y b l)) ∧
    WordDoes (.vmaxFloat d sv a b y) (fun o => o.putF d sv fun l => fminmax f o.sub true (o.fsrc y a l) (o.fsrc y b l)) ∧
    WordDoes (.vcmpFloat a b y) (fun o => (o.fx fun l => (x a o l).isS || (x b o l).isS).modR (·.putCC o.act fun l =>
      match cmpVal (x a o l) (x b o l) with
      | some .lt => ⟨false, false, true, false⟩
      | some .eq => ⟨true, true, false, false⟩
      | some .gt => ⟨true, false, false, false⟩
      | none => ⟨false, false, false, true⟩))

/-- R114, R115: each function of one operand writes its value of each active lane's operand, rounded by the mode in force, with FX sticky (`vabs` and
`vneg` change the sign alone); the class is one bit of ten, in the order -inf, negative normal, negative subnormal, -0, +0, positive subnormal,
positive normal, +inf, signalling NaN, quiet NaN, read off the stored bits, with no FX. -/
def Claims.FloatUnary : Prop :=
  ∀ (d a : BitVec 6) (sv : BitVec 1) (r : BitVec 3) (y : BitVec 2),
    let f := fmtOf y
    let fun' : Nat → Op → State := fun n o => o.putF d sv fun l => ffun f (o.mode r false l 0) o.sub n (o.fsrc y a l)
    WordDoes (.vabs d sv a r y) (fun o => o.putF d sv fun l => signFun f o.sub false (o.fsrc y a l)) ∧
    WordDoes (.vneg d sv a r y) (fun o => o.putF d sv fun l => signFun f o.sub true (o.fsrc y a l)) ∧
    WordDoes (.vsqrt d sv a r y) (fun' 2) ∧ WordDoes (.vrcp d sv a r y) (fun' 3) ∧ WordDoes (.vrsqrt d sv a r y) (fun' 4) ∧
    WordDoes (.vexp2 d sv a r y) (fun' 5) ∧ WordDoes (.vlog2 d sv a r y) (fun' 6) ∧ WordDoes (.vsin d sv a r y) (fun' 7) ∧
    WordDoes (.vcos d sv a r y) (fun' 8) ∧ WordDoes (.vtanh d sv a r y) (fun' 9) ∧
    WordDoes (.vclass d sv a y) (fun o => o.put .V d sv fun l => .ofNat 32 (fclass f (o.fsrc y a l))) ∧
    ∀ g ∈ [f32, f16, bf16], ∀ x, x < 2 ^ (1 + g.eb + g.fb) →
      let neg : Bool := 2 ^ (g.eb + g.fb) ≤ x
      let e := x / 2 ^ g.fb % 2 ^ g.eb
      let m := x % 2 ^ g.fb
      fclass g x = 2 ^ (
        if e = 2 ^ g.eb - 1 then (if m = 0 then (if neg then 0 else 7) else if m < 2 ^ (g.fb - 1) then 8 else 9)
        else if e = 0 then (if m = 0 then (if neg then 3 else 4) else if neg then 2 else 5)
        else if neg then 1 else 6)

/-- R116 to R120, R53: conversions, and the words of the block formats. RS is taken where the rule lists it, and is RN elsewhere. -/
def Claims.FloatConversions : Prop :=
  ∀ (d a b : BitVec 6) (sv : BitVec 1) (t u : BitVec 4) (r : BitVec 3) (z : BitVec 1) (n : BitVec 3),
    let cvt : Bool → Op → State := fun sat o =>
      let rs : Bool := u = 0 ∧ (t = 1 ∨ t = 2)
      let v : Nat → DWord × Bool := fun l =>
        convert sat o.sub (o.mode r rs l 0) t u (if cvt64 u then o.src64 a l else .ofNat 64 (o.src .V a l).toNat)
      let q := o.fx fun l => (v l).2
      if cvt64 t then q.put64 .V d sv fun l => (v l).1 else q.put .V d sv fun l => .ofNat 32 (v l).1.toNat
    let k := if bf4 u then 4 else 8
    WordDoes (.vcvt d sv a t u r) (cvt false) ∧ WordDoes (.vcvtSat d sv a t u r) (cvt true) ∧
    WordDoes (.vpackb d sv a u r z n) (fun o =>
      let e : Nat → FRes := fun l =>
        packElem u.toNat (z == 1) (o.mode r true l n.toNat) (fdecSub f32 o.sub (o.src .V a l).toNat) (o.src .V (d + 1) l).toNat
      (o.fx fun l => (e l).fx).put .V d sv fun l => putElem (o.src .V d l) k n.toNat (e l).bits) ∧
    WordDoes (.vunpackb d sv a u r n) (fun o => o.putF d sv fun l =>
      unpackElem u.toNat (o.mode r false l 0) o.sub ((o.src .V a l).toNat / 2 ^ (k * n.toNat) % 2 ^ k) (o.src .V (a + 1) l).toNat) ∧
    WordDoes (.vscale d sv a b u) (fun o => o.put .V d sv fun l =>
      let e : BitVec 6 → Nat := fun x => scaleOf u.toNat (fdecSub f32 o.sub (o.src .V x l).toNat)
      .ofNat 32 (if u = 4 ∨ u = 5 then e b * 256 + e a else e a))

/-- R116, R45: a float converted to an integer is rounded by the mode and, out of the type's range, keeps its low w bits, or with `.sat` is clamped;
infinity and NaN give 0, or with `.sat` infinity gives the end of the range of its sign; FX is set on those and out of range. An integer converted to an
integer is the same with no rounding. With `.sat`, infinity to a 16-bit float gives the largest finite value of its sign and sets FX. -/
def Claims.IntegerConversions : Prop :=
  ∀ (sat sub : Bool) (mode : RMode) (t u : BitVec 4) (x : DWord), t.toNat ≤ 10 → u.toNat ≤ 10 →
    let wide : BitVec 4 → Nat := fun c => if c.toNat ≤ 4 then 8 else if c.toNat ≤ 6 then 16 else if c.toNat ≤ 8 then 32 else 64
    let sgn : BitVec 4 → Bool := fun c => c.toNat % 2 == 1
    let lo : Int := if sgn t then -2 ^ (wide t - 1) else 0
    let hi : Int := if sgn t then 2 ^ (wide t - 1) - 1 else 2 ^ wide t - 1
    let gives : Int → Prop := fun e => ∃ v : Int, lo ≤ v ∧ v ≤ hi ∧ convert sat sub mode t u x = (.ofInt 64 v, decide (e < lo ∨ hi < e)) ∧
      if sat then v = max lo (min hi e) else (v - e) % 2 ^ wide t = 0
    let f := fmtOf (u.setWidth 2)
    let g := fmtOf (t.setWidth 2)
    let z := x.toNat % 2 ^ wide u
    (3 ≤ t.toNat → 3 ≤ u.toNat → gives (if sgn u ∧ 2 ^ (wide u - 1) ≤ z then z - 2 ^ wide u else z)) ∧
    (3 ≤ t.toNat → u.toNat < 3 → match fdecSub f sub (x.toNat % 2 ^ (1 + f.eb + f.fb)) with
      | .fin n m e => gives (if n then -(roundTo mode n m e 0) else roundTo mode n m e 0)
      | .inf n => convert sat sub mode t u x = (if sat then .ofInt 64 (if n then lo else hi) else 0, true)
      | .nan _ => convert sat sub mode t u x = (0, true)) ∧
    (t = 1 ∨ t = 2 → u.toNat < 3 → ∀ n, fdecSub f sub (x.toNat % 2 ^ (1 + f.eb + f.fb)) = .inf n →
      convert sat sub mode t u x = (.ofNat 64 ((if n then g.signBit else 0) + (if sat then g.infBits - 1 else g.infBits)), sat))

/-- R119, R60, R57, R58: the code of a packed element. A value is rounded to the element grid (RS as RN beyond the largest element M). A D element takes
the finer of its two scales when the value rounded there is at most M, else the coarser, clamped to M with FX. An MX element takes its one scale and
overflows to infinity, NaN or the largest element. NaN and a scale 0xFF give the NaN or zero code, and E8M0 the exponent of the magnitude. -/
def Claims.PackedElements : Prop :=
  ∀ (bf : Nat) (sat : Bool) (mode : RMode) (sw : Nat) (v : FVal), 4 ≤ bf → bf ≤ 8 →
    -- lowest and highest exponent, fraction bits, largest magnitude and its code, sign bit
    let G : Int × Int × Nat × Nat × Nat × Nat := if bf = 4 then (0, 6, 3, 120, 63, 64) else if bf = 5 then (2, 2, 2, 3, 3, 4)
      else if bf = 6 then (-6, 8, 3, 448, 126, 128) else if bf = 7 then (-14, 15, 2, 57344, 123, 128) else (0, 2, 1, 6, 7, 8)
    let dle : Nat → Int → Nat → Int → Bool := fun a b c d => a * 2 ^ (b - d).toNat ≤ c * 2 ^ (d - b).toNat
    let fb := G.2.2.1
    let M := G.2.2.2.1
    -- magnitudes in units of 2^-16: of a code, and of a value at a scale
    let V : Nat → Nat := fun F => (if F < 2 ^ fb then F else (2 ^ fb + F % 2 ^ fb) * 2 ^ (F / 2 ^ fb - 1)) * 2 ^ (G.1 - fb + 16).toNat
    let R : Bool → Nat → Int → Nat → Nat := fun n m e E =>
      let e' := e + 127 - E
      let q := max G.1 (min G.2.1 (Nat.log2 m + e')) - fb
      let mode' := match mode with | .rs u => if dle m e' M 0 then .rs u else .rn | .rn => .rn | .rz => .rz | .ru => .ru | .rd => .rd
      roundTo mode' n m e' q * 2 ^ (q + 16).toNat
    let sign : Bool → Nat := fun n => if n then G.2.2.2.2.2 else 0
    let r := packElem bf sat mode v sw
    let ea := sw % 256
    let eb := sw / 256 % 256
    let D : Bool := bf = 4 ∨ bf = 5
    let sel : Nat := if ea ≤ eb then 0 else if bf = 4 then 128 else 8
    let cosel : Nat := if ea ≤ eb then (if bf = 4 then 128 else 8) else 0
    (D → ea = 255 ∨ eb = 255 ∨ (∃ s, v = .nan s) → r = ⟨0, true⟩) ∧
    (D → ea ≠ 255 → eb ≠ 255 → ∀ n, v = .inf n → r = ⟨cosel + sign n + G.2.2.2.2.1, true⟩) ∧
    (D → ea ≠ 255 → eb ≠ 255 → ∀ n m e, v = .fin n m e →
      let fine := R n m e (min ea eb)
      let coarse := R n m e (max ea eb)
      ∃ F, F ≤ G.2.2.2.2.1 ∧ V F = (if fine ≤ M * 2 ^ 16 then fine else min (M * 2 ^ 16) coarse) ∧
        r = ⟨(if fine ≤ M * 2 ^ 16 then sel else cosel) + sign n + F, decide (M * 2 ^ 16 < fine ∧ M * 2 ^ 16 < coarse)⟩) ∧
    (¬ D → ea ≠ 255 → ∀ n m e, v = .fin n m e →
      if R n m e ea ≤ M * 2 ^ 16 then ∃ F, F ≤ G.2.2.2.2.1 ∧ V F = R n m e ea ∧ r = ⟨sign n + F, false⟩
      else r = ⟨if bf = 8 ∨ sat then sign n + G.2.2.2.2.1 else if bf = 7 then sign n + 124 else 127, true⟩) ∧
    (¬ D → ea ≠ 255 → ∀ n, v = .inf n →
      r = if bf = 8 ∨ sat then ⟨sign n + G.2.2.2.2.1, true⟩ else if bf = 7 then ⟨sign n + 124, false⟩ else ⟨127, true⟩) ∧
    (¬ D → (ea = 255 ∨ ∃ s, v = .nan s) → r.bits = if bf = 8 then 0 else 127) ∧
    let x := packElem 10 sat mode v sw
    ((∃ s, v = .nan s) ∨ (∃ n, v = .inf n) → x = ⟨255, true⟩) ∧
    ∀ n m e, v = .fin n m e → (m = 0 ∨ ¬ dle 1 (-127) m e → x = ⟨0, true⟩) ∧
      ∀ k : Nat, m ≠ 0 → dle 1 ((k : Int) - 127) m e → ¬ dle 1 ((k : Int) - 126) m e → x = ⟨k, false⟩

/-- R118, R120: the scale word's byte for a value: for a D format the smallest scale at which the value does not exceed the largest element, for an MX
format the exponent less that of the largest element, clamped to 0 to 254; 127 for zero and 0xFF for NaN or infinity. An unpacked element is exactly its
value times its scale, within the binary32 range. -/
def Claims.ScalesAndUnpacking : Prop :=
  let dle : Nat → Int → Nat → Int → Bool := fun a b c d => a * 2 ^ (b - d).toNat ≤ c * 2 ^ (d - b).toNat
  let clamp : Int → Nat := fun k => (max 0 (min 254 k)).toNat
  (∀ (bf : Nat) (v : FVal), 4 ≤ bf → bf ≤ 8 → let M : Nat := if bf = 5 then 3 else 120
    ((∃ s, v = .nan s) ∨ (∃ n, v = .inf n) → scaleOf bf v = 255) ∧
    ∀ n m e, v = .fin n m e → (m = 0 → scaleOf bf v = 127) ∧ (m ≠ 0 → ∀ k : Int,
      (bf ≤ 5 → dle m e M k → ¬ dle m e M (k - 1) → scaleOf bf v = clamp (k + 127)) ∧
      (5 < bf → dle 1 k m e → ¬ dle 1 (k + 1) m e →
        scaleOf bf v = clamp (k - (if bf = 8 then 2 else if bf = 6 then 8 else 15) + 127)))) ∧
  ∀ (bf : Nat) (mode : RMode) (sub : Bool) (code sw : Nat), 4 ≤ bf → bf ≤ 8 → code < (if bf = 5 ∨ bf = 8 then 16 else 256) →
    -- fraction bits, exponent of the least magnitude over 2^-16, sign bit
    let G : Nat × Nat × Nat := if bf = 4 then (3, 13, 64) else if bf = 5 then (2, 16, 4) else if bf = 6 then (3, 7, 128) else if bf = 7 then (2, 0, 128)
      else (1, 15, 8)
    let F := code % G.2.2
    let V := (if F < 2 ^ G.1 then F else (2 ^ G.1 + F % 2 ^ G.1) * 2 ^ (F / 2 ^ G.1 - 1)) * 2 ^ G.2.1
    let D : Bool := bf = 4 ∨ bf = 5
    let E := if D ∧ 2 * G.2.2 ≤ code then sw / 256 % 256 else sw % 256
    let nan := sw % 256 = 255 ∨ (D ∧ sw / 256 % 256 = 255) ∨ (bf = 6 ∧ F = 127) ∨ (bf = 7 ∧ 124 < F)
    let r := unpackElem bf mode sub code sw
    (nan → r = ⟨0x7FC00000, false⟩) ∧
    (¬ nan → bf = 7 → F = 124 → r = ⟨if G.2.2 ≤ code then 0xFF800000 else 0x7F800000, false⟩) ∧
    (¬ nan → (bf = 7 → F < 124) → V * 2 ^ (E + 6) < 2 ^ 277 → (sub = false ∨ V = 0 ∨ 2 ^ 23 ≤ V * 2 ^ (E + 6)) →
      r.fx = false ∧ ∃ m e, fdec f32 r.bits = .fin (decide (G.2.2 ≤ code % (2 * G.2.2))) m e ∧ -149 ≤ e ∧ m * 2 ^ (e + 149).toNat = V * 2 ^ (E + 6))

/-- R53, R38: the mode that a rounding field selects, `.fpm` reading RM of fpm, RS only where the word takes it; and what each mode does to
m 2^e rounded to a multiple of 2^q: nearest with ties to even, toward zero, up, down. -/
def Claims.RoundingModes : Prop :=
  (∀ (o : Op) (r : BitVec 3) (l e : Nat), let c := if r = 0 then o.r.fpm.toNat % 8 else r.toNat
    (c = 1 → o.mode r false l e = .rn) ∧ (c = 2 → o.mode r false l e = .rz) ∧ (c = 3 → o.mode r false l e = .ru) ∧
    (c = 4 → o.mode r false l e = .rd) ∧ (c = 5 → o.mode r false l e = .rn ∧ ∃ u, u < 65536 ∧ o.mode r true l e = .rs u)) ∧
  (∀ (neg : Bool) (m s : Nat) (e : Int), let k : RMode → Nat := fun mode => roundTo mode neg m e (e + s)
    let n := k .rn
    (2 * m ≤ (2 * n + 1) * 2 ^ s ∧ 2 * n * 2 ^ s ≤ 2 * m + 2 ^ s ∧
      ((2 * m = (2 * n + 1) * 2 ^ s ∨ 2 * n * 2 ^ s = 2 * m + 2 ^ s) → s ≠ 0 → n % 2 = 0)) ∧
    k .rz = m / 2 ^ s ∧ k .ru = (if neg then m / 2 ^ s else (m + 2 ^ s - 1) / 2 ^ s) ∧
    k .rd = (if neg then (m + 2 ^ s - 1) / 2 ^ s else m / 2 ^ s))

/-- R49, R50: a NaN result of an addition, subtraction, multiplication, fused multiply-add, square root, minimum or maximum is the canonical NaN
of its format; a NaN operand, infinity less infinity and zero times infinity give it, and a signalling operand or one of those two sets FX. -/
def Claims.CanonicalNaN : Prop :=
  ∀ f ∈ [f32, f16, bf16], ∀ (m : RMode) (sub minus mx : Bool) (a b d : Nat), a < 2 * f.signBit → b < 2 * f.signBit → d < 2 * f.signBit →
    let isNaN : Nat → Prop := fun x => f.infBits < x % f.signBit
    let snan : Nat → Prop := fun x => f.infBits < x % f.signBit ∧ x % f.signBit < f.nanBits
    (∀ r ∈ [fadd f m sub a b, fsub f m sub a b, fmul f m sub a b, ffma f m sub minus d a b, fsqrt f m sub a, fminmax f sub mx a b],
      isNaN r.bits → r.bits = f.nanBits) ∧
    (isNaN a ∨ isNaN b → (fadd f m sub a b).bits = f.nanBits ∧ (fsub f m sub a b).bits = f.nanBits ∧ (fmul f m sub a b).bits = f.nanBits ∧
      (ffma f m sub minus d a b).bits = f.nanBits) ∧
    (snan a ∨ snan b → (fadd f m sub a b).fx = true ∧ (fsub f m sub a b).fx = true ∧ (fmul f m sub a b).fx = true ∧
      (ffma f m sub minus d a b).fx = true ∧ (fminmax f sub mx a b).fx = true) ∧
    (a = f.infBits → b = f.signBit + f.infBits → fadd f m sub a b = ⟨f.nanBits, true⟩ ∧ fsub f m sub a a = ⟨f.nanBits, true⟩) ∧
    (a = 0 → b = f.infBits → fmul f m sub a b = ⟨f.nanBits, true⟩ ∧ (ffma f m sub minus d a b).fx = true)

/-- R48: a number added to its negation, or subtracted from itself, is +0 in every mode but RD, where it is -0; no FX. -/
def Claims.CancelledSum : Prop :=
  ∀ f ∈ [f32, f16, bf16], ∀ (m : RMode) (sub : Bool) (a : Nat), a < f.infBits →
    let z : FRes := ⟨if m = .rd then f.signBit else 0, false⟩
    fadd f m sub a (f.signBit + a) = z ∧ fsub f m sub a a = z

/-- R114: the special values of the table, in binary32. -/
def Claims.FunctionSpecialValues : Prop :=
  let v : Nat → Nat → FRes := fun n x => ffun f32 .rn false n x
  let nan : FRes := ⟨0x7FC00000, true⟩
  v 2 0x80000000 = ⟨0x80000000, false⟩ ∧ v 2 0xBF800000 = nan ∧ v 2 0x7F800000 = ⟨0x7F800000, false⟩ ∧ v 2 0x40800000 = ⟨0x40000000, false⟩ ∧
  v 3 0x00000000 = ⟨0x7F800000, false⟩ ∧ v 3 0x80000000 = ⟨0xFF800000, false⟩ ∧ v 3 0x7F800000 = ⟨0, false⟩ ∧ v 3 0xFF800000 = ⟨0x80000000, false⟩ ∧
  v 4 0x00000000 = ⟨0x7F800000, false⟩ ∧ v 4 0x80000000 = ⟨0xFF800000, false⟩ ∧ v 4 0xBF800000 = nan ∧ v 4 0x7F800000 = ⟨0, false⟩ ∧
  v 5 0xFF800000 = ⟨0, false⟩ ∧ v 5 0x7F800000 = ⟨0x7F800000, false⟩ ∧ v 5 0x40400000 = ⟨0x41000000, false⟩ ∧ v 5 0x43000000 = ⟨0x7F800000, true⟩ ∧
  v 6 0x00000000 = ⟨0xFF800000, false⟩ ∧ v 6 0x80000000 = ⟨0xFF800000, false⟩ ∧ v 6 0xBF800000 = nan ∧ v 6 0x7F800000 = ⟨0x7F800000, false⟩ ∧
  v 6 0x3F800000 = ⟨0, false⟩ ∧
  (v 7 0x7F800000).bits = 0x7FC00000 ∧ (v 8 0xFF800000).bits = 0x7FC00000 ∧ v 9 0x7F800000 = ⟨0x3F800000, false⟩ ∧ v 9 0xFF800000 = ⟨0xBF800000, false⟩

/-! ### Small matrices -/

/-- R142 to R150: every small-matrix word writes each active lane's registers from that lane's operands, FX sticky; factorisations and solves
write the condition codes and SP. -/
def Claims.MatrixWords : Prop :=
  ∀ (d a b : BitVec 6) (r c : BitVec 3) (d5 a5 b5 m k n : BitVec 5), m.toNat < 8 → k.toNat < 8 → n.toNat < 8 →
    let R := r.toNat + 1
    let C := c.toNat + 1
    let A : BitVec 6 → Op → Nat → Nat → Nat := fun x o l i => (o.r.win o.b.v.p (x.toNat + i) l).toNat
    let T : Op → Nat → Nat → Nat → Nat := fun o l i j => A a o l (R * i + j)
    WordDoes (.mmul d5 a5 b5 (m.setWidth 3) (k.setWidth 3) (n.setWidth 3)) (matEffect (2 * d5.toNat) ((m.toNat + 1) * (n.toNat + 1)) false fun o l =>
      mulSeq (fun i => (o.r.win o.b.v.p (2 * a5.toNat + i) l).toNat) (fun i => (o.r.win o.b.v.p (2 * b5.toNat + i) l).toNat)
        (m.toNat + 1) (k.toNat + 1) (n.toNat + 1)) ∧
    WordDoes (.mtrans d a r c) (matEffect d.toNat (R * C) false fun o l =>
      ({}, (List.range (R * C)).map fun x => A a o l (C * (x % R) + x / R))) ∧
    WordDoes (.mchol d a r c) (matEffect d.toNat (R * R) true fun o l => cholSeq (A a o l) R) ∧
    WordDoes (.mlu d a r c) (matEffect d.toNat (R * R + 1) true fun o l => luSeq (A a o l) R) ∧
    WordDoes (.mtrsl d a b r c) (matEffect d.toNat R true fun o l => lowerSeq (T o l) (A b o l) R {}) ∧
    WordDoes (.mtrsu d a b r c) (matEffect d.toNat R true fun o l => upperSeq (T o l) (A b o l) R {}) ∧
    WordDoes (.msolveChol d a b r c) (matEffect d.toNat R true fun o l =>
      let y := lowerSeq (T o l) (A b o l) R {}
      upperSeq (fun i j => T o l j i) (fun i => y.2.getD i 0) R y.1) ∧
    WordDoes (.msolveLu d a b r c) (matEffect d.toNat R true fun o l =>
      let y := unitLower (T o l) (fun i => (permute (A a o l (R * R)) R ((List.range R).map (A b o l))).getD i 0) R {}
      upperSeq (T o l) (fun i => y.2.getD i 0) R y.1)

/-- R144: element (i, j) of a product is the chain of fused multiply-adds over k ascending, from the rounded first product. -/
def Claims.MatrixProductElement : Prop :=
  ∀ (a b : Nat → Nat) (m k n i j : Nat), 1 ≤ k → i < m → j < n → (mulSeq a b m k n).2.length = m * n ∧
    (mulSeq a b m k n).2[n * i + j]? = some ((List.range' 1 (k - 1)).foldl
      (fun s q => (ffma f32 .rn false false s (a (k * i + q)) (b (n * q + j))).bits) (fmul f32 .rn false (a (k * i)) (b j)).bits)

/-- R146 to R150: the elements of the factors and solutions, each chain in ascending k with one rounding for each update: L below a pivot is the chain
times the reciprocal of the rounded root, U and its multipliers go step by step with the pivot's row exchanged (the greatest magnitude, the lowest row of
equals, a NaN only where it stands), the pivot word holds three bits for each step, and the unknowns of the solves. A singular value gives +0 in place of
its reciprocal, and the first one's column is kept; each lane with one gets SP and that column in its flags. -/
def Claims.MatrixFactors : Prop :=
  let nan : Nat → Bool := fun x => 0x7F800000 < x % 2 ^ 31
  let sing : Nat → Bool := fun x => x % 2 ^ 31 < 2 ^ 23 || nan x
  let pos : Nat → Bool := fun x => 0 < x && x < 2 ^ 31 && !nan x
  let gt : Nat → Nat → Bool := fun x y => !nan x && !nan y && y % 2 ^ 31 < x % 2 ^ 31
  let fnm : Nat → Nat → Nat → Nat := fun s x y => (ffma f32 .rn false true s x y).bits
  let mul : Nat → Nat → Nat := fun x y => (fmul f32 .rn false x y).bits
  let inv : Nat → Nat := fun p => if sing p then 0 else (frcpRn p).bits
  let chain : Nat → (Nat → Nat) → (Nat → Nat) → List Nat → Nat := fun s x y ks => ks.foldl (fun s k => fnm s (x k) (y k)) s
  (∀ (a : Nat → Nat) (n : Nat), let r := cholSeq a n
    let L : Nat → Nat → Nat := fun i j => r.2.getD (n * i + j) 0
    let s : Nat → Nat := fun j => chain (a (n * j + j)) (L j) (L j) (List.range j)
    r.2.length = n * n ∧ r.1.col = (List.range n).find? (fun j => !pos (s j)) ∧ ∀ i j, i < n → j < n →
      (i < j → L i j = 0) ∧ L j j = (if pos (s j) then (fsqrt f32 .rn false (s j)).bits else 0) ∧
      (j < i → L i j = mul (chain (a (n * i + j)) (L i) (L j) (List.range j)) (if pos (s j) then (frcpRn (L j j)).bits else 0))) ∧
  (∀ (a : Nat → Nat) (n : Nat), let r := luSeq a n
    ∃ (U : Nat → Nat → Nat → Nat) (P : Nat → Nat), (∀ i k, i < n → k < n → U 0 i k = a (n * i + k) ∧ r.2[n * i + k]? = some (U n i k)) ∧
      r.2[n * n]? = some (((List.range n).map fun j => P j * 8 ^ j).sum) ∧ r.1.col = (List.range n).find? (fun j => sing (U j (P j) j)) ∧
      ∀ j, j < n → j ≤ P j ∧ P j < n ∧ (∀ i, j ≤ i → i < n → gt (U j i j) (U j (P j) j) = false) ∧
        (∀ i, j ≤ i → i < P j → nan (U j i j) = true ∨ gt (U j (P j) j) (U j i j) = true) ∧ ∀ i k, i < n → k < n →
        let w : Nat → Nat → Nat := fun i k => U j (if i = j then P j else if i = P j then j else i) k
        let m := mul (w i j) (inv (w j j))
        U (j + 1) i k = if i ≤ j ∨ k < j then w i k else if k = j then m else fnm (w i k) m (w j k)) ∧
  (∀ (T : Nat → Nat → Nat) (b : Nat → Nat) (n : Nat),
    let x := lowerSeq T b n {}
    let y := upperSeq T b n {}
    let z := unitLower T b n {}
    x.2.length = n ∧ y.2.length = n ∧ z.2.length = n ∧ z.1.col = none ∧ x.1.col = (List.range n).find? (fun i => sing (T i i)) ∧
    y.1.col = (List.range n).reverse.find? (fun i => sing (T i i)) ∧ ∀ i, i < n →
      x.2[i]? = some (mul (chain (b i) (T i) (x.2.getD · 0) (List.range i)) (inv (T i i))) ∧
      y.2[i]? = some (mul (chain (b i) (T i) (y.2.getD · 0) (List.range' (i + 1) (n - 1 - i))) (inv (T i i))) ∧
      z.2[i]? = some (chain (b i) (T i) (z.2.getD · 0) (List.range i))) ∧
  (∀ (w n : Nat) (es : List Nat), es.length = n → ∃ C : Nat → Nat → Nat, ∀ i, i < n → es[i]? = some (C 0 i) ∧ (permute w n es)[i]? = some (C n i) ∧
    ∀ j, j < n → let p := w / 8 ^ j % 8
      C (j + 1) i = C j (if j < p ∧ p < n then (if i = j then p else if i = p then j else i) else i)) ∧
  ∀ (r : Regs) (act : LaneMask) (P d n q l : Nat) (out : Nat → List Nat) (col : Nat → Option Nat), l < 64 → 48 ≤ P → d + n ≤ 48 → q < 48 →
    (r.putMany P act d n out).win P q l = (if d ≤ q ∧ q < d + n ∧ act.getLsbD l then .ofNat 32 ((out l).getD (q - d) 0) else r.win P q l) ∧
    r.putMany P act d n out = { r with w := (r.putMany P act d n out).w } ∧
    let t := r.setSP act fun l => (col l).isSome
    t.fSP.getLsbD l = (r.fSP.getLsbD l || (act.getLsbD l && (col l).isSome)) ∧ t = { r with fSP := t.fSP } ∧
    (col l = none → colCC (col l) = ⟨false, true, false, false⟩) ∧
    ∀ j, col l = some j → colCC (col l) = ⟨j.testBit 0, false, j.testBit 1, j.testBit 2⟩

/-! ### Capabilities -/

/-- R128: the derivations, of k registers with a scalar operand and of each active lane's c registers with a 32-bit operand, which `coff` and
`cinc` sign-extend. -/
def Claims.CapabilityDerivations : Prop :=
  ∀ (d a b : BitVec 4) (v : BitVec 1) (x : BitVec 6),
    let K : BitVec 4 → Op → Cap := fun n o => o.r.kreg n
    let C : BitVec 4 → Op → Nat → Cap := fun n o l => o.r.creg n l
    let s : Op → DWord := fun o => o.r.sc (x.setWidth 5)
    let u : Op → Nat → DWord := fun o l => .ofNat 64 (o.src .M x l).toNat
    let i : Op → Nat → DWord := fun o l => .ofInt 64 (o.src .M x l).toInt
    WordDoes (.cbnd d v a x) (capEffect d v (fun o => capBound false (K a o) (s o).toNat) fun o l => capBound false (C a o l) (u o l).toNat) ∧
    WordDoes (.cbndX d v a x) (capEffect d v (fun o => capBound true (K a o) (s o).toNat) fun o l => capBound true (C a o l) (u o l).toNat) ∧
    WordDoes (.coff d v a x) (capEffect d v (fun o => capOff (K a o) (s o)) fun o l => capOff (C a o l) (i o l)) ∧
    WordDoes (.cinc d v a x) (capEffect d v (fun o => capInc (K a o) (s o)) fun o l => capInc (C a o l) (i o l)) ∧
    WordDoes (.cperm d v a x) (capEffect d v (fun o => capPerm (K a o) (s o)) fun o l => capPerm (C a o l) (u o l)) ∧
    WordDoes (.cseal d v a b) (capEffect d v (fun o => capSeal (K a o) (K b o)) fun o l => capSeal (C a o l) (C b o l)) ∧
    WordDoes (.cunseal d v a b) (capEffect d v (fun o => capUnseal (K a o) (K b o)) fun o l => capUnseal (C a o l) (C b o l)) ∧
    WordDoes (.cuntag d v a x) (capEffect d v (fun o => { K a o with tag := false }) fun o l => { C a o l with tag := false })

/-- R129: copies of capabilities; from a lane register to a k register, of the lowest active lane. -/
def Claims.CapabilityMoves : Prop :=
  ∀ (d a : BitVec 4) (l : Nat),
    WordDoes (.cmov d 0 a 0) (fun o => o.modR fun r => r.putK d (o.r.kreg a)) ∧
    WordDoes (.cmov d 1 a 0) (fun o => o.modR fun r => r.putCs d o.act fun l => o.r.creg a l) ∧
    WordDoes (.cmov d 1 a 1) (fun o => o.modR fun r => r.putCs d o.act fun _ => o.r.kreg a) ∧
    WordDoesWhen (.cmov d 0 a 2) (fun o => o.lanes.head? = some l) (fun o => o.modR fun r => r.putK d (o.r.creg a l)) ∧
    ∀ (r : Regs) (n : BitVec 4) (c : Cap) (f : Nat → Cap) (act : LaneMask) (q : Nat), q < 64 →
      (r.putK d c).kreg n = (if n = d then c else r.kreg n) ∧ r.putK d c = { r with k := (r.putK d c).k } ∧
      (r.putCs d act f).creg n q = (if n = d ∧ act.getLsbD q = true then f q else r.creg n q) ∧ r.putCs d act f = { r with c := (r.putCs d act f).c }

/-- R130: each value of a capability's cursor and reach, to a scalar register or to a lane register and the M latches. -/
def Claims.CapabilityInspection : Prop :=
  ∀ (d : BitVec 6) (a : BitVec 4),
    let wide : (BitVec 6 → BitVec 1 → BitVec 4 → Instr) → (Cap → DWord) → Prop := fun i f =>
      WordDoes (i d 0 a) (setScalar (d.setWidth 5) fun o => f (o.r.kreg a)) ∧ WordDoes (i d 1 a) (fun o => o.put64 .M d 0 fun l => f (o.r.creg a l))
    let word : (BitVec 6 → BitVec 1 → BitVec 4 → Instr) → (Cap → Word) → Prop := fun i f =>
      WordDoes (i d 0 a) (setScalar (d.setWidth 5) fun o => (f (o.r.kreg a)).setWidth 64) ∧
      WordDoes (i d 1 a) (fun o => o.put .M d 0 fun l => f (o.r.creg a l))
    wide .cgetBase (fun c => .ofNat 64 (capBase c)) ∧ wide .cgetTop (fun c => .ofNat 64 (capBase c + capLen c)) ∧
    wide .cgetPos (fun c => c.addr - .ofNat 64 (capBase c)) ∧ wide .cgetRoom (fun c => .ofNat 64 (capBase c + capLen c) - c.addr) ∧
    word .cgetPerm (fun c => c.perm.setWidth 32) ∧ word .cgetType (fun c => c.otype.setWidth 32) ∧
    word .cgetTag (fun c => if c.tag then 1 else 0) ∧ wide .cgetAddr (fun c => c.addr) ∧ word .cgetExp (fun c => c.e.setWidth 32)

/-- R123: the reach built from a base and a length: the smallest exponent from 0 to 39 whose 19-bit length field holds the range rounded outward to
multiples of 2^E, by less than 2^E bytes at each end; the fields that encode those bounds; exact below 512 KiB; none past the longest. -/
def Obligations.ReachEncoding : Prop :=
  ∀ (c : Cap) (b n : Nat), b < 2 ^ 64 →
    let lo : Nat → Nat := fun e => b / 2 ^ e * 2 ^ e
    let hi : Nat → Nat := fun e => (b + n + 2 ^ e - 1) / 2 ^ e * 2 ^ e
    let fits : Nat → Prop := fun e => hi e - lo e ≤ (2 ^ 19 - 1) * 2 ^ e
    (reachOf b n = none ↔ ∀ e, e ≤ 39 → ¬ fits e) ∧
    (n < 2 ^ 19 → reachOf b n = some (0, b, b + n)) ∧
    ∀ e b' t', reachOf b n = some (e, b', t') →
      e ≤ 39 ∧ fits e ∧ (∀ e', e' < e → ¬ fits e') ∧ b' = lo e ∧ t' = hi e ∧ b - b' < 2 ^ e ∧ t' - (b + n) < 2 ^ e ∧ b' ≤ b ∧ b ≤ t' ∧ t' - b' ≤ (2 ^ 19 - 1) * 2 ^ 39 ∧
      let x := { withReach c e b' t' with addr := .ofNat 64 b }
      x.e.toNat = e ∧ x.bf.toNat = b' / 2 ^ e % 2 ^ 19 ∧ x.lf.toNat = (t' - b') / 2 ^ e ∧ capBase x = b' ∧ capBase x + capLen x = t'

/-- R127, R128: a derivation gives a tagged result only of a tagged source, and never one that reaches further, holds a permission more or is a type
key where its source was not; its cursor lies within its reach. -/
def Obligations.DerivationNeverWidens : Prop :=
  ∀ (c k : Cap) (x : DWord) (n : Nat) (exact : Bool), capBase c ≤ c.addr.toNat → c.addr.toNat ≤ capBase c + capLen c →
    ∀ r ∈ [capBound exact c n, capOff c x, capInc c x, capPerm c x, capSeal c k, capUnseal c k, capUntag c], r.tag = true →
      c.tag = true ∧ capBase c ≤ capBase r ∧ capBase r + capLen r ≤ capBase c + capLen c ∧ r.perm &&& ~~~c.perm = 0 ∧
      isKey r = isKey c ∧ isSpad r = isSpad c ∧ capBase r ≤ r.addr.toNat ∧ r.addr.toNat ≤ capBase r + capLen r

/-- R131: an access passes its check exactly when its capability is tagged and unsealed, grants every right needed, holds the whole access within its
bounds (and the block's scratchpad, for a scratchpad capability), and the address is aligned. -/
def Claims.AccessCheck : Prop :=
  ∀ (c : Cap) (need : BitVec 12) (a : DWord) (n al limit : Nat),
    capCheck c need a n al limit = .none ↔
      c.tag = true ∧ c.otype = 0 ∧ need &&& ~~~c.perm = 0 ∧ capBase c ≤ a.toNat ∧ a.toNat + n ≤ capBase c + capLen c ∧
      (c.perm.getLsbD 9 = true → a.toNat + n ≤ limit) ∧ a.toNat % al = 0

end

/-- Floating-point arithmetic and conversions. -/
def Obligations.FloatArithmeticAndConversions : Prop :=
  Claims.FloatArithmetic ∧ Claims.FloatConversions ∧ Claims.IntegerConversions ∧ Claims.PackedElements ∧ Claims.ScalesAndUnpacking

/-- Functions of one operand and their special values. -/
def Obligations.FloatFunctions : Prop :=
  Claims.FloatUnary ∧ Claims.FunctionSpecialValues

/-- Rounding modes, NaN results and cancelled sums. -/
def Obligations.FloatRounding : Prop :=
  Claims.RoundingModes ∧ Claims.CanonicalNaN ∧ Claims.CancelledSum

/-- Small-matrix words. -/
def Obligations.SmallMatrix : Prop :=
  Claims.MatrixWords ∧ Claims.MatrixProductElement ∧ Claims.MatrixFactors

/-- Capability words. -/
def Obligations.CapabilityWords : Prop :=
  Claims.CapabilityDerivations ∧ Claims.CapabilityMoves ∧ Claims.CapabilityInspection

section
open Sys2Proof Sys2Proof.Machine

/-! ### Memory words -/

/-- R131 to R134, R26: the lanes of a memory word. Each active lane's address is its capability's cursor plus its offset; it accesses memory where its
check passes, and otherwise adds its bit to the mask of its kind and accesses nothing. -/
def Claims.AccessLanes : Prop :=
  ∀ (b : Block) (cap : Nat → Cap) (need : Nat → BitVec 12) (off : Nat → DWord) (n : Nat) (f : BitVec 4) (op : Nat → AccOp) (ls : List Nat) (l : Nat),
    l ∈ ls → ls.Nodup → (∀ m ∈ ls, m < 64) →
    let q := laneList b cap need off n f op ls
    let kd := laneKind b (cap l) (need l) ((cap l).addr + off l) n (op l)
    (kd = .none → { lane := l, spad := isSpad (cap l), va := (cap l).addr + off l, n := n, fmt := f, op := op l } ∈ q.1) ∧
    (kd ≠ .none → ∀ a ∈ q.1, a.lane ≠ l) ∧
    (q.2.tag.getLsbD l = decide (kd = .tag) ∧ q.2.sealed.getLsbD l = decide (kd = .sealed) ∧ q.2.perm.getLsbD l = decide (kd = .perm) ∧
      q.2.bnd.getLsbD l = decide (kd = .bounds) ∧ q.2.align.getLsbD l = decide (kd = .align))

/-- R80, R132, R300: an access of an outer word whose counter has room, with every lane confirmed and no failing lane, is counted from its issue: it
joins the group's outstanding words with those lanes to perform; loads and atomics are performed in the group's order. A counter at 63 holds the
word back before any effect. -/
def Claims.AccessCounted : Prop :=
  ∀ (o : Op) (ctr : Ctr) (dest : Dest) (red : Bool) (ls go : List LaneAcc),
    liveTx o.g o.no = [] → ls ≠ [] → lookLanes o.s o.b ls = (go, []) → (∀ c, dest ≠ .chan c) → (groupOf o.s o.k o.gix).isSome →
    (ctrCount o.g ctr < 63 → o.issue ctr dest red ls {} =
      settleOut (modGroup o.s o.k o.gix fun g => { g with nextId := g.nextId + 1, out := g.out ++
        [{ id := g.nextId, inTrap := g.tmode.isSome, ctr := ctr, pkt := o.sp.pc, split := o.no, wix := o.sp.word, dest := dest, buf := go, redm := red }] }) o.k o.gix) ∧
    (63 ≤ ctrCount o.g ctr → o.issue ctr dest red ls {} = stallAt o.s0 o.k o.gix o.no (.counter ctr))

/-- R133, R134, R141, R26: loads, stores, capability loads and stores, and reductions: which lanes they access, with what rights, bytes and data. -/
def Claims.LoadAndStoreWords : Prop :=
  ∀ (d x : BitVec 6) (sv v e : BitVec 1) (k c : BitVec 4) (i : Imm 6) (z y : BitVec 2) (m : BitVec 4),
    let n : Nat := match z.toNat with | 0 => 4 | 1 => 8 | 2 => 2 | _ => 1
    let cap : Op → Nat → Cap := fun o l => if v = 1 then o.r.creg k l else o.r.kreg k
    let off : Op → Nat → DWord := fun o l => .ofInt 64 (o.src .M x l).toInt
    let imm : DWord := if i.ext = .none then .ofInt 64 (i.short.toInt * n) else (immWord i).signExtend 64
    let data : Op → Nat → DWord := fun o l => if n = 8 then o.src64 d l else .ofNat 64 (o.src .M d l).toNat
    let held : Op → Nat → Cap := fun o l => if e = 1 then o.r.creg c l else o.r.kreg c
    let go : Op → Ctr → Dest → Bool → List LaneAcc × KindMasks → State := fun o ct de rd q => o.issue ct de rd q.1 q.2
    let redm : AOp → Op → State := fun a o =>
      go o .st .none true (laneList o.b (cap o) (fun _ => 0x082) (off o) 4 15 (fun l => .red a (.ofNat 64 (o.src .M d l).toNat)) o.lanes)
    WordDoes (.ldReg d sv v k x z m) (fun o => go o .ld (o.dest d sv (n == 8)) false (laneList o.b (cap o) (fun _ => 0x001) (off o) n m (fun _ => .ld) o.lanes)) ∧
    WordDoes (.ldImm d sv v k i z m) (fun o => go o .ld (o.dest d sv (n == 8)) false (laneList o.b (cap o) (fun _ => 0x001) (fun _ => imm) n m (fun _ => .ld) o.lanes)) ∧
    WordDoes (.stReg d v k x z m) (fun o => go o .st .none false (laneList o.b (cap o) (fun _ => 0x002) (off o) n m (fun l => .st (data o l)) o.lanes)) ∧
    WordDoes (.stImm d v k i z m) (fun o => go o .st .none false (laneList o.b (cap o) (fun _ => 0x002) (fun _ => imm) n m (fun l => .st (data o l)) o.lanes)) ∧
    WordDoes (.ldc c 1 v k x) (fun o => go o .ld (.capC c.toNat) false
      (laneList o.b (cap o) (fun _ => 0x001) (off o) 16 15 (fun l => .ldc ((cap o l).perm.getLsbD 2)) o.lanes)) ∧
    WordDoes (.ldc c 0 v k x) (fun o => go o .ld (.capK c.toNat) false
      (laneList o.b (cap o) (fun _ => 0x001) (off o) 16 15 (fun l => .ldc ((cap o l).perm.getLsbD 2)) (o.lanes.take 1))) ∧
    WordDoes (.stc c e v k x) (fun o => go o .st .none false
      (laneList o.b (cap o) (fun l => if (held o l).tag then 0x00A else 0x002) (off o) 16 15 (fun l => .stc (held o l)) o.lanes)) ∧
    WordDoes (.redmAdd d v k x y) (redm (if y = 0 then .addF else .add)) ∧
    WordDoes (.redmMax d v k x y) (redm (if y = 0 then .maxF else if y = 1 then .maxS else .maxU)) ∧
    WordDoes (.redmMin d v k x y) (redm (if y = 0 then .minF else if y = 1 then .minS else .minU))

/-- R231, R234, R237: what performing the one lane of a load, a store or an atomic at a translated place does, where no copy of the line serves it and the
line's bytes are what its world meets there: a load gives the bytes there and changes none; a store writes its bytes and no other; an atomic gives the old
word and writes its new value, or nothing where a compare fails. The word's time is not before the group's, and a write passes the lease of its line. -/
def Obligations.PerformOneLane : Prop :=
  ∀ (y : Sys) (w : Who) (pts pa : Nat) (c : Bool) (a : LaneAcc), a.spad = false → a.pa = some (pa, c) → y.m.wf = true →
    pa % 64 + a.n ≤ 64 → findCopy y.m w.core w.ctx a.va.toNat = none → plainTo y.m w.tag pa = true →
    let d := perform y w pts [a]
    let old : Nat := memNat y.m pa a.n
    pts ≤ d.t ∧
    (a.op = .ld → a.fmt = 15 → d.vals = [(a.lane, .data (.ofNat 64 old))] ∧ d.bad = 0 ∧ (∀ x, memByte d.y.m x = memByte y.m x) ∧
      (lineAt y.m pa).1 ≤ d.t ∧ d.t ≤ (lineAt d.y.m pa).2) ∧
    (∀ v, a.op = .st v → d.vals = [] ∧ d.t = max pts ((lineAt y.m pa).2 + 1) ∧ lineAt d.y.m pa = (d.t, d.t) ∧
      (∀ j, j < a.n → memByte d.y.m (pa + j) = .ofNat 8 (v.toNat / 256 ^ j)) ∧
      (∀ x, x < pa ∨ pa + a.n ≤ x → memByte d.y.m x = memByte y.m x) ∧ (homeOf pa ≠ .host → sideTag (sideAt d.y.m pa) pa = false)) ∧
    (∀ op v, a.op = .atom op v → a.ans = none → d.vals = [(a.lane, .data (.ofNat 64 old))] ∧ (∀ x, x < pa ∨ pa + a.n ≤ x → memByte d.y.m x = memByte y.m x) ∧
      (∀ u, aopEval op a.n (.ofNat 64 old) v = some u → lineAt d.y.m pa = (d.t, d.t) ∧ (lineAt y.m pa).2 < d.t ∧
        ∀ j, j < a.n → memByte d.y.m (pa + j) = .ofNat 8 (u.toNat / 256 ^ j)) ∧
      (aopEval op a.n (.ofNat 64 old) v = none → ∀ x, memByte d.y.m x = memByte y.m x))

/-- R153, R141: the new value of an atomic or delivery on a word of 4 or 8 bytes, in exact integers. -/
def Claims.AtomicOperations : Prop :=
  ∀ (n : Nat) (m v e : DWord), n = 4 ∨ n = 8 →
    let w := 8 * n
    let M := m.toNat % 2 ^ w
    let V := v.toNat % 2 ^ w
    let sM := (BitVec.ofNat w M).toInt
    let sV := (BitVec.ofNat w V).toInt
    let is : AOp → Nat → Prop := fun op x => aopEval op n m v = some (.ofNat 64 x)
    is .add ((M + V) % 2 ^ w) ∧ is .and (M &&& V) ∧ is .or (M ||| V) ∧ is .xor (M ^^^ V) ∧ is .swap V ∧
    is .maxU (max M V) ∧ is .minU (min M V) ∧ is .maxS (if sM < sV then V else M) ∧ is .minS (if sV < sM then V else M) ∧
    (M = e.toNat % 2 ^ w → is (.cas e) V) ∧ (M ≠ e.toNat % 2 ^ w → aopEval (.cas e) n m v = none) ∧
    (n = 4 → is .addF (fadd f32 .rn false M V).bits)

/-- R151 to R157: atomics: the address is the capability's alone; the old value goes to d. The group's scope orders nothing before; a wider one waits for the
group's earlier deliveries and engine commands that it reaches, and does to the group's time and to what the host sees what a fence of that scope and
those kinds does. -/
def Claims.AtomicWords : Prop :=
  ∀ (d b : BitVec 6) (sv v : BitVec 1) (k : BitVec 4) (e : BitVec 3),
    let eff : Nat → (Op → Nat → AOp) → Op → State := fun n f o =>
      let cap : Nat → Cap := fun l => if v = 1 then o.r.creg k l else o.r.kreg k
      let u : Op := { o with s := if e = 0 then o.s else fencePass o.s o.k o.gix e 0xC }
      let q := laneList o.b cap (fun _ => 0x083) (fun _ => 0) n 15 (fun l => .atom (f o l) (if n = 8 then o.src64 b l else .ofNat 64 (o.src .M b l).toNat)) o.lanes
      u.issue .ld (o.dest d sv (n == 8)) false q.1 q.2
    let does : Instr → Nat → (Op → Nat → AOp) → Prop := fun i n f =>
      WordDoesWhen i (fun o => e = 0 ∨ fenceDone o.g e 0xC o.g.nextId = true) (eff n f) ∧
      WordDoesWhen i (fun o => e ≠ 0 ∧ fenceDone o.g e 0xC o.g.nextId = false) (fun o => stallAt o.s0 o.k o.gix o.no (.order e 0xC o.g.nextId))
    does (.amadd32 d sv v k b e) 4 (fun _ _ => .add) ∧ does (.amand32 d sv v k b e) 4 (fun _ _ => .and) ∧ does (.amor32 d sv v k b e) 4 (fun _ _ => .or) ∧
    does (.amxor32 d sv v k b e) 4 (fun _ _ => .xor) ∧ does (.ammaxI32 d sv v k b e) 4 (fun _ _ => .maxS) ∧ does (.ammaxU32 d sv v k b e) 4 (fun _ _ => .maxU) ∧
    does (.amminI32 d sv v k b e) 4 (fun _ _ => .minS) ∧ does (.amminU32 d sv v k b e) 4 (fun _ _ => .minU) ∧ does (.amswap32 d sv v k b e) 4 (fun _ _ => .swap) ∧
    does (.amcas32 d sv v k b e) 4 (fun o l => .cas (.ofNat 64 (o.src .M d l).toNat)) ∧ does (.amaddF32 d sv v k b e) 4 (fun _ _ => .addF) ∧
    does (.amadd64 d sv v k b e) 8 (fun _ _ => .add) ∧ does (.amand64 d sv v k b e) 8 (fun _ _ => .and) ∧ does (.amor64 d sv v k b e) 8 (fun _ _ => .or) ∧
    does (.amxor64 d sv v k b e) 8 (fun _ _ => .xor) ∧ does (.ammaxI64 d sv v k b e) 8 (fun _ _ => .maxS) ∧ does (.ammaxU64 d sv v k b e) 8 (fun _ _ => .maxU) ∧
    does (.amminI64 d sv v k b e) 8 (fun _ _ => .minS) ∧ does (.amminU64 d sv v k b e) 8 (fun _ _ => .minU) ∧ does (.amswap64 d sv v k b e) 8 (fun _ _ => .swap) ∧
    does (.amcas64 d sv v k b e) 8 (fun o l => .cas (o.src64 d l))

/-- R80, R231, R240: a store takes its place: the bytes it stores are in memory, no other byte of memory has changed, its counter falls, and the group's time has
risen past the lease of the line and the last operand read of its `tmma.rel` words. A delivery accepted by its unit leaves its counter without any byte changed. -/
def Claims.StoreTakesPlace : Prop :=
  ∀ s k gix b g p, blockOf s k = some b → b.groups[gix]? = some g → g.out = [p] → p.ctr = .st → p.probe = false → p.unread = false → p.todo = [] → p.flt = [] →
    (∀ a v pa c, p.redm = false → p.buf = [a] → a.spad = false → a.pa = some (pa, c) → a.op = .st v →
      plainTo s.mem (whoOf s b).tag pa = true → s.fab.msgs = [] →
      let u := max (max g.pts g.relTop) ((lineAt s.mem pa).2 + 1)
      Nexts (exec (.storePlaceTaken k gix p.id) s) fun t =>
        (∀ j, j < a.n → memByte t.mem (pa + j) = .ofNat 8 (v.toNat / 256 ^ j)) ∧
        (∀ x, x < pa ∨ pa + a.n ≤ x → memByte t.mem x = memByte s.mem x) ∧ (homeOf pa ≠ .host → sideTag (sideAt t.mem pa) pa = false) ∧
        lineAt t.mem pa = (u, u) ∧ ∃ g', groupOf t k gix = some g' ∧ g'.out = [] ∧ g'.r = g.r ∧ g'.splits = g.splits ∧ g'.pts = u) ∧
    (p.redm = true → Nexts (exec (.storePlaceTaken k gix p.id) s) fun t => t.mem = s.mem ∧
      ∃ g', groupOf t k gix = some g' ∧ g'.out = [{ p with accepted := true, ctr := .free }] ∧ g'.r = g.r ∧ ctrCount g' .st = 0)

/-- R80, R231: the frame of stores: whatever the lanes of an outstanding store, taking its place changes no byte of memory outside the ranges that its lanes
store to, each from its lane's physical address on, 16 bytes for a capability and the word's size otherwise. -/
def Claims.StoreFrame : Prop :=
  ∀ s k gix b g p, blockOf s k = some b → b.groups[gix]? = some g → g.out = [p] → p.ctr = .st → p.redm = false → p.probe = false → p.todo = [] →
    (∀ a ∈ p.buf, shapeOf a.op = .stores) → (if (whoOf s b).tag.isSome then s.mem.past = [] else s.mem.sealed = []) →
    Nexts (exec (.storePlaceTaken k gix p.id) s) fun t => ∀ x,
      (∀ a ∈ p.buf, ∀ pa c, a.spad = false → a.pa = some (pa, c) → x < pa ∨ pa + (match a.op with | .stc _ => 16 | _ => a.n) ≤ x) →
      memByte t.mem x = memByte s.mem x

/-- R80, R82, R86: a load whose every lane has its value puts the values in its destination and leaves its counter; nothing else changes. -/
def Claims.LoadCompletes : Prop :=
  ∀ s k gix b g p r, blockOf s k = some b → b.groups[gix]? = some g → g.out = [p] → p.ctr = .ld → p.probe = false → p.todo = [] → p.flt = [] → p.buf = [] →
    p.dest = .win r none → (p.vals.map (·.1)).Nodup → (∀ e ∈ p.vals, e.1 < 64 ∧ ∃ v, e.2 = .data v) →
    Nexts (exec (.loadCompletion k gix p.id) s) fun t => t.mem = s.mem ∧ (∀ k', k' ≠ k → blockOf t k' = blockOf s k') ∧
      ∃ g', groupOf t k gix = some g' ∧ g' = { g with out := [], r := { g.r with w := g'.r.w } } ∧
        (∀ e ∈ p.vals, mget g'.r.w (64 * r + e.1) 0 = .ofNat 32 e.2.num) ∧
        ∀ key, (∀ e ∈ p.vals, key ≠ 64 * r + e.1) → mget g'.r.w key 0 = mget g.r.w key 0

/-- R80, R86, R134, R237: what the other destinations of a load take: a pair its low and high words; the channel of a queue, at the place that the load
reserved, one entry of all its lanes with the later of the group's time and its acknowledged deliveries; a lane capability register each lane's capability,
and a k register the one loaded, where no sweep is active. -/
def Claims.LoadsDelivered : Prop :=
  ∀ s k gix b g p, blockOf s k = some b → b.groups[gix]? = some g → g.out = [p] → p.ctr = .ld → p.probe = false → p.todo = [] → p.flt = [] → p.buf = [] →
    (p.vals.map (·.1)).Nodup → (∀ e ∈ p.vals, e.1 < 64) →
    let data : Prop := ∀ e ∈ p.vals, ∃ v, e.2 = .data v
    let caps : Prop := (∀ e ∈ p.vals, ∃ c, e.2 = .cap c) ∧ (ctxOf s b.ctx).rv.busy = false
    let gives : (Regs → Prop) → Prop := fun q => Nexts (exec (.loadCompletion k gix p.id) s) fun t => t.mem = s.mem ∧
      ∃ g', groupOf t k gix = some g' ∧ g' = { g with out := [], r := g'.r } ∧ q g'.r
    (∀ r h, p.dest = .win r (some h) → data → r ≠ h → gives fun q => q = { g.r with w := q.w } ∧
      (∀ e ∈ p.vals, mget q.w (64 * r + e.1) 0 = .ofNat 32 e.2.num ∧ mget q.w (64 * h + e.1) 0 = .ofNat 32 (e.2.num / 2 ^ 32)) ∧
      ∀ key, (∀ e ∈ p.vals, key ≠ 64 * r + e.1 ∧ key ≠ 64 * h + e.1) → mget q.w key 0 = mget g.r.w key 0) ∧
    (∀ c h x, p.dest = .chan c → data → mget b.chans c {} = h → h.hold = [x] → x.gix = gix → x.id = p.id → x.val = none →
      Nexts (exec (.loadCompletion k gix p.id) s) fun t => t.mem = s.mem ∧ ∃ b' v, blockOf t k = some b' ∧
        mget b'.chans c {} = { h with ents := h.ents ++ [(v, max g.pts g.redAck)], hold := [] } ∧
        (∀ e ∈ p.vals, mget v e.1 0 = .ofNat 32 e.2.num) ∧ (∀ l, (∀ e ∈ p.vals, l ≠ e.1) → mget v l 0 = 0) ∧
        (∀ d, d ≠ c → mget b'.chans d {} = mget b.chans d {}) ∧ ∃ g', b'.groups[gix]? = some g' ∧ g' = { g with out := [] }) ∧
    (∀ n, p.dest = .capC n → caps → gives fun q => q = { g.r with c := q.c } ∧ (∀ e ∈ p.vals, .cap (mget q.c (64 * n + e.1) {}) = e.2) ∧
      ∀ key, (∀ e ∈ p.vals, key ≠ 64 * n + e.1) → mget q.c key {} = mget g.r.c key {}) ∧
    (∀ n l c, p.dest = .capK n → caps → p.vals = [(l, .cap c)] → gives fun q => q = { g.r with k := q.k } ∧ mget q.k n {} = c ∧
      ∀ m, m ≠ n → mget q.k m {} = mget g.r.k m {})

/-- R141, R239: a delivery of one lane is applied by its unit: the word there takes the operation's result, no other byte changes, and the time of the line and
the group's acknowledged time are one past the line's lease; that of deliveries to other VX9s is kept apart (R233). -/
def Claims.DeliveryApplied : Prop :=
  ∀ s k gix b g p a v pa c op u, blockOf s k = some b → b.groups[gix]? = some g → g.out = [p] → p.redm = true → p.todo = [] → p.flt = [] →
    p.buf = [a] → a.spad = false → a.n = 4 → a.pa = some (pa, c) → a.op = .red op v → plainTo s.mem (whoOf s b).tag pa = true →
    aopEval op 4 (.ofNat 64 (memNat s.mem pa 4)) v = some u →
    Nexts (exec (.redmDeliveryApply k gix p.id) s) fun t =>
      (∀ j, j < 4 → memByte t.mem (pa + j) = .ofNat 8 (u.toNat / 256 ^ j)) ∧ (∀ x, x < pa ∨ pa + 4 ≤ x → memByte t.mem x = memByte s.mem x) ∧
      lineAt t.mem pa = ((lineAt s.mem pa).2 + 1, (lineAt s.mem pa).2 + 1) ∧
      ∃ g', groupOf t k gix = some g' ∧ g'.out = [] ∧ g'.pts = g.pts ∧
        (a.far = false → g'.redAck = max g.redAck ((lineAt s.mem pa).2 + 1) ∧ g'.redFar = g.redFar) ∧
        (a.far = true → g'.redFar = max g.redFar ((lineAt s.mem pa).2 + 1) ∧ g'.redAck = g.redAck)

/-- R136: full and empty granules. A load with every granule full issues after the group's earlier stores; with one empty its split waits before any effect, asked of the
lanes that pass their check (the model's reading, log entry 99); a store and both loads trap on a stash region, read-only or not. -/
def Claims.FullEmptyWords : Prop :=
  ∀ (d x : BitVec 6) (sv v z : BitVec 1) (k : BitVec 4) (clr : Bool),
    let n : Nat := if z = 1 then 8 else 4
    let i : Instr := if clr then .ldfeClr d sv v k x z else .ldfe d sv v k x z
    let cap : Op → Nat → Cap := fun o l => if v = 1 then o.r.creg k l else o.r.kreg k
    let off : Op → Nat → DWord := fun o l => .ofInt 64 (o.src .M x l).toInt
    let ld : Op → List LaneAcc × KindMasks := fun o => laneList o.b (cap o) (fun _ => 0x201) (off o) n 15 (fun _ => .ldfe clr) o.lanes
    let data : Op → Nat → DWord := fun o l => if n = 8 then o.src64 d l else .ofNat 64 (o.src .M d l).toNat
    let st : Op → List LaneAcc × KindMasks := fun o => laneList o.b (cap o) (fun _ => 0x202) (off o) n 15 (fun l => .stfe (data o l)) o.lanes
    let on : Op → List LaneAcc × KindMasks := fun o => laneList o.b (cap o) (fun _ => 0x202) (off o) n 15 (fun _ => .ldfe false) o.lanes
    let t : Op → State := fun o => placeStores o.s o.k o.gix o.g.nextId
    let free : Op → Prop := fun o => inStash o.b (ld o).1 = false ∧ unconfirmed o.g = false
    (∀ b, WordDoesWhen i (fun o => free o ∧ blockOf (t o) o.k = some b ∧ ∀ a ∈ (ld o).1, spFull b.spad a.va.toNat = true)
      (fun o => ({ o with s := t o, b := b, g := (b.groups[o.gix]?).getD o.g } : Op).issue .ld (o.dest d sv (n == 8)) false (ld o).1 (ld o).2)) ∧
    (∀ b, WordDoesWhen i (fun o => free o ∧ blockOf (t o) o.k = some b ∧ ∃ a ∈ (ld o).1, spFull b.spad a.va.toNat = false)
      (fun o => stallAt o.s0 o.k o.gix o.no (.granule ((ld o).1.map (·.va.toNat))))) ∧
    WordDoesWhen i (fun o => inStash o.b (ld o).1 = true) (fun o => o.raise 0x0B) ∧
    WordDoesWhen (.stfe d v k x z) (fun o => inStash o.b (on o).1 = false) (fun o => o.issue .st .none false (st o).1 (st o).2) ∧
    WordDoesWhen (.stfe d v k x z) (fun o => inStash o.b (on o).1 = true) (fun o => o.raise 0x0B)

/-- R136: on scratchpad, an `stfe` writes its bytes and fills its granule; an `ldfe.clr` empties it; neither touches memory. -/
def Claims.GranuleFullness : Prop :=
  ∀ (y : Sys) (w : Who) (a : LaneAcc) (v : DWord), a.spad = true → stashAt y.b a.va.toNat = none →
    let o := a.va.toNat
    (let r := (applyLane y w { a with op := .stfe v }).1
     r.m = y.m ∧ spFull r.b.spad o = true ∧ spTag r.b.spad o = false ∧ (∀ j, j < a.n → spByte r.b.spad (o + j) = .ofNat 8 (v.toNat / 256 ^ j)) ∧
       (∀ x, x < o ∨ o + a.n ≤ x → spByte r.b.spad x = spByte y.b.spad x) ∧ ∀ x, x / 16 ≠ o / 16 → spFull r.b.spad x = spFull y.b.spad x) ∧
    (let r := (applyLane y w { a with op := .ldfe true }).1
     r.m = y.m ∧ spFull r.b.spad o = false ∧ (∀ x, spByte r.b.spad x = spByte y.b.spad x) ∧ ∀ x, x / 16 ≠ o / 16 → spFull r.b.spad x = spFull y.b.spad x) ∧
    (applyLane y w { a with op := .ldfe false }).1 = y

/-- R137 to R139: stash regions mapped, unmapped and flushed, and patterns bound. Limits and counts that are broken trap before any effect; a region's
capability that fails its check is the capability trap of its kind, and so is a pattern's; write-backs are an outstanding word of counter 1, held back at
63. That removing where no region begins does nothing, and that a scratchpad capability for a region has kind perm after tag and seal, is the model's
reading (log entry 42). -/
def Claims.StashAndPatternWords : Prop :=
  ∀ (a b : BitVec 5) (k : BitVec 4) (p : BitVec 2) (r : Stash),
    let lo : Op → Nat := fun o => (o.r.sc a).toNat
    let len : Op → Nat := fun o => (o.r.sc b).toNat
    let c : Op → Cap := fun o => o.r.kreg k
    let fits : Op → Prop := fun o => lo o % 64 = 0 ∧ len o % 64 = 0 ∧ (c o).addr.toNat % 64 = 0 ∧ lo o + len o ≤ o.b.spad.size ∧ o.b.stash.length < 4 ∧
      ∀ q ∈ o.b.stash, q.at0 + q.len ≤ lo o ∨ lo o + len o ≤ q.at0
    let kind : Op → Kind := fun o => match capCheck (c o) 0x001 (c o).addr (len o) 64 o.b.spad.size with
      | .tag => .tag
      | .sealed => .sealed
      | q => if len o ≠ 0 ∧ isSpad (c o) then .perm else q
    let unmaps : Op → Prop := fun o => len o = 0 ∧ lo o % 64 = 0 ∧ lo o ≤ o.b.spad.size ∧ (c o).addr.toNat % 64 = 0
    let flushes : Op → Prop := fun o => lo o % 64 = 0 ∧ len o % 64 = 0 ∧ lo o + len o ≤ o.b.spad.size
    let out : Op → List (Nat × Nat) → Option Nat → State := fun o ls m =>
      if ctrCount o.g .st < 63 then startFlush o.s o.k o.gix { id := 0, ctr := .st, pkt := o.sp.pc, split := o.no, wix := o.sp.word, lines := ls, unmap := m }
      else stallAt o.s0 o.k o.gix o.no (.counter .st)
    let bad : Op → Prop := fun o => bits (o.r.sc a) 0 16 = 0 ∨ bits (o.r.sc a) 16 16 = 0 ∨ bits (o.r.sc a) 32 16 = 0 ∨ bits (o.r.sc a) 48 16 ≠ 0 ∨ (o.r.sc b).getLsbD 63 = true
    WordDoesWhen (.smap a b k) (fun o => 0 < len o ∧ fits o ∧ kind o = .none)
      (fun o => modBlock (placeStores o.s o.k o.gix o.g.nextId) o.k fun b =>
        { b with stash := b.stash ++ [{ at0 := lo o, len := len o, cap := c o, fill := [], dirty := [] }] }) ∧
    WordDoesWhen (.smap a b k) (fun o => ((0 < len o ∧ fits o) ∨ unmaps o) ∧ kind o ≠ .none)
      (fun o => addCapTrap o.s o.k o.gix o.no (o.req 0x0A) (addKind {} (kind o) o.act)) ∧
    WordDoesWhen (.smap a b k) (fun o => 0 < len o ∧ ¬ fits o) (fun o => o.raise 0x0B) ∧
    WordDoesWhen (.smap a b k) (fun o => len o = 0 ∧ ¬ unmaps o) (fun o => o.raise 0x0B) ∧
    WordDoesWhen (.smap a b k) (fun o => unmaps o ∧ kind o = .none ∧ o.b.stash.find? (fun q => q.at0 == lo o) = none) (fun o => o.s) ∧
    WordDoesWhen (.smap a b k) (fun o => unmaps o ∧ kind o = .none ∧ o.b.stash.find? (fun q => q.at0 == lo o) = some r)
      (fun o => out o (stashLines o.b (lo o) r.len) (some (lo o))) ∧
    WordDoesWhen (.sflush a b) flushes (fun o => out o (stashLines o.b (lo o) (len o)) none) ∧
    WordDoesWhen (.sflush a b) (fun o => ¬ flushes o) (fun o => o.raise 0x0B) ∧
    WordDoesWhen (.patset p k a b) (fun o => o.r.sc a = 0) (fun o => o.mod fun g => { g with pat := merase g.pat p.toNat }) ∧
    WordDoesWhen (.patset p k a b) (fun o => o.r.sc a ≠ 0 ∧ bad o) (fun o => o.raise 0x0C) ∧
    WordDoesWhen (.patset p k a b) (fun o => o.r.sc a ≠ 0 ∧ ¬ bad o ∧ capCheck (c o) 0x001 (c o).addr 0 1 o.b.spad.size = .none)
      (fun o => o.mod fun g => { g with pat := minsert g.pat p.toNat { cap := c o, sa := o.r.sc a, sb := o.r.sc b, pos := 0 } }) ∧
    ∀ q, q ≠ .none → WordDoesWhen (.patset p k a b)
      (fun o => o.r.sc a ≠ 0 ∧ ¬ bad o ∧ capCheck (c o) 0x001 (c o).addr 0 1 o.b.spad.size = q)
      (fun o => addCapTrap o.s o.k o.gix o.no (o.req 0x0A) (addKind {} q o.act))

/-- R137, R303: the write-backs of a word that are all made at once leave no outstanding word of it, and remove the region where the word unmaps one; where a
line's address is not translated, the word stays outstanding with that address to look for and the lines still to write (the model's reading, log entry
43). -/
def Claims.FlushWords : Prop :=
  ∀ s k gix p g, groupOf s k gix = some g → (∀ q ∈ g.out, q.id < g.nextId) →
    let s1 := modGroup s k gix fun g => { g with nextId := g.nextId + 1, out := g.out ++ [{ p with id := g.nextId, inTrap := g.tmode.isSome, probe := true, src := 2, need := 2 }] }
    let n := g.nextId
    ∀ t ls, (flushLines k gix p.lines (placeStores s1 k gix g.nextId) = (t, ls, none) → startFlush s k gix p =
      modGroup (modBlock t k fun b => { b with stash := b.stash.filter fun q => p.unmap != some q.at0 }) k gix fun g =>
        { g with out := g.out.filter fun q => q.id != n }) ∧
    ∀ va l, flushLines k gix p.lines (placeStores s1 k gix g.nextId) = (t, ls, some (va, l)) → startFlush s k gix p =
      modGroup t k gix fun h => { h with out := h.out.map fun q => if q.id = g.nextId then
        { q with lines := ls, todo := [{ lane := 0, spad := false, va := .ofNat 64 va, n := 64, fmt := 15, op := .ld }] } else q }

/-- R138, R241: a write-back of a stash line that the core makes of its own accord, its line translated: the dirty bytes reach memory past the lease of their
line and no other byte of memory changes; they are dirty no longer, the scratchpad is as before, and the next read of the line fills it again. -/
def Claims.StashWriteBack : Prop :=
  ∀ s k i ln b r (q : Spot), blockOf s k = some b → b.stash[i]? = some r → s.mem.wf = true → r.len % 64 = 0 → 64 * ln < r.len →
    (∃ j, j < 64 ∧ mget r.dirty (64 * ln + j) 0 ≠ 0) →
    (∀ o, lookVa s (whoOf s b) (r.cap.addr.toNat + 64 * ln) 64 needW o = .ok q) → q.pa % 64 = 0 →
    plainTo s.mem (whoOf s b).tag q.pa = true →
    Nexts (exec (.stashWriteback k i ln) s) fun t =>
      (∀ j, j < 64 → memByte t.mem (q.pa + j) =
        if mget r.dirty (64 * ln + j) 0 ≠ 0 then spByte b.spad (r.at0 + 64 * ln + j) else memByte s.mem (q.pa + j)) ∧
      (∀ x, x < q.pa ∨ q.pa + 64 ≤ x → memByte t.mem x = memByte s.mem x) ∧
      lineAt t.mem q.pa = ((lineAt s.mem q.pa).2 + 1, (lineAt s.mem q.pa).2 + 1) ∧
      ∃ b', blockOf t k = some b' ∧ b' = { b with stash := b'.stash, wbTop := max b.wbTop ((lineAt s.mem q.pa).2 + 1) } ∧
        ∃ r', b'.stash[i]? = some r' ∧ r' = { r with dirty := r'.dirty, fill := r'.fill } ∧
        (∀ f, mfind r.fill ln = some f → mfind r'.fill ln = some { f with stale := true }) ∧
        (∀ j, j < 64 → mget r'.dirty (64 * ln + j) 0 = 0) ∧ ∀ x, x < 64 * ln ∨ 64 * ln + 64 ≤ x → mget r'.dirty x 0 = mget r.dirty x 0

/-! ### Transactions -/

/-- R161 to R167: transactions opened, committed and aborted. A second `txbeg` of a split aborts whether or not a number is free (the model's choice, log
entry 103). -/
def Claims.TransactionWords : Prop :=
  ∀ (d : BitVec 6) (n : BitVec 8) (q : Nat),
    let own : Op → List (Nat × Tx) := fun o => o.g.tx.filter fun (l, x) => x.split == o.no && o.act.getLsbD l
    let code : Op → Nat → State := fun o cause => o.modR fun r => o.lanes.foldl (fun r l => txCode r o.b.v.p o.r.base d l cause 0) r
    WordDoesWhen (.txbeg d) (fun o => txOfSplit o.g o.no = [] ∧ freeNumber o.g = some q)
      (fun o => modGroup (code o 0) o.k o.gix fun g => { g with tx := o.lanes.foldl (fun m l => minsert m l
        { d := d, base := o.r.base, pkt := o.sp.pc, split := o.no, age := 0, rsv := q, live := false, reads := [], writes := [] }) g.tx }) ∧
    WordDoesWhen (.txbeg d) (fun o => txOfSplit o.g o.no = [] ∧ freeNumber o.g = none)
      (fun o => { modGroup (code o 11) o.k o.gix (·.modSplit o.no (·.goto (o.sp.pc + 1))) with jumped := true }) ∧
    WordDoesWhen (.txbeg d) (fun o => txOfSplit o.g o.no ≠ []) (fun o => { abortTx o.s o.k o.gix o.no 7 0 with jumped := true }) ∧
    WordDoesWhen .txend (fun o => own o = []) (fun o => o.s) ∧
    WordDoesWhen .txend (fun o => own o ≠ [] ∧ o.g.out = [] ∧ txWinners [] (own o) = own o ∧ ∀ x ∈ own o, txValid o.s.mem x.2 = true)
      (fun o => txCommit (placeStores (deliverAll o.s o.k o.gix) o.k o.gix o.g.nextId) o.k o.gix (own o)) ∧
    WordDoesWhen (.txabort n) (fun o => own o = []) (fun o => o.s) ∧
    WordDoesWhen (.txabort n) (fun o => own o ≠ []) (fun o => { abortTx o.s o.k o.gix o.no 5 n.toNat with jumped := true })

/-- R165: the abort code of a lane: cause in bits 7 to 0, detail above, and the flags: Z for a start, C for causes that may pass on a retry, N for the program's own
abort, V for the capacity. -/
def Claims.AbortCode : Prop :=
  ∀ (r : Regs) (P base l cause detail : Nat) (d : BitVec 6), l < 64 → cause < 256 → detail < 2 ^ 24 →
    let q := txCode r P base d l cause detail
    mget q.w (64 * physOf P base d.toNat + l) 0 = .ofNat 32 (cause + 256 * detail) ∧
    q.cc l = { c := decide (cause ∈ [1, 2, 8, 10, 11, 12]), z := decide (cause = 0), n := decide (cause = 5), v := decide (cause ∈ [3, 4]) } ∧
    ∀ m, m < 64 → m ≠ l → q.cc m = r.cc m

/-- R164: a commit of disjoint valid lanes writes every buffered byte of memory at one time and no other byte; its lanes' transactions are over. -/
def Claims.CommitWritesBuffers : Prop :=
  ∀ s k gix b g l x a v pa c, blockOf s k = some b → b.groups[gix]? = some g → mfind g.tx l = some x → x.writes = [a] → a.spad = false → a.pa = some (pa, c) →
    a.op = .st v → plainTo s.mem (whoOf s b).tag pa = true →
    let t := txCommit s k gix [(l, x)]
    (∀ j, j < a.n → memByte t.mem (pa + j) = .ofNat 8 (v.toNat / 256 ^ j)) ∧ (∀ y, y < pa ∨ pa + a.n ≤ y → memByte t.mem y = memByte s.mem y) ∧
    ∃ g', groupOf t k gix = some g' ∧ g'.r = g.r ∧ g'.tx = merase g.tx l ∧ g.pts ≤ g'.pts ∧ (lineAt s.mem pa).2 < g'.pts ∧ lineAt t.mem pa = (g'.pts, g'.pts)

/-- R163: a transaction open for more than 65,536 of its group's cycles aborts with cause 12: its lanes' transactions end and its split goes to the packet after its `txbeg`. -/
def Claims.TransactionExpires : Prop :=
  ∀ s k gix l g x, groupOf s k gix = some g → mfind g.tx l = some x → g.tx = [(l, x)] → g.out = [] → 4 * 65536 < x.age →
    Nexts (exec (.txDurationExpiry k gix l) s) fun t => t.mem = s.mem ∧ ∃ g', groupOf t k gix = some g' ∧ g'.tx = [] ∧
      (∀ p ∈ g'.splits, p.no = x.split → p.pc = x.pkt + 1 ∧ p.word = 0) ∧ (∀ p ∈ g'.splits, p.no ≠ x.split → p ∈ g.splits)

end

/-- What an access is checked for, lane by lane. -/
def Obligations.AccessChecks : Prop :=
  Claims.AccessCheck ∧ Claims.AccessLanes

/-- Accesses at their issue. -/
def Obligations.AccessIssue : Prop :=
  Claims.AccessCounted ∧ Claims.LoadAndStoreWords

/-- Atomic operations and words. -/
def Obligations.Atomics : Prop :=
  Claims.AtomicOperations ∧ Claims.AtomicWords

/-- A store writes its bytes and no others. -/
def Obligations.StoresTakeTheirPlace : Prop :=
  Claims.StoreTakesPlace ∧ Claims.StoreFrame

/-- Loads and deliveries complete. -/
def Obligations.LoadsAndDeliveriesComplete : Prop :=
  Claims.LoadCompletes ∧ Claims.LoadsDelivered ∧ Claims.DeliveryApplied

/-- Full and empty granules. -/
def Obligations.FullAndEmpty : Prop :=
  Claims.FullEmptyWords ∧ Claims.GranuleFullness

/-- Stash regions, patterns and write-back. -/
def Obligations.StashAndPatterns : Prop :=
  Claims.StashAndPatternWords ∧ Claims.FlushWords ∧ Claims.StashWriteBack

/-- Transactions. -/
def Obligations.Transactions : Prop :=
  Claims.TransactionWords ∧ Claims.AbortCode ∧ Claims.CommitWritesBuffers ∧ Claims.TransactionExpires

section
open Sys2Proof Sys2Proof.Machine

/-! ### Tiles -/

/-- R171 to R176, R178 to R180: tile words at their issue. The lowest run of free banks is acquired and noted to be zeroed; none leaves s[d] all ones. A
release, a zeroing, a drain and a `tmma` go to the sequencer, the last three counted in counter 3; a band is claimed, given up with 0 rows, and may not meet
another group's. A `tmma` whose operands, descriptor or rows are bad traps before any effect: an operand capability with the capability trap, its kind
in every active lane (of two bad operands the first's kind is the model's choice, log entry 138), then the descriptor, then the rows. -/
def Obligations.TileWords : Prop :=
  ∀ (a b : BitVec 5) (n : BitVec 6) (d : BitVec 6) (sv : BitVec 1) (i : Nat) (x y : BitVec 4) (e : BitVec 3) (l z : BitVec 1),
    let cnt := n.toNat + 1
    let lo : Op → Nat := fun o => (o.r.sc a).toNat
    let rows : Op → Nat := fun o => (o.r.sc b).toNat
    let freeAt : Op → Nat → Prop := fun o i => i + cnt ≤ o.b.v.b ∧ ∀ j, j < cnt → o.b.acq.getLsbD (i + j) = false
    let held : Op → Nat → Nat → Prop := fun o f c => f + c ≤ o.b.v.b ∧ ∀ j, j < c → o.b.acq.getLsbD (f + j) = true
    let room : Op → Prop := fun o => o.b.v.b ≤ 64 ∧ ctrCount o.g .mat < 63
    let other : Op → Prop := fun o => ∃ (j : Nat) (g : Group) (lo' n' : Nat), o.b.groups[j]? = some g ∧ j ≠ o.gix ∧ g.band = some (lo', n') ∧
      lo o < lo' + n' ∧ lo' < lo o + rows o
    let row : Op → Nat := fun o => (o.r.sc a).toNat % 2 ^ 11
    let col : Op → Nat := fun o => (o.r.sc a).toNat / 2 ^ 16 % 2 ^ 7
    let live : Op → Nat → Prop := fun o l => (∃ lo n, o.g.band = some (lo, n) ∧ lo ≤ row o ∧ row o < lo + n) ∧ row o < 16 * o.b.v.b ∧
      o.b.acq.getLsbD (row o / 16) = true ∧ col o + l ≤ 127
    let ka : Op → Cap := fun o => o.r.kreg x
    let kb : Op → Cap := fun o => o.r.kreg y
    let q : Op → Desc := fun o => descOf (o.r.sc b) (o.r.sc (b + 1))
    let good : Cap → Prop := fun c => c.tag = true ∧ c.otype = 0 ∧ c.perm.getLsbD 0 = true ∧ c.addr.toNat % 64 = 0
    let fails : Cap → Kind → Prop := fun c kd => kd = (if c.tag = false then .tag else if c.otype ≠ 0 then .sealed
      else if c.perm.getLsbD 0 = false then .perm else if c.addr.toNat % 64 ≠ 0 then .align else .none) ∧ kd ≠ .none
    let desc : Op → Prop := fun o => bits (o.r.sc b) 52 12 = 0 ∧ bits (o.r.sc b) 0 3 = 0 ∧ (q o).col0 + (q o).N ≤ 128 ∧ (q o).lda % 64 = 0 ∧ (q o).ldb % 64 = 0
    let f : Op → Nat := fun o => (q o).row0 / 16
    let c : Op → Nat := fun o => ((q o).row0 + (q o).M - 1) / 16 + 1 - f o
    WordDoesWhen (.tacq a n) (fun o => o.b.v.b ≤ 64 ∧ freeAt o i ∧ ∀ m, m < i → ¬ freeAt o m)
      (fun o => modBlock (o.modR fun r => r.putSc a (.ofNat 64 i)) o.k fun b => { b with acq := b.acq ||| bankMask i cnt, tiles := b.tiles ++ [.fresh i cnt] }) ∧
    WordDoesWhen (.tacq a n) (fun o => o.b.v.b ≤ 64 ∧ ∀ m, ¬ freeAt o m) (fun o => o.modR fun r => r.putSc a (.allOnes 64)) ∧
    WordDoesWhen (.trel a n) (fun o => lo o + cnt ≤ o.b.v.b)
      (fun o => modBlock o.s o.k fun b => { b with acq := b.acq &&& ~~~bankMask (lo o) cnt, tiles := b.tiles ++ [.trel (lo o) cnt] }) ∧
    WordDoesWhen (.trel a n) (fun o => o.b.v.b < lo o + cnt) (fun o => o.raise 0x0D) ∧
    WordDoesWhen (.tzero a n) (fun o => room o ∧ held o (lo o) cnt) (tileQueued { id := 0, ctr := .mat } fun o id => .tzero o.gix id (lo o) cnt) ∧
    WordDoesWhen (.tzero a n) (fun o => o.b.v.b ≤ 64 ∧ ¬ held o (lo o) cnt) (fun o => o.raise 0x0D) ∧
    WordDoesWhen (.tzero a n) (fun o => 63 ≤ ctrCount o.g .mat ∧ o.b.v.b ≤ 64 ∧ held o (lo o) cnt) (fun o => stallAt o.s0 o.k o.gix o.no (.counter .mat)) ∧
    WordDoesWhen (.tclaim a b) (fun o => rows o = 0) (fun o => o.mod fun g => { g with band := none }) ∧
    WordDoesWhen (.tclaim a b) (fun o => rows o ≠ 0 ∧ lo o + rows o ≤ 16 * o.b.v.b ∧ ¬ other o) (fun o => o.mod fun g => { g with band := some (lo o, rows o) }) ∧
    WordDoesWhen (.tclaim a b) (fun o => rows o ≠ 0 ∧ (16 * o.b.v.b < lo o + rows o ∨ other o)) (fun o => o.raise 0x0E) ∧
    (∀ ls zs : List Nat, WordDoesWhen (.tdrain d sv a) (fun o => room o ∧ (∀ l ∈ o.lanes, l ∈ ls ↔ live o l) ∧ (∀ l ∈ o.lanes, l ∈ zs ↔ ¬ live o l) ∧
        ls.Sublist o.lanes ∧ zs.Sublist o.lanes)
      (fun o => tileQueued { id := 0, ctr := .mat, dest := o.dest d sv false } (fun o id => .tdrain o.gix id (ls.map fun l => (l, col o + l)) (row o) (maskOf zs)) o)) ∧
    WordDoesWhen (.tmma x y b e 0 l z) (fun o => room o ∧ good (ka o) ∧ good (kb o) ∧ desc o ∧ held o (f o) (c o))
      (fun o => tileQueued { id := 0, ctr := .mat, rel := l == 1, mma := true } (fun o id => .tmma o.gix id o.sp.pc (ka o) (kb o) (o.r.sc b) (o.r.sc (b + 1)) (z == 1) false (l == 1)
        (((groupOf o.s o.k o.gix).map (·.pts)).getD 0) 0 none none 0) o) ∧
    WordDoesWhen (.tmma x y b e 1 l z) (fun o => room o ∧ good (ka o) ∧ good (kb o) ∧ desc o ∧ held o (f o) (c o))
      (fun o => let t := placeStores o.s o.k o.gix o.g.nextId
        tileQueued { id := 0, ctr := .mat, rel := l == 1, mma := true } (fun o id => .tmma o.gix id o.sp.pc (ka o) (kb o) (o.r.sc b) (o.r.sc (b + 1)) (z == 1) true (l == 1)
          (((groupOf t o.k o.gix).map (·.pts)).getD 0) 0 none none 0) { o with s := t }) ∧
    (∀ q kd, WordDoesWhen (.tmma x y b e q l z) (fun o => fails (ka o) kd ∨ (good (ka o) ∧ fails (kb o) kd))
      (fun o => addCapTrap o.s o.k o.gix o.no (o.req 0x0A) (addKind {} kd o.act))) ∧
    (∀ q, WordDoesWhen (.tmma x y b e q l z) (fun o => good (ka o) ∧ good (kb o) ∧ ¬ desc o) (fun o => o.raise 0x0F) ∧
      WordDoesWhen (.tmma x y b e q l z) (fun o => o.b.v.b ≤ 64 ∧ good (ka o) ∧ good (kb o) ∧ desc o ∧ ¬ held o (f o) (c o)) (fun o => o.raise 0x0D))

/-- R172 to R176, R178: where tile words complete. From every state in which one begins, under conditions on its operands alone, it gives a next state: a
`tacq` whatever is free, a `trel` of banks within the block, a `tclaim` of no rows, or of rows within it that no other group has claimed, a `tzero` of
acquired banks and a `tdrain` with counter 3 below 63, and a `tmma` whose operands, descriptor and rows are good. What each writes first is as `TileWords`
says; here: the scalar, bank, band and counter that it leaves in its block. -/
def Obligations.TileWordsComplete : Prop :=
  ∀ (a b : BitVec 5) (n d : BitVec 6) (sv : BitVec 1) (x y : BitVec 4) (e : BitVec 3) (q l z : BitVec 1) (s : State) (o : Op) (bl : Block) (g : Group),
    blockOf o.s o.k = some bl → bl.groups[o.gix]? = some g → o.b.v.b ≤ 64 →
    let cnt := n.toNat + 1
    let lo := (o.r.sc a).toNat
    let rows := (o.r.sc b).toNat
    let held : Nat → Nat → Prop := fun f c => f + c ≤ o.b.v.b ∧ ∀ j, j < c → o.b.acq.getLsbD (f + j) = true
    let good : Cap → Prop := fun c => c.tag = true ∧ c.otype = 0 ∧ c.perm.getLsbD 0 = true ∧ c.addr.toNat % 64 = 0
    let w0 := (o.r.sc b).toNat
    let w1 := (o.r.sc (b + 1)).toNat
    let row0 := w0 / 2 ^ 10 % 2 ^ 11
    let M := w0 / 2 ^ 21 % 2 ^ 11 + 1
    let after : Instr → (Block → Group → Prop) → Prop := fun i p =>
      wordOp i s = some o → Nexts (exec i s) fun t => ∃ b' g', blockOf t o.k = some b' ∧ b'.groups[o.gix]? = some g' ∧ p b' g'
    let queued : Block → Group → Prop := fun b' g' => ctrCount g' .mat = ctrCount g .mat + 1 ∧ b'.acq = bl.acq ∧ b'.tiles.length = bl.tiles.length + 1 ∧
      g'.band = g.band ∧ g'.r = g.r
    after (.tacq a n) (fun b' g' => g'.band = g.band ∧ (g'.r = g.r.putSc a (.allOnes 64) ∧ b'.acq = bl.acq ∨
      ∃ i, i + cnt ≤ o.b.v.b ∧ g'.r = g.r.putSc a (.ofNat 64 i) ∧ b'.acq = bl.acq ||| .ofNat 64 (2 ^ i * (2 ^ cnt - 1)))) ∧
    (lo + cnt ≤ o.b.v.b → after (.trel a n) fun b' g' => g' = g ∧ b'.acq = bl.acq &&& ~~~(.ofNat 64 (2 ^ lo * (2 ^ cnt - 1)))) ∧
    (rows = 0 ∨ (lo + rows ≤ 16 * o.b.v.b ∧ ∀ j h lo' n', o.b.groups[j]? = some h → j ≠ o.gix → h.band = some (lo', n') → lo' + n' ≤ lo ∨ lo + rows ≤ lo') →
      after (.tclaim a b) fun b' g' => g' = { g with band := if rows = 0 then none else some (lo, rows) } ∧ b'.acq = bl.acq ∧ b'.tiles = bl.tiles) ∧
    (ctrCount o.g .mat < 63 → held lo cnt → after (.tzero a n) queued) ∧
    (ctrCount o.g .mat < 63 → after (.tdrain d sv a) queued) ∧
    (ctrCount o.g .mat < 63 → good (o.r.kreg x) → good (o.r.kreg y) → w0 / 2 ^ 52 = 0 → w0 % 8 = 0 →
      w0 / 8 % 2 ^ 7 + (w0 / 2 ^ 32 % 2 ^ 8 + 1) ≤ 128 → w1 % 2 ^ 32 % 64 = 0 → w1 / 2 ^ 32 % 64 = 0 →
      held (row0 / 16) ((row0 + M - 1) / 16 + 1 - row0 / 16) → after (.tmma x y b e q l z) queued)

/-- R172, R174, R176, R274: what the sequencer does, where it may step, with the bank and drain words at the head of a block's queue: banks zeroed to +0 and no other element
changed, counter 3 falling for a `tzero`; a drain's lanes given their elements, and 0 where they had none. -/
def Claims.TilePerform : Prop :=
  ∀ s k b gix id rest, blockOf s k = some b → mayStep s b = true →
    (∀ first count, (∀ g, b.groups[gix]? = some g → ∀ p ∈ g.out, p.id = id) → b.tiles = .tzero gix id first count :: rest →
      Nexts (exec (.tzeroPerform k) s) fun t => ∃ b', blockOf t k = some b' ∧ b'.tiles = rest ∧ b'.acq = b.acq ∧
        (∀ row col, col < 128 → mget b'.acc (128 * row + col) 0 = if first ≤ row / 16 ∧ row / 16 < first + count then 0 else mget b.acc (128 * row + col) 0) ∧
        ∀ g, b'.groups[gix]? = some g → g.out = []) ∧
    (∀ first count, b.tiles = .fresh first count :: rest →
      Nexts (exec (.tzeroPerform k) s) fun t => ∃ b', blockOf t k = some b' ∧ b' = { b with tiles := rest, acc := b'.acc } ∧
        ∀ row col, col < 128 → mget b'.acc (128 * row + col) 0 = if first ≤ row / 16 ∧ row / 16 < first + count then 0 else mget b.acc (128 * row + col) 0) ∧
    (∀ first count, b.tiles = .trel first count :: rest →
      Nexts (exec (.trelPerform k) s) fun t => blockOf t k = some { b with tiles := rest } ∧ t.mem = s.mem ∧ ∀ j, j ≠ k → blockOf t j = blockOf s j) ∧
    (∀ lanes row zeros g p r, b.tiles = .tdrain gix id lanes row zeros :: rest → b.groups[gix]? = some g → g.out = [p] → p.id = id → p.dest = .win r none → p.mma = false → p.rel = false →
      lanes.Pairwise (fun x y => x.1 ≠ y.1) → (∀ x ∈ lanes, x.1 < 64 ∧ zeros.getLsbD x.1 = false) →
      Nexts (exec (.tdrainPerform k) s) fun t => t.mem = s.mem ∧ ∃ b' g', blockOf t k = some b' ∧ b'.tiles = rest ∧ b'.acc = b.acc ∧
        b'.groups[gix]? = some g' ∧ g' = { g with out := [], az := g.az || zeros != 0, r := { g.r with w := g'.r.w } } ∧
        (∀ x ∈ lanes, mget g'.r.w (64 * r + x.1) 0 = mget b.acc (128 * row + x.2) 0) ∧
        (∀ l, l < 64 → zeros.getLsbD l = true → mget g'.r.w (64 * r + l) 0 = 0) ∧
        ∀ key, (∀ x ∈ lanes, key ≠ 64 * r + x.1) → (∀ l, l < 64 → zeros.getLsbD l = true → key ≠ 64 * r + l) → mget g'.r.w key 0 = mget g.r.w key 0)

/-- R65, R181: one step of a `tmma` whose operands can be read: the elements of up to 16 rows by N columns each take their value plus the exact dot product of
one K block, rounded once (from +0 at the first K block with `.z`); no other element changes; the word goes on to its next step, or is over. -/
def Claims.MatrixStep : Prop :=
  ∀ s k b gix id pkt ka kb d0 d1 z rel pts step fa fb rest s1 t1 s2 t2 vals, blockOf s k = some b →
    b.tiles = .tmma gix id pkt ka kb d0 d1 z false rel pts step (some fa) (some fb) 0 :: rest → mayStep s b = true →
    isOperandFmt fa = true → isOperandFmt fb = true → (∀ g, b.groups[gix]? = some g → ∀ p ∈ g.out, p.id = id) →
    let q := descOf d0 d1
    let nkb := (q.K + 31) / 32
    let lo := 16 * (step / nkb)
    let hi := min (lo + 16) q.M
    let k0 := 32 * (step % nkb)
    let ra := operandReads ka fa q.M q.lda q.K k0 lo hi
    let rb := operandReads kb fb q.N q.ldb q.K k0 0 q.N
    let sc : BitVec 4 → BitVec 4 := fun f => ((scaleFmt f).map (·.1)).getD 0
    let v : Nat → Nat := fun i => (vals.getD i (0, 0)).1
    let oa := ra.1.length + ra.2.length
    q.col0 + q.N ≤ 128 → (∀ a ∈ ra.1 ++ ra.2, readInside b ka a = true) → (∀ a ∈ rb.1 ++ rb.2, readInside b kb a = true) →
    seqLoads s k (seqTime s b.core) [] = .ok s1 t1 [] → seqLoads s1 k t1 (ra.1 ++ ra.2 ++ rb.1 ++ rb.2) = .ok s2 t2 vals →
    vals.map (·.2) = ra.1.map (fun _ => fa) ++ ra.2.map (fun _ => sc fa) ++ rb.1.map (fun _ => fb) ++ rb.2.map (fun _ => sc fb) →
    Nexts (exec (.tmmaStep k) s) fun t => ∃ b', blockOf t k = some b' ∧
      (∀ i j, lo + i < hi → j < q.N →
        mget b'.acc (128 * (q.row0 + lo + i) + (q.col0 + j)) 0 = .ofNat 32 (accAdd
          (if z = true ∧ k0 = 0 then 0 else (mget b.acc (128 * (q.row0 + lo + i) + (q.col0 + j)) 0).toNat)
          (blockDot fa fb (min 32 (q.K - k0)) (v i) (if ra.2 = [] then 0 else v (ra.1.length + i)) (v (oa + j))
            (if rb.2 = [] then 0 else v (oa + rb.1.length + j))))) ∧
      (∀ key, (∀ i j, lo + i < hi → j < q.N → key ≠ 128 * (q.row0 + lo + i) + (q.col0 + j)) → mget b'.acc key 0 = mget b.acc key 0) ∧
      (step + 1 < (q.M + 15) / 16 * nkb → b'.tiles = .tmma gix id pkt ka kb d0 d1 z false rel pts (step + 1) (some fa) (some fb) 0 :: rest) ∧
      ((q.M + 15) / 16 * nkb ≤ step + 1 → b'.tiles = rest)

/-! ### Context time -/

/-- R195 to R198: context time read, an alarm armed or cleared, and waits. A `ctwait` of n ticks waits for context time now + n, at most 62 bits of it, and of 0 for an
arrival alone; a `ctwait.peer` needs a capability of an open window of its context, and with any other takes kind perm (R322). -/
def Claims.TimeWords : Prop :=
  ∀ (a : BitVec 5) (k : BitVec 4) (w : Nat),
    let n : Op → Nat := fun o => (o.r.sc a).toNat
    let dl : Op → Nat := fun o => min (o.ct + n o) (2 ^ 62 - 1)
    let c : Op → Cap := fun o => o.r.kreg k
    WordDoes (.ctread a) (setScalar a fun o => .ofNat 64 o.ct) ∧
    WordDoesWhen (.ctarm a) (fun o => n o ≠ 0) (fun o => o.mod fun g => { g with tr := { g.tr with ctal := .ofNat 64 (2 ^ 63 + dl o) } }) ∧
    WordDoesWhen (.ctarm a) (fun o => n o = 0)
      (fun o => o.mod fun g => { g with tr := { g.tr with ctal := .ofNat 64 (g.tr.ctal.toNat % 2 ^ 63) } }) ∧
    WordDoesWhen (.ctwait a) (fun o => n o ≠ 0) (fun o => o.wait (.ctwait (some (dl o)))) ∧
    WordDoesWhen (.ctwait a) (fun o => n o = 0) (fun o => o.wait (.ctwait none)) ∧
    WordDoesWhen (.ctwaitPeer a k) (fun o => (c o).tag = true ∧ isUnsealed (c o) = true ∧ isSpad (c o) = false ∧
        windowAt o.s o.b.ctx (capBase (c o)) = some w)
      (fun o => o.wait (.ctpeer w o.ct (n o) 0 (mget o.s.fab.wins w {}).paused)) ∧
    WordDoesWhen (.ctwaitPeer a k) (fun o => (c o).tag = false ∨ isUnsealed (c o) = false ∨ isSpad (c o) = true ∨ windowAt o.s o.b.ctx (capBase (c o)) = none)
      (fun o => addCapTrap o.s o.k o.gix o.no o.capReq (addKind {} .perm o.act))

/-- R196, R197, R287: an alarm that is due fires: FIRED is set and ARMED cleared; it ends every context-time wait of its group, or where there is none is held in trap mode or
taken as the trap 0x12. A wait whose count is reached ends. A group of a stopped context meets neither. The alarm trap's word index is the split's
place (the model's reading, log entry 16). -/
def Claims.TimeEvents : Prop :=
  ∀ s k gix b g, blockOf s k = some b → b.groups[gix]? = some g → b.onCore = true → g.halt = .no → ((ctxOf s b.ctx).st = 1 ∨ (ctxOf s b.ctx).st = 2) →
    let now := ctOf s b.ctx
    let dl := g.tr.ctal.toNat % 2 ^ 62
    let fired : State := modGroup s k gix fun g => { g with tr := { g.tr with ctal := .ofNat 64 (2 ^ 62 + dl) } }
    (g.tr.ctal.getLsbD 63 = true → dl ≤ now →
      ((∃ p ∈ g.splits, p.wait.isCt = true) → Nexts (exec (.alarmFire k gix) s) fun t => ∃ g' : Group, groupOf t k gix = some g' ∧
        g' = { g with tr := { g.tr with ctal := .ofNat 64 (2 ^ 62 + dl) }, splits := g.splits.map fun p => if p.wait.isCt then { p with pc := p.nxt.1, word := p.nxt.2, wait := .none } else p }) ∧
      ((∀ p ∈ g.splits, p.wait.isCt = false) → (g.tmode.isSome ∨ g.pend.isSome) → Nexts (exec (.alarmFire k gix) s) fun t =>
        groupOf t k gix = some { g with tr := { g.tr with ctal := .ofNat 64 (2 ^ 62 + dl) }, heldAlarm := true }) ∧
      (∀ p, (∀ p ∈ g.splits, p.wait.isCt = false) → g.tmode = none → g.pend = none → g.splits = [p] → exec (.alarmFire k gix) s =
        .next (takeAtBoundary fired k gix { cause := 0x12, widx := p.word, resume := .next, split := p.no, pkt := p.pc }))) ∧
    ((g.tr.ctal.getLsbD 63 = false ∨ now < dl) → exec (.alarmFire k gix) s = .next s) ∧
    (∀ p n, g.split n = some p →
      ((∃ d, p.wait = .ctwait (some d) ∧ d ≤ now) ∨ (∃ w i m q, p.wait = .ctpeer w i m q false ∧ m ≤ now - i - q) →
        exec (.ctwaitDeadline k gix n) s = .next (modGroup s k gix fun g => g.modSplit n fun p => { p with pc := p.nxt.1, word := p.nxt.2, wait := .none })) ∧
      ((∃ d, p.wait = .ctwait (some d) ∧ now < d) ∨ p.wait = .ctwait none ∨ (∃ w i m q, p.wait = .ctpeer w i m q true) →
        exec (.ctwaitDeadline k gix n) s = .next s))

/-- R282 to R284: a notification reaches its context's queue, merging with one that is not delivered yet; an arrival that the event ring takes leaves the queue and ends the
context-time waits of its context, their groups' time past the write of TAIL (R312), and one that it cannot take stays. A notification
counts whatever EN holds and an arrival ends waits whatever halts their group (the model's readings, log entries 33 and 32). -/
def Claims.Arrivals : Prop :=
  (∀ s w c, c < Config.contexts → silenced s w = false → (w = 0 ∨ w = (ctxOf s c).world) →
    ((∀ a ∈ (ctxOf s c).aq ++ (ctxOf s c).waiting, a.kind ≠ 1) → (ctxOf s c).aq.length < 256 → (ctxOf s c).waiting = [] →
      Nexts (exec (.hostNotification w c) s) fun t => ctxOf t c = { ctxOf s c with aq := (ctxOf s c).aq ++ [{ kind := 1, src := 0, data := 1 }] } ∧
        (∀ c', c' ≠ c → ctxOf t c' = ctxOf s c') ∧ t.mem = s.mem ∧ t.blocks = s.blocks) ∧
    (∀ a r, (ctxOf s c).aq = a :: r → a.kind = 1 → a.data ≠ .allOnes 32 →
      Nexts (exec (.hostNotification w c) s) fun t => (ctxOf t c).aq = { a with data := a.data + 1 } :: r)) ∧
  (∀ s w c, w ≠ 0 → w ≠ (ctxOf s c).world → exec (.hostNotification w c) s = .next s) ∧
  ∀ s c a r, (ctxOf s c).st = 1 → (ctxOf s c).aq = a :: r → (ctxOf s c).waiting = [] → a.win = none →
    (∀ u at', ringArrival s c a (ctOf s c) = (u, some at') → Nexts (exec (.arrivalDelivery c) s) fun t => (ctxOf t c).aq = r ∧ t.mem = u.mem ∧
      ∀ k b i (g : Group) n p, blockOf u k = some b → b.ctx = c → b.groups[i]? = some g → g.split n = some p → p.wait.isCt = true →
        ∃ g' : Group, groupOf t k i = some g' ∧ g'.split n = some { p with pc := p.nxt.1, word := p.nxt.2, wait := .none } ∧ g'.r = g.r ∧ at' ≤ g'.pts) ∧
    (∀ u, ringArrival s c a (ctOf s c) = (u, none) → exec (.arrivalDelivery c) s = .next u)

/-! ### System words and traps -/

/-- R199 to R201, R205: `trap`, `fence`, `setpl` and the mode registers: a number that names none, and a write of a read-only one, is an illegal word. -/
def Claims.SystemWords : Prop :=
  ∀ (n : BitVec 16) (e : BitVec 3) (f : BitVec 4) (a : BitVec 5) (b : Block) (g : Group),
    let v : Op → DWord := fun o => o.r.sc a
    let here : Op → Prop := fun o => blockOf o.s o.k = some b ∧ groupOf o.s o.k o.gix = some g ∧ flushing g o.no = false ∧
      (f.getLsbD 1 = false ∨ e.toNat < 2 ∨ groupDirty b o.gix = [])
    let fpm : DWord → DWord := fun v => .ofNat 64 (bits v 16 16 * 2 ^ 16 + bits v 4 2 * 16 + (if 1 ≤ v.toNat % 8 ∧ v.toNat % 8 ≤ 5 then v.toNat % 8 else 1))
    let trpc : DWord → DWord := fun v => .ofNat 64 (v.toNat % 2 ^ 32 + (if bits v 32 2 = 3 then 0 else bits v 32 2) * 2 ^ 32)
    let rd : BitVec 6 → (Op → DWord) → Prop := fun r x => WordDoes (.modeRead a r) (setScalar a x)
    WordDoes (.trap n) (fun o => { takeAtBoundary (o.modSp fun p => { p with pc := p.pc + 1, word := 0, run := none, did := [] }) o.k o.gix
      { cause := 0x13, detail := n, widx := o.sp.word, split := o.no, pkt := o.sp.pc, resume := .at (o.sp.pc + 1) 0 } with jumped := true }) ∧
    WordDoesWhen (.fence e f) (fun o => here o ∧ fenceDone g e f o.g.nextId = true) (fun o => fencePass o.s o.k o.gix e f) ∧
    WordDoesWhen (.fence e f) (fun o => here o ∧ fenceDone g e f o.g.nextId = false) (fun o => o.wait (.fence e f o.g.nextId false)) ∧
    WordDoes (.setpl a) (fun o => evalLevels (modCtx o.s o.b.ctx fun x => { x with plreq := .ofNat 3 (min 7 (v o).toNat) })) ∧
    rd 0 (fun o => o.r.fpm) ∧ rd 1 (fun o => o.g.tr.tvec) ∧ rd 2 (fun o => o.g.tr.trcause) ∧ rd 3 (fun o => o.g.tr.trpc) ∧ rd 4 (fun o => o.g.tr.trmask) ∧
    rd 5 (fun o => o.g.tr.kinds.tag) ∧ rd 6 (fun o => o.g.tr.kinds.sealed) ∧ rd 7 (fun o => o.g.tr.kinds.perm) ∧ rd 8 (fun o => o.g.tr.kinds.bnd) ∧
    rd 9 (fun o => o.g.tr.kinds.align) ∧ rd 10 (fun o => o.g.tr.kinds.fmt) ∧ rd 11 (fun o => o.g.tr.rowprog.setWidth 64) ∧ rd 12 (fun o => o.g.tr.ctal) ∧
    rd 13 (fun o => .ofNat 64 ((ctxOf o.s o.b.ctx).plreq.toNat + 256 * ((wingSt o.s (wingOf o.b.core)).pl % 8))) ∧
    (∀ r : BitVec 6, 14 ≤ r.toNat → Instr.wf (.modeRead a r) = false) ∧
    WordDoes (.modeWrite a 0) (fun o => o.modR fun q => { q with fpm := fpm (v o) }) ∧
    WordDoes (.modeWrite a 1) (fun o => o.mod fun g => { g with tr := { g.tr with tvec := v o &&& 0x80000000FFFFFFFF } }) ∧
    WordDoesWhen (.modeWrite a 3) (fun o => o.g.tmode.isSome) (fun o => o.mod fun g => { g with tr := { g.tr with trpc := trpc (v o) } }) ∧
    WordDoesWhen (.modeWrite a 4) (fun o => o.g.tmode.isSome) (fun o => o.mod fun g => { g with tr := { g.tr with trmask := v o &&& allLanes o.W } }) ∧
    WordDoesWhen (.modeWrite a 3) (fun o => o.g.tmode = none) (fun o => o.raise 0x01) ∧ WordDoesWhen (.modeWrite a 4) (fun o => o.g.tmode = none) (fun o => o.raise 0x01) ∧
    (∀ r : BitVec 6, r = 2 ∨ 5 ≤ r.toNat → Instr.wf (.modeWrite a r) = false)

/-- R201, R202, R204: entering a trap with nothing outstanding, for a split in no latch run: the trap registers receive the cause, packet, word and resume point, the raising
split's active mask and the failed lanes; the latches are lost; the group goes on as one split 0 of all lanes at the vector, its former splits and window base saved. Window,
scalar and capability registers, flags, predicates and memory are as before, and the other traps that wait go on waiting. -/
def Claims.TrapEntered : Prop :=
  ∀ s k gix b g q p pre, blockOf s k = some b → b.groups[gix]? = some g → g.split q.split = some p → (∀ p ∈ g.splits, p.run = none) →
    q.cause ≠ 0x12 → q.cause ≠ 0x15 → q.widx < 4 →
    let pt := resumeOf p q
    let t := enterTrap s k gix q pre
    t.mem = s.mem ∧ (∀ j, j ≠ k → blockOf t j = blockOf s j) ∧ ∃ g', groupOf t k gix = some g' ∧
      bits g'.tr.trcause 0 8 = q.cause.toNat ∧ bits g'.tr.trcause 8 6 = 0 ∧ bits g'.tr.trcause 14 2 = q.widx ∧ bits g'.tr.trcause 16 32 = q.pkt.toNat ∧
      bits g'.tr.trcause 48 16 = q.detail.toNat ∧ (pt.2 < 4 → bits g'.tr.trpc 0 32 = pt.1.toNat ∧ bits g'.tr.trpc 32 2 = pt.2) ∧ g'.tr.trmask = p.act ∧
      g'.tr.kinds = q.kinds ∧ g'.tr.tvec = g.tr.tvec ∧ g'.tr.ctal = g.tr.ctal ∧ g'.r = { g.r with bV := [], bM := [], bX := [] } ∧
      g'.pend.toList ++ g'.later = (g.pend.toList ++ g.later).filter (fun x => !x.same q) ∧
      g'.splits = [{ no := 0, pc := .ofNat 32 g.tr.tvec.toNat, mem := allLanes b.width, act := allLanes b.width, fresh := true }] ∧
      (∃ v, g'.tmode = some v ∧ v.raiser = q.split ∧ v.base = g.r.base - 48 ∧ v.splits.map (·.no) = g.splits.map (·.no) ∧
        v.splits.map (·.mem) = g.splits.map (·.mem) ∧ v.splits.map (·.act) = g.splits.map (·.act) ∧ ∀ x ∈ v.splits, x.no = q.split → (x.pc, x.word) = pt) ∧
      g'.out = g.out ∧ g'.stack = g.stack ∧ g'.band = g.band ∧ g'.qb = g.qb

/-- R202: a trap that finds nothing outstanding, no split inside a packet and a valid vector, raised outside trap mode, is entered, the window slid up by
48; with no vector, or in trap mode, its context is ended: stopped with nothing saved, no block of it left but tile tasks of cards, which are stopped and
still to answer. -/
def Claims.TrapTaken : Prop :=
  ∀ s k gix b g q, blockOf s k = some b → b.groups[gix]? = some g → g.out = [] → (g.await q).inPacket = false →
    (g.tr.tvec.getLsbD 63 = true → g.tmode = none → q.inTrap = false → txOfSplit g q.split = [] → q.cause ≠ 0x15 → ∀ u,
      slideUp (modGroup (drainGroup s k gix) k gix fun g => abortAll b.v.p g 10) k gix (g.r.base + 48) = .ok u → takeTrap s k gix q = enterTrap u k gix q false) ∧
    (g.tr.tvec.getLsbD 63 = false ∨ g.tmode.isSome → (ctxOf (takeTrap s k gix q) b.ctx).st = 4 ∧ ∀ j x, blockOf (takeTrap s k gix q) j = some x → x.ctx = b.ctx → x.task.isSome ∧ x.tiles = []) ∧
    (∀ r, g.pend = some r → r.cause ≠ 0x0A → g.inPacket = false → (g.tmode = none ∨ r.inTrap = true) → g.halt = .no → exec (.trapEntry k gix) s = .next (takeAtBoundary s k gix r))

/-- R206, R78, R203: `rett` outside trap mode is illegal. In it, once every split of the handler is at a `rett`, the group leaves trap mode: the raising split
goes on at `trpc` with the lanes of `trmask` that it holds, the others where they stood, the window at the base of the entry; frames that the window lacks are
filled, after the accesses of the group that are not performed yet, and a fill that fails its check ends the context. A trap that has waited is taken; else
waits at merges and barriers are looked at again (R75, R83). -/
def Claims.TrapReturned : Prop :=
  WordDoesWhen .rett (fun o => o.g.tmode = none) (fun o => o.raise 0x01) ∧
  (∀ s o v b g, wordOp .rett s = some o → o.g.tmode.isSome → blockOf (o.wait .rett) o.k = some b → b.groups[o.gix]? = some g → g.tmode = some v →
    v.preempt = false → g.heldAlarm = false → g.splits ≠ [] → (∀ p ∈ g.splits, p.wait = .rett) →
    let hi := (v.base + 47) / 8
    let back : Group → Group := fun g => { g with hi := hi, lo := min g.lo (hi + 1), tmode := none, heldAlarm := false, splits := rettSplits v g.tr,
                                                  r := { g.r with base := v.base, bV := [], bM := [], bX := [] } }
    let w := modGroup (o.wait .rett) o.k o.gix back
    let missing := min g.lo (hi + 1) - v.base / 8
    let goes : State → Prop := fun u => ∀ h, groupOf u o.k o.gix = some h →
      (h.pendDue = none → exec .rett s = .next (endedGroup (settleGroup u o.k o.gix) o.k o.gix)) ∧
      ∀ q, h.pendDue = some q → exec .rett s = .next (endedGroup (takeAtBoundary u o.k o.gix q) o.k o.gix)
    (fillsBad b g v.base = true → ∃ pc, exec .rett s = .next (endedGroup (endContext (o.wait .rett) b.ctx none true 0x07 pc) o.k o.gix)) ∧
    (fillsBad b g v.base = false → (missing = 0 ∨ g.unsettled = true → goes w) ∧
      (missing ≠ 0 → g.unsettled = false → ∀ u, fillFrames o.k o.gix missing (min g.lo (hi + 1)) (placeStores w o.k o.gix g.nextId) = .ok u → goes u) ∧
      (missing = 0 → g.pend = none → g.later = [] → (∃ p ∈ rettSplits v g.tr, p.wait.meets = false) →
        Nexts (exec .rett s) fun t => t.mem = (o.wait .rett).mem ∧ groupOf t o.k o.gix = some (back g)))) ∧
  ∀ (v : TrapSave) (t : TrapRegs), (v.splits.map (·.no)).Nodup →
    (∀ p ∈ v.splits, p.no ≠ v.raiser → ∃ q ∈ rettSplits v t, q.no = p.no ∧ q.pc = p.pc ∧ q.word = p.word ∧ q.mem = p.mem ∧ q.act = p.act ∧ q.wait = p.wait) ∧
    (∀ p ∈ v.splits, p.no = v.raiser → t.trmask &&& p.mem ≠ 0 → ∃ q ∈ rettSplits v t, q.no = p.no ∧ q.mem = p.mem ∧ q.act = t.trmask &&& p.mem ∧
      q.pc.toNat = (if (BitVec.ofNat 32 (bits t.trpc 0 32), bits t.trpc 32 2) = v.point then p.pc.toNat else bits t.trpc 0 32)) ∧
    (∀ p ∈ v.splits, p.no = v.raiser → t.trmask &&& p.mem = 0 → ∀ q ∈ rettSplits v t, q.no ≠ p.no)

/-- R213, R212, R33: which split a quarter gives its clusters to. It is a ready one, none of whose clusters is busy: one inside a latch run if there is any,
else one on no cluster that a run holds; of those, no other comes before it: wait counts of 64 or more first, the largest first, then blocks in order of
dispatch, groups by GRP, and in a group the split that issued longest ago. Where there is such a split, one is given them. -/
def Claims.IssueOrder : Prop :=
  ∀ (s : State) (core quarter : Nat),
    let here : Nat × Block → Nat → Group → Split → Prop := fun kb i g p => kb ∈ s.blocks ∧ kb.2.core = core ∧ kb.2.onCore = true ∧
      kb.2.groups[i]? = some g ∧ g.quarter = quarter ∧ p ∈ g.splits
    let meets : Block → Group → Block → Group → Prop := fun b g b' g' =>
      g.cluster < g'.cluster + b'.width / 16 ∧ g'.cluster < g.cluster + b.width / 16
    let free : Block → Group → Prop := fun b g => ∀ kb ∈ s.blocks, kb.2.core = core → kb.2.onCore = true → ∀ h ∈ kb.2.groups, h.quarter = quarter →
      meets b g kb.2 h → h.busy = 0
    let ready : Block → Group → Split → Prop := fun b g p => splitReady s b g p = true ∧ free b g
    let runs : Block → Group → Split → Prop := fun b g p => ready b g p ∧ insideRun s b p = true
    let open' : Block → Group → Split → Prop := fun b g p => ready b g p ∧ ∀ kb i h r, here kb i h r → insideRun s kb.2 r = true → ¬ meets b g kb.2 h
    let before : Block → Nat → Split → Block → Nat → Split → Prop := fun b i p b' i' p' =>
      let late := 256 ≤ p.rdy
      let late' := 256 ≤ p'.rdy
      (late ∧ ¬ late') ∨ (late ∧ late' ∧ p'.rdy < p.rdy) ∨ (((late ∧ late' ∧ p.rdy = p'.rdy) ∨ (¬ late ∧ ¬ late')) ∧
        (b.seq < b'.seq ∨ (b.seq = b'.seq ∧ (i < i' ∨ (i = i' ∧ p.iss < p'.iss)))))
    (∀ c, chooseSplit s core quarter = some c → ∃ kb i g p, here kb i g p ∧ kb.1 = c.blk ∧ i = c.gix ∧ p.no = c.no ∧
      ((runs kb.2 g p ∧ ∀ kb' i' g' p', here kb' i' g' p' → runs kb'.2 g' p' → ¬ before kb'.2 i' p' kb.2 i p) ∨
        (open' kb.2 g p ∧ ∀ kb' i' g' p', here kb' i' g' p' → ¬ runs kb'.2 g' p' ∧ (open' kb'.2 g' p' → ¬ before kb'.2 i' p' kb.2 i p)))) ∧
    ∀ kb i g p, here kb i g p → (runs kb.2 g p ∨ open' kb.2 g p) → (chooseSplit s core quarter).isSome

/-- R213, R214, R236: the split that a free quarter gives its clusters to is the one that the issue order names; a packet held back 256 cycles inside a latch run sends its split
back to the run's first packet and the latches are lost; a group whose time has not risen for 256 cycles has 16 added. -/
def Claims.CoreSteps : Prop :=
  ∀ s, (∀ core quarter c, s.cur = none → chooseSplit s core quarter = some c →
      exec (.clusterAssignment core quarter) s = .next { s with cur := some { blk := c.blk, gix := c.gix, no := c.no } }) ∧
    (∀ k gix b g p n u, blockOf s k = some b → groupOf s k gix = some g → g.split n = some p → p.run = some u → p.pc ≠ u.start → insideRun s b p = true →
      (p.word ≠ 0 ∨ nextReads s b p = some true) → 1024 ≤ p.held →
      mayIssue s b g = true → Nexts (exec (.latchRunLeave k gix n) s) fun t => t.mem = s.mem ∧ ∃ g' : Group, groupOf t k gix = some g' ∧
        g'.r = { g.r with bV := [], bM := [], bX := [] } ∧ ∀ x ∈ g'.splits, x.no = n → x.pc = u.start ∧ x.word = 0 ∧ x.run = none) ∧
    (∀ k gix g, groupOf s k gix = some g → 1024 ≤ g.ptsIdle → Nexts (exec (.leasePtsAdvance k gix) s) fun t => t.mem = s.mem ∧
      groupOf t k gix = some { g with pts := g.pts + 16, ptsIdle := 0 }) ∧
    ∀ k gix g, groupOf s k gix = some g → g.ptsIdle < 1024 → exec (.leasePtsAdvance k gix) s = .next s

end

/-- What the tile sequencer does. -/
def Obligations.TileSequencer : Prop :=
  Claims.TilePerform ∧ Claims.MatrixStep

/-- Context time, alarms, waits and arrivals. -/
def Obligations.ContextTimeAndArrivals : Prop :=
  Claims.TimeWords ∧ Claims.TimeEvents ∧ Claims.Arrivals

/-- System words and the return from a trap. -/
def Obligations.SystemWordsAndTrapReturn : Prop :=
  Claims.SystemWords ∧ Claims.TrapReturned

/-- Taking a trap. -/
def Obligations.TrapEntry : Prop :=
  Claims.TrapEntered ∧ Claims.TrapTaken

/-- Issue order, held packets and advancing time. -/
def Obligations.CoreEvents : Prop :=
  Claims.IssueOrder ∧ Claims.CoreSteps

section
open Sys2Proof Sys2Proof.Machine

/-! ### Cards, units, queues -/

/-- R192 to R194: `post` acts as a package fence of stores and reductions and then posts the card; a bad target or card traps before any effect, and a card whose line waits for the host is waited for (R330). `done` ends its split,
and a group whose last split ends outside trap mode has ended. `cancel` of level 0 cancels the issuing block, of level 1 the card's run, of 2 to 4 the graph, phase or job
above it; a level with no such unit traps. (That a card whose record translation does not reach, or whose capability lacks LD, LDC or ST, traps is the model's reading, log 48.) -/
def Obligations.CardWords : Prop :=
  ∀ (k : BitVec 4) (a : BitVec 5) (pa : Nat) (b : Block) (g : Group),
    let target : Op → Nat := fun o => (o.r.sc a).toNat % 2 ^ 16
    let v : Op → Nat := fun o => (o.r.sc a).toNat
    let good : Op → Prop := fun o => target o = 0xFFFF ∨ (target o < Config.cores ∧ target o / 7 = o.b.core / 7)
    let t : Op → State := fun o => placeStores o.s o.k o.gix o.g.nextId
    let here : Op → Prop := fun o => blockOf (t o) o.k = some b ∧ groupOf (t o) o.k o.gix = some g ∧ groupDirty b o.gix = []
    let held : Op → Prop := fun o => cardCapGood (o.r.kreg k) = true ∧ ipaHeld o.s o.b.world needRW [(capBase (o.r.kreg k), 64)] = true
    let bad : Op → Prop := fun o => lookCard o (o.r.kreg k) = none ∧ ¬ held o
    let unitNo : Op → Nat → Nat := fun o card => ((mfind o.s.curator.runs card).map (·.unit.toNat)).getD (cwUnit (cardWord o.s o.b.world card 0))
    let posted : Op → State × Option Nat := fun o => let u := fencePass (t o) o.k o.gix 4 6
      postCard u b.world pa (target o) none (o.r.kreg k) (some b.ctx) (((groupOf u o.k o.gix).map (·.pts)).getD 0)
    let waitHost : Op → State := fun o => stallAt (askIpa o.s0 o.b.world needRW [(capBase (o.r.kreg k), 64)]) o.k o.gix o.no (.held o.s0.gt)
    let fin' : State → Op → State := fun u o => { u with jumped := u.jumped || (blockOf u o.k).isNone }
    WordDoesWhen (.post k a) (fun o => good o ∧ lookCard o (o.r.kreg k) = some pa ∧ here o ∧ fenceDone g 4 6 o.g.nextId = true ∧ (posted o).2 ≠ none)
      (fun o => (posted o).1) ∧
    WordDoesWhen (.post k a) (fun o => good o ∧ lookCard o (o.r.kreg k) = some pa ∧ here o ∧ fenceDone g 4 6 o.g.nextId = true ∧ (posted o).2 = none)
      (fun o => stallAt (posted o).1 o.k o.gix o.no (.held o.s0.gt)) ∧
    WordDoesWhen (.post k a) (fun o => good o ∧ lookCard o (o.r.kreg k) = some pa ∧ here o ∧ fenceDone g 4 6 o.g.nextId = false)
      (fun o => stallAt (placeStores o.s0 o.k o.gix o.g.nextId) o.k o.gix o.no (.order 4 6 o.g.nextId)) ∧
    WordDoesWhen (.post k a) (fun o => ¬ good o ∨ bad o) (fun o => o.raise 0x11) ∧
    WordDoesWhen (.post k a) (fun o => good o ∧ lookCard o (o.r.kreg k) = none ∧ held o) waitHost ∧
    (∀ s o, wordOp .done s = some o → groupOf o.s o.k o.gix = some o.g → (∀ p ∈ o.g.splits, p.no = o.no) → o.g.tmode = none →
      Nexts (exec .done s) fun u => u.jumped = true ∧ ∃ g' : Group, groupOf u o.k o.gix = some g' ∧ g' = { o.g with splits := [], band := none }) ∧
    (∀ s o, wordOp .done s = some o → groupOf o.s o.k o.gix = some o.g → (∃ p ∈ o.g.splits, p.no ≠ o.no ∧ p.wait = .none) → o.g.tmode = none →
      Nexts (exec .done s) fun u => u.jumped = true ∧ u.mem = o.s.mem ∧ groupOf u o.k o.gix = some { o.g with splits := o.g.splits.filter fun p => p.no != o.no }) ∧
    WordDoesWhen (.cancel k a) (fun o => 15 < v o ∨ 4 < v o % 8 ∨ (v o < 8 ∧ k ≠ 0)) (fun o => o.raise 0x11) ∧
    WordDoesWhen (.cancel 0 a) (fun o => v o = 0) (fun o => fin' (cancelBlock o.s o.k) o) ∧
    WordDoesWhen (.cancel 0 a) (fun o => v o = 1) (fun o => fin' (cancelRun o.s o.b.card) o) ∧
    WordDoesWhen (.cancel k a) (fun o => v o = 9 ∧ lookCard o (o.r.kreg k) = some pa) (fun o => fin' (cancelRun o.s pa) o) ∧
    (∀ u, WordDoesWhen (.cancel 0 a) (fun o => (v o = 2 ∨ v o = 3 ∨ v o = 4) ∧ unitAt o.s (unitNo o o.b.card) (v o - 1) = some u) (fun o => fin' (cancelUnit o.s u) o)) ∧
    WordDoesWhen (.cancel 0 a) (fun o => (v o = 2 ∨ v o = 3 ∨ v o = 4) ∧ unitAt o.s (unitNo o o.b.card) (v o - 1) = none) (fun o => o.raise 0x11) ∧
    (∀ u, WordDoesWhen (.cancel k a) (fun o => (v o = 10 ∨ v o = 11 ∨ v o = 12) ∧ lookCard o (o.r.kreg k) = some pa ∧ unitAt o.s (unitNo o pa) (v o - 9) = some u)
      (fun o => fin' (cancelUnit o.s u) o)) ∧
    WordDoesWhen (.cancel k a) (fun o => (v o = 10 ∨ v o = 11 ∨ v o = 12) ∧ lookCard o (o.r.kreg k) = some pa ∧ unitAt o.s (unitNo o pa) (v o - 9) = none) (fun o => o.raise 0x11) ∧
    WordDoesWhen (.cancel k a) (fun o => 8 ≤ v o ∧ v o ≤ 15 ∧ v o % 8 ≤ 4 ∧ bad o) (fun o => o.raise 0x11) ∧
    WordDoesWhen (.cancel k a) (fun o => 8 ≤ v o ∧ v o ≤ 15 ∧ v o % 8 ≤ 4 ∧ lookCard o (o.r.kreg k) = none ∧ held o) waitHost ∧
    WordDoesWhen (.cancel k a) (fun o => v o = 8 ∧ lookCard o (o.r.kreg k) = some pa) (fun o => o.raise 0x11)

/-- R255 to R257: posting an idle card that passes its checks begins a run: it is ready where no predecessor is awaited (ST 2, PCNT loaded with PREDS), and otherwise posted (ST 1). A
run whose blocks are all done completes: ST 0, OUTCOME 1. Both are written to word 1 of the card's record, whose other fields stand as the Curator holds them
while a run does (R257). -/
def Claims.CardRuns : Prop :=
  (∀ s w pa target pmax c pts s1, pa % 64 = 0 → cardRefusal s w pa target = (s1, some 0) → mfind s1.curator.runs pa = none → cwUnit (cardWord s1 w pa 0) = 0xFFFF →
    sealTag s1 w = none → plainLine s1.mem pa = true → s1.mem.copies = [] →
    let n := cardState (cardWord s1 w pa 1)
    let t := (postCard s w pa target pmax c none pts).1
    (postCard s w pa target pmax c none pts).2 = some 0 ∧
    (∃ r, mfind t.curator.runs pa = some r ∧ r.world = w ∧ r.ctx = cwCtx (cardWord s1 w pa 0) ∧ r.kind = cwKind (cardWord s1 w pa 0) ∧
      r.ready = decide (n.pcnt = 0) ∧ r.started = false ∧ r.next = 0 ∧ r.doneN = 0 ∧ r.cancN = 0 ∧ memNat t.mem (pa + 8) 8 = r.w1.toNat) ∧
    (cardState (memNat t.mem (pa + 8) 8)).st = (if n.pcnt = 0 then 2 else 1) ∧
    (n.pcnt = 0 → n.preds < 2 ^ 16 → (cardState (memNat t.mem (pa + 8) 8)).pcnt = n.preds) ∧
    ∀ x, x < pa + 8 ∨ pa + 16 ≤ x → memByte t.mem x = memByte s1.mem x) ∧
  (∀ s card r, mfind s.curator.runs card = some r → card % 64 = 0 → r.kind = 0 → r.ready = true → r.doneN = r.arg.toNat + 1 → r.cancN = 0 → r.succ.tag = false → r.unit = 0xFFFF →
    r.posters = [] → sealTag s r.world = none → plainLine s.mem card = true → s.mem.copies = [] → (cardState r.w1.toNat).pend = false →
    Nexts (exec (.cardRunComplete card) s) fun t => mfind t.curator.runs card = none ∧
      cardState (memNat t.mem (card + 8) 8) = { cardState r.w1.toNat with st := 0, outcome := 1 } ∧ ∀ x, x < card + 8 ∨ card + 16 ≤ x → memByte t.mem x = memByte s.mem x)

/-- R252: a tail written by the queue's own world becomes the queue's TAIL unless it runs further past HEAD than the ring is long (LASTERR 9, nothing else changed); another world's
write is discarded (and logged outward, the model's answer). An entry is admitted in order: HEAD moves past it, and its card is posted or the refusal counted; where a line that it needs waits for the host,
it waits (R330). A record that stage 2 does not reach is refused with code 1 (the model's choice, log 142). -/
def Claims.HostQueues : Prop :=
  ∀ s q, q < Config.queues →
    let x := queueOf s q
    let slot := capBase x.ring + 8 * (x.head.toNat % 2 ^ x.log2n)
    let s' := modQueue (useIpa s x.world [(slot, 8)]) q fun x => { x with head := x.head + 1 }
    (silenced s x.world = false → ∀ v : BitVec 32, (v - x.head).toNat ≤ 2 ^ x.log2n → Nexts (exec (.qnotifyWrite x.world q v) s) fun t => queueOf t q = { x with tail := v } ∧
      t.mem = s.mem ∧ t.blocks = s.blocks ∧ ∀ p, p ≠ q → queueOf t p = queueOf s p) ∧
    (silenced s x.world = false → ∀ v : BitVec 32, 2 ^ x.log2n < (v - x.head).toNat → Nexts (exec (.qnotifyWrite x.world q v) s) fun t => queueOf t q = { x with lasterr := 9 } ∧ t.mem = s.mem) ∧
    (∀ w v, w ≠ x.world → Nexts (exec (.qnotifyWrite w q v) s) fun t => t = { s with answers := t.answers }) ∧
    (∀ e, x.en = true → x.head ≠ x.tail → curReady s = true → queueUnusable x = false → ipaWord s x.world slot = some e →
      (e % 2 ^ 48 % 64 ≠ 0 ∨ capLen x.arena < e % 2 ^ 48 + 64 → Nexts (exec (.queueEntryAdmit q) s) fun t =>
        queueOf t q = { x with head := x.head + 1, refused := if x.refused < 0xFFFF then x.refused + 1 else 0xFFFF, lasterr := 1 } ∧ t.mem = s'.mem ∧ sameMemory s t) ∧
      (∀ p ps, e % 2 ^ 48 % 64 = 0 → e % 2 ^ 48 + 64 ≤ capLen x.arena → resolveIpa s' x.world needRW
          [(capBase x.arena + e % 2 ^ 48, 64)] = some (p :: ps) →
        let c : Cap := { mkCap x.arena.perm (capBase x.arena + e % 2 ^ 48) 64 with otype := 1 }
        let u := postCard s' x.world p.1.pa (e / 2 ^ 48) (some x.pmax) c none s'.mem.hostTop
        (u.2 = some 0 → exec (.queueEntryAdmit q) s = .next u.1) ∧
        (∀ code, u.2 = some code → code ≠ 0 → exec (.queueEntryAdmit q) s = .next (refuseEntry u.1 q code)) ∧
        (u.2 = none → exec (.queueEntryAdmit q) s = .next (postCard s x.world p.1.pa (e / 2 ^ 48) (some x.pmax) c none s'.mem.hostTop).1)) ∧
      (e % 2 ^ 48 % 64 = 0 → e % 2 ^ 48 + 64 ≤ capLen x.arena → resolveIpa s' x.world needRW [(capBase x.arena + e % 2 ^ 48, 64)] = none →
        let held := ipaHeld s x.world needRW [(capBase x.arena + e % 2 ^ 48, 64)]
        (held = true → exec (.queueEntryAdmit q) s = .next (askIpa s x.world needRW [(capBase x.arena + e % 2 ^ 48, 64)])) ∧
        (held = false → exec (.queueEntryAdmit q) s = .next (refuseEntry s' q 1)))) ∧
    (x.en = true → x.head ≠ x.tail → curReady s = true → queueUnusable x = false → ipaWord s x.world slot = none →
      exec (.queueEntryAdmit q) s = .next (askIpa s x.world needR [(slot, 8)])) ∧
    (x.en = true → x.head ≠ x.tail → curReady s = true → queueUnusable x = true → exec (.queueEntryAdmit q) s = .next (modQueue s q fun x => { x with lasterr := 8 })) ∧
    (x.en = false ∨ x.head = x.tail → exec (.queueEntryAdmit q) s = .next s)

/-- R254, R263, R336: cancelling a unit sets CANC in it and in every enabled unit below it, and cancels the runs of their cards. -/
def Claims.UnitCancel : Prop :=
  ∀ s w u, u < Config.units → (unitOf s u).en = true →
    ((w = 0 ∨ w = (unitOf s u).world) → silenced s w = false → s.curator.runs = [] → s.curator.units.Pairwise (fun x y => x.1 ≠ y.1) → Nexts (exec (.unitCancel w u) s) fun t =>
      (∀ v, (unitOf s v).en = true → u ∈ unitChain s 4 v → unitOf t v = { unitOf s v with canc := true }) ∧
      (∀ v, u ∉ unitChain s 4 v → unitOf t v = unitOf s v) ∧ t.mem = s.mem ∧ t.blocks = s.blocks) ∧
    ((w ≠ 0 ∧ w ≠ (unitOf s u).world ∨ silenced s w = true) → exec (.unitCancel w u) s = .next s)

/-! ### The Curator -/

/-- R258: a pass in which no instance is ready places nothing. A pass in which one world of one class has a ready instance, with its deficit, raised by 64 times the world's weight,
reaching the charge and with room for it, places it; its deficit is cleared with nothing more ready. A pass runs only once a Curator is up. (No posted card has come to PCNT 0, no reservation stands.) -/
def Claims.CuratorPlaces : Prop :=
  ∀ s, s.curator.reserve = [] → (∀ card r, (card, r) ∈ s.curator.runs → r.ready = false → (cardNow s r.world card).pcnt ≠ 0) →
    (curReady s = true → s.curator.idleAt ≠ some s.gt → (∀ c w, headOf s c w = none) → Nexts (exec .curatorPass s) fun t =>
      t = { s with curator := { s.curator with idleAt := some s.gt } }) ∧
    (curReady s = false → exec .curatorPass s = .next s) ∧
    ∀ cls w x r t, curReady s = true → s.curator.idleAt ≠ some s.gt → cls < 8 → w < Config.worlds → headOf s cls w = some (x, r) →
      (∀ c v, headOf s c v ≠ none → c = cls ∧ v = w) → underCap s w = true →
      let d := deficit s cls w + 64 * (worldOf s w).weight
      let s1 := setDeficit { s with curator := { s.curator with rr := mput s.curator.rr cls w 63 } } cls w d
      chargeOf s1 x r ≤ d → placeInst s1 x r = .on t → t.curator.reserve = [] → (∀ c v, headOf t c v = none) →
      Nexts (exec .curatorPass s) fun u => u.blocks = t.blocks ∧ u.mem = t.mem ∧ u.ctxs = t.ctxs ∧ u.eng = t.eng ∧ u.curator.runs = t.curator.runs ∧
        u.curator.idleAt = none ∧ deficit u cls w = 0

/-- R211, R238, R250: a block at entry: every group has one split, number 0, at the variant's entry with all lanes; window, scalar, capability-by-lane and predicate registers, flags and
counters are zero, fpm rounds to nearest, the stack is empty, no trap mode; k15 is the block's own scratchpad and k0 to k13 are the declared operands, the others untagged; the group's
time is the card's, and the scratchpad, its granules and the banks are empty. -/
def Claims.BlockAtEntry : Prop :=
  ∀ s r card bix l vi v core m q caps,
    let b := entryBlock s r card bix l vi v core m q caps
    b.spad.size = v.spad ∧ b.spad.bytes = [] ∧ b.spad.tags = [] ∧ b.spad.full = [] ∧ b.acq = 0 ∧ b.tiles = [] ∧ b.stash = [] ∧ b.chans = [] ∧ b.width = l.width ∧
    ∀ g ∈ b.groups, g.splits = [{ no := 0, pc := v.entry, mem := allLanes l.width, act := allLanes l.width }] ∧ g.pts = r.pts ∧ g.stack = [] ∧ g.tmode = none ∧ g.out = [] ∧
      g.tr = {} ∧ g.qb = [] ∧ g.pat = [] ∧ g.tx = [] ∧ g.band = none ∧ g.cycQ = 0 ∧
      g.r = { ({} : Regs) with k := g.r.k } ∧ g.r.kreg 15 = spadCap v.spad ∧ (∀ j, j ≠ 15 → g.r.kreg j = mget caps j.toNat {}) ∧
      (∀ slots, caps = entryCaps s r.ctx l.caps slots → ∀ j : BitVec 4, j.toNat < 14 → l.caps.getLsbD j.toNat = false → (g.r.kreg j).tag = false)

/-- R193, R258, R261, R217: the Curator's other events. A ready card's class rises by one after 6,400 ticks, to 7 at most. 800 ticks after a reservation the contexts of the core's
lower-class blocks are asked to stop. A carve-out falls to what its blocks need, in two stages. A block whose groups have all ended, with nothing left to complete, leaves its core and is
counted done with its time. -/
def Claims.CuratorEvents : Prop :=
  (∀ s card r, mfind s.curator.runs card = some r → r.ready = true → r.cls < 7 → r.since + 6400 ≤ s.gt → Nexts (exec (.classAgeing card) s) fun t =>
    mfind t.curator.runs card = some { r with cls := r.cls + 1, since := s.gt } ∧ t.mem = s.mem ∧ t.blocks = s.blocks) ∧
  (∀ s card r, mfind s.curator.runs card = some r → (r.cls = 7 ∨ s.gt < r.since + 6400) → exec (.classAgeing card) s = .next s) ∧
  (∀ s q, s.curator.reserve = [q] → q.asked = false → q.since + 800 ≤ s.gt → (∀ c, noAlarmDue s c) → Nexts (exec .makeRoomTimeout s) fun t =>
    t.curator.reserve = [{ q with asked := true }] ∧
    (∀ k b, mfind s.blocks k = some b → b.core = q.core → b.task = none → b.life = .resident → b.cls < q.cls → (ctxOf s b.ctx).st = 1 →
      (ctxOf t b.ctx).st = 2 ∧ (ctxOf t b.ctx).cause = 2) ∧ ∀ c, (ctxOf s c).st ≠ 1 → ctxOf t c = ctxOf s c) ∧
  (∀ s core, (mget s.hol.cores core {}).carveTo = none → leastCarve s core < (mget s.hol.cores core {}).carve → Nexts (exec (.carveOutChange core) s) fun t =>
    mget t.hol.cores core {} = { mget s.hol.cores core {} with carveTo := some (leastCarve s core) } ∧ t.mem = s.mem) ∧
  (∀ s core n, (mget s.hol.cores core {}).carveTo = some n → leastCarve s core ≤ n → Nexts (exec (.carveOutChange core) s) fun t =>
    mget t.hol.cores core {} = { mget s.hol.cores core {} with carve := n, carveTo := none } ∧ t.mem = s.mem) ∧
  ∀ s k b r, blockOf s k = some b → b.task = none → b.life = .resident → (∀ g ∈ b.groups, g.splits = [] ∧ g.tmode = none ∧ g.out = []) → b.stash = [] → b.tiles = [] →
    (ctxOf s b.ctx).st = 1 → mfind s.curator.runs b.card = some r → Nexts (exec (.blockCompletion k) s) fun t =>
      blockOf t k = none ∧ (∀ j, j ≠ k → blockOf t j = blockOf s j) ∧ t.mem = s.mem ∧
      ∃ r', mfind t.curator.runs b.card = some r' ∧ r' = { r with doneN := r.doneN + 1, outPts := r'.outPts } ∧ (∀ g ∈ b.groups, g.pts ≤ r'.outPts) ∧ r.outPts ≤ r'.outPts

/-! ### Variant switches -/

/-- R225 to R227: a requested switch is taken at a switch point that every group waits at, with nothing outstanding: the frame is written, its time past the write (R229), and the block stops being resident; once its frame
is whole it retires, its room released. A block that waited 1,024 cycles without it goes past the point. -/
def Obligations.VariantSwitches : Prop :=
  ∀ s k b, blockOf s k = some b →
    (∀ x b1 i s2, b.swReq = true → b.wtok = 0 → b.life = .resident → (ctxOf s b.ctx).st = 1 → takenAt b = some x →
      let s1 := (List.range b.groups.length).foldl (fun s i => drainGroup s k i) s
      blockOf s1 k = some b1 → (∀ g ∈ b1.groups, g.out = []) → b1.stash = [] → b1.tiles = [] → freeFrame s1 b1 = some i →
      let b2 := { b1 with life := .framing, frame := some x.n, frameSlot := i }
      ∀ tm, putFrame (putBlock s1 k b2) b2.ctx (frameVa b2) (blockTop b2) (frameParts b2 x) = (s2, .ok tm) → blockOf s2 k = some b2 →
      Nexts (exec (.variantSwitch k) s) fun t => t.mem = s2.mem ∧ blockOf t k = some { raiseBlock b2 tm with swReq := false }) ∧
    (b.swReq = false → exec (.variantSwitch k) s = .next s) ∧
    (b.life = .framing → b.swReq = false → Nexts (exec (.blockRetire k) s) fun t => t.mem = s.mem ∧ t.curator.idleAt = none ∧ ∃ b', blockOf t k = some b' ∧
      b'.life = .retired ∧ b'.groups = [] ∧ b'.spad = {} ∧ b'.acq = 0 ∧ b'.spills = [] ∧ b'.bix = b.bix ∧ b'.card = b.card ∧ b'.frame = b.frame ∧ ∀ g ∈ b.groups, g.pts ≤ b'.pts0) ∧
    (∀ (gix : Nat) (g : Group) n since p, b.groups[gix]? = some g → p ∈ g.splits → p.wait = .switchPt n since → since + 1024 ≤ g.cycQ / 4 → b.life = .resident → takenAt b = none →
      Nexts (exec (.switchWaitTimeout k gix) s) fun t => t.mem = s.mem ∧ ∃ b', blockOf t k = some b' ∧ b'.swReq = b.swReq ∧ b'.life = .resident ∧
        ∀ g ∈ b'.groups, ∀ p ∈ g.splits, ∀ n since, p.wait ≠ .switchPt n since)

/-! ### Contexts -/

/-- R266, R268, R269, R272, R289: the registers of a context. EN begins it stopped with its clock at CXCT or 0; DISABLE of a stopped context clears it; a stop halts a running context with its
cause, and a slice that has run out is one; STEP and STOP = 0 act in a debug stop; CXCT takes a value only while idle or stopped, and never a smaller one. Worlds other than 0 change none of
these. (An alarm that is due at a stop fires first, R292: in these clauses none is.) -/
def Obligations.ContextRegisters : Prop :=
  ∀ s c, c < Config.contexts →
    let x := ctxOf s c
    let same : State → Prop := fun t => t.mem = s.mem ∧ ∀ d, d ≠ c → ctxOf t d = ctxOf s d
    (∀ owner, owner < Config.worlds → x.en = false → Nexts (exec (.contextEnable 0 c owner) s) fun t => same t ∧ t.blocks = s.blocks ∧
      (ctxOf t c).en = true ∧ (ctxOf t c).world = owner ∧ (ctxOf t c).st = 4 ∧ (ctxOf t c).f = (if x.fset = true then x.f else 0) ∧ (ctxOf t c).stop = false ∧
      (ctxOf t c).plreq = (worldOf s owner).defpl ∧ (ctxOf t c).fresh = true ∧ (ctxOf t c).save = x.save ∧ (ctxOf t c).evring = x.evring ∧ (ctxOf t c).s1 = x.s1) ∧
    (x.en = true → (x.st = 0 ∨ x.st = 4) → ctxBlocks s c = [] → x.peers = [] → isLocked (worldOf s x.world) = false → Nexts (exec (.contextDisable 0 c) s) fun t => same t ∧
      t.blocks = s.blocks ∧ (ctxOf t c).en = false ∧ (ctxOf t c).st = 0 ∧ (ctxOf t c).f = 0) ∧
    (x.en = true → x.st ≠ 0 → x.st ≠ 4 → isLocked (worldOf s x.world) = false → exec (.contextDisable 0 c) s = .next s) ∧
    (x.st = 1 → x.en = true → noAlarmDue s c → Nexts (exec (.hostStopRequest 0 c) s) fun t => (ctxOf t c).st = 2 ∧ (ctxOf t c).cause = 3 ∧ (ctxOf t c).stop = true ∧ (ctxOf t c).dbg = false ∧
      (ctxOf t c).reqAt = s.gt ∧ ∀ d, d ≠ c → ctxOf t d = ctxOf s d) ∧
    (x.st = 1 → x.en = true → noAlarmDue s c → Nexts (exec (.debugStopRequest 0 c) s) fun t => (ctxOf t c).st = 2 ∧ (ctxOf t c).cause = 4 ∧ (ctxOf t c).stop = true ∧ (ctxOf t c).dbg = true ∧
      ∀ d, d ≠ c → ctxOf t d = ctxOf s d) ∧
    (∀ t0, x.st = 1 → x.sliceAt = some t0 → x.slice ≠ 0 → holdsBlock s c = true → t0 + x.slice.toNat ≤ s.gt → noAlarmDue s c → Nexts (exec (.sliceExpiry c) s) fun t =>
      (ctxOf t c).st = 2 ∧ (ctxOf t c).cause = 1 ∧ (ctxOf t c).stop = x.stop) ∧
    (∀ t0, x.sliceAt = some t0 → (x.slice = 0 ∨ s.gt < t0 + x.slice.toNat) → exec (.sliceExpiry c) s = .next s) ∧
    (x.st = 5 → Nexts (exec (.debugStep 0 c) s) fun t => same t ∧ t.blocks = s.blocks ∧ ctxOf t c = { x with steps := readySplits s c }) ∧
    (x.en = true → x.st = 5 → worldRuns (worldOf s x.world) = true → x.held = [] → x.keptTok = [] → x.aq = [] → x.waiting = [] → x.xmtf.getLsbD 63 = false →
      Nexts (exec (.stopRelease 0 c) s) fun t => (ctxOf t c).st = 1 ∧ (ctxOf t c).stop = false ∧ (ctxOf t c).dbg = false ∧ (ctxOf t c).steps = []) ∧
    (∀ v, (x.st = 0 ∨ x.st = 4 ∧ x.f ≤ v.toNat) → Nexts (exec (.cxctWrite 0 c v) s) fun t => same t ∧ t.blocks = s.blocks ∧ ctxOf t c = { x with f := v.toNat, fset := true }) ∧
    (∀ v, x.st ≠ 0 → (x.st = 4 → v.toNat < x.f) → exec (.cxctWrite 0 c v) s = .next s) ∧
    ∀ w, w ≠ 0 → (∀ owner, exec (.contextEnable w c owner) s = .next s) ∧ exec (.contextDisable w c) s = .next s ∧ exec (.hostStopRequest w c) s = .next s ∧
      exec (.debugStopRequest w c) s = .next s ∧ exec (.stopRelease w c) s = .next s ∧ exec (.debugStep w c) s = .next s ∧ ∀ v, exec (.cxctWrite w c v) s = .next s

/-- R269, R273, R275, R286: the freeze instant of a context whose groups have all halted: its clock stands at the value that it had, the pause count rises, and it goes on to be saved, or in a debug
stop stays with its groups resident. A group in trap mode whose budget has run out, and that can take no trap, halts first. -/
def Claims.FreezeInstant : Prop :=
  ∀ s c, (ctxOf s c).st = 2 → (stopBlocks s c = [] → Nexts (exec (.freezeInstant c) s) fun t => t.gt = s.gt ∧ (ctxOf t c).f = ctOf s c ∧ ctOf t c = ctOf s c ∧ (ctxOf t c).tf = s.gt ∧
      (ctxOf t c).pause = (ctxOf s c).pause + 1 ∧ (ctxOf t c).st = if (ctxOf s c).dbg = true then 5 else 3) ∧
    (∀ k b, s.blocks = [(k, b)] → b.ctx = c → b.task = none → b.life = .resident → (∀ g ∈ b.groups, g.halt = .halted ∧ g.busy = 0 ∧ g.out = [] ∧ g.tx = []) → (ctxOf s c).dbg = true →
      Nexts (exec (.freezeInstant c) s) fun t => (ctxOf t c).st = 5 ∧ ctOf t c = ctOf s c ∧ t.mem = s.mem ∧
        ∃ b', blockOf t k = some b' ∧ b' = { b with swReq := false, groups := b'.groups } ∧ b'.groups.map (·.r) = b.groups.map (·.r) ∧ b'.groups.map (·.halt) = b.groups.map (·.halt)) ∧
    (∀ (k i : Nat) (b : Block) (g : Group), s.blocks = [(k, b)] → b.ctx = c → b.task = none → b.life = .resident → b.groups[i]? = some g → g.halt = .halted → g.splits ≠ [] → 0 < g.busy → noAlarmDue s c →
      Nexts (exec (.freezeInstant c) s) fun t => (ctxOf t c).st = 2) ∧
    ∀ k i b g, blockOf s k = some b → groupOf s k i = some g → b.ctx = c → g.halt = .no → g.tmode.isSome → (ctxOf s b.ctx).st = 2 → g.inPacket = false → g.waiting.any g.mayTake = false → 4 * (worldOf s b.world).budget ≤ g.reqQ →
      Nexts (exec (.trapModeBudgetExpiry k i) s) fun t => ∃ g' : Group, groupOf t k i = some g' ∧ g'.halt = .halted ∧ g'.tmode = g.tmode ∧ (g.tx = [] → g'.tx = [])

/-- R276 to R281: saving and resuming. A handler whose budget has run out is saved by force, the whole scratchpad kept. Once every group is saved the context is stopped, its blocks off their cores. A
context that may resume runs again with its clock going on from where it stood: the ticks from the freeze instant to now are added to its stopped time. Blocks that could not all be loaded within 6,400
ticks go back to the pool. -/
def Claims.SaveAndResume : Prop :=
  (∀ s k i b g, blockOf s k = some b → groupOf s k i = some g → g.halt = .handler 0 → g.out = [] → Nexts (exec (.handlerBudgetExpiry k i) s) fun t => t.mem = s.mem ∧
    ∃ b' g', blockOf t k = some b' ∧ groupOf t k i = some g' ∧ b'.keep = b.v.spad ∧ g'.halt = .saved ∧ g'.tmode = none ∧ g'.pre = none) ∧
  (∀ s c, (ctxOf s c).st = 3 → ((stopBlocks s c).filter fun kb => !allEnded kb.2) = [] → Nexts (exec (.saveComplete c) s) fun t =>
    (ctxOf t c).st = 4 ∧ t.mem = s.mem ∧ t.blocks = s.blocks ∧ ∀ d, d ≠ c → ctxOf t d = ctxOf s d) ∧
  (∀ s c k b s2, (ctxOf s c).st = 3 → s.blocks = [(k, b)] → b.ctx = c → b.task = none → b.life = .resident → b.stash = [] → b.wtok = 0 → b.acq = 0 → b.groups ≠ [] →
    (∀ g ∈ b.groups, g.halt = .saved ∧ g.out = [] ∧ g.splits ≠ []) → writeSlot s k b = (s2, true) → s2.blocks = s.blocks → Nexts (exec (.saveComplete c) s) fun t =>
      (ctxOf t c).st = 4 ∧ t.mem = s2.mem ∧ ∃ b', blockOf t k = some b' ∧ b'.life = .saved ∧ b'.groups.map (·.r) = b.groups.map (·.r) ∧ b'.groups.map (·.splits) = b.groups.map (·.splits) ∧
        b'.acc = b.acc ∧ b'.acq = b.acq ∧ ∀ o, spByte b'.spad o = if o < b.keep then spByte b.spad o else 0) ∧
  (∀ s c, mayResume s c = true → (ctxOf s c).held = [] → (ctxOf s c).keptTok = [] → (ctxOf s c).aq = [] → (ctxOf s c).waiting = [] → (ctxOf s c).xmtf.getLsbD 63 = false →
    let x := ctxOf s c
    Nexts (exec (.resumeInstant c) s) fun t => t.gt = s.gt ∧ t.mem = s.mem ∧ (ctxOf t c).st = 1 ∧ (ctxOf t c).fresh = false ∧ (ctxOf t c).loadAt = none ∧
      (x.fresh = false → (ctxOf t c).stopped = x.stopped + (s.gt - x.tf)) ∧
      ((x.fresh = true ∨ x.fset = true) → ctOf t c = x.f) ∧
      (x.fresh = false → x.fset = false → x.tf ≤ s.gt → ((x.tf : Int) - x.stopped - x.base = x.f) → ctOf t c = x.f) ∧
      ∀ k b, blockOf s k = some b → b.ctx = c → (b.life = .loaded ∨ b.life = .resident) → ∃ b', blockOf t k = some b' ∧ b'.life = .resident ∧ b'.spad = b.spad ∧
        b'.groups.map (·.r) = b.groups.map (·.r) ∧ ∀ g ∈ b'.groups, g.halt ≠ .halted ∧ g.halt ≠ .saved) ∧
  (∀ s c, mayResume s c = false → exec (.resumeInstant c) s = .next s) ∧
  ∀ s c t0, (ctxOf s c).loadAt = some t0 → (ctxOf s c).st = 4 → t0 + 6400 ≤ s.gt → Nexts (exec (.resumeLoadTimeout c) s) fun t =>
    t.mem = s.mem ∧ (ctxOf t c).loadAt = none ∧ (ctxOf t c).st = 4 ∧ ∀ k b, blockOf s k = some b → blockOf t k = some (if b.ctx = c ∧ b.life = .loaded then { b with life := .saved } else b)

end

/-- Card runs, host queues and units. -/
def Obligations.CardsQueuesUnits : Prop :=
  Claims.CardRuns ∧ Claims.HostQueues ∧ Claims.UnitCancel

/-- The Curator and a block at entry. -/
def Obligations.CuratorAndBlocks : Prop :=
  Claims.CuratorPlaces ∧ Claims.BlockAtEntry ∧ Claims.CuratorEvents

/-- Freezing, saving and resuming a context. -/
def Obligations.FreezeSaveResume : Prop :=
  Claims.FreezeInstant ∧ Claims.SaveAndResume

section
open Sys2Proof Sys2Proof.Machine

/-! ### Engines -/

/-- R184, R334: an engine word whose parameter block passes its check takes its kind's next ticket into s[d], is counted in counter 2, and hands its command to the engine with the
group's time, context time and its qualifiers; the parameter block is then read, after the words before it (R231). One that fails the check raises the capability trap. -/
def Claims.EngineWords : Prop :=
  ∀ (k : BitVec 4) (d : BitVec 5) (e : BitVec 3) (q l : BitVec 1),
    let c : Op → Cap := fun o => o.r.kreg k
    let does : Instr → EngKind → Nat → Nat → Prop := fun i kd no size =>
      WordDoesWhen i (fun o => capCheck (c o) 0x007 (c o).addr size 64 o.b.spad.size = .none ∧ ctrCount o.g .eng < 63) (fun o =>
        let t := mget (ctxOf o.s o.b.ctx).tickets no 0
        let s1 := modCtx o.s o.b.ctx fun x => { x with tickets := minsert x.tickets no (t + 1) }
        let s2 := placeStores (modGroup s1 o.k o.gix fun g => { g with r := g.r.putSc d (t.setWidth 64) }) o.k o.gix o.g.nextId
        let s3 := modGroup s2 o.k o.gix fun g => { g with nextId := g.nextId + 1, out := g.out ++
          [{ id := g.nextId, inTrap := g.tmode.isSome, ctr := .eng, pkt := o.sp.pc, split := o.no, wix := o.sp.word, unread := true }] }
        let x : EngCmd := { id := s3.eng.nextId, kind := kd, ctx := o.b.ctx, world := o.b.world, who := some (o.k, o.gix), pid := o.g.nextId, card := none, ticket := t,
                            pblock := c o, scope := e, acq := q == 1, rel := l == 1, ipts := ((groupOf s2 o.k o.gix).map (·.pts)).getD 0, ict := o.ct }
        captureCmd { s3 with eng := { s3.eng with cmds := s3.eng.cmds ++ [x], nextId := s3.eng.nextId + 1 } } x) ∧
      WordDoesWhen i (fun o => capCheck (c o) 0x007 (c o).addr size 64 o.b.spad.size = .none ∧ 63 ≤ ctrCount o.g .eng) (fun o => stallAt o.s0 o.k o.gix o.no (.counter .eng)) ∧
      ∀ kd', kd' ≠ .none → WordDoesWhen i (fun o => capCheck (c o) 0x007 (c o).addr size 64 o.b.spad.size = kd')
        (fun o => addCapTrap o.s o.k o.gix o.no o.capReq (addKind {} kd' o.act))
    does (.ecopy k d e q l) .copy 0 64 ∧ does (.ered k d e q l) .red 1 192 ∧ does (.ecoll k d e q l) .coll 2 64 ∧
    does (.esealOpen k d e q l) .sealOpen 3 64 ∧ does (.esealCommit k d e q l) .sealCommit 3 64

/-- R185, R306, R319, R374: the submission of a copy or reduction whose block has been read, and may be written: the first check that fails ends it with its code; one that passes locks
every page that it names, all or none, and is submitted, but for one that the fabric refuses, or whose range holds a doorbell page (R323): code 3, INFO the slot. Pages
that cannot be had park it. (That a refused command locks nothing and does not wait, and that a parameter block that cannot be written parks it before any check, is the
model's reading, log 47.) -/
def Claims.EngineSubmits : Prop :=
  ∀ s x u l, cmdOf s x.id = some x → (x.kind = .copy ∧ isDescriptor (x.slot 1) = false ∧ isDescriptor (x.slot 2) = false ∨ x.kind = .red) → x.got = true → x.submitted = false →
    x.token = 0 → x.stopped = false → engReady s x = true → x.cancelled = false → blockStop s x = (u, l) →
    let limit := ((cmdBlock u x).map (·.spad.size)).getD 0
    let bad := if x.kind = .copy then copyBad limit x else redBad limit x
    let v := modCmd u x.id fun _ => x
    let b := (cmdBlock v x).getD {}
    let vas := (cmdRanges x).flatMap fun q => rangeVas b q.2.1 q.2.2.1 q.2.2.2
    (∀ k, l = some k → exec (.engineSubmission x.id) s = .next (parkCmd u x x.pblock.addr needW k)) ∧
    (l = none → ∀ code info, bad = some (code, info) → exec (.engineSubmission x.id) s = .next (finishCmd u x code info none)) ∧
    (l = none → bad = none → ∀ i, doorRefused v x (cmdRanges x) = some i → exec (.engineSubmission x.id) s = .next (finishCmd v x 3 i none)) ∧
    (∀ s1 pages m, l = none → bad = none → doorRefused v x (cmdRanges x) = none → lockRanges (cmdWho v x) vas v [] = (s1, .ok pages) → lockAll s1.mem x.ctx pages = some m → x.bounce = none → x.team = none →
      let y := { x with locked := pages, submitted := true }
      let s2 := modCmd { s1 with mem := m } x.id fun _ => y
      let s3 := if x.acq = true then setEngTime s2 y y.ipts else s2
      (∀ i, fabricRefused s2 y (cmdRanges x) = some i → exec (.engineSubmission x.id) s = .next (finishCmd s2 y 3 i none)) ∧
      (fabricRefused s2 y (cmdRanges x) = none → x.who = none → exec (.engineSubmission x.id) s = .next s3) ∧
      ∀ k gix, fabricRefused s2 y (cmdRanges x) = none → x.who = some (k, gix) →
        exec (.engineSubmission x.id) s = .next (modGroup s3 k gix (·.modOut x.pid fun p => { p with far := allFar s3 y (cmdRanges x) }))) ∧
    (∀ s1 pages, l = none → bad = none → doorRefused v x (cmdRanges x) = none → lockRanges (cmdWho v x) vas v [] = (s1, .ok pages) → lockAll s1.mem x.ctx pages = none → exec (.engineSubmission x.id) s = .next s1) ∧
    ∀ s1 va need k, l = none → bad = none → doorRefused v x (cmdRanges x) = none → lockRanges (cmdWho v x) vas v [] = (s1, .error (va, need, k)) → exec (.engineSubmission x.id) s = .next (parkCmd s1 x va need k)

/-- R185, R186: a command that ends writes STATUS, its code in the low byte and INFO above it, to word 0 of its parameter block and no other byte; it is then gone, and the counter of
its group falls. (No other word of that group is outstanding.) -/
def Claims.EngineCompletes : Prop :=
  ∀ s x code info pa, cmdOf s x.id = some x → (∀ y ∈ s.eng.cmds, y.id = x.id → y = x) → isSpad x.pblock = false → x.pblock.addr.toNat % 64 = 0 →
    lockedPa s x x.pblock.addr.toNat = some pa → pa % 64 = 0 → x.rel = false → x.card = none → code < 256 → info < 2 ^ 32 → ctxHolds s x.ctx = false →
    plainTo s.mem (sealTag s x.world) pa = true → (∀ k i g, x.who = some (k, i) → groupOf s k i = some g → ∀ p ∈ g.out, p.id = x.pid) →
    let t := finishCmd s x code info none
    (∀ j, j < 8 → memByte t.mem (pa + j) = .ofNat 8 ((code + 256 * info) / 256 ^ j)) ∧ (∀ a, a < pa ∨ pa + 8 ≤ a → memByte t.mem a = memByte s.mem a) ∧
    cmdOf t x.id = none ∧ ∀ k i g, x.who = some (k, i) → groupOf s k i = some g → ∃ g' : Group, groupOf t k i = some g' ∧
      g' = { g with out := [], engAck := g'.engAck, engFar := g'.engFar } ∧ g.engAck ≤ g'.engAck ∧ g.engFar ≤ g'.engFar

/-- R187, R191: a line copied: the destination's bytes become the source's, a granule keeps its tag only where both slots let tags through, the code goes with it, and no other byte changes.
Lines go in ascending order; one that fails its check ends the copy with code 5, one that the fabric refuses with code 3, one that waits ends the turn. A chunk goes on from where it stopped, and ends the copy with PROGRESS and code 1 at its
end. A cancel ends it with code 2 at a 64 KiB boundary, and a stop of its context stops it there. -/
def Claims.EngineCopies : Prop :=
  (∀ s x o (p q : Spot), isSpad (x.slot 1) = false → isSpad (x.slot 2) = false → lockedSpot s x ((x.slot 1).addr.toNat + o) = some p → lockedSpot s x ((x.slot 2).addr.toNat + o) = some q →
    p.fab = false → q.fab = false → p.pa % 64 = 0 → q.pa % 64 = 0 → p.pa ≠ q.pa → plainTo s.mem (sealTag s x.world) p.pa = true → plainTo s.mem (sealTag s x.world) q.pa = true → homeOf p.pa = .hbm → homeOf q.pa = .hbm →
    let t := copyLine s x o
    (∀ j, j < 64 → memByte t.mem (q.pa + j) = memByte s.mem (p.pa + j)) ∧ (∀ a, a < q.pa ∨ q.pa + 64 ≤ a → memByte t.mem a = memByte s.mem a) ∧
    (∀ i, i < 4 → sideTag (sideAt t.mem q.pa) (q.pa + 16 * i) = (sideTag (sideAt s.mem p.pa) (p.pa + 16 * i) && (x.slot 1).perm.getLsbD 2 && (x.slot 2).perm.getLsbD 3)) ∧
    ((sideFmt (sideAt s.mem p.pa)).toNat ≤ 11 → sideFmt (sideAt t.mem q.pa) = sideFmt (sideAt s.mem p.pa))) ∧
  (∀ s x n o, let a := (x.slot 1).addr.toNat + o
    let w := engStops s x [(x.slot 1, a, 1), (x.slot 2, (x.slot 2).addr.toNat + o, 2)]
    let d := engDenied s x 64 [(x.slot 1, a, 1), (x.slot 2, (x.slot 2).addr.toNat + o, 2)]
    copyLines x 0 o s = (s, o, .done) ∧ (∀ l, w = some l → copyLines x (n + 1) o s = (s, o, .hold l)) ∧
    (∀ i, w = none → d = some i → copyLines x (n + 1) o s = (s, o, .refused i)) ∧
    (w = none → d = none → engInteg s x (x.slot 1) a ≠ 0 → copyLines x (n + 1) o s = (s, o, .bad 5 a (engInteg s x (x.slot 1) a))) ∧
    (w = none → d = none → engInteg s x (x.slot 1) a = 0 → copyLines x (n + 1) o s = copyLines x n (o + 64) (copyLine s x o))) ∧
  ∀ s x s1 o e, cmdOf s x.id = some x → x.kind = .copy → x.submitted = true → x.bounce = none → blockHold s x = none →
    let len := bits x.ctl 0 40
    (x.cancelled = true → x.pos = x.prog → exec (.ecopyChunk x.id) s = .next (finishCmd s x 2 0 none)) ∧
    (x.cancelled = false → x.stopped = true → exec (.ecopyChunk x.id) s = .next s) ∧
    (x.cancelled = false → x.stopped = false → x.pos = x.prog → stopsNow s x = true → exec (.ecopyChunk x.id) s = .next (stopCmd s x)) ∧
    (x.stopped = false → (x.pos ≠ x.prog ∨ x.cancelled = false ∧ stopsNow s x = false) →
      copyLines x ((min len ((x.pos / 65536 + 1) * 65536) - x.pos) / 64) x.pos s = (s1, o, e) →
      (e = .done → o < len → exec (.ecopyChunk x.id) s = .next (modCmd s1 x.id fun y =>
        { y with pos := o, prog := if o % 65536 == 0 then o else y.prog, c0 := y.c0.map (· + (o - x.pos) / 4096) })) ∧
      (e = .done → len ≤ o → exec (.ecopyChunk x.id) s = .next (finishCmd s1 x 1 0 (some (0x30, len)))) ∧
      (∀ l, e = .hold l → exec (.ecopyChunk x.id) s = .next (ask (copyReached s1 x o) l)) ∧
      (∀ i, e = .refused i → exec (.ecopyChunk x.id) s = .next (finishCmd s1 x 3 i none)) ∧
      ∀ code va c, e = .bad code va c → exec (.ecopyChunk x.id) s = .next (finishCmd (integLine s1 x va c) x code o none))

/-- R66, R188, R191: a reduction adds its sources pairwise, level by level, each addition rounded to nearest in f32 and a NaN result canonical, and clears the tags of the sector that it writes; it goes on by
elements up to the next 64-byte boundary of the destination, ends with PROGRESS and code 1 after the last, with code 6 at a source sector that is not f32 or raw, and with code 3 where the fabric refuses an access. A cancel ends it with code 2, and a stop of
its context stops it, at a boundary. (INFO is the number of the element, the model's reading, log 44.) -/
def Claims.EngineReduces : Prop :=
  (∀ a b c d e : Word,
    let add : Word → Word → Word := fun a b => .ofNat 32 (fadd f32 .rn false a.toNat b.toNat).bits
    reduceElem [a, b] = add a b ∧ reduceElem [a, b, c] = add (add a b) c ∧ reduceElem [a, b, c, d] = add (add a b) (add c d) ∧
    reduceElem [a, b, c, d, e] = add (add (add a b) (add c d)) e ∧ (a.toNat % 2 ^ 31 ≤ 0x7F800000 → reduceElem [a] = a)) ∧
  (∀ s x s1 e f, cmdOf s x.id = some x → x.kind = .red → x.submitted = true → blockHold s x = none →
    let count := bits x.ctl 0 40
    let n := min (count - x.pos) ((64 - ((x.slot 1).addr.toNat + 4 * x.pos) % 64) / 4)
    (x.cancelled = true → x.pos = x.prog → exec (.eredReduce x.id) s = .next (finishCmd s x 2 0 none)) ∧
    (x.cancelled = false → x.stopped = true → exec (.eredReduce x.id) s = .next s) ∧
    (x.cancelled = false → x.stopped = false → x.pos = x.prog → stopsNow s x = true → exec (.eredReduce x.id) s = .next (stopCmd s x)) ∧
    (x.stopped = false → (x.pos ≠ x.prog ∨ x.cancelled = false ∧ stopsNow s x = false) → redElems x n x.pos s = (s1, e, f) →
      (f = .done → e < count → exec (.eredReduce x.id) s = .next (modCmd s1 x.id fun y => { y with pos := e, prog := e })) ∧
      (f = .done → count ≤ e → exec (.eredReduce x.id) s = .next (finishCmd s1 x 1 0 (some (0xA0, count)))) ∧
      (∀ l, f = .hold l → exec (.eredReduce x.id) s = .next (ask (modCmd s1 x.id fun y => { y with pos := e }) l)) ∧
      (∀ va c, f = .bad 5 va c → exec (.eredReduce x.id) s = .next (finishCmd (integLine s1 x va c) x 5 e none)) ∧
      (∀ i, f = .refused i → exec (.eredReduce x.id) s = .next (finishCmd s1 x 3 i none)) ∧
      ∀ va c, f = .bad 6 va c → exec (.eredReduce x.id) s = .next (finishCmd s1 x 6 e none))) ∧
  ∀ s x e s2 vs, let a := (x.slot 1).addr.toNat + 4 * e
    let ps := (x.slot 1, a, 2) :: (redSources x).map fun q => (q.2, q.2.addr.toNat + 4 * e, 1)
    engStops s x ps = none → engDenied s x 4 ps = none → redRead x e (redSources x) s = (s2, .ok vs) →
      redElems x 1 e s = (engWrite (wipeSector s2 x (x.slot 1) a) x (x.slot 1) a (bytesLE 4 (reduceElem vs).toNat) 0 1 false, e + 1, .done)

/-- R189, R324: a collective waits until every other rank has issued its part; ranks that disagree end it with code 7. Where its sources all pass their checks and no line waits, an all-reduce stores every
element's sum over the ranks in rank order, a reduce-scatter the rank's own share of them, a gather the ranks' bytes in rank order and a broadcast the root's; then code 1. A source line that fails its check
ends it with code 5, an access that the fabric refuses with code 3. (How ranks join, wait and disagree is the model's, log 73; so is the code of
a broadcast sector, that of the source sector of each piece's first byte, log 93.) -/
def Claims.CollectiveRuns : Prop :=
  ∀ s x t, cmdOf s x.id = some x → x.kind = .coll → x.submitted = true → x.team = some t → blockHold s x = none →
    let kind := bits x.ctl 52 4
    let root := bits x.ctl 40 8
    let len := bits x.ctl 0 40
    let src : Nat → Cap := fun i => if i = t.rank then x.slot 2 else (t.caps.getD i ({}, {})).1
    let ranks := if kind = 2 then [root] else List.range t.nrank
    let joined : Nat → Prop := fun i => mfind x.joins i = some (joinOf x t)
    let places := (ranks.flatMap fun i => rangePlaces (src i) 0 len 1) ++ rangePlaces (x.slot 3) 0 (collBytes kind len t.nrank).2 2
    let load : State × List (List Byte) → Nat → State × List (List Byte) := fun q i => ((engLoad q.1 x (src i) 0 len).1, q.2 ++ [(engLoad q.1 x (src i) 0 len).2])
    let all := (List.range t.nrank).foldl load (s, [])
    let sum : Nat → Word := fun e => reduceElem ((all.2.map wordsLE).map fun v => v.getD e 0)
    let sums : Nat → Nat → List Byte := fun lo m => (List.range m).flatMap fun e => bytesLE 4 (sum (lo + e)).toNat
    let share := len / (4 * t.nrank)
    let one := load (s, []) root
    let bcast := ((linePieces (x.slot 3).addr.toNat len).foldl (fun (q : State × List Byte) p =>
      let r := engRead q.1 x (src root) ((src root).addr.toNat + (p.1 - (x.slot 3).addr.toNat)) 1
      (engWrite r.1 x (x.slot 3) p.1 (q.2.take p.2) 0 (sideFmt r.2.2) false, q.2.drop p.2)) (one.1, one.2.headD [])).1
    (x.cancelled = true → exec (.ecollRun x.id) s = .next (finishCmd s x 2 0 none)) ∧
    (x.cancelled = false → (∃ i, i < t.nrank ∧ i ≠ t.rank ∧ mfind x.joins i = none) → exec (.ecollRun x.id) s = .next s) ∧
    (x.cancelled = false → (∀ i, i < t.nrank → i ≠ t.rank → mfind x.joins i ≠ none) → (∃ i, i < t.nrank ∧ i ≠ t.rank ∧ ¬ joined i) →
      exec (.ecollRun x.id) s = .next (finishCmd s x 7 0 none)) ∧
    (∀ k, x.cancelled = false → (∀ i, i < t.nrank → i ≠ t.rank → joined i) → engStops s x places = none → engDenied s x 64 places = some k →
      exec (.ecollRun x.id) s = .next (finishCmd s x 3 k none)) ∧
    (x.cancelled = false → (∀ i, i < t.nrank → i ≠ t.rank → joined i) → engStops s x places = none → engDenied s x 64 places = none →
      (∀ i off c, (ranks.findSome? fun i => (rangeInteg s x (src i) 0 len).map fun q => (i, q)) = some (i, off, c) →
        exec (.ecollRun x.id) s = .next (finishCmd (integLine s x ((src i).addr.toNat + off) c) x 5 off none)) ∧
      ((∀ i ∈ ranks, rangeInteg s x (src i) 0 len = none) →
        (kind = 0 → exec (.ecollRun x.id) s = .next (finishCmd (engStoreFmt all.1 x (x.slot 3) 0 (sums 0 (len / 4)) 1) x 1 0 none)) ∧
        (kind = 3 → exec (.ecollRun x.id) s = .next (finishCmd (engStoreFmt all.1 x (x.slot 3) 0 (sums (t.rank * share) share) 1) x 1 0 none)) ∧
        (kind = 1 → ∃ (f : BitVec 4) (n' : Nat), f.toNat < 12 ∧
          exec (.ecollRun x.id) s = .next (finishCmd { engStoreFmt all.1 x (x.slot 3) 0 all.2.flatten f with nfree := n' } x 1 0 none)) ∧
        (kind = 2 → exec (.ecollRun x.id) s = .next (finishCmd bcast x 1 0 none))))

/-- R190, R347 to R349: opening a seal takes the next SEQ of a key that the handle names, records the producing kernel's measurement and writes CTL.SEQ; a handle of no standing key ends with code 9, a key
with no SEQ left or a context with 16 open seals with code 7. A commit hashes the whole frame buffer, writes the signed record at the seal's slot and ends the seal; a line that fails its check voids it with
reason 6. An image or a frame buffer whose lines wait is waited for. The bytes of the signature are free values. -/
def Claims.SealCommands : Prop :=
  ∀ s x, cmdOf s x.id = some x → x.submitted = true → x.token = 0 → blockHold s x = none →
    (x.kind = .sealOpen →
      (x.cancelled = true → exec (.sealOpenPerform x.id) s = .next (finishCmd s x 2 0 none)) ∧
      (x.cancelled = false → handleKey s x (x.slot 1) = none → exec (.sealOpenPerform x.id) s = .next (finishCmd s x 9 0 none)) ∧
      (∀ key, x.cancelled = false → handleKey s x (x.slot 1) = some key → (2 ^ 32 ≤ key.seq ∨ 16 ≤ openSeals s x.ctx) → exec (.sealOpenPerform x.id) s = .next (finishCmd s x 7 0 none)) ∧
      (∀ key s1 m, x.cancelled = false → handleKey s x (x.slot 1) = some key → key.seq < 2 ^ 32 → openSeals s x.ctx < 16 → kernelMeasure s x = (s1, .ok m) →
        ∃ y u, y.seq.toNat = key.seq ∧ y.gen = key.gen ∧ y.measure = m ∧ y.secret = key.secret ∧ y.ctx = x.ctx ∧ y.world = x.world ∧ y.pblock = x.pblock.addr ∧ y.record = x.slot 3 ∧ y.void = none ∧
          u.eng.seals = s1.eng.seals ++ [y] ∧ u.mem = s1.mem ∧ mget (worldOf u x.world).t.keys y.slot {} = { key with seq := key.seq + 1 } ∧
          exec (.sealOpenPerform x.id) s = .next (finishCmd (engStore u x x.pblock 12 (bytesLE 4 key.seq)) x 1 0 none)) ∧
      ∀ key s1 e, x.cancelled = false → handleKey s x (x.slot 1) = some key → key.seq < 2 ^ 32 → openSeals s x.ctx < 16 → kernelMeasure s x = (s1, .error e) →
        (∀ l, e = .hold l → exec (.sealOpenPerform x.id) s = .next (ask s1 l)) ∧
        (∀ k, e = .refused k → exec (.sealOpenPerform x.id) s = .next (finishCmd s1 x 3 k none)) ∧
        ∀ code va c, e = .bad code va c → exec (.sealOpenPerform x.id) s = .next (finishCmd (integLine s1 x va c) x code (va - ((x.image.map capBase).getD 0)) none)) ∧
    (x.kind = .sealCommit →
      (x.cancelled = true → exec (.sealCommitPerform x.id) s = .next (finishCmd s x 2 0 none)) ∧
      (∀ y, x.cancelled = false → sealOn s x = some y →
        let f : Cap := { x.slot 2 with addr := .ofNat 64 (capBase (x.slot 2)) }
        let n := capLen f
        let places := rangePlaces f 0 n 1 ++ rangePlaces (x.slot 3) 0 (slotBytesOf y.record y.limit) 2
        engStops s x places = none →
        (∀ k, engDenied s x 64 places = some k → exec (.sealCommitPerform x.id) s = .next (finishCmd (voidSeals s (fun z => z == y) 6) x 3 k none)) ∧
        (engDenied s x 64 places = none → rangeInteg s x f 0 n = none →
          let r := engLoad s x f 0 n
          let u := engStore r.1 x (x.slot 3) 0 (sealBytes y 1 0 x.ict n (Config.sha384 r.2))
          exec (.sealCommitPerform x.id) s = .next (finishCmd { u with eng := { u.eng with seals := u.eng.seals.filter fun z => z != y } } x 1 0 none)) ∧
        ∀ off c, engDenied s x 64 places = none → rangeInteg s x f 0 n = some (off, c) → exec (.sealCommitPerform x.id) s =
          .next (finishCmd (voidSeals (integLine s x (f.addr.toNat + off) c) (fun z => z == y) 6) x 5 off none)))

end

/-- Engine commands issued and submitted. -/
def Obligations.EngineCommands : Prop :=
  Claims.EngineWords ∧ Claims.EngineSubmits

/-- Engine copies and completion. -/
def Obligations.EngineCopiesAndStatus : Prop :=
  Claims.EngineCompletes ∧ Claims.EngineCopies

/-- Reductions, collectives and seals. -/
def Obligations.ReductionsCollectivesSeals : Prop :=
  Claims.EngineReduces ∧ Claims.CollectiveRuns ∧ Claims.SealCommands

section
open Sys2Proof Sys2Proof.Machine

/-! ### Translation and faults -/

/-- R295, R300 to R304: a word's first missing address is walked: a translated access of one lane is confirmed; one that faults parks its lane behind a record and a token. FRESUME with the
token makes it look again, in the token's own world or by world 0; token 0 does nothing. -/
def Claims.WalkAndReplay : Prop :=
  ∀ s k i id b g p a, blockOf s k = some b → b.groups[i]? = some g → g.out = [p] → p.id = id → p.todo = [a] → p.buf = [] → p.flt = [] → p.probe = false → p.ctr = .st → p.token = 0 → p.fault = none →
    firstMiss s b p = some a → a.spad = false →
    (∀ s1 q r1 r2 r3 r4 r5 r6 r7 r8 x, walkFill s b.ctx a.va.toNat a.op.need = (s1, .ok q r1 r2 r3 r4 r5 r6 r7 r8) → s1.blocks = s.blocks → pendLook s1 b p a = .go x →
      Nexts (exec (.pageWalk k i id) s) fun t => t.mem = s1.mem ∧ ∃ g' : Group, groupOf t k i = some g' ∧ g' = { g with out := [{ p with todo := [], buf := [x] }] }) ∧
    (∀ s1 kd l ipa h, walkFill s b.ctx a.va.toNat a.op.need = (s1, .fault kd l ipa h) → s1.blocks = s.blocks → s1.mem.token ≠ 0 → p.inTrap = false → (∀ q ∈ g.splits, q.run = none) →
      Nexts (exec (.pageWalk k i id) s) fun t => ∃ g' p' : _, groupOf t k i = some (g' : Group) ∧ g'.out = [(p' : Pending)] ∧ p'.flt = [a] ∧ p'.todo = [] ∧ p'.token ≠ 0 ∧
        p'.ctr = p.ctr ∧ g'.r = g.r ∧ g'.splits.map (·.pc) = g.splits.map (·.pc)) ∧
    (∀ tok, exec (.fresumeWrite 0 0 0) s = .next s ∧ ∀ w v, w ≠ 0 → w ≠ v → exec (.fresumeWrite w v tok) s = .next s)

/-- R303: a lane parked behind a token looks again after the FRESUME of that token by world 0, and only that one does. -/
def Claims.TokenReplays : Prop :=
  ∀ s k i b (g : Group) p tok, s.blocks = [(k, b)] → b.groups[i]? = some g → g.out = [p] → p.token = tok → tok ≠ 0 → p.flt ≠ [] → p.todo = [] → (ctxOf s b.ctx).st = 1 →
    s.worlds = [] →
    Nexts (exec (.fresumeWrite 0 0 tok) s) fun t => t.mem = s.mem ∧ ∃ g' p' : _, groupOf t k i = some (g' : Group) ∧ g'.out = [(p' : Pending)] ∧
      (∀ a, a ∈ p'.todo ↔ a ∈ p.flt) ∧ p'.flt = [] ∧ p'.token = 0 ∧ p'.dest = p.dest ∧ p'.vals = p.vals

/-- R298, R305: an invalidation takes its scope from the registers as they stand when it starts, drops the translations of the scope, and is busy until no page lock and no dirty stash line of it is left; a record that its ring takes leaves the queue of records, and one refused is offered again after
twice as long, at most 65,536 cycles. -/
def Claims.Invalidation : Prop :=
  (∀ s w v, w < Config.worlds → v.getLsbD 63 = true → bits v 60 2 = 1 → silenced s w = false → (worldOf s w).invctl.getLsbD 62 = false → (∀ kb ∈ s.blocks, kb.2.stash = []) →
    Nexts (exec (.invalidationStart w w v) s) fun t => (worldOf t w).invctl.getLsbD 62 = true ∧ (worldOf t w).invat = (worldOf s w).invaddr ∧ (∀ a, memByte t.mem a = memByte s.mem a) ∧
      ∀ e, e ∈ t.mem.mtlb ↔ e ∈ s.mem.mtlb ∧ ¬((ctxOf s e.ctx).world = w ∧ e.ctx = bits v 48 12)) ∧
  (∀ s w v, (worldOf s w).invctl.getLsbD 62 = true → exec (.invalidationStart w w v) s = .next s) ∧
  (∀ s w v u, u ≠ 0 → u ≠ w → exec (.invalidationStart u w v) s = .next s) ∧
  (∀ s w, (worldOf s w).invctl.getLsbD 62 = true → s.mem.locks = [] → (∀ kb ∈ s.blocks, kb.2.stash = []) → Nexts (exec (.invalidationComplete w) s) fun t =>
    (worldOf t w).invctl.getLsbD 62 = false ∧ (worldOf t w).invaddr = (worldOf s w).invaddr ∧ t.mem = s.mem ∧ t.blocks = s.blocks) ∧
  (∀ s w, ((worldOf s w).invctl.getLsbD 62 = false ∨ ∃ l ∈ s.mem.locks, inScope s w (worldOf s w).invctl (worldOf s w).invat l.ctx l.va l.size = true) →
    exec (.invalidationComplete w) s = .next s) ∧
  ∀ s r, s.rings = [r] → (∀ u, ringOffer s r.ring r.world r.words = some u → u.rings = s.rings → Nexts (exec (.ringRecordRetry r.id) s) fun t => t.rings = [] ∧ t.mem = u.mem) ∧
    (ringOffer s r.ring r.world r.words = none → Nexts (exec (.ringRecordRetry r.id) s) fun t => sameMemory s t ∧
      t.rings = [{ r with delay := min 65536 (2 * r.delay), since := s.gt }])

/-! ### The fabric and the host -/

/-- R322, R288: a window is opened by world 0 alone; a target of this package accepts it when it is a context of the world named with a free peer place; closing it gives its holder the KIND 6 arrival. (For a target of
this package the answer follows from its own state and the one given with the event is not looked at, the model's reading, log 57.) -/
def Claims.Windows : Prop :=
  ∀ s n, n < 4096 →
    let w := mget s.fab.wins n {}
    let x := ctxOf s w.rctx
    (w.en = false → Nexts (exec (.windowOpen 0 n) s) fun t => mget t.fab.wins n {} = { w with en := true, opened := false, refused := false } ∧ t.mem = s.mem ∧ t.ctxs = s.ctxs) ∧
    (∀ u, u ≠ 0 → exec (.windowOpen u n) s = .next s) ∧ (w.en = true → exec (.windowOpen 0 n) s = .next s) ∧
    (∀ a q, w.en = true → w.opened = false → w.refused = false → w.node = s.fab.node.toNat → x.en = true → x.world = w.rworld → x.peers.length + x.rpeers.length < 64 → x.st = 1 →
      Nexts (exec (.windowOpenAnswer n a q) s) fun t => mget t.fab.wins n {} = { w with opened := true } ∧ ctxOf t w.rctx = { x with peers := x.peers ++ [n] }) ∧
    (∀ a q, w.en = true → w.opened = false → w.refused = false → w.node = s.fab.node.toNat → (x.en = false ∨ x.world ≠ w.rworld ∨ 64 ≤ x.peers.length + x.rpeers.length) →
      Nexts (exec (.windowOpenAnswer n a q) s) fun t => mget t.fab.wins n {} = { w with refused := true } ∧ t.ctxs = s.ctxs) ∧
    (w.opened = true → s.inbox = [] → (ctxOf s w.ctx).aq.length < 256 → (ctxOf s w.ctx).waiting = [] → w.ctx ≠ w.rctx → Nexts (exec (.windowClose n) s) fun t =>
      (mget t.fab.wins n {}).opened = false ∧ (ctxOf t w.rctx).peers = x.peers.filter (· != n) ∧
      (ctxOf t w.ctx).aq = (ctxOf s w.ctx).aq ++ [{ kind := 6, src := .ofNat 12 w.rctx, data := .ofNat 32 n, win := some n }]) ∧
    (w.opened = false → exec (.windowClose n) s = .next s)

/-- R319, R323: a message from another node is taken only with right M in the access table and by a context of the world named that has room, and is refused with no room; a message of a window of this package goes once its fence is met, and ends its store when it is
taken; one that is not is offered again after 100 ticks, doubling to 6,400, and is never dropped (one whose window has closed waits the same way, the model's choice, log 127). A
message to another node leaves in a packet and waits for that node's answer. A request passes the check only where one entry covers it with every right. -/
def Claims.Messages : Prop :=
  (∀ s c d fw fn fc, let x := ctxOf s c
    ((∃ e ∈ s.fab.access, e.tnode = s.fab.node.toNat ∧ e.node = fn ∧ e.world = fw ∧ e.tworld = x.world ∧ e.rights.getLsbD 3 = true) → x.en = true → x.aq.length < 256 → x.waiting = [] →
      Nexts (exec (.doorbellMessage s.fab.node.toNat x.world c d fw fn fc) s) fun t => ctxOf t c = { x with aq := x.aq ++ [{ kind := 3, src := .ofNat 12 fc, data := d }] } ∧ t.mem = s.mem) ∧
    (256 ≤ x.aq.length → Nexts (exec (.doorbellMessage s.fab.node.toNat x.world c d fw fn fc) s) fun t => t = { s with answers := t.answers }) ∧
    ((∀ e ∈ s.fab.access, e.rights.getLsbD 3 = false) → exec (.doorbellMessage s.fab.node.toNat x.world c d fw fn fc) s = .next s)) ∧
  (∀ s m a, s.fab.msgs = [m] → let w := mget s.fab.wins m.win {}
    let x := ctxOf s w.rctx
    let q : FabReq := { node := s.fab.node.toNat, world := w.world, tworld := w.rworld, pa := 0, time := 0, op := .msg w.rctx w.ctx m.data m.id }
    (∀ b g, blockOf s m.blk = some b → groupOf s m.blk m.gix = some g → m.delay = 0 → fenceDone g 5 6 m.pid = false → exec (.messageRetry m.id a) s = .next s) ∧
    ((blockOf s m.blk = none ∨ m.delay ≠ 0) → (w.opened = true → w.node = s.fab.node.toNat → x.en = true → x.aq.length < 256 → x.waiting = [] → Nexts (exec (.messageRetry m.id a) s) fun t => t.fab.msgs = [] ∧
      (ctxOf t w.rctx).aq = x.aq ++ [{ kind := 3, src := .ofNat 12 w.ctx, data := m.data }]) ∧
    (w.opened = true → w.node ≠ s.fab.node.toNat → m.sent = false → Nexts (exec (.messageRetry m.id a) s) fun t => t.fab.msgs = [{ m with sent := true }] ∧ t.ctxs = s.ctxs ∧ t.mem = s.mem ∧
      t.fab.ports = (sendPacket s w.node w.world (some q) none [(m.data.setWidth 512, 0)]).fab.ports ∧ t.answers = (sendPacket s w.node w.world (some q) none [(m.data.setWidth 512, 0)]).answers) ∧
    (w.opened = true → w.node ≠ s.fab.node.toNat → m.sent = true → a = true → Nexts (exec (.messageRetry m.id a) s) fun t => t.fab.msgs = [] ∧ t.ctxs = s.ctxs) ∧
    ((w.opened = false ∨ w.node = s.fab.node.toNat ∧ 256 ≤ x.aq.length ∨ w.node ≠ s.fab.node.toNat ∧ m.sent = true ∧ a = false) → Nexts (exec (.messageRetry m.id a) s) fun t =>
      t.fab.msgs = [{ m with delay := min 6400 (max 100 (2 * m.delay)), since := s.gt, sent := false }] ∧ t.ctxs = s.ctxs ∧ t.blocks = s.blocks))) ∧
  ∀ s port node world tworld pa len need, Nexts (exec (.fabricRequestCheck port node world tworld pa len need) s) fun t =>
    t = { s with answers := s.answers ++ [{ kind := 2, world := world, data := [if ∃ e ∈ s.fab.access, e.tnode = port ∧ e.node = node ∧ e.world = world ∧ e.tworld = tworld ∧
      e.lo ≤ pa ∧ pa + len ≤ e.lo + e.len ∧ e.rights &&& need = need then 1 else 0] }] }

/-- R316, R317, R319, R326 to R328: links. Every flit that arrives frees the slot that it held (a bad or repeated one too, the model's reading, log 58, 115); one with a good code and the next sequence number is
received, and one with a bad code, and every later one until the sequence resumes, is discarded. A request that no access entry passes changes no memory; the answer to a load brings its line with its side-band byte (R61).
An ordinary flit draws on the pool, and on its world's reserve with the pool full; a replay draws first on the reserve. Reports carry totals. A link that trains announces its buffer and reserves. FNODE is written once, and reserves
never exceed 1,024 together. -/
def Claims.Links : Prop :=
  ∀ s n, let p := portOf s n
    let room : Flit → Port := fun f => if f.rsv = true then { p with freedW := mput p.freedW f.world (mget p.freedW f.world 0 + 1) 0 } else { p with freed := p.freed + 1 }
    (∀ f, p.trained = true → f.seq = p.rcvd → f.req = none → f.ans = none → Nexts (exec (.flitReceive n f true) s) fun t => portOf t n = { room f with rcvd := p.rcvd + 1, gap := false } ∧ t.mem = s.mem) ∧
    (∀ f r, p.trained = true → f.seq = p.rcvd → f.req = some r → reqWaits s f = none → (reqNeeds r.op).1 ≠ 0 → (∀ e ∈ s.fab.access, e.rights &&& (reqNeeds r.op).2 ≠ (reqNeeds r.op).2) →
      Nexts (exec (.flitReceive n f true) s) fun t => portOf t n = { room f with rcvd := p.rcvd + 1, gap := false } ∧ t.mem = s.mem) ∧
    (∀ f a pa m, p.trained = true → f.seq = p.rcvd → f.req = none → f.ans = some a → s.fab.asks = [(a.id, pa, .load m)] → a.integ = 0 → pa % 64 = 0 →
      Nexts (exec (.flitReceive n f true) s) fun t => t.fab.asks = [] ∧ (∀ j, j < 64 → memByte t.mem (pa + j) = a.line.extractLsb' (8 * j) 8) ∧ sideAt t.mem pa = a.side ∧
        ∀ x, x < pa ∨ pa + 64 ≤ x → memByte t.mem x = memByte s.mem x) ∧
    (∀ f, p.trained = true → f.seq ≠ p.rcvd → Nexts (exec (.flitReceive n f true) s) fun t => portOf t n = room f ∧ t.mem = s.mem) ∧
    (∀ f, p.trained = true → Nexts (exec (.flitReceive n f false) s) fun t => portOf t n = { room f with gap := true } ∧ t.mem = s.mem) ∧
    (∀ f, ((p.sent - p.pFreed).toNat < poolSlots p → drawOrdinary p f = some ({ p with sent := p.sent + 1 }, { f with rsv := false })) ∧
      (poolSlots p ≤ (p.sent - p.pFreed).toNat → (mget p.sentW f.world 0 - mget p.pFreedW f.world 0).toNat < mget p.peerRsv f.world 0 →
        drawOrdinary p f = some ({ p with sentW := mput p.sentW f.world (mget p.sentW f.world 0 + 1) 0 }, { f with rsv := true })) ∧
      (poolSlots p ≤ (p.sent - p.pFreed).toNat → mget p.peerRsv f.world 0 ≤ (mget p.sentW f.world 0 - mget p.pFreedW f.world 0).toNat → drawOrdinary p f = none)) ∧
    (∀ f g, p.held = [f] → (f.seq - p.pRcvd).toNat < 2 ^ 31 → (mget p.sentW f.world 0 - mget p.pFreedW f.world 0).toNat < mget p.peerRsv f.world 0 → g = { p with sentW := mput p.sentW f.world (mget p.sentW f.world 0 + 1) 0, held := [{ f with rsv := true }] } →
      Nexts (exec (.flitReplay n) s) fun t => portOf t n = g) ∧
    (∀ f, p.held = [f] → (f.seq - p.pRcvd).toNat < 2 ^ 31 → mget p.peerRsv f.world 0 ≤ (mget p.sentW f.world 0 - mget p.pFreedW f.world 0).toNat → (p.sent - p.pFreed).toNat < poolSlots p →
      Nexts (exec (.flitReplay n) s) fun t => portOf t n = { p with sent := p.sent + 1, held := [{ f with rsv := false }] }) ∧
    (Nexts (exec (.creditReportSend n) s) fun t => portOf t n = { p with turn := (p.turn + 8) % 64 } ∧ t.mem = s.mem ∧ ∃ r, t.answers = s.answers ++ [{ kind := 6, world := 0, data := r }] ∧
      r.take 4 = bytesLE 4 p.freed.toNat ∧ (r.drop 4).take 4 = bytesLE 4 p.rcvd.toNat) ∧
    (∀ r : Report, Nexts (exec (.creditReportReceive n r) s) fun t => (portOf t n).pFreed = r.freed ∧ (portOf t n).pRcvd = r.rcvd ∧
      (p.queue = [] → (portOf t n).held = p.held.filter (fun f => decide ((f.seq - r.rcvd).toNat < 2 ^ 31))) ∧ ∀ w, (∀ x ∈ r.freedW, x.1 ≠ w) → mget (portOf t n).pFreedW w 0 = mget p.pFreedW w 0) ∧
    (∀ sl rs, Nexts (exec (.linkTraining n sl rs) s) fun t => (portOf t n).trained = true ∧ (portOf t n).peerSlots = sl ∧ ∀ w, w < 64 → mget (portOf t n).rsv w 0 = (worldOf s w).frsv) ∧
    (∀ sl rs, p.queue = [] → Nexts (exec (.linkTraining n sl rs) s) fun t => t.answers = s.answers ++ [{ kind := 18, world := 0, data := bytesLE 2 n ++ bytesLE 2 2048 ++
      ((List.range 64).flatMap fun w => bytesLE 1 (worldOf s w).frsv) }]) ∧
    (∀ v, (s.fab.nodeSet = false → Nexts (exec (.fnodeWrite 0 v) s) fun t => t = { s with fab := { s.fab with node := v.setWidth 7, nodeSet := true } }) ∧
      (s.fab.nodeSet = true → exec (.fnodeWrite 0 v) s = .next s) ∧ ∀ u, u ≠ 0 → exec (.fnodeWrite u v) s = .next s) ∧
    ∀ w v, w < 64 → let others := ((List.range 64).filter (· != w)).foldl (fun m u => m + (worldOf s u).frsv) 0
      (others + bits v 0 7 ≤ 1024 → Nexts (exec (.frsvWrite 0 w v) s) fun t => worldOf t w = { worldOf s w with frsv := bits v 0 7 } ∧ t.mem = s.mem) ∧
      (1024 < others + bits v 0 7 → exec (.frsvWrite 0 w v) s = .next s)

/-- R242, R330, R331: a host store changes the bytes it names and clears the tags of its granules, at a time past every lease of its lines; a host read of readable lines changes no byte and gives each byte as the
fences of the groups that wrote it have made it visible (R242); of a world whose TLPs are all refused, a store is discarded and a read is answered with Unsupported Request (the answer is the model's, log 129). A bias
flip is begun by world 0 alone, one at a time; to host bias it drops every copy and every stash line of its pages; when it completes, to device bias once every line is answered, the pages' bits change and BUSY clears; the
answer to a snoop lets the line go on (and serves a weaker request too, the model's choice, log 59). -/
def Obligations.HostAccess : Prop :=
  (∀ s w pa bs len, bs ≠ [] → pa % 64 + bs.length ≤ 64 → pa + bs.length ≤ Config.hbmBytes → stackReady s pa = true → silenced s w = false → plainTo s.mem (ringWho s w).tag pa = true →
    Nexts (exec (.hostAccess w pa (some bs) len) s) fun t => (∀ j (x : BitVec 8), bs[j]? = some x → memByte t.mem (pa + j) = x) ∧
      (∀ a, a < pa ∨ pa + bs.length ≤ a → memByte t.mem a = memByte s.mem a) ∧ sideTag (sideAt t.mem pa) pa = false ∧ (lineAt s.mem pa).2 < (lineAt t.mem pa).1 ∧ t.blocks = s.blocks) ∧
  (∀ s w pa len, 0 < len → pa % 64 + len ≤ 64 → pa + len ≤ Config.hbmBytes → stackReady s pa = true → silenced s w = false → integOf s.mem (sealTag s w) pa = 0 → plainTo s.mem (sealTag s w) pa = true →
    Nexts (exec (.hostAccess w pa none len) s) fun t => sameMemory s t ∧ t.answers = s.answers ++ [{ kind := 5, world := w, data := (List.range len).map fun j => hostByte s.mem (pa + j) }]) ∧
  (∀ (m : MemSys) a, mget m.hidden a [] = [] → hostByte m a = memByte m a) ∧
  (∀ s w pa wr len, silenced s w = true → exec (.hostAccess w pa wr len) s = .next (if wr.isSome then s else answer s 8 w [])) ∧
  (∀ s h page, s.mem.bflip.busy = false → s.blocks = [] → Nexts (exec (.biasFlip 0 h page) s) fun t => t.mem.bflip = { busy := true, host := h, page := page % 2 ^ 36, len := s.mem.bflip.len } ∧
    sameMemory s t ∧ t.mem.bias = s.mem.bias) ∧
  (∀ s page, let f : Bflip := { busy := true, host := true, page := page % 2 ^ 36, len := s.mem.bflip.len }
    s.mem.bflip.busy = false → (∀ kb ∈ s.blocks, ∀ r ∈ kb.2.stash, r.dirty = []) → Nexts (exec (.biasFlip 0 true page) s) fun t => sameMemory s t ∧
      (∀ c, c ∈ t.mem.copies ↔ c ∈ s.mem.copies ∧ inFlip f c.pa = false) ∧
      ∀ k b, blockOf t k = some b → ∀ r ∈ b.stash, ∀ n x, n < r.len / 64 → mfind r.fill n = some x → inFlip f x.pa = false) ∧
  (∀ s u h page, u ≠ 0 ∨ s.mem.bflip.busy = true → exec (.biasFlip u h page) s = .next s) ∧
  (∀ s, s.mem.bflip.busy = true → (s.mem.bflip.host = true ∨ ∀ l, 64 * s.mem.bflip.page ≤ l → l < 64 * (s.mem.bflip.page + s.mem.bflip.len.toNat) → mget s.mem.bflip.done l false = true) →
    Nexts (exec .biasFlipComplete s) fun t => t.mem.bflip = { s.mem.bflip with busy := false, done := [] } ∧ sameMemory s t ∧
    ∀ p, mget t.mem.bias p false = if s.mem.bflip.page ≤ p ∧ p < s.mem.bflip.page + s.mem.bflip.len.toNat then s.mem.bflip.host else mget s.mem.bias p false) ∧
  (∀ s l, (s.mem.bflip.busy = false ∨ s.mem.bflip.host = false ∧ 64 * s.mem.bflip.page ≤ l ∧ l < 64 * (s.mem.bflip.page + s.mem.bflip.len.toNat) ∧ mget s.mem.bflip.done l false = false) →
    exec .biasFlipComplete s = .next s) ∧
  (∀ s l, s.mem.bflip.busy = true → s.mem.bflip.host = false → s.mem.bflip.page ≤ l / 64 → l / 64 < s.mem.bflip.page + s.mem.bflip.len.toNat →
    Nexts (exec (.backInvalidateAnswer l) s) fun t => mget t.mem.bflip.done l false = true ∧ sameMemory s t ∧ t.blocks = s.blocks) ∧
  ∀ s l, s.mem.bflip.busy = false → (mfind s.mem.asked l = none → exec (.backInvalidateAnswer l) s = .next s) ∧
    ∀ k, mfind s.mem.asked l = some k → Nexts (exec (.backInvalidateAnswer l) s) fun t => mget t.mem.snooped l 0 = max k (mget s.mem.snooped l 0) ∧ mfind t.mem.asked l = none ∧
      sameMemory s t ∧ t.blocks = s.blocks

/-! ### Worlds and trust -/

/-- R341, R342: a line that a world writes under its keys keeps its bytes and opens for that world; any other world's read of it fails its check, and a reader without a key gets its ciphertext. Once
a party without the key writes the line, or other bytes stand in its MAC slot, it does not open, unless the bits and the MAC of one of its earlier contents stand there. A line that is not sealed and holds no MAC is
written as it is. -/
def Claims.SealedLines : Prop :=
  ∀ (m : MemSys) pa (t : Nat × Nat), homeOf pa = .hbm → mget m.bad (pa / 64) false = false →
    integOf (sealLine m pa (some t)) (some t) pa = 0 ∧ (openPast m t pa = none → ∀ a, memByte (sealLine m pa (some t)) a = memByte m a) ∧
    (∀ u, u ≠ t → integOf (sealLine m pa (some t)) (some u) pa = 2) ∧
    (openPast m t pa = none → viewLine (sealLine m pa (some t)) none pa = cipherLine m pa t.1 t.2) ∧
    (openPast (sealLine m pa none) t pa = none → integOf (sealLine m pa none) (some t) pa = 2) ∧ (∀ l, openPast m t pa = some l → integOf m (some t) pa = 0 ∧ viewLine m (some t) pa = l) ∧ (plainLine m pa = true → sealLine m pa none = m) ∧
    (∀ a, mfind m.sealed (pa / 64) = some t → mget m.macs (pa / 64) false = true → macSlot m pa = some a →
      integOf m (some t) pa = if memNat m a 8 = (macWord m pa).toNat then 0 else 2)

/-- R336, R337, R345: a world other than 0 is locked from CONFIG_UNLOCKED, no copy of a line of its contexts left, started from CONFIG_LOCKED, and stopped from any other state; leaving LOCKED or RUN erases its keys and leaves none of its blocks. These requests come in the world's SPDM session, and do nothing without one (R344). A TLP is refused in ERROR, and one that fails its check
on a secured stream moves the world to ERROR. World 0 has no TDISP state. -/
def Claims.WorldStates : Prop :=
  ∀ s w, 0 < w → w < Config.worlds →
    let r := worldOf s w
    (r.t.session = true → r.tdisp = .unlocked → Nexts (exec (.lockInterfaceRequest w) s) fun t => (worldOf t w).tdisp = .locked ∧ (worldOf t w).t.epoch = r.t.epoch + 1 ∧ sameMemory s t ∧ t.blocks = s.blocks ∧
      ∀ c ∈ t.mem.copies, ¬((ctxOf s c.ctx).en = true ∧ (ctxOf s c.ctx).world = w)) ∧
    (r.t.session = false ∨ r.tdisp ≠ .unlocked → exec (.lockInterfaceRequest w) s = .next s) ∧
    (r.t.session = true → r.tdisp = .locked → Nexts (exec (.startInterfaceRequest w) s) fun t => worldOf t w = { r with tdisp := .run } ∧ t.mem = s.mem ∧ t.blocks = s.blocks) ∧
    (r.t.session = false ∨ r.tdisp ≠ .locked → exec (.startInterfaceRequest w) s = .next s) ∧
    (r.t.session = true → (r.tdisp = .run ∨ r.tdisp = .locked) → Nexts (exec (.stopInterfaceRequest w) s) fun t => (worldOf t w).tdisp = .unlocked ∧ (worldOf t w).t.keys = [] ∧ (worldOf t w).t.dataKey = 0 ∧
      (worldOf t w).t.macKey = 0 ∧ (worldOf t w).t.ideOn = false ∧ ∀ k b, blockOf t k = some b → ¬((ctxOf s b.ctx).en = true ∧ (ctxOf s b.ctx).world = w)) ∧
    (r.t.session = true → r.tdisp = .error → Nexts (exec (.stopInterfaceRequest w) s) fun t => worldOf t w = { r with tdisp := .unlocked } ∧ t.mem = s.mem ∧ t.blocks = s.blocks) ∧
    (r.t.session = false ∨ r.tdisp = .unlocked → exec (.stopInterfaceRequest w) s = .next s) ∧
    (∀ i g, r.tdisp = .error → Nexts (exec (.tlpReceive w i g) s) fun t => t = { s with answers := s.answers ++ [{ kind := 8, world := w, data := [] }] }) ∧
    (r.tdisp = .unlocked → r.t.ideOn = true → Nexts (exec (.tlpReceive w true false) s) fun t => (worldOf t w).tdisp = .error) ∧
    (r.tdisp ≠ .error → r.t.ideOn = true → exec (.tlpReceive w true true) s = .next s) ∧
    (r.tdisp = .unlocked → exec (.tlpReceive w false true) s = .next s) ∧
    ∀ i g, exec (.lockInterfaceRequest 0) s = .next s ∧ exec (.startInterfaceRequest 0) s = .next s ∧ exec (.stopInterfaceRequest 0) s = .next s ∧ exec (.tlpReceive 0 i g) s = .next s

/-- R297, R339, R340, R344 to R346, R351: the other requests to a world's trust functions. In the world's session IDE keys are programmed and one set made current, and a bounce key opens its channel with both counters 0 while
the world is unlocked; measurements and SPDM requests are answered (the layout of a measurement block is presumed, log 65); S2ROOT is world 0's; the L2 ways of worlds are disjoint and leave at least four shared, and a way
that changes its owner does so empty. -/
def Claims.TrustRequests : Prop :=
  ∀ s w, w < Config.worlds →
    let r := worldOf s w
    (∀ i key, 0 < w → i < 2 → r.t.session = true → Nexts (exec (.ideKeyProg w i key) s) fun t => mfind (worldOf t w).t.ide i = some key ∧ (worldOf t w).tdisp = r.tdisp ∧ (worldOf t w).t.ideOn = r.t.ideOn) ∧
    (∀ i key, 0 < w → r.t.session = true → mfind r.t.ide i = some key → Nexts (exec (.ideKSetGo w i) s) fun t => (worldOf t w).t.ideOn = true ∧ (worldOf t w).t.ideActive = some i ∧
      mfind (worldOf t w).t.ide i = some key ∧ ∀ j, j ≠ i → mfind (worldOf t w).t.ide j = none) ∧
    (r.t.session = false → ∀ i key c, exec (.ideKeyProg w i key) s = .next s ∧ exec (.ideKSetGo w i) s = .next s ∧ exec (.bckey w c) s = .next s) ∧
    (∀ c, c < 16 → r.t.session = true → r.tdisp = .unlocked → Nexts (exec (.bckey w c) s) fun t => (mget (worldOf t w).t.bch c {}).opened = true ∧ (mget (worldOf t w).t.bch c {}).inCtr = 0 ∧
      (mget (worldOf t w).t.bch c {}).outCtr = 0 ∧ t.answers = s.answers ++ [{ kind := 9, world := w, data := bytesLE 32 (mget (worldOf t w).t.bch c {}).key.toNat }] ∧ t.mem = s.mem) ∧
    (∀ c, r.tdisp ≠ .unlocked → exec (.bckey w c) s = .next s) ∧
    (∀ i, Nexts (exec (.getMeasurements i) s) fun t => ∃ d, t = { s with answers := s.answers ++ [{ kind := 4, world := 0, data := d }] } ∧
      (i = 1 → (d.drop 7).take 48 = (bytesLE 48 (mget s.hol.mreg 0 0).toNat).reverse)) ∧
    (r.t.session = true → r.t.lockSession = false → Nexts (exec (.spdmRequest w .endSession) s) fun t => (worldOf t w).t.session = false ∧ (worldOf t w).tdisp = r.tdisp) ∧
    (Nexts (exec (.spdmRequest w .getVersion) s) fun t => (∃ d, t.answers = s.answers ++ [{ kind := 3, world := w, data := d }]) ∧ t.mem = s.mem) ∧
    (∀ v, isLocked r = false ∨ r.s2root = .ofNat 36 (bits v 12 36) → Nexts (exec (.s2rootWrite 0 w v) s) fun t =>
      worldOf t w = { r with s2en := v.getLsbD 63, s2root := .ofNat 36 (bits v 12 36) } ∧ t.mem = s.mem) ∧
    (∀ v, 0 < w → isLocked r = true → r.s2root ≠ .ofNat 36 (bits v 12 36) → Nexts (exec (.s2rootWrite 0 w v) s) fun t => (worldOf t w).tdisp = .error ∧
      (worldOf t w).s2root = .ofNat 36 (bits v 12 36)) ∧
    (∀ u v, u ≠ 0 → exec (.s2rootWrite u w v) s = .next s) ∧
    (∀ m, silenced s w = false → m &&& otherWays s w = 0 → 4 ≤ sharedWays (m ||| otherWays s w) → Nexts (exec (.waysChange w w m) s) fun t => (worldOf t w).t.ways = m ∧ sameMemory s t ∧
      ∀ c, c ∈ t.mem.copies ↔ c ∈ s.mem.copies ∧ (r.t.ways ^^^ m).getLsbD c.way = false) ∧
    ∀ m, m &&& otherWays s w ≠ 0 ∨ sharedWays (m ||| otherWays s w) < 4 → exec (.waysChange w w m) s = .next s

/-- R123, R339, R347: a derivation of a world into one of its registers stores a capability no wider than the world's root, with the bounds asked for as they are encoded, or CODE 2; a bad field is CODE 3. A key is generated in an empty slot with the next
generation; revoking one erases it and its handle no longer stands; an operation whose destination waits for the host is busy. (CODE 3 for a KEYDST that is not a multiple of 64 is the model's reading, log 64.) -/
def Claims.DerivationsAndKeys : Prop :=
  ∀ s w, w < Config.worlds → silenced s w = false →
    let t0 := (worldOf s w).t
    (t0.cdctl.getLsbD 62 = false → t0.cdctl.getLsbD 60 = false → t0.cdctl.getLsbD 61 = false → badField w t0 = false → capRegAt w (bits t0.cddst 60 4) (bits t0.cddst 0 32) = some (.fbuf w) →
      (∀ k, derived t0 = .ok k → Nexts (exec (.capabilityDerive w w) s) fun t => (worldOf t w).fbuf = k ∧ bits (worldOf t w).t.cdctl 24 8 = 1 ∧ t.mem = s.mem) ∧
      (∀ n, derived t0 = .error n → Nexts (exec (.capabilityDerive w w) s) fun t => (worldOf t w).fbuf = (worldOf s w).fbuf ∧ bits (worldOf t w).t.cdctl 24 8 = n)) ∧
    (t0.cdctl.getLsbD 62 = false → t0.cdctl.getLsbD 60 = false → badField w t0 = true → Nexts (exec (.capabilityDerive w w) s) fun t => bits (worldOf t w).t.cdctl 24 8 = 3 ∧ (worldOf t w).fbuf = (worldOf s w).fbuf) ∧
    (∀ k, derived t0 = .ok k → t0.cdctl.getLsbD 60 = false → capBase k ≤ t0.cdbase.toNat ∧ t0.cdbase.toNat + t0.cdlen.toNat ≤ capBase k + capLen k ∧ capBase k + capLen k ≤ 2 ^ 57 ∧ k.perm = t0.root.perm &&& .ofNat 12 (bits t0.cdctl 0 12) ∧ k.addr = t0.cdaddr) ∧
    (t0.cdctl.getLsbD 62 = false → t0.cdctl.getLsbD 60 = true → t0.cdctl.getLsbD 61 = false → badField w t0 = false → capRegAt w (bits t0.cddst 60 4) (bits t0.cddst 0 32) = some (.fbuf w) →
      Nexts (exec (.typeKeyDerive w w) s) fun t => (worldOf t w).fbuf.tag = true ∧ (worldOf t w).fbuf.otype = .ofNat 8 (bits t0.cdctl 32 8) ∧ isKey (worldOf t w).fbuf = true ∧ bits (worldOf t w).t.cdctl 24 8 = 1) ∧
    (∀ u, u ≠ w → u ≠ 0 → exec (.capabilityDerive u w) s = .next s ∧ exec (.typeKeyDerive u w) s = .next s ∧ exec (.keyGenerateEcdsa u w) s = .next s ∧ exec (.keyGenerateMldsa u w) s = .next s ∧
      exec (.keyRevoke u w) s = .next s ∧ exec (.handleReissue u w) s = .next s) ∧
    (t0.keycmd.getLsbD 62 = false → let slot := bits t0.keycmd 36 4
     let cmd : Nat → State := fun op => modTrust s w fun t => { t with keycmd := (t.keycmd &&& ~~~0x0000FF0000000000) ||| .ofNat 64 (op * 2 ^ 40) }
     let key := mget t0.keys slot {}
     let gen : Instr → Nat → Prop := fun i alg =>
       (∀ s1 s2 ps qs, t0.keydst.toNat % 64 = 0 → key.alg = none → keyPlaces (cmd (alg + 1)) w 0 16 = (s1, .val ps) → keyPlaces s1 w 64 (publicLen alg) = (s2, .val qs) → Nexts (exec i s) fun t =>
         ∃ k : KeySlot, mget (worldOf t w).t.keys slot {} = k ∧ k.alg = some (.ofNat 8 alg) ∧ k.gen = key.gen + 1 ∧ k.seq = 0 ∧ bits (worldOf t w).t.keycmd 48 8 = 1) ∧
       (∀ s1, t0.keydst.toNat % 64 = 0 → key.alg = none → keyPlaces (cmd (alg + 1)) w 0 16 = (s1, .waits) → Nexts (exec i s) fun t =>
         (worldOf t w).t.keycmd.getLsbD 62 = true ∧ mget (worldOf t w).t.keys slot {} = mget (worldOf s1 w).t.keys slot {}) ∧
       (t0.keydst.toNat % 64 = 0 → key.alg.isSome → Nexts (exec i s) fun t => mget (worldOf t w).t.keys slot {} = key ∧ bits (worldOf t w).t.keycmd 48 8 = 2) ∧
       (t0.keydst.toNat % 64 ≠ 0 → Nexts (exec i s) fun t => mget (worldOf t w).t.keys slot {} = key ∧ bits (worldOf t w).t.keycmd 48 8 = 3)
     gen (.keyGenerateEcdsa w w) 0 ∧ gen (.keyGenerateMldsa w w) 1 ∧
     (key.alg.isSome → s.eng.seals = [] → s.eng.cmds = [] → Nexts (exec (.keyRevoke w w) s) fun t => (mget (worldOf t w).t.keys slot {}).alg = none ∧ (mget (worldOf t w).t.keys slot {}).secret = 0 ∧
       (mget (worldOf t w).t.keys slot {}).gen = key.gen ∧ bits (worldOf t w).t.keycmd 48 8 = 1) ∧
     (key.alg = none → Nexts (exec (.keyRevoke w w) s) fun t => bits (worldOf t w).t.keycmd 48 8 = 2) ∧
     (∀ s1 p n ps, key.alg.isSome → t0.keydst.toNat % 64 = 0 → keyPlaces (cmd 4) w 0 16 = (s1, .val ((p, n) :: ps)) →
       p.pa % 16 = 0 → homeOf p.pa ≠ .host → Nexts (exec (.handleReissue w w) s) fun t => sideTag (sideAt t.mem p.pa) p.pa = (fabCap p (handleCap w slot key.gen)).tag ∧ bits (worldOf t w).t.keycmd 48 8 = 1) ∧
     (key.alg = none → t0.keydst.toNat % 64 = 0 → Nexts (exec (.handleReissue w w) s) fun t => t.mem = s.mem ∧ bits (worldOf t w).t.keycmd 48 8 = 2))

end

/-- Walks, faults, replay and invalidation. -/
def Obligations.TranslationAndReplay : Prop :=
  Claims.WalkAndReplay ∧ Claims.TokenReplays ∧ Claims.Invalidation

/-- Windows, messages and links. -/
def Obligations.WindowsMessagesLinks : Prop :=
  Claims.Windows ∧ Claims.Messages ∧ Claims.Links

/-- Sealed lines, worlds, trust requests, derivations and keys. -/
def Obligations.WorldsAndTrust : Prop :=
  Claims.SealedLines ∧ Claims.WorldStates ∧ Claims.TrustRequests ∧ Claims.DerivationsAndKeys

section
open Sys2Proof Sys2Proof.Machine

/-! ### Errors and revocation -/

/-- R354, R355, R357: a control parity error ends every context with a block on the core and begins the core's reset, which ends with the core ready; the scrub marks a sector found bad and changes nothing else of memory (a full error ring may ask the host for its lines, R330; here no merged record is due to be written, R356). An error that a code corrects changes nothing; one in a clean line of an L1 drops the copy alone; one in a register of a resident group ends the group's context; one in an array of a core ends nothing where no block of the core uses it. -/
def Claims.CoreErrors : Prop :=
  (∀ s core, core < Config.cores → coreCtxs s core = [] → noMergeDue s → Nexts (exec (.controlParityError core) s) fun t => t.blocks = s.blocks ∧ t.mem = s.mem ∧ t.ctxs = s.ctxs ∧
    (mget t.hol.cores core {}).resetting = true ∧ (mget t.hol.cores core {}).cerr = satInc 0xFFFF (mget s.hol.cores core {}).cerr) ∧
  (∀ s core c, core < Config.cores → coreCtxs s core = [c] → Nexts (exec (.controlParityError core) s) fun t => (ctxOf t c).st = 4 ∧ (mget t.hol.cores core {}).resetting = true ∧
    ∀ k b, blockOf t k = some b → b.ctx ≠ c) ∧
  (∀ s core, (mget s.hol.cores core {}).resetting = true → Nexts (exec (.coreReset core) s) fun t => mget t.hol.cores core {} = { mget s.hol.cores core {} with resetting := false } ∧
    t.mem = s.mem ∧ t.blocks = s.blocks) ∧
  (∀ s core, (mget s.hol.cores core {}).resetting = false → exec (.coreReset core) s = .next s) ∧
  ∀ s n, 64 * n < Config.hbmBytes → (s.hol.errring.tag = false → ∀ c, Nexts (exec (.patrolScrub n c true) s) fun t => mget t.mem.bad n false = true ∧
      t.mem = { s.mem with bad := t.mem.bad, asked := t.mem.asked } ∧ ∀ m, m ≠ n → mget t.mem.bad m false = mget s.mem.bad m false) ∧
    (noMergeDue s → Nexts (exec (.patrolScrub n true false) s) fun t => t.mem = s.mem ∧ t.blocks = s.blocks) ∧ exec (.patrolScrub n false false) s = .next s ∧
    (∀ unit core pa, unit ≠ 4 → noMergeDue s → (takeSoft s (.corrected unit core pa)).blocks = s.blocks ∧ (takeSoft s (.corrected unit core pa)).mem = s.mem ∧ (takeSoft s (.corrected unit core pa)).hol.cores = s.hol.cores) ∧
    (∀ core pa, noMergeDue s → let t := takeSoft s (.clean 4 core pa)
      sameMemory s t ∧ t.blocks = s.blocks ∧ t.mem.copies = s.mem.copies.filter fun c => !(c.pa / 64 == pa / 64 && c.core == core)) ∧
    (∀ k i b g, blockOf s k = some b → groupOf s k i = some g → b.life = .resident → (ctxOf (takeSoft s (.regs k i)) b.ctx).st = 4 ∧
      ∀ k' b', blockOf (takeSoft s (.regs k i)) k' = some b' → b'.ctx ≠ b.ctx) ∧
    ∀ core which, (∀ kb ∈ s.blocks, kb.2.core ≠ core ∨ usesArray kb.2 which = false) → takeSoft s (.array core which) = s

/-- R358 to R362: a sweep. GO checks NAREA, the map and the areas (in that order, the model's reading, log 68), and with a free Conservator begins the register phase, every group of the context due. A due group at a switch point is swept: a capability
register keeps its capability and loses its tag only where the capability is revoked. A due group that has met no switch point for 6,400 ticks is swept at its boundary, a split in no latch run standing where it stood; one that has a trap handler
takes the register-sweep trap, cause 0x14, too. (In these clauses no line of the map waits for the host.) A granule checked in memory keeps its bytes, and no tag is set; after the last granule the sweep is complete: BUSY clears, NDONE rises, CLEARED gives the tags cleared, and the world's revocation interrupt is raised. -/
def Claims.RevocationSweep : Prop :=
  (∀ s c n, c < Config.contexts → (ctxOf s c).rv.busy = false → silenced s (ctxOf s c).world = false →
    let w := (ctxOf s c).world
    let e := sweepErr (ctxOf s c).rv n.toNat
    (e ≠ 0 → Nexts (exec (.revocationSweepStart w c n) s) fun t => (ctxOf t c).rv = { (ctxOf s c).rv with narea := n, err := e } ∧ t.blocks = s.blocks) ∧
    (e = 0 → (s.ctxs.filter fun x => x.2.rv.busy && x.2.rv.phase != 0) = [] → 0 < sweepRoom s → Nexts (exec (.revocationSweepStart w c n) s) fun t => (ctxOf t c).rv.busy = true ∧ (ctxOf t c).rv.phase = 1 ∧
      (ctxOf t c).rv.err = 0 ∧ (ctxOf t c).rv.count = 0 ∧ t.mem = s.mem ∧
      ∀ k b, blockOf s k = some b → b.ctx = c → b.task = none → ∃ b', blockOf t k = some b' ∧ ∀ g ∈ b'.groups, g.sweepDue = some s.gt) ∧
    ∀ u, u ≠ 0 → u ≠ w → exec (.revocationSweepStart u c n) s = .next s) ∧
  (∀ s c n, (ctxOf s c).rv.busy = true → exec (.revocationSweepStart 0 c n) s = .next s) ∧
  (∀ s k i b g, blockOf s k = some b → groupOf s k i = some g → g.sweepDue.isSome → g.out = [] → mwf ({} : Cap) g.r.k = true → mwf ({} : Cap) g.r.c = true →
    let ready : State → State → Prop := fun u s1 => ∃ b2 g2, groupWith (drainGroup u k i) k i = some (b2, g2) ∧ checkMap (drainGroup u k i) b2.ctx (groupCaps b2 g2) = (s1, true)
    let swept : State → (Group → Prop) → State → Prop := fun s1 kept t => let f := sweepCap (mapMarked s1 b.ctx)
       sameMemory s t ∧ ∃ g' : Group, groupOf t k i = some g' ∧ (∀ j, mget g'.r.k j {} = f (mget g.r.k j {})) ∧ (∀ j, mget g'.r.c j {} = f (mget g.r.c j {})) ∧
      g'.sweepDue = none ∧ kept g' ∧ g'.r.w = g.r.w ∧ g'.r.s = g.r.s
    (∀ s1, (∃ p ∈ g.splits, sweepHere b g p = true) → ready s s1 → Nexts (exec (.groupRegisterSweep k i) s)
      (swept s1 fun g' => g'.splits = sweepSplits (sweepCap (mapMarked s1 b.ctx)) g.splits ∧ ((∀ p ∈ g.splits, p.run = none) → g'.splits = g.splits))) ∧
    (∀ t0 s1, g.sweepDue = some t0 → t0 + 6400 ≤ s.gt → g.pend = none → g.tmode = none → g.inPacket = false → g.tr.tvec.getLsbD 63 = false →
      ready (modGroup (normRuns s k i) k i parkSplits) s1 → Nexts (exec (.sweepSwitchWaitExpiry k i) s) (swept s1 fun g' => (∀ p ∈ g.splits, p.run = none) → g'.splits = g.splits)) ∧
    (∀ t0 s1 p, g.sweepDue = some t0 → t0 + 6400 ≤ s.gt → g.pend = none → g.tmode = none → g.inPacket = false → g.tr.tvec.getLsbD 63 = true → g.halt = .no → g.low = some p →
      ready (normRuns s k i) s1 → ∃ t, swept s1 (fun g' => (∀ p ∈ g.splits, p.run = none) → g'.splits = g.splits) t ∧
        exec (.sweepSwitchWaitExpiry k i) s = .next (takeAtBoundary t k i { cause := 0x14, widx := p.word, resume := .next, split := p.no, pkt := p.pc })) ∧
    (∀ t0, g.sweepDue = some t0 → s.gt < t0 + 6400 → exec (.sweepSwitchWaitExpiry k i) s = .next s)) ∧
  (∀ (marked : Nat → Bool) (c : Cap), (sweepCap marked c).tag = (c.tag && !(c.tag && !isSpad c && c.otype != 2 && marked (capBase c))) ∧ sweepCap marked c = { c with tag := (sweepCap marked c).tag }) ∧
  ∀ s c, let r := (ctxOf s c).rv
    let a := r.areas.getD r.area {}
    let q := sweepGranule s c r.cur.toNat
    (r.busy = true → r.phase = 2 → q.2 = false → exec (.sweepGranuleCheck c) s = .next q.1) ∧
    (r.busy = true → r.phase = 2 → q.2 = true → r.cur.toNat + 16 < capBase a + capLen a → r.cur.toNat + 16 < 2 ^ 64 → Nexts (exec (.sweepGranuleCheck c) s) fun t => (ctxOf t c).rv.cur.toNat = r.cur.toNat + 16 ∧ (ctxOf t c).rv.phase = 2 ∧
      (∀ x, memByte t.mem x = memByte s.mem x) ∧ ∀ x, sideTag (sideAt t.mem x) x = true → sideTag (sideAt s.mem x) x = true) ∧
    (r.busy = true → r.phase = 2 → q.2 = true → capBase a + capLen a ≤ r.cur.toNat + 16 → nextArea r (r.area + 1) = none → Nexts (exec (.sweepGranuleCheck c) s) fun t => (ctxOf t c).rv.busy = false ∧
      (ctxOf t c).rv.ndone = r.ndone + 1 ∧ (ctxOf t c).rv.cleared = (ctxOf t c).rv.count ∧ (∀ x, memByte t.mem x = memByte s.mem x) ∧
      let w := (ctxOf s c).world
      (worldOf t w).irqs = modAt (worldOf s w).irqs 2 (· + 1)) ∧
    (r.busy = false → exec (.sweepGranuleCheck c) s = .next s)

/-! ### Repair, power, bring-up -/

/-- R363, R364: a core is repaired by world 0 only, with the lowest free spare of its die, while it is drained and empty: code 1, and code 4, 2 or 3 where it cannot be; OFFLINE is taken only while the core is empty. (The order of
the checks behind the codes 4, 2 and 3 is the model's reading, log 69.) -/
def Claims.Repair : Prop :=
  ∀ s d c, d < 8 →
    let r := repairOf s d
    let code : State → Nat → Prop := fun t n => repairOf t d = { r with lcore := c % 256, code := n } ∧ t.hol.cores = s.hol.cores
    (c < Config.cores → c / 28 = d → coreEmpty s c = true → (mget s.hol.cores c {}).drain = true → ∀ n, freeSpare r = some n → Nexts (exec (.repair 0 d c true) s) fun t =>
      repairOf t d = { r with lcore := c % 256, spares := r.spares &&& ~~~(.ofNat 4 (2 ^ n)), code := 1, table := minsert r.table c n } ∧ (mget t.hol.cores c {}).spared = true) ∧
    (∀ ok, (Config.cores ≤ c ∨ c / 28 ≠ d) → Nexts (exec (.repair 0 d c ok) s) fun t => code t 4) ∧
    (∀ ok, c < Config.cores → c / 28 = d → (coreEmpty s c = false ∨ (mget s.hol.cores c {}).drain = false) → Nexts (exec (.repair 0 d c ok) s) fun t => code t 2) ∧
    (∀ ok, c < Config.cores → c / 28 = d → coreEmpty s c = true → (mget s.hol.cores c {}).drain = true → freeSpare r = none → Nexts (exec (.repair 0 d c ok) s) fun t => code t 3) ∧
    (∀ v, c < Config.cores → 
      let off := if coreEmpty s c = true then v.getLsbD 61 else (mget s.hol.cores c {}).offline
      let core' : CoreSt := { mget s.hol.cores c {} with drain := v.getLsbD 63, offline := off }
      Nexts (exec (.corectlWrite 0 c v) s) fun t => mget t.hol.cores c {} = core' ∧ t.mem = s.mem ∧ t.blocks = s.blocks) ∧
    ∀ u v ok, u ≠ 0 → exec (.repair u d c ok) s = .next s ∧ exec (.corectlWrite u c v) s = .next s

/-- R364 to R371: wings and power. A re-plan waits for a maintenance point; at it AGECAP falls by the levels whose slack is under 20 ps. A bring-up re-plans only a wing that is not ready
yet. A timing error holds the group whose issue group is replayed for 12 cycles (the choice of which group is told with the event, log 39), and the 65th in a millisecond lowers AGECAP and asks for a re-plan. A clock changes at a
tick boundary. PKCAP falls by one above the limit, rises by one after 1 ms below 95 % of it, and stays otherwise. Energy is charged to contexts and worlds, and the credit of what transfers have avoided to the worlds; filler
changes the accounts alone. -/
def Claims.WingsAndPower : Prop :=
  ∀ s n, n < Config.wings →
    let w := wingSt s n
    let still : State → Prop := fun t => t.blocks = s.blocks ∧ t.ctxs = s.ctxs ∧ t.gt = s.gt
    let quiet : State → Prop := fun t => t.mem = s.mem ∧ still t
    (Nexts (exec (.replanRequest 0 n) s) fun t => wingSt t n = { w with replan := true } ∧ quiet t) ∧ (∀ u, u ≠ 0 → exec (.replanRequest u n) s = .next s) ∧
    (∀ slack : List (BitVec 8), maintenance s w = true → (∀ l, l ≤ w.agecap → 20 ≤ (slack.getD l 0).toNat) → Nexts (exec (.wingReplan n false slack) s) fun t => (wingSt t n).agecap = w.agecap ∧ (wingSt t n).replan = false ∧
      (wingSt t n).replans = satInc 0xFFFF w.replans ∧ (wingSt t n).margin = slack.getD w.agecap 0 ∧ (wingSt t n).planAt = s.gt ∧ quiet t) ∧
    (∀ slack, maintenance s w = false → exec (.wingReplan n false slack) s = .next s) ∧ (∀ slack, bringingUp s n = false → exec (.wingReplan n true slack) s = .next s) ∧
    (∀ slack : List (BitVec 8), s.hol.errring.tag = false → 20 ≤ (slack.getD 0 0).toNat → maintenance s w = true → Nexts (exec (.wingReplan n false slack) s) fun t =>
      (wingSt t n).agecap = w.agecap - ((List.range (w.agecap + 1)).filter fun l => (slack.getD l 0).toNat < 20).length ∧ t.mem = { s.mem with asked := t.mem.asked } ∧ still t) ∧
    (∀ k i, w.replays = [] → Nexts (exec (.timingErrorReplay ⟨n, k, i⟩) s) fun t => wingSt t n = { w with replays := [s.gt] } ∧ t.mem = s.mem ∧ (∀ j, j ≠ k → blockOf t j = blockOf s j) ∧
      ∀ b, blockOf s k = some b → blockOf t k = some (if b.core / 7 = n ∧ b.life = .resident then b.modGroup i (·.hold 48) else b)) ∧
    (∀ k i, (w.replays.filter fun t => decide (s.gt < t + 100000)).length = 64 → Nexts (exec (.timingErrorReplay ⟨n, k, i⟩) s) fun t => (wingSt t n).agecap = w.agecap - 1 ∧ (wingSt t n).replan = true) ∧
    (w.pl ≠ w.plNext → w.sub = 0 → Nexts (exec (.clockChange n) s) fun t => wingSt t n = { w with pl := w.plNext } ∧ quiet t) ∧ (w.sub ≠ 0 → exec (.clockChange n) s = .next s) ∧
    (∀ p, Nexts (exec (.pkcapAdjust p) s) fun t => quiet t ∧
      (s.hol.plim < p → t.hol.pkcap = s.hol.pkcap - 1 ∧ t.hol.lowAt = none) ∧
      (p ≤ s.hol.plim → 95 * s.hol.plim ≤ 100 * p → t.hol.pkcap = s.hol.pkcap ∧ t.hol.lowAt = none) ∧
      (p ≤ s.hol.plim → 100 * p < 95 * s.hol.plim → (s.hol.lowAt = none → t.hol.pkcap = s.hol.pkcap ∧ t.hol.lowAt = some s.gt) ∧
        ∀ t0, s.hol.lowAt = some t0 → (s.gt < t0 + 100000 → t.hol.pkcap = s.hol.pkcap ∧ t.hol.lowAt = some t0) ∧
          (t0 + 100000 ≤ s.gt → t.hol.pkcap = min 7 (s.hol.pkcap + 1) ∧ t.hol.lowAt = some s.gt))) ∧
    (∀ c a y, y ≠ 0 → wingCtxs s n = [] → Nexts (exec (.energyAccounting n a 0 [(c, y)] []) s) fun t => ctxOf t c = { ctxOf s c with ectx := (ctxOf s c).ectx + .ofNat 64 a } ∧
      (worldOf t (ctxOf s c).world).econs = (worldOf s (ctxOf s c).world).econs + .ofNat 64 a ∧ t.mem = s.mem ∧ t.blocks = s.blocks) ∧
    (∀ x : Transfer, wingCtxs s n = [] → let r := worldOf s x.world
      let pj := r.creditPj + x.hbmToggles + 3 * x.fabToggles + 500 * x.sectors + 1200 * x.flits
      Nexts (exec (.energyAccounting n 0 0 [] [x]) s) fun t => worldOf t x.world = { r with econs := r.econs + .ofNat 64 x.energy, ecred := r.ecred + .ofNat 64 (pj / 1000000), creditPj := pj % 1000000 } ∧ quiet t) ∧
    ∀ c e, Nexts (exec (.fillerIssue n c e) s) fun t => t.mem = s.mem ∧ t.blocks = s.blocks ∧ ctxOf t c = { ctxOf s c with ectx := (ctxOf s c).ectx + .ofNat 64 e } ∧
      worldOf t (ctxOf s c).world = { worldOf s (ctxOf s c).world with econs := (worldOf s (ctxOf s c).world).econs + .ofNat 64 e, efill := (worldOf s (ctxOf s c).world).efill + .ofNat 64 e }

/-- R350, R372, R373: power-on leaves everything as at reset but what is fused and the repair table; the boot images are measured in order and the first that fails its checks (its key's digest is fused and its signature good, its
version not below the fused one) ends the chain. A unit that has passed its test is ready once what it waits for
is, once the chain has run; one that fails stays not ready. -/
def Claims.BringUp : Prop :=
  (∀ s images, Nexts (exec (.powerOnBoot images) s) fun t => t.blocks = [] ∧ t.mem = State.reset.mem ∧ t.ctxs = [] ∧ t.worlds = [] ∧ t.eng = State.reset.eng ∧ t.curator = State.reset.curator ∧ t.fab = State.reset.fab ∧ t.gt = 0 ∧
    t.hol.minver = s.hol.minver ∧ t.hol.repair = s.hol.repair.map (fun x => (x.1, { x.2 with lcore := 0, code := 0 })) ∧ t.hol.booted = true ∧ (∀ c, (mget t.hol.cores c {}).drain = false) ∧
    (t.hol.bootFail = true ↔ ∃ x ∈ images.take 5, ¬(Config.sha384 x.key = Config.fusedKey ∧ Config.ecdsaGood x.key (Config.sha384 x.bytes) x.sig = true) ∨ x.secver < s.hol.minver) ∧
    (∀ x r, images = x :: r → mget t.hol.mreg 0 0 = Config.sha384 (digestBytes 0 ++ digestBytes (Config.sha384 x.bytes)))) ∧
  (∀ s u, s.hol.booted = true → s.hol.bootFail = false → unitExists u = true → unitWaits s u = false →
    (Nexts (exec (.unitReady u true) s) fun t => t.hol = setReady s.hol u ∧ t.curator.idleAt = none ∧ t.mem = s.mem ∧ t.blocks = s.blocks) ∧
    (Nexts (exec (.unitReady u false) s) fun t => t.hol.ready = s.hol.ready ∧ t.hol.wready = s.hol.wready ∧ t.hol.pready = s.hol.pready ∧ t.blocks = s.blocks)) ∧
  (∀ s u ok, s.hol.booted = false ∨ s.hol.bootFail = true ∨ unitWaits s u = true → exec (.unitReady u ok) s = .next s) ∧
  ∀ (h : Holdar) i, i < 8 → (setReady h (.cd i)).ready.getLsbD i = true ∧ (setReady h (.hbm i)).ready.getLsbD (16 + i) = true ∧ (setReady h .cfg).ready.getLsbD 63 = true ∧ (setReady h .hlm).ready.getLsbD 62 = true ∧
    (setReady h (.wing i)).wready.getLsbD i = true ∧ (setReady h (.wing i)).ready = h.ready ∧ (setReady h (.port i)).pready.getLsbD i = true

/-! ### Registers of the apertures, and reset -/

/-- R252 to R254, R266, R269, R297, R322, R325, R336, R338, R339, R341, R367: a write by a world that may not make it changes nothing (one of a queue register is told to world 0), nor does one of a world whose TLPs are all refused (R336,
R345), whose reads are answered with Unsupported Request (the model's choice, log 129); a read answers the register's word, 0 in
a block of another world; world 0's writes of queue, world, power, unit, context, window and partition registers take the fields that the
register tables give, and a field not writable in the register's state stays. -/
def Claims.RegisterWrites : Prop :=
  (∀ s u r v, mayWrite s u r = false → (∀ c, r ≠ .rvctl c) → (∀ q, r ≠ .qcfg q) → exec (.registerWrite u r v) s = .next s) ∧
  (∀ s u r v, silenced s u = true → exec (.registerWrite u r v) s = .next s) ∧
  (∀ s u q v, u ≠ 0 → Nexts (exec (.registerWrite u (.qcfg q) v) s) fun t => t = { s with answers := t.answers } ∧
    (silenced s u = false → q < Config.queues → u ≠ (queueOf s q).world → t.answers = s.answers ++ [{ kind := 1, world := u, data := bytesLE 4 q ++ bytesLE 8 v.toNat }])) ∧
  (∀ s u a o, takeRead s u a o = if silenced s u then answer s 8 u [] else answer s 19 u (bytesLE 8 (readReg s u a o))) ∧
  (∀ s u, u ≠ 0 → (∀ q o, u ≠ (queueOf s (q / 64)).world → readReg s u 0 q = 0 ∧ readReg s u 6 o = 0) ∧ (∀ c, u ≠ (ctxOf s (c / 128)).world → readReg s u 1 c = 0 ∧ readReg s u 4 c = 0) ∧
    (∀ c, c < Config.contexts → u ≠ (ctxOf s c).world → readReg s u 2 (0x4000 + 8 * c) = 0)) ∧
  (∀ s u, u ≠ 0 → (∀ q, mayWrite s u (.qcfg q) = false) ∧ (∀ w, mayWrite s u (.wcfg w) = false ∧ mayWrite s u (.wpre w) = false ∧ mayWrite s u (.wpwr w) = false) ∧ mayWrite s u .plim = false ∧
    (∀ c, mayWrite s u (.cxworld c) = false ∧ mayWrite s u (.cxstop c) = false ∧ mayWrite s u (.cxslice c) = false ∧ mayWrite s u (.xmtf c) = false) ∧ (∀ n, mayWrite s u (.wctl n) = false)) ∧
  ∀ s v, silenced s 0 = false →
    (∀ q, q < Config.queues → 4 ≤ bits v 0 5 → bits v 0 5 ≤ 16 → Nexts (exec (.registerWrite 0 (.qcfg q) v) s) fun t =>
      queueOf t q = { queueOf s q with en := v.getLsbD 63, world := bits v 57 6, pmax := bits v 54 3, log2n := bits v 0 5 } ∧ t.mem = s.mem ∧ t.blocks = s.blocks) ∧
    (∀ w, w < Config.worlds →
      (Nexts (exec (.registerWrite 0 (.wcfg w) v) s) fun t => worldOf t w = { worldOf s w with weight := max 1 (bits v 56 8), maxp := bits v 53 3, capblk := bits v 37 16, wingset := .ofNat 32 (bits v 0 32) }) ∧
      (Nexts (exec (.registerWrite 0 (.wpre w) v) s) fun t => worldOf t w = { worldOf s w with budget := bits v 0 16 }) ∧
      (Nexts (exec (.registerWrite 0 (.wpwr w) v) s) fun t => worldOf t w = { worldOf s w with defpl := .ofNat 3 (bits v 4 3), maxpl := .ofNat 3 (bits v 0 3) }) ∧
      (Nexts (exec (.registerWrite 0 (.invaddr w) v) s) fun t => worldOf t w = { worldOf s w with invaddr := .ofNat 45 (bits v 12 45) })) ∧
    (Nexts (exec (.registerWrite 0 .plim v) s) fun t => t = { s with hol := { s.hol with plim := min 3000 (bits v 0 16) } }) ∧
    (∀ c, c < Config.contexts →
      ((ctxOf s c).en = false → Nexts (exec (.registerWrite 0 (.cxworld c) v) s) fun t => ctxOf t c = { ctxOf s c with world := bits v 57 6 }) ∧
      ((ctxOf s c).en = true → exec (.registerWrite 0 (.cxworld c) v) s = .next s) ∧
      (Nexts (exec (.registerWrite 0 (.cxslice c) v) s) fun t => ctxOf t c = { ctxOf s c with slice := .ofNat 32 (bits v 0 32) }) ∧
      (((ctxOf s c).st = 0 ∨ (ctxOf s c).st = 4) → Nexts (exec (.registerWrite 0 (.cxstop c) v) s) fun t => ctxOf t c = { ctxOf s c with stopped := v.toNat }) ∧
      (Nexts (exec (.registerWrite 0 (.cxs1 c) v) s) fun t => ctxOf t c = { ctxOf s c with s1 := v &&& 0x8000FFFFFFFFF000 }) ∧
      (Nexts (exec (.registerWrite 0 (.xmtf c) v) s) fun t => ctxOf t c = { ctxOf s c with xmtf := v })) ∧
    (∀ n, n < 4096 → (mget s.fab.wins n {}).en = false → Nexts (exec (.registerWrite 0 (.wva n) v) s) fun t => mget t.fab.wins n {} = { mget s.fab.wins n {} with va := .ofNat 45 (bits v 12 45) }) ∧
    (∀ n, n < 4096 → (mget s.fab.wins n {}).en = true → exec (.registerWrite 0 (.wva n) v) s = .next s) ∧
    (∀ d, d < 8 → Nexts (exec (.registerWrite 0 (.repair d) v) s) fun t => repairOf t d = { repairOf s d with lcore := bits v 55 8 } ∧ t.mem = s.mem ∧ t.blocks = s.blocks) ∧
    (s.hol.ready.getLsbD 63 = true → s.hol.sriov = false → v.getLsbD 0 = true → Nexts (exec (.registerWrite 0 .sriov v) s) fun t => t.hol = { s.hol with sriov := true } ∧ t.mem = s.mem ∧
      ∀ w, w ≠ 0 → worldOf t w = { worldOf s w with econs := 0, efill := 0, ecred := 0, creditPj := 0 }) ∧
    (s.hol.ready.getLsbD 63 = false → exec (.registerWrite 0 .sriov v) s = .next s) ∧
    (∀ w, w < Config.worlds → silenced s w = false → Nexts (exec (.registerWrite w (.cdbase w) v) s) fun t => (worldOf t w).t.cdbase = v ∧ t.mem = s.mem)

/-- R61, R201, R234, R252 to R254, R266, R267, R297, R316, R336, R339, R367, R368: what reset leaves. Where the spec states no value, the value is the model's choice; of those
this statement names two: the global timer's (log entry 9) and the fused minimum version's (log entry 8). -/
def Claims.ResetValues : Prop :=
  let s := State.reset
  s.gt = 0 ∧ s.blocks = [] ∧ s.fab.node = 0 ∧ s.hol.ready = 0 ∧ s.hol.plim = 3000 ∧ s.hol.minver = 0 ∧
  (∀ q, (queueOf s q).en = false ∧ (queueOf s q).log2n = 4 ∧ (queueOf s q).head = 0 ∧ (queueOf s q).tail = 0 ∧ (queueOf s q).refused = 0 ∧ (queueOf s q).lasterr = 0 ∧ (queueOf s q).arena.tag = false ∧ (queueOf s q).ring.tag = false) ∧
  (∀ u, (unitOf s u).en = false ∧ (unitOf s u).canc = false ∧ (unitOf s u).parent = 0xFFFF ∧ (unitOf s u).expect = 0) ∧
  (∀ c, (ctxOf s c).en = false ∧ (ctxOf s c).st = 0 ∧ (ctxOf s c).stop = false ∧ (ctxOf s c).save.tag = false ∧ (ctxOf s c).evring.tag = false ∧ (ctxOf s c).rv.busy = false) ∧
  (∀ w, (worldOf s w).weight = 1 ∧ (worldOf s w).capblk = 0 ∧ (worldOf s w).budget = 1700 ∧ (worldOf s w).defpl = 5 ∧ (worldOf s w).maxpl = 7 ∧ (worldOf s w).s2en = false ∧ (worldOf s w).frsv = 8 ∧ (worldOf s w).tdisp = .unlocked ∧
    (worldOf s w).t.root.perm = 0x19F ∧ (worldOf s w).t.root.otype = 0 ∧ capBase (worldOf s w).t.root = 0 ∧ capLen (worldOf s w).t.root = 2 ^ 57) ∧
  ∀ pa, sideAt s.mem pa = 0 ∧ mget s.mem.bias (pa / 4096) false = false

/-- R1, R231: every step keeps memory in its canonical form, so that memories with equal bytes are equal data. -/
def Obligations.MemoryCanonicalKept : Prop := ∀ s t, memoryCanonical s → step s = .next t → memoryCanonical t

/-- At reset memory is in its canonical form, and two memories in that form whose bytes all read alike list the same bytes. -/
def Claims.MemoryCanonicalAtReset : Prop :=
  memoryCanonical State.reset ∧ ∀ m n : MemSys, m.wf = true → n.wf = true → (∀ a, memByte m a = memByte n a) → m.bytes = n.bytes

end

/-- Errors and revocation sweeps. -/
def Obligations.ErrorsAndRevocation : Prop :=
  Claims.CoreErrors ∧ Claims.RevocationSweep

/-- Repair, power, bring-up and register writes. -/
def Obligations.RepairPowerRegisters : Prop :=
  Claims.Repair ∧ Claims.WingsAndPower ∧ Claims.BringUp ∧ Claims.RegisterWrites

/-- What reset leaves, and memory canonical at reset. -/
def Obligations.ResetState : Prop :=
  Claims.ResetValues ∧ Claims.MemoryCanonicalAtReset
end

