-- ==== Sys2Proof/Laws/Maps.lean ====
section
/-! SUPPORT. Sparse maps: what a key reads as after an update, and that every update keeps the canonical form. -/
namespace Sys2Proof.Laws
open Sys2Proof Sys2Proof.Machine

variable {α : Type}

/-- Keys above a bound. -/
def above (k : Nat) (m : SMap α) : Prop := ∀ e ∈ m, k < e.1

/-- The canonical form, entry by entry. -/
theorem mwf_cons [DecidableEq α] {d v : α} {k : Nat} {r : SMap α} :
    mwf d ((k, v) :: r) = true ↔ v ≠ d ∧ above k r ∧ mwf d r = true := by
  induction r generalizing k v with
  | nil => simp [mwf, above]
  | cons e r ih =>
    obtain ⟨k', v'⟩ := e
    constructor
    · intro h
      simp only [mwf, Bool.and_eq_true, decide_eq_true_eq, bne_iff_ne] at h
      obtain ⟨⟨hk, hv⟩, hr⟩ := h
      have ha : above k' r := (ih.1 hr).2.1
      exact ⟨hv, List.forall_mem_cons.2 ⟨hk, fun x hx => Nat.lt_trans hk (ha x hx)⟩, hr⟩
    · rintro ⟨hv, ha, hr⟩
      simp only [mwf, Bool.and_eq_true, decide_eq_true_eq, bne_iff_ne]
      exact ⟨⟨ha (k', v') (by simp), hv⟩, hr⟩

@[simp] theorem mwf_nil [DecidableEq α] (d : α) : mwf d ([] : SMap α) = true := rfl

theorem mget_above {m : SMap α} {k : Nat} (d : α) (h : above k m) : mget m k d = d := by
  induction m with
  | nil => rfl
  | cons e r ih =>
    have h1 : k < e.1 := h e (by simp)
    have hr : above k r := fun e he => h e (List.mem_cons_of_mem _ he)
    simp [mget, Nat.ne_of_lt h1, ih hr]

/-- What a map lists after an update is the new entry or was listed. -/
theorem mem_minsert {j : Nat} {v : α} {x : Nat × α} (m : SMap α) (hx : x ∈ minsert m j v) : x = (j, v) ∨ x ∈ m := by
  fun_induction minsert m j v <;> simp only [List.mem_cons] at hx ⊢ <;> grind

/-- What a map lists without a key was listed. -/
theorem mem_merase {j : Nat} {x : Nat × α} (m : SMap α) (hx : x ∈ merase m j) : x ∈ m := by
  fun_induction merase m j <;> grind

theorem above_minsert {m : SMap α} {k j : Nat} {v : α} (h : above k m) (hj : k < j) : above k (minsert m j v) := fun x hx =>
  (mem_minsert m hx).elim (fun e => e ▸ hj) (h x)

theorem above_merase {m : SMap α} {k j : Nat} (h : above k m) : above k (merase m j) := fun x hx => h x (mem_merase m hx)

/-- A key just listed reads as its value. -/
@[simp] theorem mget_minsert_same (m : SMap α) (k : Nat) (v d : α) : mget (minsert m k v) k d = v := by
  induction m with
  | nil => simp [minsert, mget]
  | cons e r ih =>
    obtain ⟨k', v'⟩ := e
    simp only [minsert]
    split
    · simp [mget]
    · split
      · simp [mget]
      · rename_i h1 h2
        simp [mget, h1, ih]

/-- Listing a key leaves every other key as it reads. -/
theorem mget_minsert_other (m : SMap α) {k j : Nat} (v d : α) (h : j ≠ k) : mget (minsert m k v) j d = mget m j d := by
  induction m with
  | nil => simp [minsert, mget, h]
  | cons e r ih =>
    obtain ⟨k', v'⟩ := e
    simp only [minsert]
    split
    · rename_i h1; subst h1; simp [mget, h]
    · split
      · simp only [mget, h, if_false]
      · simp only [mget, ih]

theorem mwf_minsert [DecidableEq α] {d v : α} {m : SMap α} (k : Nat) (h : mwf d m = true) (hv : v ≠ d) :
    mwf d (minsert m k v) = true := by
  induction m with
  | nil => simpa [minsert, mwf] using hv
  | cons e r ih =>
    obtain ⟨k', v'⟩ := e
    obtain ⟨h1, h2, h3⟩ := mwf_cons.1 h
    simp only [minsert]
    split
    · rename_i hk; subst hk; exact mwf_cons.2 ⟨hv, h2, h3⟩
    · split
      · rename_i hk hl
        exact mwf_cons.2 ⟨hv, List.forall_mem_cons.2 ⟨hl, fun x hx => Nat.lt_trans hl (h2 x hx)⟩, h⟩
      · rename_i hk hl
        exact mwf_cons.2 ⟨h1, above_minsert h2 (by omega), ih h3⟩

theorem mwf_merase [DecidableEq α] {d : α} {m : SMap α} (k : Nat) (h : mwf d m = true) : mwf d (merase m k) = true := by
  induction m with
  | nil => rfl
  | cons e r ih =>
    obtain ⟨k', v'⟩ := e
    obtain ⟨h1, h2, h3⟩ := mwf_cons.1 h
    simp only [merase]
    split
    · exact ih h3
    · exact mwf_cons.2 ⟨h1, above_merase h2, ih h3⟩

/-- A key just removed reads as the default. -/
@[simp] theorem mget_merase_same (m : SMap α) (k : Nat) (d : α) : mget (merase m k) k d = d := by
  induction m with
  | nil => rfl
  | cons e r ih =>
    obtain ⟨k', v'⟩ := e
    simp only [merase]
    split
    · exact ih
    · rename_i hk; simp [mget, hk, ih]

/-- Removing a key leaves every other key as it reads. -/
theorem mget_merase_other (m : SMap α) {k j : Nat} (d : α) (hj : j ≠ k) : mget (merase m k) j d = mget m j d := by
  induction m with
  | nil => rfl
  | cons e r ih =>
    obtain ⟨k', v'⟩ := e
    simp only [merase]
    split
    · rename_i hk; subst hk; simp only [mget, hj, if_false, ih]
    · simp only [mget, ih]

/-- Every write keeps the canonical form. -/
theorem mwf_mput [DecidableEq α] {d : α} {m : SMap α} (k : Nat) (v : α) (h : mwf d m = true) : mwf d (mput m k v d) = true := by
  unfold mput
  split
  · exact mwf_merase k h
  · rename_i hv; exact mwf_minsert k h hv

/-- A written key reads as its value. -/
@[simp] theorem mget_mput_same [DecidableEq α] (m : SMap α) (k : Nat) (v d : α) : mget (mput m k v d) k d = v := by
  unfold mput
  split
  · rename_i hv; subst hv; exact mget_merase_same m k v
  · simp

/-- A write leaves every other key as it reads. -/
theorem mget_mput_other [DecidableEq α] (m : SMap α) {k j : Nat} (v d : α) (hj : j ≠ k) :
    mget (mput m k v d) j d = mget m j d := by
  unfold mput
  split
  · exact mget_merase_other m d hj
  · exact mget_minsert_other m v d hj

theorem mwf_mmod [DecidableEq α] {d : α} {m : SMap α} (k : Nat) (f : α → α) (h : mwf d m = true) : mwf d (mmod m k d f) = true :=
  mwf_mput k _ h

theorem mwf_mputAll [DecidableEq α] {d : α} {m : SMap α} (k : Nat) (vs : List α) (h : mwf d m = true) :
    mwf d (mputAll m k vs d) = true := by
  induction vs generalizing m k with
  | nil => exact h
  | cons v r ih => exact ih _ (mwf_mput k v h)

/-- Consecutive writes leave every key outside their range as it reads. -/
theorem mget_mputAll_out [DecidableEq α] {d : α} {m : SMap α} {k j : Nat} (vs : List α)
    (hj : j < k ∨ k + vs.length ≤ j) : mget (mputAll m k vs d) j d = mget m j d := by
  induction vs generalizing m k with
  | nil => rfl
  | cons v r ih =>
    simp only [List.length_cons] at hj
    rw [mputAll, ih (by omega), mget_mput_other m v d (by omega)]

/-- Consecutive writes put each value at its key. -/
theorem mget_mputAll_in [DecidableEq α] {d : α} {m : SMap α} {k : Nat} (vs : List α) (i : Nat)
    (hi : i < vs.length) : mget (mputAll m k vs d) (k + i) d = vs[i] := by
  induction vs generalizing m k i with
  | nil => simp at hi
  | cons v r ih =>
    cases i with
    | zero => rw [mputAll, mget_mputAll_out r (by omega)]; simp
    | succ n =>
      have := ih (m := mput m k v d) (k := k + 1) n (by simpa using hi)
      simpa [mputAll, Nat.add_comm, Nat.add_left_comm, Nat.add_assoc] using this

theorem mget_cons_above [DecidableEq α] {d v : α} {k : Nat} {r : SMap α} : mget ((k, v) :: r) k d = v := by simp [mget]

end Sys2Proof.Laws
end

