-- ==== Sys2Proof/Laws/Mem.lean ====
section
/-! SUPPORT. Physical memory: reading what was written, and that every memory operation keeps the canonical form. -/
namespace Sys2Proof.Laws
open Sys2Proof Sys2Proof.Machine

/-! ### Bytes -/

theorem memPut_wf {m : MemSys} (pa : Nat) (bs : List Byte) (h : m.wf = true) : (memPut m pa bs).wf = true :=
  mwf_mputAll pa bs h

/-- A byte written reads as written. -/
theorem memByte_memPut_in {m : MemSys} {pa : Nat} {bs : List Byte} (i : Nat) (hi : i < bs.length) :
    memByte (memPut m pa bs) (pa + i) = bs[i] := mget_mputAll_in bs i hi

/-- A byte outside what is written reads as before. -/
theorem memByte_memPut_out {m : MemSys} {pa a : Nat} {bs : List Byte}
    (ha : a < pa ∨ pa + bs.length ≤ a) : memByte (memPut m pa bs) a = memByte m a := mget_mputAll_out bs ha

@[simp] theorem length_bytesLE (n v : Nat) : (bytesLE n v).length = n := by
  induction n generalizing v with
  | zero => rfl
  | succ n ih => simp [bytesLE, ih]

/-- The number of the bytes of a number is that number, cut to their width. -/
theorem ofBytesLE_bytesLE (n v : Nat) : ofBytesLE (bytesLE n v) = v % 256 ^ n := by
  induction n generalizing v with
  | zero => simp [bytesLE, ofBytesLE, Nat.mod_one]
  | succ n ih => rw [bytesLE, ofBytesLE, ih, BitVec.toNat_ofNat, Nat.pow_succ (256), Nat.mul_comm (256 ^ n), Nat.mod_mul]

/-- Bytes written read as written, in order. -/
theorem memBytes_memPut_same (m : MemSys) (pa : Nat) (bs : List Byte) : memBytes (memPut m pa bs) pa bs.length = bs :=
  List.ext_getElem (by simp [memBytes]) fun i _ h => by simp [memBytes, memByte_memPut_in i h]

/-- Bytes apart from those written read as before. -/
theorem memBytes_memPut_apart (m : MemSys) {pa a n : Nat} {bs : List Byte} (h : a + n ≤ pa ∨ pa + bs.length ≤ a) :
    memBytes (memPut m pa bs) a n = memBytes m a n :=
  List.map_congr_left fun i hi => memByte_memPut_out (by have := List.mem_range.mp hi; omega)

/-- Every canonical form is the only one: two memories that read alike hold the same list. -/
theorem mem_ext_bytes {m n : SMap Byte} (hm : mwf emptyByte m = true) (hn : mwf emptyByte n = true)
    (h : ∀ a, mget m a emptyByte = mget n a emptyByte) : m = n := by
  induction m generalizing n with
  | nil =>
    cases n with
    | nil => rfl
    | cons e r =>
      obtain ⟨k, v⟩ := e
      have := h k
      simp [mget] at this
      exact absurd this.symm (mwf_cons.1 hn).1
  | cons e r ih =>
    obtain ⟨k, v⟩ := e
    obtain ⟨h1, h2, h3⟩ := mwf_cons.1 hm
    cases n with
    | nil =>
      have := h k
      simp [mget] at this
      exact absurd this h1
    | cons e' r' =>
      obtain ⟨k', v'⟩ := e'
      obtain ⟨g1, g2, g3⟩ := mwf_cons.1 hn
      have hk : k = k' := by
        rcases Nat.lt_trichotomy k k' with hlt | heq | hgt
        · have := h k
          rw [mget_above emptyByte (m := (k', v') :: r') fun e he => by
            rcases List.mem_cons.1 he with rfl | he
            · exact hlt
            · exact Nat.lt_trans hlt (g2 e he)] at this
          simp only [mget, if_true] at this
          exact absurd this h1
        · exact heq
        · have := h k'
          rw [mget_above emptyByte (m := (k, v) :: r) fun e he => by
            rcases List.mem_cons.1 he with rfl | he
            · exact hgt
            · exact Nat.lt_trans hgt (h2 e he)] at this
          simp only [mget, if_true] at this
          exact absurd this.symm g1
      subst hk
      have hv : v = v' := by simpa [mget] using h k
      subst hv
      have hr : r = r' := ih h3 g3 fun a => by
        rcases Nat.lt_trichotomy a k with hlt | heq | hgt
        · rw [mget_above emptyByte fun e he => Nat.lt_trans hlt (h2 e he), mget_above emptyByte fun e he => Nat.lt_trans hlt (g2 e he)]
        · subst heq; rw [mget_above emptyByte h2, mget_above emptyByte g2]
        · have := h a
          simpa [mget, Nat.ne_of_gt hgt] using this
      rw [hr]

/-! ### The other arrays leave the bytes alone -/

@[simp] theorem putSide_bytes (m : MemSys) (pa : Nat) (v : BitVec 8) : (putSide m pa v).bytes = m.bytes := by
  unfold putSide; split <;> rfl
@[simp] theorem putLine_bytes (m : MemSys) (pa : Nat) (v : Nat × Nat) : (putLine m pa v).bytes = m.bytes := rfl
@[simp] theorem unhide_bytes (m : MemSys) (pa n : Nat) : (unhide m pa n).bytes = m.bytes := by
  unfold unhide; split <;> rfl
@[simp] theorem installCopy_bytes (m : MemSys) (c : Copy) : (installCopy m c).bytes = m.bytes := rfl

@[simp] theorem clearTags_bytes (m : MemSys) (pa n : Nat) : (clearTags m pa n).bytes = m.bytes := by
  induction n generalizing m pa with
  | zero => rfl
  | succ k ih => rw [clearTags, ih, putSide_bytes]

@[simp] theorem leaseLoad_bytes (m : MemSys) (core ctx : Nat) (tag : Option (Nat × Nat)) (ways : BitVec 24) (p : Spot) (t : Nat) :
    (leaseLoad m core ctx tag ways p t).1.bytes = m.bytes := by
  unfold leaseLoad
  dsimp only
  split <;> first | rfl | (split <;> first | rfl | (split <;> rfl))

/-- The canonical form depends on the bytes alone. -/
theorem wf_of_bytes {m n : MemSys} (h : m.bytes = n.bytes) (hn : n.wf = true) : m.wf = true := by
  unfold MemSys.wf at *; rw [h]; exact hn

/-! ### Stores -/

@[simp] theorem memStore_bytes (m : MemSys) (pa : Nat) (bs : List Byte) (f : BitVec 4) :
    (memStore m pa bs f).bytes = (memPut m pa bs).bytes := putSide_bytes _ _ _
theorem memStore_wf {m : MemSys} (pa : Nat) (bs : List Byte) (f : BitVec 4) (h : m.wf = true) : (memStore m pa bs f).wf = true :=
  wf_of_bytes (memStore_bytes m pa bs f) (memPut_wf pa bs h)
theorem memPutCap_wf {m : MemSys} (pa : Nat) (c : Cap) (h : m.wf = true) : (memPutCap m pa c).wf = true :=
  wf_of_bytes (putSide_bytes _ _ _) (memPut_wf pa _ h)

theorem memWrite_wf {m : MemSys} (pa : Nat) (bs : List Byte) (h : m.wf = true) : (memWrite m pa bs).wf = true := by
  unfold memWrite
  split
  · exact h
  · exact wf_of_bytes (clearTags_bytes _ _ _) (memPut_wf pa bs (wf_of_bytes (unhide_bytes _ _ _) h))

@[simp] theorem holdMacs_bytes (m : MemSys) (pa : Nat) : (holdMacs m pa).bytes = m.bytes := by
  unfold holdMacs; split <;> rfl

/-- What is kept of a sealed line changes no byte, no seal and no MAC. -/
theorem keepPast_frame (m : MemSys) (pa : Nat) :
    (keepPast m pa).bytes = m.bytes ∧ (keepPast m pa).sealed = m.sealed ∧ (keepPast m pa).macs = m.macs := by
  unfold keepPast
  split
  · dsimp only; split <;> exact ⟨rfl, rfl, rfl⟩
  · exact ⟨rfl, rfl, rfl⟩
/-- Nothing is kept of a line that is not sealed. -/
theorem keepPast_unsealed {m : MemSys} {pa : Nat} (h : mfind m.sealed (pa / 64) = none) : keepPast m pa = m := by
  unfold keepPast; rw [h]

theorem unsealLine_wf {m : MemSys} (pa : Nat) (h0 : m.wf = true) : (unsealLine m pa).wf = true := by
  unfold unsealLine
  have h : (keepPast m pa).wf = true := wf_of_bytes (keepPast_frame m pa).1 h0
  generalize keepPast m pa = m at h ⊢
  dsimp only
  split
  · refine wf_of_bytes rfl (memPut_wf _ _ ?_)
    split
    · split
      · exact h
      · exact memPut_wf _ _ h
    · exact h
  · split
    · exact h
    · exact wf_of_bytes (holdMacs_bytes _ _) (memPut_wf _ _ h)

theorem sealLine_wf {m : MemSys} (pa : Nat) (tag : Option (Nat × Nat)) (h : m.wf = true) : (sealLine m pa tag).wf = true := by
  unfold sealLine
  split
  · refine wf_of_bytes (holdMacs_bytes _ pa) ?_
    split
    · exact memPut_wf _ _ h
    · exact wf_of_bytes (keepPast_frame m pa).1 h
  · exact unsealLine_wf pa h

/-- A plain line written by a party without a key is as it was. -/
theorem sealLine_plain {m : MemSys} {pa : Nat} (h : plainLine m pa = true) : sealLine m pa none = m := by
  simp only [plainLine, Bool.and_eq_true, Option.isNone_iff_eq_none] at h
  simp [sealLine, unsealLine, keepPast_unsealed h.1, h.1, h.2]

/-- A reader without a key sees the bytes of a plain line; so does one whose key opens nothing that the line held before. -/
theorem viewLine_plain {m : MemSys} {pa : Nat} (tag : Option (Nat × Nat)) (h : plainLine m pa = true)
    (ht : ∀ t, tag = some t → openPast m t pa = none) : viewLine m tag pa = memLine m pa := by
  simp only [plainLine, Bool.and_eq_true, Option.isNone_iff_eq_none] at h
  cases tag with
  | none => simp [viewLine, storedLine, macLine, h.1, h.2]
  | some t => simp [viewLine, ht t rfl]

/-- A line of which nothing earlier is kept opens to nothing earlier. -/
theorem openPast_none {m : MemSys} {pa : Nat} (t : Nat × Nat) (h : mget m.past (pa / 64) [] = []) : openPast m t pa = none := by
  simp [openPast, h]

/-- Where no line is sealed, every line is plain. -/
theorem plainLine_of_unsealed {m : MemSys} (pa : Nat) (h : m.sealed = []) : plainLine m pa = true := by
  simp [plainLine, macFree, h, mfind]

theorem memAtomicOn_wf {m : MemSys} (pa n : Nat) (op : AOp) (v old : DWord) (h : m.wf = true) :
    (memAtomicOn m pa n op v old).1.wf = true := by
  unfold memAtomicOn
  split
  · exact memStore_wf pa _ _ h
  · exact h

theorem memAtomic_wf {m : MemSys} (pa n : Nat) (op : AOp) (v : DWord) (h : m.wf = true) : (memAtomic m pa n op v).1.wf = true :=
  memAtomicOn_wf pa n op v _ h

theorem leaseLoad_wf {m : MemSys} (core ctx : Nat) (tag : Option (Nat × Nat)) (ways : BitVec 24) (p : Spot) (t : Nat) (h : m.wf = true) :
    (leaseLoad m core ctx tag ways p t).1.wf = true := wf_of_bytes (by simp) h

/-- A sealed line of a world that writes it keeps its plain bytes, where nothing that it held before has been put back. -/
theorem sealLine_some_bytes (m : MemSys) (pa : Nat) (t : Nat × Nat) (h : openPast m t pa = none) :
    (sealLine m pa (some t)).bytes = m.bytes := by
  simp [sealLine, h, (keepPast_frame m pa).1]

/-! ### Pieces of a hardware access -/

theorem writeSpot_wf {m : MemSys} (w : Who) (p : Spot) (bs : List Byte) (h : m.wf = true) : (writeSpot m w p bs).wf = true :=
  memWrite_wf _ _ (sealLine_wf _ _ h)

theorem loadPieces_wf (w : Who) {m : MemSys} (t : Nat) (ps : List (Spot × Nat)) (h : m.wf = true) : (loadPieces w m t ps).1.wf = true := by
  induction ps generalizing m t with
  | nil => exact h
  | cons e r ih =>
    obtain ⟨p, n⟩ := e
    unfold loadPieces
    exact ih _ (leaseLoad_wf _ _ _ _ _ _ h)

theorem storePieces_wf (w : Who) {m : MemSys} (t : Nat) (bs : List Byte) (ps : List (Spot × Nat)) (h : m.wf = true) :
    (storePieces w m t bs ps).wf = true := by
  induction ps generalizing m bs with
  | nil => exact h
  | cons e r ih =>
    obtain ⟨p, n⟩ := e
    unfold storePieces
    exact ih _ (wf_of_bytes rfl (writeSpot_wf w p _ h))

theorem storeLate_wf (w : Who) {m : MemSys} (bs : List Byte) (ps : List (Spot × Nat)) (h : m.wf = true) :
    (storeLate w m bs ps).wf = true := by
  induction ps generalizing m bs with
  | nil => exact h
  | cons e r ih =>
    obtain ⟨p, n⟩ := e
    unfold storeLate
    exact ih _ (wf_of_bytes rfl (writeSpot_wf w p _ h))

/-! ### One word's lanes -/

/-- Memory stays in its canonical form over a run of changes each of which keeps it so. -/
theorem foldl_wf {β : Type} {step : Sys → β → Sys} (keeps : ∀ y b, y.m.wf = true → (step y b).m.wf = true) :
    ∀ (bs : List β) {y : Sys}, y.m.wf = true → (bs.foldl step y).m.wf = true
  | [], _, h => h
  | b :: bs, _, h => foldl_wf keeps bs (keeps _ b h)

theorem fillAt_wf {y : Sys} (w : Who) (o t : Nat) (pa : Option (Nat × Bool)) (fab : Bool) (h : y.m.wf = true) :
    (fillAt y w o t pa fab).1.m.wf = true := by
  unfold fillAt
  split
  · exact h
  · dsimp only
    split
    · split
      · exact h
      · exact leaseLoad_wf _ _ _ _ _ _ h
    · split
      · exact leaseLoad_wf _ _ _ _ _ _ h
      · exact h

theorem leaseLane_wf {y : Sys} (w : Who) (t : Nat) (a : LaneAcc) (h : y.m.wf = true) : (leaseLane y w t a).1.m.wf = true := by
  unfold leaseLane
  split
  · exact fillAt_wf w _ _ _ _ h
  · split
    · exact h
    · exact leaseLoad_wf _ _ _ _ _ _ h

theorem leasePass_wf (w : Who) (t : Nat) {y : Sys} (ls : List LaneAcc) (h : y.m.wf = true) : (leasePass w t y ls).1.m.wf = true := by
  induction ls generalizing y with
  | nil => exact h
  | cons a r ih => exact ih (leaseLane_wf w t a h)

theorem settle_wf (w : Who) (ls : List LaneAcc) (n : Nat) {y : Sys} (t : Nat) (h : y.m.wf = true) : (settle w ls n y t).1.m.wf = true := by
  induction n generalizing y t with
  | zero => exact h
  | succ n ih =>
    unfold settle
    dsimp only
    split
    · exact leasePass_wf w t ls h
    · exact ih _ (leasePass_wf w t ls h)

theorem putLease_wf {y : Sys} (a : LaneAcc) (v : Nat × Nat) (h : y.m.wf = true) : (putLease y a v).m.wf = true := by
  unfold putLease
  split
  · exact h
  · split
    · exact h
    · exact wf_of_bytes rfl h

theorem applyLane_wf {y : Sys} (w : Who) (a : LaneAcc) (h : y.m.wf = true) : (applyLane y w a).1.m.wf = true := by
  unfold applyLane
  dsimp only
  split
  · exact h
  · exact h
  · split <;> exact h
  · split
    · exact h
    · dsimp only; split
      · exact h
      · exact memStore_wf _ _ _ (sealLine_wf _ _ h)
  · exact h
  · split
    · exact h
    · dsimp only; split
      · exact h
      · exact memPutCap_wf _ _ (sealLine_wf _ _ h)
  · split
    · dsimp only; split <;> exact h
    · split
      · exact h
      · rename_i op v _ _ _ p _
        have key : ∀ old, (memAtomicOn (sealLine y.m p.pa w.tag) p.pa a.n op v old).1.wf = true := fun old =>
          memAtomicOn_wf p.pa a.n op v old (sealLine_wf p.pa w.tag h)
        dsimp only
        split
        · exact key _
        · exact h
  · split
    · exact h
    · dsimp only; split
      · exact h
      · exact memAtomic_wf _ _ _ _ (sealLine_wf _ _ h)

theorem applyLanes_wf (w : Who) {y : Sys} (ls : List LaneAcc) (h : y.m.wf = true) : (applyLanes w y ls).1.m.wf = true := by
  induction ls generalizing y with
  | nil => exact h
  | cons a r ih => exact ih (applyLane_wf w a h)

theorem fillAll_wf (w : Who) (t : Nat) {y : Sys} (ls : List LaneAcc) (h : y.m.wf = true) : (fillAll w t y ls).1.m.wf = true := by
  induction ls generalizing y with
  | nil => exact h
  | cons a r ih =>
    unfold fillAll
    dsimp only
    split
    · exact ih (fillAt_wf w _ _ _ _ h)
    · exact ih h

/-- Performing a word keeps memory in its canonical form. -/
theorem perform_wf {y : Sys} (w : Who) (pts : Nat) (ls : List LaneAcc) (h : y.m.wf = true) : (perform y w pts ls).y.m.wf = true := by
  unfold perform
  split
  · exact h
  · split
    · dsimp only
      exact foldl_wf (fun y a hy => applyLane_wf w a hy) _ (settle_wf w _ _ _ h)
    · dsimp only
      exact foldl_wf (fun y a hy => putLease_wf a _ hy) _ (applyLanes_wf w _ (fillAll_wf w _ _ h))
    · dsimp only
      exact foldl_wf (fun y a hy => putLease_wf a _ hy) _
        (foldl_wf (fun y a hy => putLease_wf a _ hy) _ (applyLanes_wf w _ (fillAll_wf w _ _ h)))

theorem memPutAll_reset : ({} : MemSys).wf = true := rfl

end Sys2Proof.Laws
end

