-- ==== Sys2Proof/Laws/State.lean ====
section
/-! SUPPORT. What each update of the state leaves and changes, field by field. -/
namespace Sys2Proof.Laws
open Sys2Proof Sys2Proof.Machine

/-! ### putBlock -/

@[simp] theorem putBlock_cur (s : State) (k : Nat) (b : Block) : (putBlock s k b).cur = s.cur := rfl
@[simp] theorem putBlock_raised (s : State) (k : Nat) (b : Block) : (putBlock s k b).raised = s.raised := rfl
@[simp] theorem putBlock_stalled (s : State) (k : Nat) (b : Block) : (putBlock s k b).stalled = s.stalled := rfl
@[simp] theorem putBlock_jumped (s : State) (k : Nat) (b : Block) : (putBlock s k b).jumped = s.jumped := rfl
@[simp] theorem putBlock_inbox (s : State) (k : Nat) (b : Block) : (putBlock s k b).inbox = s.inbox := rfl
@[simp] theorem putBlock_blocks (s : State) (k : Nat) (b : Block) : (putBlock s k b).blocks = minsert s.blocks k b := rfl
@[simp] theorem putBlock_mem (s : State) (k : Nat) (b : Block) : (putBlock s k b).mem = s.mem := rfl
@[simp] theorem putBlock_eng (s : State) (k : Nat) (b : Block) : (putBlock s k b).eng = s.eng := rfl
@[simp] theorem putBlock_curator (s : State) (k : Nat) (b : Block) : (putBlock s k b).curator = s.curator := rfl
@[simp] theorem putBlock_ctxs (s : State) (k : Nat) (b : Block) : (putBlock s k b).ctxs = s.ctxs := rfl
@[simp] theorem putBlock_worlds (s : State) (k : Nat) (b : Block) : (putBlock s k b).worlds = s.worlds := rfl
@[simp] theorem putBlock_fab (s : State) (k : Nat) (b : Block) : (putBlock s k b).fab = s.fab := rfl
@[simp] theorem putBlock_hol (s : State) (k : Nat) (b : Block) : (putBlock s k b).hol = s.hol := rfl
@[simp] theorem putBlock_rings (s : State) (k : Nat) (b : Block) : (putBlock s k b).rings = s.rings := rfl
@[simp] theorem putBlock_nextRing (s : State) (k : Nat) (b : Block) : (putBlock s k b).nextRing = s.nextRing := rfl
@[simp] theorem putBlock_gt (s : State) (k : Nat) (b : Block) : (putBlock s k b).gt = s.gt := rfl
@[simp] theorem putBlock_nfree (s : State) (k : Nat) (b : Block) : (putBlock s k b).nfree = s.nfree := rfl
@[simp] theorem putBlock_answers (s : State) (k : Nat) (b : Block) : (putBlock s k b).answers = s.answers := rfl

/-! ### modCtx -/

@[simp] theorem modCtx_cur (s : State) (c : Nat) (f : Ctx → Ctx) : (modCtx s c f).cur = s.cur := rfl
@[simp] theorem modCtx_raised (s : State) (c : Nat) (f : Ctx → Ctx) : (modCtx s c f).raised = s.raised := rfl
@[simp] theorem modCtx_stalled (s : State) (c : Nat) (f : Ctx → Ctx) : (modCtx s c f).stalled = s.stalled := rfl
@[simp] theorem modCtx_jumped (s : State) (c : Nat) (f : Ctx → Ctx) : (modCtx s c f).jumped = s.jumped := rfl
@[simp] theorem modCtx_inbox (s : State) (c : Nat) (f : Ctx → Ctx) : (modCtx s c f).inbox = s.inbox := rfl
@[simp] theorem modCtx_blocks (s : State) (c : Nat) (f : Ctx → Ctx) : (modCtx s c f).blocks = s.blocks := rfl
@[simp] theorem modCtx_mem (s : State) (c : Nat) (f : Ctx → Ctx) : (modCtx s c f).mem = s.mem := rfl
@[simp] theorem modCtx_eng (s : State) (c : Nat) (f : Ctx → Ctx) : (modCtx s c f).eng = s.eng := rfl
@[simp] theorem modCtx_curator (s : State) (c : Nat) (f : Ctx → Ctx) : (modCtx s c f).curator = s.curator := rfl
@[simp] theorem modCtx_ctxs (s : State) (c : Nat) (f : Ctx → Ctx) : (modCtx s c f).ctxs = mmod s.ctxs c {} f := rfl
@[simp] theorem modCtx_worlds (s : State) (c : Nat) (f : Ctx → Ctx) : (modCtx s c f).worlds = s.worlds := rfl
@[simp] theorem modCtx_fab (s : State) (c : Nat) (f : Ctx → Ctx) : (modCtx s c f).fab = s.fab := rfl
@[simp] theorem modCtx_hol (s : State) (c : Nat) (f : Ctx → Ctx) : (modCtx s c f).hol = s.hol := rfl
@[simp] theorem modCtx_rings (s : State) (c : Nat) (f : Ctx → Ctx) : (modCtx s c f).rings = s.rings := rfl
@[simp] theorem modCtx_nextRing (s : State) (c : Nat) (f : Ctx → Ctx) : (modCtx s c f).nextRing = s.nextRing := rfl
@[simp] theorem modCtx_gt (s : State) (c : Nat) (f : Ctx → Ctx) : (modCtx s c f).gt = s.gt := rfl
@[simp] theorem modCtx_nfree (s : State) (c : Nat) (f : Ctx → Ctx) : (modCtx s c f).nfree = s.nfree := rfl
@[simp] theorem modCtx_answers (s : State) (c : Nat) (f : Ctx → Ctx) : (modCtx s c f).answers = s.answers := rfl

/-! ### modWorld -/

@[simp] theorem modWorld_cur (s : State) (w : Nat) (f : World → World) : (modWorld s w f).cur = s.cur := rfl
@[simp] theorem modWorld_raised (s : State) (w : Nat) (f : World → World) : (modWorld s w f).raised = s.raised := rfl
@[simp] theorem modWorld_stalled (s : State) (w : Nat) (f : World → World) : (modWorld s w f).stalled = s.stalled := rfl
@[simp] theorem modWorld_jumped (s : State) (w : Nat) (f : World → World) : (modWorld s w f).jumped = s.jumped := rfl
@[simp] theorem modWorld_inbox (s : State) (w : Nat) (f : World → World) : (modWorld s w f).inbox = s.inbox := rfl
@[simp] theorem modWorld_blocks (s : State) (w : Nat) (f : World → World) : (modWorld s w f).blocks = s.blocks := rfl
@[simp] theorem modWorld_mem (s : State) (w : Nat) (f : World → World) : (modWorld s w f).mem = s.mem := rfl
@[simp] theorem modWorld_eng (s : State) (w : Nat) (f : World → World) : (modWorld s w f).eng = s.eng := rfl
@[simp] theorem modWorld_curator (s : State) (w : Nat) (f : World → World) : (modWorld s w f).curator = s.curator := rfl
@[simp] theorem modWorld_ctxs (s : State) (w : Nat) (f : World → World) : (modWorld s w f).ctxs = s.ctxs := rfl
@[simp] theorem modWorld_worlds (s : State) (w : Nat) (f : World → World) : (modWorld s w f).worlds = mmod s.worlds w {} f := rfl
@[simp] theorem modWorld_fab (s : State) (w : Nat) (f : World → World) : (modWorld s w f).fab = s.fab := rfl
@[simp] theorem modWorld_hol (s : State) (w : Nat) (f : World → World) : (modWorld s w f).hol = s.hol := rfl
@[simp] theorem modWorld_rings (s : State) (w : Nat) (f : World → World) : (modWorld s w f).rings = s.rings := rfl
@[simp] theorem modWorld_nextRing (s : State) (w : Nat) (f : World → World) : (modWorld s w f).nextRing = s.nextRing := rfl
@[simp] theorem modWorld_gt (s : State) (w : Nat) (f : World → World) : (modWorld s w f).gt = s.gt := rfl
@[simp] theorem modWorld_nfree (s : State) (w : Nat) (f : World → World) : (modWorld s w f).nfree = s.nfree := rfl
@[simp] theorem modWorld_answers (s : State) (w : Nat) (f : World → World) : (modWorld s w f).answers = s.answers := rfl

/-! ### modMem -/

@[simp] theorem modMem_cur (s : State) (f : MemSys → MemSys) : (modMem s f).cur = s.cur := rfl
@[simp] theorem modMem_raised (s : State) (f : MemSys → MemSys) : (modMem s f).raised = s.raised := rfl
@[simp] theorem modMem_stalled (s : State) (f : MemSys → MemSys) : (modMem s f).stalled = s.stalled := rfl
@[simp] theorem modMem_jumped (s : State) (f : MemSys → MemSys) : (modMem s f).jumped = s.jumped := rfl
@[simp] theorem modMem_inbox (s : State) (f : MemSys → MemSys) : (modMem s f).inbox = s.inbox := rfl
@[simp] theorem modMem_blocks (s : State) (f : MemSys → MemSys) : (modMem s f).blocks = s.blocks := rfl
@[simp] theorem modMem_mem (s : State) (f : MemSys → MemSys) : (modMem s f).mem = f s.mem := rfl
@[simp] theorem modMem_eng (s : State) (f : MemSys → MemSys) : (modMem s f).eng = s.eng := rfl
@[simp] theorem modMem_curator (s : State) (f : MemSys → MemSys) : (modMem s f).curator = s.curator := rfl
@[simp] theorem modMem_ctxs (s : State) (f : MemSys → MemSys) : (modMem s f).ctxs = s.ctxs := rfl
@[simp] theorem modMem_worlds (s : State) (f : MemSys → MemSys) : (modMem s f).worlds = s.worlds := rfl
@[simp] theorem modMem_fab (s : State) (f : MemSys → MemSys) : (modMem s f).fab = s.fab := rfl
@[simp] theorem modMem_hol (s : State) (f : MemSys → MemSys) : (modMem s f).hol = s.hol := rfl
@[simp] theorem modMem_rings (s : State) (f : MemSys → MemSys) : (modMem s f).rings = s.rings := rfl
@[simp] theorem modMem_nextRing (s : State) (f : MemSys → MemSys) : (modMem s f).nextRing = s.nextRing := rfl
@[simp] theorem modMem_gt (s : State) (f : MemSys → MemSys) : (modMem s f).gt = s.gt := rfl
@[simp] theorem modMem_nfree (s : State) (f : MemSys → MemSys) : (modMem s f).nfree = s.nfree := rfl
@[simp] theorem modMem_answers (s : State) (f : MemSys → MemSys) : (modMem s f).answers = s.answers := rfl

/-! ### modWing -/

@[simp] theorem modWing_cur (s : State) (n : Nat) (f : Wing → Wing) : (modWing s n f).cur = s.cur := rfl
@[simp] theorem modWing_raised (s : State) (n : Nat) (f : Wing → Wing) : (modWing s n f).raised = s.raised := rfl
@[simp] theorem modWing_stalled (s : State) (n : Nat) (f : Wing → Wing) : (modWing s n f).stalled = s.stalled := rfl
@[simp] theorem modWing_jumped (s : State) (n : Nat) (f : Wing → Wing) : (modWing s n f).jumped = s.jumped := rfl
@[simp] theorem modWing_inbox (s : State) (n : Nat) (f : Wing → Wing) : (modWing s n f).inbox = s.inbox := rfl
@[simp] theorem modWing_blocks (s : State) (n : Nat) (f : Wing → Wing) : (modWing s n f).blocks = s.blocks := rfl
@[simp] theorem modWing_mem (s : State) (n : Nat) (f : Wing → Wing) : (modWing s n f).mem = s.mem := rfl
@[simp] theorem modWing_eng (s : State) (n : Nat) (f : Wing → Wing) : (modWing s n f).eng = s.eng := rfl
@[simp] theorem modWing_curator (s : State) (n : Nat) (f : Wing → Wing) : (modWing s n f).curator = s.curator := rfl
@[simp] theorem modWing_ctxs (s : State) (n : Nat) (f : Wing → Wing) : (modWing s n f).ctxs = s.ctxs := rfl
@[simp] theorem modWing_worlds (s : State) (n : Nat) (f : Wing → Wing) : (modWing s n f).worlds = s.worlds := rfl
@[simp] theorem modWing_fab (s : State) (n : Nat) (f : Wing → Wing) : (modWing s n f).fab = s.fab := rfl
@[simp] theorem modWing_hol (s : State) (n : Nat) (f : Wing → Wing) : (modWing s n f).hol = { s.hol with wings := mmod s.hol.wings n {} f } := rfl
@[simp] theorem modWing_rings (s : State) (n : Nat) (f : Wing → Wing) : (modWing s n f).rings = s.rings := rfl
@[simp] theorem modWing_nextRing (s : State) (n : Nat) (f : Wing → Wing) : (modWing s n f).nextRing = s.nextRing := rfl
@[simp] theorem modWing_gt (s : State) (n : Nat) (f : Wing → Wing) : (modWing s n f).gt = s.gt := rfl
@[simp] theorem modWing_nfree (s : State) (n : Nat) (f : Wing → Wing) : (modWing s n f).nfree = s.nfree := rfl
@[simp] theorem modWing_answers (s : State) (n : Nat) (f : Wing → Wing) : (modWing s n f).answers = s.answers := rfl

/-! ### modCore -/

@[simp] theorem modCore_cur (s : State) (n : Nat) (f : CoreSt → CoreSt) : (modCore s n f).cur = s.cur := rfl
@[simp] theorem modCore_raised (s : State) (n : Nat) (f : CoreSt → CoreSt) : (modCore s n f).raised = s.raised := rfl
@[simp] theorem modCore_stalled (s : State) (n : Nat) (f : CoreSt → CoreSt) : (modCore s n f).stalled = s.stalled := rfl
@[simp] theorem modCore_jumped (s : State) (n : Nat) (f : CoreSt → CoreSt) : (modCore s n f).jumped = s.jumped := rfl
@[simp] theorem modCore_inbox (s : State) (n : Nat) (f : CoreSt → CoreSt) : (modCore s n f).inbox = s.inbox := rfl
@[simp] theorem modCore_blocks (s : State) (n : Nat) (f : CoreSt → CoreSt) : (modCore s n f).blocks = s.blocks := rfl
@[simp] theorem modCore_mem (s : State) (n : Nat) (f : CoreSt → CoreSt) : (modCore s n f).mem = s.mem := rfl
@[simp] theorem modCore_eng (s : State) (n : Nat) (f : CoreSt → CoreSt) : (modCore s n f).eng = s.eng := rfl
@[simp] theorem modCore_curator (s : State) (n : Nat) (f : CoreSt → CoreSt) : (modCore s n f).curator = s.curator := rfl
@[simp] theorem modCore_ctxs (s : State) (n : Nat) (f : CoreSt → CoreSt) : (modCore s n f).ctxs = s.ctxs := rfl
@[simp] theorem modCore_worlds (s : State) (n : Nat) (f : CoreSt → CoreSt) : (modCore s n f).worlds = s.worlds := rfl
@[simp] theorem modCore_fab (s : State) (n : Nat) (f : CoreSt → CoreSt) : (modCore s n f).fab = s.fab := rfl
@[simp] theorem modCore_hol (s : State) (n : Nat) (f : CoreSt → CoreSt) : (modCore s n f).hol = { s.hol with cores := mmod s.hol.cores n {} f } := rfl
@[simp] theorem modCore_rings (s : State) (n : Nat) (f : CoreSt → CoreSt) : (modCore s n f).rings = s.rings := rfl
@[simp] theorem modCore_nextRing (s : State) (n : Nat) (f : CoreSt → CoreSt) : (modCore s n f).nextRing = s.nextRing := rfl
@[simp] theorem modCore_gt (s : State) (n : Nat) (f : CoreSt → CoreSt) : (modCore s n f).gt = s.gt := rfl
@[simp] theorem modCore_nfree (s : State) (n : Nat) (f : CoreSt → CoreSt) : (modCore s n f).nfree = s.nfree := rfl
@[simp] theorem modCore_answers (s : State) (n : Nat) (f : CoreSt → CoreSt) : (modCore s n f).answers = s.answers := rfl

/-! ### modRepair -/

@[simp] theorem modRepair_cur (s : State) (d : Nat) (f : Repair → Repair) : (modRepair s d f).cur = s.cur := rfl
@[simp] theorem modRepair_raised (s : State) (d : Nat) (f : Repair → Repair) : (modRepair s d f).raised = s.raised := rfl
@[simp] theorem modRepair_stalled (s : State) (d : Nat) (f : Repair → Repair) : (modRepair s d f).stalled = s.stalled := rfl
@[simp] theorem modRepair_jumped (s : State) (d : Nat) (f : Repair → Repair) : (modRepair s d f).jumped = s.jumped := rfl
@[simp] theorem modRepair_inbox (s : State) (d : Nat) (f : Repair → Repair) : (modRepair s d f).inbox = s.inbox := rfl
@[simp] theorem modRepair_blocks (s : State) (d : Nat) (f : Repair → Repair) : (modRepair s d f).blocks = s.blocks := rfl
@[simp] theorem modRepair_mem (s : State) (d : Nat) (f : Repair → Repair) : (modRepair s d f).mem = s.mem := rfl
@[simp] theorem modRepair_eng (s : State) (d : Nat) (f : Repair → Repair) : (modRepair s d f).eng = s.eng := rfl
@[simp] theorem modRepair_curator (s : State) (d : Nat) (f : Repair → Repair) : (modRepair s d f).curator = s.curator := rfl
@[simp] theorem modRepair_ctxs (s : State) (d : Nat) (f : Repair → Repair) : (modRepair s d f).ctxs = s.ctxs := rfl
@[simp] theorem modRepair_worlds (s : State) (d : Nat) (f : Repair → Repair) : (modRepair s d f).worlds = s.worlds := rfl
@[simp] theorem modRepair_fab (s : State) (d : Nat) (f : Repair → Repair) : (modRepair s d f).fab = s.fab := rfl
@[simp] theorem modRepair_hol (s : State) (d : Nat) (f : Repair → Repair) : (modRepair s d f).hol = { s.hol with repair := mmod s.hol.repair d {} f } := rfl
@[simp] theorem modRepair_rings (s : State) (d : Nat) (f : Repair → Repair) : (modRepair s d f).rings = s.rings := rfl
@[simp] theorem modRepair_nextRing (s : State) (d : Nat) (f : Repair → Repair) : (modRepair s d f).nextRing = s.nextRing := rfl
@[simp] theorem modRepair_gt (s : State) (d : Nat) (f : Repair → Repair) : (modRepair s d f).gt = s.gt := rfl
@[simp] theorem modRepair_nfree (s : State) (d : Nat) (f : Repair → Repair) : (modRepair s d f).nfree = s.nfree := rfl
@[simp] theorem modRepair_answers (s : State) (d : Nat) (f : Repair → Repair) : (modRepair s d f).answers = s.answers := rfl

/-! ### modCmd -/

@[simp] theorem modCmd_cur (s : State) (id : Nat) (f : EngCmd → EngCmd) : (modCmd s id f).cur = s.cur := rfl
@[simp] theorem modCmd_raised (s : State) (id : Nat) (f : EngCmd → EngCmd) : (modCmd s id f).raised = s.raised := rfl
@[simp] theorem modCmd_stalled (s : State) (id : Nat) (f : EngCmd → EngCmd) : (modCmd s id f).stalled = s.stalled := rfl
@[simp] theorem modCmd_jumped (s : State) (id : Nat) (f : EngCmd → EngCmd) : (modCmd s id f).jumped = s.jumped := rfl
@[simp] theorem modCmd_inbox (s : State) (id : Nat) (f : EngCmd → EngCmd) : (modCmd s id f).inbox = s.inbox := rfl
@[simp] theorem modCmd_blocks (s : State) (id : Nat) (f : EngCmd → EngCmd) : (modCmd s id f).blocks = s.blocks := rfl
@[simp] theorem modCmd_mem (s : State) (id : Nat) (f : EngCmd → EngCmd) : (modCmd s id f).mem = s.mem := rfl
@[simp] theorem modCmd_curator (s : State) (id : Nat) (f : EngCmd → EngCmd) : (modCmd s id f).curator = s.curator := rfl
@[simp] theorem modCmd_ctxs (s : State) (id : Nat) (f : EngCmd → EngCmd) : (modCmd s id f).ctxs = s.ctxs := rfl
@[simp] theorem modCmd_worlds (s : State) (id : Nat) (f : EngCmd → EngCmd) : (modCmd s id f).worlds = s.worlds := rfl
@[simp] theorem modCmd_fab (s : State) (id : Nat) (f : EngCmd → EngCmd) : (modCmd s id f).fab = s.fab := rfl
@[simp] theorem modCmd_hol (s : State) (id : Nat) (f : EngCmd → EngCmd) : (modCmd s id f).hol = s.hol := rfl
@[simp] theorem modCmd_rings (s : State) (id : Nat) (f : EngCmd → EngCmd) : (modCmd s id f).rings = s.rings := rfl
@[simp] theorem modCmd_nextRing (s : State) (id : Nat) (f : EngCmd → EngCmd) : (modCmd s id f).nextRing = s.nextRing := rfl
@[simp] theorem modCmd_gt (s : State) (id : Nat) (f : EngCmd → EngCmd) : (modCmd s id f).gt = s.gt := rfl
@[simp] theorem modCmd_nfree (s : State) (id : Nat) (f : EngCmd → EngCmd) : (modCmd s id f).nfree = s.nfree := rfl
@[simp] theorem modCmd_answers (s : State) (id : Nat) (f : EngCmd → EngCmd) : (modCmd s id f).answers = s.answers := rfl

/-! ### dropCmd -/

@[simp] theorem dropCmd_cur (s : State) (id : Nat) : (dropCmd s id).cur = s.cur := rfl
@[simp] theorem dropCmd_raised (s : State) (id : Nat) : (dropCmd s id).raised = s.raised := rfl
@[simp] theorem dropCmd_stalled (s : State) (id : Nat) : (dropCmd s id).stalled = s.stalled := rfl
@[simp] theorem dropCmd_jumped (s : State) (id : Nat) : (dropCmd s id).jumped = s.jumped := rfl
@[simp] theorem dropCmd_inbox (s : State) (id : Nat) : (dropCmd s id).inbox = s.inbox := rfl
@[simp] theorem dropCmd_blocks (s : State) (id : Nat) : (dropCmd s id).blocks = s.blocks := rfl
@[simp] theorem dropCmd_mem (s : State) (id : Nat) : (dropCmd s id).mem = s.mem := rfl
@[simp] theorem dropCmd_curator (s : State) (id : Nat) : (dropCmd s id).curator = s.curator := rfl
@[simp] theorem dropCmd_ctxs (s : State) (id : Nat) : (dropCmd s id).ctxs = s.ctxs := rfl
@[simp] theorem dropCmd_worlds (s : State) (id : Nat) : (dropCmd s id).worlds = s.worlds := rfl
@[simp] theorem dropCmd_fab (s : State) (id : Nat) : (dropCmd s id).fab = s.fab := rfl
@[simp] theorem dropCmd_hol (s : State) (id : Nat) : (dropCmd s id).hol = s.hol := rfl
@[simp] theorem dropCmd_rings (s : State) (id : Nat) : (dropCmd s id).rings = s.rings := rfl
@[simp] theorem dropCmd_nextRing (s : State) (id : Nat) : (dropCmd s id).nextRing = s.nextRing := rfl
@[simp] theorem dropCmd_gt (s : State) (id : Nat) : (dropCmd s id).gt = s.gt := rfl
@[simp] theorem dropCmd_nfree (s : State) (id : Nat) : (dropCmd s id).nfree = s.nfree := rfl
@[simp] theorem dropCmd_answers (s : State) (id : Nat) : (dropCmd s id).answers = s.answers := rfl

/-! ### modUnit -/

@[simp] theorem modUnit_cur (s : State) (u : Nat) (f : UnitSt → UnitSt) : (modUnit s u f).cur = s.cur := rfl
@[simp] theorem modUnit_raised (s : State) (u : Nat) (f : UnitSt → UnitSt) : (modUnit s u f).raised = s.raised := rfl
@[simp] theorem modUnit_stalled (s : State) (u : Nat) (f : UnitSt → UnitSt) : (modUnit s u f).stalled = s.stalled := rfl
@[simp] theorem modUnit_jumped (s : State) (u : Nat) (f : UnitSt → UnitSt) : (modUnit s u f).jumped = s.jumped := rfl
@[simp] theorem modUnit_inbox (s : State) (u : Nat) (f : UnitSt → UnitSt) : (modUnit s u f).inbox = s.inbox := rfl
@[simp] theorem modUnit_blocks (s : State) (u : Nat) (f : UnitSt → UnitSt) : (modUnit s u f).blocks = s.blocks := rfl
@[simp] theorem modUnit_mem (s : State) (u : Nat) (f : UnitSt → UnitSt) : (modUnit s u f).mem = s.mem := rfl
@[simp] theorem modUnit_eng (s : State) (u : Nat) (f : UnitSt → UnitSt) : (modUnit s u f).eng = s.eng := rfl
@[simp] theorem modUnit_curator (s : State) (u : Nat) (f : UnitSt → UnitSt) : (modUnit s u f).curator = { s.curator with units := mmod s.curator.units u {} f } := rfl
@[simp] theorem modUnit_ctxs (s : State) (u : Nat) (f : UnitSt → UnitSt) : (modUnit s u f).ctxs = s.ctxs := rfl
@[simp] theorem modUnit_worlds (s : State) (u : Nat) (f : UnitSt → UnitSt) : (modUnit s u f).worlds = s.worlds := rfl
@[simp] theorem modUnit_fab (s : State) (u : Nat) (f : UnitSt → UnitSt) : (modUnit s u f).fab = s.fab := rfl
@[simp] theorem modUnit_hol (s : State) (u : Nat) (f : UnitSt → UnitSt) : (modUnit s u f).hol = s.hol := rfl
@[simp] theorem modUnit_rings (s : State) (u : Nat) (f : UnitSt → UnitSt) : (modUnit s u f).rings = s.rings := rfl
@[simp] theorem modUnit_nextRing (s : State) (u : Nat) (f : UnitSt → UnitSt) : (modUnit s u f).nextRing = s.nextRing := rfl
@[simp] theorem modUnit_gt (s : State) (u : Nat) (f : UnitSt → UnitSt) : (modUnit s u f).gt = s.gt := rfl
@[simp] theorem modUnit_nfree (s : State) (u : Nat) (f : UnitSt → UnitSt) : (modUnit s u f).nfree = s.nfree := rfl
@[simp] theorem modUnit_answers (s : State) (u : Nat) (f : UnitSt → UnitSt) : (modUnit s u f).answers = s.answers := rfl

/-! ### putRun -/

@[simp] theorem putRun_cur (s : State) (card : Nat) (r : CardRun) : (putRun s card r).cur = s.cur := rfl
@[simp] theorem putRun_raised (s : State) (card : Nat) (r : CardRun) : (putRun s card r).raised = s.raised := rfl
@[simp] theorem putRun_stalled (s : State) (card : Nat) (r : CardRun) : (putRun s card r).stalled = s.stalled := rfl
@[simp] theorem putRun_jumped (s : State) (card : Nat) (r : CardRun) : (putRun s card r).jumped = s.jumped := rfl
@[simp] theorem putRun_inbox (s : State) (card : Nat) (r : CardRun) : (putRun s card r).inbox = s.inbox := rfl
@[simp] theorem putRun_blocks (s : State) (card : Nat) (r : CardRun) : (putRun s card r).blocks = s.blocks := rfl
@[simp] theorem putRun_mem (s : State) (card : Nat) (r : CardRun) : (putRun s card r).mem = s.mem := rfl
@[simp] theorem putRun_eng (s : State) (card : Nat) (r : CardRun) : (putRun s card r).eng = s.eng := rfl
@[simp] theorem putRun_curator (s : State) (card : Nat) (r : CardRun) : (putRun s card r).curator = { s.curator with runs := minsert s.curator.runs card r } := rfl
@[simp] theorem putRun_ctxs (s : State) (card : Nat) (r : CardRun) : (putRun s card r).ctxs = s.ctxs := rfl
@[simp] theorem putRun_worlds (s : State) (card : Nat) (r : CardRun) : (putRun s card r).worlds = s.worlds := rfl
@[simp] theorem putRun_fab (s : State) (card : Nat) (r : CardRun) : (putRun s card r).fab = s.fab := rfl
@[simp] theorem putRun_hol (s : State) (card : Nat) (r : CardRun) : (putRun s card r).hol = s.hol := rfl
@[simp] theorem putRun_rings (s : State) (card : Nat) (r : CardRun) : (putRun s card r).rings = s.rings := rfl
@[simp] theorem putRun_nextRing (s : State) (card : Nat) (r : CardRun) : (putRun s card r).nextRing = s.nextRing := rfl
@[simp] theorem putRun_gt (s : State) (card : Nat) (r : CardRun) : (putRun s card r).gt = s.gt := rfl
@[simp] theorem putRun_nfree (s : State) (card : Nat) (r : CardRun) : (putRun s card r).nfree = s.nfree := rfl
@[simp] theorem putRun_answers (s : State) (card : Nat) (r : CardRun) : (putRun s card r).answers = s.answers := rfl

/-! ### modQueue -/

@[simp] theorem modQueue_cur (s : State) (q : Nat) (f : Queue → Queue) : (modQueue s q f).cur = s.cur := rfl
@[simp] theorem modQueue_raised (s : State) (q : Nat) (f : Queue → Queue) : (modQueue s q f).raised = s.raised := rfl
@[simp] theorem modQueue_stalled (s : State) (q : Nat) (f : Queue → Queue) : (modQueue s q f).stalled = s.stalled := rfl
@[simp] theorem modQueue_jumped (s : State) (q : Nat) (f : Queue → Queue) : (modQueue s q f).jumped = s.jumped := rfl
@[simp] theorem modQueue_inbox (s : State) (q : Nat) (f : Queue → Queue) : (modQueue s q f).inbox = s.inbox := rfl
@[simp] theorem modQueue_blocks (s : State) (q : Nat) (f : Queue → Queue) : (modQueue s q f).blocks = s.blocks := rfl
@[simp] theorem modQueue_mem (s : State) (q : Nat) (f : Queue → Queue) : (modQueue s q f).mem = s.mem := rfl
@[simp] theorem modQueue_eng (s : State) (q : Nat) (f : Queue → Queue) : (modQueue s q f).eng = s.eng := rfl
@[simp] theorem modQueue_curator (s : State) (q : Nat) (f : Queue → Queue) : (modQueue s q f).curator = { s.curator with queues := mmod s.curator.queues q {} f } := rfl
@[simp] theorem modQueue_ctxs (s : State) (q : Nat) (f : Queue → Queue) : (modQueue s q f).ctxs = s.ctxs := rfl
@[simp] theorem modQueue_worlds (s : State) (q : Nat) (f : Queue → Queue) : (modQueue s q f).worlds = s.worlds := rfl
@[simp] theorem modQueue_fab (s : State) (q : Nat) (f : Queue → Queue) : (modQueue s q f).fab = s.fab := rfl
@[simp] theorem modQueue_hol (s : State) (q : Nat) (f : Queue → Queue) : (modQueue s q f).hol = s.hol := rfl
@[simp] theorem modQueue_rings (s : State) (q : Nat) (f : Queue → Queue) : (modQueue s q f).rings = s.rings := rfl
@[simp] theorem modQueue_nextRing (s : State) (q : Nat) (f : Queue → Queue) : (modQueue s q f).nextRing = s.nextRing := rfl
@[simp] theorem modQueue_gt (s : State) (q : Nat) (f : Queue → Queue) : (modQueue s q f).gt = s.gt := rfl
@[simp] theorem modQueue_nfree (s : State) (q : Nat) (f : Queue → Queue) : (modQueue s q f).nfree = s.nfree := rfl
@[simp] theorem modQueue_answers (s : State) (q : Nat) (f : Queue → Queue) : (modQueue s q f).answers = s.answers := rfl

/-! ### modPort -/

@[simp] theorem modPort_cur (s : State) (p : Nat) (f : Port → Port) : (modPort s p f).cur = s.cur := rfl
@[simp] theorem modPort_raised (s : State) (p : Nat) (f : Port → Port) : (modPort s p f).raised = s.raised := rfl
@[simp] theorem modPort_stalled (s : State) (p : Nat) (f : Port → Port) : (modPort s p f).stalled = s.stalled := rfl
@[simp] theorem modPort_jumped (s : State) (p : Nat) (f : Port → Port) : (modPort s p f).jumped = s.jumped := rfl
@[simp] theorem modPort_inbox (s : State) (p : Nat) (f : Port → Port) : (modPort s p f).inbox = s.inbox := rfl
@[simp] theorem modPort_blocks (s : State) (p : Nat) (f : Port → Port) : (modPort s p f).blocks = s.blocks := rfl
@[simp] theorem modPort_mem (s : State) (p : Nat) (f : Port → Port) : (modPort s p f).mem = s.mem := rfl
@[simp] theorem modPort_eng (s : State) (p : Nat) (f : Port → Port) : (modPort s p f).eng = s.eng := rfl
@[simp] theorem modPort_curator (s : State) (p : Nat) (f : Port → Port) : (modPort s p f).curator = s.curator := rfl
@[simp] theorem modPort_ctxs (s : State) (p : Nat) (f : Port → Port) : (modPort s p f).ctxs = s.ctxs := rfl
@[simp] theorem modPort_worlds (s : State) (p : Nat) (f : Port → Port) : (modPort s p f).worlds = s.worlds := rfl
@[simp] theorem modPort_fab (s : State) (p : Nat) (f : Port → Port) : (modPort s p f).fab = { s.fab with ports := mmod s.fab.ports p {} f } := rfl
@[simp] theorem modPort_hol (s : State) (p : Nat) (f : Port → Port) : (modPort s p f).hol = s.hol := rfl
@[simp] theorem modPort_rings (s : State) (p : Nat) (f : Port → Port) : (modPort s p f).rings = s.rings := rfl
@[simp] theorem modPort_nextRing (s : State) (p : Nat) (f : Port → Port) : (modPort s p f).nextRing = s.nextRing := rfl
@[simp] theorem modPort_gt (s : State) (p : Nat) (f : Port → Port) : (modPort s p f).gt = s.gt := rfl
@[simp] theorem modPort_nfree (s : State) (p : Nat) (f : Port → Port) : (modPort s p f).nfree = s.nfree := rfl
@[simp] theorem modPort_answers (s : State) (p : Nat) (f : Port → Port) : (modPort s p f).answers = s.answers := rfl

/-! ### modWin -/

@[simp] theorem modWin_cur (s : State) (n : Nat) (f : Window → Window) : (modWin s n f).cur = s.cur := rfl
@[simp] theorem modWin_raised (s : State) (n : Nat) (f : Window → Window) : (modWin s n f).raised = s.raised := rfl
@[simp] theorem modWin_stalled (s : State) (n : Nat) (f : Window → Window) : (modWin s n f).stalled = s.stalled := rfl
@[simp] theorem modWin_jumped (s : State) (n : Nat) (f : Window → Window) : (modWin s n f).jumped = s.jumped := rfl
@[simp] theorem modWin_inbox (s : State) (n : Nat) (f : Window → Window) : (modWin s n f).inbox = s.inbox := rfl
@[simp] theorem modWin_blocks (s : State) (n : Nat) (f : Window → Window) : (modWin s n f).blocks = s.blocks := rfl
@[simp] theorem modWin_mem (s : State) (n : Nat) (f : Window → Window) : (modWin s n f).mem = s.mem := rfl
@[simp] theorem modWin_eng (s : State) (n : Nat) (f : Window → Window) : (modWin s n f).eng = s.eng := rfl
@[simp] theorem modWin_curator (s : State) (n : Nat) (f : Window → Window) : (modWin s n f).curator = s.curator := rfl
@[simp] theorem modWin_ctxs (s : State) (n : Nat) (f : Window → Window) : (modWin s n f).ctxs = s.ctxs := rfl
@[simp] theorem modWin_worlds (s : State) (n : Nat) (f : Window → Window) : (modWin s n f).worlds = s.worlds := rfl
@[simp] theorem modWin_fab (s : State) (n : Nat) (f : Window → Window) : (modWin s n f).fab = { s.fab with wins := mmod s.fab.wins n {} f } := rfl
@[simp] theorem modWin_hol (s : State) (n : Nat) (f : Window → Window) : (modWin s n f).hol = s.hol := rfl
@[simp] theorem modWin_rings (s : State) (n : Nat) (f : Window → Window) : (modWin s n f).rings = s.rings := rfl
@[simp] theorem modWin_nextRing (s : State) (n : Nat) (f : Window → Window) : (modWin s n f).nextRing = s.nextRing := rfl
@[simp] theorem modWin_gt (s : State) (n : Nat) (f : Window → Window) : (modWin s n f).gt = s.gt := rfl
@[simp] theorem modWin_nfree (s : State) (n : Nat) (f : Window → Window) : (modWin s n f).nfree = s.nfree := rfl
@[simp] theorem modWin_answers (s : State) (n : Nat) (f : Window → Window) : (modWin s n f).answers = s.answers := rfl

/-! ### clearMarks -/

@[simp] theorem clearMarks_cur (s : State) : (clearMarks s).cur = s.cur := rfl
@[simp] theorem clearMarks_inbox (s : State) : (clearMarks s).inbox = s.inbox := rfl
@[simp] theorem clearMarks_blocks (s : State) : (clearMarks s).blocks = s.blocks := rfl
@[simp] theorem clearMarks_mem (s : State) : (clearMarks s).mem = s.mem := rfl
@[simp] theorem clearMarks_eng (s : State) : (clearMarks s).eng = s.eng := rfl
@[simp] theorem clearMarks_curator (s : State) : (clearMarks s).curator = s.curator := rfl
@[simp] theorem clearMarks_ctxs (s : State) : (clearMarks s).ctxs = s.ctxs := rfl
@[simp] theorem clearMarks_worlds (s : State) : (clearMarks s).worlds = s.worlds := rfl
@[simp] theorem clearMarks_fab (s : State) : (clearMarks s).fab = s.fab := rfl
@[simp] theorem clearMarks_hol (s : State) : (clearMarks s).hol = s.hol := rfl
@[simp] theorem clearMarks_rings (s : State) : (clearMarks s).rings = s.rings := rfl
@[simp] theorem clearMarks_nextRing (s : State) : (clearMarks s).nextRing = s.nextRing := rfl
@[simp] theorem clearMarks_gt (s : State) : (clearMarks s).gt = s.gt := rfl
@[simp] theorem clearMarks_nfree (s : State) : (clearMarks s).nfree = s.nfree := rfl
@[simp] theorem clearMarks_answers (s : State) : (clearMarks s).answers = s.answers := rfl

/-! ### modBlock -/

@[simp] theorem modBlock_cur (s : State) (k : Nat) (f : Block → Block) : (modBlock s k f).cur = s.cur := by unfold modBlock; split <;> rfl
@[simp] theorem modBlock_raised (s : State) (k : Nat) (f : Block → Block) : (modBlock s k f).raised = s.raised := by unfold modBlock; split <;> rfl
@[simp] theorem modBlock_stalled (s : State) (k : Nat) (f : Block → Block) : (modBlock s k f).stalled = s.stalled := by unfold modBlock; split <;> rfl
@[simp] theorem modBlock_jumped (s : State) (k : Nat) (f : Block → Block) : (modBlock s k f).jumped = s.jumped := by unfold modBlock; split <;> rfl
@[simp] theorem modBlock_inbox (s : State) (k : Nat) (f : Block → Block) : (modBlock s k f).inbox = s.inbox := by unfold modBlock; split <;> rfl
@[simp] theorem modBlock_mem (s : State) (k : Nat) (f : Block → Block) : (modBlock s k f).mem = s.mem := by unfold modBlock; split <;> rfl
@[simp] theorem modBlock_eng (s : State) (k : Nat) (f : Block → Block) : (modBlock s k f).eng = s.eng := by unfold modBlock; split <;> rfl
@[simp] theorem modBlock_curator (s : State) (k : Nat) (f : Block → Block) : (modBlock s k f).curator = s.curator := by unfold modBlock; split <;> rfl
@[simp] theorem modBlock_ctxs (s : State) (k : Nat) (f : Block → Block) : (modBlock s k f).ctxs = s.ctxs := by unfold modBlock; split <;> rfl
@[simp] theorem modBlock_worlds (s : State) (k : Nat) (f : Block → Block) : (modBlock s k f).worlds = s.worlds := by unfold modBlock; split <;> rfl
@[simp] theorem modBlock_fab (s : State) (k : Nat) (f : Block → Block) : (modBlock s k f).fab = s.fab := by unfold modBlock; split <;> rfl
@[simp] theorem modBlock_hol (s : State) (k : Nat) (f : Block → Block) : (modBlock s k f).hol = s.hol := by unfold modBlock; split <;> rfl
@[simp] theorem modBlock_rings (s : State) (k : Nat) (f : Block → Block) : (modBlock s k f).rings = s.rings := by unfold modBlock; split <;> rfl
@[simp] theorem modBlock_nextRing (s : State) (k : Nat) (f : Block → Block) : (modBlock s k f).nextRing = s.nextRing := by unfold modBlock; split <;> rfl
@[simp] theorem modBlock_gt (s : State) (k : Nat) (f : Block → Block) : (modBlock s k f).gt = s.gt := by unfold modBlock; split <;> rfl
@[simp] theorem modBlock_nfree (s : State) (k : Nat) (f : Block → Block) : (modBlock s k f).nfree = s.nfree := by unfold modBlock; split <;> rfl
@[simp] theorem modBlock_answers (s : State) (k : Nat) (f : Block → Block) : (modBlock s k f).answers = s.answers := by unfold modBlock; split <;> rfl

/-! ### modRun -/

@[simp] theorem modRun_cur (s : State) (card : Nat) (f : CardRun → CardRun) : (modRun s card f).cur = s.cur := by unfold modRun; split <;> rfl
@[simp] theorem modRun_raised (s : State) (card : Nat) (f : CardRun → CardRun) : (modRun s card f).raised = s.raised := by unfold modRun; split <;> rfl
@[simp] theorem modRun_stalled (s : State) (card : Nat) (f : CardRun → CardRun) : (modRun s card f).stalled = s.stalled := by unfold modRun; split <;> rfl
@[simp] theorem modRun_jumped (s : State) (card : Nat) (f : CardRun → CardRun) : (modRun s card f).jumped = s.jumped := by unfold modRun; split <;> rfl
@[simp] theorem modRun_inbox (s : State) (card : Nat) (f : CardRun → CardRun) : (modRun s card f).inbox = s.inbox := by unfold modRun; split <;> rfl
@[simp] theorem modRun_blocks (s : State) (card : Nat) (f : CardRun → CardRun) : (modRun s card f).blocks = s.blocks := by unfold modRun; split <;> rfl
@[simp] theorem modRun_mem (s : State) (card : Nat) (f : CardRun → CardRun) : (modRun s card f).mem = s.mem := by unfold modRun; split <;> rfl
@[simp] theorem modRun_eng (s : State) (card : Nat) (f : CardRun → CardRun) : (modRun s card f).eng = s.eng := by unfold modRun; split <;> rfl
@[simp] theorem modRun_ctxs (s : State) (card : Nat) (f : CardRun → CardRun) : (modRun s card f).ctxs = s.ctxs := by unfold modRun; split <;> rfl
@[simp] theorem modRun_worlds (s : State) (card : Nat) (f : CardRun → CardRun) : (modRun s card f).worlds = s.worlds := by unfold modRun; split <;> rfl
@[simp] theorem modRun_fab (s : State) (card : Nat) (f : CardRun → CardRun) : (modRun s card f).fab = s.fab := by unfold modRun; split <;> rfl
@[simp] theorem modRun_hol (s : State) (card : Nat) (f : CardRun → CardRun) : (modRun s card f).hol = s.hol := by unfold modRun; split <;> rfl
@[simp] theorem modRun_rings (s : State) (card : Nat) (f : CardRun → CardRun) : (modRun s card f).rings = s.rings := by unfold modRun; split <;> rfl
@[simp] theorem modRun_nextRing (s : State) (card : Nat) (f : CardRun → CardRun) : (modRun s card f).nextRing = s.nextRing := by unfold modRun; split <;> rfl
@[simp] theorem modRun_gt (s : State) (card : Nat) (f : CardRun → CardRun) : (modRun s card f).gt = s.gt := by unfold modRun; split <;> rfl
@[simp] theorem modRun_nfree (s : State) (card : Nat) (f : CardRun → CardRun) : (modRun s card f).nfree = s.nfree := by unfold modRun; split <;> rfl
@[simp] theorem modRun_answers (s : State) (card : Nat) (f : CardRun → CardRun) : (modRun s card f).answers = s.answers := by unfold modRun; split <;> rfl

/-! ### modGroup -/

@[simp] theorem modGroup_cur (s : State) (k g : Nat) (f : Group → Group) : (modGroup s k g f).cur = s.cur := modBlock_cur s k _
@[simp] theorem modGroup_raised (s : State) (k g : Nat) (f : Group → Group) : (modGroup s k g f).raised = s.raised := modBlock_raised s k _
@[simp] theorem modGroup_stalled (s : State) (k g : Nat) (f : Group → Group) : (modGroup s k g f).stalled = s.stalled := modBlock_stalled s k _
@[simp] theorem modGroup_jumped (s : State) (k g : Nat) (f : Group → Group) : (modGroup s k g f).jumped = s.jumped := modBlock_jumped s k _
@[simp] theorem modGroup_inbox (s : State) (k g : Nat) (f : Group → Group) : (modGroup s k g f).inbox = s.inbox := modBlock_inbox s k _
@[simp] theorem modGroup_mem (s : State) (k g : Nat) (f : Group → Group) : (modGroup s k g f).mem = s.mem := modBlock_mem s k _
@[simp] theorem modGroup_eng (s : State) (k g : Nat) (f : Group → Group) : (modGroup s k g f).eng = s.eng := modBlock_eng s k _
@[simp] theorem modGroup_curator (s : State) (k g : Nat) (f : Group → Group) : (modGroup s k g f).curator = s.curator := modBlock_curator s k _
@[simp] theorem modGroup_ctxs (s : State) (k g : Nat) (f : Group → Group) : (modGroup s k g f).ctxs = s.ctxs := modBlock_ctxs s k _
@[simp] theorem modGroup_worlds (s : State) (k g : Nat) (f : Group → Group) : (modGroup s k g f).worlds = s.worlds := modBlock_worlds s k _
@[simp] theorem modGroup_fab (s : State) (k g : Nat) (f : Group → Group) : (modGroup s k g f).fab = s.fab := modBlock_fab s k _
@[simp] theorem modGroup_hol (s : State) (k g : Nat) (f : Group → Group) : (modGroup s k g f).hol = s.hol := modBlock_hol s k _
@[simp] theorem modGroup_rings (s : State) (k g : Nat) (f : Group → Group) : (modGroup s k g f).rings = s.rings := modBlock_rings s k _
@[simp] theorem modGroup_nextRing (s : State) (k g : Nat) (f : Group → Group) : (modGroup s k g f).nextRing = s.nextRing := modBlock_nextRing s k _
@[simp] theorem modGroup_gt (s : State) (k g : Nat) (f : Group → Group) : (modGroup s k g f).gt = s.gt := modBlock_gt s k _
@[simp] theorem modGroup_nfree (s : State) (k g : Nat) (f : Group → Group) : (modGroup s k g f).nfree = s.nfree := modBlock_nfree s k _
@[simp] theorem modGroup_answers (s : State) (k g : Nat) (f : Group → Group) : (modGroup s k g f).answers = s.answers := modBlock_answers s k _

/-! ### Updates of a group -/

@[simp] theorem Group_modSplit_r (g : Group) (n : Nat) (f : Split → Split) : (g.modSplit n f).r = g.r := rfl
@[simp] theorem Group_modSplit_old (g : Group) (n : Nat) (f : Split → Split) : (g.modSplit n f).old = g.old := rfl
@[simp] theorem Group_modSplit_last (g : Group) (n : Nat) (f : Split → Split) : (g.modSplit n f).last = g.last := rfl
@[simp] theorem Group_modSplit_nextIss (g : Group) (n : Nat) (f : Split → Split) : (g.modSplit n f).nextIss = g.nextIss := rfl
@[simp] theorem Group_modSplit_stack (g : Group) (n : Nat) (f : Split → Split) : (g.modSplit n f).stack = g.stack := rfl
@[simp] theorem Group_modSplit_lo (g : Group) (n : Nat) (f : Split → Split) : (g.modSplit n f).lo = g.lo := rfl
@[simp] theorem Group_modSplit_hi (g : Group) (n : Nat) (f : Split → Split) : (g.modSplit n f).hi = g.hi := rfl
@[simp] theorem Group_modSplit_out (g : Group) (n : Nat) (f : Split → Split) : (g.modSplit n f).out = g.out := rfl
@[simp] theorem Group_modSplit_nextId (g : Group) (n : Nat) (f : Split → Split) : (g.modSplit n f).nextId = g.nextId := rfl
@[simp] theorem Group_modSplit_qb (g : Group) (n : Nat) (f : Split → Split) : (g.modSplit n f).qb = g.qb := rfl
@[simp] theorem Group_modSplit_pat (g : Group) (n : Nat) (f : Split → Split) : (g.modSplit n f).pat = g.pat := rfl
@[simp] theorem Group_modSplit_tr (g : Group) (n : Nat) (f : Split → Split) : (g.modSplit n f).tr = g.tr := rfl
@[simp] theorem Group_modSplit_tmode (g : Group) (n : Nat) (f : Split → Split) : (g.modSplit n f).tmode = g.tmode := rfl
@[simp] theorem Group_modSplit_heldAlarm (g : Group) (n : Nat) (f : Split → Split) : (g.modSplit n f).heldAlarm = g.heldAlarm := rfl
@[simp] theorem Group_modSplit_pend (g : Group) (n : Nat) (f : Split → Split) : (g.modSplit n f).pend = g.pend := rfl
@[simp] theorem Group_modSplit_later (g : Group) (n : Nat) (f : Split → Split) : (g.modSplit n f).later = g.later := rfl
@[simp] theorem Group_modSplit_az (g : Group) (n : Nat) (f : Split → Split) : (g.modSplit n f).az = g.az := rfl
@[simp] theorem Group_modSplit_band (g : Group) (n : Nat) (f : Split → Split) : (g.modSplit n f).band = g.band := rfl
@[simp] theorem Group_modSplit_cycQ (g : Group) (n : Nat) (f : Split → Split) : (g.modSplit n f).cycQ = g.cycQ := rfl
@[simp] theorem Group_modSplit_busy (g : Group) (n : Nat) (f : Split → Split) : (g.modSplit n f).busy = g.busy := rfl
@[simp] theorem Group_modSplit_pts (g : Group) (n : Nat) (f : Split → Split) : (g.modSplit n f).pts = g.pts := rfl
@[simp] theorem Group_modSplit_ptsIdle (g : Group) (n : Nat) (f : Split → Split) : (g.modSplit n f).ptsIdle = g.ptsIdle := rfl
@[simp] theorem Group_modSplit_reqQ (g : Group) (n : Nat) (f : Split → Split) : (g.modSplit n f).reqQ = g.reqQ := rfl
@[simp] theorem Group_modSplit_redAck (g : Group) (n : Nat) (f : Split → Split) : (g.modSplit n f).redAck = g.redAck := rfl
@[simp] theorem Group_modSplit_engAck (g : Group) (n : Nat) (f : Split → Split) : (g.modSplit n f).engAck = g.engAck := rfl
@[simp] theorem Group_modSplit_redFar (g : Group) (n : Nat) (f : Split → Split) : (g.modSplit n f).redFar = g.redFar := rfl
@[simp] theorem Group_modSplit_engFar (g : Group) (n : Nat) (f : Split → Split) : (g.modSplit n f).engFar = g.engFar := rfl
@[simp] theorem Group_modSplit_relTop (g : Group) (n : Nat) (f : Split → Split) : (g.modSplit n f).relTop = g.relTop := rfl
@[simp] theorem Group_modSplit_tx (g : Group) (n : Nat) (f : Split → Split) : (g.modSplit n f).tx = g.tx := rfl
@[simp] theorem Group_modSplit_spill (g : Group) (n : Nat) (f : Split → Split) : (g.modSplit n f).spill = g.spill := rfl
@[simp] theorem Group_modSplit_halt (g : Group) (n : Nat) (f : Split → Split) : (g.modSplit n f).halt = g.halt := rfl
@[simp] theorem Group_modSplit_pre (g : Group) (n : Nat) (f : Split → Split) : (g.modSplit n f).pre = g.pre := rfl
@[simp] theorem Group_modSplit_quarter (g : Group) (n : Nat) (f : Split → Split) : (g.modSplit n f).quarter = g.quarter := rfl
@[simp] theorem Group_modSplit_cluster (g : Group) (n : Nat) (f : Split → Split) : (g.modSplit n f).cluster = g.cluster := rfl
@[simp] theorem Group_modSplit_sweepDue (g : Group) (n : Nat) (f : Split → Split) : (g.modSplit n f).sweepDue = g.sweepDue := rfl
@[simp] theorem Group_dropSplit_r (g : Group) (n : Nat) : (g.dropSplit n).r = g.r := rfl
@[simp] theorem Group_dropSplit_old (g : Group) (n : Nat) : (g.dropSplit n).old = g.old := rfl
@[simp] theorem Group_dropSplit_last (g : Group) (n : Nat) : (g.dropSplit n).last = g.last := rfl
@[simp] theorem Group_dropSplit_nextIss (g : Group) (n : Nat) : (g.dropSplit n).nextIss = g.nextIss := rfl
@[simp] theorem Group_dropSplit_stack (g : Group) (n : Nat) : (g.dropSplit n).stack = g.stack := rfl
@[simp] theorem Group_dropSplit_lo (g : Group) (n : Nat) : (g.dropSplit n).lo = g.lo := rfl
@[simp] theorem Group_dropSplit_hi (g : Group) (n : Nat) : (g.dropSplit n).hi = g.hi := rfl
@[simp] theorem Group_dropSplit_out (g : Group) (n : Nat) : (g.dropSplit n).out = g.out := rfl
@[simp] theorem Group_dropSplit_nextId (g : Group) (n : Nat) : (g.dropSplit n).nextId = g.nextId := rfl
@[simp] theorem Group_dropSplit_qb (g : Group) (n : Nat) : (g.dropSplit n).qb = g.qb := rfl
@[simp] theorem Group_dropSplit_pat (g : Group) (n : Nat) : (g.dropSplit n).pat = g.pat := rfl
@[simp] theorem Group_dropSplit_tr (g : Group) (n : Nat) : (g.dropSplit n).tr = g.tr := rfl
@[simp] theorem Group_dropSplit_tmode (g : Group) (n : Nat) : (g.dropSplit n).tmode = g.tmode := rfl
@[simp] theorem Group_dropSplit_heldAlarm (g : Group) (n : Nat) : (g.dropSplit n).heldAlarm = g.heldAlarm := rfl
@[simp] theorem Group_dropSplit_pend (g : Group) (n : Nat) : (g.dropSplit n).pend = g.pend := rfl
@[simp] theorem Group_dropSplit_later (g : Group) (n : Nat) : (g.dropSplit n).later = g.later := rfl
@[simp] theorem Group_dropSplit_az (g : Group) (n : Nat) : (g.dropSplit n).az = g.az := rfl
@[simp] theorem Group_dropSplit_band (g : Group) (n : Nat) : (g.dropSplit n).band = g.band := rfl
@[simp] theorem Group_dropSplit_cycQ (g : Group) (n : Nat) : (g.dropSplit n).cycQ = g.cycQ := rfl
@[simp] theorem Group_dropSplit_busy (g : Group) (n : Nat) : (g.dropSplit n).busy = g.busy := rfl
@[simp] theorem Group_dropSplit_pts (g : Group) (n : Nat) : (g.dropSplit n).pts = g.pts := rfl
@[simp] theorem Group_dropSplit_ptsIdle (g : Group) (n : Nat) : (g.dropSplit n).ptsIdle = g.ptsIdle := rfl
@[simp] theorem Group_dropSplit_reqQ (g : Group) (n : Nat) : (g.dropSplit n).reqQ = g.reqQ := rfl
@[simp] theorem Group_dropSplit_redAck (g : Group) (n : Nat) : (g.dropSplit n).redAck = g.redAck := rfl
@[simp] theorem Group_dropSplit_engAck (g : Group) (n : Nat) : (g.dropSplit n).engAck = g.engAck := rfl
@[simp] theorem Group_dropSplit_redFar (g : Group) (n : Nat) : (g.dropSplit n).redFar = g.redFar := rfl
@[simp] theorem Group_dropSplit_engFar (g : Group) (n : Nat) : (g.dropSplit n).engFar = g.engFar := rfl
@[simp] theorem Group_dropSplit_relTop (g : Group) (n : Nat) : (g.dropSplit n).relTop = g.relTop := rfl
@[simp] theorem Group_dropSplit_tx (g : Group) (n : Nat) : (g.dropSplit n).tx = g.tx := rfl
@[simp] theorem Group_dropSplit_spill (g : Group) (n : Nat) : (g.dropSplit n).spill = g.spill := rfl
@[simp] theorem Group_dropSplit_halt (g : Group) (n : Nat) : (g.dropSplit n).halt = g.halt := rfl
@[simp] theorem Group_dropSplit_pre (g : Group) (n : Nat) : (g.dropSplit n).pre = g.pre := rfl
@[simp] theorem Group_dropSplit_quarter (g : Group) (n : Nat) : (g.dropSplit n).quarter = g.quarter := rfl
@[simp] theorem Group_dropSplit_cluster (g : Group) (n : Nat) : (g.dropSplit n).cluster = g.cluster := rfl
@[simp] theorem Group_dropSplit_sweepDue (g : Group) (n : Nat) : (g.dropSplit n).sweepDue = g.sweepDue := rfl
@[simp] theorem Group_modOut_r (g : Group) (id : Nat) (f : Pending → Pending) : (g.modOut id f).r = g.r := rfl
@[simp] theorem Group_modOut_old (g : Group) (id : Nat) (f : Pending → Pending) : (g.modOut id f).old = g.old := rfl
@[simp] theorem Group_modOut_splits (g : Group) (id : Nat) (f : Pending → Pending) : (g.modOut id f).splits = g.splits := rfl
@[simp] theorem Group_modOut_last (g : Group) (id : Nat) (f : Pending → Pending) : (g.modOut id f).last = g.last := rfl
@[simp] theorem Group_modOut_nextIss (g : Group) (id : Nat) (f : Pending → Pending) : (g.modOut id f).nextIss = g.nextIss := rfl
@[simp] theorem Group_modOut_stack (g : Group) (id : Nat) (f : Pending → Pending) : (g.modOut id f).stack = g.stack := rfl
@[simp] theorem Group_modOut_lo (g : Group) (id : Nat) (f : Pending → Pending) : (g.modOut id f).lo = g.lo := rfl
@[simp] theorem Group_modOut_hi (g : Group) (id : Nat) (f : Pending → Pending) : (g.modOut id f).hi = g.hi := rfl
@[simp] theorem Group_modOut_nextId (g : Group) (id : Nat) (f : Pending → Pending) : (g.modOut id f).nextId = g.nextId := rfl
@[simp] theorem Group_modOut_qb (g : Group) (id : Nat) (f : Pending → Pending) : (g.modOut id f).qb = g.qb := rfl
@[simp] theorem Group_modOut_pat (g : Group) (id : Nat) (f : Pending → Pending) : (g.modOut id f).pat = g.pat := rfl
@[simp] theorem Group_modOut_tr (g : Group) (id : Nat) (f : Pending → Pending) : (g.modOut id f).tr = g.tr := rfl
@[simp] theorem Group_modOut_tmode (g : Group) (id : Nat) (f : Pending → Pending) : (g.modOut id f).tmode = g.tmode := rfl
@[simp] theorem Group_modOut_heldAlarm (g : Group) (id : Nat) (f : Pending → Pending) : (g.modOut id f).heldAlarm = g.heldAlarm := rfl
@[simp] theorem Group_modOut_pend (g : Group) (id : Nat) (f : Pending → Pending) : (g.modOut id f).pend = g.pend := rfl
@[simp] theorem Group_modOut_later (g : Group) (id : Nat) (f : Pending → Pending) : (g.modOut id f).later = g.later := rfl
@[simp] theorem Group_modOut_az (g : Group) (id : Nat) (f : Pending → Pending) : (g.modOut id f).az = g.az := rfl
@[simp] theorem Group_modOut_band (g : Group) (id : Nat) (f : Pending → Pending) : (g.modOut id f).band = g.band := rfl
@[simp] theorem Group_modOut_cycQ (g : Group) (id : Nat) (f : Pending → Pending) : (g.modOut id f).cycQ = g.cycQ := rfl
@[simp] theorem Group_modOut_busy (g : Group) (id : Nat) (f : Pending → Pending) : (g.modOut id f).busy = g.busy := rfl
@[simp] theorem Group_modOut_pts (g : Group) (id : Nat) (f : Pending → Pending) : (g.modOut id f).pts = g.pts := rfl
@[simp] theorem Group_modOut_ptsIdle (g : Group) (id : Nat) (f : Pending → Pending) : (g.modOut id f).ptsIdle = g.ptsIdle := rfl
@[simp] theorem Group_modOut_reqQ (g : Group) (id : Nat) (f : Pending → Pending) : (g.modOut id f).reqQ = g.reqQ := rfl
@[simp] theorem Group_modOut_redAck (g : Group) (id : Nat) (f : Pending → Pending) : (g.modOut id f).redAck = g.redAck := rfl
@[simp] theorem Group_modOut_engAck (g : Group) (id : Nat) (f : Pending → Pending) : (g.modOut id f).engAck = g.engAck := rfl
@[simp] theorem Group_modOut_redFar (g : Group) (id : Nat) (f : Pending → Pending) : (g.modOut id f).redFar = g.redFar := rfl
@[simp] theorem Group_modOut_engFar (g : Group) (id : Nat) (f : Pending → Pending) : (g.modOut id f).engFar = g.engFar := rfl
@[simp] theorem Group_modOut_relTop (g : Group) (id : Nat) (f : Pending → Pending) : (g.modOut id f).relTop = g.relTop := rfl
@[simp] theorem Group_modOut_tx (g : Group) (id : Nat) (f : Pending → Pending) : (g.modOut id f).tx = g.tx := rfl
@[simp] theorem Group_modOut_spill (g : Group) (id : Nat) (f : Pending → Pending) : (g.modOut id f).spill = g.spill := rfl
@[simp] theorem Group_modOut_halt (g : Group) (id : Nat) (f : Pending → Pending) : (g.modOut id f).halt = g.halt := rfl
@[simp] theorem Group_modOut_pre (g : Group) (id : Nat) (f : Pending → Pending) : (g.modOut id f).pre = g.pre := rfl
@[simp] theorem Group_modOut_quarter (g : Group) (id : Nat) (f : Pending → Pending) : (g.modOut id f).quarter = g.quarter := rfl
@[simp] theorem Group_modOut_cluster (g : Group) (id : Nat) (f : Pending → Pending) : (g.modOut id f).cluster = g.cluster := rfl
@[simp] theorem Group_modOut_sweepDue (g : Group) (id : Nat) (f : Pending → Pending) : (g.modOut id f).sweepDue = g.sweepDue := rfl
@[simp] theorem Group_dropOut_r (g : Group) (id : Nat) : (g.dropOut id).r = g.r := rfl
@[simp] theorem Group_dropOut_old (g : Group) (id : Nat) : (g.dropOut id).old = g.old := rfl
@[simp] theorem Group_dropOut_splits (g : Group) (id : Nat) : (g.dropOut id).splits = g.splits := rfl
@[simp] theorem Group_dropOut_last (g : Group) (id : Nat) : (g.dropOut id).last = g.last := rfl
@[simp] theorem Group_dropOut_nextIss (g : Group) (id : Nat) : (g.dropOut id).nextIss = g.nextIss := rfl
@[simp] theorem Group_dropOut_stack (g : Group) (id : Nat) : (g.dropOut id).stack = g.stack := rfl
@[simp] theorem Group_dropOut_lo (g : Group) (id : Nat) : (g.dropOut id).lo = g.lo := rfl
@[simp] theorem Group_dropOut_hi (g : Group) (id : Nat) : (g.dropOut id).hi = g.hi := rfl
@[simp] theorem Group_dropOut_nextId (g : Group) (id : Nat) : (g.dropOut id).nextId = g.nextId := rfl
@[simp] theorem Group_dropOut_qb (g : Group) (id : Nat) : (g.dropOut id).qb = g.qb := rfl
@[simp] theorem Group_dropOut_pat (g : Group) (id : Nat) : (g.dropOut id).pat = g.pat := rfl
@[simp] theorem Group_dropOut_tr (g : Group) (id : Nat) : (g.dropOut id).tr = g.tr := rfl
@[simp] theorem Group_dropOut_tmode (g : Group) (id : Nat) : (g.dropOut id).tmode = g.tmode := rfl
@[simp] theorem Group_dropOut_heldAlarm (g : Group) (id : Nat) : (g.dropOut id).heldAlarm = g.heldAlarm := rfl
@[simp] theorem Group_dropOut_pend (g : Group) (id : Nat) : (g.dropOut id).pend = g.pend := rfl
@[simp] theorem Group_dropOut_later (g : Group) (id : Nat) : (g.dropOut id).later = g.later := rfl
@[simp] theorem Group_dropOut_az (g : Group) (id : Nat) : (g.dropOut id).az = g.az := rfl
@[simp] theorem Group_dropOut_band (g : Group) (id : Nat) : (g.dropOut id).band = g.band := rfl
@[simp] theorem Group_dropOut_cycQ (g : Group) (id : Nat) : (g.dropOut id).cycQ = g.cycQ := rfl
@[simp] theorem Group_dropOut_busy (g : Group) (id : Nat) : (g.dropOut id).busy = g.busy := rfl
@[simp] theorem Group_dropOut_pts (g : Group) (id : Nat) : (g.dropOut id).pts = g.pts := rfl
@[simp] theorem Group_dropOut_ptsIdle (g : Group) (id : Nat) : (g.dropOut id).ptsIdle = g.ptsIdle := rfl
@[simp] theorem Group_dropOut_reqQ (g : Group) (id : Nat) : (g.dropOut id).reqQ = g.reqQ := rfl
@[simp] theorem Group_dropOut_redAck (g : Group) (id : Nat) : (g.dropOut id).redAck = g.redAck := rfl
@[simp] theorem Group_dropOut_engAck (g : Group) (id : Nat) : (g.dropOut id).engAck = g.engAck := rfl
@[simp] theorem Group_dropOut_redFar (g : Group) (id : Nat) : (g.dropOut id).redFar = g.redFar := rfl
@[simp] theorem Group_dropOut_engFar (g : Group) (id : Nat) : (g.dropOut id).engFar = g.engFar := rfl
@[simp] theorem Group_dropOut_relTop (g : Group) (id : Nat) : (g.dropOut id).relTop = g.relTop := rfl
@[simp] theorem Group_dropOut_tx (g : Group) (id : Nat) : (g.dropOut id).tx = g.tx := rfl
@[simp] theorem Group_dropOut_spill (g : Group) (id : Nat) : (g.dropOut id).spill = g.spill := rfl
@[simp] theorem Group_dropOut_halt (g : Group) (id : Nat) : (g.dropOut id).halt = g.halt := rfl
@[simp] theorem Group_dropOut_pre (g : Group) (id : Nat) : (g.dropOut id).pre = g.pre := rfl
@[simp] theorem Group_dropOut_quarter (g : Group) (id : Nat) : (g.dropOut id).quarter = g.quarter := rfl
@[simp] theorem Group_dropOut_cluster (g : Group) (id : Nat) : (g.dropOut id).cluster = g.cluster := rfl
@[simp] theorem Group_dropOut_sweepDue (g : Group) (id : Nat) : (g.dropOut id).sweepDue = g.sweepDue := rfl
@[simp] theorem Group_addOut_r (g : Group) (p : Pending) : (g.addOut p).r = g.r := rfl
@[simp] theorem Group_addOut_old (g : Group) (p : Pending) : (g.addOut p).old = g.old := rfl
@[simp] theorem Group_addOut_splits (g : Group) (p : Pending) : (g.addOut p).splits = g.splits := rfl
@[simp] theorem Group_addOut_last (g : Group) (p : Pending) : (g.addOut p).last = g.last := rfl
@[simp] theorem Group_addOut_nextIss (g : Group) (p : Pending) : (g.addOut p).nextIss = g.nextIss := rfl
@[simp] theorem Group_addOut_stack (g : Group) (p : Pending) : (g.addOut p).stack = g.stack := rfl
@[simp] theorem Group_addOut_lo (g : Group) (p : Pending) : (g.addOut p).lo = g.lo := rfl
@[simp] theorem Group_addOut_hi (g : Group) (p : Pending) : (g.addOut p).hi = g.hi := rfl
@[simp] theorem Group_addOut_qb (g : Group) (p : Pending) : (g.addOut p).qb = g.qb := rfl
@[simp] theorem Group_addOut_pat (g : Group) (p : Pending) : (g.addOut p).pat = g.pat := rfl
@[simp] theorem Group_addOut_tr (g : Group) (p : Pending) : (g.addOut p).tr = g.tr := rfl
@[simp] theorem Group_addOut_tmode (g : Group) (p : Pending) : (g.addOut p).tmode = g.tmode := rfl
@[simp] theorem Group_addOut_heldAlarm (g : Group) (p : Pending) : (g.addOut p).heldAlarm = g.heldAlarm := rfl
@[simp] theorem Group_addOut_pend (g : Group) (p : Pending) : (g.addOut p).pend = g.pend := rfl
@[simp] theorem Group_addOut_later (g : Group) (p : Pending) : (g.addOut p).later = g.later := rfl
@[simp] theorem Group_addOut_az (g : Group) (p : Pending) : (g.addOut p).az = g.az := rfl
@[simp] theorem Group_addOut_band (g : Group) (p : Pending) : (g.addOut p).band = g.band := rfl
@[simp] theorem Group_addOut_cycQ (g : Group) (p : Pending) : (g.addOut p).cycQ = g.cycQ := rfl
@[simp] theorem Group_addOut_busy (g : Group) (p : Pending) : (g.addOut p).busy = g.busy := rfl
@[simp] theorem Group_addOut_pts (g : Group) (p : Pending) : (g.addOut p).pts = g.pts := rfl
@[simp] theorem Group_addOut_ptsIdle (g : Group) (p : Pending) : (g.addOut p).ptsIdle = g.ptsIdle := rfl
@[simp] theorem Group_addOut_reqQ (g : Group) (p : Pending) : (g.addOut p).reqQ = g.reqQ := rfl
@[simp] theorem Group_addOut_redAck (g : Group) (p : Pending) : (g.addOut p).redAck = g.redAck := rfl
@[simp] theorem Group_addOut_engAck (g : Group) (p : Pending) : (g.addOut p).engAck = g.engAck := rfl
@[simp] theorem Group_addOut_redFar (g : Group) (p : Pending) : (g.addOut p).redFar = g.redFar := rfl
@[simp] theorem Group_addOut_engFar (g : Group) (p : Pending) : (g.addOut p).engFar = g.engFar := rfl
@[simp] theorem Group_addOut_relTop (g : Group) (p : Pending) : (g.addOut p).relTop = g.relTop := rfl
@[simp] theorem Group_addOut_tx (g : Group) (p : Pending) : (g.addOut p).tx = g.tx := rfl
@[simp] theorem Group_addOut_spill (g : Group) (p : Pending) : (g.addOut p).spill = g.spill := rfl
@[simp] theorem Group_addOut_halt (g : Group) (p : Pending) : (g.addOut p).halt = g.halt := rfl
@[simp] theorem Group_addOut_pre (g : Group) (p : Pending) : (g.addOut p).pre = g.pre := rfl
@[simp] theorem Group_addOut_quarter (g : Group) (p : Pending) : (g.addOut p).quarter = g.quarter := rfl
@[simp] theorem Group_addOut_cluster (g : Group) (p : Pending) : (g.addOut p).cluster = g.cluster := rfl
@[simp] theorem Group_addOut_sweepDue (g : Group) (p : Pending) : (g.addOut p).sweepDue = g.sweepDue := rfl
@[simp] theorem Group_raise_r (g : Group) (t : Nat) : (g.raise t).r = g.r := by unfold Group.raise; split <;> rfl
@[simp] theorem Group_raise_old (g : Group) (t : Nat) : (g.raise t).old = g.old := by unfold Group.raise; split <;> rfl
@[simp] theorem Group_raise_splits (g : Group) (t : Nat) : (g.raise t).splits = g.splits := by unfold Group.raise; split <;> rfl
@[simp] theorem Group_raise_last (g : Group) (t : Nat) : (g.raise t).last = g.last := by unfold Group.raise; split <;> rfl
@[simp] theorem Group_raise_nextIss (g : Group) (t : Nat) : (g.raise t).nextIss = g.nextIss := by unfold Group.raise; split <;> rfl
@[simp] theorem Group_raise_stack (g : Group) (t : Nat) : (g.raise t).stack = g.stack := by unfold Group.raise; split <;> rfl
@[simp] theorem Group_raise_lo (g : Group) (t : Nat) : (g.raise t).lo = g.lo := by unfold Group.raise; split <;> rfl
@[simp] theorem Group_raise_hi (g : Group) (t : Nat) : (g.raise t).hi = g.hi := by unfold Group.raise; split <;> rfl
@[simp] theorem Group_raise_out (g : Group) (t : Nat) : (g.raise t).out = g.out := by unfold Group.raise; split <;> rfl
@[simp] theorem Group_raise_nextId (g : Group) (t : Nat) : (g.raise t).nextId = g.nextId := by unfold Group.raise; split <;> rfl
@[simp] theorem Group_raise_qb (g : Group) (t : Nat) : (g.raise t).qb = g.qb := by unfold Group.raise; split <;> rfl
@[simp] theorem Group_raise_pat (g : Group) (t : Nat) : (g.raise t).pat = g.pat := by unfold Group.raise; split <;> rfl
@[simp] theorem Group_raise_tr (g : Group) (t : Nat) : (g.raise t).tr = g.tr := by unfold Group.raise; split <;> rfl
@[simp] theorem Group_raise_tmode (g : Group) (t : Nat) : (g.raise t).tmode = g.tmode := by unfold Group.raise; split <;> rfl
@[simp] theorem Group_raise_heldAlarm (g : Group) (t : Nat) : (g.raise t).heldAlarm = g.heldAlarm := by unfold Group.raise; split <;> rfl
@[simp] theorem Group_raise_pend (g : Group) (t : Nat) : (g.raise t).pend = g.pend := by unfold Group.raise; split <;> rfl
@[simp] theorem Group_raise_later (g : Group) (t : Nat) : (g.raise t).later = g.later := by unfold Group.raise; split <;> rfl
@[simp] theorem Group_raise_az (g : Group) (t : Nat) : (g.raise t).az = g.az := by unfold Group.raise; split <;> rfl
@[simp] theorem Group_raise_band (g : Group) (t : Nat) : (g.raise t).band = g.band := by unfold Group.raise; split <;> rfl
@[simp] theorem Group_raise_cycQ (g : Group) (t : Nat) : (g.raise t).cycQ = g.cycQ := by unfold Group.raise; split <;> rfl
@[simp] theorem Group_raise_busy (g : Group) (t : Nat) : (g.raise t).busy = g.busy := by unfold Group.raise; split <;> rfl
@[simp] theorem Group_raise_reqQ (g : Group) (t : Nat) : (g.raise t).reqQ = g.reqQ := by unfold Group.raise; split <;> rfl
@[simp] theorem Group_raise_redAck (g : Group) (t : Nat) : (g.raise t).redAck = g.redAck := by unfold Group.raise; split <;> rfl
@[simp] theorem Group_raise_engAck (g : Group) (t : Nat) : (g.raise t).engAck = g.engAck := by unfold Group.raise; split <;> rfl
@[simp] theorem Group_raise_redFar (g : Group) (t : Nat) : (g.raise t).redFar = g.redFar := by unfold Group.raise; split <;> rfl
@[simp] theorem Group_raise_engFar (g : Group) (t : Nat) : (g.raise t).engFar = g.engFar := by unfold Group.raise; split <;> rfl
@[simp] theorem Group_raise_relTop (g : Group) (t : Nat) : (g.raise t).relTop = g.relTop := by unfold Group.raise; split <;> rfl
@[simp] theorem Group_raise_tx (g : Group) (t : Nat) : (g.raise t).tx = g.tx := by unfold Group.raise; split <;> rfl
@[simp] theorem Group_raise_spill (g : Group) (t : Nat) : (g.raise t).spill = g.spill := by unfold Group.raise; split <;> rfl
@[simp] theorem Group_raise_halt (g : Group) (t : Nat) : (g.raise t).halt = g.halt := by unfold Group.raise; split <;> rfl
@[simp] theorem Group_raise_pre (g : Group) (t : Nat) : (g.raise t).pre = g.pre := by unfold Group.raise; split <;> rfl
@[simp] theorem Group_raise_quarter (g : Group) (t : Nat) : (g.raise t).quarter = g.quarter := by unfold Group.raise; split <;> rfl
@[simp] theorem Group_raise_cluster (g : Group) (t : Nat) : (g.raise t).cluster = g.cluster := by unfold Group.raise; split <;> rfl
@[simp] theorem Group_raise_sweepDue (g : Group) (t : Nat) : (g.raise t).sweepDue = g.sweepDue := by unfold Group.raise; split <;> rfl

/-! ### Updates of registers -/

@[simp] theorem Regs_putSc_w (r : Regs) (n : BitVec 5) (v : DWord) : (r.putSc n v).w = r.w := by unfold Regs.putSc; split <;> rfl
@[simp] theorem Regs_putSc_k (r : Regs) (n : BitVec 5) (v : DWord) : (r.putSc n v).k = r.k := by unfold Regs.putSc; split <;> rfl
@[simp] theorem Regs_putSc_c (r : Regs) (n : BitVec 5) (v : DWord) : (r.putSc n v).c = r.c := by unfold Regs.putSc; split <;> rfl
@[simp] theorem Regs_putSc_p (r : Regs) (n : BitVec 5) (v : DWord) : (r.putSc n v).p = r.p := by unfold Regs.putSc; split <;> rfl
@[simp] theorem Regs_putSc_fC (r : Regs) (n : BitVec 5) (v : DWord) : (r.putSc n v).fC = r.fC := by unfold Regs.putSc; split <;> rfl
@[simp] theorem Regs_putSc_fZ (r : Regs) (n : BitVec 5) (v : DWord) : (r.putSc n v).fZ = r.fZ := by unfold Regs.putSc; split <;> rfl
@[simp] theorem Regs_putSc_fN (r : Regs) (n : BitVec 5) (v : DWord) : (r.putSc n v).fN = r.fN := by unfold Regs.putSc; split <;> rfl
@[simp] theorem Regs_putSc_fV (r : Regs) (n : BitVec 5) (v : DWord) : (r.putSc n v).fV = r.fV := by unfold Regs.putSc; split <;> rfl
@[simp] theorem Regs_putSc_fSP (r : Regs) (n : BitVec 5) (v : DWord) : (r.putSc n v).fSP = r.fSP := by unfold Regs.putSc; split <;> rfl
@[simp] theorem Regs_putSc_fFX (r : Regs) (n : BitVec 5) (v : DWord) : (r.putSc n v).fFX = r.fFX := by unfold Regs.putSc; split <;> rfl
@[simp] theorem Regs_putSc_bV (r : Regs) (n : BitVec 5) (v : DWord) : (r.putSc n v).bV = r.bV := by unfold Regs.putSc; split <;> rfl
@[simp] theorem Regs_putSc_bM (r : Regs) (n : BitVec 5) (v : DWord) : (r.putSc n v).bM = r.bM := by unfold Regs.putSc; split <;> rfl
@[simp] theorem Regs_putSc_bX (r : Regs) (n : BitVec 5) (v : DWord) : (r.putSc n v).bX = r.bX := by unfold Regs.putSc; split <;> rfl
@[simp] theorem Regs_putSc_fpm (r : Regs) (n : BitVec 5) (v : DWord) : (r.putSc n v).fpm = r.fpm := by unfold Regs.putSc; split <;> rfl
@[simp] theorem Regs_putSc_base (r : Regs) (n : BitVec 5) (v : DWord) : (r.putSc n v).base = r.base := by unfold Regs.putSc; split <;> rfl
@[simp] theorem Regs_putK_w (r : Regs) (n : BitVec 4) (c : Cap) : (r.putK n c).w = r.w := rfl
@[simp] theorem Regs_putK_s (r : Regs) (n : BitVec 4) (c : Cap) : (r.putK n c).s = r.s := rfl
@[simp] theorem Regs_putK_c (r : Regs) (n : BitVec 4) (c : Cap) : (r.putK n c).c = r.c := rfl
@[simp] theorem Regs_putK_p (r : Regs) (n : BitVec 4) (c : Cap) : (r.putK n c).p = r.p := rfl
@[simp] theorem Regs_putK_fC (r : Regs) (n : BitVec 4) (c : Cap) : (r.putK n c).fC = r.fC := rfl
@[simp] theorem Regs_putK_fZ (r : Regs) (n : BitVec 4) (c : Cap) : (r.putK n c).fZ = r.fZ := rfl
@[simp] theorem Regs_putK_fN (r : Regs) (n : BitVec 4) (c : Cap) : (r.putK n c).fN = r.fN := rfl
@[simp] theorem Regs_putK_fV (r : Regs) (n : BitVec 4) (c : Cap) : (r.putK n c).fV = r.fV := rfl
@[simp] theorem Regs_putK_fSP (r : Regs) (n : BitVec 4) (c : Cap) : (r.putK n c).fSP = r.fSP := rfl
@[simp] theorem Regs_putK_fFX (r : Regs) (n : BitVec 4) (c : Cap) : (r.putK n c).fFX = r.fFX := rfl
@[simp] theorem Regs_putK_bV (r : Regs) (n : BitVec 4) (c : Cap) : (r.putK n c).bV = r.bV := rfl
@[simp] theorem Regs_putK_bM (r : Regs) (n : BitVec 4) (c : Cap) : (r.putK n c).bM = r.bM := rfl
@[simp] theorem Regs_putK_bX (r : Regs) (n : BitVec 4) (c : Cap) : (r.putK n c).bX = r.bX := rfl
@[simp] theorem Regs_putK_fpm (r : Regs) (n : BitVec 4) (c : Cap) : (r.putK n c).fpm = r.fpm := rfl
@[simp] theorem Regs_putK_base (r : Regs) (n : BitVec 4) (c : Cap) : (r.putK n c).base = r.base := rfl
@[simp] theorem Regs_putC_w (r : Regs) (n : BitVec 4) (l : Nat) (c : Cap) : (r.putC n l c).w = r.w := rfl
@[simp] theorem Regs_putC_s (r : Regs) (n : BitVec 4) (l : Nat) (c : Cap) : (r.putC n l c).s = r.s := rfl
@[simp] theorem Regs_putC_k (r : Regs) (n : BitVec 4) (l : Nat) (c : Cap) : (r.putC n l c).k = r.k := rfl
@[simp] theorem Regs_putC_p (r : Regs) (n : BitVec 4) (l : Nat) (c : Cap) : (r.putC n l c).p = r.p := rfl
@[simp] theorem Regs_putC_fC (r : Regs) (n : BitVec 4) (l : Nat) (c : Cap) : (r.putC n l c).fC = r.fC := rfl
@[simp] theorem Regs_putC_fZ (r : Regs) (n : BitVec 4) (l : Nat) (c : Cap) : (r.putC n l c).fZ = r.fZ := rfl
@[simp] theorem Regs_putC_fN (r : Regs) (n : BitVec 4) (l : Nat) (c : Cap) : (r.putC n l c).fN = r.fN := rfl
@[simp] theorem Regs_putC_fV (r : Regs) (n : BitVec 4) (l : Nat) (c : Cap) : (r.putC n l c).fV = r.fV := rfl
@[simp] theorem Regs_putC_fSP (r : Regs) (n : BitVec 4) (l : Nat) (c : Cap) : (r.putC n l c).fSP = r.fSP := rfl
@[simp] theorem Regs_putC_fFX (r : Regs) (n : BitVec 4) (l : Nat) (c : Cap) : (r.putC n l c).fFX = r.fFX := rfl
@[simp] theorem Regs_putC_bV (r : Regs) (n : BitVec 4) (l : Nat) (c : Cap) : (r.putC n l c).bV = r.bV := rfl
@[simp] theorem Regs_putC_bM (r : Regs) (n : BitVec 4) (l : Nat) (c : Cap) : (r.putC n l c).bM = r.bM := rfl
@[simp] theorem Regs_putC_bX (r : Regs) (n : BitVec 4) (l : Nat) (c : Cap) : (r.putC n l c).bX = r.bX := rfl
@[simp] theorem Regs_putC_fpm (r : Regs) (n : BitVec 4) (l : Nat) (c : Cap) : (r.putC n l c).fpm = r.fpm := rfl
@[simp] theorem Regs_putC_base (r : Regs) (n : BitVec 4) (l : Nat) (c : Cap) : (r.putC n l c).base = r.base := rfl
@[simp] theorem Regs_putPred_w (r : Regs) (n : BitVec 3) (l : Nat) (v : BitVec 4) : (r.putPred n l v).w = r.w := rfl
@[simp] theorem Regs_putPred_s (r : Regs) (n : BitVec 3) (l : Nat) (v : BitVec 4) : (r.putPred n l v).s = r.s := rfl
@[simp] theorem Regs_putPred_k (r : Regs) (n : BitVec 3) (l : Nat) (v : BitVec 4) : (r.putPred n l v).k = r.k := rfl
@[simp] theorem Regs_putPred_c (r : Regs) (n : BitVec 3) (l : Nat) (v : BitVec 4) : (r.putPred n l v).c = r.c := rfl
@[simp] theorem Regs_putPred_fC (r : Regs) (n : BitVec 3) (l : Nat) (v : BitVec 4) : (r.putPred n l v).fC = r.fC := rfl
@[simp] theorem Regs_putPred_fZ (r : Regs) (n : BitVec 3) (l : Nat) (v : BitVec 4) : (r.putPred n l v).fZ = r.fZ := rfl
@[simp] theorem Regs_putPred_fN (r : Regs) (n : BitVec 3) (l : Nat) (v : BitVec 4) : (r.putPred n l v).fN = r.fN := rfl
@[simp] theorem Regs_putPred_fV (r : Regs) (n : BitVec 3) (l : Nat) (v : BitVec 4) : (r.putPred n l v).fV = r.fV := rfl
@[simp] theorem Regs_putPred_fSP (r : Regs) (n : BitVec 3) (l : Nat) (v : BitVec 4) : (r.putPred n l v).fSP = r.fSP := rfl
@[simp] theorem Regs_putPred_fFX (r : Regs) (n : BitVec 3) (l : Nat) (v : BitVec 4) : (r.putPred n l v).fFX = r.fFX := rfl
@[simp] theorem Regs_putPred_bV (r : Regs) (n : BitVec 3) (l : Nat) (v : BitVec 4) : (r.putPred n l v).bV = r.bV := rfl
@[simp] theorem Regs_putPred_bM (r : Regs) (n : BitVec 3) (l : Nat) (v : BitVec 4) : (r.putPred n l v).bM = r.bM := rfl
@[simp] theorem Regs_putPred_bX (r : Regs) (n : BitVec 3) (l : Nat) (v : BitVec 4) : (r.putPred n l v).bX = r.bX := rfl
@[simp] theorem Regs_putPred_fpm (r : Regs) (n : BitVec 3) (l : Nat) (v : BitVec 4) : (r.putPred n l v).fpm = r.fpm := rfl
@[simp] theorem Regs_putPred_base (r : Regs) (n : BitVec 3) (l : Nat) (v : BitVec 4) : (r.putPred n l v).base = r.base := rfl
@[simp] theorem Regs_putWinLanes_s (r : Regs) (P n : Nat) (act : LaneMask) (f : Nat → Word) : (r.putWinLanes P n act f).s = r.s := rfl
@[simp] theorem Regs_putWinLanes_k (r : Regs) (P n : Nat) (act : LaneMask) (f : Nat → Word) : (r.putWinLanes P n act f).k = r.k := rfl
@[simp] theorem Regs_putWinLanes_c (r : Regs) (P n : Nat) (act : LaneMask) (f : Nat → Word) : (r.putWinLanes P n act f).c = r.c := rfl
@[simp] theorem Regs_putWinLanes_p (r : Regs) (P n : Nat) (act : LaneMask) (f : Nat → Word) : (r.putWinLanes P n act f).p = r.p := rfl
@[simp] theorem Regs_putWinLanes_fC (r : Regs) (P n : Nat) (act : LaneMask) (f : Nat → Word) : (r.putWinLanes P n act f).fC = r.fC := rfl
@[simp] theorem Regs_putWinLanes_fZ (r : Regs) (P n : Nat) (act : LaneMask) (f : Nat → Word) : (r.putWinLanes P n act f).fZ = r.fZ := rfl
@[simp] theorem Regs_putWinLanes_fN (r : Regs) (P n : Nat) (act : LaneMask) (f : Nat → Word) : (r.putWinLanes P n act f).fN = r.fN := rfl
@[simp] theorem Regs_putWinLanes_fV (r : Regs) (P n : Nat) (act : LaneMask) (f : Nat → Word) : (r.putWinLanes P n act f).fV = r.fV := rfl
@[simp] theorem Regs_putWinLanes_fSP (r : Regs) (P n : Nat) (act : LaneMask) (f : Nat → Word) : (r.putWinLanes P n act f).fSP = r.fSP := rfl
@[simp] theorem Regs_putWinLanes_fFX (r : Regs) (P n : Nat) (act : LaneMask) (f : Nat → Word) : (r.putWinLanes P n act f).fFX = r.fFX := rfl
@[simp] theorem Regs_putWinLanes_bV (r : Regs) (P n : Nat) (act : LaneMask) (f : Nat → Word) : (r.putWinLanes P n act f).bV = r.bV := rfl
@[simp] theorem Regs_putWinLanes_bM (r : Regs) (P n : Nat) (act : LaneMask) (f : Nat → Word) : (r.putWinLanes P n act f).bM = r.bM := rfl
@[simp] theorem Regs_putWinLanes_bX (r : Regs) (P n : Nat) (act : LaneMask) (f : Nat → Word) : (r.putWinLanes P n act f).bX = r.bX := rfl
@[simp] theorem Regs_putWinLanes_fpm (r : Regs) (P n : Nat) (act : LaneMask) (f : Nat → Word) : (r.putWinLanes P n act f).fpm = r.fpm := rfl
@[simp] theorem Regs_putWinLanes_base (r : Regs) (P n : Nat) (act : LaneMask) (f : Nat → Word) : (r.putWinLanes P n act f).base = r.base := rfl
@[simp] theorem Regs_pushLatch_w (r : Regs) (p : Pipe) (v : SMap Word) : (r.pushLatch p v).w = r.w := by cases p <;> rfl
@[simp] theorem Regs_noLatches_w (r : Regs) : r.noLatches.w = r.w := rfl
@[simp] theorem Regs_pushLatch_s (r : Regs) (p : Pipe) (v : SMap Word) : (r.pushLatch p v).s = r.s := by cases p <;> rfl
@[simp] theorem Regs_noLatches_s (r : Regs) : r.noLatches.s = r.s := rfl
@[simp] theorem Regs_pushLatch_k (r : Regs) (p : Pipe) (v : SMap Word) : (r.pushLatch p v).k = r.k := by cases p <;> rfl
@[simp] theorem Regs_noLatches_k (r : Regs) : r.noLatches.k = r.k := rfl
@[simp] theorem Regs_pushLatch_c (r : Regs) (p : Pipe) (v : SMap Word) : (r.pushLatch p v).c = r.c := by cases p <;> rfl
@[simp] theorem Regs_noLatches_c (r : Regs) : r.noLatches.c = r.c := rfl
@[simp] theorem Regs_pushLatch_p (r : Regs) (p : Pipe) (v : SMap Word) : (r.pushLatch p v).p = r.p := by cases p <;> rfl
@[simp] theorem Regs_noLatches_p (r : Regs) : r.noLatches.p = r.p := rfl
@[simp] theorem Regs_pushLatch_fC (r : Regs) (p : Pipe) (v : SMap Word) : (r.pushLatch p v).fC = r.fC := by cases p <;> rfl
@[simp] theorem Regs_noLatches_fC (r : Regs) : r.noLatches.fC = r.fC := rfl
@[simp] theorem Regs_pushLatch_fZ (r : Regs) (p : Pipe) (v : SMap Word) : (r.pushLatch p v).fZ = r.fZ := by cases p <;> rfl
@[simp] theorem Regs_noLatches_fZ (r : Regs) : r.noLatches.fZ = r.fZ := rfl
@[simp] theorem Regs_pushLatch_fN (r : Regs) (p : Pipe) (v : SMap Word) : (r.pushLatch p v).fN = r.fN := by cases p <;> rfl
@[simp] theorem Regs_noLatches_fN (r : Regs) : r.noLatches.fN = r.fN := rfl
@[simp] theorem Regs_pushLatch_fV (r : Regs) (p : Pipe) (v : SMap Word) : (r.pushLatch p v).fV = r.fV := by cases p <;> rfl
@[simp] theorem Regs_noLatches_fV (r : Regs) : r.noLatches.fV = r.fV := rfl
@[simp] theorem Regs_pushLatch_fSP (r : Regs) (p : Pipe) (v : SMap Word) : (r.pushLatch p v).fSP = r.fSP := by cases p <;> rfl
@[simp] theorem Regs_noLatches_fSP (r : Regs) : r.noLatches.fSP = r.fSP := rfl
@[simp] theorem Regs_pushLatch_fFX (r : Regs) (p : Pipe) (v : SMap Word) : (r.pushLatch p v).fFX = r.fFX := by cases p <;> rfl
@[simp] theorem Regs_noLatches_fFX (r : Regs) : r.noLatches.fFX = r.fFX := rfl
@[simp] theorem Regs_pushLatch_fpm (r : Regs) (p : Pipe) (v : SMap Word) : (r.pushLatch p v).fpm = r.fpm := by cases p <;> rfl
@[simp] theorem Regs_noLatches_fpm (r : Regs) : r.noLatches.fpm = r.fpm := rfl
@[simp] theorem Regs_pushLatch_base (r : Regs) (p : Pipe) (v : SMap Word) : (r.pushLatch p v).base = r.base := by cases p <;> rfl
@[simp] theorem Regs_noLatches_base (r : Regs) : r.noLatches.base = r.base := rfl

end Sys2Proof.Laws
end

