-- ==== Sys2Proof/Laws/Ops.lean ====
section
/-! SUPPORT. What the shared operations over blocks, groups and registers do, each said once: what they change and what they leave. -/
namespace Sys2Proof.Laws
open Sys2Proof Sys2Proof.Machine

variable {α : Type}

/-- A key just listed is found. -/
@[simp] theorem mfind_minsert_same (m : SMap α) (k : Nat) (v : α) : mfind (minsert m k v) k = some v := by
  induction m with
  | nil => simp [minsert, mfind]
  | cons e r ih =>
    simp only [minsert]
    split
    · simp [mfind]
    · split
      · simp [mfind]
      · rename_i h1 _; simp [mfind, h1, ih]

/-- Listing a key leaves every other key. -/
theorem mfind_minsert_other (m : SMap α) {k j : Nat} (v : α) (h : j ≠ k) : mfind (minsert m k v) j = mfind m j := by
  induction m with
  | nil => simp [minsert, mfind, h]
  | cons e r ih =>
    simp only [minsert]
    split
    · rename_i h1; subst h1; simp [mfind, h]
    · split
      · simp only [mfind, h, if_false]
      · simp only [mfind, ih]

/-- A key just removed is not found. -/
@[simp] theorem mfind_merase_same (m : SMap α) (k : Nat) : mfind (merase m k) k = none := by
  induction m with
  | nil => rfl
  | cons e r ih =>
    simp only [merase]
    split
    · exact ih
    · rename_i h; simp [mfind, h, ih]

/-- Removing a key leaves every other key. -/
theorem mfind_merase_other (m : SMap α) {k j : Nat} (h : j ≠ k) : mfind (merase m k) j = mfind m j := by
  induction m with
  | nil => rfl
  | cons e r ih =>
    simp only [merase]
    split
    · rename_i h1; subst h1; simp only [mfind, h, if_false, ih]
    · simp only [mfind, ih]

/-- A list with one place changed, at every place: the changed one, and the others as they were. -/
theorem getElem?_modAt (xs : List α) (n j : Nat) (f : α → α) : (modAt xs n f)[j]? = if j = n then xs[j]?.map f else xs[j]? := by
  fun_induction modAt xs n f generalizing j <;> rcases j with _ | j <;> simp_all

/-- A changed place of a list. -/
@[simp] theorem getElem?_modAt_same (xs : List α) (n : Nat) (f : α → α) : (modAt xs n f)[n]? = xs[n]?.map f := by
  rw [getElem?_modAt, if_pos rfl]

/-- The other places of a list. -/
theorem getElem?_modAt_other (xs : List α) {n j : Nat} (f : α → α) (h : j ≠ n) : (modAt xs n f)[j]? = xs[j]? := by
  rw [getElem?_modAt, if_neg h]

/-! Blocks. -/

@[simp] theorem blockOf_putBlock_same (s : State) (k : Nat) (b : Block) : blockOf (putBlock s k b) k = some b := mfind_minsert_same _ _ _
theorem blockOf_putBlock_other (s : State) {k j : Nat} (b : Block) (h : j ≠ k) : blockOf (putBlock s k b) j = blockOf s j :=
  mfind_minsert_other _ _ h
/-- A changed block is found changed, where it was found. -/
@[simp] theorem blockOf_modBlock_same (s : State) (k : Nat) (f : Block → Block) : blockOf (modBlock s k f) k = (blockOf s k).map f := by
  unfold modBlock
  split <;> simp_all
/-- A change of one block leaves every other. -/
theorem blockOf_modBlock_other (s : State) {k j : Nat} (f : Block → Block) (h : j ≠ k) : blockOf (modBlock s k f) j = blockOf s j := by
  unfold modBlock
  split
  · exact blockOf_putBlock_other s _ h
  · rfl

/-! Groups. -/

/-- A changed group is found changed, where it was found. -/
@[simp] theorem groupOf_modGroup_same (s : State) (k gix : Nat) (f : Group → Group) :
    groupOf (modGroup s k gix f) k gix = (groupOf s k gix).map f := by
  unfold groupOf modGroup
  rw [blockOf_modBlock_same]
  cases blockOf s k with
  | none => rfl
  | some b => exact getElem?_modAt_same _ _ _
/-- A change of one group leaves the others of its block. -/
theorem groupOf_modGroup_other (s : State) (k : Nat) {gix j : Nat} (f : Group → Group) (h : j ≠ gix) :
    groupOf (modGroup s k gix f) k j = groupOf s k j := by
  unfold groupOf modGroup
  rw [blockOf_modBlock_same]
  cases blockOf s k with
  | none => rfl
  | some b => exact getElem?_modAt_other _ _ h
/-- A change of one group leaves those of every other block. -/
theorem groupOf_modGroup_block (s : State) {k j : Nat} (gix n : Nat) (f : Group → Group) (h : j ≠ k) :
    groupOf (modGroup s k gix f) j n = groupOf s j n := by
  unfold groupOf modGroup
  rw [blockOf_modBlock_other s _ h]
/-- A change of one group leaves everything of its block but the groups. -/
theorem modGroup_block (s : State) (k gix : Nat) (f : Group → Group) {b : Block} (h : blockOf s k = some b) :
    blockOf (modGroup s k gix f) k = some { b with groups := modAt b.groups gix f } := by
  unfold modGroup
  rw [blockOf_modBlock_same, h]
  rfl

/-! Words. -/

/-- A word's change of its group's registers, in its group. -/
theorem modR_group (o : Op) (f : Regs → Regs) : groupOf (o.modR f) o.k o.gix = (groupOf o.s o.k o.gix).map fun g => { g with r := f g.r } :=
  groupOf_modGroup_same _ _ _ _
/-- A 32-bit result to a window register: written, then pushed into the latches of its pipe. -/
theorem put_window (o : Op) (p : Pipe) {d : BitVec 6} {sup : BitVec 1} (f : Nat → Word) (hs : sup = 0) (hd : d.toNat ≤ 47) :
    o.put p d sup f = o.modR fun r => (r.putWinLanes o.b.v.p d.toNat o.act f).pushLatch p (tab o.act f) := by
  subst hs
  have h : d ≠ 54 := by rintro rfl; simp at hd
  have hc : ((0 : BitVec 1) == 1 || d == 54) = false := by rw [beq_eq_false_iff_ne.2 h]; rfl
  simp only [Op.put, hc, hd, if_true, Bool.false_eq_true, if_false]
/-- A result with suppressed write-back, or to wz: pushed and not written. -/
theorem put_suppressed (o : Op) (p : Pipe) {d : BitVec 6} {sup : BitVec 1} (f : Nat → Word) (h : sup = 1 ∨ d = 54) :
    o.put p d sup f = o.modR fun r => r.pushLatch p (tab o.act f) := by
  rcases h with rfl | rfl <;> simp [Op.put]
/-- A stalled word leaves everything but the wait of its split. -/
theorem stallAt_frame (s : State) (k gix no : Nat) (w : Wait) :
    (stallAt s k gix no w).mem = s.mem ∧ (stallAt s k gix no w).ctxs = s.ctxs ∧ (stallAt s k gix no w).stalled = true ∧
      groupOf (stallAt s k gix no w) k gix = (groupOf s k gix).map (·.modSplit no fun p => { p with wait := w }) := by
  refine ⟨?_, ?_, rfl, groupOf_modGroup_same s k gix _⟩ <;> simp [stallAt]
/-- A word that sends its split to a packet. -/
theorem jump_group (o : Op) (pc : BitVec 32) :
    groupOf (o.jump pc) o.k o.gix = (groupOf o.s o.k o.gix).map (·.modSplit o.no (·.goto pc)) := groupOf_modGroup_same o.s o.k o.gix _

end Sys2Proof.Laws
end

