-- ==== Sys2Proof/Laws/Words.lean ====
section
/-! SUPPORT. What the issue of a word can do, said once: every word is `issueWord` of an effect, and what comes before that effect. -/
namespace Sys2Proof.Laws
open Sys2Proof Sys2Proof.Machine

/-- Every word runs in the frame that all words share. -/
theorem exec_word (i : Instr) (s : State) (h : isEvent i = false) : ∃ f, exec i s = issueWord i s f := by
  cases i <;> first | exact ⟨_, rfl⟩ | cases h

/-- A word whose operands are ready has its effect. -/
theorem issueWord_go {i : Instr} {s : State} {o : Op} (f : Op → State) (h : wordOp i s = some o) : issueWord i s f = .next (f o) := by
  unfold wordOp at h
  unfold issueWord
  split at h
  · cases h
  · split at h <;> simp_all [runWord]

/-- With a split issuing, a word ends in the state that its frame gives. -/
theorem issueWord_some {i : Instr} {s : State} {c : Cursor} {b : Block} {g : Group} {p : Split} (f : Op → State)
    (h : issuerOf s = some (c, b, g, p)) : issueWord i s f = .next (runWord i s c b g p f) := by
  simp [issueWord, h]

/-- With no split issuing, no word runs. -/
theorem issueWord_none {i : Instr} {s : State} (f : Op → State) (h : issuerOf s = none) : issueWord i s f = .fault .noIssuer := by
  simp [issueWord, h]

/-- A word that always has one effect does it. -/
theorem wordDoes_of {i : Instr} {f g : Op → State} (he : ∀ s, exec i s = issueWord i s f) (hfg : ∀ o, f o = g o) : WordDoes i g := by
  intro s o ho
  rw [he, issueWord_go f ho, hfg]

/-- A word whose effect under a condition is known does it. -/
theorem wordDoesWhen_of {i : Instr} {p : Op → Prop} {f g : Op → State} (he : ∀ s, exec i s = issueWord i s f) (hfg : ∀ o, p o → f o = g o) :
    WordDoesWhen i p g := by
  intro s o ho hp
  rw [he, issueWord_go f ho, hfg o hp]

/-- A word whose operands are ready has a split that issues it. -/
theorem wordOp_issuer {i : Instr} {s : State} {o : Op} (h : wordOp i s = some o) :
    ∃ c b g p, issuerOf s = some (c, b, g, p) ∧ beginWord i s c b g p = .go o := by
  unfold wordOp at h
  split at h
  · cases h
  · rename_i c b g p hi
    refine ⟨c, b, g, p, hi, ?_⟩
    split at h <;> simp_all

end Sys2Proof.Laws
end

