-- ==== Sys2Proof/Tests/Slice0.lean ====
section
/-! SUPPORT. Tests: ill-formed terms, words written out from the spec's encodings, single steps on a small state, and for every
statement with hypotheses a state that meets them. -/
set_option Elab.async false
namespace Sys2Proof.Tests
open Sys2Proof Sys2Proof.Machine

/-! ### Ill-formed terms, one for each check of WellFormed (R26, R27, R29, R32, R38 to R42) -/

/-- Immediates: a host's own field with an extension, and a second payload past 32 bits where the target has no 48 (R26). -/
theorem test_wf_immediate : Instr.wf (.saddImm 1 2 ⟨1, .one 5⟩) = false ∧ Instr.wf (.vaddImm 4 0 ⟨0, .two 5 256⟩ 0 0 0) = false ∧
    Instr.wf (.vaddImm 4 0 ⟨0, .two 5 255⟩ 0 0 0) = true := by decide +kernel
/-- Pairs begin at an even register below w48 (R27). -/
theorem test_wf_pair : Instr.wf (.vaddInt 5 0 0 2 0 0 2) = false ∧ Instr.wf (.vaddInt 4 0 1 2 0 0 2) = false ∧
    Instr.wf (.vaddInt 48 0 0 2 0 0 2) = false ∧ Instr.wf (.vaddInt 4 0 0 2 0 0 2) = true := by decide +kernel
/-- A latch, a stream or `lid` is no destination; a queue is none for a word that reads d (R27). -/
theorem test_wf_destination : Instr.wf (.vaddInt 56 0 0 2 0 0 0) = false ∧ Instr.wf (.vaddInt 52 0 0 2 0 0 0) = false ∧
    Instr.wf (.vaddInt 55 0 0 2 0 0 0) = false ∧ Instr.wf (.vmad 48 0 0 2 0 0) = false := by decide +kernel
/-- The S pipe's latches have no names (R74); `slane` takes no queue (R91). -/
theorem test_wf_scalar_source : Instr.wf (.split 56 1) = false ∧ Instr.wf (.slane 1 48 0) = false ∧ Instr.wf (.split 55 1) = true := by decide +kernel
/-- Memory offsets name no queue and no stream (R27); a load that suppresses its write pushes no queue (R133). -/
theorem test_wf_memory : Instr.wf (.ldReg 2 0 0 3 48 0 15) = false ∧ Instr.wf (.ldReg 48 1 0 3 1 0 15) = false ∧
    Instr.wf (.stReg 3 0 3 1 1 15) = false ∧ Instr.wf (.ldReg 2 0 0 3 1 0 15) = true := by decide +kernel
/-- With V = 1 a capability field is c0 to c7 (R29); with V = 0 an integer operand is a scalar register (R39). -/
theorem test_wf_capability : Instr.wf (.cmov 8 1 0 0) = false ∧ Instr.wf (.cinc 3 1 8 4) = false ∧ Instr.wf (.cinc 3 0 2 32) = false ∧
    Instr.wf (.cmov 3 0 2 3) = false ∧ Instr.wf (.cmov 3 0 2 1) = false ∧ Instr.wf (.cmov 3 1 2 2) = false ∧ Instr.wf (.cgetTop 32 0 3) = false := by
  decide +kernel
/-- Formats, rounding fields, types and positions (R38, R42, R116). -/
theorem test_wf_formats : Instr.wf (.ldReg 2 0 0 3 1 0 12) = false ∧ Instr.wf (.vfma 4 0 0 2 5 0) = false ∧ Instr.wf (.vfma 4 0 0 2 0 3) = false ∧
    Instr.wf (.vcvt 4 0 2 11 0 0) = false ∧ Instr.wf (.vcvt 4 0 2 0 0 0) = false ∧ Instr.wf (.vcvt 4 0 2 3 0 5) = false ∧
    Instr.wf (.vcvt 4 0 2 7 3 1) = false ∧ Instr.wf (.vpackb 4 0 2 9 0 0 0) = false ∧ Instr.wf (.vpackb 4 0 2 6 0 0 4) = false := by decide +kernel
/-- Small-matrix shapes and spans (R39, R143). -/
theorem test_wf_matrix : Instr.wf (.mtrans 0 0 6 0) = false ∧ Instr.wf (.mtrans 47 0 1 1) = false ∧ Instr.wf (.mchol 0 0 1 2) = false ∧
    Instr.wf (.mmul 24 0 0 0 0 0) = false ∧ Instr.wf (.mtrans 44 0 1 1) = true := by decide +kernel
/-- Status and mode registers, flag tests, flags, masked types, `pcmp.b` tests (R38, R40, R88). -/
theorem test_wf_numbers : Instr.wf (.sstat 1 5 0) = false ∧ Instr.wf (.sstat 1 3 1) = false ∧ Instr.wf (.sflags 1 6) = false ∧
    Instr.wf (.vselFlag 4 0 0 2 10) = false ∧ Instr.wf (.vaddMasked 4 0 0 2 0 3) = false ∧ Instr.wf (.pcmpB 0 0 2 6) = false ∧
    Instr.wf (.pfromcc 0 10) = false := by decide +kernel
/-- Scopes, the fence's kinds, slides, atomics of 64 bits, drains (R77, R151, R178, R184, R199). -/
theorem test_wf_system : Instr.wf (.fence 7 1) = false ∧ Instr.wf (.fence 4 0) = false ∧ Instr.wf (.call 0 1) = false ∧ Instr.wf (.call 7 1) = false ∧
    Instr.wf (.amadd64 4 0 0 3 1 0) = false ∧ Instr.wf (.amadd32 4 0 0 3 1 7) = false ∧ Instr.wf (.tdrain 48 0 9) = false ∧
    Instr.wf (.ecopy 2 7 4 0 0) = false ∧ Instr.wf (.ecopy 2 7 7 1 1) = false := by decide +kernel
/-- The type of a delivery (R40, R141). -/
theorem test_wf_redm : Instr.wf (.redmAdd 7 0 2 5 3) = false ∧ Instr.wf (.redmAdd 7 0 2 5 2) = true := by decide +kernel
/-- Reserved words are refused by name, and no reserved bit is dropped (R39, R40, R43). -/
theorem test_decode_refuses : decodeTableWord 32 0x00000000 = none ∧ decodeTableWord 32 0x7F000000 = none ∧ decodeTableWord 32 0x14000000 = none ∧
    decodeTableWord 32 0x01000001 = none ∧ decodeTableWord 32 0x02000010 = none ∧ decodeTableWord 32 0x08A40003 = none ∧
    decodeTableWord 32 0x7E000000 = none := by decide +kernel

/-! ### Words written out from the field tables of R38 to R42, one for every row of the opcode table -/

theorem test_decode_nop_0 :
    decodeTableWord 32 0x01000000 = some (.nop) := by decide +kernel
theorem test_decode_scalar_alu_0 :
    decodeTableWord 32 0x02D91A00 = some (.sadd 27 4 13) ∧
    decodeTableWord 32 0x02879A01 = some (.ssub 16 30 13) ∧
    decodeTableWord 32 0x02E1BC02 = some (.sand 28 6 30) ∧
    decodeTableWord 32 0x02DA6403 = some (.sor 27 9 18) ∧
    decodeTableWord 32 0x024AF604 = some (.sxor 9 11 27) ∧
    decodeTableWord 32 0x020E1C05 = some (.sshl 1 24 14) ∧
    decodeTableWord 32 0x02F1EA06 = some (.sshr 30 7 21) ∧
    decodeTableWord 32 0x02946607 = some (.ssra 18 17 19) ∧
    decodeTableWord 32 0x0222DA08 = some (.smul 4 11 13) := by decide +kernel
theorem test_decode_scalar_alu_1 :
    decodeTableWord 32 0x02354809 = some (.smulhI64 6 21 4) ∧
    decodeTableWord 32 0x027CB80A = some (.smulhU64 15 18 28) ∧
    decodeTableWord 32 0x0295440B = some (.sminI64 18 21 2) ∧
    decodeTableWord 32 0x0287E00C = some (.sminU64 16 31 16) ∧
    decodeTableWord 32 0x025AF40D = some (.smaxI64 11 11 26) ∧
    decodeTableWord 32 0x0212B80E = some (.smaxU64 2 10 28) ∧
    decodeTableWord 32 0x03A17CC0 = some (.saddImm 20 5 ⟨486, .none⟩) ∧
    decodeTableWord 32 0x031500E1 = some (.ssubImm 2 20 ⟨7, .none⟩) ∧
    decodeTableWord 32 0x0383C762 = some (.sandImm 16 15 ⟨59, .none⟩) := by decide +kernel
theorem test_decode_scalar_alu_2 :
    decodeTableWord 32 0x03B365C3 = some (.sorImm 22 13 ⟨302, .none⟩) ∧
    decodeTableWord 32 0x0306EA44 = some (.sxorImm 0 27 ⟨338, .none⟩) ∧
    decodeTableWord 32 0x03A239C5 = some (.sshlImm 20 8 ⟨462, .none⟩) ∧
    decodeTableWord 32 0x03CF2EC6 = some (.sshrImm 25 28 ⟨374, .none⟩) ∧
    decodeTableWord 32 0x03B5D047 = some (.ssraImm 22 23 ⟨130, .none⟩) ∧
    decodeTableWord 32 0x0307C508 = some (.smulImm 0 31 ⟨40, .none⟩) ∧
    decodeTableWord 32 0x03294289 = some (.smulhI64Imm 5 5 ⟨20, .none⟩) ∧
    decodeTableWord 32 0x03F1B9AA = some (.smulhU64Imm 30 6 ⟨461, .none⟩) ∧
    decodeTableWord 32 0x03141FCB = some (.sminI64Imm 2 16 ⟨254, .none⟩) := by decide +kernel
theorem test_decode_scalar_alu_3 :
    decodeTableWord 32 0x036474AC = some (.sminU64Imm 12 17 ⟨421, .none⟩) ∧
    decodeTableWord 32 0x03AF5EED = some (.smaxI64Imm 21 29 ⟨247, .none⟩) ∧
    decodeTableWord 32 0x036E2EAE = some (.smaxU64Imm 13 24 ⟨373, .none⟩) := by decide +kernel
theorem test_decode_scalar_compare_0 :
    decodeTableWord 32 0x04CB3800 = some (.scmpEq 25 12 28) ∧
    decodeTableWord 32 0x0415E201 = some (.scmpNe 2 23 17) ∧
    decodeTableWord 32 0x0456B402 = some (.scmpLtI64 10 26 26) ∧
    decodeTableWord 32 0x04D41E03 = some (.scmpGeI64 26 16 15) ∧
    decodeTableWord 32 0x04AF6C04 = some (.scmpLtU64 21 29 22) ∧
    decodeTableWord 32 0x04D59205 = some (.scmpGeU64 26 22 9) ∧
    decodeTableWord 32 0x05E48720 = some (.scmpEqImm 28 18 ⟨57, .none⟩) ∧
    decodeTableWord 32 0x05880821 = some (.scmpNeImm 17 0 ⟨65, .none⟩) ∧
    decodeTableWord 32 0x056F6142 = some (.scmpLtI64Imm 13 29 ⟨266, .none⟩) := by decide +kernel
theorem test_decode_scalar_compare_1 :
    decodeTableWord 32 0x05503303 = some (.scmpGeI64Imm 10 0 ⟨408, .none⟩) ∧
    decodeTableWord 32 0x0544C284 = some (.scmpLtU64Imm 8 19 ⟨20, .none⟩) ∧
    decodeTableWord 32 0x05A326E5 = some (.scmpGeU64Imm 20 12 ⟨311, .none⟩) ∧
    decodeTableWord 32 0x06C3A4BB = some (.smovi 24 ⟨238779, .none⟩) := by decide +kernel
theorem test_decode_control_0 :
    decodeTableWord 32 0x07212786 = some (.br 2172806) ∧
    decodeTableWord 32 0x0818B65F = some (.brcEq0 24 46687) ∧
    decodeTableWord 32 0x083E88FB = some (.brcNe0 30 35067) ∧
    decodeTableWord 32 0x0851E335 = some (.brcLt0 17 58165) ∧
    decodeTableWord 32 0x0861F9CA = some (.brcGe0 1 63946) ∧
    decodeTableWord 32 0x0880DA9B = some (.brcZ 55963) ∧
    decodeTableWord 32 0x08A05EC7 = some (.brcNz 24263) ∧
    decodeTableWord 32 0x08C0A2AE = some (.brcC 41646) ∧
    decodeTableWord 32 0x08E0E64C = some (.brcNc 58956) := by decide +kernel
theorem test_decode_control_1 :
    decodeTableWord 32 0x09775E21 = some (.call 3 1531425) ∧
    decodeTableWord 32 0x0A000000 = some (.ret) ∧
    decodeTableWord 32 0x0B133246 = some (.split 4 209478) ∧
    decodeTableWord 32 0x0C000000 = some (.merge) ∧
    decodeTableWord 32 0x0D2B0000 = some (.waitc 0 43) ∧
    decodeTableWord 32 0x0E700000 = some (.bar 7) ∧
    decodeTableWord 32 0x0F600000 = some (.qbindPush 1 8) ∧
    decodeTableWord 32 0x0F290000 = some (.qbindPop 0 10) ∧
    decodeTableWord 32 0x0F820000 = some (.qbindUnbind 2) := by decide +kernel
theorem test_decode_status_0 :
    decodeTableWord 32 0x10218000 = some (.sstat 4 12 0) ∧
    decodeTableWord 32 0x11700000 = some (.smaskRd 14) ∧
    decodeTableWord 32 0x11640000 = some (.smaskWr 12) ∧
    decodeTableWord 32 0x12350000 = some (.sflags 6 5) ∧
    decodeTableWord 32 0x1352A580 = some (.slane 10 21 11) := by decide +kernel
theorem test_decode_vector_arithmetic_0 :
    decodeTableWord 32 0x185B26A4 = some (.vaddInt 22 1 36 53 0 0 4) ∧
    decodeTableWord 32 0x19AB2D31 = some (.vsubInt 42 1 37 41 1 0 1) ∧
    decodeTableWord 32 0x1A7804C4 = some (.vmulInt 30 0 0 38 0 4) ∧
    decodeTableWord 32 0x1B2D15A1 = some (.vmulh 11 0 34 45 1) ∧
    decodeTableWord 32 0x1C42640A = some (.vmad 16 1 12 32 1 2) ∧
    decodeTableWord 32 0x1D6F40C4 = some (.vminInt 27 1 40 6 4) ∧
    decodeTableWord 32 0x1EB8E0C0 = some (.vmaxInt 46 0 28 6 0) ∧
    decodeTableWord 32 0x1F09D6C0 = some (.vabsd 2 0 58 54 0) := by decide +kernel
theorem test_decode_vector_logic_0 :
    decodeTableWord 32 0x201E9FA0 = some (.vand 7 1 19 61 0 0) ∧
    decodeTableWord 32 0x21A835C0 = some (.vor 42 0 6 46 0 0) ∧
    decodeTableWord 32 0x22A964C0 = some (.vxor 42 0 44 38 0 0) ∧
    decodeTableWord 32 0x238906C0 = some (.vandn 34 0 32 54 0 0) ∧
    decodeTableWord 32 0x247CA184 = some (.vshl 31 0 20 12 4) ∧
    decodeTableWord 32 0x255136C4 = some (.vshr 20 0 38 54 4) ∧
    decodeTableWord 32 0x266A19E6 = some (.vsra 26 1 3 15 6) ∧
    decodeTableWord 32 0x27016C86 = some (.vcmpInt 45 36 6) ∧
    decodeTableWord 32 0x283D8660 = some (.vaddx 15 0 48 51 0 0) := by decide +kernel
theorem test_decode_vector_logic_1 :
    decodeTableWord 32 0x29A9E580 = some (.vsubx 42 0 60 44 0 0) := by decide +kernel
theorem test_decode_vector_select_0 :
    decodeTableWord 32 0x2A20B284 = some (.vselFlag 8 0 22 20 4) ∧
    decodeTableWord 32 0x2A9D0635 = some (.vselPred 39 0 32 49 5) ∧
    decodeTableWord 32 0x2B1ACEA0 = some (.vaddMasked 6 1 25 53 0 0) ∧
    decodeTableWord 32 0x2C0E649D = some (.vsubMasked 3 1 12 36 7 1) ∧
    decodeTableWord 32 0x2DB1A008 = some (.vmovMasked 44 0 52 2 0) ∧
    decodeTableWord 32 0x2E61DF86 = some (.vaddImm 24 0 ⟨1918, .none⟩ 0 0 6) ∧
    decodeTableWord 32 0x2FBA3B90 = some (.vandImm 46 1 ⟨238, .none⟩ 1 0) ∧
    decodeTableWord 32 0x30D8F280 = some (.vorImm 54 0 ⟨970, .none⟩ 0 0) ∧
    decodeTableWord 32 0x318C4B81 = some (.vshlImm 35 0 302 1) := by decide +kernel
theorem test_decode_vector_select_1 :
    decodeTableWord 32 0x328F3305 = some (.vshrImm 35 1 1228 5) ∧
    decodeTableWord 32 0x33A68486 = some (.vsraImm 41 1 530 6) ∧
    decodeTableWord 32 0x34282816 = some (.vmovi 10 0 ⟨10262, .none⟩) ∧
    decodeTableWord 32 0x35195180 = some (.vperm 6 0 42 12) ∧
    decodeTableWord 32 0x353FC241 = some (.vbcast 15 1 56 18) ∧
    decodeTableWord 32 0x355CF002 = some (.vscanAddI32 23 0 30) ∧
    decodeTableWord 32 0x35A78003 = some (.vredAddI32 41 1 48) ∧
    decodeTableWord 32 0x35C2F804 = some (.vredMaxI32 48 1 31) ∧
    decodeTableWord 32 0x35CA9005 = some (.vredMinI32 50 1 18) := by decide +kernel
theorem test_decode_vector_select_2 :
    decodeTableWord 32 0x361B5000 = some (.vfroms 6 1 21) ∧
    decodeTableWord 32 0x3716A600 = some (.pcmpB 0 45 19 0) ∧
    decodeTableWord 32 0x37885001 = some (.pand 4 2 5) ∧
    decodeTableWord 32 0x37AC7002 = some (.por 5 3 7) ∧
    decodeTableWord 32 0x37705003 = some (.pxor 3 4 5) ∧
    decodeTableWord 32 0x37580004 = some (.pnot 2 6) ∧
    decodeTableWord 32 0x37400125 = some (.pfromcc 2 9) := by decide +kernel
theorem test_decode_float_0 :
    decodeTableWord 32 0x38412332 = some (.vaddFloat 16 0 36 25 4 2) ∧
    decodeTableWord 32 0x39196104 = some (.vsubFloat 6 0 44 8 1 0) ∧
    decodeTableWord 32 0x3A0281A6 = some (.vmulFloat 0 1 16 13 1 2) ∧
    decodeTableWord 32 0x3B41BD80 = some (.vfma 16 0 55 44 0 0) ∧
    decodeTableWord 32 0x3C4C7CE4 = some (.vfms 19 0 15 39 1 0) ∧
    decodeTableWord 32 0x3DC9C442 = some (.vminFloat 50 0 56 34 2) ∧
    decodeTableWord 32 0x3EB50A81 = some (.vmaxFloat 45 0 33 20 1) ∧
    decodeTableWord 32 0x3F01C602 = some (.vcmpFloat 56 48 2) ∧
    decodeTableWord 32 0x4032B010 = some (.vabs 12 1 22 4 0) := by decide +kernel
theorem test_decode_float_1 :
    decodeTableWord 32 0x40823028 = some (.vneg 32 1 6 2 0) ∧
    decodeTableWord 32 0x40A5C042 = some (.vsqrt 41 0 56 0 2) ∧
    decodeTableWord 32 0x40408070 = some (.vrcp 16 0 16 4 0) ∧
    decodeTableWord 32 0x4041C080 = some (.vrsqrt 16 0 56 0 0) ∧
    decodeTableWord 32 0x406818A6 = some (.vexp2 26 0 3 1 2) ∧
    decodeTableWord 32 0x4078E0C5 = some (.vlog2 30 0 28 1 1) ∧
    decodeTableWord 32 0x404FB0E5 = some (.vsin 19 1 54 1 1) ∧
    decodeTableWord 32 0x40CA7102 = some (.vcos 50 1 14 0 2) ∧
    decodeTableWord 32 0x40C0B120 = some (.vtanh 48 0 22 0 0) := by decide +kernel
theorem test_decode_float_2 :
    decodeTableWord 32 0x41C60800 = some (.vclass 49 1 1 0) := by decide +kernel
theorem test_decode_convert_0 :
    decodeTableWord 32 0x421B0520 = some (.vcvt 6 1 32 10 4 0) ∧
    decodeTableWord 32 0x43B92308 = some (.vcvtSat 46 0 36 6 1 0) ∧
    decodeTableWord 32 0x44585240 = some (.vpackb 22 0 10 4 4 0 0) ∧
    decodeTableWord 32 0x45380500 = some (.vunpackb 14 0 0 10 0 0) ∧
    decodeTableWord 32 0x4658E3C4 = some (.vscale 22 0 28 30 4) := by decide +kernel
theorem test_decode_matrix_0 :
    decodeTableWord 32 0x58819922 = some (.mmul 16 6 12 4 4 2) ∧
    decodeTableWord 32 0x5989A013 = some (.mtrans 34 26 2 3) ∧
    decodeTableWord 32 0x5A596000 = some (.mchol 22 22 0 0) ∧
    decodeTableWord 32 0x5B488000 = some (.mlu 18 8 0 0) ∧
    decodeTableWord 32 0x5C68C424 = some (.mtrsl 26 12 16 4 4) ∧
    decodeTableWord 32 0x5D21A092 = some (.mtrsu 8 26 2 2 2) ∧
    decodeTableWord 32 0x5E9083A4 = some (.msolveChol 36 8 14 4 4) ∧
    decodeTableWord 32 0x5FB1C780 = some (.msolveLu 44 28 30 0 0) := by decide +kernel
theorem test_decode_capability_0 :
    decodeTableWord 32 0x60592600 = some (.cbnd 5 1 2 19) ∧
    decodeTableWord 32 0x6068DA01 = some (.cbndX 6 1 1 45) ∧
    decodeTableWord 32 0x6077A002 = some (.coff 7 0 15 16) ∧
    decodeTableWord 32 0x60651403 = some (.cinc 6 0 10 10) ∧
    decodeTableWord 32 0x60E03404 = some (.cperm 14 0 0 26) ∧
    decodeTableWord 32 0x60860005 = some (.cseal 8 0 12 0) ∧
    decodeTableWord 32 0x60850086 = some (.cunseal 8 0 10 4) ∧
    decodeTableWord 32 0x60220407 = some (.cmov 2 0 4 2) ∧
    decodeTableWord 32 0x6049F408 = some (.cuntag 4 1 3 58) := by decide +kernel
theorem test_decode_capability_1 :
    decodeTableWord 32 0x61210000 = some (.cgetBase 8 0 8) ∧
    decodeTableWord 32 0x61826001 = some (.cgetTop 32 1 3) ∧
    decodeTableWord 32 0x613AA002 = some (.cgetPos 14 1 5) ∧
    decodeTableWord 32 0x614D2003 = some (.cgetRoom 19 0 9) ∧
    decodeTableWord 32 0x61004004 = some (.cgetPerm 0 0 2) ∧
    decodeTableWord 32 0x617A6005 = some (.cgetType 30 1 3) ∧
    decodeTableWord 32 0x61488006 = some (.cgetTag 18 0 4) ∧
    decodeTableWord 32 0x61680007 = some (.cgetAddr 26 0 0) ∧
    decodeTableWord 32 0x6100C008 = some (.cgetExp 0 0 6) := by decide +kernel
theorem test_decode_memory_0 :
    decodeTableWord 32 0x62804A20 = some (.ldReg 32 0 0 4 40 2 0) ∧
    decodeTableWord 32 0x63586706 = some (.ldImm 22 0 0 6 ⟨28, .none⟩ 0 6) ∧
    decodeTableWord 32 0x643566F7 = some (.stReg 13 1 6 27 3 7) ∧
    decodeTableWord 32 0x65E86320 = some (.stImm 58 0 6 ⟨12, .none⟩ 2 0) ∧
    decodeTableWord 32 0x6640E380 = some (.ldc 4 0 0 14 14) ∧
    decodeTableWord 32 0x6604C800 = some (.stc 0 0 0 12 32) ∧
    decodeTableWord 32 0x67386E00 = some (.ldfe 14 0 0 6 56 0) ∧
    decodeTableWord 32 0x67031B44 = some (.ldfeClr 0 1 1 1 45 0) ∧
    decodeTableWord 32 0x6718E958 = some (.stfe 6 0 14 37 1) := by decide +kernel
theorem test_decode_memory_1 :
    decodeTableWord 32 0x68347800 = some (.smap 6 17 14) ∧
    decodeTableWord 32 0x68C68001 = some (.sflush 24 26) ∧
    decodeTableWord 32 0x69B91800 = some (.patset 2 14 8 24) ∧
    decodeTableWord 32 0x6AB0A508 = some (.redmAdd 44 0 10 20 2) ∧
    decodeTableWord 32 0x6A301150 = some (.redmMax 12 0 1 5 0) ∧
    decodeTableWord 32 0x6A98BFE0 = some (.redmMin 38 0 11 63 0) := by decide +kernel
theorem test_decode_atomic_0 :
    decodeTableWord 32 0x6C5544C2 = some (.amadd32 21 0 1 4 19 2) ∧
    decodeTableWord 32 0x6C70288E = some (.amand32 28 0 0 2 34 6) ∧
    decodeTableWord 32 0x6C20A494 = some (.amor32 8 0 0 10 18 4) ∧
    decodeTableWord 32 0x6C78601E = some (.amxor32 30 0 0 6 0 6) ∧
    decodeTableWord 32 0x6C488122 = some (.ammaxI32 18 0 0 8 4 2) ∧
    decodeTableWord 32 0x6C102928 = some (.ammaxU32 4 0 0 2 36 0) ∧
    decodeTableWord 32 0x6C586DB2 = some (.amminI32 22 0 0 6 54 2) ∧
    decodeTableWord 32 0x6CB6763E = some (.amminU32 45 1 0 7 24 6) ∧
    decodeTableWord 32 0x6D60C382 = some (.amadd64 24 0 0 12 14 2) := by decide +kernel
theorem test_decode_atomic_1 :
    decodeTableWord 32 0x6D580808 = some (.amand64 22 0 0 0 32 0) ∧
    decodeTableWord 32 0x6D780694 = some (.amor64 30 0 0 0 26 4) ∧
    decodeTableWord 32 0x6D20031A = some (.amxor64 8 0 0 0 12 2) ∧
    decodeTableWord 32 0x6D2844A4 = some (.ammaxI64 10 0 0 4 18 4) ∧
    decodeTableWord 32 0x6D10C0A8 = some (.ammaxU64 4 0 0 12 2 0) ∧
    decodeTableWord 32 0x6D48A5B0 = some (.amminI64 18 0 0 10 22 0) ∧
    decodeTableWord 32 0x6D30463C = some (.amminU64 12 0 0 4 24 4) ∧
    decodeTableWord 32 0x6E086441 = some (.amswap32 2 0 0 6 17 1) ∧
    decodeTableWord 32 0x6E404A0C = some (.amcas32 16 0 0 4 40 4) := by decide +kernel
theorem test_decode_atomic_2 :
    decodeTableWord 32 0x6E80A812 = some (.amswap64 32 0 0 10 32 2) ∧
    decodeTableWord 32 0x6E700018 = some (.amcas64 28 0 0 0 0 0) ∧
    decodeTableWord 32 0x6E50ED24 = some (.amaddF32 20 0 0 14 52 4) ∧
    decodeTableWord 32 0x6F540000 = some (.txbeg 21) ∧
    decodeTableWord 32 0x70000000 = some (.txend) ∧
    decodeTableWord 32 0x71910000 = some (.txabort 145) := by decide +kernel
theorem test_decode_tile_0 :
    decodeTableWord 32 0x726F8000 = some (.tacq 13 60) ∧
    decodeTableWord 32 0x73D9E000 = some (.trel 27 15) ∧
    decodeTableWord 32 0x747D0000 = some (.tclaim 15 20) ∧
    decodeTableWord 32 0x75ECA000 = some (.tmma 14 12 20 0 0 0 0) ∧
    decodeTableWord 32 0x76B18000 = some (.tdrain 44 0 24) ∧
    decodeTableWord 32 0x77CD8000 = some (.tzero 25 44) := by decide +kernel
theorem test_decode_system_0 :
    decodeTableWord 32 0x78104C00 = some (.ecopy 1 0 4 1 1) ∧
    decodeTableWord 32 0x78D3EC01 = some (.ered 13 7 6 1 1) ∧
    decodeTableWord 32 0x780BCC02 = some (.ecoll 0 23 4 1 1) ∧
    decodeTableWord 32 0x78ED6403 = some (.esealOpen 14 26 6 0 1) ∧
    decodeTableWord 32 0x78795404 = some (.esealCommit 7 18 5 0 1) ∧
    decodeTableWord 32 0x79A38000 = some (.post 10 7) ∧
    decodeTableWord 32 0x79000001 = some (.done) ∧
    decodeTableWord 32 0x79C88002 = some (.cancel 12 17) ∧
    decodeTableWord 32 0x7AD00000 = some (.ctread 26) := by decide +kernel
theorem test_decode_system_1 :
    decodeTableWord 32 0x7AD80001 = some (.ctarm 27) ∧
    decodeTableWord 32 0x7A200002 = some (.ctwait 4) ∧
    decodeTableWord 32 0x7AF60002 = some (.ctwaitPeer 30 8) ∧
    decodeTableWord 32 0x7CB77A00 = some (.trap 46970) ∧
    decodeTableWord 32 0x7C000001 = some (.rett) ∧
    decodeTableWord 32 0x7C560002 = some (.fence 2 11) ∧
    decodeTableWord 32 0x7CF80003 = some (.setpl 31) ∧
    decodeTableWord 32 0x7D29A000 = some (.modeRead 5 13) ∧
    decodeTableWord 32 0x7D809000 = some (.modeWrite 16 4) := by decide +kernel
/-- Extension words (R26, R71): `smovi s7` with one payload and with two; the first word is the host. -/
theorem test_decode_extension :
    decodeTableWord 64 0x7E12345606380000 = some (.smovi 7 ⟨0, .one 0x123456⟩) ∧
    decodeTableWord 96 0x7E0000017E12345606380000 = some (.smovi 7 ⟨0, .two 0x123456 0x000001⟩) := by decide +kernel

/-! ### Single steps -/

/-- The machine booted for a block of 16 lanes, its group's registers set. -/
def demoWith (f : Group → Group) : State := modGroup (bootState State.reset) 0 0 f
/-- Registers used by the tests: s1 = 2^64 - 1, s2 = 3, s3 = 2^63; w2 and w4 per lane; k3 a capability of 64 bytes at 0x1000. -/
def demoRegs : Regs :=
  let w := ((List.range 16).flatMap fun l => [(64 * 2 + l, BitVec.ofNat 32 (0x7FFFFFF0 + l)), (64 * 4 + l, BitVec.ofNat 32 (20 - l))])
  let r : Regs := { s := [(1, 0xFFFFFFFFFFFFFFFF), (2, 3), (3, 0x8000000000000000), (4, 64), (5, 16)] }
  let r2 := w.foldl (fun (q : Regs) (x : Nat × Word) => { q with w := mput q.w x.1 x.2 0 }) r
  r2.putK 3 (mkCap 0x19F 0x1000 64)
/-- The state of the tests. -/
def demo : State := demoWith fun g => { g with r := demoRegs }
/-- The state after a word, where it answers one. -/
def after (i : Instr) (s : State) : State := match exec i s with
  | .next t => t
  | .fault _ => State.reset
  | .refused _ => State.reset
/-- The group of the tests in a state. -/
def grp (s : State) : Group := (groupOf s 0 0).getD {}
/-- A scalar register after a word. -/
def sAfter (i : Instr) (d : BitVec 5) : DWord := (grp (after i demo)).r.sc d
/-- A window register of a lane after a word. -/
def wAfter (i : Instr) (d l : Nat) : Word := (grp (after i demo)).r.win 48 d l
/-- Window registers of lane 0 set, then a word, then one read. -/
def laneAfter (ws : List (Nat × Word)) (i : Instr) (d : Nat) : Word :=
  (grp (after i (demoWith fun g => { g with r := ws.foldl (fun (q : Regs) x => { q with w := mput q.w (64 * x.1) x.2 0 }) g.r }))).r.win 48 d 0

/-- R69: sums wrap, products of the high half are signed or unsigned, a shift by 64 leaves 0. -/
theorem test_scalar : sAfter (.sadd 6 1 2) 6 = 2 ∧ sAfter (.smulhI64 6 1 2) 6 = 0xFFFFFFFFFFFFFFFF ∧ sAfter (.smulhU64 6 1 2) 6 = 2 ∧
    sAfter (.sshl 6 2 4) 6 = 0 ∧ sAfter (.ssra 6 3 4) 6 = 0xFFFFFFFFFFFFFFFF ∧ sAfter (.sminI64 6 1 2) 6 = 0xFFFFFFFFFFFFFFFF ∧
    sAfter (.sminU64 6 1 2) 6 = 3 ∧ sAfter (.sadd 0 1 2) 0 = 0 := by decide +kernel
/-- R70, R71: signed and unsigned comparison; a sign-extended constant. -/
theorem test_scalar_compare : sAfter (.scmpLtI64 6 1 2) 6 = 1 ∧ sAfter (.scmpLtU64 6 1 2) 6 = 0 ∧
    sAfter (.smovi 6 ⟨0, .one 0x800000⟩) 6 = 0xFFFFFFFFFF800000 := by decide +kernel
/-- R97: `.i32` wraps, `.sat` clamps; packed bytes are separate. -/
theorem test_vector_add : wAfter (.vaddInt 8 0 2 4 0 0 0) 8 0 = 0x80000004 ∧ wAfter (.vaddInt 8 0 2 4 0 1 0) 8 0 = 0x7FFFFFFF ∧
    laneAfter [(6, 0xFF01807F), (7, 0x01010101)] (.vaddInt 8 0 6 7 0 0 4) 8 = 0x00028180 ∧
    laneAfter [(6, 0xFF01807F), (7, 0x01010101)] (.vaddInt 8 0 6 7 0 1 4) 8 = 0x0002817F := by decide +kernel
/-- R96: 3 - 5 borrows (C 0), is negative, does not overflow; 5 - 5 sets Z and C. -/
theorem test_vector_flags :
    let g := fun a b : Word => (grp (after (.vsubInt 8 0 6 7 1 0 0) (demoWith fun g =>
      { g with r := { g.r with w := (mput (mput [] (64 * 6) a 0) (64 * 7) b 0) } }))).r.cc 0
    g 3 5 = ⟨false, false, true, false⟩ ∧ g 5 5 = ⟨true, true, false, false⟩ ∧ g 0x80000000 1 = ⟨true, false, false, true⟩ := by decide +kernel
/-- R100: a shift by the width or more; an arithmetic one fills with the sign. -/
theorem test_vector_shift : laneAfter [(6, 0x80000001), (7, 32)] (.vshl 8 0 6 7 0) 8 = 0 ∧ laneAfter [(6, 0x80000001), (7, 33)] (.vsra 8 0 6 7 0) 8 = 0xFFFFFFFF ∧
    laneAfter [(6, 0x80000001), (7, 31)] (.vshr 8 0 6 7 1) 8 = 1 := by decide +kernel
/-- R110: the inclusive prefix sum over active lanes, and the sum of all, of 20 - l for l from 0 to 15. -/
theorem test_cross_lane : wAfter (.vscanAddI32 8 0 4) 8 2 = 57 ∧ wAfter (.vredAddI32 8 0 4) 8 15 = 200 ∧ wAfter (.vredMinI32 8 0 4) 8 0 = 5 := by decide +kernel
/-- R48, R111: 1.0 + 1.5 is 2.5; 1.5 x -2.0 is -3.0; the largest finite number doubled is infinity. -/
theorem test_float : laneAfter [(6, 0x3F800000), (7, 0x3FC00000)] (.vaddFloat 8 0 6 7 1 0) 8 = 0x40200000 ∧
    laneAfter [(6, 0x3FC00000), (7, 0xC0000000)] (.vmulFloat 8 0 6 7 1 0) 8 = 0xC0400000 ∧
    laneAfter [(6, 0x7F7FFFFF), (7, 0x7F7FFFFF)] (.vaddFloat 8 0 6 7 1 0) 8 = 0x7F800000 ∧
    laneAfter [(6, 0x3C00), (7, 0x3C00)] (.vaddFloat 8 0 6 7 1 1) 8 = 0x4000 := by decide +kernel
/-- R115: the classes of -0 (bit 3), 1.0 (bit 6) and the canonical NaN (bit 9). -/
theorem test_float_class : laneAfter [(6, 0x80000000)] (.vclass 8 0 6 0) 8 = 8 ∧ laneAfter [(6, 0x3F800000)] (.vclass 8 0 6 0) 8 = 64 ∧
    laneAfter [(6, 0x7FC00000)] (.vclass 8 0 6 0) 8 = 512 := by decide +kernel
/-- R116: -1.5 to i32 rounds to nearest even; 300.0 to u8 saturates, and without `.sat` wraps. -/
theorem test_convert : laneAfter [(6, 0xBFC00000)] (.vcvt 8 0 6 7 0 1) 8 = 0xFFFFFFFE ∧ laneAfter [(6, 0x43960000)] (.vcvtSat 8 0 6 4 0 1) 8 = 255 ∧
    laneAfter [(6, 0xFFFFFFFF)] (.vcvt 8 0 6 0 7 0) 8 = 0xBF800000 := by decide +kernel
/-- R145: a 1 x 2 matrix transposed moves its second element below its first. -/
theorem test_transpose : laneAfter [(6, 1), (7, 2), (8, 3), (9, 4)] (.mtrans 12 6 1 1) 13 = 3 := by decide +kernel
/-- R123, R128: a capability bounded to 8 bytes, its cursor moved; and one byte past its reach the tag is lost. -/
theorem test_capability : (grp (after (.cbnd 4 0 3 2) demo)).r.kreg 4 = { (mkCap 0x19F 0x1000 3) with addr := 0x1000 } ∧
    ((grp (after (.cinc 4 0 3 4) demo)).r.kreg 4).tag = true ∧ ((grp (after (.cinc 4 0 3 1) demo)).r.kreg 4).tag = false ∧
    sAfter (.cgetTop 6 0 3) 6 = 0x1040 := by decide +kernel
/-- R72 to R75: a branch not taken falls through; a split divides on lanes where the source is not 0. -/
theorem test_control : (after (.brcEq0 1 5) demo).jumped = false ∧ (after (.brcNe0 1 5) demo).jumped = true ∧
    ((grp (after (.split 55 4) demo)).splits.map fun p => (p.no, p.pc, p.mem)) = [(0, 0, 1), (1, 4, 0xFFFE)] := by decide +kernel
/-- R77, R79: a return with nothing called raises cause 0x06. -/
theorem test_return_underflow : (after .ret demo).raised.map (·.cause) = some 6 := by decide +kernel
/-- R43: `slane` of a lane outside the group of 16 is illegal. -/
theorem test_lane_outside : (after (.slane 6 4 16) demo).raised.map (·.cause) = some 1 ∧ sAfter (.slane 6 4 15) 6 = 5 := by decide +kernel
/-- R133: a store of w4 to the 64 bytes of k3 at offset lid x 0 reaches memory when it takes its place; a load waits in its counter. -/
theorem test_memory : ctrCount (grp (after (.stReg 4 0 3 54 0 15) demo)) .st = 1 ∧ ctrCount (grp (after (.ldReg 8 0 0 3 54 0 15) demo)) .ld = 1 := by decide +kernel
/-- R131: a misaligned offset (lid, word size) fails in lanes 1, 2 and 3 of every four. -/
theorem test_misaligned : ctrCount (grp (after (.stReg 4 0 3 55 0 15) demo)) .st = 1 ∧ ((grp (after (.stReg 4 0 3 55 0 15) demo)).pend.map (·.cause)) = some 0x0A := by
  decide +kernel
/-- R172: the lowest run of free banks is acquired; none leaves all ones. -/
theorem test_tacq : sAfter (.tacq 6 63) 6 = 0xFFFFFFFFFFFFFFFF := by decide +kernel
/-- R195: context time. -/
theorem test_ctread : sAfter (.ctread 6) 6 = 0 := by decide +kernel
/-- R201, R205: `trap 0x1234` with a handler at packet 16 records its cause and code, and resumes at the next packet. -/
theorem test_trap :
    let g := grp (after (.trap 0x1234) (modBlock (demoWith fun g => { g with tr := { g.tr with tvec := 0x8000000000000010 } }) 0 fun b => { b with v := { b.v with p := 128 } }))
    (g.tr.trcause, g.tr.trpc, g.tr.trmask, g.splits.map (·.pc)) = (0x1234000000000013, 1, 0xFFFF, [16]) := by decide +kernel
/-- R23: the first step of a placed word runs it and stands at the next packet. -/
theorem test_step_runs : (match step (State.reset.withFetchWord 32 0x060800C8) with
    | .next t => ((grp t).r.sc 1, (grp t).splits.map (·.pc))
    | _ => (0, [])) = (200, [1]) := by decide +kernel

/-! ### For every statement, a state and operands that meet its hypotheses -/

/-- An outcome is `ok` with a value. -/
def okIs {ε α : Type} [DecidableEq α] (x : Except ε α) (a : α) : Bool := match x with
  | .ok b => b == a
  | .error _ => false
/-- The words begin on a state. -/
def begins (s : State) (l : List Instr) : Bool := l.all fun i => (wordOp i s).isSome
/-- A word begins on a state with a condition met. -/
def beginsWith (s : State) (i : Instr) (p : Op → Bool) : Bool := match wordOp i s with
  | some o => p o
  | none => false
/-- The operands with which a word begins, for the theorems about operands. -/
def demoOp : Op := { s0 := demo, s := demo, k := 0, gix := 0, no := 0, b := (blockOf demo 0).getD {}, g := grp demo,
                     sp := ((grp demo).split 0).getD {}, r := (grp demo).r, act := allLanes 16, ext := [] }

theorem witness_DecodeOfEncode : isEvent (.sadd 31 30 29) = false ∧ Instr.wf (.sadd 31 30 29) = true ∧
    isEvent (.vmovi 46 1 ⟨0, .two 0xFFFFFF 0xFFFFFF⟩) = false ∧ Instr.wf (.vmovi 46 1 ⟨0, .two 0xFFFFFF 0xFFFFFF⟩) = true := by decide +kernel
theorem witness_EncodingUnambiguousAndReserved :
    (isEvent (.sadd 1 2 3) = false ∧ Instr.wf (.sadd 1 2 3) = true ∧ encode 1 (.sadd 1 2 3) = encode 1 (.sadd 1 2 3)) ∧
    bits (0x00FFFFFF : Word) 24 7 = 0 ∧ bits (0xFF000000 : Word) 24 7 = 0x7F ∧ bits (0x14000000 : Word) 24 7 = 0x14 ∧ bits (0x97000000 : Word) 24 7 = 0x17 ∧
    bits (0x47000000 : Word) 24 7 = 0x47 ∧ bits (0x57000000 : Word) 24 7 = 0x57 ∧ bits (0x6B000000 : Word) 24 7 = 0x6B ∧ bits (0x7B000000 : Word) 24 7 = 0x7B := by
  decide +kernel
/-- `sadd` chained with `vaddInt`, then `br`; and one `nop` alone. -/
theorem witness_PacketShape :
    okIs (decodePacket [0x82000000, 0x18100050, 0x07000001]) [⟨0, true, .sadd 0 0 0⟩, ⟨1, false, .vaddInt 4 0 0 2 1 0 0⟩, ⟨2, false, .br 1⟩] = true ∧
    (decodePacket [0x01000000, 0x01000000, 0x01000000]).isOk = true ∧ (decodePacket [0x06080000, 0x7E000001, 0x7E000002]).isOk = true := by decide +kernel
/-- A booted state with a word at packet 0. -/
def placed : State := State.reset.withFetchWord 32 0x060800C8
/-- The block of a state. -/
def blk0 (s : State) : Block := (blockOf s 0).getD {}
theorem witness_FetchDecodesBytes :
    let b := blk0 placed
    let q : Spot := match lookVa placed (whoOf placed b) 0 12 needX true with | .ok q => q | _ => { pa := 1, va := 1, cache := false }
    let bs := bytesLE 12 (lineNat (viewLine placed.mem (whoOf placed b).tag q.pa) (q.pa % 64) 12)
    capCheck b.image pEXEC (BitVec.ofNat 64 (b.code.toNat + 12 * (0 : BitVec 32).toNat)) 12 4 0 = .none ∧ (b.code.toNat + 12 * (0 : BitVec 32).toNat) % 64 + 12 ≤ 64 ∧
    lookVa placed (whoOf placed b) (b.code.toNat + 12 * (0 : BitVec 32).toNat) 12 needX true = .ok q ∧ illegalHere b.width false (wordsOf bs) 0 = none ∧
    okIs (decodePacket (wordsOf bs)) [⟨0, false, .smovi 1 ⟨200, .none⟩⟩, ⟨1, false, .nop⟩, ⟨2, false, .nop⟩] = true := by decide +kernel
/-- Each ending of a step: in order, after a jump, in a trap, in a stall. -/
def stepCase (s0 : State) (w : Nat) (i : Instr) (p : State → Bool) : Bool :=
  let s := s0.withFetchWord 32 w
  let c : Cursor := { blk := 0, gix := 0, no := 0 }
  match issuerOf s with
  | none => false
  | some (c', b, g, p') => match fetchPacket s b g.tmode.isSome 0 p'.pc with
    | .ok ss => c' == c && slotsLeft p' ss == [⟨0, false, i⟩] && s.cur == some c && s.inbox == [] && splitReady s b g p' && p'.wait == .none && p'.word == 0 &&
        runBreak p' ss == none && !regains p' ss && g.missing == 0 && !unconfirmed g && !b.swReq &&
        match exec i (enterWord (startIssue (beginPacket s c p' ss) c) c p'.pc ⟨0, false, i⟩ []) with
        | .next t => p t
        | .fault _ => false
        | .refused _ => false
    | .trap _ => false
    | .stall _ => false
theorem witness_StepRunsDecodedWord :
    stepCase State.reset 0x060800C8 (.smovi 1 ⟨200, .none⟩) (fun t => t.raised.isNone && !t.stalled && !t.jumped) = true ∧
    stepCase State.reset 0x07000005 (.br 5) (fun t => t.raised.isNone && !t.stalled && t.jumped) = true ∧
    stepCase State.reset 0x0A000000 .ret (fun t => t.raised.isSome) = true ∧
    stepCase (demoWith fun g => { g with qb := [(0, ⟨false, 0⟩)] }) 0x18118000 (.vaddInt 4 0 48 0 0 0 0) (fun t => t.raised.isNone && t.stalled) = true := by decide +kernel
theorem witness_StepOrder :
    let s := State.reset
    (s.inbox = [] ∧ s.cur = none ∧ stepping s = none ∧ firstEffect s (dueEvents s) = none) ∧
    (let u := { bootState s with cur := none }; u.inbox = [] ∧ stepping u = none ∧ (firstEffect u (dueEvents u)).isSome = true) := by decide +kernel
theorem witness_WordBeginsOrTraps :
    (issuerOf demo).isSome = true ∧ Instr.wf (.sadd 1 2 3) = true ∧ liveTx (grp demo) 0 = [] ∧
    (∀ x ∈ srcCodes (.vaddInt 8 0 2 55 0 0 0) ++ dstCodes (.vaddInt 8 0 2 55 0 0 0), isQueue x = false ∧ isPat x = false) ∧
    isEvent (.split 56 0) = false ∧ Instr.wf (.split 56 0) = false ∧
    (Instr.wf (.vaddInt 48 0 2 4 0 0 0) = true ∧ txBars (grp demo) 0 (.vaddInt 48 0 2 4 0 0 0) = false ∧ badQueue (grp demo).qb (.vaddInt 48 0 2 4 0 0 0) = true) ∧
    (let s := demoWith fun g => { g with tx := [(0, ⟨54, 0, 0, 0, 0, 1, true, [], []⟩)] }; txBars (grp s) 0 (.bar 0) = true ∧ Instr.wf (.bar 0) = true) ∧
    issuerOf State.reset = none := by decide +kernel
theorem witness_RegistersLatchesAndQueues :
    (63 < 64 ∧ 48 ≤ 48 ∧ 47 < 48) ∧ demoRegs.bV.length ≤ 8 ∧ Pipe.V ≠ Pipe.S ∧
    boundTo [(1, ⟨false, 0⟩)] 49 false = some 0 := by decide +kernel
theorem witness_ResultFrame : blockOf demoOp.s demoOp.k = some demoOp.b ∧ demoOp.b.groups[demoOp.gix]? = some demoOp.g ∧ (54 : BitVec 6).toNat < 56 := by decide +kernel
theorem witness_ScalarArithmetic : begins demo [.sadd 1 2 3, .ssub 1 2 3, .sand 1 2 3, .sor 1 2 3, .sxor 1 2 3, .sshl 1 2 3, .sshr 1 2 3, .ssra 1 2 3, .smul 1 2 3,
    .smulhI64 1 2 3, .smulhU64 1 2 3, .sminI64 1 2 3, .sminU64 1 2 3, .smaxI64 1 2 3, .smaxU64 0 31 31, .saddImm 1 2 ⟨511, .none⟩, .ssubImm 1 2 ⟨0, .one 5⟩,
    .sandImm 1 2 ⟨0, .two 1 2⟩, .sorImm 1 2 ⟨1, .none⟩, .sxorImm 1 2 ⟨1, .none⟩, .sshlImm 1 2 ⟨64, .none⟩, .sshrImm 1 2 ⟨255, .none⟩, .ssraImm 1 2 ⟨1, .none⟩,
    .smulImm 1 2 ⟨1, .none⟩, .smulhI64Imm 1 2 ⟨1, .none⟩, .smulhU64Imm 1 2 ⟨1, .none⟩, .sminI64Imm 1 2 ⟨1, .none⟩, .sminU64Imm 1 2 ⟨1, .none⟩,
    .smaxI64Imm 1 2 ⟨1, .none⟩, .smaxU64Imm 1 2 ⟨1, .none⟩] = true := by decide +kernel
theorem witness_ScalarCompareAndStatus : begins demo [.scmpEq 1 2 3, .scmpNe 1 2 3, .scmpLtI64 1 2 3, .scmpGeI64 1 2 3, .scmpLtU64 1 2 3, .scmpGeU64 1 2 3,
    .scmpEqImm 1 2 ⟨3, .none⟩, .scmpNeImm 1 2 ⟨3, .none⟩, .scmpLtI64Imm 1 2 ⟨3, .none⟩, .scmpGeI64Imm 1 2 ⟨3, .none⟩, .scmpLtU64Imm 1 2 ⟨3, .none⟩,
    .scmpGeU64Imm 1 2 ⟨3, .none⟩, .smovi 1 ⟨5, .none⟩, .nop, .smaskRd 1, .smaskWr 1, .sflags 1 5, .slane 1 2 15, .sstat 1 12 0, .sstat 1 0 1, .sstat 1 1 1, .sstat 1 2 1,
    .sstat 1 8 1] = true ∧ beginsWith demo (.smaskWr 1) (fun o => o.r.sc 1 &&& o.sp.mem != 0) = true ∧
    beginsWith demo (.smaskWr 3) (fun o => o.r.sc 3 &&& o.sp.mem == 0) = true ∧ beginsWith demo (.slane 1 2 16) (fun o => o.W ≤ 16) = true ∧
    (demoOp.g.splits.length ≤ 4 ∧ demoOp.no < 4 ∧ ctrCount demoOp.g .mat ≤ 63 ∧ demoOp.g.stack.length ≤ 64 ∧ demoOp.g.lo < 2 ^ 20 ∧ demoOp.r.base < 2 ^ 20 ∧
      demoOp.b.groups.length ≤ 16 ∧ demoOp.gix < 16 ∧ demoOp.b.vix < 4 ∧ demoOp.b.width ≤ 64 ∧ demoOp.b.core < 224 ∧ demoOp.g.cycQ < 2 ^ 64) ∧
    demoOp.g.old = none ∧ [1, 2, 0, 63].getD 3 0 ≤ 63 := by decide +kernel
theorem witness_BranchesAndJumps : begins demo [.br 0x800000, .brcEq0 1 5, .brcNe0 1 5, .brcLt0 1 5, .brcGe0 1 5, .brcZ 5, .brcNz 5, .brcC 5, .brcNc 0x8000] = true ∧
    blockOf demoOp.s demoOp.k = some demoOp.b ∧ demoOp.b.groups[demoOp.gix]? = some demoOp.g ∧ demoOp.g.split demoOp.no = some demoOp.sp := by decide +kernel
/-- A partition with room for another window. -/
def roomy (f : Group → Group) : State := modBlock (demoWith f) 0 fun b => { b with v := { b.v with p := 128 } }
/-- Two splits at packets 0 and 1. -/
def twoSplits (w : Wait) (g : Group) : Group :=
  { g with splits := [{ no := 0, mem := 0xFF, act := 0xFF, wait := w }, { no := 1, pc := 1, mem := 0xFF00, act := 0xFF00, wait := w }] }
/-- The way that a slide ends. -/
def slid : Slid → Nat
  | .ok _ => 0
  | .capFault => 1
  | .stop _ _ _ => 2
theorem witness_CallsAndReturns :
    beginsWith (roomy id) (.call 6 5) (fun o => o.g.splits.length ≤ 1 && o.g.stack.length < 64 && !spillWaits o.g o.b.v.p (o.g.r.base + 48) && slid (slideUp o.s o.k o.gix (o.g.r.base + 48)) == 0) = true ∧
    beginsWith (roomy (twoSplits .none)) (.call 1 5) (fun o => 1 < o.g.splits.length) = true ∧
    beginsWith (roomy fun g => { g with stack := List.replicate 64 (0, 8) }) (.call 1 5) (fun o => o.g.splits.length ≤ 1 && 64 ≤ o.g.stack.length) = true ∧
    beginsWith demo (.call 1 5) (fun o => o.g.splits.length ≤ 1 && o.g.stack.length < 64 && !spillWaits o.g o.b.v.p (o.g.r.base + 8) &&
      slid (slideUp o.s o.k o.gix (o.g.r.base + 8)) == 1) = true ∧
    beginsWith (demoWith fun g => { g with out := [{ id := 0, ctr := .st, rel := true }] }) (.call 1 5)
      (fun o => o.g.splits.length ≤ 1 && o.g.stack.length < 64 && spillWaits o.g o.b.v.p (o.g.r.base + 8)) = true ∧
    beginsWith (roomy fun g => { g with stack := [(7, 8)], lo := 1, hi := 6, r := { g.r with base := 8 }, out := [{ id := 0, ctr := .ld, todo := [⟨0, false, 0, 4, 15, .ld, none, false, 0, none⟩] }] }) .ret
      (fun o => o.g.splits.length ≤ 1 && o.g.stack == [(7, 8)] && fillWaits (o.g.windowTo (o.g.r.base - 8))) = true ∧
    beginsWith (demoWith fun g => { g with spill := mkCap 0x19F 0x1000000 4096 }) (.call 1 5) (fun o => o.g.splits.length ≤ 1 && o.g.stack.length < 64 && !spillWaits o.g o.b.v.p (o.g.r.base + 8) &&
      slid (slideUp o.s o.k o.gix (o.g.r.base + 8)) == 2) = true ∧
    beginsWith (roomy fun g => { g with stack := [(7, 8)], hi := 6, r := { g.r with base := 8 } }) .ret (fun o => o.g.splits.length ≤ 1 && o.g.stack == [(7, 8)] &&
      !fillWaits (o.g.windowTo (o.g.r.base - 8)) && slid (slideDown o.s o.k o.gix (o.g.r.base - 8)) == 0) = true ∧
    beginsWith (roomy (twoSplits .none)) .ret (fun o => 1 < o.g.splits.length) = true ∧ beginsWith demo .ret (fun o => o.g.splits.length ≤ 1 && o.g.stack == []) = true ∧
    beginsWith (roomy fun g => { g with stack := [(7, 8)], lo := 1, hi := 6, r := { g.r with base := 8 } }) .ret (fun o => o.g.splits.length ≤ 1 && !fillWaits (o.g.windowTo (o.g.r.base - 8)) &&
      slid (slideDown o.s o.k o.gix (o.g.r.base - 8)) == 1) = true ∧
    beginsWith (roomy fun g => { g with spill := mkCap 0x19F 0x1000000 4096, stack := [(7, 8)], lo := 1, hi := 6, r := { g.r with base := 8 } }) .ret
      (fun o => o.g.splits.length ≤ 1 && !fillWaits (o.g.windowTo (o.g.r.base - 8)) && slid (slideDown o.s o.k o.gix (o.g.r.base - 8)) == 2) = true ∧
    (8 ≤ 128 ∧ 64 ≤ 64 ∧ 7 < 8 ∧ 63 < 64) ∧
    (let g := grp (roomy id); g.out = [] ∧ (8 + 47) / 8 ≤ 6 ∧ 6 + 1 ≤ g.lo + 128 / 8) := by decide +kernel
theorem witness_SplitsAndMerges :
    beginsWith demo (.split 54 5) (fun o => laneMask o.act (fun l => o.src .S 54 l != 0) == 0) = true ∧
    beginsWith demo (.split 4 5) (fun o => laneMask o.act (fun l => o.src .S 4 l != 0) == 0xFFFF) = true ∧
    beginsWith demo (.split 55 5) (fun o => laneMask o.act (fun l => o.src .S 55 l != 0) == 0xFFFE && freeNumbers o.g == [1, 2, 3] && txOfSplit o.g o.no == []) = true ∧
    beginsWith (demoWith fun g => { g with tx := [(1, ⟨54, 0, 0, 0, 0, 1, false, [], []⟩)] }) (.split 55 5)
      (fun o => freeNumbers o.g == [2, 3] && txOfSplit o.g o.no == [1] && (laneMask o.act fun l => o.src .S 55 l != 0).getLsbD 1) = true ∧
    beginsWith (demoWith fun g => { g with splits := g.splits ++ [{ no := 1 }, { no := 2 }, { no := 3 }] }) (.split 55 5)
      (fun o => laneMask o.act (fun l => o.src .S 55 l != 0) == 0xFFFE && freeNumbers o.g == []) = true ∧
    (let g := twoSplits .merge {}; g.splits ≠ [] ∧ ∀ p ∈ g.splits, p.wait = .merge) := by decide +kernel
theorem witness_WaitsAndBarriers :
    begins (modBlock demo 0 fun b => { b with v := { b.v with q := 2 } }) [.merge, .waitc 3 63, .bar 15, .qbindPush 3 1, .qbindPop 0 1, .qbindUnbind 3] = true ∧
    beginsWith (demoWith (twoSplits .none)) .merge (fun o => 1 < o.g.splits.length) = true ∧
    beginsWith (demoWith fun g => { g with out := [{ id := 0, ctr := .ld }] }) (.waitc 0 0) (fun o => 0 < ctrCount o.g .ld) = true ∧
    beginsWith demo (.qbindPush 0 0) (fun o => o.b.v.q ≤ 0) = true ∧
    (let b := blk0 (demoWith fun g => { g with splits := g.splits.map fun p => { p with wait := .bar 15 } })
     (∀ g ∈ b.groups, g.out = [] ∧ g.tmode = none ∧ (g.splits = [] ∨ ∀ p ∈ g.splits, p.wait = .bar (.ofNat 4 15))) ∧ ∃ g ∈ b.groups, g.splits ≠ []) := by decide +kernel
theorem witness_VectorIntegers : begins demo [.vaddInt 4 0 0 2 1 1 7, .vsubInt 4 1 0 2 1 1 3, .vmulInt 4 0 0 2 1 4, .vmulh 4 0 0 2 3, .vmad 4 0 0 2 1 5, .vminInt 4 0 0 2 6,
    .vmaxInt 4 0 0 2 0, .vabsd 4 0 0 2 1, .vaddImm 4 0 ⟨2047, .none⟩ 1 1 0, .vandImm 4 0 ⟨0, .one 9⟩ 1 1, .vorImm 4 0 ⟨0, .two 9 255⟩ 0 0, .vshlImm 4 0 255 2, .vshrImm 4 0 1 0,
    .vsraImm 4 0 1 4, .vmovi 4 0 ⟨0, .two 1 2⟩, .vmovi 5 0 ⟨1, .none⟩, .vfroms 4 0 31] = true := by decide +kernel
theorem witness_VectorChainsLogicShifts : begins demo [.vaddx 4 0 0 2 1 3, .vsubx 4 0 0 2 1 0, .vand 4 0 0 2 1 1, .vor 4 0 0 2 0 0, .vxor 4 0 0 2 1 0, .vandn 4 0 0 2 1 0,
    .vshl 4 0 0 2 7, .vshr 4 0 0 2 2, .vsra 4 0 0 2 4] = true := by decide +kernel
theorem witness_VectorSelectsAndLanes : begins demo [.vselFlag 4 0 0 2 9, .vselPred 4 0 0 2 7, .vaddMasked 4 0 0 2 7 2, .vsubMasked 4 0 0 2 1 1, .vmovMasked 4 0 0 1 0, .vcmpInt 0 2 7,
    .vperm 4 0 0 2, .vbcast 4 0 0 2, .vscanAddI32 4 0 0, .vredAddI32 4 0 0, .vredMaxI32 4 0 0, .vredMinI32 4 0 0, .pcmpB 7 0 2 5, .pand 0 1 2, .por 0 1 2, .pxor 0 1 2, .pnot 0 1,
    .pfromcc 0 9] = true ∧ beginsWith demo (.vredMaxI32 4 0 0) (fun o => o.lanes != []) = true ∧ (2 : BitVec 2).toNat ≤ 2 := by decide +kernel
theorem witness_FloatArithmeticAndConversions : begins demo [.vaddFloat 4 0 0 2 4 2, .vsubFloat 4 0 0 2 0 1, .vmulFloat 4 0 0 2 1 0, .vfma 4 0 0 2 2 0, .vfms 4 0 0 2 3 0,
    .vminFloat 4 0 0 2 1, .vmaxFloat 4 0 0 2 2, .vcmpFloat 0 2 2, .vcvt 4 0 0 9 0 4, .vcvtSat 4 0 0 1 0 5, .vpackb 4 0 0 8 5 1 7, .vunpackb 4 0 0 5 0 7, .vscale 4 0 0 2 5] = true := by
  decide +kernel
/-- Which kind of value: a number, an infinity, NaN. -/
def valKind : FVal → Nat
  | .fin _ _ _ => 0
  | .inf _ => 1
  | .nan _ => 2
/-- Types and operands of conversions; values and scale words of elements: each format, NaN, infinity, a value that fits the finer scale and one
that does not, zero; a code of each kind, at the ends of its range. -/
theorem witness_FloatArithmeticAndConversions_values :
    (3 ≤ (10 : BitVec 4).toNat ∧ (10 : BitVec 4).toNat ≤ 10 ∧ 3 ≤ (3 : BitVec 4).toNat ∧ (2 : BitVec 4).toNat < 3 ∧ (1 : BitVec 4) ≠ 2 ∧
      valKind (fdecSub f32 false 0x3FC00000) = 0 ∧ fdecSub f16 false 0xFC00 = .inf true ∧ valKind (fdecSub bf16 true 0x7FC1) = 2) ∧
    (0xFF % 256 = 255 ∧ 0x8070 % 256 ≠ 255 ∧ 0x8070 / 256 % 256 ≠ 255 ∧ (FVal.inf true = .inf true) ∧ (FVal.fin false 3 0 = .fin false 3 0)) ∧
    (let le : Nat → Int → Nat → Int → Bool := fun a b c d => a * 2 ^ (b - d).toNat ≤ c * 2 ^ (d - b).toNat
     le 1 ((127 : Int) - 127) 1 0 = true ∧ le 1 ((127 : Int) - 126) 1 0 = false ∧ le 1 (-127) 0 0 = false ∧
     le 120 0 120 0 = true ∧ le 120 0 120 (0 - 1) = false ∧ le 1 7 192 0 = true ∧ le 1 (7 + 1) 192 0 = false) ∧
    (255 < 256 ∧ 15 < 16 ∧ (127 % 128 = 127 ∧ 0x70 % 256 ≠ 255) ∧ (124 % 128 = 124) ∧ ((2 ^ 2 + 123 % 2 ^ 2) * 2 ^ (123 / 2 ^ 2 - 1)) * 2 ^ 0 * 2 ^ (0x70 + 6) < 2 ^ 277 ∧
      (15 % 64 < 124 ∧ 2 ^ 23 ≤ (2 ^ 3 + 15 % 2 ^ 3) * 2 ^ (15 / 2 ^ 3 - 1) * 2 ^ 13 * 2 ^ (0x70 + 6))) := by decide +kernel
theorem witness_FloatFunctions : begins demo [.vabs 4 0 0 0 2, .vneg 4 0 0 0 2, .vsqrt 4 0 0 0 2, .vrcp 4 0 0 0 2, .vrsqrt 4 0 0 0 2, .vexp2 4 0 0 0 2, .vlog2 4 0 0 0 2, .vsin 4 0 0 0 2,
    .vcos 4 0 0 0 2, .vtanh 4 0 0 0 2, .vclass 4 0 0 2] = true := by decide +kernel
/-- Operands for each clause: a NaN, a signalling NaN, opposite infinities, a finite number; and a tie. -/
theorem witness_FloatRounding :
    (let f := f32; f.infBits < 0x7FC00000 % f.signBit ∧ (f.infBits < 0x7F800001 % f.signBit ∧ 0x7F800001 % f.signBit < f.nanBits) ∧ 0xFF800000 = f.signBit + f.infBits ∧
      0xFF800000 < 2 * f.signBit ∧ 0x7F7FFFFF < f.infBits) ∧ 2 * 1 = (2 * 0 + 1) * 2 ^ 1 ∧ demoOp.r.fpm.toNat % 8 ≤ 5 := by decide +kernel
theorem witness_SmallMatrix : begins demo [.mmul 0 0 0 5 5 5, .mtrans 0 0 5 5, .mchol 0 0 5 5, .mlu 0 0 4 4, .mtrsl 40 0 36 5 5, .mtrsu 40 0 36 5 5, .msolveChol 40 0 36 5 5,
    .msolveLu 40 0 0 1 1] = true ∧ (1 ≤ 6 ∧ 5 < 6) ∧ (63 < 64 ∧ 48 ≤ 128 ∧ 24 + 24 ≤ 48 ∧ 47 < 48 ∧ [5, 3].length = 2 ∧ 2 < 8) := by decide +kernel
theorem witness_CapabilityWords : begins demo [.cbnd 3 0 15 31, .cbndX 3 1 7 4, .coff 3 0 2 4, .cinc 3 1 2 55, .cperm 3 0 2 4, .cseal 3 1 2 7, .cunseal 3 0 2 15, .cuntag 3 1 2 4,
    .cmov 3 0 15 0, .cmov 3 1 7 0, .cmov 3 1 15 1, .cmov 15 0 7 2, .cgetBase 6 0 3, .cgetTop 6 1 3, .cgetPos 6 0 3, .cgetRoom 6 1 3, .cgetPerm 7 1 3, .cgetType 6 0 3, .cgetTag 6 1 3,
    .cgetAddr 6 0 3, .cgetExp 31 0 15] = true ∧ beginsWith demo (.cmov 3 0 2 2) (fun o => o.lanes.head? == some 0) = true := by decide +kernel
theorem witness_ReachEncoding : reachOf (2 ^ 64 - 1) (2 ^ 57) ≠ none ∧ reachOf 0 (2 ^ 60) = none ∧ reachOf 0x1000 (2 ^ 19 - 1) = some (0, 0x1000, 0x1000 + (2 ^ 19 - 1)) ∧
    reachOf 1 (2 ^ 19) = some (1, 0, 2 ^ 19 + 2) := by decide +kernel
theorem witness_DerivationNeverWidens :
    let c := mkCap 0x19F 0x1000 64
    capBase c ≤ c.addr.toNat ∧ c.addr.toNat ≤ capBase c + capLen c ∧ (capBound true c 64).tag = true ∧ (capOff c 64).tag = true ∧ (capPerm c 1).tag = true := by decide +kernel
theorem witness_AccessChecks :
    let c := mkCap 0x19F 0x1000 64
    capCheck c 1 0x103C 4 4 0 = .none ∧ [0, 15].Nodup ∧ (∀ m ∈ [0, 15], m < 64) ∧
    laneKind {} c 1 (c.addr + 60) 4 .ld = .none ∧ laneKind {} c 1 (c.addr + 64) 4 .ld = .bounds ∧ laneKind {} c 1 (c.addr + 1) 4 .ld = .align ∧
    laneKind {} {} 1 0 4 .ld = .tag ∧ laneKind {} { c with otype := 3 } 1 c.addr 4 .ld = .sealed ∧ laneKind {} { c with perm := 0 } 1 c.addr 4 .ld = .perm := by decide +kernel

/-- One lane's access at address 0x1000, confirmed. -/
def acc0 (op : AccOp) (n : Nat) : LaneAcc := { lane := 3, spad := false, va := 0x1000, n := n, fmt := 15, op := op, pa := some (0x1000, true) }
/-- The tests' state with one outstanding word of their group. -/
def withOut (p : Pending) : State := demoWith fun g => { g with r := demoRegs, out := [p], nextId := 1 }
/-- An outstanding word found in a state: what the statements about it assume of block, group and word. -/
def outIs (s : State) (p : Pending) : Bool := match blockOf s 0 with
  | some b => match b.groups[0]? with
    | some g => g.out == [p]
    | none => false
  | none => false
/-- The tests' state with a scratchpad of 4 KiB, reached by k2. -/
def padded (f : Group → Group) : State :=
  modBlock (demoWith fun g => f { g with r := demoRegs.putK 2 (spadCap 4096) }) 0 fun b => { b with spad := { size := 4096 } }

theorem witness_AccessIssue :
    (let o := demoOp
     let q := laneList o.b (fun _ => o.r.kreg 3) (fun _ => 2) (fun _ => 0) 4 15 (fun _ => .st 7) o.lanes
     o.sp.skip = [] ∧ liveTx o.g o.no = [] ∧ q.1 ≠ [] ∧ (lookLanes o.s o.b q.1).2 = [] ∧ (groupOf o.s o.k o.gix).isSome = true ∧ ctrCount o.g .st < 63) ∧
    (let s := demoWith fun g => { g with r := demoRegs, out := List.replicate 63 { id := 0, ctr := .st } }; 63 ≤ ctrCount (grp s) .st) ∧
    begins demo [.ldReg 8 0 0 3 54 0 15, .ldReg 8 0 0 3 54 1 15, .ldReg 54 1 1 7 55 3 0, .ldImm 8 0 0 3 ⟨31, .none⟩ 0 11, .ldImm 8 0 0 3 ⟨0, .one 5⟩ 3 15,
      .stReg 4 0 3 54 0 15, .stReg 4 0 3 54 1 15, .stImm 4 1 7 ⟨32, .none⟩ 2 15, .stImm 4 0 3 ⟨0, .two 5 255⟩ 3 15, .ldc 3 1 0 2 5, .ldc 3 0 1 7 5, .stc 3 1 0 2 5, .stc 15 0 1 7 5,
      .redmAdd 7 0 2 5 0, .redmAdd 7 0 2 5 2, .redmMax 7 1 2 5 1, .redmMin 55 0 15 5 2] = true := by decide +kernel
theorem witness_PerformOneLane :
    let y : Sys := { m := (bootState State.reset).mem, b := blk0 demo }
    let w := whoOf demo (blk0 demo)
    y.m.wf = true ∧ 0x1000 % 64 + 8 ≤ 64 ∧ findCopy y.m w.core w.ctx 0x1000 = none ∧ plainTo y.m w.tag 0x1000 = true ∧ w.tag = none ∧
    plainTo y.m (some (1, 0)) 0x1000 = true ∧ (acc0 (.atom .add 5) 4).ans = none ∧ aopEval .add 4 0 5 = some 5 ∧ aopEval (.cas 1) 4 0 5 = none := by decide +kernel
theorem witness_Atomics : begins demo [.amadd32 4 0 0 3 2 0, .amand32 4 0 0 3 2 0, .amor32 4 0 0 3 2 0, .amxor32 4 0 0 3 2 0, .ammaxI32 4 0 0 3 2 0, .ammaxU32 4 0 0 3 2 0,
    .amminI32 4 0 0 3 2 6, .amminU32 4 0 0 3 2 0, .amadd64 4 0 0 3 2 0, .amand64 4 0 0 3 2 0, .amor64 4 0 0 3 2 0, .amxor64 4 0 0 3 2 0, .ammaxI64 4 0 0 3 2 0, .ammaxU64 4 0 0 3 2 0,
    .amminI64 4 0 0 3 2 0, .amminU64 4 0 0 3 54 0, .amswap32 4 0 0 3 2 0, .amcas32 4 0 0 3 2 0, .amswap64 4 0 0 3 2 0, .amcas64 4 0 0 3 2 0, .amaddF32 4 1 1 7 2 0] = true ∧
    beginsWith demo (.amadd32 4 0 0 3 2 6) (fun o => fenceDone o.g 6 0xC o.g.nextId) = true ∧
    beginsWith (withOut { id := 0, ctr := .st, redm := true, buf := [acc0 (.red .add 1) 4] }) (.amadd32 4 0 0 3 2 4) (fun o => !fenceDone o.g 4 0xC o.g.nextId) = true := by
  decide +kernel
theorem witness_StoresTakeTheirPlace :
    let p : Pending := { id := 0, ctr := .st, buf := [acc0 (.st 7) 4] }
    let q : Pending := { id := 0, ctr := .st, redm := true, buf := [acc0 (.red .add 1) 4] }
    outIs (withOut p) p = true ∧ outIs (withOut q) q = true ∧ plainTo (withOut p).mem (whoOf (withOut p) (blk0 (withOut p))).tag 0x1000 = true ∧
    (withOut p).fab.msgs = [] ∧ (withOut p).mem.sealed = [] ∧ (withOut p).mem.past = [] ∧ p.unread = false ∧ p.flt = [] ∧
    (∀ a ∈ p.buf, shapeOf a.op = .stores) := by decide +kernel
theorem witness_LoadsAndDeliveriesComplete :
    let p : Pending := { id := 0, ctr := .ld, dest := .win 47 none, vals := [(0, .data 1), (15, .data 2)] }
    let q : Pending := { id := 0, ctr := .free, redm := true, accepted := true, buf := [acc0 (.red .add 1) 4] }
    outIs (withOut p) p = true ∧ (p.vals.map (·.1)).Nodup ∧ (∀ e ∈ p.vals, e.1 < 64) ∧ outIs (withOut q) q = true ∧
    plainTo (withOut q).mem (whoOf (withOut q) (blk0 (withOut q))).tag 0x1000 = true ∧
    aopEval .add 4 (.ofNat 64 (memNat (withOut q).mem 0x1000 4)) 1 = some 1 := by decide +kernel
/-- A load whose every lane has its value, for a destination. -/
def loadTo (d : Dest) (vs : SMap Val) : Pending := { id := 0, ctr := .ld, dest := d, vals := vs }
/-- Values of two lanes, and of capabilities. -/
def twoVals : SMap Val := [(0, .data 1), (63, .data 0x100000002)]
def twoCaps : SMap Val := [(0, .cap {}), (63, .cap (mkCap 0x19F 0x1000 64))]
/-- A load that feeds channel 1, its place there reserved. -/
def feeding : State := modBlock (withOut (loadTo (.chan 1) twoVals)) 0 fun b => { b with chans := [(1, { ents := [], hold := [{ gix := 0, id := 0, val := none }] })] }
/-- A load for each other destination: a pair, a queue with its place reserved, lane capability registers, a k register. -/
theorem witness_LoadsAndDeliveriesComplete_destinations :
    outIs (withOut (loadTo (.win 46 (some 47)) twoVals)) (loadTo (.win 46 (some 47)) twoVals) = true ∧ (twoVals.map (·.1)).Nodup ∧ (∀ e ∈ twoVals, e.1 < 64) ∧
    outIs feeding (loadTo (.chan 1) twoVals) = true ∧ (mget (blk0 feeding).chans 1 {}).hold = [{ gix := 0, id := 0, val := none }] ∧
    outIs (withOut (loadTo (.capC 7) twoCaps)) (loadTo (.capC 7) twoCaps) = true ∧ (twoCaps.map (·.1)).Nodup ∧ (∀ e ∈ twoCaps, e.1 < 64) ∧
    outIs (withOut (loadTo (.capK 15) [(63, .cap {})])) (loadTo (.capK 15) [(63, .cap {})]) = true ∧ (ctxOf demo (blk0 demo).ctx).rv.busy = false := by decide +kernel
theorem witness_FullAndEmpty :
    begins (padded id) [.ldfe 8 0 0 2 54 0, .ldfeClr 8 0 0 2 54 1, .stfe 8 0 2 54 1] = true ∧
    beginsWith (modBlock (padded id) 0 fun b => { b with spad := { b.spad with full := [(0, true)] } }) (.ldfe 8 0 0 2 54 0) (fun o =>
      let ls := (laneList o.b (fun _ => o.r.kreg 2) (fun _ => 0x201) (fun _ => 0) 4 15 (fun _ => .ldfe false) o.lanes).1
      !inStash o.b ls && !unconfirmed o.g && !ls.isEmpty && ls.all fun a => spFull o.b.spad a.va.toNat) = true ∧
    beginsWith (padded id) (.ldfe 8 0 0 2 54 0) (fun o =>
      let ls := (laneList o.b (fun _ => o.r.kreg 2) (fun _ => 0x201) (fun _ => 0) 4 15 (fun _ => .ldfe false) o.lanes).1
      !inStash o.b ls && !unconfirmed o.g && ls.any fun a => !spFull o.b.spad a.va.toNat) = true ∧
    beginsWith (modBlock (padded id) 0 fun b => { b with stash := [{ at0 := 0, len := 64, cap := mkCap 0x19F 0x1000 64, fill := [], dirty := [] }] }) (.stfe 8 0 2 54 0) (fun o =>
      inStash o.b (laneList o.b (fun _ => o.r.kreg 2) (fun _ => 0x202) (fun _ => 0) 4 15 (fun _ => .stfe 0) o.lanes).1) = true ∧
    stashAt (blk0 (padded id)) 0 = none := by decide +kernel
/-- The state of the pattern and stash tests: s6 = 64, s7 = 0, s8 and s9 a stream's counts, s10 = 4096. -/
def stashRegs (g : Group) : Group := { g with r := { g.r with s := [(4, 64), (6, 64), (8, 0x0000000100010001), (9, 0x8000000000000000), (10, 4096)] } }
/-- One region of 64 bytes at 0. -/
def oneRegion (s : State) : State := modBlock s 0 fun b => { b with stash := [{ at0 := 0, len := 64, cap := mkCap 0x19F 0x1000 64, fill := [(0, { lease := 3, wts := 1, pa := 0x1000 })], dirty := [(0, 1)] }] }
theorem witness_StashAndPatterns :
    begins (padded stashRegs) [.smap 7 6 3, .sflush 7 6, .patset 3 3 8 7] = true ∧
    beginsWith (padded stashRegs) (.smap 7 6 3) (fun o => (o.r.sc 6).toNat == 64 && (o.r.kreg 3).addr.toNat % 64 == 0 && 64 ≤ o.b.spad.size && o.b.stash.isEmpty &&
      !isSpad (o.r.kreg 3) && capCheck (o.r.kreg 3) 0x001 (o.r.kreg 3).addr 64 64 o.b.spad.size == .none) = true ∧
    beginsWith (padded stashRegs) (.smap 10 6 3) (fun o => o.b.spad.size < (o.r.sc 10).toNat + (o.r.sc 6).toNat) = true ∧
    beginsWith (oneRegion (padded stashRegs)) (.smap 7 7 3) (fun o => (o.r.sc 7).toNat == 0 && (o.b.stash.find? fun q => q.at0 == 0).isSome && (o.r.sc 7).toNat ≤ o.b.spad.size && ctrCount o.g .st < 63 &&
      (o.r.kreg 3).addr.toNat % 64 == 0 && capCheck (o.r.kreg 3) 0x001 (o.r.kreg 3).addr 0 64 o.b.spad.size == .none) = true ∧
    beginsWith (oneRegion (padded fun g => { stashRegs g with out := List.replicate 63 { id := 0, ctr := .st } })) (.smap 7 7 3) (fun o => 63 ≤ ctrCount o.g .st) = true ∧
    beginsWith (padded stashRegs) (.smap 7 7 3) (fun o => (o.r.sc 7).toNat == 0 && (o.b.stash.find? fun q => q.at0 == 0).isNone && (o.r.kreg 3).addr.toNat % 64 == 0 &&
      capCheck (o.r.kreg 3) 0x001 (o.r.kreg 3).addr 0 64 o.b.spad.size == .none) = true ∧
    beginsWith (padded stashRegs) (.smap 7 7 9) (fun o => (o.r.sc 7).toNat == 0 && !(o.r.kreg 9).tag && (o.r.kreg 9).addr.toNat % 64 == 0) = true ∧
    beginsWith (padded fun g => stashRegs { g with r := g.r.putK 9 { mkCap 0x19F 0x1000 64 with addr := 0x1008 } }) (.smap 7 7 9)
      (fun o => (o.r.sc 7).toNat == 0 && (o.r.kreg 9).addr.toNat % 64 != 0) = true ∧
    beginsWith (padded stashRegs) (.patset 0 9 8 7) (fun o => o.r.sc 8 != 0 && capCheck (o.r.kreg 9) 0x001 (o.r.kreg 9).addr 0 1 o.b.spad.size == .tag) = true ∧
    beginsWith (padded stashRegs) (.smap 7 6 9) (fun o => (o.r.sc 6).toNat == 64 && !(o.r.kreg 9).tag && (o.r.kreg 9).addr.toNat % 64 == 0 && 64 ≤ o.b.spad.size && o.b.stash.isEmpty) = true ∧
    beginsWith (padded stashRegs) (.smap 7 6 2) (fun o => isSpad (o.r.kreg 2) && (o.r.kreg 2).addr.toNat % 64 == 0 && capCheck (o.r.kreg 2) 0x001 (o.r.kreg 2).addr 64 64 o.b.spad.size == .none) = true ∧
    beginsWith (modBlock (padded stashRegs) 0 fun b => { b with spad := { size := 32 } }) (.smap 6 7 3) (fun o => o.b.spad.size < (o.r.sc 6).toNat) = true ∧
    beginsWith (oneRegion (padded stashRegs)) (.sflush 7 6) (fun o => (o.r.sc 6).toNat ≤ o.b.spad.size && ctrCount o.g .st < 63) = true ∧
    beginsWith (padded stashRegs) (.sflush 10 6) (fun o => o.b.spad.size < 4096 + 64) = true ∧
    beginsWith (padded stashRegs) (.patset 0 3 7 7) (fun o => o.r.sc 7 == 0) = true ∧ beginsWith (padded stashRegs) (.patset 0 3 6 7) (fun o => o.r.sc 6 != 0 && bits (o.r.sc 6) 16 16 == 0) = true ∧
    beginsWith (padded stashRegs) (.patset 0 3 8 7) (fun o => o.r.sc 8 != 0 && bits (o.r.sc 8) 0 16 != 0 && bits (o.r.sc 8) 16 16 != 0 && bits (o.r.sc 8) 32 16 != 0 &&
      bits (o.r.sc 8) 48 16 == 0 && !(o.r.sc 7).getLsbD 63 && capCheck (o.r.kreg 3) 0x001 (o.r.kreg 3).addr 0 1 o.b.spad.size == .none) = true ∧
    (let s := oneRegion (padded stashRegs)
     s.mem.wf = true ∧ 64 % 64 = 0 ∧ 64 * 0 < 64 ∧ (blk0 s).stash.length = 1 ∧ mget [(0, 1)] (64 * 0 + 0) 0 ≠ 0 ∧
     mfind [(0, ({ lease := 3, wts := 1, pa := 0x1000 } : Filled))] 0 = some { lease := 3, wts := 1, pa := 0x1000 } ∧
     (∀ o ∈ [true, false], lookVa s (whoOf s (blk0 s)) 0x1000 64 needW o = .ok { pa := 0x1000, va := 0x1000, cache := true }) ∧
     plainTo s.mem (whoOf s (blk0 s)).tag 0x1000 = true) := by decide +kernel
/-- The write-backs of a word that are all made, and of one whose region is not translated. -/
theorem witness_StashAndPatterns_lines :
    let p : Pending := { id := 0, ctr := .st, lines := [(0, 0)], unmap := some 0 }
    let s1 : State → State := fun s => modGroup s 0 0 fun g => { g with nextId := g.nextId + 1, out := g.out ++ [{ p with id := g.nextId, probe := true, src := 2, need := 2 }] }
    let far : State := modBlock (padded stashRegs) 0 fun b => { b with stash := [{ at0 := 0, len := 64, cap := mkCap 0x19F 0x80000000 64, fill := [], dirty := [(0, 1)] }] }
    (grp far).out = [] ∧ (grp (oneRegion (padded stashRegs))).out = [] ∧ (flushLines 0 0 [(0, 0)] (placeStores (s1 (oneRegion (padded stashRegs))) 0 0 0)).2.2.isNone = true ∧
    (flushLines 0 0 [(0, 0)] (placeStores (s1 far) 0 0 0)).2.2.isSome = true := by decide +kernel
/-- An open transaction of lane 0, opened by split 0 at packet 5. -/
def tx0 (age : Nat) (ws : List LaneAcc) : Tx := ⟨54, 0, 5, 0, age, 1, true, [], ws⟩
theorem witness_Transactions :
    beginsWith demo (.txbeg 8) (fun o => txOfSplit o.g o.no == [] && freeNumber o.g == some 1) = true ∧
    beginsWith (demoWith fun g => { g with splits := g.splits ++ [{ no := 1 }, { no := 2 }, { no := 3 }] }) (.txbeg 8) (fun o => txOfSplit o.g o.no == [] && freeNumber o.g == none) = true ∧
    beginsWith (demoWith fun g => { g with tx := [(0, { tx0 0 [] with live := false })] }) (.txbeg 8) (fun o => txOfSplit o.g o.no != []) = true ∧
    begins demo [.txend, .txabort 255] = true ∧
    beginsWith (demoWith fun g => { g with tx := [(0, tx0 0 [])] }) .txend (fun o => let own := o.g.tx.filter fun (l, x) => x.split == o.no && o.act.getLsbD l
      own != [] && o.g.out.isEmpty && txWinners [] own == own && own.all fun x => txValid o.s.mem x.2) = true ∧
    beginsWith (demoWith fun g => { g with tx := [(0, tx0 0 [])] }) (.txabort 7) (fun o => (o.g.tx.filter fun (l, x) => x.split == o.no && o.act.getLsbD l) != []) = true ∧
    (63 < 64 ∧ 255 < 256 ∧ 2 ^ 24 - 1 < 2 ^ 24) ∧
    (let s := demoWith fun g => { g with tx := [(0, tx0 262145 [acc0 (.st 7) 4])] }
     mfind (grp s).tx 0 = some (tx0 262145 [acc0 (.st 7) 4]) ∧ (grp s).out = [] ∧ 4 * 65536 < (tx0 262145 []).age ∧
     plainTo s.mem (whoOf s (blk0 s)).tag 0x1000 = true) := by decide +kernel

/-- The tests' block with eight accumulator banks, of which banks 0 and 2 are acquired; s4 = 64, s5 = 16, s12 a descriptor of one row from row 0, s14 one
whose pitches are not multiples of 64; k4 and k5 load capabilities of 4 KiB. -/
def banked (f : Group → Group) : State :=
  modBlock (demoWith fun g => f { g with r := ({ demoRegs with s := [(1, 0xFFFFFFFFFFFFFFFF), (4, 64), (5, 16), (6, 200), (12, 0), (14, 0), (15, 1)] }).putK 4 (mkCap 0x19F 0x1000 4096) |>.putK 5 (mkCap 0x19F 0x2000 4096) }) 0
    fun b => { b with v := { b.v with b := 8 }, acq := 5 }
/-- The banks that an operation finds in use. -/
def heldBanks (o : Op) : List Nat := (List.range 64).filter fun j => o.b.acq.getLsbD j
/-- A capability that the operand check of a `tmma` passes. -/
def goodOperand (c : Cap) : Bool := c.tag && c.otype == 0 && c.perm.getLsbD 0 && c.addr.toNat % 64 == 0
theorem witness_TileWords :
    beginsWith (banked id) (.tacq 7 0) (fun o => o.b.v.b == 8 && heldBanks o == [0, 2]) = true ∧
    beginsWith (modBlock (banked id) 0 fun b => { b with acq := 0xFF }) (.tacq 7 0) (fun o => heldBanks o == [0, 1, 2, 3, 4, 5, 6, 7]) = true ∧
    beginsWith (banked id) (.trel 0 2) (fun o => (o.r.sc 0).toNat + 3 ≤ o.b.v.b) = true ∧ beginsWith (banked id) (.trel 4 0) (fun o => o.b.v.b < (o.r.sc 4).toNat + 1) = true ∧
    beginsWith (banked id) (.tzero 0 0) (fun o => o.b.v.b ≤ 64 && ctrCount o.g .mat < 63 && (heldBanks o).contains 0) = true ∧
    beginsWith (banked id) (.tzero 0 1) (fun o => !(heldBanks o).contains 1) = true ∧
    beginsWith (banked fun g => { g with out := List.replicate 63 { id := 0, ctr := .mat } }) (.tzero 0 0) (fun o => 63 ≤ ctrCount o.g .mat && (heldBanks o).contains 0) = true ∧
    beginsWith (banked id) (.tclaim 0 0) (fun o => (o.r.sc 0).toNat == 0) = true ∧
    beginsWith (banked id) (.tclaim 4 5) (fun o => (o.r.sc 4).toNat + (o.r.sc 5).toNat ≤ 16 * o.b.v.b && o.b.groups.length == 1) = true ∧
    beginsWith (banked id) (.tclaim 6 5) (fun o => 16 * o.b.v.b < (o.r.sc 6).toNat + (o.r.sc 5).toNat) = true ∧
    beginsWith (modBlock (banked id) 0 fun b => { b with groups := b.groups ++ [{ band := some (70, 8) }] }) (.tclaim 4 5) (fun o =>
      (o.b.groups[1]?).any (fun g => g.band == some (70, 8)) && (o.r.sc 4).toNat < 78 && 70 < (o.r.sc 4).toNat + (o.r.sc 5).toNat && o.gix == 0) = true ∧
    beginsWith (banked fun g => { g with band := some (0, 16) }) (.tdrain 8 0 0) (fun o => o.g.band == some (0, 16) && (heldBanks o).contains 0 && o.lanes.all fun l => 0 + l ≤ 127) = true ∧
    beginsWith (banked id) (.tdrain 8 0 0) (fun o => o.g.band == none) = true ∧
    (∀ q ∈ [0, 1], beginsWith (banked id) (.tmma 4 5 12 4 q 1 1) (fun o => (o.r.kreg 4).tag && (o.r.kreg 4).otype == 0 && (o.r.kreg 4).perm.getLsbD 0 && (o.r.kreg 4).addr.toNat % 64 == 0 &&
      (o.r.kreg 5).tag && (o.r.kreg 5).otype == 0 && (o.r.kreg 5).perm.getLsbD 0 && (o.r.kreg 5).addr.toNat % 64 == 0 && descOf (o.r.sc 12) (o.r.sc 13) == { K := 1, N := 1, M := 1, row0 := 0, col0 := 0, lda := 0, ldb := 0 } &&
      bits (o.r.sc 12) 52 12 == 0 && bits (o.r.sc 12) 0 3 == 0 && ctrCount o.g .mat < 63) = true) ∧
    beginsWith (banked id) (.tmma 4 5 14 4 0 1 1) (fun o => (descOf (o.r.sc 14) (o.r.sc 15)).lda % 64 == 1) = true ∧
    beginsWith (banked fun g => { g with r := { g.r with s := [(12, 0x4000)] } }) (.tmma 4 5 12 4 0 1 1) (fun o => (descOf (o.r.sc 12) (o.r.sc 13)).row0 / 16 == 1 && !(heldBanks o).contains 1) = true ∧
    (∀ q ∈ [0, 1], beginsWith (banked id) (.tmma 9 5 12 4 q 1 1) (fun o => !(o.r.kreg 9).tag) = true ∧
      beginsWith (banked fun g => { g with r := g.r.putK 4 { mkCap 0x19F 0x1000 4096 with otype := 3 } }) (.tmma 4 5 12 4 q 1 1) (fun o => (o.r.kreg 4).tag && (o.r.kreg 4).otype != 0) = true ∧
      beginsWith (banked fun g => { g with r := g.r.putK 5 (mkCap 0x19E 0x2000 4096) }) (.tmma 4 5 12 4 q 1 1) (fun o => goodOperand (o.r.kreg 4) && (o.r.kreg 5).tag && (o.r.kreg 5).otype == 0 &&
        !(o.r.kreg 5).perm.getLsbD 0) = true ∧
      beginsWith (banked fun g => { g with r := g.r.putK 5 { mkCap 0x19F 0x2000 4096 with addr := 0x2020 } }) (.tmma 4 5 12 4 q 1 1) (fun o => goodOperand (o.r.kreg 4) && (o.r.kreg 5).tag &&
        (o.r.kreg 5).otype == 0 && (o.r.kreg 5).perm.getLsbD 0 && (o.r.kreg 5).addr.toNat % 64 != 0) = true) := by decide +kernel
/-- The words of `TileWordsComplete`, each where its operands meet its conditions: the last bank of the block, no rows and all of them, both bounds of
a descriptor's fields. -/
theorem witness_TileWordsComplete :
    (beginsWith (banked id) (.tacq 7 7) (fun o => (blockOf o.s o.k).any (fun b => (b.groups[o.gix]?).isSome) && o.b.v.b ≤ 64) = true ∧
     beginsWith (banked fun g => { g with r := { g.r with s := [(4, 7)] } }) (.trel 4 0) (fun o => (blockOf o.s o.k).isSome && (o.r.sc 4).toNat + 1 == o.b.v.b) = true) ∧
    beginsWith (banked id) (.tclaim 0 0) (fun o => (o.r.sc 0).toNat == 0) = true ∧
    beginsWith (banked fun g => { g with r := { g.r with s := [(5, 128)] } }) (.tclaim 0 5) (fun o => (o.r.sc 0).toNat + (o.r.sc 5).toNat == 16 * o.b.v.b && o.b.groups.length == 1) = true ∧
    beginsWith (banked fun g => { g with out := List.replicate 62 { id := 0, ctr := .mat } }) (.tzero 0 0) (fun o => ctrCount o.g .mat == 62 && (heldBanks o).contains 0) = true ∧
    beginsWith (banked id) (.tdrain 8 0 0) (fun o => ctrCount o.g .mat < 63) = true ∧
    (∀ q ∈ [0, 1], beginsWith (banked fun g => { g with r := { g.r with s := [(12, 8 * 127), (13, 64 + 2 ^ 32 * 64)] } }) (.tmma 4 5 12 4 q 1 1) (fun o => ctrCount o.g .mat < 63 &&
      goodOperand (o.r.kreg 4) && goodOperand (o.r.kreg 5) && (o.r.sc 12).toNat / 8 % 2 ^ 7 + ((o.r.sc 12).toNat / 2 ^ 32 % 2 ^ 8 + 1) == 128 && (o.r.sc 12).toNat / 2 ^ 52 == 0 &&
      (o.r.sc 12).toNat % 8 == 0 && (o.r.sc 13).toNat % 2 ^ 32 % 64 == 0 && (o.r.sc 13).toNat / 2 ^ 32 % 64 == 0 && (heldBanks o).contains 0) = true) := by decide +kernel
/-- A block whose sequencer has a word, with its group's outstanding entry 0. -/
def tiled (t : TileOp) : State := modBlock (banked fun g => { g with out := [{ id := 0, ctr := .mat, dest := .win 8 none }], nextId := 1 }) 0 fun b => { b with tiles := [t], acc := [(5, 0x3F800000)] }
/-- The step's operands: bf16 rows, of 2 bytes, of one row each. -/
def mma0 : TileOp := .tmma 0 0 0 (mkCap 0x19F 0x1000 4096) (mkCap 0x19F 0x2000 4096) 0 0 true false false 0 0 (some 2) (some 2) 0
theorem witness_TileSequencer :
    (let s := tiled (.tzero 0 0 0 1); mayStep s (blk0 s) = true ∧ (blk0 s).tiles = [.tzero 0 0 0 1] ∧ ∀ g, (blk0 s).groups[0]? = some g → ∀ p ∈ g.out, p.id = 0) ∧
    (blk0 (tiled (.fresh 1 2))).tiles = [.fresh 1 2] ∧ (blk0 (tiled (.trel 1 2))).tiles = [.trel 1 2] ∧
    (let s := tiled (.tdrain 0 0 [(0, 0), (5, 127)] 3 2)
     (grp s).out = [{ id := 0, ctr := .mat, dest := .win 8 none }] ∧ ([(0, 0), (5, 127)] : List (Nat × Nat)).Pairwise (fun x y => x.1 ≠ y.1) ∧
     ∀ x ∈ ([(0, 0), (5, 127)] : List (Nat × Nat)), x.1 < 64 ∧ (2 : LaneMask).getLsbD x.1 = false) := by decide +kernel
/-- The operands of `mma0` can be read, and their sectors have the format. -/
theorem witness_TileSequencer_step :
    let s := modMem (tiled mma0) fun m => { m with side := [(64, 2), (128, 2)] }
    let b := blk0 s
    let ra := operandReads (mkCap 0x19F 0x1000 4096) 2 1 0 1 0 0 1
    let rb := operandReads (mkCap 0x19F 0x2000 4096) 2 1 0 1 0 0 1
    b.tiles = [mma0] ∧ mayStep s b = true ∧ isOperandFmt 2 = true ∧ (∀ a ∈ ra.1 ++ ra.2, readInside b (mkCap 0x19F 0x1000 4096) a = true) ∧
    (∀ a ∈ rb.1 ++ rb.2, readInside b (mkCap 0x19F 0x2000 4096) a = true) ∧ ra.1.length = 1 ∧ ra.2 = [] ∧ rb.2 = [] ∧
    (match seqLoads s 0 (seqTime s b.core) [] with
     | .ok s1 t1 [] => (match seqLoads s1 0 t1 (ra.1 ++ ra.2 ++ rb.1 ++ rb.2) with
       | .ok _ _ vals => vals.map (·.2) == [2, 2]
       | .stop _ _ _ => false)
     | _ => false) = true := by decide +kernel
/-- Window 5 is open to context 0, of the page at 0x1000. -/
def windowed (f : Group → Group) : State :=
  let s := demoWith fun g => f { g with r := demoRegs.putK 6 (spadCap 4096) }
  modCtx { s with fab := { s.fab with wins := [(5, { en := true, opened := true, va := 1, npages := 1 })] } } 0 fun c => { c with peers := [5] }
/-- The group's first split waits, its alarm register holding a value. -/
def waiting (w : Wait) (al : DWord) (g : Group) : Group :=
  { g with tr := { g.tr with ctal := al }, splits := g.splits.map fun p => { p with wait := w, nxt := (3, 1) } }
/-- One arrival for context 0, its event ring at 0x4000. -/
def ringed (f : Ctx → Ctx) : State := modCtx (demoWith fun g => waiting (.ctwait none) 0 g) 0 fun c => f { c with evring := mkCap 0x19F 0x4000 320 }
/-- A waiting group meets what the statement about time assumes. -/
def timeCase (w : Wait) (al : DWord) : Bool :=
  let s := demoWith (waiting w al)
  (blk0 s).onCore && (grp s).halt == .no && (ctxOf s 0).st == 1 && (grp s).tmode.isNone && (grp s).pend.isNone && (grp s).splits.length == 1 && ((grp s).split 0).isSome
theorem witness_ContextTimeAndArrivals :
    begins demo [.ctread 31, .ctarm 0, .ctarm 1, .ctwait 0, .ctwait 1] = true ∧
    beginsWith demo (.ctarm 1) (fun o => (o.r.sc 1).toNat != 0) = true ∧ beginsWith demo (.ctarm 0) (fun o => (o.r.sc 0).toNat == 0) = true ∧
    beginsWith (windowed id) (.ctwaitPeer 1 3) (fun o => windowAt o.s o.b.ctx (capBase (o.r.kreg 3)) == some 5 && (o.r.kreg 3).tag && isUnsealed (o.r.kreg 3) && !isSpad (o.r.kreg 3)) = true ∧
    beginsWith (windowed id) (.ctwaitPeer 1 6) (fun o => (o.r.kreg 6).tag && isSpad (o.r.kreg 6)) = true ∧ beginsWith (windowed id) (.ctwaitPeer 1 9) (fun o => !(o.r.kreg 9).tag) = true ∧
    ([Wait.none, .ctwait (some 0), .ctwait (some 5), .ctwait none, .ctpeer 5 0 0 0 false, .ctpeer 5 0 0 0 true].all fun w => [0, 0x8000000000000000, 0x8000000000000007].all fun al => timeCase w al) = true ∧
    ctOf demo 0 = 0 ∧
    (let s := demo; 0 < Config.contexts ∧ (ctxOf s 0).aq = [] ∧ (ctxOf s 0).waiting = [] ∧ (ctxOf s 0).world = 0 ∧ silenced s 0 = false) ∧
    (1 : Nat) ≠ (ctxOf demo 0).world := by decide +kernel
/-- One arrival waiting, and a ring of 16 entries. -/
def rung : State := ringed fun c => { c with aq := [{ kind := 1, src := 0, data := 3 }] }
theorem rung_ring : ((ctxOf rung 0).evring.tag && isUnsealed (ctxOf rung 0).evring && hasPerm (ctxOf rung 0).evring (pLD ||| pST)) = true ∧
    ringCount (capLen (ctxOf rung 0).evring) 16 = some 16 ∧ capBase (ctxOf rung 0).evring = 0x4000 := by decide +kernel
/-- An arrival that the ring takes, and one whose ring cannot be reached. -/
theorem witness_ContextTimeAndArrivals_taken : (ctxOf rung 0).st = 1 ∧ (ctxOf rung 0).waiting = [] ∧ (ctxOf rung 0).aq = [{ kind := 1, src := 0, data := 3 }] ∧
    (ringArrival rung 0 { kind := 1, src := 0, data := 3 } (ctOf rung 0)).2.isSome = true := by
  refine ⟨by decide +kernel, by decide +kernel, by decide +kernel, ?_⟩
  have h1 : hwWord rung 0 0x4000 = ((hwWord rung 0 0x4000).1, .val 0) := Prod.ext rfl (by decide +kernel)
  have h2 : hwWord (hwWord rung 0 0x4000).1 0 (0x4000 + 8) = ((hwWord (hwWord rung 0 0x4000).1 0 (0x4000 + 8)).1, .val 0) := Prod.ext rfl (by decide +kernel)
  simp only [ringArrival, rung_ring.1, rung_ring.2.1, rung_ring.2.2, if_true]
  rw [h1]; dsimp only
  rw [h2]; dsimp only
  decide +kernel
theorem witness_ContextTimeAndArrivals_waits :
    (let s := modCtx (ringed fun c => { c with aq := [{ kind := 1, src := 0, data := 3 }] }) 0 fun c => { c with evring := mkCap 0x19F 0x80000000 320, s1 := 0 }
     (ringArrival s 0 { kind := 1, src := 0, data := 3 } (ctOf s 0)).2 = none) := by decide +kernel
/-- The group in trap mode, entered by split 0 at packet 9, its splits at their `rett`. -/
def trapped (f : Group → Group) : State :=
  demoWith fun g => f { g with r := { demoRegs with base := 48 }, tmode := some { splits := [{ no := 0, pc := 9, mem := 0xFF, act := 0xFF }, { no := 1, pc := 4, mem := 0xFF00, act := 0xFF00 }], base := 0, raiser := 0, point := (9, 0), preempt := false },
                               tr := { g.tr with trpc := 9, trmask := 0xF, tvec := 0x8000000000000020 } }
/-- A `rett` that ends the handler of its group: the group as it waits there meets what the return assumes. -/
def returning (o : Op) (p : Block → Group → TrapSave → Bool) : Bool :=
  let s := o.wait .rett
  match blockOf s o.k with
  | none => false
  | some b => match b.groups[o.gix]? with
    | none => false
    | some g => match g.tmode with
      | none => false
      | some v => !v.preempt && !g.heldAlarm && g.splits != [] && g.splits.all (·.wait == .rett) && p b g v
theorem witness_SystemWordsAndTrapReturn :
    begins demo [.trap 65535, .fence 6 15, .fence 0 1, .setpl 1, .modeRead 31 0, .modeRead 31 13, .modeWrite 1 0, .modeWrite 1 1, .modeWrite 1 3] = true ∧
    beginsWith demo (.fence 6 15) (fun o => blockOf o.s o.k == some o.b && groupOf o.s o.k o.gix == some o.g && fenceDone o.g 6 15 o.g.nextId && !flushing o.g o.no && groupDirty o.b o.gix == []) = true ∧
    beginsWith (withOut { id := 0, ctr := .st, buf := [acc0 (.st 7) 4] }) (.fence 1 2) (fun o => !fenceDone o.g 1 2 o.g.nextId) = true ∧
    beginsWith (trapped id) (.modeWrite 1 3) (fun o => o.g.tmode.isSome) = true ∧ beginsWith demo .rett (fun o => o.g.tmode.isNone) = true ∧
    (∀ f ∈ [id, fun g : Group => { g with pend := some { cause := 0x0A, split := 0 } }], beginsWith (trapped f) .rett (fun o => returning o fun b g v => !fillsBad b g v.base &&
      (g.windowTo v.base).missing == 0 && (rettSplits v g.tr).any fun p => !p.wait.meets) = true) ∧
    beginsWith (trapped fun g => { g with spill := mkCap 0x19F 0x1000 4096, lo := 2 }) .rett (fun o => returning o fun b g v => !fillsBad b g v.base && (g.windowTo v.base).missing == 2 && !g.unsettled &&
      (groupOf (o.wait .rett) o.k o.gix).any fun g => slid (fillFrames o.k o.gix 2 2 (placeStores (modGroup (o.wait .rett) o.k o.gix fun g => { g with tmode := none }) o.k o.gix g.nextId)) == 0) = true ∧
    beginsWith (trapped fun g => { g with lo := 2 }) .rett (fun o => returning o fun b g v => fillsBad b g v.base) = true ∧
    beginsWith (trapped fun g => { g with spill := mkCap 0x19F 0x1000 4096, lo := 2, out := [{ id := 0, ctr := .ld, unread := true }] }) .rett (fun o => returning o fun b g v =>
      !fillsBad b g v.base && g.unsettled) = true ∧
    (let g := grp (trapped id); (g.tmode.any fun v => (v.splits.map (·.no)) == [0, 1] && (v.splits.all fun p => p.no == v.raiser || p.no == 1)) = true ∧ g.tr.trmask &&& 0xFF ≠ 0 ∧ (0xF00 : LaneMask) &&& 0xFF = 0) := by
  decide +kernel
/-- A trap request of split 0. -/
def req0 : TrapReq := { cause := 0x13, detail := 7, widx := 2, resume := .at 5 0, split := 0, pkt := 4 }
theorem witness_TrapEntry :
    (let s := roomy fun g => { g with tr := { g.tr with tvec := 0x8000000000000020 } }
     ((grp s).split req0.split).isSome = true ∧ (∀ p ∈ (grp s).splits, p.run = none) ∧ req0.cause ≠ 0x12 ∧ req0.cause ≠ 0x15 ∧ req0.widx < 4 ∧ (resumeOf (((grp s).split 0).getD {}) req0).2 < 4 ∧
     (grp s).out = [] ∧ ((grp s).await req0).inPacket = false ∧ req0.inTrap = false ∧ (grp s).tr.tvec.getLsbD 63 = true ∧ (grp s).tmode = none ∧ txOfSplit (grp s) req0.split = [] ∧
     slid (slideUp (modGroup (drainGroup s 0 0) 0 0 fun g => abortAll (blk0 s).v.p g 10) 0 0 ((grp s).r.base + 48)) = 0) ∧
    ((grp demo).tr.tvec.getLsbD 63 = false ∧ (grp demo).out = [] ∧ ((grp demo).await req0).inPacket = false) ∧
    ((grp (trapped id)).tmode.isSome = true ∧ (grp (trapped id)).out = [] ∧ ((grp (trapped id)).await req0).inPacket = false) ∧
    (let g := grp (demoWith fun g => { g with pend := some req0 }); g.pend = some req0 ∧ req0.cause ≠ 0x0A ∧ g.halt = .no ∧ g.out = [] ∧ g.inPacket = false ∧ g.tmode = none ∧ (g.await req0).inPacket = false) := by decide +kernel
theorem witness_CoreEvents :
    (let s : State := { demo with cur := none }; s.cur = none ∧ ((chooseSplit s 0 0).any fun c => c.blk == 0 && c.gix == 0 && c.no == 0) = true) ∧
    (let u : Run := { start := 0, pkts := [0], pats := [], ended := false }
     let s := modMem (demoWith fun g => { g with splits := g.splits.map fun p => { p with pc := 1, run := some u, held := 1024 } }) fun m => memPut m 0 (packetBytes [0x60, 0x18100070, 0x18100070] ++ packetBytes [0x1811C000, 0x1811C000, 0x1811C000])
     let p := ((grp s).split 0).getD {}
     p.run = some u ∧ p.pc ≠ u.start ∧ insideRun s (blk0 s) p = true ∧ nextReads s (blk0 s) p = some true ∧ 1024 ≤ p.held ∧ mayIssue s (blk0 s) (grp s) = true) ∧
    (let s : State := { demo with cur := none }
     s.blocks.length = 1 ∧ (s.blocks.all fun kb => kb.2.core == 0 && kb.2.onCore && kb.2.groups.all fun g => g.quarter == 0 && g.busy == 0 &&
       g.splits.all fun p => splitReady s kb.2 g p && !insideRun s kb.2 p) = true) ∧
    1024 ≤ (grp (demoWith fun g => { g with ptsIdle := 1024 })).ptsIdle ∧ (grp demo).ptsIdle < 1024 := by decide +kernel

/-- A join card's record at 0x2000 (KIND 3, no unit), reached by k6; s6 = 8, s7 = 9, s8 = 10, s9 = 0xFFFF, s10 = 4, s11 = 0x10000. -/
def carded (f : Group → Group) : State :=
  modMem (demoWith fun g => f { g with r := ({ demoRegs with s := [(6, 8), (7, 9), (8, 10), (9, 0xFFFF), (10, 4), (11, 0x10000), (12, 1)] }).putK 6 { mkCap 0x19F 0x2000 64 with otype := 1 } })
    fun m => memPut m 0x2000 (bytesLE 8 (3 * 2 ^ 40 + 0xFFFF * 2 ^ 24))
/-- The same card in unit 3, a graph under job 7. -/
def unitCard : State :=
  let s := modMem (carded id) fun m => memPut m 0x2000 (bytesLE 8 (3 * 2 ^ 40 + 3 * 2 ^ 24))
  { s with curator := { s.curator with units := [(3, { en := true, level := 1, parent := 7 }), (7, { en := true, level := 3 })] } }
/-- A launch card at 0x2000 whose launch descriptor, at 0x4000, lies in a page with host bias. -/
def launchWaiting : State :=
  modMem (carded id) fun m => { memPutCap (memPut m 0x2000 (bytesLE 8 (0xFFFF * 2 ^ 24))) 0x2010 (mkCap 0x19F 0x4000 256) with bias := [(4, true)] }
/-- A post of the card at 0x2000 that may go on past its fence: what came of it. -/
def postMade (o : Op) : Bool → Bool := fun made =>
  let t := placeStores o.s o.k o.gix o.g.nextId
  match blockOf t o.k, groupOf t o.k o.gix with
  | some b, some g => groupDirty b o.gix == [] && fenceDone g 4 6 o.g.nextId &&
      (let u := fencePass t o.k o.gix 4 6
       (postCard u b.world 0x2000 0xFFFF none (o.r.kreg 6) (some b.ctx) (((groupOf u o.k o.gix).map (·.pts)).getD 0)).2.isSome == made)
  | _, _ => false
/-- The block runs the card at 0x2000, of unit 3. -/
def inUnit : State := let s := modBlock unitCard 0 fun b => { b with card := 0x2000 }
  modGroup s 0 0 fun g => { g with r := { g.r with s := [(2, 2), (3, 3), (4, 4)] } }
theorem witness_CardWords :
    beginsWith launchWaiting (.post 6 9) (fun o => (o.r.sc 9).toNat % 2 ^ 16 == 0xFFFF && lookCard o (o.r.kreg 6) == some 0x2000 && postMade o false) = true ∧
    (let un : Op → Nat := fun o => ((mfind o.s.curator.runs o.b.card).map (·.unit.toNat)).getD (cwUnit (cardWord o.s o.b.world o.b.card 0))
     beginsWith inUnit (.cancel 0 2) (fun o => (o.r.sc 2).toNat == 2 && unitAt o.s (un o) 1 == some 3) = true ∧
     beginsWith inUnit (.cancel 0 4) (fun o => (o.r.sc 4).toNat == 4 && unitAt o.s (un o) 3 == some 7) = true ∧
     beginsWith inUnit (.cancel 0 3) (fun o => (o.r.sc 3).toNat == 3 && unitAt o.s (un o) 2 == none) = true) ∧
    beginsWith (carded id) (.cancel 6 8) (fun o => (o.r.sc 8).toNat == 10 && lookCard o (o.r.kreg 6) == some 0x2000 &&
      unitAt o.s (cwUnit (cardWord o.s o.b.world 0x2000 0)) 1 == none) = true ∧
    beginsWith (carded id) (.post 6 9) (fun o => (o.r.sc 9).toNat % 2 ^ 16 == 0xFFFF && lookCard o (o.r.kreg 6) == some 0x2000 &&
      postMade o true) = true ∧
    beginsWith (carded fun g => { g with out := [{ id := 0, ctr := .st, redm := true, buf := [acc0 (.red .add 1) 4] }], nextId := 1 }) (.post 6 11) (fun o =>
      (o.r.sc 11).toNat % 2 ^ 16 < Config.cores && ((o.r.sc 11).toNat % 2 ^ 16) / 7 == o.b.core / 7 && lookCard o (o.r.kreg 6) == some 0x2000 &&
      (let t := placeStores o.s o.k o.gix o.g.nextId
       match blockOf t o.k, groupOf t o.k o.gix with | some b, some g => groupDirty b o.gix == [] && !fenceDone g 4 6 o.g.nextId | _, _ => false)) = true ∧
    beginsWith (carded id) (.post 3 9) (fun o => (lookCard o (o.r.kreg 3)).isNone && !cardCapGood (o.r.kreg 3)) = true ∧
    (let s := modMem (carded id) fun m => { m with bias := [(2, true)] }
     [(.post 6 9 : Instr), .cancel 6 7].all fun i => beginsWith s i fun o => (lookCard o (o.r.kreg 6)).isNone && cardCapGood (o.r.kreg 6) &&
       ipaHeld o.s o.b.world needRW [(capBase (o.r.kreg 6), 64)]) = true ∧
    beginsWith (carded id) .done (fun o => groupOf o.s o.k o.gix == some o.g && (o.g.splits.all fun p => p.no == o.no) && o.g.tmode.isNone) = true ∧
    beginsWith (carded (twoSplits .none)) .done (fun o => groupOf o.s o.k o.gix == some o.g && (o.g.splits.any fun p => p.no != o.no && p.wait == .none) && o.g.tmode.isNone) = true ∧
    beginsWith (carded id) (.cancel 6 11) (fun o => 15 < (o.r.sc 11).toNat) = true ∧ beginsWith (carded id) (.cancel 6 0) (fun o => (o.r.sc 0).toNat < 8) = true ∧
    beginsWith (carded id) (.cancel 0 0) (fun o => (o.r.sc 0).toNat == 0) = true ∧ beginsWith (carded id) (.cancel 0 12) (fun o => (o.r.sc 12).toNat == 1) = true ∧
    beginsWith (carded id) (.cancel 6 7) (fun o => (o.r.sc 7).toNat == 9 && lookCard o (o.r.kreg 6) == some 0x2000) = true ∧
    beginsWith unitCard (.cancel 6 8) (fun o => (o.r.sc 8).toNat == 10 && lookCard o (o.r.kreg 6) == some 0x2000 && (mfind o.s.curator.runs 0x2000).isNone &&
      unitAt o.s (cwUnit (cardWord o.s o.b.world 0x2000 0)) 1 == some 3) = true ∧
    beginsWith (carded id) (.cancel 3 7) (fun o => (lookCard o (o.r.kreg 3)).isNone) = true ∧
    beginsWith (carded id) (.cancel 6 6) (fun o => (o.r.sc 6).toNat == 8 && lookCard o (o.r.kreg 6) == some 0x2000) = true := by decide +kernel
/-- The run of a card of world 0 in context 0. -/
def run0 (kind : Nat) : CardRun :=
  { cap := {}, ctx := 0, world := 0, kind := kind, unit := 0xFFFF, arg := 0, base := 0, cls := 0, since := 0, seq := 0, run := {}, succ := {}, ops := {}, target := 0xFFFF,
    ready := true, next := 1, doneN := 1, cancN := 0, started := kind == 0, lastCore := 0, posters := [], pts := 0, outPts := 0, result := none }
/-- The card at 0x2000 has a run. -/
def running (r : CardRun) : State := let s := carded id; { s with curator := { s.curator with runs := [(0x2000, r)] } }
/-- A queue of 16 entries at 0x3000 with an arena of 64 KiB at 0, its first entry naming the card at an offset. -/
def queued (f : Queue → Queue) (e : Nat) : State :=
  let s := modMem (carded id) fun m => memPut m 0x3000 (bytesLE 8 e)
  { s with curator := { s.curator with queues := [(5, f { en := true, tail := 1, ring := mkCap 0x19F 0x3000 128, arena := mkCap 0x19F 0 65536 })] } }
/-- What every entry of a queue needs. -/
def entryCase (f : Queue → Queue) (e : Nat) : Bool :=
  let s := queued f e
  let x := queueOf s 5
  x.en && x.head != x.tail && curReady s && !queueUnusable x && ipaWord s x.world (capBase x.ring + 8 * (x.head.toNat % 2 ^ x.log2n)) == some e
theorem witness_CardsQueuesUnits_runs :
    (let s := carded id
     let q := cardRefusal s 0 0x2000 0xFFFF
     q.2 = some 0 ∧ mfind q.1.curator.runs 0x2000 = none ∧ cwUnit (cardWord q.1 0 0x2000 0) = 0xFFFF ∧ sealTag q.1 0 = none ∧ plainLine q.1.mem 0x2000 = true ∧ q.1.mem.copies = [] ∧
     (cardState (cardWord q.1 0 0x2000 1)).pcnt = 0 ∧ (cardState (cardWord q.1 0 0x2000 1)).preds < 2 ^ 16) ∧
    (let s := modMem (carded id) fun m => memPut m 0x2008 (bytesLE 8 2)
     let q := cardRefusal s 0 0x2000 0xFFFF
     q.2 = some 0 ∧ (cardState (cardWord q.1 0 0x2000 1)).pcnt = 2) ∧
    (let s := running (run0 0)
     let r := run0 0
     mfind s.curator.runs 0x2000 = some r ∧ r.kind = 0 ∧ r.ready = true ∧ r.doneN = r.arg.toNat + 1 ∧ r.cancN = 0 ∧ r.succ.tag = false ∧ r.unit = 0xFFFF ∧ r.posters = [] ∧
     sealTag s r.world = none ∧ plainLine s.mem 0x2000 = true ∧ s.mem.copies = [] ∧ 0x2000 % 64 = 0 ∧ (cardState r.w1.toNat).pend = false) := by decide +kernel
theorem witness_CardsQueuesUnits_queues :
    5 < Config.queues ∧ (16 - (queueOf (queued id 0) 5).head : BitVec 32).toNat ≤ 2 ^ (queueOf (queued id 0) 5).log2n ∧
    2 ^ (queueOf (queued id 0) 5).log2n < (17 - (queueOf (queued id 0) 5).head : BitVec 32).toNat ∧ silenced (queued id 0) 0 = false ∧ (1 : Nat) ≠ (queueOf (queued id 0) 5).world ∧
    entryCase id 0xFFC1 = true ∧ 0xFFC1 % 2 ^ 48 % 64 ≠ 0 ∧ entryCase id 0x10000 = true ∧ capLen (queueOf (queued id 0) 5).arena < 0x10000 % 2 ^ 48 + 64 ∧
    entryCase id (0x2000 + 0xFFFF * 2 ^ 48) = true ∧ (0x2000 + 0xFFFF * 2 ^ 48) % 2 ^ 48 + 64 ≤ capLen (queueOf (queued id 0) 5).arena ∧
    (let s := modQueue (queued id (0x2000 + 0xFFFF * 2 ^ 48)) 5 fun x => { x with head := x.head + 1 }
     (resolveIpa s 0 needRW [(0x2000, 64)]).isSome = true ∧ let c : Cap := { mkCap 0x19F 0x2000 64 with otype := 1 }
     (postCard s 0 0x2000 0xFFFF (some 7) c none s.mem.hostTop).2 = some 0 ∧ (postCard s 0 0x2000 0xFFFE (some 7) c none s.mem.hostTop).2 = some 7) ∧
    (let s := modMem (launchWaiting) fun m => memPut m 0x3000 (bytesLE 8 (0x2000 + 0xFFFF * 2 ^ 48))
     let c : Cap := { mkCap 0x19F 0x2000 64 with otype := 1 }
     (postCard s 0 0x2000 0xFFFF (some 7) c none s.mem.hostTop).2 = none) ∧
    (let s := modMem (queued id 0x2000) fun m => { m with bias := [(3, true)] }
     (queueOf s 5).en = true ∧ (queueOf s 5).head ≠ (queueOf s 5).tail ∧ curReady s = true ∧ queueUnusable (queueOf s 5) = false ∧ ipaWord s 0 0x3000 = none) ∧
    (let s := modMem (queued id 0x2000) fun m => { m with bias := [(2, true)] }
     let s' := modQueue (useIpa s 0 [(0x3000, 8)]) 5 fun x => { x with head := x.head + 1 }
     ipaWord s 0 0x3000 = some 0x2000 ∧ resolveIpa s' 0 needRW [(0x2000, 64)] = none ∧ ipaHeld s 0 needRW [(0x2000, 64)] = true) ∧
    (let s := queued (fun x => { x with arena := mkCap 0x19F 0xF000000000000 65536 }) 0
     let s' := modQueue (useIpa s 0 [(0x3000, 8)]) 5 fun x => { x with head := x.head + 1 }
     ipaWord s 0 0x3000 = some 0 ∧ resolveIpa s' 0 needRW [(0xF000000000000, 64)] = none ∧ ipaHeld s 0 needRW [(0xF000000000000, 64)] = false) ∧
    queueUnusable (queueOf (queued (fun x => { x with ring := {} }) 0) 5) = true ∧ (queueOf (queued (fun x => { x with tail := 0 }) 0) 5).head = (queueOf (queued (fun x => { x with tail := 0 }) 0) 5).tail := by
  decide +kernel
theorem witness_CardsQueuesUnits_units :
    3 < Config.units ∧ (unitOf unitCard 3).en = true ∧ (unitOf unitCard 3).world = 0 ∧ silenced unitCard 0 = false ∧ unitCard.curator.runs = [] ∧ unitCard.curator.units.Pairwise (fun x y => x.1 ≠ y.1) ∧
    7 ∈ unitChain unitCard 4 3 ∧ 7 ∉ unitChain unitCard 4 9 ∧ (1 : Nat) ≠ 0 ∧ (1 : Nat) ≠ (unitOf unitCard 3).world := by decide +kernel
/-- A run that has no instance to offer gives its class and world no head. -/
theorem headOf_one (s : State) (card : Nat) (r : CardRun) (h : s.curator.runs = [(card, r)]) (c w : Nat) (hh : headOf s c w ≠ none) :
    (instOf s card r).isSome = true ∧ c = r.cls ∧ w = r.world := by
  unfold headOf at hh
  simp only [h, List.filterMap_cons, List.filterMap_nil] at hh
  by_cases hc : (r.cls == c && r.world == w) = true
  · simp only [Bool.and_eq_true, beq_iff_eq] at hc
    cases hi : instOf s card r with
    | none => simp [hi] at hh
    | some x => exact ⟨rfl, hc.1.symm, hc.2.symm⟩
  · simp [hc] at hh
/-- The deficits of a pass that finds the join of `run0 3` ready, and the state in which it is placed. -/
def joinPass : State :=
  let s := running (run0 3)
  setDeficit { s with curator := { s.curator with rr := mput s.curator.rr 0 0 63 } } 0 0 (deficit s 0 0 + 64 * (worldOf s 0).weight)
def joinPlaced : State := match placeInst joinPass (.single 0x2000) (run0 3) with
  | .on t => t
  | .noRoom t => t
  | .waits t => t
/-- A pass with nothing ready; and one with a join ready, which is placed. -/
theorem witness_CuratorAndBlocks_places :
    (demo.curator.reserve = [] ∧ demo.curator.runs = [] ∧ curReady demo = true ∧ demo.curator.idleAt ≠ some demo.gt ∧ ∀ c w, headOf demo c w = none) ∧ curReady State.reset = false ∧
    (let s := running (run0 3)
     let r := run0 3
     s.curator.reserve = [] ∧ (∀ x ∈ s.curator.runs, x.2.ready = true) ∧ s.curator.idleAt ≠ some s.gt ∧ 0 < Config.worlds ∧ headOf s 0 0 = some (.single 0x2000, r) ∧ (∀ c v, headOf s c v ≠ none → c = 0 ∧ v = 0) ∧ underCap s 0 = true ∧
     chargeOf joinPass (.single 0x2000) r ≤ deficit s 0 0 + 64 * (worldOf s 0).weight ∧ placeInst joinPass (.single 0x2000) r = .on joinPlaced ∧
     joinPlaced.curator.reserve = [] ∧ ∀ c v, headOf joinPlaced c v = none) := by
  refine ⟨⟨by decide +kernel, by decide +kernel, by decide +kernel, by decide +kernel, fun c w => ?_⟩, by decide +kernel, by decide +kernel, by decide +kernel, by decide +kernel, by decide +kernel, by decide +kernel, ?_, by decide +kernel, by decide +kernel, by decide +kernel, by decide +kernel, fun c v => ?_⟩
  · rfl
  · intro c v h
    exact (headOf_one _ 0x2000 (run0 3) rfl c v h).2
  · have h : joinPlaced.curator.runs = [] := by decide +kernel
    simp [headOf, h]
/-- A state of one block none of whose groups has an alarm that is due. -/
theorem noAlarmDue_one (s : State) (b : Block) (h : s.blocks = [(0, b)]) (hg : b.groups.all (fun g => !alarmDue s b g) = true) (c : Nat) : noAlarmDue s c := by
  intro k b' hb _ g hm
  have : b' = b := by
    simp only [blockOf, h] at hb
    by_cases hk : (0 : Nat) = k <;> simp_all [mfind]
  subst this
  simpa using List.all_eq_true.mp hg g hm
/-- A launch of one variant of 16 lanes. -/
def launch0 : Launch := { image := {}, spill := mkCap 0x19F 0x8000 4096, frame := {}, width := 16, caps := 1, code := 0, variants := [{ spad := 4096 }], points := [] }
theorem witness_CuratorAndBlocks_entry :
    let b := entryBlock demo (run0 0) 0x2000 0 launch0 0 { spad := 4096 } 3 { places := [(0, 0)], at0 := 0, carve := 1 } { slices := [0], slot := (0, 8192) } (entryCaps demo 0 1 [mkCap 0x19F 0x1000 64, {}])
    b.groups.length = 1 ∧ ((b.groups.map fun g => (g.r.kreg 0).tag && (g.r.kreg 15).tag && !(g.r.kreg 1).tag) = [true]) ∧ (1 : BitVec 14).getLsbD 1 = false := by decide +kernel
/-- A block of class 0 beside a reservation of class 2. -/
def reserving : State := let s := demo; { s with gt := 800, curator := { s.curator with reserve := [{ core := 0, cls := 2, card := 7, bix := 0, since := 0 }] } }
theorem witness_CuratorAndBlocks_alarms (c : Nat) : noAlarmDue reserving c := noAlarmDue_one _ (blk0 reserving) (by decide +kernel) (by decide +kernel) c
/-- A block of the card at 0x2000 whose group has ended. -/
def endedBlock : State := modBlock (running { run0 0 with doneN := 0 }) 0 fun b => { b with card := 0x2000, groups := b.groups.map fun g => { g with splits := [], pts := 9 } }
theorem witness_CuratorAndBlocks_events :
    (let s : State := { running (run0 3) with gt := 6400 }; mfind s.curator.runs 0x2000 = some (run0 3) ∧ (run0 3).ready = true ∧ (run0 3).cls < 7 ∧ (run0 3).since + 6400 ≤ s.gt) ∧
    (running (run0 3)).gt < (run0 3).since + 6400 ∧
    (let q : Reserve := { core := 0, cls := 2, card := 7, bix := 0, since := 0 }
     reserving.curator.reserve = [q] ∧ q.asked = false ∧ q.since + 800 ≤ reserving.gt ∧ mfind reserving.blocks 0 = some (blk0 reserving) ∧ (blk0 reserving).core = q.core ∧
     (blk0 reserving).task = none ∧ (blk0 reserving).life = .resident ∧ (blk0 reserving).cls < q.cls ∧ (ctxOf reserving 0).st = 1 ∧ (ctxOf reserving 1).st ≠ 1) ∧
    (let s := modCore demo 0 fun x => { x with carve := 4 }; (mget s.hol.cores 0 {}).carveTo = none ∧ leastCarve s 0 < (mget s.hol.cores 0 {}).carve) ∧
    (let s := modCore demo 0 fun x => { x with carve := 4, carveTo := some 2 }; (mget s.hol.cores 0 {}).carveTo = some 2 ∧ leastCarve s 0 ≤ 2) ∧
    (let b := blk0 endedBlock
     blockOf endedBlock 0 = some b ∧ b.task = none ∧ b.life = .resident ∧ (∀ g ∈ b.groups, g.splits = [] ∧ g.tmode = none ∧ g.out = []) ∧ b.stash = [] ∧ b.tiles = [] ∧
     (ctxOf endedBlock b.ctx).st = 1 ∧ mfind endedBlock.curator.runs b.card = some { run0 0 with doneN := 0 }) := by decide +kernel
/-- A block with a switch point after packet 0 and a frame capability of one slot of 4 KiB, its group at the switch point. -/
def switching (f : Block → Block) : State :=
  modBlock (demoWith fun g => { g with cycQ := 4 * 1024, splits := g.splits.map fun p => { p with wait := .switchPt 3 0 } }) 0 fun b =>
    f { b with swReq := true, variants := [{ frame := 256 }, { frame := 256 }], v := { frame := 256 }, frameCap := mkCap 0x19F 0x9000 256,
               points := [{ n := 3, pkts := [1, 1], nw := 0, ns := 1, nk := 1, scratch := [], acc := none }] }
/-- Every premise of a switch taken. -/
def switchCase (s : State) : Bool :=
  let b := blk0 s
  match takenAt b with
  | none => false
  | some x =>
    let s1 := (List.range b.groups.length).foldl (fun s i => drainGroup s 0 i) s
    let b1 := blk0 s1
    b.swReq && b.wtok == 0 && b.life == .resident && (ctxOf s b.ctx).st == 1 && (b1.groups.all fun g => g.out.isEmpty) && b1.stash.isEmpty && b1.tiles.isEmpty &&
    match freeFrame s1 b1 with
    | none => false
    | some i =>
      let b2 := { b1 with life := .framing, frame := some x.n, frameSlot := i }
      match putFrame (putBlock s1 0 b2) b2.ctx (frameVa b2) (blockTop b2) (frameParts b2 x) with
      | (s2, .ok _) => blockOf s2 0 == some b2
      | (_, .error _) => false
theorem witness_VariantSwitches :
    switchCase (switching id) = true ∧ (blk0 demo).swReq = false ∧
    (let s := switching fun b => { b with swReq := false, life := .framing, frame := some 3 }; (blk0 s).life = .framing ∧ (blk0 s).swReq = false) ∧
    (let s := switching fun b => { b with groups := b.groups ++ [{ splits := [{}] }] }
     let p := ((grp s).splits.head?).getD {}
     p ∈ (grp s).splits ∧ p.wait = .switchPt 3 0 ∧ 0 + 1024 ≤ (grp s).cycQ / 4 ∧ (blk0 s).life = .resident ∧ takenAt (blk0 s) = none) := by decide +kernel
/-- Context 0 in a state, without blocks where wanted. -/
def ctxCase (f : Ctx → Ctx) : State := modCtx demo 0 f
theorem witness_ContextRegisters_alarms : noAlarmDue demo 0 ∧ (let s : State := { ctxCase fun c => { c with sliceAt := some 10, slice := 5 } with gt := 15 }; noAlarmDue s 0) :=
  ⟨noAlarmDue_one _ (blk0 demo) (by decide +kernel) (by decide +kernel) 0, noAlarmDue_one _ (blk0 demo) (by decide +kernel) (by decide +kernel) 0⟩
theorem witness_ContextRegisters :
    0 < Config.contexts ∧ 0 < Config.worlds ∧ (ctxOf State.reset 0).en = false ∧
    (let s : State := { ctxCase fun c => { c with st := 4 } with blocks := [] }
     (ctxOf s 0).en = true ∧ (ctxOf s 0).st = 4 ∧ ctxBlocks s 0 = [] ∧ (ctxOf s 0).peers = [] ∧ isLocked (worldOf s (ctxOf s 0).world) = false) ∧
    ((ctxOf demo 0).en = true ∧ (ctxOf demo 0).st = 1) ∧
    (let s : State := { ctxCase fun c => { c with sliceAt := some 10, slice := 5 } with gt := 15 }
     (ctxOf s 0).sliceAt = some 10 ∧ (ctxOf s 0).slice ≠ 0 ∧ holdsBlock s 0 = true ∧ 10 + (ctxOf s 0).slice.toNat ≤ s.gt) ∧
    (let s := ctxCase fun c => { c with sliceAt := some 10, slice := 5 }; s.gt < 10 + (ctxOf s 0).slice.toNat) ∧
    (let s := ctxCase fun c => { c with st := 5 }
     (ctxOf s 0).st = 5 ∧ (ctxOf s 0).en = true ∧ worldRuns (worldOf s (ctxOf s 0).world) = true ∧ (ctxOf s 0).held = [] ∧ (ctxOf s 0).keptTok = [] ∧ (ctxOf s 0).aq = [] ∧
     (ctxOf s 0).waiting = [] ∧ (ctxOf s 0).xmtf.getLsbD 63 = false) ∧
    (let s := ctxCase fun c => { c with st := 4, f := 7 }; (ctxOf s 0).st = 4 ∧ (ctxOf s 0).f ≤ (7 : BitVec 64).toNat ∧ (6 : BitVec 64).toNat < (ctxOf s 0).f) := by decide +kernel
/-- Context 0 at its halt, or further on, its group's halt state given. -/
def halting (st : Nat) (f : Ctx → Ctx) (h : Group → Group) : State := modCtx (demoWith h) 0 fun c => f { c with st := st }
theorem witness_FreezeSaveResume_freeze :
    (let s : State := { halting 2 id id with blocks := [] }; (ctxOf s 0).st = 2 ∧ stopBlocks s 0 = []) ∧
    (let s := halting 2 (fun c => { c with dbg := true }) fun g => { g with halt := .halted }
     (ctxOf s 0).st = 2 ∧ s.blocks = [(0, blk0 s)] ∧ (blk0 s).ctx = 0 ∧ (blk0 s).task = none ∧ (blk0 s).life = .resident ∧
     (∀ g ∈ (blk0 s).groups, g.halt = .halted ∧ g.busy = 0 ∧ g.out = [] ∧ g.tx = []) ∧ (ctxOf s 0).dbg = true) ∧
    (let s := halting 2 id fun g => { g with halt := .halted, busy := 3 }
     (blk0 s).groups[0]? = some (grp s) ∧ (grp s).halt = .halted ∧ (grp s).splits ≠ [] ∧ 0 < (grp s).busy) ∧
    (let s := modCtx (trapped fun g => { g with reqQ := 6800 }) 0 fun c => { c with st := 2 }
     (blk0 s).ctx = 0 ∧ (grp s).halt = .no ∧ (grp s).tmode.isSome = true ∧ (grp s).inPacket = false ∧ (grp s).waiting.any (grp s).mayTake = false ∧ 4 * (worldOf s (blk0 s).world).budget ≤ (grp s).reqQ ∧ (grp s).tx = []) := by decide +kernel
theorem witness_FreezeSaveResume_alarm : noAlarmDue (halting 2 id fun g => { g with halt := .halted, busy := 3 }) 0 :=
  noAlarmDue_one _ (blk0 (halting 2 id fun g => { g with halt := .halted, busy := 3 })) (by decide +kernel) (by decide +kernel) 0
theorem witness_FreezeSaveResume_save :
    (let s := halting 3 id fun g => { g with halt := .handler 0 }; (grp s).halt = .handler 0 ∧ (grp s).out = []) ∧
    (let s : State := { halting 3 id id with blocks := [] }; (ctxOf s 0).st = 3 ∧ ((stopBlocks s 0).filter fun kb => !allEnded kb.2) = []) ∧
    (let s := modBlock (halting 3 (fun c => { c with save := mkCap 0x19F 0x6000 64 }) fun g => { g with halt := .saved }) 0 fun b => { b with slot := (0, 64) }
     let b := blk0 s
     (ctxOf s 0).st = 3 ∧ s.blocks = [(0, b)] ∧ b.ctx = 0 ∧ b.task = none ∧ b.life = .resident ∧ b.stash = [] ∧ b.wtok = 0 ∧ b.acq = 0 ∧ b.groups ≠ [] ∧
     (∀ g ∈ b.groups, g.halt = .saved ∧ g.out = [] ∧ g.splits ≠ []) ∧ (writeSlot s 0 b).2 = true ∧ (writeSlot s 0 b).1.blocks = s.blocks) ∧
    (let s := modBlock (halting 4 (fun c => { c with f := 5, tf := 9, stopped := 4 }) fun g => { g with halt := .saved }) 0 fun b => { b with life := .loaded }
     let s : State := { s with gt := 30 }
     mayResume s 0 = true ∧ (ctxOf s 0).held = [] ∧ (ctxOf s 0).keptTok = [] ∧ (ctxOf s 0).aq = [] ∧ (ctxOf s 0).waiting = [] ∧ (ctxOf s 0).xmtf.getLsbD 63 = false ∧
     (ctxOf s 0).fresh = false ∧ (ctxOf s 0).fset = false ∧ (ctxOf s 0).tf ≤ s.gt ∧ ((ctxOf s 0).tf : Int) - (ctxOf s 0).stopped - (ctxOf s 0).base = (ctxOf s 0).f) ∧
    (let s := modBlock (halting 4 (fun c => { c with f := 5, fresh := true }) id) 0 fun b => { b with life := .loaded }; mayResume s 0 = true ∧ (ctxOf s 0).fresh = true) ∧
    mayResume (halting 4 (fun c => { c with stop := true }) id) 0 = false ∧
    (let s : State := { halting 4 (fun c => { c with loadAt := some 0 }) id with gt := 6400 }
     (ctxOf s 0).loadAt = some 0 ∧ (ctxOf s 0).st = 4 ∧ (ctxOf s 0).fresh = false ∧ 0 + 6400 ≤ s.gt) := by decide +kernel

/-- An engine command of context 0: its block at 0x1000, slots at 0x4000, 0x5000 and 0x6000, every page of the first 2 MiB locked. -/
def cmd0 (kind : EngKind) : EngCmd :=
  { id := 0, kind := kind, ctx := 0, world := 0, who := some (0, 0), pid := 0, card := none, ticket := 0, pblock := mkCap 0x19F 0x1000 256, scope := 4, acq := false, rel := false,
    ipts := 0, ict := 0, got := true, submitted := true, ctl := 64, slots := [mkCap 0x19F 0x4000 4096, mkCap 0x19F 0x5000 4096, mkCap 0x19F 0x6000 4096],
    locked := [(0, 2097152, 0)] }
/-- The tests' state with an engine command, counted among its group's words. -/
def engaged (x : EngCmd) : State :=
  let s := demoWith fun g => { g with r := demoRegs.putK 4 (mkCap 0x19F 0x1000 256), out := [{ id := 0, ctr := .eng }], nextId := 1 }
  { s with eng := { s.eng with cmds := [x], nextId := 1 } }
theorem witness_EngineCommands_issued :
    beginsWith (engaged (cmd0 .copy)) (.ecopy 4 7 4 1 1) (fun o => capCheck (o.r.kreg 4) 0x007 (o.r.kreg 4).addr 192 64 o.b.spad.size == .none && ctrCount o.g .eng < 63) = true ∧
    begins (engaged (cmd0 .copy)) [.ered 4 7 0 0 1, .ecoll 4 7 5 1 0, .esealOpen 4 7 0 0 0, .esealCommit 4 7 2 0 1] = true ∧
    beginsWith (demoWith fun g => { g with r := demoRegs.putK 4 (mkCap 0x19F 0x1000 256), out := List.replicate 63 { id := 0, ctr := .eng } }) (.ered 4 7 0 0 0) (fun o =>
      63 ≤ ctrCount o.g .eng && capCheck (o.r.kreg 4) 0x007 (o.r.kreg 4).addr 192 64 o.b.spad.size == .none) = true ∧
    beginsWith (engaged (cmd0 .copy)) (.ecopy 3 7 0 0 0) (fun o => capCheck (o.r.kreg 3) 0x007 (o.r.kreg 3).addr 64 64 o.b.spad.size == .none) = true ∧
    beginsWith (engaged (cmd0 .copy)) (.ecopy 9 7 0 0 0) (fun o => capCheck (o.r.kreg 9) 0x007 (o.r.kreg 9).addr 64 64 o.b.spad.size == .tag) = true := by decide +kernel
/-- A command that is still to be submitted. -/
def fresh0 (kind : EngKind) : EngCmd := { cmd0 kind with submitted := false, locked := [] }
/-- A command's parameter block may be written. -/
def blockFree (s : State) (x : EngCmd) : Bool := (blockStop s x).2.isNone && (blockHold s x).isNone
/-- Its pages can be locked, or not. -/
def lockCase (x : EngCmd) (f : MemSys → MemSys) (room : Bool) : Bool :=
  let s := modMem (engaged x) f
  let v := modCmd (blockStop s x).1 x.id fun _ => x
  match lockRanges (cmdWho v x) ((cmdRanges x).flatMap fun q => rangeVas ((cmdBlock v x).getD {}) q.2.1 q.2.2.1 q.2.2.2) v [] with
  | (s1, .ok pages) => match lockAll s1.mem x.ctx pages with
    | some m => room && (fabricRefused (modCmd { s1 with mem := m } x.id fun _ => { x with locked := pages, submitted := true }) { x with locked := pages, submitted := true } (cmdRanges x)).isNone
    | none => !room
  | (_, .error _) => false
/-- The states whose context has a window open on the page of the second slot. -/
def doored (s : State) : State := { s with fab := { s.fab with wins := [(5, { en := true, opened := true, va := 5, npages := 1 })] } }
/-- A command one of whose pages no table maps: it parks. -/
def unmapped0 : EngCmd := { fresh0 .copy with slots := [mkCap 0x19F 0x300000 4096, mkCap 0x19F 0x5000 4096] }
def parkCase : Bool :=
  let x := unmapped0
  let s := engaged x
  let v := modCmd (blockStop s x).1 x.id fun _ => x
  blockFree s x && copyBad 0 x == none && doorRefused v x (cmdRanges x) == none &&
  match lockRanges (cmdWho v x) ((cmdRanges x).flatMap fun q => rangeVas ((cmdBlock v x).getD {}) q.2.1 q.2.2.1 q.2.2.2) v [] with
  | (_, .ok _) => false
  | (_, .error _) => true
theorem witness_EngineCommands_submitted :
    (∀ x ∈ [fresh0 .copy, { fresh0 .red with ctl := 16 + 2 ^ 44 }], cmdOf (engaged x) x.id = some x ∧ x.got = true ∧ x.submitted = false ∧ x.token = 0 ∧ x.stopped = false ∧ x.cancelled = false ∧
      isDescriptor (x.slot 1) = false ∧ isDescriptor (x.slot 2) = false ∧ x.bounce = none ∧ x.team = none ∧ engReady (engaged x) x = true ∧ blockFree (engaged x) x = true ∧ lockCase x id true = true) ∧
    copyBad 0 (fresh0 .copy) = none ∧ redBad 0 { fresh0 .red with ctl := 16 + 2 ^ 44 } = none ∧ copyBad 0 { fresh0 .copy with ctl := 0 } = some (7, 0) ∧ redBad 0 (fresh0 .red) = some (7, 0) ∧
    doorRefused (doored (engaged (fresh0 .copy))) (fresh0 .copy) (cmdRanges (fresh0 .copy)) = some 2 ∧ doorRefused (engaged (fresh0 .copy)) (fresh0 .copy) (cmdRanges (fresh0 .copy)) = none ∧ parkCase = true ∧
    lockCase (fresh0 .copy) (fun m => { m with locks := [{ ctx := 0, va := 0, size := 2097152, pa := 0, pins := 65535 }] }) false = true ∧
    (blockStop (modMem (engaged (fresh0 .copy)) fun m => { m with bias := [(1, true)] }) (fresh0 .copy)).2.isSome = true := by decide +kernel
/-- A turn of a command ended in order, at a line that waits, or at one that fails. -/
def endKind : EngEnd → Nat × Nat
  | .done => (0, 0)
  | .hold _ => (1, 0)
  | .bad code _ _ => (2, code)
  | .refused i => (3, i)
/-- The same command, its second slot's page locked to an address that no unit answers. -/
def denied0 (x : EngCmd) : EngCmd := { x with locked := [(0, 0x5000, 0), (0x5000, 0x1000, 0x200000005000), (0x6000, 0x1FA000, 0x6000)] }
theorem witness_EngineCopiesAndStatus :
    (let x := cmd0 .copy
     let s := engaged x
     cmdOf s x.id = some x ∧ (∀ y ∈ s.eng.cmds, y.id = x.id → y = x) ∧ isSpad x.pblock = false ∧ x.pblock.addr.toNat % 64 = 0 ∧ lockedPa s x x.pblock.addr.toNat = some 0x1000 ∧
     x.rel = false ∧ x.card = none ∧ ctxHolds s x.ctx = false ∧ plainTo s.mem (sealTag s x.world) 0x1000 = true ∧ x.who = some (0, 0) ∧ (groupOf s 0 0).isSome = true ∧
     (∀ g, groupOf s 0 0 = some g → ∀ p ∈ g.out, p.id = x.pid) ∧
     isSpad (x.slot 1) = false ∧ isSpad (x.slot 2) = false ∧ ((lockedSpot s x ((x.slot 1).addr.toNat + 0)).map fun q => (q.pa, q.fab)) = some (0x4000, false) ∧
     ((lockedSpot s x ((x.slot 2).addr.toNat + 0)).map fun q => (q.pa, q.fab)) = some (0x5000, false) ∧
     plainTo s.mem (sealTag s x.world) 0x4000 = true ∧ plainTo s.mem (sealTag s x.world) 0x5000 = true ∧ engDenied s x 64 [(x.slot 1, 0x4000, 1), (x.slot 2, 0x5000, 2)] = none ∧
     engStops s x [(x.slot 1, 0x4000, 1), (x.slot 2, 0x5000, 2)] = none ∧ engInteg s x (x.slot 1) 0x4000 = 0 ∧ homeOf 0x4000 = .hbm ∧ homeOf 0x5000 = .hbm ∧ (sideFmt (sideAt s.mem 0x4000)).toNat ≤ 11 ∧
     x.kind = .copy ∧ x.submitted = true ∧ x.stopped = false ∧ x.bounce = none ∧ x.cancelled = false ∧ x.pos = x.prog ∧ blockHold s x = none ∧ stopsNow s x = false) ∧
    (let s := engaged (cmd0 .copy); let r := copyLines (cmd0 .copy) ((min 64 ((0 / 65536 + 1) * 65536) - 0) / 64) 0 s; (r.2.1, endKind r.2.2) = (64, 0, 0) ∧ bits (cmd0 .copy).ctl 0 40 = 64) ∧
    (let x := { cmd0 .copy with ctl := 65536 + 64 }; min (bits x.ctl 0 40) ((0 / 65536 + 1) * 65536) = 65536 ∧ 65536 < bits x.ctl 0 40) ∧
    (let s := modMem (engaged (cmd0 .copy)) fun m => { m with bad := [(0x4000 / 64, true)] }; let r := copyLines (cmd0 .copy) 1 0 s; (r.2.1, endKind r.2.2) = (0, 2, 5)) ∧
    (let s := modMem (engaged (cmd0 .copy)) fun m => { m with bias := [(4, true)] }
     let r := copyLines (cmd0 .copy) 1 0 s; (r.2.1, endKind r.2.2) = (0, 1, 0) ∧ (engStops s (cmd0 .copy) [((cmd0 .copy).slot 1, 0x4000, 1), ((cmd0 .copy).slot 2, 0x5000, 2)]).isSome = true) ∧
    (let s := modCtx (engaged (cmd0 .copy)) 0 fun c => { c with st := 2 }; stopsNow s (cmd0 .copy) = true) := by decide +kernel
/-- A copy whose access the fabric refuses, cancelled and stopped ones, at a boundary and past one. -/
theorem witness_EngineCopiesAndStatus_stops :
    (let x := denied0 (cmd0 .copy)
     let s := engaged x
     engStops s x [(x.slot 1, 0x4000, 1), (x.slot 2, 0x5000, 2)] = none ∧ engDenied s x 64 [(x.slot 1, 0x4000, 1), (x.slot 2, 0x5000, 2)] = some 2 ∧
     (let r := copyLines x 1 0 s; (r.2.1, endKind r.2.2) = (0, 3, 2)) ∧ cmdOf s x.id = some x ∧ blockHold s x = none ∧ stopsNow s x = false) ∧
    (let x := { cmd0 .copy with ctl := 3 * 65536, pos := 4096, cancelled := true }; cmdOf (engaged x) x.id = some x ∧ x.pos ≠ x.prog ∧ x.stopped = false ∧ blockHold (engaged x) x = none) ∧
    (let x := { cmd0 .copy with ctl := 3 * 65536, cancelled := true }; x.pos = x.prog) ∧
    (let x := { cmd0 .copy with stopped := true }; cmdOf (engaged x) x.id = some x ∧ x.cancelled = false ∧ blockHold (engaged x) x = none) := by decide +kernel
/-- A reduction of one source of two elements. -/
def red0 : EngCmd := { cmd0 .red with ctl := 2 + 2 ^ 44 }
theorem witness_ReductionsCollectivesSeals_reductions :
    (let s := engaged red0
     cmdOf s red0.id = some red0 ∧ red0.kind = .red ∧ red0.submitted = true ∧ red0.stopped = false ∧ red0.cancelled = false ∧ red0.pos = red0.prog ∧ blockHold s red0 = none ∧ stopsNow s red0 = false ∧
     (let r := redElems red0 (min (2 - 0) ((64 - ((red0.slot 1).addr.toNat + 4 * 0) % 64) / 4)) 0 s; (r.2.1, endKind r.2.2) = (2, 0, 0)) ∧ bits red0.ctl 0 40 ≤ 2 ∧
     engDenied s red0 4 ((red0.slot 1, (red0.slot 1).addr.toNat + 4 * 0, 2) :: (redSources red0).map fun q => (q.2, q.2.addr.toNat + 4 * 0, 1)) = none ∧
     engStops s red0 ((red0.slot 1, (red0.slot 1).addr.toNat + 4 * 0, 2) :: (redSources red0).map fun q => (q.2, q.2.addr.toNat + 4 * 0, 1)) = none ∧
     (match redRead red0 0 (redSources red0) s with | (_, .ok vs) => vs == [0] | (_, .error _) => false) = true) ∧
    (let x := { red0 with ctl := 20 + 2 ^ 44 }
     let r := redElems x (min (20 - 0) ((64 - ((x.slot 1).addr.toNat + 4 * 0) % 64) / 4)) 0 (engaged x); (r.2.1, endKind r.2.2) = (16, 0, 0) ∧ 16 < bits x.ctl 0 40) ∧
    (let s := modMem (engaged red0) fun m => putSide m 0x5000 2; endKind (redElems red0 2 0 s).2.2 = (2, 6)) ∧
    (let s := modMem (engaged red0) fun m => { m with bad := [(0x5000 / 64, true)] }; endKind (redElems red0 2 0 s).2.2 = (2, 5)) ∧
    (let s := modMem (engaged red0) fun m => { m with bias := [(5, true)] }; endKind (redElems red0 2 0 s).2.2 = (1, 0)) ∧
    endKind (redElems (denied0 red0) 2 0 (engaged (denied0 red0))).2.2 = (3, 2) ∧ cmdOf (engaged (denied0 red0)) 0 = some (denied0 red0) ∧ blockHold (engaged (denied0 red0)) (denied0 red0) = none ∧
    (0x3F800000 : Word).toNat % 2 ^ 31 ≤ 0x7F800000 := by decide +kernel
/-- A team of two ranks, of which this is the first; the other's source is at 0x7000. -/
def team0 : Team := { nrank := 2, rank := 0, bad := false, caps := [(mkCap 0x19F 0x5000 4096, mkCap 0x19F 0x6000 4096), (mkCap 0x19F 0x7000 4096, mkCap 0x19F 0x8000 4096)] }
/-- A collective of that team with the other rank's part as given. -/
def coll0 (kind : Nat) (js : SMap Join) : EngCmd := { cmd0 .coll with ctl := .ofNat 64 (8 + kind * 2 ^ 52), team := some team0, joins := js }
/-- The other rank has joined and agrees, and every line can be read. -/
def teamCase (kind : Nat) : Bool :=
  let x := coll0 kind [(1, joinOf (coll0 kind []) team0)]
  let s := engaged x
  let src : Nat → Cap := fun i => if i == 0 then x.slot 2 else (team0.caps.getD i ({}, {})).1
  let ranks := if kind == 2 then [0] else [0, 1]
  cmdOf s x.id == some x && bits x.ctl 52 4 == kind && (blockHold s x).isNone && mfind x.joins 1 == some (joinOf x team0) &&
  (engStops s x ((ranks.flatMap fun i => rangePlaces (src i) 0 8 1) ++ rangePlaces (x.slot 3) 0 (collBytes kind 8 2).2 2)).isNone &&
  (engDenied s x 64 ((ranks.flatMap fun i => rangePlaces (src i) 0 8 1) ++ rangePlaces (x.slot 3) 0 (collBytes kind 8 2).2 2)).isNone && ranks.all fun i => (rangeInteg s x (src i) 0 8).isNone
theorem witness_ReductionsCollectivesSeals_collectives : teamCase 0 = true ∧ teamCase 1 = true ∧ teamCase 2 = true ∧ teamCase 3 = true ∧
    (let x := coll0 0 []; cmdOf (engaged x) x.id = some x ∧ x.submitted = true ∧ x.cancelled = false ∧ x.team = some team0 ∧ mfind x.joins 1 = none) ∧
    (let x := coll0 0 [(1, joinOf (coll0 1 []) team0)]; ∃ j, mfind x.joins 1 = some j ∧ j ≠ joinOf x team0) ∧
    (let x := coll0 0 [(1, joinOf (coll0 0 []) team0)]
     let s := modMem (engaged x) fun m => { m with bad := [(0x7000 / 64, true)] }
     (rangeInteg s x (team0.caps.getD 1 ({}, {})).1 0 8).isSome = true) ∧
    (let x := denied0 (coll0 0 [(1, joinOf (coll0 0 []) team0)])
     let ps := ([x.slot 2, (team0.caps.getD 1 ({}, {})).1].flatMap fun c => rangePlaces c 0 8 1) ++ rangePlaces (x.slot 3) 0 (collBytes 0 8 2).2 2
     cmdOf (engaged x) x.id = some x ∧ blockHold (engaged x) x = none ∧ mfind x.joins 1 = some (joinOf x team0) ∧ engStops (engaged x) x ps = none ∧
     engDenied (engaged x) x 64 ps = some 2) ∧
    (let x := { coll0 0 [] with cancelled := true }; cmdOf (engaged x) x.id = some x ∧ blockHold (engaged x) x = none) := by
  refine ⟨by decide +kernel, by decide +kernel, by decide +kernel, by decide +kernel, by decide +kernel, ⟨_, rfl, by decide +kernel⟩, by decide +kernel, by decide +kernel, by decide +kernel⟩
/-- A seal command whose handle names slot 3 of world 0, generation 1. -/
def seal0 (kind : EngKind) : EngCmd :=
  { cmd0 kind with who := none, slots := [{ (mkCap 0 0 64) with otype := 2, addr := 0x10003 }, mkCap 0x19F 0x5000 128, mkCap 0x19F 0x6000 4096] }
/-- The key of slot 3. -/
def key0 (n : Nat) : KeySlot := { alg := some 0, gen := 1, seq := n }
/-- The state of the seal tests: the key's next SEQ and the open seals. -/
def sealing (x : EngCmd) (n : Nat) (ys : List Seal) : State :=
  let s := engaged x
  { s with eng := { s.eng with seals := ys }, worlds := [(0, { t := { keys := [(3, key0 n)] } })] }
/-- A seal open on the commands' parameter block. -/
def open0 : Seal := { ctx := 0, world := 0, blk := none, slot := 3, gen := 1, seq := 4, alg := 0, handle := 0x10003, pblock := 0x1000, record := mkCap 0x19F 0x6000 4096, measure := 0, secret := 0 }
/-- A seal opened by a block whose image lies in the page at 0x1000 and has not been measured: 1 where the reading waits, 2 where a line fails its check,
3 where the fabric refuses it. -/
def sealErr (f : MemSys → MemSys) (h : EngCmd → EngCmd) : Nat :=
  let i := mkCap 0x19F 0x1000 256
  let x := h { seal0 .sealOpen with who := some (0, 0), image := some i, pblock := mkCap 0x19F 0x6000 256, locked := [(0, 2097152, 0)] }
  let s := modMem (sealing x 5 []) f
  if cmdOf s x.id == some x && (handleKey s x (x.slot 1)).isSome then match (kernelMeasure s x).2 with
    | .error (.hold _) => 1
    | .error (.bad _ _ _) => 2
    | .error (.refused _) => 3
    | .error .done => 0
    | .ok _ => 0
  else 0
theorem witness_ReductionsCollectivesSeals :
    (let s := sealing (seal0 .sealOpen) 5 []
     let x := seal0 .sealOpen
     cmdOf s x.id = some x ∧ x.submitted = true ∧ x.token = 0 ∧ x.kind = .sealOpen ∧ x.cancelled = false ∧ blockHold s x = none ∧ handleKey s x (x.slot 1) = some (key0 5) ∧ (key0 5).seq < 2 ^ 32 ∧ openSeals s x.ctx < 16 ∧
     ∃ s1 m, kernelMeasure s x = (s1, .ok m)) ∧
    handleKey (engaged (seal0 .sealOpen)) (seal0 .sealOpen) ((seal0 .sealOpen).slot 1) = none ∧ 2 ^ 32 ≤ (key0 (2 ^ 32)).seq ∧
    16 ≤ openSeals (sealing (seal0 .sealOpen) 5 (List.replicate 16 open0)) 0 ∧
    (let s := sealing (seal0 .sealCommit) 5 [open0]
     let x := seal0 .sealCommit
     cmdOf s x.id = some x ∧ x.kind = .sealCommit ∧ sealOn s x = some open0 ∧ x.token = 0 ∧ blockHold s x = none ∧
     (let f : Cap := { x.slot 2 with addr := .ofNat 64 (capBase (x.slot 2)) }
      rangeInteg s x f 0 (capLen f) = none ∧ engStops s x (rangePlaces f 0 (capLen f) 1 ++ rangePlaces (x.slot 3) 0 (slotBytesOf open0.record open0.limit) 2) = none ∧
      engDenied s x 64 (rangePlaces f 0 (capLen f) 1 ++ rangePlaces (x.slot 3) 0 (slotBytesOf open0.record open0.limit) 2) = none)) ∧
    (let x := denied0 (seal0 .sealCommit)
     let s := sealing x 5 [open0]
     let f : Cap := { x.slot 2 with addr := .ofNat 64 (capBase (x.slot 2)) }
     let ps := rangePlaces f 0 (capLen f) 1 ++ rangePlaces (x.slot 3) 0 (slotBytesOf open0.record open0.limit) 2
     cmdOf s x.id = some x ∧ sealOn s x = some open0 ∧ blockHold s x = none ∧ engStops s x ps = none ∧ engDenied s x 64 ps = some 2) ∧
    (sealErr (fun m => { m with bias := [(1, true)] }) id = 1 ∧ sealErr (fun m => { m with bad := [(0x1040 / 64, true)] }) id = 2 ∧
      sealErr id (fun x => { x with locked := [(0, 0x2000, 0x200000000000), (0x5000, 0x2000, 0x5000)] }) = 3) ∧
    (let s := modMem (sealing (seal0 .sealCommit) 5 [open0]) fun m => { m with bad := [(0x5040 / 64, true)] }
     let x := seal0 .sealCommit
     ((rangeInteg s x { x.slot 2 with addr := .ofNat 64 (capBase (x.slot 2)) } 0 (capLen (x.slot 2))).map fun q => (q.1, q.2 != 0)) = some (64, true)) := by
  refine ⟨⟨by decide +kernel, by decide +kernel, by decide +kernel, by decide +kernel, by decide +kernel, by decide +kernel, by decide +kernel, by decide +kernel, by decide +kernel, ?_⟩,
    by decide +kernel, by decide +kernel, by decide +kernel, by decide +kernel, by decide +kernel, by decide +kernel, by decide +kernel⟩
  exact ⟨_, _, rfl⟩

/-- A store of lane 0 to 0x200000, past the translated page, awaiting its walk. -/
def missAcc : LaneAcc := { lane := 0, spad := false, va := 0x200000, n := 4, fmt := 15, op := .st 7 }
/-- The group's one outstanding word, its access missing; context 0's tables map the first GiB when `on`. -/
def missing (on : Bool) : State :=
  let s := demoWith fun g => { g with r := demoRegs, out := [{ id := 0, ctr := .st, todo := [missAcc] }], nextId := 1 }
  if on then modCtx (modMem s fun m => memPut (memPut (memPut m 0x100000 (bytesLE 8 0x101001)) 0x101000 (bytesLE 8 0x102001)) 0x102000 (bytesLE 8 0x73)) 0 fun c => { c with s1 := 0x8000000000100000 }
  else s
/-- What a miss needs, and what its walk finds. -/
def missCase (on : Bool) : Bool :=
  let s := missing on
  let b := blk0 s
  let p := ((grp s).out.head?).getD { id := 9, ctr := .free }
  firstMiss s b p == some missAcc && !missAcc.spad && p.todo == [missAcc] && p.buf.isEmpty && p.flt.isEmpty && !p.probe && p.ctr == .st && p.token == 0 && p.fault.isNone && !p.inTrap && (grp s).tmode.isNone &&
  ((grp s).splits.all fun q => q.run.isNone) &&
  match walkFill s b.ctx 0x200000 needW with
  | (s1, .ok _ _ _ _ _ _ _ _ _) => on && s1.blocks == s.blocks && (match pendLook s1 b p missAcc with | .go _ => true | .stop _ => false)
  | (_, .hold _ _) => false
  | (s1, .fault _ _ _ _) => !on && s1.blocks == s.blocks && s1.mem.token != 0
theorem witness_TranslationAndReplay_found : missCase true = true := by decide +kernel
theorem witness_TranslationAndReplay_fault : missCase false = true := by decide +kernel
/-- A group with a lane parked behind token 5, which is a record waiting at its FBUF too. -/
def parkedLane : State := demoWith fun g => { g with out := [{ id := 0, ctr := .st, flt := [missAcc], token := 5 }], nextId := 1 }
/-- A state whose one record waits, its ring at 0x4000 with 16 places when `on`. -/
def ringing (on : Bool) : State :=
  { demo with rings := [{ id := 3, ring := 0, world := 0, words := [1, 2, 3, 4], delay := 8, since := 0 }], worlds := if on then [(0, { fbuf := mkCap 0x19F 0x4000 576 })] else [] }
theorem witness_TranslationAndReplay :
    (let s := parkedLane
     s.blocks = [(0, blk0 s)] ∧ (blk0 s).groups[0]? = some (grp s) ∧ (grp s).out = [{ id := 0, ctr := .st, flt := [missAcc], token := 5 }] ∧ (5 : BitVec 32) ≠ 0 ∧ [missAcc] ≠ [] ∧
     (ctxOf s (blk0 s).ctx).st = 1 ∧ s.worlds = []) ∧
    (let v : BitVec 64 := 0x9000000000000000
     let s := demo
     0 < Config.worlds ∧ silenced s 0 = false ∧ v.getLsbD 63 = true ∧ bits v 60 2 = 1 ∧ (worldOf s 0).invctl.getLsbD 62 = false ∧ (∀ kb ∈ s.blocks, kb.2.stash = []) ∧ s.mem.mtlb ≠ []) ∧
    (let s := modWorld demo 0 fun r => { r with invctl := 0x4000000000000000 }; (worldOf s 0).invctl.getLsbD 62 = true ∧ s.mem.locks = [] ∧ ∀ kb ∈ s.blocks, kb.2.stash = []) ∧
    (let s := modMem (modWorld demo 0 fun r => { r with invctl := 0x5000000000000000, invat := 3 }) fun m => { m with locks := [{ ctx := 0, va := 0, size := 4096, pa := 0, pins := 1 }] }
     ∃ l ∈ s.mem.locks, inScope s 0 (worldOf s 0).invctl (worldOf s 0).invat l.ctx l.va l.size = true) ∧
    (2 : Nat) ≠ 0 ∧ (2 : Nat) ≠ 1 ∧ (ringing false).rings.length = 1 ∧ (ringOffer (ringing false) 0 0 [1, 2, 3, 4]).isNone = true := by
  refine ⟨by decide +kernel, by decide +kernel, by decide +kernel, ⟨_, .head _, by decide +kernel⟩, by decide +kernel⟩
/-- A record that its ring takes. -/
theorem witness_TranslationAndReplay_ring : ∃ u, ringOffer (ringing true) 0 0 [1, 2, 3, 4] = some u ∧ u.rings = (ringing true).rings := by
  have h1 : ipaWord (ringing true) 0 0x4000 = some 0 := by decide +kernel
  have h2 : ipaWord (ringing true) 0 (0x4000 + 8) = some 0 := by decide +kernel
  have h3 : ((ringCap (ringing true) 0 0).tag && isUnsealed (ringCap (ringing true) 0 0) && hasPerm (ringCap (ringing true) 0 0) (pLD ||| pST)) = true ∧
      ringCount (capLen (ringCap (ringing true) 0 0)) 32 = some 16 ∧ capBase (ringCap (ringing true) 0 0) = 0x4000 := by decide +kernel
  unfold ringOffer
  simp only [h3.1, h3.2.1, h3.2.2, h1, h2, if_true]
  exact ⟨_, rfl, rfl⟩
/-- Window 5 of this package, to context 1 of world 0 from context 0. -/
def winCase (f : Window → Window) (g : Ctx → Ctx) : State :=
  modCtx { demo with fab := { demo.fab with wins := [(5, f { rctx := 1, npages := 1 })], msgs := [{ id := 2, blk := 0, gix := 0, pid := 0, win := 5, data := 7, delay := 100, since := 0 }] } } 1 fun c => g { c with en := true, st := 1 }
/-- A port with its fields given. -/
def porting (p : Port) : State := { demo with fab := { demo.fab with ports := [(1, p)] } }
/-- A flit of world 2, number 3, with no request or answer. -/
def flit0 : Flit := { seq := 3, world := 2, body := 0, caps := [] }
theorem witness_WindowsMessagesLinks :
    (5 < 4096 ∧ (mget demo.fab.wins 5 {}).en = false ∧ (1 : Nat) ≠ 0) ∧
    (let s := winCase (fun w => { w with en := true }) id
     let w := mget s.fab.wins 5 {}
     let x := ctxOf s w.rctx
     w.en = true ∧ w.opened = false ∧ w.refused = false ∧ w.node = s.fab.node.toNat ∧ x.en = true ∧ x.world = w.rworld ∧ x.peers.length + x.rpeers.length < 64 ∧ x.st = 1) ∧
    (let s := winCase (fun w => { w with en := true }) fun c => { c with en := false }; (ctxOf s (mget s.fab.wins 5 {}).rctx).en = false) ∧
    (let s := winCase (fun w => { w with en := true, opened := true }) fun c => { c with peers := [5] }
     let w := mget s.fab.wins 5 {}
     w.opened = true ∧ s.inbox = [] ∧ (ctxOf s w.ctx).aq.length < 256 ∧ (ctxOf s w.ctx).waiting = [] ∧ w.ctx ≠ w.rctx ∧ s.fab.msgs.length = 1 ∧ w.node = s.fab.node.toNat ∧
     (ctxOf s w.rctx).en = true ∧ (ctxOf s w.rctx).aq.length < 256 ∧ (ctxOf s w.rctx).waiting = []) ∧
    (let s := winCase (fun w => { w with en := true, opened := true }) fun c => { c with aq := List.replicate 256 { kind := 1, src := 0, data := 0 } }
     256 ≤ (ctxOf s (mget s.fab.wins 5 {}).rctx).aq.length) ∧
    (let s := winCase id id; (mget s.fab.wins 5 {}).opened = false ∧ (blockOf s 0).isSome = true ∧ (100 : Nat) ≠ 0) ∧
    (let s := withOut { id := 0, ctr := .st, redm := true, buf := [acc0 (.red .add 1) 4] }
     let u : State := { s with fab := { s.fab with msgs := [{ id := 2, blk := 0, gix := 0, pid := 1, win := 5, data := 7, delay := 0, since := 0 }] } }
     u.fab.msgs.length = 1 ∧ blockOf u 0 = some (blk0 u) ∧ groupOf u 0 0 = some (grp u) ∧ fenceDone (grp u) 5 6 1 = false) ∧
    (let s := winCase (fun w => { w with en := true, opened := true, node := 9 }) id; (mget s.fab.wins 5 {}).opened = true ∧ (mget s.fab.wins 5 {}).node ≠ s.fab.node.toNat ∧ ∀ m ∈ s.fab.msgs, m.delay ≠ 0 ∧ m.sent = false) ∧
    (let s := winCase (fun w => { w with en := true, opened := true, node := 9 }) id; let u : State := { s with fab := { s.fab with msgs := s.fab.msgs.map fun m => { m with sent := true } } }; ∀ m ∈ u.fab.msgs, m.delay ≠ 0 ∧ m.sent = true) ∧
    (let s : State := { demo with fab := { demo.fab with access := [{ tnode := 0, node := 9, world := 3, tworld := 0, lo := 0, len := 64, rights := 8 }] } }
     ∃ e ∈ s.fab.access, e.tnode = s.fab.node.toNat ∧ e.node = 9 ∧ e.world = 3 ∧ e.tworld = (ctxOf s 0).world ∧ e.rights.getLsbD 3 = true) ∧
    ((ctxOf demo 0).en = true ∧ (ctxOf demo 0).aq = [] ∧ (ctxOf demo 0).waiting = [] ∧ demo.fab.access = []) := by
  refine ⟨by decide +kernel, by decide +kernel, by decide +kernel, by decide +kernel, by decide +kernel, by decide +kernel, by decide +kernel, by decide +kernel, by decide +kernel, ⟨_, .head _, by decide +kernel⟩, by decide +kernel⟩
theorem witness_WindowsMessagesLinks_links :
    (let p := portOf (porting { trained := true, rcvd := 3 }) 1; p.trained = true ∧ flit0.seq = p.rcvd ∧ flit0.req = none ∧ flit0.ans = none) ∧
    (let s := porting { trained := true, rcvd := 3 }
     let r : FabReq := { node := 9, world := 2, tworld := 0, pa := 0x1000, time := 5, op := .load 1 }
     reqWaits s { flit0 with req := some r } = none ∧ (reqNeeds r.op).1 ≠ 0 ∧ s.fab.access = []) ∧
    (let s := porting { trained := true, rcvd := 3 }
     let u : State := { s with fab := { s.fab with asks := [(6, 0x200000001000, .load 1)] } }
     let a : FabAns := { id := 6, wts := 4, rts := 9, line := 7, side := 15 }
     (portOf u 1).trained = true ∧ flit0.seq = (portOf u 1).rcvd ∧ u.fab.asks = [(a.id, 0x200000001000, .load 1)] ∧ a.integ = 0 ∧ 0x200000001000 % 64 = 0) ∧
    (let p := portOf (porting { peerSlots := 1 }) 1; (p.sent - p.pFreed).toNat < poolSlots p) ∧
    (let p := portOf (porting { peerRsv := [(2, 1)], peerSlots := 1 }) 1
     poolSlots p ≤ (p.sent - p.pFreed).toNat ∧ (mget p.sentW flit0.world 0 - mget p.pFreedW flit0.world 0).toNat < mget p.peerRsv flit0.world 0) ∧
    (let p := portOf (porting { peerRsv := [(2, 1)], sentW := [(2, 1)], peerSlots := 1 }) 1
     poolSlots p ≤ (p.sent - p.pFreed).toNat ∧ mget p.peerRsv flit0.world 0 ≤ (mget p.sentW flit0.world 0 - mget p.pFreedW flit0.world 0).toNat ∧ p.queue = []) ∧
    (let p := portOf (porting { trained := true, rcvd := 4 }) 1; p.trained = true ∧ flit0.seq ≠ p.rcvd) ∧
    (let p := portOf (porting { held := [flit0], peerRsv := [(2, 1)], peerSlots := 1 }) 1
     p.held = [flit0] ∧ (flit0.seq - p.pRcvd).toNat < 2 ^ 31 ∧ (mget p.sentW flit0.world 0 - mget p.pFreedW flit0.world 0).toNat < mget p.peerRsv flit0.world 0) ∧
    (let p := portOf (porting { held := [flit0], peerRsv := [(2, 1)], sentW := [(2, 1)], peerSlots := 2 }) 1
     mget p.peerRsv flit0.world 0 ≤ (mget p.sentW flit0.world 0 - mget p.pFreedW flit0.world 0).toNat ∧ (p.sent - p.pFreed).toNat < poolSlots p) ∧
    demo.fab.nodeSet = false ∧ (1 : Nat) ≠ 0 ∧ 3 < 64 ∧
    ((List.range 64).filter (· != 3)).foldl (fun m u => m + (worldOf demo u).frsv) 0 + bits (8 : DWord) 0 7 ≤ 1024 ∧
    (let s := modWorld demo 4 fun r => { r with frsv := 1000 }; 1024 < ((List.range 64).filter (· != 3)).foldl (fun m u => m + (worldOf s u).frsv) 0 + bits (127 : DWord) 0 7) := by decide +kernel
/-- World 1 in a TDISP state. -/
def worldIn (t : Tdisp) (f : Trust → Trust) : State := modWorld demo 1 fun r => { r with tdisp := t, t := f r.t }
theorem witness_HostAccess :
    (([1, 2] : List Byte) ≠ [] ∧ 62 % 64 + 2 ≤ 64 ∧ 62 + 2 ≤ Config.hbmBytes ∧ stackReady demo 62 = true ∧ plainTo demo.mem (ringWho demo 0).tag 62 = true ∧ plainTo demo.mem (sealTag demo 0) 62 = true ∧ integOf demo.mem (sealTag demo 0) 62 = 0) ∧
    (let s : State := { demo with blocks := [] }; s.mem.bflip.busy = false ∧ s.blocks = [] ∧ silenced s 0 = false) ∧ (let s := modMem demo fun m => { m with bflip := { len := 1 }, copies := [{ core := 0, ctx := 0, va := 0, pa := 0x1000, data := 0, side := 0, wts := 0, rts := 0 }] }
      s.mem.bflip.busy = false ∧ ∀ kb ∈ s.blocks, ∀ r ∈ kb.2.stash, r.dirty = []) ∧ mget demo.mem.hidden 5 [] = [] ∧ silenced (worldIn .error id) 1 = true ∧
    (let s := modMem demo fun m => { m with bflip := { busy := true, host := true, page := 2, len := 3 } }; s.mem.bflip.busy = true) ∧
    (let s := modMem demo fun m => { m with bflip := { busy := true, host := false, page := 2, len := 1, done := (List.range 64).map fun i => (128 + i, true) } }
     s.mem.bflip.busy = true ∧ s.mem.bflip.host = false ∧ ((List.range 64).all fun i => mget s.mem.bflip.done (128 + i) false) = true) ∧
    (let s := modMem demo fun m => { m with bflip := { busy := true, host := false, page := 2, len := 1 } }
     mget s.mem.bflip.done 128 false = false ∧ 2 ≤ 128 / 64 ∧ 128 / 64 < 2 + s.mem.bflip.len.toNat) ∧
    mfind demo.mem.asked 5 = none ∧ mfind (modMem demo fun m => { m with asked := [(5, 2)] }).mem.asked 5 = some 2 ∧ (1 : Nat) ≠ 0 := by decide +kernel
/-- World 0's trust fields. -/
def trusting (f : Trust → Trust) : State := modWorld demo 0 fun r => { r with t := f { r.t with cdctl := 0x19F, cdbase := 0x4000, cdlen := 64, cdaddr := 0x4000, cddst := 0x2000000000000010, keydst := 0x5000 } }
/-- The premises of a derivation into FBUF. -/
def deriveCase (s : State) (key bad : Bool) : Bool :=
  let t := (worldOf s 0).t
  !t.cdctl.getLsbD 62 && t.cdctl.getLsbD 60 == key && !t.cdctl.getLsbD 61 && badField 0 t == bad && (bad || capRegAt 0 (bits t.cddst 60 4) (bits t.cddst 0 32) == some (.fbuf 0))
/-- Memory with a sealed line at 0x1000 whose MAC slot, at 0x8200, another party has written. -/
def sealedMem : MemSys := { sealed := [(64, (1, 1))], pregs := [(0, (0, 0x200000, 0x8000))], macs := [(64, true)] }
theorem witness_WorldsAndTrust_seal :
    homeOf 0x1000 = .hbm ∧ mget sealedMem.bad (0x1000 / 64) false = false ∧ openPast sealedMem (1, 1) 0x1000 = none ∧ openPast (sealLine sealedMem 0x1000 none) (2, 1) 0x1000 = none ∧ openPast (sealLine {} 0x1000 none) (1, 1) 0x1000 = none ∧ ((2, 1) : Nat × Nat) ≠ (1, 1) ∧ plainLine sealedMem 0x4000 = true ∧
    mfind sealedMem.sealed (0x1000 / 64) = some (1, 1) ∧ mget sealedMem.macs (0x1000 / 64) false = true ∧ macSlot sealedMem 0x1000 = some 0x8200 := by decide +kernel
/-- A memory in which a line's bits and MAC slot hold an earlier content of a world's. -/
theorem witness_WorldsAndTrust_past : ∃ m : MemSys, ∃ l, homeOf 0x1000 = .hbm ∧ mget m.bad (0x1000 / 64) false = false ∧ openPast m (1, 1) 0x1000 = some l := by
  let c : BitVec 512 := Config.xtsLine (worldKey 1 1) (BitVec.ofNat 48 (0x1000 / 64 * 64)) 0
  let k : DWord := pastMac 0x1000 ((1, 1), 0, 0)
  let m0 : MemSys := { pregs := [(0, (0, 0x200000, 0x8000))], past := [(64, [((1, 1), 0, 0)])] }
  refine ⟨memPut (memPut m0 0x1000 (bytesLE 64 c.toNat)) 0x8200 (bytesLE 8 k.toNat), 0, by decide, by decide, ?_⟩
  have h1 := Laws.memBytes_memPut_same m0 0x1000 (bytesLE 64 c.toNat)
  have h2 := Laws.memBytes_memPut_same (memPut m0 0x1000 (bytesLE 64 c.toNat)) 0x8200 (bytesLE 8 k.toNat)
  have h3 := Laws.memBytes_memPut_apart (memPut m0 0x1000 (bytesLE 64 c.toNat)) (pa := 0x8200) (a := 0x1000) (n := 64) (bs := bytesLE 8 k.toNat) (.inl (by decide))
  rw [Laws.length_bytesLE] at h1 h2
  generalize hm : memPut (memPut m0 0x1000 (bytesLE 64 c.toNat)) 0x8200 (bytesLE 8 k.toNat) = m at *
  have e : m.sealed = [] ∧ m.past = m0.past ∧ m.pregs = m0.pregs ∧ m.side = [] := by subst hm; exact ⟨rfl, rfl, rfl, rfl⟩
  have hl : memLine m 0x1000 = c := by
    rw [memLine, memNat, show 0x1000 / 64 * 64 = 0x1000 from rfl, h3, h1, Laws.ofBytesLE_bytesLE, show 256 ^ 64 = 2 ^ 512 by decide +kernel, Nat.mod_eq_of_lt c.isLt]; simp
  have hk : memNat m 0x8200 8 = k.toNat := by
    have := k.isLt
    rw [memNat, h2, Laws.ofBytesLE_bytesLE, Nat.mod_eq_of_lt (by omega)]
  have hs : macSlot m 0x1000 = some 0x8200 := by rw [macSlot, e.2.2.1]; decide
  have hx : sideAt m 0x1000 = 0 := by rw [sideAt, e.2.2.2]; rfl
  simp [openPast, e, m0, mget, mfind, hl, hk, hs, hx, c, k]
/-- A world's write of the line makes a MAC of its own stand in the slot, and a write of the slot by another party takes it out. -/
theorem test_mac_slot :
    (sealLine sealedMem 0x1000 (some (1, 1))).macs = [] ∧ macFree (sealLine sealedMem 0x1000 (some (1, 1))) 0x8200 = false ∧
    (holdMacs (sealLine sealedMem 0x1000 (some (1, 1))) 0x8200).macs = [(64, true)] ∧ macFree sealedMem 0x8200 = true := by decide +kernel
theorem witness_WorldsAndTrust :
    (0 < 1 ∧ 1 < Config.worlds ∧ (∀ d ∈ [Tdisp.unlocked, .locked, .run, .error], (worldOf (worldIn d fun t => { t with session := true }) 1).tdisp = d ∧ (worldOf (worldIn d fun t => { t with session := true }) 1).t.session = true) ∧
     (worldOf (worldIn .unlocked id) 1).t.session = false ∧ (worldOf (worldIn .unlocked fun t => { t with ideOn := true }) 1).t.ideOn = true) ∧
    ((let r := worldOf (worldIn .run fun t => { t with ide := [(1, 9)], session := true }) 1; mfind r.t.ide 1 = some 9 ∧ r.t.session = true) ∧ (worldOf demo 0).tdisp = .unlocked ∧ 15 < 16 ∧
     (let r := worldOf (worldIn .unlocked fun t => { t with session := true }) 1; r.t.session = true ∧ r.t.lockSession = false) ∧ isLocked (worldOf demo 0) = false ∧
     (let r := worldOf (worldIn .run id) 1; isLocked r = true ∧ r.s2root ≠ .ofNat 36 (bits (0x1000 : DWord) 12 36)) ∧
     (let s := worldIn .unlocked fun t => { t with ways := 3 }
      silenced s 0 = false ∧ (4 : BitVec 24) &&& otherWays s 0 = 0 ∧ 4 ≤ sharedWays (4 ||| otherWays s 0) ∧ (1 : BitVec 24) &&& otherWays s 0 ≠ 0 ∧ sharedWays (0xFFFFF0 ||| otherWays s 0) < 4)) ∧
    (silenced (trusting id) 0 = false ∧ deriveCase (trusting id) false false = true ∧ (derived (worldOf (trusting id) 0).t).isOk = true ∧
     deriveCase (trusting fun t => { t with cdbase := 0x200000000000000 }) false false = true ∧ (derived (worldOf (trusting fun t => { t with cdbase := 0x200000000000000 }) 0).t).isOk = false ∧
     deriveCase (trusting fun t => { t with cdctl := 0x200 }) false true = true ∧ deriveCase (trusting fun t => { t with cdctl := 0x1000001000000000 }) true false = true) := by decide +kernel
/-- Where a key operation of number q stores: 0 where its lines are found, 1 where one waits. -/
def placesOf (s : State) (q off n : Nat) : State × Option (List (Nat × Nat)) × Nat :=
  match keyPlaces (modTrust s 0 fun t => { t with keycmd := (t.keycmd &&& ~~~0x0000FF0000000000) ||| .ofNat 64 (q * 2 ^ 40) }) 0 off n with
  | (s1, .val ps) => (s1, some (ps.map fun p => (p.1.pa, p.2)), 0)
  | (s1, .waits) => (s1, none, 1)
  | (s1, .bad) => (s1, none, 2)
theorem witness_WorldsAndTrust_keys :
    (let s := trusting id
     let t0 := (worldOf s 0).t
     t0.keydst.toNat % 64 = 0 ∧ (mget t0.keys (bits t0.keycmd 36 4) {}).alg = none ∧ t0.keycmd.getLsbD 62 = false) ∧
    (let s := trusting fun t => { t with keys := [(0, key0 2)] }
     let t0 := (worldOf s 0).t
     (mget t0.keys (bits t0.keycmd 36 4) {}).alg.isSome = true ∧ s.eng.seals = [] ∧ s.eng.cmds = []) ∧
    (let s := trusting fun t => { t with keydst := 0x5001 }; (worldOf s 0).t.keydst.toNat % 64 ≠ 0) ∧
    (∀ alg ∈ [0, 1], (let r := placesOf (trusting id) (alg + 1) 0 16
      r.2.1 == some [(0x5000, 16)] && match keyPlaces r.1 0 64 (publicLen alg) with | (_, .val qs) => !qs.isEmpty | (_, .waits) => false | (_, .bad) => false) = true) ∧
    (placesOf (modMem (trusting id) fun m => { m with bias := [(5, true)] }) 1 0 16).2 = (none, 1) ∧
    (let r := placesOf (trusting fun t => { t with keys := [(0, key0 2)] }) 4 0 16
     r.2.1 = some [(0x5000, 16)] ∧ 0x5000 % 16 = 0 ∧ homeOf 0x5000 ≠ .host) := by decide +kernel

/-- A context whose revocation block is set. -/
def sweeping (f : Rv → Rv) : State := modCtx demo 0 fun c => { c with rv := f { c.rv with map := mkCap 0x19F 0x4000 4096, areas := [mkCap 0x19F 0x5000 64, {}, {}, {}] } }
/-- A group due for its register sweep, at a switch point. -/
def sweepDueState (f : Group → Group) : State :=
  modBlock (demoWith fun g => f { g with r := demoRegs, sweepDue := some 0 }) 0 fun b => { b with points := [{ n := 3, pkts := [0], nw := 0, ns := 0, nk := 0, scratch := [], acc := none }] }
/-- What a register sweep of the group finds: its words drained, every line of the map read. -/
def readyOn (u : State) : Bool := match groupWith (drainGroup u 0 0) 0 0 with
  | some (b2, g2) => (checkMap (drainGroup u 0 0) b2.ctx (groupCaps b2 g2)).2
  | none => false
/-- A sweep in its second phase, at the granule at `va`. -/
def sweepAt (va : BitVec 64) (f : MemSys → MemSys) : State := modMem (sweeping fun r => { r with busy := true, phase := 2, narea := 1, cur := va }) f
theorem witness_ErrorsAndRevocation :
    (3 < Config.cores ∧ coreCtxs demo 3 = [] ∧ coreCtxs demo 0 = [0] ∧ (mget (modCore demo 3 fun x => { x with resetting := true }).hol.cores 3 {}).resetting = true ∧
     (mget demo.hol.cores 3 {}).resetting = false ∧ 64 * 5 < Config.hbmBytes ∧ demo.hol.errring.tag = false ∧ (3 : Nat) ≠ 4 ∧ (blk0 demo).life = .resident ∧
     (demo.blocks.all fun kb => kb.2.core != 3 || !usesArray kb.2 0) = true ∧ demo.hol.merges = []) ∧
    (0 < Config.contexts ∧ (ctxOf demo 0).rv.busy = false ∧ silenced demo (ctxOf demo 0).world = false ∧ sweepErr (ctxOf demo 0).rv 5 = 3 ∧ sweepErr (ctxOf demo 0).rv 1 = 1 ∧ sweepErr (ctxOf (sweeping id) 0).rv 2 = 2 ∧
     sweepErr (ctxOf (sweeping id) 0).rv 1 = 0 ∧ ((sweeping id).ctxs.filter fun x => x.2.rv.busy && x.2.rv.phase != 0) = [] ∧ 0 < sweepRoom (sweeping id) ∧
     (blk0 (sweeping id)).ctx = 0 ∧ (blk0 (sweeping id)).task = none ∧ (ctxOf (sweeping fun r => { r with busy := true }) 0).rv.busy = true ∧ (1 : Nat) ≠ 0) ∧
    (((grp (sweepDueState id)).splits.all fun p => p.run = none) = true ∧ readyOn (sweepDueState id) = true) ∧
    (let s : State := { sweepDueState fun g => { g with tr := { g.tr with tvec := 0x8000000000000010 } } with gt := 6400 }
     (grp s).sweepDue = some 0 ∧ 0 + 6400 ≤ s.gt ∧ (grp s).pend = none ∧ (grp s).tmode = none ∧ (grp s).inPacket = false ∧ (grp s).tr.tvec.getLsbD 63 = true ∧ (grp s).halt = .no ∧ (grp s).low.isSome = true ∧
     readyOn (normRuns s 0 0) = true ∧ readyOn (modGroup (normRuns s 0 0) 0 0 parkSplits) = true) ∧
    (let s := sweepDueState id
     (grp s).sweepDue = some 0 ∧ (grp s).out = [] ∧ mwf ({} : Cap) (grp s).r.k = true ∧ mwf ({} : Cap) (grp s).r.c = true ∧ (grp s).pend = none ∧ (grp s).tmode = none ∧ (grp s).inPacket = false ∧
     (grp s).tr.tvec.getLsbD 63 = false ∧ ((grp s).splits.any fun p => sweepHere (blk0 s) (grp s) p) = true ∧ s.gt < 0 + 6400 ∧ 0 + 6400 ≤ ({ s with gt := 6400 } : State).gt) ∧
    ((sweepGranule (sweepAt 0x5000 id) 0 0x5000).2 = true ∧ (sweepGranule (sweepAt 0x5030 id) 0 0x5030).2 = true ∧ (sweepGranule (sweepAt 0x5000 fun m => { m with bias := [(5, true)] }) 0 0x5000).2 = false) ∧
    (let r := (ctxOf (sweepAt 0x5000 id) 0).rv
     let a := r.areas.getD r.area {}
     r.busy = true ∧ r.phase = 2 ∧ r.cur.toNat + 16 < capBase a + capLen a ∧ r.cur.toNat + 16 < 2 ^ 64) ∧
    (let r := (ctxOf (sweepAt 0x5030 id) 0).rv
     let a := r.areas.getD r.area {}
     capBase a + capLen a ≤ r.cur.toNat + 16 ∧ nextArea r (r.area + 1) = none) := by decide +kernel
/-- The tests' state with the functions of every world enabled. -/
def live : State := { demo with hol := { demo.hol with sriov := true } }
/-- A wing's state. -/
def wingCase (f : Wing → Wing) : State := modWing { demo with gt := 200000 } 1 f
theorem witness_RepairPowerRegisters :
    (1 < 8 ∧ 30 < Config.cores ∧ 30 / 28 = 1 ∧ coreEmpty demo 30 = true ∧ coreEmpty demo 0 = false ∧ (mget (modCore demo 30 fun x => { x with drain := true }).hol.cores 30 {}).drain = true ∧
     freeSpare (repairOf demo 1) = some 0 ∧ freeSpare (repairOf (modRepair demo 1 fun r => { r with spares := 0 }) 1) = none ∧ (mget demo.hol.cores 30 {}).drain = false ∧
     Config.cores ≤ 224 ∧ 56 / 28 ≠ 1) ∧
    (1 < Config.wings ∧ (let s := wingCase fun w => { w with replan := true, emptyAt := some 0 }; maintenance s (wingSt s 1) = true ∧ s.hol.errring.tag = false) ∧ maintenance demo (wingSt demo 1) = false ∧
     ((List.range 8).all fun l => 20 ≤ ((List.replicate 8 (20 : BitVec 8)).getD l 0).toNat) = true ∧ 20 ≤ (([20, 3] : List (BitVec 8)).getD 0 0).toNat ∧ (wingSt demo 1).replays = [] ∧ bringingUp demo 1 = false ∧ blockOf demo 0 = some (blk0 demo) ∧
     (let s := wingCase fun w => { w with replays := List.replicate 64 150000 }; ((wingSt s 1).replays.filter fun t => decide (s.gt < t + 100000)).length = 64) ∧
     (let w := wingSt (wingCase fun w => { w with plNext := 3 }) 1; w.pl ≠ w.plNext ∧ w.sub = 0) ∧ (wingSt (wingCase fun w => { w with sub := 1 }) 1).sub ≠ 0 ∧ wingCtxs demo 1 = [] ∧ (1 : Nat) ≠ 0) ∧
    (demo.hol.plim = 3000 ∧ 3000 < 3001 ∧ 95 * 3000 ≤ 100 * 2850 ∧ 100 * 2849 < 95 * 3000 ∧ demo.hol.lowAt = none ∧
     (let s : State := { demo with gt := 100000, hol := { demo.hol with lowAt := some 1 } }; s.hol.lowAt = some 1 ∧ s.gt < 1 + 100000 ∧ 0 + 100000 ≤ s.gt)) := by decide +kernel
theorem witness_RepairPowerRegisters_registers :
    ((let s : State := { demo with hol := { demo.hol with booted := true } }; s.hol.booted = true ∧ s.hol.bootFail = false ∧ unitWaits s (.wing 3) = false) ∧ State.reset.hol.booted = false ∧ unitExists (.wing 3) = true ∧ unitWaits demo (.wing 3) = false ∧ unitWaits State.reset (.wing 3) = true ∧ 7 < 8) ∧
    (mayWrite demo 1 (.qcfg 3) = false ∧ 3 < Config.queues ∧ 4 ≤ bits (16 : DWord) 0 5 ∧ bits (16 : DWord) 0 5 ≤ 16 ∧ 3 < Config.worlds ∧ 3 < Config.contexts ∧ (ctxOf demo 3).en = false ∧ (ctxOf demo 0).en = true ∧
     (ctxOf demo 3).st = 0 ∧ silenced demo 0 = false ∧ silenced live 3 = false ∧ (3 : Nat) ≠ (queueOf live 3).world ∧ (1 : DWord).getLsbD 0 = true ∧ State.reset.hol.ready = 0 ∧
     (let s : State := { demo with hol := { demo.hol with ready := 0x8000000000000000 } }; s.hol.ready.getLsbD 63 = true ∧ s.hol.sriov = false) ∧ silenced (worldIn .error id) 1 = true ∧ 1 ≠ (queueOf demo (3 / 64)).world ∧ 1 ≠ (ctxOf demo (3 / 128)).world ∧ 3 < 4096 ∧ (mget demo.fab.wins 3 {}).en = false ∧
     (mget (winCase (fun w => { w with en := true }) id).fab.wins 5 {}).en = true) := by decide +kernel
theorem witness_ResetState : (State.reset.mem.wf = true ∧ (memPut ({} : MemSys) 5 [7]).wf = true) ∧ (worldOf State.reset 63).budget = 1700 := by decide +kernel
/-- A canonical memory, and a step from it that goes on. -/
theorem witness_MemoryCanonicalKept : memoryCanonical placed ∧ ∃ t, step placed = .next t := by
  refine ⟨show placed.mem.wf = true by decide +kernel, ?_⟩
  have h : (match step placed with | .next _ => true | .fault _ => false | .refused _ => false) = true := by decide +kernel
  revert h
  cases step placed with
  | next t => exact fun _ => ⟨t, rfl⟩
  | fault _ => exact fun h => nomatch h
  | refused _ => exact fun h => nomatch h
theorem witness_ScalarZeroRegister : (31 : BitVec 5) ≠ 0 ∧ (30 : BitVec 5) ≠ 31 := by decide

end Sys2Proof.Tests
end

section
/-! PROOFS. The vector integer words, element by element. -/
namespace Sys2Proof.Proofs
open Sys2Proof Sys2Proof.Machine Sys2Proof.Laws

/-! ### Powers of two and small facts -/

theorem two_pow_pos_int (k : Nat) : (0 : Int) < 2 ^ k := Int.pow_pos (by decide)

theorem natCast_two_pow (k : Nat) : ((2 ^ k : Nat) : Int) = 2 ^ k := Int.natCast_pow 2 k

theorem two_pow_succ_int (k : Nat) : (2 : Int) ^ (k + 1) = 2 * 2 ^ k := by rw [Int.pow_succ, Int.mul_comm]

theorem two_pow_le_int {a b : Nat} (h : a ≤ b) : (2 : Int) ^ a ≤ 2 ^ b := by
  rw [← natCast_two_pow, ← natCast_two_pow]
  exact Int.ofNat_le.2 (Nat.pow_le_pow_right (by decide) h)

theorem sum_map_mul_left (c : Nat) (f : Nat → Nat) (xs : List Nat) : (xs.map fun j => c * f j).sum = c * (xs.map f).sum := by
  induction xs with
  | nil => rfl
  | cons x xs ih => rw [List.map_cons, List.sum_cons, ih, List.map_cons, List.sum_cons, Nat.mul_add]

theorem decide_or_eq {p q r : Prop} [Decidable p] [Decidable q] [Decidable r] (h : p ∨ q ↔ r) : (decide p || decide q) = decide r := by
  rw [← Bool.decide_or]
  exact decide_eq_decide.2 h

/-! ### Packed elements -/

theorem packElems_lt (w : Nat) (xs : List Nat) : packElems w xs < 2 ^ (w * xs.length) := by
  induction xs with
  | nil => simp [packElems]
  | cons x xs ih =>
    have hx := Nat.mod_lt x (Nat.two_pow_pos w)
    rw [packElems, List.length_cons, Nat.mul_succ, Nat.pow_add, Nat.mul_comm (2 ^ (w * xs.length))]
    calc x % 2 ^ w + 2 ^ w * packElems w xs < 2 ^ w * (packElems w xs + 1) := by rw [Nat.mul_succ]; omega
      _ ≤ 2 ^ w * 2 ^ (w * xs.length) := Nat.mul_le_mul_left _ ih

/-- An element taken out of packed elements is the one put in, cut to its width. -/
theorem packElems_get (w : Nat) (xs : List Nat) (j : Nat) (hj : j < xs.length) :
    packElems w xs / 2 ^ (w * j) % 2 ^ w = xs[j] % 2 ^ w := by
  induction xs generalizing j with
  | nil => simp at hj
  | cons x xs ih =>
    cases j with
    | zero => simp [packElems]
    | succ j =>
      rw [Nat.mul_succ, Nat.add_comm, Nat.pow_add, ← Nat.div_div_eq_div_mul, packElems,
        Nat.add_mul_div_left _ _ (Nat.two_pow_pos w), Nat.div_eq_of_lt (Nat.mod_lt _ (Nat.two_pow_pos w)), Nat.zero_add]
      simpa using ih j (by simpa using hj)

/-- Packed elements as a sum over the positions. -/
theorem packElems_map_range (w n : Nat) (f : Nat → Nat) :
    packElems w ((List.range n).map f) = ((List.range n).map fun j => f j % 2 ^ w * 2 ^ (w * j)).sum := by
  induction n generalizing f with
  | zero => rfl
  | succ n ih =>
    rw [List.range_succ_eq_map, List.map_cons, List.map_map, packElems, ih, List.map_cons, List.sum_cons, List.map_map, ← sum_map_mul_left]
    have hj : ∀ j, 2 ^ w * (f (j + 1) % 2 ^ w * 2 ^ (w * j)) = f (j + 1) % 2 ^ w * 2 ^ (w * (j + 1)) := fun j => by
      rw [Nat.mul_succ, Nat.pow_add, Nat.mul_left_comm, Nat.mul_comm (2 ^ w)]
    simp only [Function.comp_def, Nat.succ_eq_add_one, hj, Nat.mul_zero, Nat.pow_zero, Nat.mul_one]

/-- What a lane's value needs of its type: some width, and 32 bits of elements or one element of 64. -/
def laneTy (t : IntTy) : Prop := t.w ≠ 0 ∧ (t.w = 64 ∧ t.n = 1 ∨ t.w ≠ 64 ∧ t.w * t.n = 32)

theorem laneTy_tyOf (y : BitVec 3) : laneTy (tyOf y) := by
  unfold laneTy
  revert y
  decide

theorem laneTy_tyB (y : BitVec 1) : laneTy (tyB y) := laneTy_tyOf _

theorem laneTy_tyM (y : BitVec 2) : laneTy (tyM y) := by
  unfold laneTy
  revert y
  decide

theorem laneTy.bits_le {t : IntTy} (h : laneTy t) : t.w * t.n ≤ 64 := by
  obtain ⟨_, ⟨hw, hn⟩ | ⟨_, h32⟩⟩ := h
  · simp [hw, hn]
  · omega

/-- A lane value put together from elements has them. -/
theorem elemBits_ofNat_packElems {t : IntTy} (h : t.w * t.n ≤ 64) (f : Nat → Nat) {j : Nat} (hj : j < t.n) :
    elemBits t (BitVec.ofNat 64 (packElems t.w ((List.range t.n).map f))) j = f j % 2 ^ t.w := by
  have hlt : packElems t.w ((List.range t.n).map f) < 2 ^ 64 :=
    Nat.lt_of_lt_of_le (packElems_lt _ _) (Nat.pow_le_pow_right (by decide) (by rw [List.length_map, List.length_range]; exact h))
  rw [elemBits, BitVec.toNat_ofNat, Nat.mod_eq_of_lt hlt, packElems_get _ _ _ (by rw [List.length_map, List.length_range]; exact hj),
    List.getElem_map, List.getElem_range]

theorem elemBits_lt (t : IntTy) (v : DWord) (j : Nat) : elemBits t v j < 2 ^ t.w := Nat.mod_lt _ (Nat.two_pow_pos _)

/-- Bits of a width read as signed are the bit vector's integer. -/
theorem signed_mod {w : Nat} (hw : w ≠ 0) (x : Nat) : signed w (x % 2 ^ w) = (BitVec.ofNat w x).toInt := by
  obtain ⟨k, rfl⟩ := Nat.exists_eq_succ_of_ne_zero hw
  simp only [signed, BitVec.toInt_eq_toNat_cond, BitVec.toNat_ofNat, Nat.succ_eq_add_one, Nat.add_sub_cancel, Nat.pow_succ]
  split <;> split <;> push_cast <;> omega

/-- The range of an element by its type's signedness. -/
theorem elemInt_bounds (t : IntTy) (v : DWord) (j : Nat) :
    (if t.sgn then -2 ^ t.w else 0) ≤ 2 * elemInt t v j ∧ 2 * elemInt t v j < (if t.sgn then 2 ^ t.w else 2 * 2 ^ t.w) := by
  rw [elemInt]
  generalize BitVec.ofNat t.w (v.toNat / 2 ^ (t.w * j)) = x
  cases t.sgn
  · have : (x.toNat : Int) < 2 ^ t.w := natCast_two_pow t.w ▸ Int.ofNat_lt.2 x.isLt
    simp only [Bool.false_eq_true, if_false]
    omega
  · exact ⟨BitVec.le_two_mul_toInt, BitVec.two_mul_toInt_lt⟩

/-- Two elements of one type are less than 2^w apart. -/
theorem natAbs_elemInt_sub_lt (t : IntTy) (a b : DWord) (j k : Nat) : (elemInt t a j - elemInt t b k).natAbs < 2 ^ t.w := by
  have ha := elemInt_bounds t a j
  have hb := elemInt_bounds t b k
  have hp := natCast_two_pow t.w
  cases hs : t.sgn <;> simp only [hs, if_true, if_false, Bool.false_eq_true] at ha hb <;> omega

/-- The model's element in a type's signedness is the statement's. -/
theorem elem_eq_elemInt {t : IntTy} (hw : t.w ≠ 0) (v : DWord) (j : Nat) : elem t v j = elemInt t v j := by
  simp only [elem, elemInt, elemBits, signed_mod hw, BitVec.toNat_ofNat]

theorem wrapTo_eq (w : Nat) (e : Int) : wrapTo w e = (e % 2 ^ w).toNat := by
  rw [wrapTo, natCast_two_pow]
  rfl

theorem wrapTo_lt (w : Nat) (e : Int) : wrapTo w e < 2 ^ w := by
  have hp := two_pow_pos_int w
  rw [wrapTo_eq, Int.toNat_lt (Int.emod_nonneg _ (Int.ne_of_gt hp)), natCast_two_pow]
  exact Int.emod_lt_of_pos e hp

/-- What is written of an exact value, wrapped or clamped. -/
theorem fit_eq_fitBits (t : IntTy) (sat : Bool) (e : Int) : (if sat then satTo t e else wrapTo t.w e) = fitBits t sat e := by
  cases sat <;> simp [fitBits, satTo, wrapTo_eq]

theorem fitBits_lt (t : IntTy) (sat : Bool) (e : Int) : fitBits t sat e < 2 ^ t.w := by
  rw [← fit_eq_fitBits]
  cases sat <;> exact wrapTo_lt _ _

/-- A natural number that fits is written as it is. -/
theorem fitBits_of_lt {t : IntTy} {n : Nat} (h : n < 2 ^ t.w) : fitBits t false n = n := by
  simp only [fitBits, Bool.false_eq_true, if_false]
  rw [← natCast_two_pow, ← Int.natCast_emod, Int.toNat_natCast, Nat.mod_eq_of_lt h]

/-- An element of an element-wise result. -/
theorem elemBits_mapElems {t : IntTy} (ht : laneTy t) (sat : Bool) (op : Int → Int → Int → Int) (a b d : DWord) {j : Nat} (hj : j < t.n) :
    elemBits t (mapElems t sat op a b d) j = fitBits t sat (op (elemInt t a j) (elemInt t b j) (elemInt t d j)) := by
  rw [mapElems, elemBits_ofNat_packElems ht.bits_le _ hj]
  dsimp only
  rw [fit_eq_fitBits, Nat.mod_eq_of_lt (fitBits_lt _ _ _)]
  simp only [elem_eq_elemInt ht.1]

/-! ### Flags -/

/-- The zero test of a lane value, over the bits of its elements. -/
theorem isZero_eq {t : IntTy} (ht : laneTy t) (v : DWord) : isZero t v = decide (v.toNat % 2 ^ (t.w * t.n) = 0) := by
  obtain ⟨_, ⟨hw, hn⟩ | ⟨hw, h32⟩⟩ := ht
  · simp only [isZero, hw, hn]
    simp [BitVec.toNat_eq, Nat.mod_eq_of_lt v.isLt, Bool.beq_eq_decide_eq]
  · simp [isZero, hw, h32, BitVec.toNat_eq, Bool.beq_eq_decide_eq]

/-- The top element as its bits and as signed, in the statement's words. -/
theorem elemInt_unsigned {t : IntTy} (hw : t.w ≠ 0) (v : DWord) (j : Nat) : elemInt { t with sgn := false } v j = elemBits t v j :=
  (elem_eq_elemInt (t := { t with sgn := false }) hw v j).symm

theorem elemInt_signed {t : IntTy} (hw : t.w ≠ 0) (v : DWord) (j : Nat) : elemInt { t with sgn := true } v j = signed t.w (elemBits t v j) :=
  (elem_eq_elemInt (t := { t with sgn := true }) hw v j).symm

theorem addCC_eq_sumFlags {t : IntTy} (ht : laneTy t) (a b : DWord) (cin : Bool) (v : DWord) :
    addCC t a b cin v = sumFlags t false a b cin v := by
  have hp := natCast_two_pow t.w
  have hq := natCast_two_pow (t.w - 1)
  simp only [addCC, sumFlags, elemInt_unsigned ht.1, elemInt_signed ht.1, isZero_eq ht, topBit, IntTy.top, Bool.false_eq_true, if_false]
  congr 1
  · apply decide_eq_decide.2
    cases cin <;> simp only [Bool.false_eq_true, if_true, if_false] <;> omega
  · apply decide_or_eq
    cases cin <;> simp only [Bool.false_eq_true, if_true, if_false] <;> omega

theorem subCC_eq_sumFlags {t : IntTy} (ht : laneTy t) (a b : DWord) (cin : Bool) (v : DWord) :
    subCC t a b cin v = sumFlags t true a b cin v := by
  have hq := natCast_two_pow (t.w - 1)
  simp only [subCC, sumFlags, elemInt_unsigned ht.1, elemInt_signed ht.1, isZero_eq ht, topBit, IntTy.top, if_true]
  congr 1
  · apply decide_eq_decide.2
    cases cin <;> simp only [Bool.false_eq_true, if_true, if_false] <;> omega
  · apply decide_or_eq
    cases cin <;> simp only [Bool.false_eq_true, if_true, if_false] <;> omega

theorem logicCC_eq {t : IntTy} (ht : laneTy t) (old : CC) (v : DWord) :
    logicCC t old v = { old with z := decide (v.toNat % 2 ^ (t.w * t.n) = 0), n := v.getLsbD (t.w * t.n - 1) } := by
  rw [logicCC, isZero_eq ht, topBit]

/-! ### Words -/

/-- An element-wise word of two registers and d writes the exact result of each element, wrapped or clamped. -/
theorem elemsDo_of_elemWord {i : Instr} {t : IntTy} {sat : Bool} {d a b : BitVec 6} {sv : BitVec 1} {op : Int → Int → Int → Int}
    {f : Op → Nat → DWord → CC} {e : Op → Nat → Nat → Nat} (ht : laneTy t)
    (hi : ∀ s, exec i s = elemWord i s t sat d sv (reg t a) (reg t b) op)
    (he : ∀ o l j, e o l j = fitBits t sat (op (elemInt t (o.opnd t a l) j) (elemInt t (o.opnd t b l) j) (elemInt t (o.opnd t d l) j))) :
    ElemsDo i t false d sv e f := by
  intro s o ho
  refine ⟨fun l => mapElems t sat op (o.opnd t a l) (o.opnd t b l) (o.opnd t d l), ?_, fun l j hj => ?_⟩
  · rw [hi, elemWord, issueWord_go _ ho]
    rfl
  · rw [he, elemBits_mapElems ht _ _ _ _ _ hj]

/-- An addition (`dif = false`) or subtraction without a carry writes the sums or differences, and the flags of the top element. -/
theorem elemsDo_of_addWord {i : Instr} {t : IntTy} {sat cc : Bool} (dif : Bool) {d : BitVec 6} {sv : BitVec 1} {x y : Op → Nat → DWord}
    {f : Op → Nat → DWord → CC} {e : Op → Nat → Nat → Nat} (ht : laneTy t)
    (hi : ∀ s, exec i s = addWord i s t sat cc dif false d sv x y fun _ _ => dif)
    (he : ∀ o l j, e o l j = fitBits t sat (if dif then elemInt t (x o l) j - elemInt t (y o l) j else elemInt t (x o l) j + elemInt t (y o l) j))
    (hf : ∀ o l, f o l = sumFlags t dif (x o l) (y o l) dif) :
    ElemsDo i t cc d sv e f := by
  intro s o ho
  refine ⟨fun l => mapElems t sat (fun p q _ => if dif then p - q + 0 else p + q + 0) (x o l) (y o l) 0, ?_, fun l j hj => ?_⟩
  · rw [hi, addWord, issueWord_go _ ho]
    cases dif <;> simp [hf, addCC_eq_sumFlags ht, subCC_eq_sumFlags ht]
  · rw [he, elemBits_mapElems ht _ _ _ _ _ hj]
    simp

/-- The exact bits that each shift gives are the statement's, at every amount. -/
theorem wrapTo_opShl (w x n : Nat) : wrapTo w (opShl w x n) = x * 2 ^ n % 2 ^ w := by
  rw [opShl, wrapTo_eq]
  split
  · next h =>
    rw [Nat.mod_eq_zero_of_dvd (Nat.dvd_trans (Nat.pow_dvd_pow 2 h) (Nat.dvd_mul_left _ x)), Int.zero_emod]
    rfl
  · rw [← natCast_two_pow, ← Int.natCast_emod, Int.toNat_natCast]

theorem wrapTo_opShr {w x : Nat} (hx : x < 2 ^ w) (n : Nat) : wrapTo w (opShr w x n) = x / 2 ^ n := by
  have hlt : x / 2 ^ n < 2 ^ w := Nat.lt_of_le_of_lt (Nat.div_le_self _ _) hx
  rw [opShr, wrapTo_eq]
  split
  · next h =>
    rw [Nat.div_eq_of_lt (Nat.lt_of_lt_of_le hx (Nat.pow_le_pow_right (by decide) h)), Int.zero_emod]
    rfl
  · rw [← natCast_two_pow, ← Int.natCast_emod, Int.toNat_natCast, Nat.mod_eq_of_lt hlt]

/-- From the width on, a right shift with sign copies gives the sign alone. -/
theorem toInt_div_pow_of_le {w n : Nat} (x : BitVec w) (h : w ≤ n) : x.toInt / 2 ^ n = x.toInt / 2 ^ w := by
  have hw : (2 : Int) ^ w ≤ 2 ^ n := two_pow_le_int h
  have hlo := BitVec.le_two_mul_toInt (x := x)
  have hhi := BitVec.two_mul_toInt_lt (x := x)
  have hp := two_pow_pos_int w
  by_cases h0 : 0 ≤ x.toInt
  · rw [Int.ediv_eq_zero_of_lt h0 (by omega), Int.ediv_eq_zero_of_lt h0 (by omega)]
  · rw [Int.ediv_eq_neg_one_of_neg_of_le (by omega) (by omega), Int.ediv_eq_neg_one_of_neg_of_le (by omega) (by omega)]

theorem wrapTo_opSra {w : Nat} (hw : w ≠ 0) {x : Nat} (hx : x < 2 ^ w) (n : Nat) :
    wrapTo w (opSra w x n) = ((BitVec.ofNat w x).toInt / 2 ^ n % 2 ^ w).toNat := by
  have hs : signed w x = (BitVec.ofNat w x).toInt := by rw [← signed_mod hw, Nat.mod_eq_of_lt hx]
  rw [opSra, wrapTo_eq, hs]
  by_cases h : n ≤ w
  · rw [Nat.min_eq_left h, natCast_two_pow]
  · have hle : w ≤ n := by omega
    rw [Nat.min_eq_right hle, natCast_two_pow, toInt_div_pow_of_le _ hle]

/-- A shift of d by an immediate amount writes the shifted bits of each element. -/
theorem elemsDo_of_shiftImm {i : Instr} {t : IntTy} {d : BitVec 6} {sv : BitVec 1} {q : BitVec 11} {op : Nat → Nat → Nat → Int}
    {f : Op → Nat → DWord → CC} {e : Op → Nat → Nat → Nat} (ht : laneTy t)
    (hi : ∀ s, exec i s = shiftImm i s t d sv q op)
    (he : ∀ o l j, e o l j = wrapTo t.w (op t.w (elemBits t (o.opnd t d l) j) (q.toNat % 256))) :
    ElemsDo i t false d sv e f := by
  intro s o ho
  refine ⟨fun l => shiftElems t op (o.opnd t d l) fun _ => q.toNat % 256, ?_, fun l j hj => ?_⟩
  · rw [hi, shiftImm, issueWord_go _ ho]
    simp [bits, Op.flags]
  · simp only [he, shiftElems, elemBits_ofNat_packElems ht.bits_le _ hj, Nat.mod_eq_of_lt (wrapTo_lt _ _)]

/-! ### Immediates -/

/-- A 64-bit operand takes the immediate's signed value. -/
theorem immWide_eq {n : Nat} (i : Imm n) : immWide i = BitVec.ofInt 64 (immInt i) := by
  rw [immWide, immInt]
  cases i.ext <;> rfl

/-- A 32-bit operand takes the low bits of the immediate's signed value. -/
theorem immWord_eq {n : Nat} (i : Imm n) : immWord i = BitVec.ofInt 32 (immInt i) := by
  rw [immWord, immInt]
  cases i.ext with
  | none => rfl
  | one p => rfl
  | two p q =>
    change q.setWidth 8 ++ p = (q ++ p).signExtend 32
    rw [BitVec.signExtend_eq_setWidth_of_le _ (by decide)]
    apply BitVec.eq_of_getLsbD_eq
    intro k hk
    have hk' : k < 24 ∨ k - 24 < 8 := by omega
    simp only [BitVec.getLsbD_setWidth, BitVec.getLsbD_append]
    split <;> simp_all

/-- The low bits of an integer's bit vector are the integer's. -/
theorem toNat_ofInt_mod {w k : Nat} (h : k ≤ w) (z : Int) : (BitVec.ofInt w z).toNat % 2 ^ k = (z % 2 ^ k).toNat := by
  have hw := two_pow_pos_int w
  have hk := two_pow_pos_int k
  have hd : (2 : Int) ^ k ∣ 2 ^ w := by
    rw [← natCast_two_pow, ← natCast_two_pow]
    exact Int.ofNat_dvd.2 (Nat.pow_dvd_pow 2 h)
  have hn : ((2 : Int) ^ k).toNat = 2 ^ k := by rw [← natCast_two_pow, Int.toNat_natCast]
  rw [BitVec.toNat_ofInt, natCast_two_pow, ← Int.emod_emod_of_dvd z hd,
    Int.toNat_emod (Int.emod_nonneg _ (Int.ne_of_gt hw)) (Int.le_of_lt hk), hn]

/-- The immediate operand of a type: every element has the low bits of the immediate (R101). -/
theorem immOf_eq {n : Nat} {t : IntTy} (ht : laneTy t) (i : Imm n) (o : Op) (l : Nat) :
    immOf t i o l = if t.w = 64 then BitVec.ofInt 64 (immInt i)
      else .ofNat 64 ((List.range t.n).map fun j => (BitVec.ofInt 64 (immInt i)).toNat % 2 ^ t.w * 2 ^ (t.w * j)).sum := by
  by_cases h64 : t.w = 64
  · simp [immOf, h64, immWide_eq]
  · have hw : t.w ≤ 32 := by
      obtain ⟨_, ⟨h, _⟩ | ⟨_, h⟩⟩ := ht
      · exact absurd h h64
      · exact Nat.le_of_dvd (by decide) ⟨t.n, h.symm⟩
    have hlow : (immWord i).toNat % 2 ^ t.w = (BitVec.ofInt 64 (immInt i)).toNat % 2 ^ t.w := by
      rw [immWord_eq, toNat_ofInt_mod hw, toNat_ofInt_mod (by omega)]
    have hb : (t.w == 64) = false := beq_eq_false_iff_ne.2 h64
    rw [immOf, hb, if_neg h64, if_neg Bool.false_ne_true, packElems_map_range, hlow]
    simp only [Nat.mod_mod]

theorem tyB_eq (w : BitVec 1) : tyB w = if w = 1 then ⟨1, 64, true⟩ else ⟨1, 32, true⟩ := by
  revert w
  decide

/-- The bits of a bitwise word's immediate. -/
theorem getLsbD_immOf_tyB {n : Nat} (w : BitVec 1) (i : Imm n) (o : Op) (l : Nat) {k : Nat} (hk : k < (tyB w).w) :
    (immOf (tyB w) i o l).getLsbD k = (BitVec.ofInt 64 (immInt i)).getLsbD k := by
  rw [immOf_eq (laneTy_tyB w)]
  generalize BitVec.ofInt 64 (immInt i) = x
  rw [tyB_eq] at hk ⊢
  split at hk
  · simp_all
  · next h =>
    rw [if_neg h]
    have hs : ((List.range 1).map fun j => x.toNat % 2 ^ 32 * 2 ^ (32 * j)).sum = x.toNat % 2 ^ 32 := by simp
    have hk32 : k < 32 := hk
    simp only [if_neg (show ¬ (32 = 64) by decide), hs, BitVec.getLsbD_ofNat, Nat.testBit_mod_two_pow, BitVec.testBit_toNat]
    rw [decide_eq_true hk32, decide_eq_true (show k < 64 by omega), Bool.true_and, Bool.true_and]

/-- A bitwise word of d and an immediate writes the bits combined, and with `.cc` their Z and N. -/
theorem logicImm_does {i : Instr} {w g sv : BitVec 1} {d : BitVec 6} {m : Imm 11} {op : DWord → DWord → DWord} {t : IntTy} (ht : t = tyB w)
    (comb : Bool → Bool → Bool) (hi : ∀ s, exec i s = logicWord i s w g d sv (reg (tyB w) d) (immOf (tyB w) m) op)
    (hop : ∀ x y k, (op x y).getLsbD k = comb (x.getLsbD k) (y.getLsbD k)) :
    ∀ s o, wordOp i s = some o → ∃ v : Nat → DWord,
      exec i s = .next ((o.flags (g == 1) fun l =>
        { o.r.cc l with z := (v l).toNat % 2 ^ t.w = 0, n := (v l).getLsbD (t.w - 1) }).result t d sv v) ∧
      ∀ l k, k < t.w → (v l).getLsbD k = comb ((o.opnd t d l).getLsbD k) ((BitVec.ofInt 64 (immInt m)).getLsbD k) := by
  intro s o ho
  have hl : laneTy t := ht ▸ laneTy_tyB w
  have hn : t.w * t.n = t.w := by
    simp only [ht, tyB_eq]
    split <;> rfl
  refine ⟨fun l => op (o.opnd t d l) (immOf t m o l), ?_, fun l k hk => ?_⟩
  · rw [hi, logicWord, issueWord_go _ ho]
    have hcc := fun l => logicCC_eq hl (o.r.cc l) (op (o.opnd t d l) (immOf t m o l))
    simp only [hn] at hcc
    subst ht
    change Host.Outcome.next ((o.flags (g == 1) fun l => logicCC (tyB w) (o.r.cc l) (op (o.opnd (tyB w) d l) (immOf (tyB w) m o l))).result _ _ _ _) = _
    simp only [hcc]
    rfl
  · rw [hop, ht, getLsbD_immOf_tyB w m o l (ht ▸ hk)]

/-! ### The statements -/

/-- R97, R96, R45: sums and differences with their flags, and the other words element-wise. -/
theorem vectorArithmetic : Claims.VectorArithmetic := by
  intro d a b sv g u y z t h e no
  have ht : laneTy t := laneTy_tyOf y
  have hh : laneTy h := laneTy_tyOf _
  have habs : ∀ (o : Op) l j, (e t a o l j - e t b o l j).natAbs =
      fitBits t false ((e t a o l j - e t b o l j).natAbs : Int) := fun o l j =>
    (fitBits_of_lt (natAbs_elemInt_sub_lt t _ _ j j)).symm
  refine ⟨elemsDo_of_addWord false ht (fun _ => rfl) (fun _ _ _ => rfl) (fun _ _ => rfl),
    elemsDo_of_addWord true ht (fun _ => rfl) (fun _ _ _ => rfl) (fun _ _ => rfl),
    elemsDo_of_elemWord ht (fun _ => rfl) (fun _ _ _ => rfl),
    elemsDo_of_elemWord hh (fun _ => rfl) (fun _ _ _ => ?_),
    elemsDo_of_elemWord ht (fun _ => rfl) (fun _ _ _ => rfl),
    elemsDo_of_elemWord ht (fun _ => rfl) (fun _ _ _ => rfl),
    elemsDo_of_elemWord ht (fun _ => rfl) (fun _ _ _ => rfl),
    elemsDo_of_elemWord ht (fun _ => rfl) habs⟩
  push_cast
  rfl

/-- R101, R102, R104: the register forms with an immediate in place of a source, and the constants. -/
theorem vectorImmediates : Claims.VectorImmediates := by
  unfold Claims.VectorImmediates
  intro d sv g u w y i m q x t n k no cc im el each
  have ht : laneTy t := laneTy_tyOf y
  have hn : n = tyB w := (tyB_eq w).symm
  have himm : ∀ o l, immOf t i o l = each := immOf_eq ht i
  have hlt : ∀ v j, elemBits t v j < 2 ^ t.w := elemBits_lt t
  refine ⟨?_,?_,?_,?_,?_,?_,?_,?_,?_⟩
  · exact elemsDo_of_addWord false ht (fun _ => rfl) (fun o l j => by rw [himm]; rfl) (fun o l => by rw [himm]; rfl)
  · exact logicImm_does hn and (fun _ => rfl) fun p q j => BitVec.getLsbD_and
  · exact logicImm_does hn or (fun _ => rfl) fun p q j => BitVec.getLsbD_or
  · exact elemsDo_of_shiftImm ht (fun _ => rfl) fun o l j => (wrapTo_opShl _ _ _).symm
  · exact elemsDo_of_shiftImm ht (fun _ => rfl) fun o l j => (wrapTo_opShr (hlt _ _) _).symm
  · exact elemsDo_of_shiftImm ht (fun _ => rfl) fun o l j => (wrapTo_opSra ht.1 (hlt _ _) _).symm
  · intro p r hm
    refine wordDoes_of (fun _ => rfl) fun o => ?_
    simp [extTwo, hm, immWide_eq]
  · intro hm
    refine wordDoes_of (fun _ => rfl) fun o => ?_
    have : extTwo m.ext = false := by
      cases he : m.ext with
      | none => rfl
      | one p => rfl
      | two p r => exact absurd he (hm p r)
    simp [this, immWord_eq]
  · refine wordDoes_of (fun _ => rfl) fun o => ?_
    rfl

/-- Settles O18: each word is one of the three shared shapes (element-wise, sum or difference, shift), or a bitwise one, with its exact result. -/
theorem vectorIntegers : Obligations.VectorIntegers := ⟨vectorArithmetic, vectorImmediates⟩

end Sys2Proof.Proofs
end

section
/-! PROOFS. Selections, masked words, integer comparisons, words across lanes and predicate words. -/
namespace Sys2Proof.Proofs
open Sys2Proof Sys2Proof.Machine Sys2Proof.Laws

/-! ### Bits of packed elements -/

/-- A bit of packed elements is a bit of one element. -/
theorem testBit_packElems {w : Nat} (xs : List Nat) {j b : Nat} (hj : j < xs.length) (hb : b < w) :
    (packElems w xs).testBit (w * j + b) = xs[j].testBit b := by
  have h := congrArg (fun n => n.testBit b) (packElems_get w xs j hj)
  simpa [Nat.testBit_mod_two_pow, Nat.testBit_div_two_pow, hb, Nat.add_comm] using h

/-- The bits of an element of a lane value. -/
theorem testBit_elemBits (t : IntTy) (v : DWord) (j b : Nat) :
    (elemBits t v j).testBit b = (decide (b < t.w) && v.getLsbD (t.w * j + b)) := by
  rw [elemBits, Nat.testBit_mod_two_pow, Nat.testBit_div_two_pow, BitVec.testBit_toNat, Nat.add_comm]

/-! ### Selections and masked words -/

/-- The flag test of the model is the statement's. -/
theorem flagTest_eq_flagHolds (r : Regs) (e : BitVec 4) (l : Nat) : flagTest r e l = flagHolds r e l := by
  have hodd : (e.toNat % 2 == 0) = !(e.toNat % 2 == 1) := by
    rcases Nat.mod_two_eq_zero_or_one e.toNat with h | h <;> simp [h]
  unfold flagTest flagHolds bit
  rw [hodd]
  generalize e.toNat / 2 = q
  rcases q with _ | _ | _ | _ | q <;> cases e.toNat % 2 == 1 <;> simp

/-- A mix of two words has each bit from the word that its byte's predicate bit chooses. -/
theorem getLsbD_mixBytes (p : BitVec 4) (x y : Word) {i : Nat} (hi : i < 32) :
    (mixBytes p x y).getLsbD i = if p.getLsbD (i / 8) then x.getLsbD i else y.getLsbD i := by
  have hm : (packElems 8 ((List.range 4).map fun j => if p.getLsbD j then 255 else 0)).testBit i = p.getLsbD (i / 8) := by
    have h := testBit_packElems (w := 8) ((List.range 4).map fun j => if p.getLsbD j then 255 else 0) (j := i / 8) (b := i % 8) (by simp; omega) (by omega)
    rw [Nat.div_add_mod] at h
    rw [h]
    have h255 : Nat.testBit 255 (i % 8) = true := by
      rw [show 255 = 2 ^ 8 - 1 from rfl, Nat.testBit_two_pow_sub_one]
      simp; omega
    simp only [List.getElem_map, List.getElem_range]
    cases p.getLsbD (i / 8) <;> simp [h255]
  simp only [mixBytes, BitVec.getLsbD_or, BitVec.getLsbD_and, BitVec.getLsbD_not, BitVec.getLsbD_ofNat, hm, hi]
  cases p.getLsbD (i / 8) <;> simp

theorem byteAt_mixBytes (p : BitVec 4) (x y : Word) {j : Nat} (hj : j < 4) :
    byteAt (mixBytes p x y) j = if p.getLsbD j then byteAt x j else byteAt y j := by
  apply BitVec.eq_of_getLsbD_eq
  intro b hb
  have hq : (8 * j + b) / 8 = j := by omega
  rw [byteAt, BitVec.getLsbD_extractLsb', getLsbD_mixBytes p x y (by omega), hq]
  cases p.getLsbD j <;> simp [byteAt]

/-- The predicate bits spread over bytes: each byte has the bit of its sub-element (R107). -/
theorem getLsbD_spread {m : BitVec 2} (hm : m.toNat ≤ 2) (p : BitVec 4) {q : Nat} (hq : q < 4) :
    (spread m p).getLsbD q = p.getLsbD (q * 8 / (tyM m).w * ((tyM m).w / 8)) := by
  have h : ∀ m : BitVec 2, m.toNat ≤ 2 → ∀ p : BitVec 4, ∀ q < 4, (spread m p).getLsbD q = p.getLsbD (q * 8 / (tyM m).w * ((tyM m).w / 8)) := by
    decide
  exact h m hm p q hq

theorem tyM_cases (m : BitVec 2) :
    (tyM m).w = 32 ∧ (tyM m).n = 1 ∨ (tyM m).w = 16 ∧ (tyM m).n = 2 ∨ (tyM m).w = 8 ∧ (tyM m).n = 4 := by
  revert m
  decide

/-- A word as a lane value has the same bits. -/
theorem getLsbD_ofNat_toNat (x : Word) {i : Nat} (hi : i < 32) : (BitVec.ofNat 64 x.toNat).getLsbD i = x.getLsbD i := by
  simp [show i < 64 by omega]

/-- A mix by the spread predicate chooses whole sub-elements. -/
theorem elemBits_mixBytes_spread {m : BitVec 2} (hm : m.toNat ≤ 2) (p : BitVec 4) (x y : Word) {j : Nat} (hj : j < (tyM m).n) :
    elemBits (tyM m) (.ofNat 64 (mixBytes (spread m p) x y).toNat) j =
      if p.getLsbD (j * ((tyM m).w / 8)) then elemBits (tyM m) (.ofNat 64 x.toNat) j else elemBits (tyM m) (.ofNat 64 y.toNat) j := by
  have hty := tyM_cases m
  apply Nat.eq_of_testBit_eq
  intro b
  by_cases hb : b < (tyM m).w
  · have hi : (tyM m).w * j + b < 32 := by rcases hty with ⟨hw, hn⟩ | ⟨hw, hn⟩ | ⟨hw, hn⟩ <;> rw [hw] at hb ⊢ <;> omega
    have hq : ((tyM m).w * j + b) / 8 * 8 / (tyM m).w = j := by
      rcases hty with ⟨hw, hn⟩ | ⟨hw, hn⟩ | ⟨hw, hn⟩ <;> rw [hw] at hb ⊢ <;> omega
    rw [testBit_elemBits, getLsbD_ofNat_toNat _ hi, getLsbD_mixBytes _ _ _ hi, getLsbD_spread hm _ (by omega), hq]
    split <;> rw [testBit_elemBits, getLsbD_ofNat_toNat _ hi]
  · rw [testBit_elemBits, decide_eq_false hb, Bool.false_and]
    split <;> rw [testBit_elemBits, decide_eq_false hb, Bool.false_and]

/-- A lane value of 32 bits of elements reads the same from its low word. -/
theorem elemBits_low {t : IntTy} (v : DWord) {j : Nat} (h : t.w * (j + 1) ≤ 32) :
    elemBits t (.ofNat 64 (v.setWidth 32).toNat) j = elemBits t v j := by
  apply Nat.eq_of_testBit_eq
  intro b
  rw [testBit_elemBits, testBit_elemBits]
  by_cases hb : b < t.w
  · have hi : t.w * j + b < 32 := by rw [Nat.mul_succ] at h; omega
    rw [getLsbD_ofNat_toNat _ hi, BitVec.getLsbD_setWidth, decide_eq_true hi, Bool.true_and]
  · rw [decide_eq_false hb, Bool.false_and, Bool.false_and]

/-- A masked word writes the exact result of each selected sub-element and keeps d's others (R107, R108). -/
theorem lanesDo_of_maskedWord {i : Instr} {m : BitVec 2} {d a : BitVec 6} {sv : BitVec 1} {b : Option (BitVec 6)} {p : BitVec 3}
    {op : Int → Int → Int → Int} {t : IntTy} {f : Op → Nat → Nat → Int} (hm : m.toNat ≤ 2) (ht : t = tyM m)
    (hi : ∀ s, exec i s = maskedWord i s m d sv a b p op)
    (hf : ∀ o l j, op (elemInt t (.ofNat 64 (o.src .V a l).toNat) j) (elemInt t (.ofNat 64 ((b.map fun c => o.src .V c l).getD 0).toNat) j)
      (elemInt t 0 j) = f o l j) :
    LanesDo i .V d sv fun o l v => ∀ j, j < t.n → elemBits t (.ofNat 64 v.toNat) j =
      if (o.r.pred p l).getLsbD (j * (t.w / 8)) then fitBits t false (f o l j)
      else elemBits t (.ofNat 64 (o.src .V d l).toNat) j := by
  subst ht
  intro s o ho
  refine ⟨_, by rw [hi, maskedWord, issueWord_go _ ho], fun l j hj => ?_⟩
  have ht := laneTy_tyM m
  have h32 : (tyM m).w * (j + 1) ≤ 32 := by
    rcases tyM_cases m with ⟨hw, hn⟩ | ⟨hw, hn⟩ | ⟨hw, hn⟩ <;> rw [hw] <;> omega
  rw [elemBits_mixBytes_spread hm _ _ _ hj, elemBits_low _ h32, elemBits_mapElems ht _ _ _ _ _ hj, ← hf]
  simp only [BitVec.ofNat_toNat]

theorem tyM_eq {m : BitVec 2} : tyM m = if m = 0 then ⟨1, 32, true⟩ else if m = 1 then ⟨2, 16, true⟩ else ⟨4, 8, true⟩ := by
  revert m
  decide

theorem not_decide_lt_int (a b : Int) : (!decide (a < b)) = decide (b ≤ a) := decide_not.symm.trans (decide_eq_decide.2 Int.not_lt)

theorem not_decide_lt_nat (a b : Nat) : (!decide (a < b)) = decide (b ≤ a) := decide_not.symm.trans (decide_eq_decide.2 Nat.not_lt)

/-- The flags of an integer comparison (R106). -/
theorem cmpCC_eq {t : IntTy} (ht : laneTy t) (a b : DWord) : cmpCC t a b =
    { z := (List.range t.n).all fun j => decide (elemInt t a j = elemInt t b j), n := (List.range t.n).all fun j => decide (elemInt t a j < elemInt t b j),
      c := (List.range t.n).all fun j => !decide (elemInt t a j < elemInt t b j), v := false } := by
  simp only [cmpCC, elem_eq_elemInt ht.1, not_decide_lt_int, Bool.beq_eq_decide_eq]

/-- R105 to R108: a choice of bytes is a choice of whole sub-elements where the predicate is spread. -/
theorem vectorSelectAndCompare : Claims.VectorSelectAndCompare := by
  unfold Claims.VectorSelectAndCompare
  intro d a b sv e p y m hm t k on x masked lt eq
  have hk : k = tyM m := tyM_eq.symm
  refine ⟨fun s o ho => ⟨_, issueWord_go _ ho, fun l => by rw [flagTest_eq_flagHolds]⟩,
    fun s o ho => ⟨_, issueWord_go _ ho, fun l j hj => byteAt_mixBytes _ _ _ hj⟩,
    lanesDo_of_maskedWord (b := some b) (op := fun x z _ => x + z) hm hk (fun _ => rfl) fun _ _ _ => rfl,
    lanesDo_of_maskedWord (b := some b) (op := fun x z _ => x - z) hm hk (fun _ => rfl) fun _ _ _ => rfl,
    lanesDo_of_maskedWord (b := none) (op := fun x _ _ => x) hm hk (fun _ => rfl) fun _ _ _ => rfl, wordDoes_of (fun _ => rfl) fun o => ?_⟩
  simp only [cmpCC_eq (laneTy_tyOf y)]
  rfl

/-! ### Words across lanes -/

/-- The wrapped sum of a source over lanes. -/
theorem sum_eq_ofNat (o : Op) (a : BitVec 6) (ls : List Nat) : o.sum a ls = .ofNat 32 (ls.map fun m => (o.src .V a m).toNat).sum := by
  have h : ∀ (ls : List Nat) (x : Word), ls.foldl (fun x l => x + o.src .V a l) x = x + .ofNat 32 (ls.map fun m => (o.src .V a m).toNat).sum := by
    intro ls
    induction ls with
    | nil => intro x; simp
    | cons l ls ih =>
      intro x
      rw [List.foldl_cons, ih, List.map_cons, List.sum_cons, BitVec.ofNat_add, BitVec.ofNat_toNat, BitVec.setWidth_eq, BitVec.add_assoc]
  rw [Op.sum, h]
  simp

/-- A fold that takes a better value where it meets one ends in one of the values, and none is better. -/
theorem foldl_best (f : Nat → Word) (key : Word → Int) (ls : List Nat) (x : Word) :
    let best := ls.foldl (fun x m => if key x < key (f m) then f m else x) x
    (best = x ∨ ∃ m ∈ ls, best = f m) ∧ key x ≤ key best ∧ ∀ m ∈ ls, key (f m) ≤ key best := by
  induction ls generalizing x with
  | nil => simp
  | cons l ls ih =>
    intro best
    obtain ⟨hfrom, hx, hall⟩ := ih (if key x < key (f l) then f l else x)
    have hmax : key x ≤ key (if key x < key (f l) then f l else x) ∧ key (f l) ≤ key (if key x < key (f l) then f l else x) := by
      split <;> omega
    refine ⟨?_, Int.le_trans hmax.1 hx, List.forall_mem_cons.2 ⟨Int.le_trans hmax.2 hx, hall⟩⟩
    rcases hfrom with h | ⟨m, hm, h⟩
    · by_cases hl : key x < key (f l)
      · exact .inr ⟨l, List.mem_cons_self, h.trans (if_pos hl)⟩
      · exact .inl (h.trans (if_neg hl))
    · exact .inr ⟨m, List.mem_cons_of_mem _ hm, h⟩

/-- The extreme by a key is a source value of an active lane, and no lane's key is greater. -/
theorem extreme_best (o : Op) (a : BitVec 6) (better : Word → Word → Bool) (key : Word → Int)
    (hb : ∀ x y, better x y = decide (key y < key x)) (hne : o.lanes ≠ []) :
    (∃ m ∈ o.lanes, o.extreme a better = o.src .V a m) ∧ ∀ m ∈ o.lanes, key (o.src .V a m) ≤ key (o.extreme a better) := by
  unfold Op.extreme
  cases hl : o.lanes with
  | nil => exact absurd hl hne
  | cons l r =>
    simp only [hb, decide_eq_true_eq]
    obtain ⟨hfrom, hx, hall⟩ := foldl_best (o.src .V a) key r (o.src .V a l)
    refine ⟨?_, List.forall_mem_cons.2 ⟨hx, hall⟩⟩
    rcases hfrom with h | ⟨m, hm, h⟩
    · exact ⟨l, List.mem_cons_self, h⟩
    · exact ⟨m, List.mem_cons_of_mem _ hm, h⟩

/-- R110: lane choices by six bits, wrapped sums, and extremes as folds. -/
theorem crossLane : Claims.CrossLane := by
  intro d a b sv from'
  have hbits : ∀ x : Word, bits x 0 6 = x.toNat % 64 := fun x => by simp [bits]
  refine ⟨wordDoes_of (fun _ => rfl) fun o => ?_, wordDoes_of (fun _ => rfl) fun o => ?_, wordDoes_of (fun _ => rfl) fun o => ?_,
    wordDoes_of (fun _ => rfl) fun o => ?_, fun s o ho => ⟨_, issueWord_go _ ho, fun _ hne => ?_⟩, fun s o ho => ⟨_, issueWord_go _ ho, fun _ hne => ?_⟩⟩
  · simp only [hbits]
    rfl
  · simp only [hbits]
    rfl
  · simp only [sum_eq_ofNat]
  · simp only [sum_eq_ofNat]
  · exact extreme_best o a _ BitVec.toInt (fun x y => rfl) hne
  · obtain ⟨hm, hall⟩ := extreme_best o a (fun x y => x.slt y) (fun x => -x.toInt) (fun x y => by simp [BitVec.slt]) hne
    exact ⟨hm, fun m h => by have := hall m h; omega⟩

/-! ### Predicate words -/

/-- Writes at one key for each lane: a lane written reads as its value, and every other key as before. -/
theorem mget_foldl_mput {α : Type} [DecidableEq α] (d : α) (n : Nat) (f : Nat → α) (ls : List Nat) (m : SMap α) (k : Nat) :
    mget (ls.foldl (fun m l => mput m (n + l) (f l) d) m) k d = if n ≤ k ∧ k - n ∈ ls then f (k - n) else mget m k d := by
  induction ls generalizing m with
  | nil => simp
  | cons l ls ih =>
    rw [List.foldl_cons, ih]
    by_cases hk : k = n + l
    · subst hk
      simp
    · rw [mget_mput_other _ _ _ hk]
      have : ¬ (n ≤ k ∧ k - n = l) := by omega
      grind

theorem mem_lanesOf (act : LaneMask) (l : Nat) : l ∈ lanesOf act ↔ l < 64 ∧ act.getLsbD l = true := by
  simp [lanesOf, bit]

/-- R109: predicate words write the active lanes of one predicate register and nothing else. -/
theorem pred_putPreds (r : Regs) (d : BitVec 3) (act : LaneMask) (f : Nat → BitVec 4) (n : BitVec 3) {l : Nat} (hl : l < 64) :
    (r.putPreds d act f).pred n l = if n = d ∧ act.getLsbD l = true then f l else r.pred n l := by
  rw [Regs.putPreds, Regs.pred, mget_foldl_mput]
  by_cases hn : n = d
  · subst hn
    simp [mem_lanesOf, hl, Regs.pred]
  · have hne : n.toNat ≠ d.toNat := fun h => hn (BitVec.eq_of_toNat_eq h)
    have : ¬ (64 * d.toNat ≤ 64 * n.toNat + l ∧ 64 * n.toNat + l - 64 * d.toNat ∈ lanesOf act) := by
      rw [mem_lanesOf]
      omega
    simp [hn, this, Regs.pred]

theorem getLsbD_byteTests (t : BitVec 4) (x y : Word) {j : Nat} (hj : j < 4) :
    (byteTests t x y).getLsbD j = byteTest t (byteAt x j) (byteAt y j) := by
  rw [byteTests, BitVec.getLsbD_ofNat]
  have h := testBit_packElems (w := 1) ((List.range 4).map fun j => if byteTest t (byteAt x j) (byteAt y j) then 1 else 0) (j := j) (b := 0) (by simpa using hj) (by decide)
  rw [Nat.one_mul, Nat.add_zero] at h
  rw [decide_eq_true hj, Bool.true_and]
  refine h.trans ?_
  simp only [List.getElem_map, List.getElem_range]
  cases byteTest t (byteAt x j) (byteAt y j) <;> rfl

/-- The tests of `pcmp.b` as orders of numbers (R40). -/
theorem byteTest_eq (t : BitVec 4) (x y : Byte) : byteTest t x y = match t.toNat with
    | 0 => decide (x = y) | 1 => decide (x ≠ y) | 2 => decide (x.toInt < y.toInt) | 3 => decide (y.toInt ≤ x.toInt)
    | 4 => decide (x.toNat < y.toNat) | _ => decide (y.toNat ≤ x.toNat) := by
  have hs : x.slt y = decide (x.toInt < y.toInt) := rfl
  have hu : x.ult y = decide (x.toNat < y.toNat) := rfl
  have hcode : ∀ k : Nat, k < 16 → (t == BitVec.ofNat 4 k) = (t.toNat == k) := fun k hk => by
    rw [Bool.eq_iff_iff, beq_iff_eq, beq_iff_eq, BitVec.toNat_eq, BitVec.toNat_ofNat, Nat.mod_eq_of_lt hk]
  have h0 : (t == 0) = (t.toNat == 0) := hcode 0 (by decide)
  have h1 : (t == 1) = (t.toNat == 1) := hcode 1 (by decide)
  have h2 : (t == 2) = (t.toNat == 2) := hcode 2 (by decide)
  have h3 : (t == 3) = (t.toNat == 3) := hcode 3 (by decide)
  have h4 : (t == 4) = (t.toNat == 4) := hcode 4 (by decide)
  simp only [byteTest, hs, hu, h0, h1, h2, h3, h4]
  generalize t.toNat = q
  rcases q with _ | _ | _ | _ | _ | q <;> simp [not_decide_lt_int, not_decide_lt_nat, Bool.beq_eq_decide_eq, bne]

/-- R109, R40: four bits in each active lane. -/
theorem predicateWords : Claims.PredicateWords := by
  intro d p q a b t e put test
  have hflag : ∀ (o : Op) l, flagTest o.r e l = flagHolds o.r e l := fun o l => flagTest_eq_flagHolds _ _ _
  refine ⟨fun r act f n l hl => ⟨pred_putPreds r d act f n hl, rfl⟩, fun s o ho => ⟨_, issueWord_go _ ho, fun l j hj => ?_⟩,
    wordDoes_of (fun _ => rfl) fun o => rfl, wordDoes_of (fun _ => rfl) fun o => rfl, wordDoes_of (fun _ => rfl) fun o => rfl,
    wordDoes_of (fun _ => rfl) fun o => rfl, wordDoes_of (fun _ => rfl) fun o => ?_⟩
  · rw [getLsbD_byteTests _ _ _ hj]
    exact byteTest_eq t _ _
  · simp only [hflag]
    rfl

/-- Settles O20: a predicate spread over bytes chooses whole sub-elements; sums and extremes are folds over the active lanes. -/
theorem vectorSelectsAndLanes : Obligations.VectorSelectsAndLanes := ⟨vectorSelectAndCompare, crossLane, predicateWords⟩

end Sys2Proof.Proofs
end

section
/-! PROOFS. Functions of one operand: their words, the class, and their special values. -/
namespace Sys2Proof.Proofs
open Sys2Proof Sys2Proof.Machine Sys2Proof.Laws

/-! ### The fields of a float -/

theorem two_mul_signBit (f : FFmt) : 2 ^ (1 + f.eb + f.fb) = 2 * f.signBit := by
  rw [FFmt.signBit, Nat.add_assoc, Nat.pow_add, Nat.pow_one]

/-- The top bit of a number of one bit more than 2^k says whether it has reached 2^k. -/
theorem div_mod_two_eq_one {x s : Nat} (h : x < 2 * s) : (x / s % 2 == 1) = decide (s ≤ x) := by
  have hs : 0 < s := by omega
  have hlt : x / s < 2 := Nat.div_lt_of_lt_mul (by omega)
  have hle : s ≤ x ↔ 1 ≤ x / s := by rw [Nat.le_div_iff_mul_le hs, Nat.one_mul]
  rw [Bool.eq_iff_iff, beq_iff_eq, decide_eq_true_eq, hle]
  generalize x / s = q at hlt
  omega

/-- R115: the class of a float by its sign, exponent and fraction fields. -/
theorem fclass_eq (f : FFmt) {x : Nat} (hx : x < 2 ^ (1 + f.eb + f.fb)) :
    let neg : Bool := 2 ^ (f.eb + f.fb) ≤ x
    let e := x / 2 ^ f.fb % 2 ^ f.eb
    let m := x % 2 ^ f.fb
    fclass f x = 2 ^ (
      if e = 2 ^ f.eb - 1 then (if m = 0 then (if neg then 0 else 7) else if m < 2 ^ (f.fb - 1) then 8 else 9)
      else if e = 0 then (if m = 0 then (if neg then 3 else 4) else if neg then 2 else 5)
      else if neg then 1 else 6) := by
  intro neg e m
  have hn : (x / f.signBit % 2 == 1) = neg := div_mod_two_eq_one (two_mul_signBit f ▸ hx)
  have hm : m < 2 ^ f.fb := Nat.mod_lt _ (Nat.two_pow_pos _)
  have hd : fdec f x = if e == 2 ^ f.eb - 1 then (if m == 0 then .inf neg else .nan (m < 2 ^ (f.fb - 1)))
      else if e == 0 then .fin neg m (1 - (f.bias : Int) - f.fb) else .fin neg (m + 2 ^ f.fb) ((e : Int) - f.bias - f.fb) := by
    rw [← hn]; rfl
  clear_value neg e m
  rw [fclass, hd]
  by_cases he : e = 2 ^ f.eb - 1
  · by_cases h0 : m = 0
    · cases neg <;> simp [he, h0]
    · by_cases hq : m < 2 ^ (f.fb - 1) <;> simp [he, h0, hq]
  · by_cases h0 : e = 0
    · subst h0
      by_cases hm0 : m = 0 <;> cases neg <;> simp [he, hm0, hm]
    · cases neg <;> simp [he, h0]

/-- R114, R115: the words, and the class by the three fields. -/
theorem floatUnary : Claims.FloatUnary := by
  intro d a sv r y f fun'
  refine ⟨wordDoes_of (fun _ => rfl) fun o => rfl, wordDoes_of (fun _ => rfl) fun o => rfl, wordDoes_of (fun _ => rfl) fun o => rfl,
    wordDoes_of (fun _ => rfl) fun o => rfl, wordDoes_of (fun _ => rfl) fun o => rfl, wordDoes_of (fun _ => rfl) fun o => rfl,
    wordDoes_of (fun _ => rfl) fun o => rfl, wordDoes_of (fun _ => rfl) fun o => rfl, wordDoes_of (fun _ => rfl) fun o => rfl,
    wordDoes_of (fun _ => rfl) fun o => rfl, wordDoes_of (fun _ => rfl) fun o => rfl, fun g _ x hx => fclass_eq g hx⟩

/-- R114: closed facts, each one evaluation of the function. -/
theorem functionSpecialValues : Claims.FunctionSpecialValues := by
  unfold Claims.FunctionSpecialValues
  decide +kernel

/-- Settles O22: the class is read off the three fields, and the special values are closed facts. -/
theorem floatFunctions : Obligations.FloatFunctions := ⟨floatUnary, functionSpecialValues⟩

end Sys2Proof.Proofs
end

section
/-! PROOFS. Floating-point arithmetic words and conversions. -/
namespace Sys2Proof.Proofs
open Sys2Proof Sys2Proof.Machine Sys2Proof.Laws

/-- R111 to R113: each word is its one effect. -/
theorem floatArithmetic : Claims.FloatArithmetic := by
  intro d a b sv r y f x m
  refine ⟨wordDoes_of (fun _ => rfl) fun o => rfl, wordDoes_of (fun _ => rfl) fun o => rfl, wordDoes_of (fun _ => rfl) fun o => rfl,
    wordDoes_of (fun _ => rfl) fun o => rfl, wordDoes_of (fun _ => rfl) fun o => rfl, wordDoes_of (fun _ => rfl) fun o => rfl,
    wordDoes_of (fun _ => rfl) fun o => rfl, wordDoes_of (fun _ => rfl) fun o => ?_⟩
  rfl

/-- The effect of a conversion word, with or without `.sat`. -/
theorem cvtWord_effect {i : Instr} {sat : Bool} {d a : BitVec 6} {sv : BitVec 1} {t u : BitVec 4} {r : BitVec 3}
    (hi : ∀ s, exec i s = cvtWord i s sat d sv a t u r) : WordDoes i fun o =>
      let rs : Bool := u = 0 ∧ (t = 1 ∨ t = 2)
      let v : Nat → DWord × Bool := fun l =>
        convert sat o.sub (o.mode r rs l 0) t u (if cvt64 u then o.src64 a l else .ofNat 64 (o.src .V a l).toNat)
      let q := o.fx fun l => (v l).2
      if cvt64 t then q.put64 .V d sv fun l => (v l).1 else q.put .V d sv fun l => .ofNat 32 (v l).1.toNat := by
  refine wordDoes_of hi fun o => ?_
  have hrs : (u == 0 && (t == 1 || t == 2)) = decide (u = 0 ∧ (t = 1 ∨ t = 2)) := by
    simp [Bool.beq_eq_decide_eq]
  simp only [hrs, BitVec.ofNat_toNat]

/-- R116 to R120: the conversion words share one effect. -/
theorem floatConversions : Claims.FloatConversions := by
  intro d a b sv t u r z n cvt k
  have hor : (u == 4 || u == 5) = decide (u = 4 ∨ u = 5) := by simp [Bool.beq_eq_decide_eq]
  refine ⟨cvtWord_effect fun _ => rfl, cvtWord_effect fun _ => rfl, wordDoes_of (fun _ => rfl) fun o => rfl,
    wordDoes_of (fun _ => rfl) fun o => rfl, wordDoes_of (fun _ => rfl) fun o => ?_⟩
  simp only [hor, decide_eq_true_eq]

/-! ### Conversions between integers and floats -/

/-- The least value of an integer type. -/
def tyLo (t : IntTy) : Int := if t.sgn then -2 ^ (t.w - 1) else 0

/-- The greatest value of an integer type. -/
def tyHi (t : IntTy) : Int := if t.sgn then 2 ^ (t.w - 1) - 1 else 2 ^ t.w - 1

/-- Bits of a type's width read back by its signedness. -/
def readBits (t : IntTy) (n : Nat) : Int := if t.sgn then signed t.w n else n

theorem tyHi_sub_tyLo {t : IntTy} (hw : t.w ≠ 0) : tyHi t - tyLo t = 2 ^ t.w - 1 := by
  obtain ⟨k, hk⟩ := Nat.exists_eq_succ_of_ne_zero hw
  unfold tyHi tyLo
  rw [hk, Nat.succ_sub_one, Nat.succ_eq_add_one, two_pow_succ_int]
  cases t.sgn <;> simp only [if_true, if_false, Bool.false_eq_true] <;> omega

theorem elem_eq_readBits (t : IntTy) (v : DWord) (j : Nat) : elem t v j = readBits t (elemBits t v j) := rfl

/-- The low bits of a value, read back: in the type's range, and the value modulo 2^w. -/
theorem readBits_wrapTo {t : IntTy} (hw : t.w ≠ 0) (x : Int) :
    tyLo t ≤ readBits t (wrapTo t.w x) ∧ readBits t (wrapTo t.w x) ≤ tyHi t ∧ (2 : Int) ^ t.w ∣ readBits t (wrapTo t.w x) - x := by
  obtain ⟨k, hk⟩ := Nat.exists_eq_succ_of_ne_zero hw
  have hp : (2 : Int) ^ t.w = 2 * 2 ^ k := by rw [hk, Nat.succ_eq_add_one, two_pow_succ_int]
  have hpos := two_pow_pos_int t.w
  have hk1 : t.w - 1 = k := by omega
  have hr0 : 0 ≤ x % 2 ^ t.w := Int.emod_nonneg _ (Int.ne_of_gt hpos)
  have hr1 : x % 2 ^ t.w < 2 ^ t.w := Int.emod_lt_of_pos _ hpos
  have hd : (2 : Int) ^ t.w ∣ x % 2 ^ t.w - x := ⟨-(x / 2 ^ t.w), by
    rw [Int.mul_neg]
    have := Int.emod_add_mul_ediv x (2 ^ t.w)
    omega⟩
  have hcast : ((x % 2 ^ t.w).toNat : Int) = x % 2 ^ t.w := Int.toNat_of_nonneg hr0
  simp only [tyLo, tyHi, readBits, signed, wrapTo_eq, hk1, hcast]
  cases t.sgn
  · simp only [Bool.false_eq_true, if_false]
    exact ⟨hr0, by omega, hd⟩
  · have hlt : (x % 2 ^ t.w).toNat < 2 ^ k ↔ x % 2 ^ t.w < 2 ^ k := by rw [← Int.ofNat_lt, hcast, natCast_two_pow]
    simp only [if_true, hlt]
    split
    · exact ⟨by omega, by omega, hd⟩
    · exact ⟨by omega, by omega, by
        rw [show x % 2 ^ t.w - 2 ^ t.w - x = x % 2 ^ t.w - x - 2 ^ t.w by omega]
        exact Int.dvd_sub hd (Int.dvd_refl _)⟩

/-- R45, R116: what an integer conversion delivers of an exact value: within the type, clamped with `.sat` and else equal modulo 2^w, and whether it
was out of the range. -/
theorem intResult_gives {t : IntTy} (hw : t.w ≠ 0) (sat : Bool) (e : Int) :
    ∃ v : Int, tyLo t ≤ v ∧ v ≤ tyHi t ∧ intResult t sat e = (.ofInt 64 v, decide (e < tyLo t ∨ tyHi t < e)) ∧
      if sat then v = max (tyLo t) (min (tyHi t) e) else (v - e) % 2 ^ t.w = 0 := by
  have hlo : (if t.sgn then -((2 ^ (t.w - 1) : Nat) : Int) else 0) = tyLo t := by rw [tyLo, natCast_two_pow]
  have hhi : (if t.sgn then ((2 ^ (t.w - 1) : Nat) : Int) - 1 else ((2 ^ t.w : Nat) : Int) - 1) = tyHi t := by
    rw [tyHi, natCast_two_pow, natCast_two_pow]
  have hread : ∀ n, (if t.sgn then signed t.w n else n) = readBits t n := fun n => rfl
  have hspan := tyHi_sub_tyLo hw
  have hpos := two_pow_pos_int t.w
  cases sat
  · obtain ⟨h1, h2, h3⟩ := readBits_wrapTo hw e
    refine ⟨_, h1, h2, ?_, Int.emod_eq_zero_of_dvd h3⟩
    simp only [intResult, hlo, hhi, hread]
    simp
  · obtain ⟨h1, h2, h3⟩ := readBits_wrapTo hw (max (tyLo t) (min (tyHi t) e))
    refine ⟨_, h1, h2, ?_, ?_⟩
    · simp only [intResult, satTo, hlo, hhi, hread]
      simp
    · have hcast := natCast_two_pow t.w
      have habs : ((2 : Int) ^ t.w).natAbs = 2 ^ t.w := by rw [← hcast, Int.natAbs_natCast]
      have h0 := Nat.eq_zero_of_dvd_of_lt (habs ▸ Int.natAbs_dvd_natAbs.2 h3) (by omega)
      simp only [if_true]
      omega

/-- The integer types of the conversion codes (R38). -/
theorem cvtInt_eq {c : BitVec 4} (h3 : 3 ≤ c.toNat) (h10 : c.toNat ≤ 10) :
    cvtInt c = ⟨1, if c.toNat ≤ 4 then 8 else if c.toNat ≤ 6 then 16 else if c.toNat ≤ 8 then 32 else 64, c.toNat % 2 == 1⟩ := by
  revert c
  decide

/-- Infinity converted with `.sat` is the end of the type's range of its sign. -/
theorem intResult_inf {t : IntTy} (hw : t.w ≠ 0) (h64 : t.w ≤ 64) (n : Bool) :
    (intResult t true (if n then -((2 ^ 70 : Nat) : Int) else ((2 ^ 70 : Nat) : Int))).1 = .ofInt 64 (if n then tyLo t else tyHi t) := by
  obtain ⟨v, h1, h2, hr, hv⟩ := intResult_gives hw true (if n then -((2 ^ 70 : Nat) : Int) else ((2 ^ 70 : Nat) : Int))
  have hspan := tyHi_sub_tyLo hw
  have hle : (2 : Int) ^ t.w ≤ 2 ^ 64 := two_pow_le_int h64
  have hp := two_pow_pos_int (t.w - 1)
  have hlo : tyLo t ≤ 0 := by
    unfold tyLo
    split <;> omega
  have hhi : 0 ≤ tyHi t := by
    have hq := two_pow_pos_int t.w
    unfold tyHi
    split <;> omega
  rw [hr]
  simp only [if_true] at hv
  cases n <;> simp only [if_true, if_false, Bool.false_eq_true] at hv ⊢ <;> congr 1 <;> omega

theorem convert_integer {sat sub : Bool} {mode : RMode} {t u : BitVec 4} {x : DWord} (ht : 3 ≤ t.toNat) (hu : 3 ≤ u.toNat) :
    convert sat sub mode t u x = intResult (cvtInt t) sat (elem (cvtInt u) x 0) := by
  rw [convert, if_pos ht, if_pos hu]

theorem convert_floatToInt {sat sub : Bool} {mode : RMode} {t u : BitVec 4} {x : DWord} (ht : 3 ≤ t.toNat) (hu : u.toNat < 3) :
    convert sat sub mode t u x =
      floatToInt (fmtOf (u.setWidth 2)) sub sat mode (cvtInt t) (x.toNat % (2 * (fmtOf (u.setWidth 2)).signBit)) := by
  rw [convert, if_pos ht, if_neg (Nat.not_le.2 hu)]

/-- R60: infinity delivered to a 16-bit float type, the largest finite value of its sign with `.sat`. -/
theorem toFloat_inf {f : FFmt} (hf : f = f16 ∨ f = bf16) (sub sat : Bool) (mode : RMode) (n : Bool) :
    toFloat f sub sat mode (.inf n) = ⟨(if n then f.signBit else 0) + (if sat then f.infBits - 1 else f.infBits), sat⟩ := by
  change flush f sub (satFloat f sat (.inf n) ⟨(if n then f.signBit else 0) + f.infBits, false⟩) = _
  rcases hf with rfl | rfl
  · revert n sat sub; decide
  · revert n sat sub; decide

/-- R116: infinity converted to a 16-bit float. -/
theorem convert_inf {sat sub : Bool} {mode : RMode} {t u : BitVec 4} {x : DWord} {n : Bool} (ht : t = 1 ∨ t = 2) (hu : u.toNat < 3)
    (hx : fdecSub (fmtOf (u.setWidth 2)) sub (x.toNat % (2 * (fmtOf (u.setWidth 2)).signBit)) = .inf n) :
    let g := fmtOf (t.setWidth 2)
    convert sat sub mode t u x = (.ofNat 64 ((if n then g.signBit else 0) + (if sat then g.infBits - 1 else g.infBits)), sat) := by
  have ht3 : ¬ 3 ≤ t.toNat := by rcases ht with rfl | rfl <;> decide
  rw [convert, if_neg ht3, if_neg (Nat.not_le.2 hu)]
  dsimp only
  rw [hx]
  have hf : fmtOf (t.setWidth 2) = f16 ∨ fmtOf (t.setWidth 2) = bf16 := by
    rcases ht with rfl | rfl
    · exact .inl rfl
    · exact .inr rfl
  have h0 : (t != 0) = true := by rcases ht with rfl | rfl <;> rfl
  rw [h0, Bool.and_true, toFloat_inf hf]

/-- A source integer by its code: the bits of its width, less 2^w where a signed one has its top bit set. -/
theorem elem_cvtInt {t : IntTy} (v : DWord) : elem t v 0 =
    if t.sgn ∧ 2 ^ (t.w - 1) ≤ v.toNat % 2 ^ t.w then ((v.toNat % 2 ^ t.w : Nat) : Int) - 2 ^ t.w else (v.toNat % 2 ^ t.w : Nat) := by
  rw [elem, elemBits, Nat.mul_zero, Nat.pow_zero, Nat.div_one, signed]
  cases t.sgn
  · simp
  · by_cases h : v.toNat % 2 ^ t.w < 2 ^ (t.w - 1)
    · rw [if_pos rfl, if_pos h, if_neg (by simpa using h)]
    · rw [if_pos rfl, if_neg h, if_pos ⟨rfl, by simpa using h⟩]

/-- R116, R45: every case ends in the one integer result, or in an infinity. -/
theorem integerConversions : Claims.IntegerConversions := by
  unfold Claims.IntegerConversions
  intro sat sub mode t u x ht hu wide sgn lo hi gives f g z
  have hty : ∀ {c : BitVec 4}, 3 ≤ c.toNat → c.toNat ≤ 10 → cvtInt c = ⟨1, wide c, sgn c⟩ := fun h3 h10 => cvtInt_eq h3 h10
  have hw : ∀ c, wide c ≠ 0 ∧ wide c ≤ 64 := fun c => by
    dsimp only [wide]
    split
    · decide
    · split
      · decide
      · split <;> decide
  have hgives : ∀ e, 3 ≤ t.toNat → convert sat sub mode t u x = intResult (cvtInt t) sat e → gives e := by
    intro e h3 hc
    obtain ⟨v, h1, h2, hr, hv⟩ := intResult_gives (t := ⟨1, wide t, sgn t⟩) (hw t).1 sat e
    exact ⟨v, h1, h2, by rw [hc, hty h3 ht]; exact hr, hv⟩
  refine ⟨fun h3 hu3 => ?_, fun h3 hu3 => ?_, fun ht12 hu3 n hn => ?_⟩
  · rw [← elem_cvtInt (t := ⟨1, wide u, sgn u⟩)]
    exact hgives _ h3 ((convert_integer h3 hu3).trans (by rw [hty hu3 hu]))
  · have hc := convert_floatToInt (sat := sat) (sub := sub) (mode := mode) (x := x) h3 hu3
    rw [floatToInt, ← two_mul_signBit] at hc
    split
    · next hv => exact hgives _ h3 (hc.trans (by simp only [f, hv]; rfl))
    · next n hv =>
      have hinf := intResult_inf (t := ⟨1, wide t, sgn t⟩) (hw t).1 (hw t).2 n
      refine hc.trans ?_
      rw [hty h3 ht]
      simp only [f, hv, hinf]
      cases sat <;> rfl
    · next hv => exact hc.trans (by simp only [f, hv])
  · rw [two_mul_signBit] at hn
    exact convert_inf ht12 hu3 hn

end Sys2Proof.Proofs
end

section
/-! PROOFS. Dyadic orders, rounding bounds and element grids. -/
namespace Sys2Proof.Proofs
open Sys2Proof Sys2Proof.Machine Sys2Proof.Laws

theorem int_le_or_gt (a b : Int) : a ≤ b ∨ b < a := by omega

theorem nat_le_or_gt (a b : Nat) : a ≤ b ∨ b < a := by omega

/-! ### The order of dyadics -/

/-- a 2^b is at most c 2^d. -/
def dyadLe (a : Nat) (b : Int) (c : Nat) (d : Int) : Bool := a * 2 ^ (b - d).toNat ≤ c * 2 ^ (d - b).toNat

/-- On any common scale the order of dyadics is the order of their multiples. -/
theorem dyadLe_iff_scaled {a c : Nat} {b d B : Int} (hb : B ≤ b) (hd : B ≤ d) :
    dyadLe a b c d = true ↔ a * 2 ^ (b - B).toNat ≤ c * 2 ^ (d - B).toNat := by
  have hB : (b - B).toNat = (b - d).toNat + (min b d - B).toNat := by omega
  have hD : (d - B).toNat = (d - b).toNat + (min b d - B).toNat := by omega
  rw [dyadLe, decide_eq_true_eq, hB, hD, Nat.pow_add, Nat.pow_add, ← Nat.mul_assoc, ← Nat.mul_assoc]
  exact (Nat.mul_le_mul_right_iff (Nat.two_pow_pos _)).symm

/-- The model's test is the negation. -/
theorem dyadGt_eq (m : Nat) (e : Int) (n : Nat) (d : Int) : dyadGt m e n d = !dyadLe m e n d := by
  have h : dyadLe m e n d = true ↔ m * 2 ^ (e - min e d).toNat ≤ n * 2 ^ (d - min e d).toNat := dyadLe_iff_scaled (by omega) (by omega)
  rw [Bool.eq_iff_iff, dyadGt, decide_eq_true_eq, Bool.not_eq_true', ← Bool.not_eq_true, h, Nat.not_le]

theorem dyadLe_trans {a c f : Nat} {b d g : Int} (h1 : dyadLe a b c d = true) (h2 : dyadLe c d f g = true) : dyadLe a b f g = true := by
  have hb : min b (min d g) ≤ b := by omega
  have hd : min b (min d g) ≤ d := by omega
  have hg : min b (min d g) ≤ g := by omega
  rw [dyadLe_iff_scaled hb hd] at h1
  rw [dyadLe_iff_scaled hd hg] at h2
  rw [dyadLe_iff_scaled hb hg]
  exact Nat.le_trans h1 h2

theorem dyadLe_total (a : Nat) (b : Int) (c : Nat) (d : Int) : dyadLe a b c d = true ∨ dyadLe c d a b = true := by
  simp only [dyadLe, decide_eq_true_eq]
  exact Nat.le_total _ _

/-- A power of two is at most a nonzero dyadic exactly when its exponent is at most that of the leading bit. -/
theorem dyadLe_one_iff {m : Nat} (hm : m ≠ 0) (k e : Int) : dyadLe 1 k m e = true ↔ k ≤ topExp m e := by
  have hlog : ∀ s : Nat, 2 ^ s ≤ m ↔ s ≤ Nat.log2 m := fun s => (Nat.le_log2 hm).symm
  rw [dyadLe, decide_eq_true_eq, topExp, Nat.one_mul]
  rcases int_le_or_gt k e with h | h
  · have h0 : (k - e).toNat = 0 := by omega
    rw [h0, Nat.pow_zero]
    have := Nat.mul_pos (Nat.pos_of_ne_zero hm) (Nat.two_pow_pos (e - k).toNat)
    omega
  · have h0 : (e - k).toNat = 0 := by omega
    rw [h0, Nat.pow_zero, Nat.mul_one, hlog]
    omega

/-- A multiple of a dyadic's own power. -/
theorem dyadLe_shift {a c : Nat} {b d : Int} {k : Nat} : dyadLe a b (c * 2 ^ k) d = dyadLe a b c (d + k) := by
  rw [Bool.eq_iff_iff, dyadLe_iff_scaled (B := min b d) (by omega) (by omega), dyadLe_iff_scaled (B := min b d) (by omega) (by omega)]
  have : (d + k - min b d).toNat = k + (d - min b d).toNat := by omega
  rw [this, Nat.pow_add, Nat.mul_assoc]

/-! ### Rounding -/

theorem roundTo_of_le {mode : RMode} {neg : Bool} {m : Nat} {e q : Int} (h : q ≤ e) : roundTo mode neg m e q = m * 2 ^ (e - q).toNat := by
  rw [roundTo, if_pos h]

/-- A value below the spacing's exponent is rounded to one of its two neighbours, and an exact multiple to itself. -/
theorem roundTo_bounds {mode : RMode} {neg : Bool} {m : Nat} {e q : Int} (h : e < q) :
    m / 2 ^ (q - e).toNat ≤ roundTo mode neg m e q ∧ roundTo mode neg m e q * 2 ^ (q - e).toNat < m + 2 ^ (q - e).toNat := by
  have hp := Nat.two_pow_pos (q - e).toNat
  have hdiv := Nat.div_add_mod m (2 ^ (q - e).toNat)
  rw [roundTo, if_neg (by omega)]
  dsimp only
  generalize 2 ^ (q - e).toNat = P at *
  generalize m / P = k at *
  have hup : ∀ up : Bool, (up = true → m % P ≠ 0) → k ≤ (if up then k + 1 else k) ∧ (if up then k + 1 else k) * P < m + P := by
    intro up hr
    cases up
    · simp only [Bool.false_eq_true, if_false]
      exact ⟨Nat.le_refl _, by rw [Nat.mul_comm]; omega⟩
    · have := hr rfl
      simp only [if_true]
      exact ⟨Nat.le_succ _, by rw [Nat.add_mul, Nat.mul_comm, Nat.one_mul]; omega⟩
  refine hup _ fun hu h0 => ?_
  rw [h0] at hu
  cases mode <;> simp at hu
  omega

/-- Rounding to multiples of 2^q does not pass a multiple of 2^q, from either side. -/
theorem roundTo_le_of_dyadLe {mode : RMode} {neg : Bool} {m K : Nat} {e q : Int} (h : dyadLe m e K q = true) : roundTo mode neg m e q ≤ K := by
  rw [dyadLe, decide_eq_true_eq] at h
  rcases int_le_or_gt q e with hq | hq
  · rw [roundTo_of_le hq]
    simpa [show (q - e).toNat = 0 by omega] using h
  · rw [show (e - q).toNat = 0 by omega, Nat.pow_zero, Nat.mul_one] at h
    have hb := (roundTo_bounds (mode := mode) (neg := neg) (m := m) hq).2
    have : roundTo mode neg m e q * 2 ^ (q - e).toNat < (K + 1) * 2 ^ (q - e).toNat := by rw [Nat.add_mul, Nat.one_mul]; omega
    exact Nat.lt_succ_iff.1 (Nat.lt_of_mul_lt_mul_right this)

theorem le_roundTo_of_dyadLe {mode : RMode} {neg : Bool} {m K : Nat} {e q : Int} (h : dyadLe K q m e = true) : K ≤ roundTo mode neg m e q := by
  rw [dyadLe, decide_eq_true_eq] at h
  rcases int_le_or_gt q e with hq | hq
  · rw [roundTo_of_le hq]
    simpa [show (q - e).toNat = 0 by omega] using h
  · rw [show (e - q).toNat = 0 by omega, Nat.pow_zero, Nat.mul_one] at h
    exact Nat.le_trans ((Nat.le_div_iff_mul_le (Nat.two_pow_pos _)).2 h) (roundTo_bounds hq).1

theorem roundTo_zero (mode : RMode) (neg : Bool) (e q : Int) : roundTo mode neg 0 e q = 0 :=
  Nat.le_zero.1 (roundTo_le_of_dyadLe (by simp [dyadLe]))

/-! ### Element grids -/

/-- The shape of an element grid: its least spacing is at least 2^-16, its largest magnitude is at its highest exponent. -/
def gridOk (g : Grid) : Prop :=
  0 ≤ g.emin - g.fb + 16 ∧ g.emin ≤ g.emax ∧ g.maxM ≤ 2 ^ (g.fb + 1) ∧ (g.emin = g.emax ∨ 2 ^ g.fb ≤ g.maxM)

/-- What holds of the five block formats holds at every code: every other has the grid and the codes of the last. -/
theorem grid_forall {p : Grid → Nat → Prop} (h : ∀ k ∈ [4, 5, 6, 7, 8], p (gridOf k) (maxCode k)) (bf : Nat) : p (gridOf bf) (maxCode bf) := by
  by_cases hbf : bf = 4 ∨ bf = 5 ∨ bf = 6 ∨ bf = 7
  · rcases hbf with rfl | rfl | rfl | rfl <;> exact h _ (by decide)
  · obtain ⟨h4, h5, h6, h7⟩ : (bf == 4) = false ∧ (bf == 5) = false ∧ (bf == 6) = false ∧ (bf == 7) = false := by
      simp only [beq_eq_false_iff_ne]
      omega
    have hg : gridOf bf = gridOf 8 := by
      unfold gridOf
      rw [h4, h5, h6, h7]
      rfl
    have hm : maxCode bf = maxCode 8 := by
      unfold maxCode
      rw [h4, h5, h6, h7]
      rfl
    rw [hg, hm]
    exact h 8 (by decide)

theorem gridOk_gridOf (bf : Nat) : gridOk (gridOf bf) :=
  grid_forall (p := fun g _ => gridOk g) (by unfold gridOk; decide) bf

/-- A count of a spacing in units of 2^-16. -/
def units (r : Nat × Int) : Nat := r.1 * 2 ^ (r.2 + 16).toNat

/-- The largest magnitude of a grid in units of 2^-16. -/
def topUnits (g : Grid) : Nat := units (g.maxM, g.emax - g.fb)

/-- The magnitude of a code in units of 2^-16: below 2^fb a count of the least spacing, else a leading bit and a fraction. -/
def codeUnits (g : Grid) (F : Nat) : Nat :=
  (if F < 2 ^ g.fb then F else (2 ^ g.fb + F % 2 ^ g.fb) * 2 ^ (F / 2 ^ g.fb - 1)) * 2 ^ (g.emin - g.fb + 16).toNat

/-- The code of a count of a spacing has its magnitude, where the spacing is the least or the count has a leading bit. -/
theorem codeUnits_gridCode {g : Grid} (hg : 0 ≤ g.emin - g.fb + 16) {k : Nat} {q : Int} (hq : g.emin - g.fb ≤ q) (hk : k ≤ 2 ^ (g.fb + 1))
    (hn : q = g.emin - g.fb ∨ 2 ^ g.fb ≤ k) : codeUnits g (gridCode g k q) = units (k, q) := by
  have hP := Nat.two_pow_pos g.fb
  obtain ⟨E, hE⟩ : ∃ E : Nat, q = g.emin - g.fb + E := ⟨(q - (g.emin - g.fb)).toNat, by omega⟩
  have hcode : gridCode g k q = E * 2 ^ g.fb + k := by
    rw [gridCode, show (q - (g.emin - g.fb) + 1).toNat = E + 1 by omega, Nat.add_mul, Nat.one_mul]
    omega
  have hunits : units (k, q) = k * 2 ^ E * 2 ^ (g.emin - g.fb + 16).toNat := by
    rw [units, Nat.mul_assoc, ← Nat.pow_add]
    congr 2
    dsimp only
    omega
  rw [codeUnits, hcode, hunits]
  congr 1
  rw [Nat.pow_succ] at hk
  generalize 2 ^ g.fb = P at *
  rcases Nat.lt_or_ge k P with h | h
  · obtain rfl : E = 0 := by omega
    rw [Nat.zero_mul, Nat.zero_add, if_pos h, Nat.pow_zero, Nat.mul_one]
  · rw [if_neg (by omega)]
    rcases Nat.lt_or_ge k (P * 2) with h2 | h2
    · obtain ⟨r, rfl⟩ := Nat.exists_eq_add_of_le h
      have hr : r < P := by omega
      have hsum : E * P + (P + r) = r + P * (E + 1) := by rw [Nat.mul_succ, Nat.mul_comm P]; omega
      rw [hsum, Nat.add_mul_mod_self_left, Nat.mod_eq_of_lt hr, Nat.add_mul_div_left _ _ hP, Nat.div_eq_of_lt hr, Nat.zero_add, Nat.add_sub_cancel]
    · obtain rfl : k = P * 2 := by omega
      have hsum : E * P + P * 2 = P * (E + 2) := by rw [Nat.mul_add, Nat.mul_comm P E]
      rw [hsum, Nat.mul_mod_right, Nat.mul_div_cancel_left _ hP, show E + 2 - 1 = E + 1 by omega, Nat.pow_succ, Nat.add_zero, Nat.mul_assoc,
        Nat.mul_comm 2]

/-- The spacing that a value is rounded at: that of its leading bit, kept to the grid's exponents. -/
theorem gridRound_snd {g : Grid} (mode : RMode) (neg : Bool) {m : Nat} (hm : m ≠ 0) (e : Int) :
    (gridRound g mode neg m e).2 = min (max (topExp m e) g.emin) g.emax - g.fb := by
  simp [gridRound, hm]

theorem gridRound_zero (g : Grid) (mode : RMode) (neg : Bool) (e : Int) : gridRound g mode neg 0 e = (0, g.emin - g.fb) := by
  simp [gridRound, roundTo_zero]

/-- The mode that a value is rounded in: RS is RN beyond the largest element. -/
def gridMode (g : Grid) (mode : RMode) (m : Nat) (e : Int) : RMode :=
  match mode with
  | .rs u => if dyadGt m e g.maxM (g.emax - g.fb) then .rn else .rs u
  | .rn => .rn
  | .rz => .rz
  | .ru => .ru
  | .rd => .rd

theorem gridRound_fst (g : Grid) (mode : RMode) (neg : Bool) (m : Nat) (e : Int) :
    (gridRound g mode neg m e).1 = roundTo (gridMode g mode m e) neg m e (gridRound g mode neg m e).2 := by
  cases mode <;> rfl

/-- A nonzero dyadic is below the power of two above its leading bit. -/
theorem dyadLe_two_pow_of_topExp_lt {m : Nat} (hm : m ≠ 0) {e q : Int} {k : Nat} (h : topExp m e < q + k) : dyadLe m e (2 ^ k) q = true := by
  have h1 : ¬ dyadLe 1 (q + k) m e = true := by
    rw [dyadLe_one_iff hm]
    omega
  have := (dyadLe_total 1 (q + k) m e).resolve_left h1
  rwa [← dyadLe_shift, Nat.one_mul] at this

theorem dyadLe_of_le_topExp {m : Nat} (hm : m ≠ 0) {e q : Int} {k : Nat} (h : q + k ≤ topExp m e) : dyadLe (2 ^ k) q m e = true := by
  have h1 := (dyadLe_one_iff hm _ _).2 h
  have h2 : dyadLe (2 ^ k) q 1 (q + k) = true := by rw [← dyadLe_shift]; simp [dyadLe]
  exact dyadLe_trans h2 h1

/-- A rounded value is within the largest element exactly when its units are. -/
theorem dyadGt_top_iff {g : Grid} (hg : gridOk g) {r : Nat × Int} (hr : g.emin - g.fb ≤ r.2) :
    dyadGt r.1 r.2 g.maxM (g.emax - g.fb) = decide (topUnits g < units r) := by
  obtain ⟨h16, hle, _, _⟩ := hg
  have h := dyadLe_iff_scaled (a := r.1) (c := g.maxM) (B := -16) (b := r.2) (d := g.emax - g.fb) (by omega) (by omega)
  rw [Bool.eq_iff_iff, dyadGt_eq, Bool.not_eq_true', ← Bool.not_eq_true, h, decide_eq_true_eq, Nat.not_le, topUnits, units, units]
  simp only [Int.sub_neg]

/-- A value rounded within the largest element has a code: at most the largest, and with the rounded magnitude. -/
theorem gridCode_gridRound {g : Grid} (hg : gridOk g) (mode : RMode) (neg : Bool) (m : Nat) (e : Int) :
    let r := gridRound g mode neg m e
    g.emin - g.fb ≤ r.2 ∧ (units r ≤ topUnits g → gridCode g r.1 r.2 ≤ gridCode g g.maxM (g.emax - g.fb) ∧ codeUnits g (gridCode g r.1 r.2) = units r) := by
  obtain ⟨h16, hle, htop, hmax⟩ := hg
  intro r
  have hP := Nat.two_pow_pos g.fb
  rcases Decidable.em (m = 0) with rfl | hm
  · have hr : r = (0, g.emin - g.fb) := gridRound_zero g mode neg e
    rw [hr]
    exact ⟨Int.le_refl _, fun _ => ⟨by simp [gridCode], codeUnits_gridCode h16 (Int.le_refl _) (Nat.zero_le _) (.inl rfl)⟩⟩
  have hq : r.2 = min (max (topExp m e) g.emin) g.emax - g.fb := gridRound_snd mode neg hm e
  have hk : r.1 = roundTo (gridMode g mode m e) neg m e r.2 := gridRound_fst g mode neg m e
  have hmin : g.emin - g.fb ≤ r.2 := by omega
  refine ⟨hmin, fun hu => ?_⟩
  -- at the highest exponent the count is at most maxM, and below it at most the next power of two
  have hcount : (r.2 = g.emax - g.fb ∧ r.1 ≤ g.maxM) ∨ (r.2 < g.emax - g.fb ∧ r.1 ≤ 2 ^ (g.fb + 1)) := by
    rcases int_le_or_gt (g.emax - g.fb) r.2 with h | h
    · have heq : r.2 = g.emax - g.fb := by omega
      refine .inl ⟨heq, ?_⟩
      rw [topUnits, units, units, heq] at hu
      exact Nat.le_of_mul_le_mul_right hu (Nat.two_pow_pos _)
    · refine .inr ⟨h, hk ▸ roundTo_le_of_dyadLe (dyadLe_two_pow_of_topExp_lt hm ?_)⟩
      push_cast
      omega
  have hlow : r.2 = g.emin - g.fb ∨ 2 ^ g.fb ≤ r.1 := by
    rcases Decidable.em (r.2 = g.emin - g.fb) with h | h
    · exact .inl h
    · exact .inr (hk ▸ le_roundTo_of_dyadLe (dyadLe_of_le_topExp hm (by omega)))
  refine ⟨?_, codeUnits_gridCode h16 hmin (by omega) hlow⟩
  have hcode : ∀ (k : Nat) (q : Int), g.emin - g.fb ≤ q → gridCode g k q = (q - (g.emin - g.fb)).toNat * 2 ^ g.fb + k := by
    intro k q h
    rw [gridCode, show (q - (g.emin - g.fb) + 1).toNat = (q - (g.emin - g.fb)).toNat + 1 by omega, Nat.add_mul, Nat.one_mul]
    omega
  rw [hcode _ _ hmin, hcode _ _ (by omega)]
  rcases hcount with ⟨heq, hc⟩ | ⟨hlt, hc⟩
  · rw [heq]
    omega
  · have hE : (r.2 - (g.emin - g.fb)).toNat + 1 ≤ (g.emax - g.fb - (g.emin - g.fb)).toNat := by omega
    have := Nat.mul_le_mul_right (2 ^ g.fb) hE
    rw [Nat.pow_succ] at hc
    rw [Nat.add_mul] at this
    omega

/-! ### Narrowing -/

theorem maxCode_eq (bf : Nat) : gridCode (gridOf bf) (gridOf bf).maxM ((gridOf bf).emax - (gridOf bf).fb) = maxCode bf :=
  grid_forall (p := fun g c => gridCode g g.maxM (g.emax - g.fb) = c) (by decide) bf

theorem codeUnits_maxCode (bf : Nat) : codeUnits (gridOf bf) (maxCode bf) = topUnits (gridOf bf) :=
  grid_forall (p := fun g c => codeUnits g c = topUnits g) (by decide) bf

/-- The selector's bit of a D element. -/
def selBits (bf : Nat) (sel : Bool) : Nat := if (bf == 4 || bf == 5) && sel then elemSel bf else 0

/-- A value rounded within the largest element: its selector, its sign and the code of the rounded magnitude. -/
theorem narrow_fin_le {bf : Nat} (sat : Bool) (mode : RMode) (n : Bool) (m : Nat) (e : Int) (sel : Bool) :
    let g := gridOf bf
    let r := gridRound g mode n m e
    units r ≤ topUnits g → ∃ F, F ≤ maxCode bf ∧ codeUnits g F = units r ∧
      narrow bf sat mode (.fin n m e) sel = ⟨selBits bf sel + (if n then elemSign bf else 0) + F, false⟩ := by
  intro g r hu
  obtain ⟨hmin, hr⟩ := gridCode_gridRound (gridOk_gridOf bf) mode n m e
  obtain ⟨hle, hunits⟩ := hr hu
  refine ⟨_, maxCode_eq bf ▸ hle, hunits, ?_⟩
  have hgt := dyadGt_top_iff (gridOk_gridOf bf) hmin
  rw [decide_eq_false (Nat.not_lt.2 hu)] at hgt
  simp only [narrow, hgt, Bool.false_eq_true, if_false]
  rfl

/-- A value rounded beyond the largest element overflows by the format's rule (R60). -/
theorem narrow_fin_gt {bf : Nat} (sat : Bool) (mode : RMode) (n : Bool) (m : Nat) (e : Int) (sel : Bool)
    (hu : topUnits (gridOf bf) < units (gridRound (gridOf bf) mode n m e)) :
    narrow bf sat mode (.fin n m e) sel =
      if bf == 6 && !sat then ⟨0x7F, true⟩ else if bf == 7 && !sat then ⟨(if n then 0x80 else 0) + 0x7C, true⟩
      else ⟨selBits bf sel + (if n then elemSign bf else 0) + maxCode bf, true⟩ := by
  obtain ⟨hmin, _⟩ := gridCode_gridRound (gridOk_gridOf bf) mode n m e
  have hgt := dyadGt_top_iff (gridOk_gridOf bf) hmin
  rw [decide_eq_true hu] at hgt
  simp only [narrow, hgt, if_true]
  rfl

/-- A D element rounds its value, or clamps it to the largest. -/
theorem narrow_D {bf : Nat} (hD : bf = 4 ∨ bf = 5) (sat : Bool) (mode : RMode) (n : Bool) (m : Nat) (e : Int) (sel : Bool) :
    let g := gridOf bf
    let K := units (gridRound g mode n m e)
    ∃ F, F ≤ maxCode bf ∧ codeUnits g F = min (topUnits g) K ∧
      narrow bf sat mode (.fin n m e) sel = ⟨selBits bf sel + (if n then elemSign bf else 0) + F, decide (topUnits g < K)⟩ := by
  intro g K
  rcases nat_le_or_gt K (topUnits g) with h | h
  · obtain ⟨F, hF, hv, hn⟩ := narrow_fin_le sat mode n m e sel h
    exact ⟨F, hF, hv.trans (Nat.min_eq_right h).symm, by rw [hn, decide_eq_false (Nat.not_lt.2 h)]⟩
  · refine ⟨maxCode bf, Nat.le_refl _, (codeUnits_maxCode bf).trans (Nat.min_eq_left (Nat.le_of_lt h)).symm, ?_⟩
    rw [narrow_fin_gt sat mode n m e sel h, decide_eq_true h]
    rcases hD with rfl | rfl <;> rfl

end Sys2Proof.Proofs
end

section
/-! PROOFS. Elements of the block formats: the code that a value is packed to. -/
namespace Sys2Proof.Proofs
open Sys2Proof Sys2Proof.Machine Sys2Proof.Laws

/-- The largest magnitude of a grid as an integer. -/
def gridTop (g : Grid) : Nat := g.maxM * 2 ^ (g.emax - g.fb).toNat

theorem emax_sub_fb_nonneg (bf : Nat) : 0 ≤ (gridOf bf).emax - (gridOf bf).fb :=
  grid_forall (p := fun g _ => 0 ≤ g.emax - g.fb) (by decide) bf

theorem gridTop_units (bf : Nat) : gridTop (gridOf bf) * 2 ^ 16 = topUnits (gridOf bf) := by
  have h := emax_sub_fb_nonneg bf
  rw [gridTop, topUnits, units, Nat.mul_assoc, ← Nat.pow_add]
  congr 2
  dsimp only
  omega

/-- Beyond the largest element, in the statement's words. -/
theorem dyadLe_gridTop (bf m : Nat) (e : Int) :
    dyadLe m e (gridTop (gridOf bf)) 0 = !dyadGt m e (gridOf bf).maxM ((gridOf bf).emax - (gridOf bf).fb) := by
  have h := emax_sub_fb_nonneg bf
  rw [dyadGt_eq, Bool.not_not, gridTop, dyadLe_shift, show (0 : Int) + ((gridOf bf).emax - (gridOf bf).fb).toNat = (gridOf bf).emax - (gridOf bf).fb by omega]

/-- R119: the units of a value rounded to the grid, by the exponent of its leading bit. -/
theorem units_gridRound (bf : Nat) (mode : RMode) (n : Bool) (m : Nat) (e : Int) :
    let g := gridOf bf
    let q := max g.emin (min g.emax (Nat.log2 m + e)) - g.fb
    let mode' := match mode with | .rs u => if dyadLe m e (gridTop g) 0 then .rs u else .rn | .rn => .rn | .rz => .rz | .ru => .ru | .rd => .rd
    roundTo mode' n m e q * 2 ^ (q + 16).toNat = units (gridRound g mode n m e) := by
  intro g q mode'
  have hmode : mode' = gridMode g mode m e := by
    cases mode with
    | rs u =>
      simp only [mode', gridMode, g, dyadLe_gridTop]
      cases dyadGt m e (gridOf bf).maxM ((gridOf bf).emax - (gridOf bf).fb) <;> rfl
    | _ => rfl
  rcases Decidable.em (m = 0) with rfl | hm
  · rw [roundTo_zero, gridRound_zero, units, Nat.zero_mul, Nat.zero_mul]
  · have hle : g.emin ≤ g.emax := (gridOk_gridOf bf).2.1
    have hq : q = (gridRound g mode n m e).2 := by
      rw [gridRound_snd mode n hm, topExp]
      omega
    rw [units, gridRound_fst, hmode, hq]

/-! ### Packing -/

theorem scaleVal_fin (n : Bool) (m : Nat) (e : Int) (E : Nat) : scaleVal (.fin n m e) (127 - (E : Int)) = .fin n m (e + 127 - E) := by
  simp only [scaleVal]
  congr 1
  omega

/-- A D element takes the finer of its two scales where the rounded value is within the largest element, else the coarser. -/
theorem packElem_D_fin {bf : Nat} (hD : bf = 4 ∨ bf = 5) (sat : Bool) (mode : RMode) {sw : Nat} (ha : sw % 256 ≠ 255) (hb : sw / 256 % 256 ≠ 255)
    (n : Bool) (m : Nat) (e : Int) :
    let ea := sw % 256
    let eb := sw / 256 % 256
    packElem bf sat mode (.fin n m e) sw =
      if units (gridRound (gridOf bf) mode n m (e + 127 - (min ea eb : Nat))) ≤ topUnits (gridOf bf) then
        narrow bf sat mode (.fin n m (e + 127 - (min ea eb : Nat))) (decide (eb < ea))
      else narrow bf sat mode (.fin n m (e + 127 - (max ea eb : Nat))) (decide (ea ≤ eb)) := by
  intro ea eb
  have h10 : (bf == 10) = false := by rcases hD with rfl | rfl <;> rfl
  have hd : (bf == 4 || bf == 5) = true := by rcases hD with rfl | rfl <;> rfl
  have h255 : (sw % 256 == 255 || sw / 256 % 256 == 255) = false := by simp [ha, hb]
  have hgt : ∀ E : Nat, dyadGt (gridRound (gridOf bf) mode n m (e + 127 - E)).1 (gridRound (gridOf bf) mode n m (e + 127 - E)).2 (gridOf bf).maxM
      ((gridOf bf).emax - (gridOf bf).fb) = decide (topUnits (gridOf bf) < units (gridRound (gridOf bf) mode n m (e + 127 - E))) := fun E =>
    dyadGt_top_iff (gridOk_gridOf bf) (gridCode_gridRound (gridOk_gridOf bf) mode n m _).1
  simp only [packElem, h10, hd, h255, if_true, if_false, Bool.false_eq_true]
  rcases nat_le_or_gt ea eb with h | h
  · rw [if_pos (show sw % 256 ≤ sw / 256 % 256 from h), Nat.min_eq_left h, Nat.max_eq_right h, decide_eq_false (Nat.not_lt.2 h), decide_eq_true h]
    simp only [hgt, scaleVal_fin, decide_eq_true_eq, ← Nat.not_le, ite_not]
    rfl
  · rw [if_neg (show ¬ sw % 256 ≤ sw / 256 % 256 from Nat.not_le.2 h), Nat.min_eq_right (Nat.le_of_lt h), Nat.max_eq_left (Nat.le_of_lt h), decide_eq_true h, decide_eq_false (Nat.not_le.2 h)]
    simp only [hgt, scaleVal_fin, decide_eq_true_eq, ← Nat.not_le, ite_not]
    rfl

/-- An MX element takes its one scale. -/
theorem packElem_MX {bf : Nat} (h10 : bf ≠ 10) (hD : ¬ (bf = 4 ∨ bf = 5)) (sat : Bool) (mode : RMode) {sw : Nat} (ha : sw % 256 ≠ 255) (v : FVal) :
    packElem bf sat mode v sw =
      let r := narrow bf sat mode (scaleVal v (127 - ((sw % 256 : Nat) : Int))) false
      ⟨r.bits, r.fx || v.isS⟩ := by
  have h1 : (bf == 10) = false := beq_eq_false_iff_ne.2 h10
  have h2 : (bf == 4 || bf == 5) = false := by simpa [not_or] using hD
  have h3 : (sw % 256 == 255) = false := beq_eq_false_iff_ne.2 ha
  simp only [packElem, h1, h2, h3, if_false, Bool.false_eq_true]

/-- The selector's bit of a D element, for a scale chosen by a test. -/
theorem selBits_D {bf : Nat} (hD : bf = 4 ∨ bf = 5) (sel : Bool) : selBits bf sel = if sel then (if bf = 4 then 128 else 8) else 0 := by
  rcases hD with rfl | rfl <;> cases sel <;> rfl

/-- The NaN code of a D element: a NaN, or a scale of 0xFF. -/
theorem packElem_D_nan {bf : Nat} (hD : bf = 4 ∨ bf = 5) (sat : Bool) (mode : RMode) {v : FVal} {sw : Nat}
    (h : sw % 256 = 255 ∨ sw / 256 % 256 = 255 ∨ ∃ s, v = .nan s) : packElem bf sat mode v sw = ⟨0, true⟩ := by
  by_cases h255 : sw % 256 = 255 ∨ sw / 256 % 256 = 255
  · rcases hD with rfl | rfl <;> simp [packElem, narrow, h255]
  · obtain ⟨s, rfl⟩ := (or_assoc.2 h).resolve_left h255
    rcases hD with rfl | rfl <;> simp [packElem, narrow, h255]

/-- Infinity packed to a D element: the largest of its sign at the coarser scale. -/
theorem packElem_D_inf {bf : Nat} (hD : bf = 4 ∨ bf = 5) (sat : Bool) (mode : RMode) {sw : Nat} (ha : sw % 256 ≠ 255) (hb : sw / 256 % 256 ≠ 255)
    (n : Bool) : packElem bf sat mode (.inf n) sw =
      ⟨selBits bf (decide (sw % 256 ≤ sw / 256 % 256)) + (if n then elemSign bf else 0) + maxCode bf, true⟩ := by
  by_cases h : sw % 256 ≤ sw / 256 % 256 <;> rcases hD with rfl | rfl <;> simp [packElem, narrow, ha, hb, h, selBits]

/-- A finite value packed to a D element (R119, R60). -/
theorem packElem_D_code {bf : Nat} (hD : bf = 4 ∨ bf = 5) (sat : Bool) (mode : RMode) {sw : Nat} (ha : sw % 256 ≠ 255) (hb : sw / 256 % 256 ≠ 255)
    (n : Bool) (m : Nat) (e : Int) :
    let ea := sw % 256
    let eb := sw / 256 % 256
    let T := topUnits (gridOf bf)
    let fine := units (gridRound (gridOf bf) mode n m (e + 127 - (min ea eb : Nat)))
    let coarse := units (gridRound (gridOf bf) mode n m (e + 127 - (max ea eb : Nat)))
    ∃ F, F ≤ maxCode bf ∧ codeUnits (gridOf bf) F = (if fine ≤ T then fine else min T coarse) ∧
      packElem bf sat mode (.fin n m e) sw = ⟨(if fine ≤ T then selBits bf (decide (eb < ea)) else selBits bf (decide (ea ≤ eb))) +
        (if n then elemSign bf else 0) + F, decide (T < fine ∧ T < coarse)⟩ := by
  intro ea eb T fine coarse
  rw [packElem_D_fin hD sat mode ha hb]
  by_cases h : fine ≤ T
  · obtain ⟨F, hF, hu, hn⟩ := narrow_D hD sat mode n m (e + 127 - (min ea eb : Nat)) (decide (eb < ea))
    refine ⟨F, hF, by rw [if_pos h]; exact hu.trans (Nat.min_eq_right h), ?_⟩
    rw [if_pos h, if_pos h, hn]
    simp only [Nat.not_lt.2 h, false_and]
    congr 2
    exact eq_false (Nat.not_lt.2 h)
  · obtain ⟨F, hF, hu, hn⟩ := narrow_D hD sat mode n m (e + 127 - (max ea eb : Nat)) (decide (ea ≤ eb))
    refine ⟨F, hF, by rw [if_neg h]; exact hu, ?_⟩
    rw [if_neg h, if_neg h, hn]
    simp only [Nat.not_le.1 h, true_and]
    rfl

/-- A finite value packed to an MX element (R119, R60). -/
theorem packElem_MX_code {bf : Nat} (hbf : bf = 6 ∨ bf = 7 ∨ bf = 8) (sat : Bool) (mode : RMode) {sw : Nat} (ha : sw % 256 ≠ 255)
    (n : Bool) (m : Nat) (e : Int) :
    let K := units (gridRound (gridOf bf) mode n m (e + 127 - (sw % 256 : Nat)))
    let s := if n then elemSign bf else 0
    if K ≤ topUnits (gridOf bf) then ∃ F, F ≤ maxCode bf ∧ codeUnits (gridOf bf) F = K ∧ packElem bf sat mode (.fin n m e) sw = ⟨s + F, false⟩
    else packElem bf sat mode (.fin n m e) sw = ⟨if bf = 8 ∨ sat then s + maxCode bf else if bf = 7 then s + 124 else 127, true⟩ := by
  intro K s
  have hsel : selBits bf false = 0 := by simp [selBits]
  rw [packElem_MX (by omega) (by omega) sat mode ha, scaleVal_fin]
  split
  · next h =>
    obtain ⟨F, hF, hu, hn⟩ := narrow_fin_le sat mode n m (e + 127 - (sw % 256 : Nat)) false h
    refine ⟨F, hF, hu, ?_⟩
    rw [hn, hsel, Nat.zero_add]
    rfl
  · next h =>
    rw [narrow_fin_gt sat mode n m _ false (Nat.not_le.1 h), hsel, Nat.zero_add]
    rcases hbf with rfl | rfl | rfl <;> cases sat <;> rfl

/-- Infinity, NaN and a scale of 0xFF packed to an MX element. -/
theorem packElem_MX_inf {bf : Nat} (hbf : bf = 6 ∨ bf = 7 ∨ bf = 8) (sat : Bool) (mode : RMode) {sw : Nat} (ha : sw % 256 ≠ 255) (n : Bool) :
    let s := if n then elemSign bf else 0
    packElem bf sat mode (.inf n) sw =
      if bf = 8 ∨ sat then ⟨s + maxCode bf, true⟩ else if bf = 7 then ⟨s + 124, false⟩ else ⟨127, true⟩ := by
  intro s
  rw [packElem_MX (by omega) (by omega) sat mode ha]
  rcases hbf with rfl | rfl | rfl <;> cases sat <;> cases n <;> rfl

theorem packElem_MX_nan {bf : Nat} (hbf : bf = 6 ∨ bf = 7 ∨ bf = 8) (sat : Bool) (mode : RMode) {v : FVal} {sw : Nat}
    (h : sw % 256 = 255 ∨ ∃ s, v = .nan s) : (packElem bf sat mode v sw).bits = if bf = 8 then 0 else 127 := by
  by_cases ha : sw % 256 = 255
  · rcases hbf with rfl | rfl | rfl <;> simp [packElem, narrow, ha]
  · obtain ⟨s, rfl⟩ := h.resolve_left ha
    rw [packElem_MX (by omega) (by omega) sat mode ha]
    rcases hbf with rfl | rfl | rfl <;> rfl

/-- E8M0 takes the exponent of the magnitude, 0 below its range and for zero. -/
theorem toE8m0_fin (n : Bool) (m : Nat) (e : Int) :
    (m = 0 ∨ ¬ dyadLe 1 (-127) m e → toE8m0 (.fin n m e) = ⟨0, true⟩) ∧
    ∀ k : Nat, m ≠ 0 → dyadLe 1 ((k : Int) - 127) m e → ¬ dyadLe 1 ((k : Int) - 126) m e → toE8m0 (.fin n m e) = ⟨k, false⟩ := by
  refine ⟨fun h => ?_, fun k hm h1 h2 => ?_⟩
  · have hlow : (m == 0 || topExp m e < -127) = true := by
      rcases Decidable.em (m = 0) with rfl | hm
      · rfl
      · have := mt (dyadLe_one_iff hm (-127) e).2 (h.resolve_left hm)
        simpa using .inr (Int.not_le.1 this)
    simp [toE8m0, hlow]
  · rw [dyadLe_one_iff hm] at h1 h2
    have htop : topExp m e = k - 127 := by omega
    have hm0 : (m == 0) = false := beq_eq_false_iff_ne.2 hm
    have hlow : decide (topExp m e < -127) = false := decide_eq_false (by omega)
    have hk : (topExp m e + 127).toNat = k := by omega
    simp only [toE8m0, hm0, hlow, Bool.or_false, Bool.false_eq_true, if_false, hk]

/-- R119, R60: the grid of the format gives every constant of the statement. -/
theorem packedElements : Claims.PackedElements := by
  unfold Claims.PackedElements
  intro bf sat mode sw v h4 h8 G
  have hbf : bf = 4 ∨ bf = 5 ∨ bf = 6 ∨ bf = 7 ∨ bf = 8 := by omega
  have hG : G = ((gridOf bf).emin, (gridOf bf).emax, (gridOf bf).fb, gridTop (gridOf bf), maxCode bf, elemSign bf) := by
    rcases hbf with rfl | rfl | rfl | rfl | rfl <;> rfl
  clear_value G
  subst hG
  intro dle fb M V R sign r ea eb D sel cosel
  have hM : M * 2 ^ 16 = topUnits (gridOf bf) := gridTop_units bf
  have hR : ∀ n m e E, R n m e E = units (gridRound (gridOf bf) mode n m (e + 127 - E)) := fun n m e E => by
    rw [← units_gridRound]
    cases mode <;> rfl
  have hD : D = true → bf = 4 ∨ bf = 5 := fun h => by simpa [D] using h
  have hMX : ¬ D = true → bf = 6 ∨ bf = 7 ∨ bf = 8 := fun h => by
    have : ¬ (bf = 4 ∨ bf = 5) := by simpa [D] using h
    omega
  have hsel : D = true → selBits bf (decide (eb < ea)) = sel := fun h => by
    rw [selBits_D (hD h)]
    simp only [sel, decide_eq_true_eq, ← Nat.not_le, ite_not]
  have hcosel : D = true → selBits bf (decide (ea ≤ eb)) = cosel := fun h => by
    rw [selBits_D (hD h)]
    simp only [cosel, decide_eq_true_eq]
  refine ⟨fun h hv => packElem_D_nan (hD h) sat mode hv, ?_, ?_, ?_, ?_, fun h hv => packElem_MX_nan (hMX h) sat mode hv, ?_⟩
  · rintro h ha hb n rfl
    rw [← hcosel h]
    exact packElem_D_inf (hD h) sat mode ha hb n
  · rintro h ha hb n m e rfl fine coarse
    have hc := packElem_D_code (hD h) sat mode ha hb n m e
    simp only [← hR, ← hM] at hc
    rw [← hsel h, ← hcosel h]
    exact hc
  · rintro h ha n m e rfl
    have hc := packElem_MX_code (hMX h) sat mode ha n m e
    simp only [← hR, ← hM] at hc
    exact hc
  · rintro h ha n rfl
    exact packElem_MX_inf (hMX h) sat mode ha n
  · intro x
    refine ⟨?_, fun n m e hv => ?_⟩
    · rintro (⟨s, rfl⟩ | ⟨n, rfl⟩) <;> rfl
    · subst hv
      exact toE8m0_fin n m e

end Sys2Proof.Proofs
end

section
/-! PROOFS. The scales of the block formats, and unpacked elements. -/
namespace Sys2Proof.Proofs
open Sys2Proof Sys2Proof.Machine Sys2Proof.Laws

/-! ### Scales (R118) -/

/-- A dyadic of one multiple rises with its exponent. -/
theorem dyadLe_mono {a c : Nat} {b d d' : Int} (h : dyadLe a b c d = true) (hd : d ≤ d') : dyadLe a b c d' = true := by
  refine dyadLe_trans h ?_
  rw [dyadLe, decide_eq_true_eq, show (d - d').toNat = 0 by omega, Nat.pow_zero, Nat.mul_one]
  exact Nat.le_mul_of_pos_right _ (Nat.two_pow_pos _)

/-- A nonzero dyadic is at most the power of two above its leading bit. -/
theorem dyadLe_topExp_succ {m : Nat} (hm : m ≠ 0) (e : Int) : dyadLe m e 1 (topExp m e + 1) = true := by
  refine (dyadLe_total 1 (topExp m e + 1) m e).resolve_left ?_
  rw [dyadLe_one_iff hm]
  omega

/-- The model's search gives the least exponent at which the value is at most M times the power. -/
theorem scale_search {m M : Nat} (hm : m ≠ 0) (hM : M ≠ 0) (e k : Int) (h1 : dyadLe m e M k = true) (h2 : ¬ dyadLe m e M (k - 1) = true) :
    let k0 := topExp m e - Nat.log2 M
    (if dyadGt m e M (k0 - 1) then (if dyadGt m e M k0 then k0 + 1 else k0) else k0 - 1) = k := by
  intro k0
  have hpow : ∀ x j : Int, dyadLe 1 x M j = true ↔ x ≤ Nat.log2 M + j := fun x j => dyadLe_one_iff hM x j
  have hlow : ¬ dyadLe m e M (k0 - 1) = true := fun h => by
    have := (hpow _ _).1 (dyadLe_trans ((dyadLe_one_iff hm _ _).2 (Int.le_refl _)) h)
    omega
  have hhigh : dyadLe m e M (k0 + 1) = true := dyadLe_trans (dyadLe_topExp_succ hm e) ((hpow _ _).2 (by omega))
  have hk0 : k0 ≤ k := by
    refine Decidable.byContradiction fun h => ?_
    exact hlow (dyadLe_mono h1 (by omega))
  have hk1 : k ≤ k0 + 1 := by
    refine Decidable.byContradiction fun h => ?_
    exact h2 (dyadLe_mono hhigh (by omega))
  rw [dyadGt_eq, dyadGt_eq, if_pos (by simpa using hlow)]
  by_cases h : dyadLe m e M k0 = true
  · have : k = k0 := by
      refine Decidable.byContradiction fun hne => ?_
      exact h2 (dyadLe_mono h (by omega))
    simp [h, this]
  · have : k = k0 + 1 := by
      refine Decidable.byContradiction fun hne => ?_
      exact h ((show k = k0 by omega) ▸ h1)
    simp [h, this]

/-- The scale of a D format: the least at which the value does not exceed the largest element. -/
theorem scaleOf_D {bf : Nat} (h4 : 4 ≤ bf) (h5 : bf ≤ 5) {n : Bool} {m : Nat} (hm : m ≠ 0) {e k : Int} :
    let M := if bf = 5 then 3 else 120
    dyadLe m e M k = true → ¬ dyadLe m e M (k - 1) = true → scaleOf bf (.fin n m e) = (max 0 (min 254 (k + 127))).toNat := by
  intro M h1 h2
  have hs := scale_search hm (show M ≠ 0 by simp only [M]; split <;> decide) e k h1 h2
  have hm0 : (m == 0) = false := beq_eq_false_iff_ne.2 hm
  have hmax : ∀ x : Int, min (max x 0) 254 = max 0 (min 254 x) := fun x => by omega
  obtain rfl | rfl : bf = 4 ∨ bf = 5 := by omega
  · simp only [scaleOf, hm0, hmax, Bool.false_eq_true, if_false]
    exact congrArg (fun x : Int => (max 0 (min 254 (x + 127))).toNat) hs
  · simp only [scaleOf, hm0, hmax, Bool.false_eq_true, if_false]
    exact congrArg (fun x : Int => (max 0 (min 254 (x + 127))).toNat) hs

/-- The scale of an MX format: the exponent of the value less that of the largest element. -/
theorem scaleOf_MX {bf : Nat} (h5 : 5 < bf) (h8 : bf ≤ 8) {n : Bool} {m : Nat} (hm : m ≠ 0) {e k : Int} (h1 : dyadLe 1 k m e = true)
    (h2 : ¬ dyadLe 1 (k + 1) m e = true) :
    scaleOf bf (.fin n m e) = (max 0 (min 254 (k - (if bf = 8 then 2 else if bf = 6 then 8 else 15) + 127))).toNat := by
  rw [dyadLe_one_iff hm] at h1 h2
  obtain rfl : k = topExp m e := by omega
  have hm0 : (m == 0) = false := beq_eq_false_iff_ne.2 hm
  have hmax : ∀ x : Int, min (max x 0) 254 = max 0 (min 254 x) := fun x => by omega
  obtain rfl | rfl | rfl : bf = 6 ∨ bf = 7 ∨ bf = 8 := by omega
  all_goals simp only [scaleOf, hm0, hmax, Bool.false_eq_true, if_false]; rfl

/-! ### Exact results in binary32 -/

/-- The bits of binary32 with an exponent step E over the least and a count k of the spacing. -/
def f32Bits (neg : Bool) (E k : Nat) : Nat := (if neg then 2 ^ 31 else 0) + (E * 2 ^ 23 + k)

/-- The count has a leading bit, or the spacing is the least; and both are within the format. -/
def f32Fits (E k : Nat) : Prop := E ≤ 253 ∧ k < 2 ^ 24 ∧ (E = 0 ∨ 2 ^ 23 ≤ k)

/-- A value that binary32 holds is delivered exactly in every mode. -/
theorem fround_f32_exact {m : Nat} {e : Int} (mode : RMode) (neg : Bool) (hm : m < 2 ^ 24) (he : -149 ≤ e)
    (hv : m * 2 ^ (e + 149).toNat < 2 ^ 277) :
    ∃ E k, f32Fits E k ∧ k * 2 ^ E = m * 2 ^ (e + 149).toNat ∧ fround f32 mode neg m e = ⟨f32Bits neg E k, false⟩ := by
  rcases Decidable.em (m = 0) with rfl | hm0
  · exact ⟨0, 0, ⟨by decide, by decide, .inl rfl⟩, by simp, by cases neg <;> rfl⟩
  have hlog : Nat.log2 m < 24 := (Nat.log2_lt hm0).2 hm
  have htop : topExp m e = Nat.log2 m + e := rfl
  have h127 : topExp m e ≤ 127 := by
    have h := (dyadLe_iff_scaled (B := -149) (by omega) he).1 ((dyadLe_one_iff hm0 (topExp m e) e).2 (Int.le_refl _))
    rw [Nat.one_mul, Int.sub_neg, Int.sub_neg] at h
    have := (Nat.pow_lt_pow_iff_right (by decide : 1 < 2)).1 (Nat.lt_of_le_of_lt h hv)
    omega
  obtain ⟨q, hq⟩ : ∃ q, q = max (topExp m e) (-126) - 23 := ⟨_, rfl⟩
  have hk : ∀ mode', roundTo mode' neg m e q = m * 2 ^ (e - q).toNat := fun mode' => roundTo_of_le (by omega)
  have hle : ∀ c : Nat, dyadLe c q m e = true ↔ c ≤ m * 2 ^ (e - q).toNat := fun c => by
    rw [dyadLe, decide_eq_true_eq, show (q - e).toNat = 0 by omega, Nat.pow_zero, Nat.mul_one]
  have hlt : m * 2 ^ (e - q).toNat < 2 ^ 24 := by
    refine Decidable.byContradiction fun h => ?_
    have h1 : dyadLe 1 (q + (24 : Nat)) (1 * 2 ^ 24) q = true := by
      rw [dyadLe_shift]
      simp [dyadLe]
    have := (dyadLe_one_iff hm0 _ _).1 (dyadLe_trans h1 ((hle _).2 (by simpa using h)))
    omega
  have hnorm : (q + 149).toNat = 0 ∨ 2 ^ 23 ≤ m * 2 ^ (e - q).toNat := by
    rcases int_le_or_gt (topExp m e) (-126) with h | h
    · exact .inl (by omega)
    · exact .inr ((hle _).1 (dyadLe_of_le_topExp hm0 (by omega)))
  refine ⟨(q + 149).toNat, m * 2 ^ (e - q).toNat, ⟨by omega, hlt, hnorm⟩, ?_, ?_⟩
  · rw [Nat.mul_assoc, ← Nat.pow_add, show (e - q).toNat + (q + 149).toNat = (e + 149).toNat by omega]
  · have hb : f32.bias = 127 := rfl
    have hi : f32.infBits = 255 * 2 ^ 23 := rfl
    have hq' : max (topExp m e) (1 - ((f32.bias : Nat) : Int)) - (f32.fb : Nat) = q := hq ▸ rfl
    have hE : (q + (f32.fb : Nat) + (f32.bias : Nat)).toNat = (q + 149).toNat + 1 := by
      rw [hb]
      change (q + 23 + 127).toNat = _
      omega
    have hbits : ((q + 149).toNat + 1) * 2 ^ f32.fb + m * 2 ^ (e - q).toNat - 2 ^ f32.fb = (q + 149).toNat * 2 ^ 23 + m * 2 ^ (e - q).toNat := by
      change ((q + 149).toNat + 1) * 2 ^ 23 + _ - 2 ^ 23 = _
      omega
    have hin : (q + 149).toNat * 2 ^ 23 + m * 2 ^ (e - q).toNat < f32.infBits := by
      rw [hi]
      omega
    simp only [fround, beq_eq_false_iff_ne.2 hm0, Bool.false_eq_true, if_false, hq', hk, hE, hbits, hin, if_true]
    rfl

/-- The exponent field of those bits. -/
theorem f32Bits_exponent (neg : Bool) {E k : Nat} (h : f32Fits E k) :
    f32Bits neg E k / 2 ^ f32.fb % 2 ^ f32.eb = if k < 2 ^ 23 then 0 else E + 1 := by
  obtain ⟨hE, hk, hn⟩ := h
  change f32Bits neg E k / 2 ^ 23 % 2 ^ 8 = _
  cases neg <;> simp only [f32Bits, if_true, if_false, Bool.false_eq_true] <;> split <;> omega

/-- Bits of binary32 are read back as their count and spacing. -/
theorem fdec_f32Bits (neg : Bool) {E k : Nat} (h : f32Fits E k) : fdec f32 (f32Bits neg E k) = .fin neg k ((E : Int) - 149) := by
  have hexp := f32Bits_exponent neg h
  obtain ⟨hE, hk, hn⟩ := h
  have hsign : (f32Bits neg E k / f32.signBit % 2 == 1) = neg := by
    rw [div_mod_two_eq_one (by change f32Bits neg E k < 2 * 2 ^ 31; unfold f32Bits; split <;> omega)]
    change decide (2 ^ 31 ≤ f32Bits neg E k) = neg
    cases neg <;> simp only [f32Bits, if_true, if_false, Bool.false_eq_true, decide_eq_false_iff_not, decide_eq_true_eq] <;> omega
  have hmant : f32Bits neg E k % 2 ^ f32.fb = if k < 2 ^ 23 then k else k - 2 ^ 23 := by
    change f32Bits neg E k % 2 ^ 23 = _
    cases neg <;> simp only [f32Bits, if_true, if_false, Bool.false_eq_true] <;> split <;> omega
  have hb : f32.bias = 127 := rfl
  have hfb : f32.fb = 23 := rfl
  have heb : f32.eb = 8 := rfl
  simp only [fdec, hsign, hexp, hmant]
  simp only [hb, hfb, heb]
  by_cases hs : k < 2 ^ 23
  · obtain rfl : E = 0 := by omega
    simp only [hs, if_true]
    rfl
  · have h255 : (E + 1 == 2 ^ 8 - 1) = false := by rw [beq_eq_false_iff_ne]; omega
    simp only [hs, if_false, h255, Bool.false_eq_true, beq_eq_false_iff_ne.2 (Nat.succ_ne_zero E)]
    congr 1
    · omega
    · push_cast
      omega

/-- A flush of subnormal results leaves a zero and a normal number as they are. -/
theorem flush_f32Bits (neg sub : Bool) {E k : Nat} (h : f32Fits E k) (hs : sub = false ∨ k * 2 ^ E = 0 ∨ 2 ^ 23 ≤ k * 2 ^ E) :
    flush f32 sub ⟨f32Bits neg E k, false⟩ = ⟨f32Bits neg E k, false⟩ := by
  have hexp := f32Bits_exponent neg h
  obtain ⟨hE, hk, hn⟩ := h
  rw [flush]
  dsimp only
  rw [hexp]
  rcases hs with rfl | hs | hs
  · simp
  · have hk0 : k = 0 := by
      rcases Nat.mul_eq_zero.1 hs with h | h
      · exact h
      · exact absurd h (Nat.ne_of_gt (Nat.two_pow_pos E))
    obtain rfl : E = 0 := by omega
    subst hk0
    cases neg <;> cases sub <;> rfl
  · have hk23 : ¬ k < 2 ^ 23 := by
      intro hlt
      obtain rfl : E = 0 := by omega
      omega
    rw [if_neg hk23]
    simp

/-! ### Unpacking (R120) -/

/-- The value of a magnitude code: a small count of a spacing that the grid has, with the code's units. -/
theorem gridVal_units {g : Grid} (h16 : 0 ≤ g.emin - g.fb + 16) (F : Nat) :
    units (gridVal g F) = codeUnits g F ∧ g.emin - g.fb ≤ (gridVal g F).2 ∧ (gridVal g F).1 < 2 ^ (g.fb + 1) := by
  have hP := Nat.two_pow_pos g.fb
  have hmod := Nat.mod_lt F hP
  have hlt : F < 2 ^ g.fb ↔ F / 2 ^ g.fb = 0 := by rw [Nat.div_eq_zero_iff]; omega
  rw [Nat.pow_succ]
  by_cases h0 : F / 2 ^ g.fb = 0
  · have hF : F % 2 ^ g.fb = F := Nat.mod_eq_of_lt (hlt.2 h0)
    simp only [gridVal, h0, codeUnits, units, hlt, hF, beq_self_eq_true, if_true]
    have := hlt.2 h0
    exact ⟨trivial, Int.le_refl _, by omega⟩
  · simp only [gridVal, beq_eq_false_iff_ne.2 h0, codeUnits, units, hlt, h0, Bool.false_eq_true, if_false]
    generalize F / 2 ^ g.fb = D at h0
    refine ⟨?_, by omega, by omega⟩
    rw [Nat.mul_assoc, ← Nat.pow_add, Nat.add_comm (F % _)]
    congr 2
    omega

/-- A sign bit of a code, among its higher bits. -/
theorem code_sign (code s : Nat) (hs : 0 < s) : (code / s % 2 == 1) = decide (s ≤ code % (2 * s)) := by
  rw [← div_mod_two_eq_one (Nat.mod_lt _ (by omega)), Nat.mul_comm 2 s, Nat.mod_mul_right_div_self, Nat.mod_mod]

/-- The magnitude bits of an element code. -/
theorem elemVal_eq {bf : Nat} (h4 : 4 ≤ bf) (h8 : bf ≤ 8) (code : Nat) :
    let F := code % elemSign bf
    let n : Bool := elemSign bf ≤ code % (2 * elemSign bf)
    elemVal bf code = if bf = 6 ∧ F = 127 ∨ bf = 7 ∧ 124 < F then .nan false else if bf = 7 ∧ F = 124 then .inf n
      else .fin n (gridVal (gridOf bf) F).1 (gridVal (gridOf bf) F).2 := by
  intro F n
  have hbf : bf = 4 ∨ bf = 5 ∨ bf = 6 ∨ bf = 7 ∨ bf = 8 := by omega
  have hn : (code / elemSign bf % 2 == 1) = n := code_sign code _ (by rcases hbf with rfl | rfl | rfl | rfl | rfl <;> decide)
  rw [elemVal, hn]
  clear_value n
  rcases hbf with rfl | rfl | rfl | rfl | rfl
  · rfl
  · rfl
  · simp [F, elemSign]
  · by_cases h1 : code % 128 = 124
    · simp [F, elemSign, h1]
    · simp [F, elemSign, h1]
  · rfl

/-- A scale of 0xFF gives NaN; else the element's value is scaled by the scale that its selector names. -/
theorem scaledElem_eq {bf code : Nat} (hc : code < if bf = 5 ∨ bf = 8 then 16 else 256) (ea eb : Nat) :
    let D := bf = 4 ∨ bf = 5
    let E := if D ∧ 2 * elemSign bf ≤ code then eb else ea
    scaledElem bf code ea eb = if ea = 255 ∨ D ∧ eb = 255 then .nan false else scaleVal (elemVal bf code) ((E : Int) - 127) := by
  intro D E
  have hd : (bf == 4 || bf == 5) = decide D := by simp [D, Bool.beq_eq_decide_eq]
  have hsel : (decide D && (code / elemSel bf % 2 == 1)) = decide (D ∧ 2 * elemSign bf ≤ code) := by
    by_cases h : D
    · have hs : elemSel bf = 2 * elemSign bf ∧ code < 2 * elemSel bf := by rcases h with rfl | rfl <;> exact ⟨rfl, hc⟩
      rw [div_mod_two_eq_one hs.2, hs.1]
      simp [h]
    · simp [h]
  simp only [scaledElem, hd, hsel, E]
  by_cases h : D ∧ 2 * elemSign bf ≤ code
  · simp only [h, decide_true, Bool.true_and]
    simp
  · simp only [h, if_false, decide_false]
    simp

/-- The value of a scaled element by its code: NaN, infinity, or a finite value of the grid times its scale. -/
theorem scaledElem_cases {bf code : Nat} (h4 : 4 ≤ bf) (h8 : bf ≤ 8) (hc : code < if bf = 5 ∨ bf = 8 then 16 else 256) (ea eb : Nat) :
    let D := bf = 4 ∨ bf = 5
    let E := if D ∧ 2 * elemSign bf ≤ code then eb else ea
    let F := code % elemSign bf
    let n : Bool := elemSign bf ≤ code % (2 * elemSign bf)
    scaledElem bf code ea eb = if ea = 255 ∨ (D ∧ eb = 255) ∨ (bf = 6 ∧ F = 127) ∨ (bf = 7 ∧ 124 < F) then .nan false
      else if bf = 7 ∧ F = 124 then .inf n else .fin n (gridVal (gridOf bf) F).1 ((gridVal (gridOf bf) F).2 + ((E : Int) - 127)) := by
  intro D E F n
  have hs : scaledElem bf code ea eb = if ea = 255 ∨ D ∧ eb = 255 then .nan false else scaleVal (elemVal bf code) ((E : Int) - 127) :=
    scaledElem_eq hc ea eb
  have hv : elemVal bf code = if bf = 6 ∧ F = 127 ∨ bf = 7 ∧ 124 < F then .nan false else if bf = 7 ∧ F = 124 then .inf n
      else .fin n (gridVal (gridOf bf) F).1 (gridVal (gridOf bf) F).2 := elemVal_eq h4 h8 code
  rw [hs, hv]
  by_cases h1 : ea = 255 ∨ D ∧ eb = 255
  · rw [if_pos h1, if_pos (or_assoc.1 (.inl h1))]
  by_cases h2 : bf = 6 ∧ F = 127 ∨ bf = 7 ∧ 124 < F
  · rw [if_neg h1, if_pos h2, if_pos (or_assoc.1 (.inr h2))]
    rfl
  · rw [if_neg h1, if_neg h2, if_neg (mt or_assoc.2 (not_or.2 ⟨h1, h2⟩))]
    split <;> rfl

theorem deliver_nan (sub : Bool) (mode : RMode) : flush f32 sub (fput f32 mode (.nan false)) = ⟨0x7FC00000, false⟩ := by
  change flush f32 sub ⟨f32.nanBits, false⟩ = _
  revert sub
  decide

theorem deliver_inf (sub : Bool) (mode : RMode) (n : Bool) :
    flush f32 sub (fput f32 mode (.inf n)) = ⟨if n then 0xFF800000 else 0x7F800000, false⟩ := by
  change flush f32 sub ⟨(if n then f32.signBit else 0) + f32.infBits, false⟩ = _
  revert sub n
  decide

/-- An element's finite value times its scale is delivered exactly where binary32 holds it. -/
theorem deliver_scaled {bf : Nat} (mode : RMode) (sub n : Bool) (F E : Nat) (hv : codeUnits (gridOf bf) F * 2 ^ (E + 6) < 2 ^ 277)
    (hs : sub = false ∨ codeUnits (gridOf bf) F = 0 ∨ 2 ^ 23 ≤ codeUnits (gridOf bf) F * 2 ^ (E + 6)) :
    let v := gridVal (gridOf bf) F
    let r := flush f32 sub (fput f32 mode (.fin n v.1 (v.2 + ((E : Int) - 127))))
    r.fx = false ∧ ∃ m e, fdec f32 r.bits = .fin n m e ∧ -149 ≤ e ∧ m * 2 ^ (e + 149).toNat = codeUnits (gridOf bf) F * 2 ^ (E + 6) := by
  intro v r
  have h16 := (gridOk_gridOf bf).1
  obtain ⟨hu, hlow, hlt⟩ := gridVal_units h16 F
  have hfb : (gridOf bf).fb ≤ 3 := grid_forall (p := fun g _ => g.fb ≤ 3) (by decide) bf
  have hm : v.1 < 2 ^ 24 := Nat.lt_of_lt_of_le hlt (Nat.pow_le_pow_right (by decide) (by omega))
  have hunits : v.1 * 2 ^ (v.2 + ((E : Int) - 127) + 149).toNat = codeUnits (gridOf bf) F * 2 ^ (E + 6) := by
    rw [← hu, units, Nat.mul_assoc, ← Nat.pow_add]
    congr 2
    simp only [v]
    omega
  obtain ⟨S, k, hfit, hval, hr⟩ := fround_f32_exact (m := v.1) (e := v.2 + ((E : Int) - 127)) mode n hm (by simp only [v]; omega) (hunits ▸ hv)
  rw [hunits] at hval
  have hflush : r = ⟨f32Bits n S k, false⟩ := by
    have h0 : sub = false ∨ k * 2 ^ S = 0 ∨ 2 ^ 23 ≤ k * 2 ^ S := by
      rw [hval]
      exact hs.imp_right (Or.imp_left fun h => by rw [h, Nat.zero_mul])
    rw [← flush_f32Bits n sub hfit h0, ← hr]
    rfl
  rw [hflush]
  exact ⟨rfl, k, _, fdec_f32Bits n hfit, by omega, by rw [← hval]; congr 2; omega⟩

/-- R118, R120: the least scale by the exponents of the leading bits, and exact delivery. -/
theorem scalesAndUnpacking : Claims.ScalesAndUnpacking := by
  unfold Claims.ScalesAndUnpacking
  intro dle clamp
  constructor
  · intro bf v h4 h8 M
    refine ⟨?_, ?_⟩
    · rintro (⟨s, rfl⟩ | ⟨n, rfl⟩) <;> rfl
    · rintro n m e rfl
      refine ⟨?_, fun hm k => ⟨fun h5 => scaleOf_D h4 h5 hm, fun h5 => scaleOf_MX h5 h8 hm⟩⟩
      rintro rfl
      rfl
  intro bf mode sub code sw h4 h8 hc G
  have hbf : bf = 4 ∨ bf = 5 ∨ bf = 6 ∨ bf = 7 ∨ bf = 8 := by omega
  have hG : G = ((gridOf bf).fb, ((gridOf bf).emin - (gridOf bf).fb + 16).toNat, elemSign bf) := by
    rcases hbf with rfl | rfl | rfl | rfl | rfl <;> rfl
  clear_value G
  subst hG
  intro F V D E nan r
  have hr : r = flush f32 sub (fput f32 mode (scaledElem bf code (sw % 256) (sw / 256 % 256))) := by
    have h10 : (bf == 10) = false := by rw [beq_eq_false_iff_ne]; omega
    simp only [r, unpackElem, h10, Bool.false_eq_true, if_false]
  have hE : (if (bf = 4 ∨ bf = 5) ∧ 2 * elemSign bf ≤ code then sw / 256 % 256 else sw % 256) = E := by
    simp [E, D]
  have hnan : (sw % 256 = 255 ∨ ((bf = 4 ∨ bf = 5) ∧ sw / 256 % 256 = 255) ∨ (bf = 6 ∧ F = 127) ∨ (bf = 7 ∧ 124 < F)) ↔ nan := by
    simp only [nan, D, decide_eq_true_eq]
  have hval := scaledElem_cases h4 h8 hc (sw % 256) (sw / 256 % 256)
  simp only [hE] at hval
  rw [hr]
  refine ⟨fun h => ?_, fun h h7 hF => ?_, fun h h7 hv hs => ?_⟩
  · rw [hval, if_pos (hnan.2 h), deliver_nan]
  · have hcode : code % (2 * elemSign bf) = code := Nat.mod_eq_of_lt (by subst h7; exact hc)
    rw [hval, if_neg (mt hnan.1 h), if_pos ⟨h7, hF⟩, deliver_inf, hcode]
    simp only [decide_eq_true_eq]
  · rw [hval, if_neg (mt hnan.1 h), if_neg fun ⟨h1, h2⟩ => Nat.ne_of_lt (h7 h1) h2]
    exact deliver_scaled mode sub _ F E hv hs

/-- Settles O21: conversions and packed elements are pinned through one order of dyadics, and every exact value that binary32 holds is delivered as it is. -/
theorem floatArithmeticAndConversions : Obligations.FloatArithmeticAndConversions :=
  ⟨floatArithmetic, floatConversions, integerConversions, packedElements, scalesAndUnpacking⟩

end Sys2Proof.Proofs
end

section
/-! PROOFS. The reach of a capability built from a base and a length. -/
namespace Sys2Proof.Proofs
open Sys2Proof Sys2Proof.Machine

/-! ### Rounding to a multiple -/

theorem le_roundUp {m : Nat} (hm : 0 < m) (a : Nat) : a ≤ roundUp a m := by
  have h := Nat.lt_div_mul_add (a := a + m - 1) hm
  rw [roundUp, ceilDiv]
  omega

theorem roundUp_lt {m : Nat} (hm : 0 < m) (a : Nat) : roundUp a m < a + m := by
  have h := Nat.div_mul_le_self (a + m - 1) m
  rw [roundUp, ceilDiv]
  omega

theorem roundUp_one (a : Nat) : roundUp a 1 = a := by simp [roundUp, ceilDiv]

theorem dvd_roundUp (a m : Nat) : m ∣ roundUp a m := Nat.dvd_mul_left _ _

/-! ### The search for the least exponent -/

/-- The base of R123 at an exponent. -/
def reachLo (b e : Nat) : Nat := b / 2 ^ e * 2 ^ e

/-- The top of R123 at an exponent. -/
def reachHi (b n e : Nat) : Nat := roundUp (b + n) (2 ^ e)

/-- The length field holds the range rounded outward at an exponent. -/
def reachFits (b n e : Nat) : Prop := reachHi b n e - reachLo b e ≤ (2 ^ 19 - 1) * 2 ^ e

theorem reachLo_le (b e : Nat) : reachLo b e ≤ b := Nat.div_mul_le_self _ _

theorem lt_reachLo_add (b e : Nat) : b < reachLo b e + 2 ^ e := Nat.lt_div_mul_add (Nat.two_pow_pos e)

theorem le_reachHi (b n e : Nat) : b + n ≤ reachHi b n e := le_roundUp (Nat.two_pow_pos e) _

theorem reachHi_lt (b n e : Nat) : reachHi b n e < b + n + 2 ^ e := roundUp_lt (Nat.two_pow_pos e) _

theorem reachLo_le_reachHi (b n e : Nat) : reachLo b e ≤ reachHi b n e :=
  Nat.le_trans (reachLo_le b e) (Nat.le_trans (Nat.le_add_right b n) (le_reachHi b n e))

theorem reachLo_zero (b : Nat) : reachLo b 0 = b := by simp [reachLo]

theorem reachHi_zero (b n : Nat) : reachHi b n 0 = b + n := roundUp_one _

theorem reachLo_div (b e : Nat) : reachLo b e / 2 ^ e = b / 2 ^ e := Nat.mul_div_cancel _ (Nat.two_pow_pos e)

/-- Both ends are multiples of 2^E, so the length is too. -/
theorem reachHi_sub_reachLo_div_mul (b n e : Nat) : (reachHi b n e - reachLo b e) / 2 ^ e * 2 ^ e = reachHi b n e - reachLo b e :=
  Nat.div_mul_cancel (Nat.dvd_sub (dvd_roundUp _ _) (Nat.dvd_mul_left _ _))

theorem reachFits.length_div_lt {b n e : Nat} (h : reachFits b n e) : (reachHi b n e - reachLo b e) / 2 ^ e < 2 ^ 19 :=
  Nat.lt_of_le_of_lt (Nat.div_le_of_le_mul (Nat.le_trans h (Nat.le_of_eq (Nat.mul_comm _ _)))) (by decide)

theorem reachFits_zero {n : Nat} (b : Nat) (hn : n < 2 ^ 19) : reachFits b n 0 := by
  rw [reachFits, reachHi_zero, reachLo_zero]
  omega

theorem fitReach_of_fits {b n e : Nat} (h : reachFits b n e) (fuel : Nat) :
    fitReach b n (fuel + 1) e = some (e, reachLo b e, reachHi b n e) := if_pos h

theorem fitReach_of_not_fits {b n e : Nat} (h : ¬ reachFits b n e) (fuel : Nat) : fitReach b n (fuel + 1) e = fitReach b n fuel (e + 1) :=
  if_neg h

/-- The search finds nothing exactly when no exponent of its range fits. -/
theorem fitReach_eq_none_iff {b n fuel e₀ : Nat} : fitReach b n fuel e₀ = none ↔ ∀ e, e₀ ≤ e → e < e₀ + fuel → ¬ reachFits b n e := by
  induction fuel generalizing e₀ with
  | zero => exact ⟨fun _ e h1 h2 => absurd h1 (Nat.not_le.2 h2), fun _ => rfl⟩
  | succ fuel ih =>
    by_cases hf : reachFits b n e₀
    · rw [fitReach_of_fits hf]
      exact ⟨fun h => (nomatch h), fun h => absurd hf (h e₀ (Nat.le_refl _) (by omega))⟩
    · rw [fitReach_of_not_fits hf, ih]
      refine ⟨fun h e h1 h2 => ?_, fun h e h1 h2 => h e (by omega) (by omega)⟩
      rcases Nat.eq_or_lt_of_le h1 with rfl | h1
      · exact hf
      · exact h e h1 (by omega)

/-- What the search finds is the least exponent of its range that fits, with the bounds rounded at it. -/
theorem fitReach_eq_some {b n fuel e₀ e b' t' : Nat} (h : fitReach b n fuel e₀ = some (e, b', t')) :
    e < e₀ + fuel ∧ reachFits b n e ∧ (∀ e', e₀ ≤ e' → e' < e → ¬ reachFits b n e') ∧ b' = reachLo b e ∧ t' = reachHi b n e := by
  induction fuel generalizing e₀ with
  | zero => cases h
  | succ fuel ih =>
    by_cases hf : reachFits b n e₀
    · rw [fitReach_of_fits hf] at h
      cases h
      exact ⟨by omega, hf, fun e' h1 h2 => absurd h1 (Nat.not_le.2 h2), rfl, rfl⟩
    · rw [fitReach_of_not_fits hf] at h
      obtain ⟨hlt, hfit, hleast, hb, ht⟩ := ih h
      refine ⟨by omega, hfit, fun e' h1 h2 => ?_, hb, ht⟩
      rcases Nat.eq_or_lt_of_le h1 with rfl | h1
      · exact hf
      · exact hleast e' h1 h2

theorem reachOf_eq_some {b n e b' t' : Nat} (h : reachOf b n = some (e, b', t')) :
    e ≤ 39 ∧ reachFits b n e ∧ (∀ e', e' < e → ¬ reachFits b n e') ∧ b' = reachLo b e ∧ t' = reachHi b n e := by
  obtain ⟨hlt, hfit, hleast, hb, ht⟩ := fitReach_eq_some h
  exact ⟨by omega, hfit, fun e' => hleast e' (Nat.zero_le _), hb, ht⟩

theorem reachOf_eq_none_iff {b n : Nat} : reachOf b n = none ↔ ∀ e, e ≤ 39 → ¬ reachFits b n e :=
  fitReach_eq_none_iff.trans ⟨fun h e he => h e (Nat.zero_le _) (by omega), fun h e _ he => h e (by omega)⟩

theorem reachOf_of_lt {n : Nat} (b : Nat) (hn : n < 2 ^ 19) : reachOf b n = some (0, b, b + n) := by
  rw [reachOf, fitReach_of_fits (reachFits_zero b hn), reachLo_zero, reachHi_zero]

/-! ### The fields decode to the bounds -/

/-- R122: a base field with the cursor's own middle bits decodes to the cursor rounded down, with no borrow. -/
theorem capBase_of_bf {c : Cap} (h : c.bf.toNat = c.addr.toNat / 2 ^ capE c % 2 ^ 19) : capBase c = reachLo c.addr.toNat (capE c) := by
  have hsplit : c.addr.toNat / 2 ^ (capE c + 19) * 2 ^ (capE c + 19) + c.bf.toNat * 2 ^ capE c = reachLo c.addr.toNat (capE c) := by
    rw [h, reachLo, Nat.pow_add, ← Nat.div_div_eq_div_mul, ← Nat.mul_assoc, Nat.mul_right_comm, ← Nat.add_mul, Nat.div_add_mod']
  have hlt : reachLo c.addr.toNat (capE c) < 2 ^ 64 := Nat.lt_of_le_of_lt (reachLo_le _ _) c.addr.isLt
  simp only [capBase, ← h, Nat.lt_irrefl, if_false]
  rw [Int.sub_zero, ← Int.natCast_mul, ← Int.natCast_add, hsplit]
  exact Nat.mod_eq_of_lt hlt

/-- What a capability with the fields of a fitting reach and its cursor at the requested base holds and decodes to. -/
theorem withReach_decodes (c : Cap) {b n e : Nat} (hb : b < 2 ^ 64) (he : e ≤ 39) (hfit : reachFits b n e) :
    let x := { withReach c e (reachLo b e) (reachHi b n e) with addr := .ofNat 64 b }
    x.e.toNat = e ∧ x.bf.toNat = reachLo b e / 2 ^ e % 2 ^ 19 ∧ x.lf.toNat = (reachHi b n e - reachLo b e) / 2 ^ e ∧
    capBase x = reachLo b e ∧ capBase x + capLen x = reachHi b n e := by
  intro x
  have hE : x.e.toNat = e := Nat.mod_eq_of_lt (by omega)
  have hexp : capE x = e := by rw [capE, hE, Nat.min_eq_left he]
  have haddr : x.addr.toNat = b := Nat.mod_eq_of_lt hb
  have hbf : x.bf.toNat = reachLo b e / 2 ^ e % 2 ^ 19 := rfl
  have hlf : x.lf.toNat = (reachHi b n e - reachLo b e) / 2 ^ e := Nat.mod_eq_of_lt hfit.length_div_lt
  have hbase : capBase x = reachLo b e := by
    rw [capBase_of_bf (by rw [hbf, haddr, hexp, reachLo_div]), haddr, hexp]
  have hlen : capLen x = reachHi b n e - reachLo b e := by
    rw [capLen, hlf, hexp, reachHi_sub_reachLo_div_mul]
  exact ⟨hE, hbf, hlf, hbase, by rw [hbase, hlen, Nat.add_sub_cancel' (reachLo_le_reachHi b n e)]⟩

/-- Settles O26: the search returns the least exponent that fits, and the fields written for it decode to the bounds it rounded. -/
theorem reachEncoding : Obligations.ReachEncoding := by
  unfold Obligations.ReachEncoding
  intro c b n hb lo hi fits
  refine ⟨reachOf_eq_none_iff, reachOf_of_lt b, fun e b' t' h => ?_⟩
  obtain ⟨he, hfit, hleast, rfl, rfl⟩ := reachOf_eq_some h
  have hlo : b - reachLo b e < 2 ^ e := Nat.sub_lt_left_of_lt_add (reachLo_le b e) (lt_reachLo_add b e)
  have hhi : reachHi b n e - (b + n) < 2 ^ e := Nat.sub_lt_left_of_lt_add (le_reachHi b n e) (reachHi_lt b n e)
  have hmax : reachHi b n e - reachLo b e ≤ (2 ^ 19 - 1) * 2 ^ 39 :=
    Nat.le_trans hfit (Nat.mul_le_mul_left _ (Nat.pow_le_pow_right (by decide) he))
  exact ⟨he, hfit, hleast, rfl, rfl, hlo, hhi, reachLo_le b e, Nat.le_trans (Nat.le_add_right b n) (le_reachHi b n e), hmax,
    withReach_decodes c hb he hfit⟩

end Sys2Proof.Proofs
end
